-- ==== Sys2Proof/Word.lean ====
section
/-! DEFINITION. The word types of the hub and their plainest arithmetic. -/

namespace Sys2Proof

/-- A byte of store memory, of a packet payload or of a descriptor. -/
abbrev Byte := BitVec 8

/-- A register (R446: every register is 32 bits wide). -/
abbrev W32 := BitVec 32

/-- A 64-bit word: a fabric address (R18), a quadword of a descriptor or a packet. -/
abbrev W64 := BitVec 64

/-- An 18-bit fabric endpoint number (R3). -/
abbrev Endpoint := BitVec 18

/-- A partition number, 0 to 255 (R426). -/
abbrev PartNum := BitVec 8

/-- A hub descriptor queue, 0 to 4,095 (R150). -/
abbrev QueueNum := BitVec 12

/-- A page of the hub-local space: offset bits 49:21 (R26). -/
abbrev PageNum := BitVec 29

end Sys2Proof
end

