-- ==== Sys2Proof/Syntax.lean ====
section
/-! DEFINITION. The commands of the hub: one constructor per row of spec/opcode_table.json, with the operands the
row's rules name. Commands come from outside (hosts, fabric, pins), from the hub's own engines and from time; a
command names the thing it happens to. Physical facts (what a memory's check found, a sensor's reading) are operands. -/

namespace Sys2Proof

/-- The register paths of Table 13-1 (R445): each is one function for the per-function registers. -/
inductive Path where
  | pf (port : Fin 2)
  | vf (port : Fin 2) (n : Fin 128)
  | mgmt
  | akist
  deriving DecidableEq, Repr

/-- A fabric packet (R360, Table 10-4). `len` is LEN: the payload's length, and for RD the bytes asked for; `pois` is the POISON mask that follows the
payload of a WR with PMASK set; `crc` is the CRC-32C present when E2E is set. -/
structure Packet where
  type : Byte
  tc : BitVec 3
  zip : Bool
  e2e : Bool
  tallyEn : Bool
  tallyUnit : Bool
  loan : Bool
  epoch : BitVec 16
  dst : Endpoint
  pmask : Bool
  src : Endpoint
  tid : BitVec 18
  key : BitVec 16
  hops : BitVec 5
  addr : W64
  arg : W64
  len : BitVec 13
  payload : List Byte
  pois : W64
  crc : W32
  deriving DecidableEq, Repr

/-- What the check of a memory (Table 14-3) found when an access read it. -/
inductive Media where
  | good
  | corrected          -- corrected error, or a flash read that needed retries
  | failed             -- uncorrectable error
  | crcFailed          -- a flash block that decoded but failed its CRC-32 (R489)
  deriving DecidableEq, Repr

/-- A lent extent: a host extent of a PCIe port (R55) or a loan-out extent of the loan table (R59). -/
inductive ExtId where
  | host (port : Fin 2) (n : Fin 64)
  | loan (n : Fin 1024)
  deriving DecidableEq, Repr

/-- A host access to a BAR2 aperture or a proxy window (R398, R399). -/
inductive HostOp where
  | read (n : Fin 4097)
  | write (data : List Byte)
  | fetchAdd (size8 : Bool) (v : W64)
  | swap (size8 : Bool) (v : W64)
  | cas (size8 : Bool) (cmp v : W64)
  | cas128
  deriving DecidableEq, Repr

/-- MetaValue of a CXL.mem request (Table 9-4): S asks for shared, A for ownership, I for uncached. -/
inductive MetaValue where
  | a | s | i
  deriving DecidableEq, Repr

/-- A back-invalidation response (Table 9-4). -/
inductive BiRsp where
  | i | s | e
  deriving DecidableEq, Repr

/-- What starts the reset of a PCIe port (Table 15-4). -/
inductive PortResetCause where
  | perst | hotReset | linkDown
  deriving DecidableEq, Repr

/-- A configuration request of a host (R394, R395, R410, R413, R443). -/
inductive ConfigOp where
  | cxlMemEnable (on : Bool)
  | atsEnable (on : Bool)
  | pasidEnable (on : Bool)
  | busMaster (on : Bool)
  | priEnable (on : Bool)
  | priReset
  | priAllocation (n : Fin 513)
  | msixMask (entry : Fin 128) (on : Bool)
  | capRead
  | doeRead
  | otherRead
  | otherWrite
  deriving DecidableEq, Repr

/-- The CXL mailbox commands of Table 11-1; any other is not supported. -/
inductive MailboxOp where
  | identifyMemoryDevice | getSupportedLogs | getLogCel | getEventRecords | clearEventRecords | other
  deriving DecidableEq, Repr

/-- A PRG Response code (R413). -/
inductive PrgCode where
  | success | invalidRequest | responseFailure
  deriving DecidableEq, Repr

/-- A JTAG access (R525): the two instructions a closed port answers, or any other. -/
inductive JtagOp where
  | idcode | bypass
  | regRead (off : BitVec 26)
  | regWrite (off : BitVec 26) (v : W32)
  | other
  deriving DecidableEq, Repr

/-- A firmware image as the ROM reads it (R512, R527): its bytes, its SVN, its version register value. -/
structure FwImage where
  bytes : List Byte
  svn : BitVec 6
  version : W32
  signature : List Byte
  deriving DecidableEq, Repr, Inhabited

/-- What the training of one flash die found (R513). -/
structure DieFit where
  channel : Fin 32
  die : Fin 32
  deriving DecidableEq, Repr

/-- What the training of one fabric port found (R354): the lanes that failed and the peer's endpoint number. -/
structure PortFit where
  port : Fin 64
  laneFail : Byte
  peer : Endpoint
  deriving DecidableEq, Repr

/-- What the training of one PCIe port found (Table 11-12). -/
structure HostFit where
  port : Fin 2
  speed : BitVec 4
  width : BitVec 5
  flit : Bool
  deriving DecidableEq, Repr

/-- The commands, in the order of spec/opcode_table.json. `m` is what the check of the memory read found, `dir` that of the directory entry (R328); where a
command may leave one out it is good. `bad` and `poison` mark data that comes poisoned. -/
inductive Instr where
  | slowTickEdge
  | ceTrigger (medium : BitVec 4) (unit : BitVec 16)
  | replicaRetire (table : BitVec 14) (row : BitVec 40)
  | widen (alloc : BitVec 16)
  | prefetchRangeExpire
  | tallyWaitTimeout (q : QueueNum) (seq : W32)
  | requestTimeout (tag : BitVec 18)
  | recallTimeout (line : BitVec 44) (slot : Byte)
  | cueExpire (src : Endpoint)
  | ledgerRevert (id : W64)
  | prevEpochRetire
  | priTimeout (eng : Fin 32) (ch : Fin 8)
  | partnerAge (ep : Endpoint)
  | noticePeriodEnd (ext : ExtId)
  | packetDwellExpire (n : Nat)
  | scrubRead (off : BitVec 50) (m : Media)
  | fwSelfCheck (ok : Bool)
  | allocCreate (path : Path) (v : W32)
  | allocDestroy (path : Path) (v : W32)
  | allocPagesReturned (num : BitVec 16)
  | setFlags (path : Path) (v : W32)
  | projRestart (path : Path) (v : W32)
  | projStop (path : Path) (v : W32)
  | projFetchStart (num : BitVec 16)
  | projFetchDone (num : BitVec 16)
  | tierQuotaWrite (path : Path) (t : Fin 6) (v : W32)
  | hostxLend (path : Path) (v : W32)
  | hostxNotice (path : Path) (v : W32)
  | extentRelease (ext : ExtId)
  | pageMovePassEnd (page : PageNum) (m : Media)
  | pageSwitch (page : PageNum)
  | oldLocationRelease (page : PageNum)
  | rowCopyEnd (table : BitVec 14) (row : BitVec 40)
  | rowSwitch (table : BitVec 14) (row : BitVec 40)
  | rowOldRelease (table : BitVec 14) (row : BitVec 40)
  | replicaGrant (from_ : Endpoint) (table : BitVec 14) (row : BitVec 40)
  | replicaFill (table : BitVec 14) (row : BitVec 40) (data : List Byte) (poison : List Nat := [])
  | wideCtlRevert (path : Path) (v : W32)
  | dqDoorbell (path : Path) (slot : Fin 64) (v : W32)
  | doorbell (port : Fin 64) (p : Packet)
  | descriptorFetch (q : QueueNum)
  | descriptorStart (q : QueueNum) (seq : W32)
  | copy (q : QueueNum) (seq : W32)
  | fill (q : QueueNum) (seq : W32)
  | fence (q : QueueNum) (seq : W32)
  | kernelEnd (q : QueueNum) (seq : W32)
  | tallyWait (q : QueueNum) (seq : W32)
  | tallyAdd (q : QueueNum) (seq : W32)
  | tallyTargetReached (q : QueueNum) (seq : W32)
  | matvec (q : QueueNum) (seq : W32)
  | matmul (q : QueueNum) (seq : W32)
  | attend (q : QueueNum) (seq : W32)
  | reduce (q : QueueNum) (seq : W32)
  | quant (q : QueueNum) (seq : W32)
  | eltwise (q : QueueNum) (seq : W32)
  | optim (q : QueueNum) (seq : W32)
  | gather (q : QueueNum) (seq : W32)
  | scatterDirect (q : QueueNum) (seq : W32)
  | scatterRoute (q : QueueNum) (seq : W32)
  | scatterApply (q : QueueNum) (seq : W32)
  | sortuniq (q : QueueNum) (seq : W32)
  | search (q : QueueNum) (seq : W32)
  | searchQueryStart (q : QueueNum) (seq : W32) (n : BitVec 10)
  | insert (q : QueueNum) (seq : W32)
  | insertPublish (q : QueueNum) (seq : W32)
  | delete (q : QueueNum) (seq : W32)
  | squeeze (q : QueueNum) (seq : W32)
  | unsqueeze (q : QueueNum) (seq : W32)
  | prefetch (q : QueueNum) (seq : W32)
  | advise (q : QueueNum) (seq : W32)
  | invalAsid (q : QueueNum) (seq : W32)
  | snapshot (q : QueueNum) (seq : W32)
  | stepmark (q : QueueNum) (seq : W32)
  | descriptorComplete (q : QueueNum) (seq : W32)
  | doneTallyAdd (q : QueueNum) (seq : W32)
  | completionRecordWrite (q : QueueNum)
  | dqCtlEnable (path : Path) (slot : Fin 64) (v : W32)
  | dqCtlClear (path : Path) (slot : Fin 64) (v : W32)
  | dqCtlAbort (path : Path) (slot : Fin 64) (v : W32)
  | dqCqHeadWrite (path : Path) (slot : Fin 64) (v : W32)
  | dqMapWrite (path : Path) (slot : Fin 64) (v : W32)
  | tblCreate (path : Path) (v : W32)
  | tblDestroy (path : Path) (v : W32)
  | tblClearStale (path : Path) (v : W32)
  | broadcastCommit (src : Endpoint) (table : BitVec 14) (seqNo : W32) (rows : List (BitVec 40 × List Byte × List Nat))
  | idxCreate (path : Path) (v : W32)
  | idxDestroy (path : Path) (v : W32)
  | idxSwap (path : Path) (v : W32)
  | swapDrained (idx : BitVec 6)
  | ctblLoad (path : Path) (v : W32)
  | ctblRetire (path : Path) (v : W32)
  | laneEncode (lane : Fin 32) (m : Media := .good)
  | ptTallyValWrite (path : Path) (v : W32)
  | ptWatchArm (path : Path) (v : W32)
  | tallyAssignWrite (path : Path) (v : W32)
  | rd (port : Fin 64) (p : Packet) (m : Media) (dir : Media := .good)
  | wr (port : Fin 64) (p : Packet) (dir : Media := .good)
  | atomic (port : Fin 64) (p : Packet) (dir : Media := .good)
  | cue (port : Fin 64) (p : Packet)
  | tallyWr (port : Fin 64) (p : Packet)
  | own (port : Fin 64) (p : Packet)
  | event (port : Fin 64) (p : Packet)
  | rsp (port : Fin 64) (p : Packet)
  | ack (port : Fin 64) (p : Packet)
  | retry (port : Fin 64) (p : Packet)
  | retryResend (tag : BitVec 18)
  | lend (port : Fin 64) (p : Packet)
  | notice (port : Fin 64) (p : Packet)
  | release (port : Fin 64) (p : Packet)
  | loanReleaseSend (n : Fin 1024)
  | lost (port : Fin 64) (p : Packet)
  | walkReq (port : Fin 64) (p : Packet)
  | mgmtRd (port : Fin 64) (p : Packet)
  | mgmtWr (port : Fin 64) (p : Packet)
  | packetForward (port : Fin 64) (p : Packet)
  | flitReceive (port : Fin 64) (flit : List Byte)
  | flitNak (port : Fin 64) (seq : BitVec 12)
  | linkRetrain (port : Fin 64)
  | portTrainDone (fit : PortFit)
  | portDown (port : Fin 64)
  | portCfgEnable (path : Path) (v : W32)
  | portRetrain (path : Path) (v : W32)
  | rdShared (port : Fin 64) (p : Packet) (dir : Media)
  | rdOwn (port : Fin 64) (p : Packet) (dir : Media := .good)
  | upgrade (port : Fin 64) (p : Packet) (dir : Media := .good)
  | wrBack (port : Fin 64) (p : Packet) (dir : Media := .good)
  | wrBackS (port : Fin 64) (p : Packet) (dir : Media := .good)
  | evict (port : Fin 64) (p : Packet) (dir : Media := .good)
  | grantAck (port : Fin 64) (p : Packet)
  | recallAck (port : Fin 64) (p : Packet)
  | memRd (hp : Fin 2) (hpa : W64) (mv : MetaValue) (tag : BitVec 16) (dir : Media := .good)
  | memWr (hp : Fin 2) (hpa : W64) (mv : MetaValue) (data : List Byte) (be : W64) (tag : BitVec 16) (bad : Bool := false) (dir : Media := .good)
  | memInv (hp : Fin 2) (hpa : W64) (mv : MetaValue) (tag : BitVec 16) (dir : Media := .good)
  | memClnEvct (hp : Fin 2) (hpa : W64) (tag : BitVec 16) (dir : Media := .good)
  | biRsp (hp : Fin 2) (hpa : W64) (r : BiRsp)
  | biConflict (hp : Fin 2) (hpa : W64)
  | walkPassStart
  | walkPassEnd (dir : Media := .good)
  | cohAgentSet (path : Path) (v : W32)
  | cohAgentClear (path : Path) (v : W32)
  | cohAgentClearLost (path : Path) (v : W32)
  | regionCreate (path : Path) (v : W32)
  | regionDestroy (path : Path) (v : W32)
  | regionOwn (path : Path) (v : W32)
  | regionQuery (path : Path) (v : W32)
  | csCommit (path : Path) (v : W32)
  | csDiscard (path : Path) (v : W32)
  | commitRequestsDrained
  | commitSwitch
  | rtDataHiWrite (path : Path) (v : W32)
  | claim (port : Fin 64) (p : Packet)
  | offer (port : Fin 64) (p : Packet)
  | accept (port : Fin 64) (p : Packet)
  | cancel (port : Fin 64) (p : Packet)
  | ledgerRelease (port : Fin 64) (p : Packet)
  | ledgerQuery (port : Fin 64) (p : Packet)
  | bar2Access (path : Path) (off : W64) (op : HostOp)
  | proxyBarAccess (path : Path) (off : W64) (op : HostOp)
  | hdmCommit (hp : Fin 2) (d : Fin 8) (base size : W64) (ways : Byte)
  | proxyFlr (path : Path)
  | flr (path : Path)
  | pciePortReset (hp : Fin 2) (cause : PortResetCause)
  | map (path : Path) (v : W32)
  | unmap (path : Path) (v : W32)
  | mapQuery (path : Path) (v : W32)
  | mapInval (path : Path) (v : W32)
  | asidCfgWrite (path : Path) (v : W32)
  | atsInvalidate (hp : Fin 2) (fn : Byte) (pasid : BitVec 20) (addr : W64) (pages : Nat) (tag : BitVec 5)
  | atsInvalComplete (hp : Fin 2) (tag : BitVec 5)
  | dmaStart (path : Path) (ch : Fin 8) (v : W32)
  | dmaChannelRun (eng : Fin 32)
  | prgResponse (eng : Fin 32) (ch : Fin 8) (code : PrgCode)
  | dmaComplete (eng : Fin 32) (ch : Fin 8)
  | dmaAbort (path : Path) (ch : Fin 8) (v : W32)
  | dmaResume (path : Path) (ch : Fin 8) (v : W32)
  | dmaAssignWrite (path : Path) (v : W32)
  | partCreate (path : Path) (v : W32)
  | partDestroy (path : Path) (v : W32)
  | partCtlReset (path : Path) (v : W32)
  | partResetWorkEnded (part : PartNum)
  | partResetTagsDrained (part : PartNum)
  | partResetWalkEnded (part : PartNum)
  | fnMapWrite (path : Path) (v : W32)
  | vecMaskWrite (path : Path) (q : Fin 4) (v : W32)
  | reelReset (path : Path) (v : W32)
  | reelResetEnd (reel : Fin 64)
  | registerWrite (path : Path) (off : BitVec 26) (data : List Byte)
  | lockkeyWrite (path : Path) (v : W32)
  | statusW1cWrite (path : Path) (which : Fin 3) (v : W32)
  | parityFaultWrite (path : Path) (v : W32)
  | parityInjectWrite (path : Path) (v : W32)
  | hubIntMaskWrite (path : Path) (v : W32)
  | takeWinRead (path : Path)
  | takeCapture
  | takeSwWrite (path : Path) (v : W32)
  | takeCursorWrite (path : Path) (v : W32)
  | takeAckWrite (path : Path) (v : W32)
  | flashProgramFail (ch : Fin 32) (die : Fin 32)
  | flcCtlWrite (path : Path) (v : W32)
  | snapshotStreamEnd
  | pwrokRise
  | pwrokFall
  | resetN
  | hubResetGo (path : Path) (v : W32)
  | fwVerified (a b : FwImage)
  | clocksLocked (ok : Bool)
  | memoryTrained (hbm : Byte) (ddrGiB : List Nat) (flashTib : Nat) (dies : List DieFit)
  | imageLoad (path : Path) (v : W32) (spi : List Byte)
  | imageApplied
  | linksTrained (fab : List PortFit) (pcie : List HostFit)
  | hubJoin
  | loadFw (path : Path) (v : W32) (img : FwImage)
  | reload (path : Path) (v : W32) (spi : List Byte)
  | reloadDrainExpire
  | reloadDrained
  | reloadWalkEnd
  | reloadPagesMoved
  | reloadPortsUp
  | lcTransition (path : Path) (v : W32)
  | lcDebugOpen (path : Path) (v : W32)
  | lcNewNonce (path : Path) (v : W32)
  | jtagAccess (op : JtagOp)
  | getCert (via : Fin 3)                                  -- via MCTP: 0 and 1 the PF of that port, 2 SMBus (R535)
  | getReport (via : Fin 3) (nonce : BitVec 512)
  | glitchTrip
  | clockLoss
  | sdsRefclkLoss
  | throttleStart (die power vrhot : Bool)
  | throttleEnd
  | hbmHot (k : Fin 8) (temp : Byte)
  | thermalTrip
  | lendNoticeExpire (borrower : Endpoint)
  | recallInv (port : Fin 64) (p : Packet)
  | recallShare (port : Fin 64) (p : Packet)
  | data (port : Fin 64) (p : Packet)
  | cmp (port : Fin 64) (p : Packet)
  | pcieLinkUp (fit : HostFit)
  | configRequest (path : Path) (op : ConfigOp)
  | cxlMailboxCommand (hp : Fin 2) (op : MailboxOp)
  | snapshotPageStreamed
  | hbmCool (k : Fin 8) (temp : Byte)
  | sdsRefclkReturn
  | supplyRailsGood
  | powerLoss
  deriving DecidableEq, Repr

end Sys2Proof
end

