-- ==== Sys2Proof/Config.lean ====
section
/-! DEFINITION. What the model leaves open: free values without a body, and functions the spec names but does not
compute. Nothing in Lean can find a value of any of them, so a statement holds for every value. -/

namespace Sys2Proof.Config

open Sys2Proof

/-- Free value number n (log entry 6): a state's `fresh` counts those drawn. -/
opaque freeWord : Nat → W64

/-- The SHA3-512 digest the manual names (R512, R526, R534); its computation is outside the manual (log entry 13). -/
opaque sha3 : List Byte → BitVec 512

/-- Whether an ML-DSA signature (R512, R519, R526) over a digest verifies under a key given by its digest (log entry 13). -/
opaque signatureOk (key digest : BitVec 512) (signature : List Byte) : Bool

/-- The digest of Mbaka's signing key, from the ROM (log entry 13). -/
opaque vendorKey : BitVec 512

/-- The identity public key with its certificate, and the identity key's signature over a digest (R533, R535), of the part with a serial number:
outside the manual (log entry 13). -/
opaque certificate : W64 → List Byte
opaque signReport (serial : W64) (digest : BitVec 512) : List Byte

/-- What the identity record reads as once zeroisation has erased it (R528): the manual does not say (log entry 13). -/
opaque erasedRecord : List Byte

/-- The script image in SPI, for a BOOT_CMD write that brings no contents with it, and the firmware image that staged bytes spell, whose layout the
manual does not give (log entry 6). -/
opaque spiImage : List Byte
opaque fwOf : List Byte → FwImage

/-- The hash of a directory line to its set, and of a row to each row of the sketch (R326, R73): not given (log entry 17). -/
opaque dirSet : Nat → Nat
opaque sketchHash : Fin 4 → Nat → BitVec 16

/-- Which of the FP32 results that an error bound allows an operation gives for its operands (R109, R147, log entry 14): 0 DIV, 1 SQRT, 2 RSQRT,
8 EXP, 9 EXP2, 10 LOG, 11 LOG2, 12 TANH, 13 SIGMOID, 14 GELU, 15 SILU. -/
opaque ulpChoice : Nat → W32 → W32 → W64

/-- Results of those functions that no rule states: of an infinite operand, of the logarithms for what is not positive (log entry 14). -/
opaque fpFn : Nat → W32 → W32

/-- Whether AXPY rounds its product first, for operands s, a and b (R108, R147, log entry 41). -/
opaque axpyFused : W32 → W32 → W32 → Bool

/-- Whether ELTWISE reads a zero of negative sign as −0, by format (R113, R147, log entry 81). -/
opaque negZeroRead : Nat → Bool

end Sys2Proof.Config
end

