-- ==== Sys2Proof/Machine/State.lean ====
section
/-! DEFINITION. The state of one hub as plain data, its reset, and the reasons a step can stop.
Registers are numbered as the hub itself numbers them (Table 13-10, R500): by PF BAR0 offset and INSTANCE. -/

namespace Sys2Proof.Machine

open Sys2Proof

/-- A table of numbered things: key and value pairs, keys strictly rising. -/
abbrev NMap (α : Type) := List (Nat × α)

/-- Completion status codes (Table 4-4). -/
inductive Status where
  | ok | short | widened | poison | decode | staleEpoch | ownership | timeout | quota | fault | codec | audit
  | parity | reset
  deriving DecidableEq, Repr

/-- Where in its tier a page lies: anywhere, on one flash die, or in one lent extent. -/
inductive Loc where
  | plain
  | die (channel d : Nat)
  | ext (e : ExtId)
  deriving DecidableEq, Repr

/-- An allocation (R30, R34, R41): its page range, its flag word with the disabled tiers' bits cleared (R35), its wider copy (R97) and
whether it is widened (R98). `fails` are the audit failures charged in each of the last ticks, newest first.
`draining`: destroyed, its pages not yet returned (R43). -/
structure Alloc where
  part : Nat
  base : Nat
  pages : Nat
  flags : W32
  wide : Option Nat
  wideFmt : Nat
  wideSoff : Nat
  widened : Bool
  reverting : Bool
  fails : List Nat
  draining : Bool
  deriving DecidableEq, Repr

/-- A page of the store window (R26): the allocation it belongs to, its home, its counters (R71), its heats (R72), its
advice (R103), the tick before which no placement move chooses it (R82), its DIRTY bit (R490). -/
structure Page where
  alloc : Nat
  tier : Nat
  loc : Loc
  lost : Bool
  acc : Nat
  wrc : Nat
  heat : Nat
  wheat : Nat
  seqAdvice : Bool
  willNeed : Bool
  retryAt : Nat
  dirty : Bool
  deriving DecidableEq, Repr

/-- Why a page moves: by placement (R77), out of a lent extent (R95), by flash wear (R96), because the mask no longer permits its tier (R38), off a read-only die (R487), at a reload (R521), by a quota demotion (R46). -/
inductive MoveKind where
  | placement | evac | wear | mask | readOnly | reload | quota
  deriving DecidableEq, Repr

/-- A write or atomic that waits at the home hub for a held pass or a copy-on-write (R83, R493), in arrival order. -/
inductive HeldAccess where
  | packet (port : Nat) (p : Packet)
  | bar2 (path : Path) (off : Nat) (op : HostOp)
  | cxl (hp line : Nat) (mv : MetaValue) (tag : Nat) (data : List Byte) (be : W64) (bad : Bool)
  deriving DecidableEq, Repr

/-- A page move in progress (R80 to R83). `dirty` are the blocks dirtied in the running pass, `ready` says that a pass ended with none. -/
structure Move where
  srcTier : Nat
  srcLoc : Loc
  dstTier : Nat
  dstLoc : Loc
  kind : MoveKind
  pass : Nat
  dirty : List Nat
  ready : Bool
  heldPass : Bool
  held : List HeldAccess
  retried : Bool
  deriving DecidableEq, Repr

/-- An old location not yet released (R81). -/
structure OldLoc where
  page : Nat
  part : Nat
  tier : Nat
  loc : Loc
  deriving DecidableEq, Repr

/-- A lent extent held by this hub (R49): its lender (a port, or an endpoint), its address at the lender, its pages,
its notice period in ms, whether it is withdrawn and how many slow-tick edges ago, whether it is released (a loan's RELEASE may still be owed, R388). -/
structure Extent where
  lender : Nat
  addr : Nat
  pages : Nat
  noticeMs : Nat
  withdrawn : Bool
  edges : Nat
  released : Bool
  deriving DecidableEq, Repr

/-- HBM this hub has lent (R61): the borrower's endpoint and, once it has accepted, its number of the extent (R388); the notice that LEND named. -/
structure LentOut where
  borrower : Nat
  noticeMs : Nat
  ext : Option Nat
  base : Nat
  pages : Nat
  noticed : Bool
  edges : Nat
  deriving DecidableEq, Repr

/-- The projector of a projected allocation (R62 to R70). `reserved`: its window holds pages, which a partition reset returns (Table 12-4). -/
structure Proj where
  tableOff : Nat
  layers : List (Nat × Nat)
  window : Nat
  slotPages : Nat
  winTier : Nat
  consumers : Nat
  readyTally : Nat
  doneTally : Nat
  k : Nat
  copying : Bool
  running : Bool
  reserved : Bool
  resident : List (Nat × Nat)
  deriving DecidableEq, Repr

/-- A pending PREFETCH range (R102): partition, its pages, ticks at the head. -/
structure PfRange where
  part : Nat
  pages : List Nat
  ticks : Nat
  deriving DecidableEq, Repr

/-- A row move (R88): into a row slot of tier `tier` when `toSlot`, back to its place otherwise. -/
structure RowMove where
  table : Nat
  row : Nat
  toSlot : Bool
  tier : Nat
  copies : Nat
  disturbed : Bool
  ready : Bool
  deriving DecidableEq, Repr

/-- A hot-row replica held by this hub (R91, R92): usable from the kernels that start after the fill. -/
structure Replica where
  table : Nat
  row : Nat
  part : Nat
  tier : Nat
  data : List Byte
  pois : List Nat
  filled : Bool
  coldTicks : Nat
  retiring : Bool
  deriving DecidableEq, Repr

/-- How far a descriptor has come (R165, R176): its ring entry being read, fetched, started, waiting on a tally or on answers, run to its end,
completed with its writes still being performed. -/
inductive DescStage where
  | fetching | fetched | started | waiting | ran | completed
  deriving DecidableEq, Repr

/-- A descriptor in flight (R153 to R173): its number, its own copy of the 64 bytes (R156), what it met and what it
will report, its tracked ranges, the bytes it has read, the work units of which a write failed, the audit registers sampled at its start, the rows whose
reads its dollies have not issued, each with its window (R211). -/
structure Desc where
  seq : Nat
  bytes : List Byte
  stage : DescStage
  statuses : List Status
  detail : Option Nat
  count : Nat
  audited : Nat
  failed : Nat
  nf : Nat
  reads : List (Nat × Nat)
  writes : List (Nat × Nat)
  asid : Nat
  part : Nat
  span : Nat
  waitEdges : Nat
  waitLimit : Nat
  step : Nat
  remote : NMap Byte
  remotePoison : List Nat
  badUnits : List Nat
  auditCfg : W32
  auditTol : W32
  auditRange : W32
  unread : List (Nat × Nat)
  deriving DecidableEq, Repr

/-- A completion record owed (Table 4-3), with the vector to raise once it is written (R169). -/
structure Record where
  tag : Nat
  status : Status
  opcode : Nat
  seq : Nat
  count : Nat
  detail : Nat
  audited : Nat
  failed : Nat
  nf : Nat
  notify : Option Nat
  deriving DecidableEq, Repr

/-- A hub descriptor queue (R150): descriptors in flight in order, the running kernel's samples and totals (R164,
R172), the records owed (R171), the rows updated in the kernel (R223), the replicas its kernel may use (R92). -/
structure Queue where
  descs : List Desc
  inKernel : Bool
  wide : List (Nat × Nat × Nat × Nat)
  widened : List Nat
  worst : Status
  bad : Nat
  owed : List Record
  bset : List (Nat × Nat)
  usable : List (Nat × Nat)
  deriving DecidableEq, Repr

/-- An embedding table (R196, R203): its image (Table 5-1), the mode it resolved to (R200), STALE and the receivers
no longer granted replicas (R225). `ending`: destroyed, while the descriptors `users` (queue, number), which had started, have not completed. -/
structure Table where
  part : Nat
  image : List Byte
  mode : Nat
  stale : Bool
  banned : List Nat
  ending : Bool
  users : List (Nat × Nat)
  deriving DecidableEq, Repr

/-- A search index (R229, R257, R263): its image, the one a SWAP replaced while searches still run under it, its three counts; `ending` and `users` as
for a table; `making`: CREATE waits to clear its tombstones until no agent holds a line of them (R294). -/
structure Index where
  part : Nat
  image : List Byte
  old : Option (List Byte)
  nextId : Nat
  vis : Nat
  nvecEff : Nat
  ending : Bool
  users : List (Nat × Nat)
  making : Bool
  deriving DecidableEq, Repr

/-- A broadcast received whose cue has been applied, not yet committed (R224): its owner, its table, its number, its rows with their bytes and poisoned
words. -/
structure Bcast where
  src : Nat
  table : Nat
  no : W32
  rows : List (Nat × List Byte × List Nat)
  deriving DecidableEq, Repr

/-- An INSERT whose IDs are not yet published (R258, R259). -/
structure Insertion where
  idx : Nat
  q : Nat
  seq : Nat
  first : Nat
  n : Nat
  written : Nat
  done : Bool
  deriving DecidableEq, Repr

/-- A SEARCH that has started (R252, R256): its index, the image and VIS as sampled, whether a SWAP has since replaced that image. -/
structure SearchRun where
  q : Nat
  seq : Nat
  idx : Nat
  vis : Nat
  image : List Byte
  old : Bool
  deriving DecidableEq, Repr

/-- A search query (R248): its reel, its working space, whether it holds it. -/
structure Query where
  q : Nat
  seq : Nat
  n : Nat
  reel : Nat
  wq : Nat
  started : Bool
  deriving DecidableEq, Repr

/-- A decode-table slot (R286): format, validity, generation, code lengths of symbols 0 to 256. -/
structure CtSlot where
  valid : Bool
  fmt : Nat
  gen : Nat
  lens : List Nat
  deriving DecidableEq, Repr

/-- A block queued at a codec lane for encoding (R281, R290). -/
structure LaneJob where
  block : Nat
  part : Nat
  codec : Nat
  slot : Nat
  fmt : Nat
  disturbed : Bool
  deriving DecidableEq, Repr

/-- A tally's watch (R307). -/
structure Watch where
  target : W32
  vector : Nat
  vecEn : Bool
  fired : Bool
  arm : Bool
  addr : W64
  val : W64
  deriving DecidableEq, Repr

/-- A held cue store, OWN or OFFER (R310, R349, R391). -/
structure HeldCue where
  port : Nat
  p : Packet
  edges : Nat
  deriving DecidableEq, Repr

/-- A coherence slot (R321, R322). -/
structure Slot where
  kind : Nat
  ep : Nat
  lost : Bool
  deriving DecidableEq, Repr

/-- Directory line states with an entry (Table 9-2); a line in I has none. -/
inductive LineState where
  | s | l | e | m
  deriving DecidableEq, Repr

/-- A directory entry (R325), under its LINE: STATE, LEAD, SHARERS and AGE of Table 9-1. AGE is the entry's recency within its set, 0 the entry used
last (DESIGN CHOICE, log entry 144). -/
structure DirEntry where
  st : LineState
  lead : Nat
  sharers : List Nat
  age : Byte
  deriving DecidableEq, Repr

/-- A request to one line (R335): an agent's with its slot, a host's at its line (op 0 MemRd, 1 MemWr, 2 MemInv, 3 MemClnEvct), or a write or read of
another requester. -/
inductive CohReq where
  | agent (port : Nat) (p : Packet) (slot : Option Nat)
  | host (hp op line : Nat) (mv : MetaValue) (tag : Nat) (data : List Byte) (be : W64) (bad : Bool)
  | packet (port : Nat) (p : Packet)
  | bar2 (path : Path) (off : Nat) (op : HostOp)
  | cue (port : Nat) (p : Packet)
  deriving DecidableEq, Repr

/-- The row of Table 9-5 a transaction runs: a shared or host read, ownership, a recall for an uncached read (UR) or an
invalidating write (IW), an eviction or a walk's recall (DE). -/
inductive TxnRow where
  | rs | hs | ow | ur | iw | de
  deriving DecidableEq, Repr

/-- A request that waits in arrival order (R334): behind the open transaction of a line, or (none) until the home has room for a transaction.
`grace`: it was in flight when its page was lost, and completes as if it were not (R52). -/
structure Waiter where
  on : Option Nat
  req : CohReq
  grace : Bool
  deriving DecidableEq, Repr

/-- An open transaction (R332, R334): its row, the request it serves and the requester's slot, the slots whose answers
it awaits with the edges each may still wait, the slots found not to hold the line, whether a lead or owner forwards the data,
whether data goes with the grant, whether it awaits the requester's GrantAck, the entry after it, whether a timed-out
owner lost the line, whether the requester's GrantAck came before the answers, whether a host has written the line back while it is snooped, whether it
was in flight when its page was lost (R52). -/
structure Txn where
  line : Nat
  row : TxnRow
  req : Option CohReq
  slot : Option Nat
  await : List (Nat × Nat)
  gone : List Nat
  forward : Bool
  withData : Bool
  grantAck : Bool
  next : Option DirEntry
  lost : Bool
  early : Bool
  wrote : Bool
  grace : Bool
  deriving DecidableEq, Repr

/-- What a walk serves (R346). -/
inductive WalkFor where
  | notice (e : ExtId)
  | commit
  | clearSlot (n : Nat)
  | ownReg (num : Nat) (kind ep : Nat)
  | ownPacket (port : Nat) (p : Packet)
  | request (port : Nat) (p : Packet)
  | partReset (part : Nat)
  | reload
  deriving DecidableEq, Repr

/-- A walk (R346): its hub-local range and slot criterion, its purpose, whether it is in the running pass. -/
structure Walk where
  lo : Nat
  hi : Nat
  slot : Option Nat
  why : WalkFor
  running : Bool
  deriving DecidableEq, Repr

/-- A region (R347). -/
structure Region where
  part : Nat
  base : Nat
  pages : Nat
  kind : Nat
  ep : Nat
  deriving DecidableEq, Repr

/-- A fabric port (R354 to R357): training result, flit numbers, flits not yet acknowledged, failed replays,
receive bytes of a packet not yet whole, credits at the peer for each class. -/
structure Port where
  up : Bool
  width : Nat
  laneFail : Nat
  peer : Option Nat
  txSeq : Nat
  rxSeq : Nat
  nakSent : Bool
  retry : List (Nat × Packet)
  failedReplays : Nat
  rx : List Byte
  credits : List Nat
  retraining : Bool
  deriving DecidableEq, Repr

/-- Whose request it is (R366): a descriptor's read at a virtual address, its write, a BAR2, proxy or CXL.mem access of
a host, a DMA channel's read or write, a walk request of a commit, a hub's own notice, a broadcast,
the completion record of a queue with the vector to raise after it, a write of the snapshot stream, an offer of this hub's own HBM (R58). -/
inductive ReqOwner where
  | descRead (q seq : Nat) (va : Nat) (n : Nat)
  | descWrite (q seq unit : Nat) (va : Option Nat)
  | bar2 (path : Path) (isWrite : Bool)
  | proxy (path : Path) (isWrite : Bool)
  | cxl (hp tag : Nat) (op : Nat)
  | dmaRead (eng ch : Nat) (va : Nat) (n : Nat)
  | dmaWrite (eng ch : Nat)
  | commitWalk
  | hub
  | broadcast (q seq : Nat) (table : Nat)
  | ringWrite (q : Nat) (notify : Option Nat)
  | snap
  | lend
  deriving DecidableEq, Repr

/-- An outstanding request (R366, R367): the packet as sent, the fabric address it resolved from when a call sheet
resolved it (R382), edges waited, the limit sampled when it was sent, the number of sendings under R382. -/
structure Req where
  tag : Nat
  p : Packet
  fa : Option Nat
  right : Nat
  part : Nat
  owner : ReqOwner
  edges : Nat
  limit : Nat
  attempts : Nat
  retrying : Bool
  deriving DecidableEq, Repr

/-- A packet that waits at the egress of a port (R359), with the slow-tick edges it has waited (R368) and the port whose receive buffer it fills
meanwhile (R358). -/
structure EgressPkt where
  port : Nat
  p : Packet
  edges : Nat
  from_ : Option Nat
  deriving DecidableEq, Repr

/-- An arbiter (R432): the credit of the partitions that wait, the partition served last, the queue served last of each partition (R157). -/
structure Arb where
  credits : NMap Int
  last : Nat
  turn : NMap Nat
  deriving DecidableEq, Repr

/-- A bank of the call sheet (R378): entries of eight words (Table 10-6), set members and widths (R373), proxy entries of four words (Table 10-9). -/
structure Bank where
  entries : NMap (List W32)
  members : NMap Nat
  widths : NMap Nat
  proxies : NMap (List W32)
  deriving DecidableEq, Repr

/-- A request held at commit step 1 (R379). -/
inductive HeldReq where
  | bar2 (path : Path) (off : Nat) (op : HostOp)
  | cxl (hp : Nat) (op : Nat) (hpa : Nat) (mv : MetaValue) (data : List Byte) (be : W64) (bad : Bool) (tag : Nat)
  deriving DecidableEq, Repr

/-- A commit in progress (Table 10-7). -/
structure Commit where
  epoch : Nat
  step : Nat
  changed : List (Nat × Nat)
  held : List HeldReq
  ownWalk : Bool
  edges : Nat
  deriving DecidableEq, Repr

/-- A partner-table entry (R376), with the two sides of R377 and R312; `unacked` are the tags of the writes, atomics and cue stores sent
that ended with TIMEOUT here and that no answer has ended. -/
structure Partner where
  unacked : List Nat
  sendCount : W32
  sendGen : Byte
  applied : W32
  peerGen : Option Byte
  lastUse : Nat
  deriving DecidableEq, Repr

/-- A ledger entry (R390): HELD or IN_TRANSIT, its pool, its range, edges in transit. -/
structure Ledger where
  inTransit : Bool
  pool : Nat
  base : Nat
  pages : Nat
  edges : Nat
  deriving DecidableEq, Repr

/-- A store page table entry (R404): its size code, kind, flags, target and shadow; a MIGRATED entry keeps its host address (R416). -/
structure Pte where
  size : Nat
  kind : Nat
  r : Bool
  w : Bool
  pin : Bool
  sh : Bool
  migrated : Bool
  tgt : Nat
  shd : Nat
  hostTgt : Nat
  deriving DecidableEq, Repr

/-- A DMA channel while not IDLE (R420): the registers sampled at START, its progress, the bytes whose write was dropped, what it met. -/
structure Chan where
  state : Nat
  src : Nat
  dst : Nat
  len : Nat
  asid : Nat
  swap : Nat
  tally : Option Nat
  vector : Option Nat
  done : Nat
  statuses : List Status
  waitPri : Bool
  waitEdges : Nat
  priLimit : Nat
  retried : Bool
  ended : Bool
  bad : Nat
  remote : NMap Byte
  remotePoison : List Nat
  deriving DecidableEq, Repr

/-- A PCIe function's own state (R394, R410, R413, R443): enables written by configuration requests, MSI-X mask and
pending bits, whether a reset of it runs, the proxy requests that wait to be forwarded (R399). -/
structure Fn where
  ats : Bool
  pasid : Bool
  busMaster : Bool
  pri : Bool
  priStopped : Bool
  priAlloc : Nat
  msixMasked : List Nat
  msixPending : List Nat
  resetting : Bool
  proxyQ : List (Nat × HostOp)
  proxyBusy : Bool
  proxyDiscard : Bool
  deriving DecidableEq, Repr

/-- A snoop of another home's line that this hub has passed to its hosts (R322): the ports and host addresses that have not answered, the home, its
offset and tag, whether it asks to share, whether a host still holds the line, and the dirty data a host has written back. -/
structure Snoop where
  ports : List (Nat × Nat)
  home : Nat
  off : Nat
  tid : Nat
  share : Bool
  held : Bool
  dirty : Option (List Byte × Bool)
  deriving DecidableEq, Repr

/-- An HDM decoder (R401). -/
structure Hdm where
  base : Nat
  size : Nat
  fa : Nat
  part : Nat
  committed : Bool
  deriving DecidableEq, Repr

/-- A partition reset that runs (R439, R440): the last step ended, whether it belongs to a DESTROY, whether a DESTROY waits for it. -/
structure PartRun where
  step : Nat
  destroy : Bool
  destroyWaits : Bool
  deriving DecidableEq, Repr

/-- A trigger waiting for capture (R503). -/
structure Trigger where
  code : Nat
  detail : W64
  part : Option Nat
  inst : Nat
  deriving DecidableEq, Repr

/-- A page copied before a write under copy-on-write (R493): the tier of the copy, its non-zero bytes, its poisoned words. -/
structure SnapCopy where
  page : Nat
  tier : Nat
  cells : List (Nat × Byte)
  poison : List Nat
  deriving DecidableEq, Repr

/-- The snapshot stream (R492 to R495): captured pages in range-list order with the content captured for copied
pages, pages still to stream, destination, header fields, the status of its writes, accesses that wait, the page whose writes
may not all be performed, whether the header is written. -/
structure Snap where
  part : Nat
  asid : Nat
  q : Nat
  dest : Nat
  id : Nat
  baseId : Nat
  incr : Bool
  step : Nat
  pages : List (Nat × Nat)
  left : List Nat
  copies : List SnapCopy
  tally : Option Nat
  vector : Option Nat
  status : Status
  waiting : List HeldAccess
  cur : Option Nat
  header : Bool
  deriving DecidableEq, Repr

/-- A flash die (R485): blocks its spare pool was set to at training, spare blocks left, mean program/erase count in percent of rated,
read-only. -/
structure Die where
  pool : Nat
  spare : Nat
  wear : Nat
  ro : Bool
  deriving DecidableEq, Repr

/-- The items of the loaded script image (Table 15-8). -/
structure Image where
  scriptId : W32
  endpoint : Nat
  parts : Nat
  reelOff : W64
  workKib : Nat
  dircacheMib : Nat
  sortKib : Nat
  beamKib : Nat
  dirGib : Nat
  ptMib : Nat
  stagingMib : Nat
  hostTier : Bool
  loanTier : Bool
  replMib : Nat
  portSplit : W32
  pfLog : List Nat
  vfLog : List Nat
  totalVfs : List Nat
  cxlEn : List Bool
  fmEps : List Nat
  routes : List (Nat × Nat × W32 × W32)
  bump : Bool
  svn : Nat
  digest : BitVec 512
  fromStaged : Bool
  deriving DecidableEq, Repr

/-- What the hub sends out: a packet on a port with the flits that carry it (Table 10-2), an MSI-X message, an answer to a host access, a CXL.mem answer or snoop,
an ATS or page request message, an answer to a management request, a host memory write, what JTAG shifts out (none where the access is refused). -/
inductive Emit where
  | packet (port : Nat) (p : Packet)
  | flit (port : Nat) (bytes : List Byte)
  | msix (port : Nat) (fn : Nat) (entry : Nat)
  | hostData (path : Path) (data : List Byte) (poisoned : Bool)
  | hostUr (path : Path)
  | hostAbort (path : Path)
  | cxlData (hp : Nat) (tag : Nat) (data : List Byte) (poisoned : Bool) (grant : Nat)
  | cxlCmp (hp : Nat) (tag : Nat) (grant : Nat)
  | cxlSnoop (hp : Nat) (hpa : Nat) (share : Bool)
  | cxlConflictAck (hp : Nat) (hpa : Nat)
  | hostWrite (port : Nat) (addr : Nat) (data : List Byte) (poisoned : Bool)
  | hostRead (port : Nat) (addr : Nat) (n : Nat)
  | atsRequest (port fn : Nat) (pasid : Nat) (va : Nat)
  | atsComplete (port : Nat) (tag : Nat)
  | pageRequest (port fn : Nat) (pasid : Nat) (va : Nat) (write : Bool)
  | config (path : Path) (retryStatus : Bool)
  | capability (path : Path) (fkind endpoint barLog : Nat)
  | mailbox (hp : Nat) (supported : Bool) (data : List Byte)
  | mctp (via : Nat) (busy : Bool) (data : List Byte)
  | jtag (data : Option (List Byte))
  deriving DecidableEq, Repr

/-- What waits at a PCIe port for the posted writes that came before it (R295): a register write of a path, or the answer to a non-posted request. -/
inductive PortWait where
  | write (path : Path) (off : Nat) (v : W32)
  | answer (port : Nat) (e : Emit)
  deriving DecidableEq, Repr

/-- Store memory, the page map and page moves (chapters 1, 2, 7, 14). `mem` holds what each hub-local offset stores
(0 where unlisted, R31); `poison` the poisoned aligned 8-byte words; `blk` the metadata bytes of R267 (raw where
unlisted); `snapLeft` is part of the snapshot stream. -/
structure Store where
  mem : NMap Byte
  poison : NMap Unit
  blk : NMap Byte
  allocs : NMap Alloc
  pages : NMap Page
  moves : NMap Move
  oldLocs : List OldLoc
  caps : List Nat
  extents : List (ExtId × Extent)
  lentOut : List LentOut
  projs : NMap Proj
  prefetch : List PfRange
  deriving DecidableEq, Repr

/-- Rows, replicas and the row sketch (R73, R87 to R94). Keys of rows are table × 2^40 + row. `deferred` are the requests for rows in MOVING that the next
tick takes up (R94); `replMax` and `on` are BE_REPL.REPL_MAX and BE_CTL.EN as the last edge read them (R74). -/
structure Rows where
  slots : NMap Nat
  moves : NMap RowMove
  old : NMap Nat
  retryAt : NMap Nat
  sketch : NMap (Nat × Nat)
  heavy : NMap (Nat × Nat)
  replicas : NMap Replica
  granted : List (Nat × Nat)
  refused : NMap Nat
  deferred : List (Nat × Nat)
  replMax : Nat
  on : Bool
  deriving DecidableEq, Repr

/-- Descriptor queues and the engines' objects (chapters 4 to 7). -/
structure Engines where
  queues : NMap Queue
  tables : NMap Table
  bcastSeq : NMap Nat
  nextBcast : NMap Nat
  bcasts : List Bcast
  idxs : NMap Index
  inserts : List Insertion
  searches : List SearchRun
  queries : List Query
  ctbl : NMap CtSlot
  lanes : NMap (List LaneJob)
  deriving DecidableEq, Repr

/-- Tallies, watches and held cues (chapter 8); `bells` are fabric doorbells that wait for the stores of their source (R155). -/
structure Order where
  tallies : NMap W32
  watches : NMap Watch
  held : List HeldCue
  bells : List Packet
  deriving DecidableEq, Repr

/-- The continuity directory (chapter 9): slots, entries by line number, the lines whose entries the directory cache holds (R327), open transactions,
requests that wait in arrival order (R334), walks, regions. -/
structure Coh where
  slots : NMap Slot
  dir : NMap DirEntry
  cache : List Nat
  txns : List Txn
  waiting : List Waiter
  walks : List Walk
  regions : NMap Region
  deriving DecidableEq, Repr

/-- The fabric (chapter 10). Route entries are RT_DATA_LO and RT_DATA_HI; `gens` is the last pair generation used
toward each endpoint, which outlives its partner entry (R312). -/
structure Fabric where
  ports : NMap Port
  waiting : List EgressPkt
  reqs : List Req
  group : NMap (W32 × W32)
  member : NMap (W32 × W32)
  staged : Bank
  current : Bank
  previous : Bank
  epoch : Nat
  prevEpoch : Nat
  prevLive : Bool
  prevEdges : Nat
  commit : Option Commit
  partners : NMap Partner
  gens : NMap Byte
  timeouts : NMap Nat
  pools : NMap Nat
  ledger : NMap Ledger
  deriving DecidableEq, Repr

/-- Host attachment, translation and DMA (chapter 11). `ptes` is keyed by ASID × 2^36 + virtual page of 4 KiB; `stale` holds the entries
that translation caches may still hold after MAP or UNMAP (R408). `atc` is keyed as R410 keys it; `invals` are ATS invalidations that wait;
`migr` are the copies of R416 and R417 that run: queue, descriptor, entry; `owned` are the lines of other homes that this hub has granted to its hosts
with ownership: port, home, offset (R322, log entry 145). -/
structure HostSide where
  ptes : NMap Pte
  stale : List (Nat × Pte)
  atc : NMap (Nat × Bool)
  invals : List (Nat × Nat)
  migr : List (Nat × Nat × Nat)
  snoops : List Snoop
  owned : List (Nat × Nat × Nat)
  fns : NMap Fn
  hdm : NMap Hdm
  cxlMem : List Bool
  chans : NMap Chan
  dmaOrder : NMap (List Nat)
  portQ : List PortWait
  deriving DecidableEq, Repr

/-- Partitions, interrupts and configuration parity (chapters 12, 13). `badParity` are registers stored with bad
parity, `stopped` the stopped units with their instance (R465), `eventSeq` the EVENT counts of the routes (R437), `csBad` the banks of the call sheet with a bad word: 0 staged, 1 current, 2 previous (R467); `arbs` the arbiters of Table 12-2. -/
structure Mgmt where
  runs : NMap PartRun
  eventSeq : NMap W32
  badParity : NMap Unit
  stopped : List (Nat × Option Nat)
  unlocked : List Nat
  intSent : W32
  csBad : List Nat
  arbs : NMap Arb
  deriving DecidableEq, Repr

/-- Errors, flash, checkpoints and the take log (chapter 14). -/
structure Rel where
  dies : NMap Die
  lowSpare : List Nat
  ceTick : NMap Nat
  ceDone : List Nat
  ceThresh : Nat
  snap : Option Snap
  takes : NMap (List W32)
  head : Nat
  ack : Nat
  cursor : Nat
  waiting : List Trigger
  seen : List Nat
  scrubPos : Nat
  stepLast : W64
  deriving DecidableEq, Repr

/-- Clocks, boot, life cycle and thermal state (chapters 15, 16); `reloadStep` is the step of Table 15-10 that runs, begun at tick `reloadFrom` with
the limit `reloadMs`; `recovered` says that a recovery reload has followed the standing DIR_LOST or CS_PARITY, `secReset` that a hub reset has followed the
standing SECURITY; `bootEp` is BOOT_EP as the boot load sampled it; `throtSeen` says that a measure of R556 or R557 was in force in the running tick; `mctp` are the ticks of the attestation answers of the last second; `lcRan` is the transition carried out since the last slow-tick edge, from and to; `variantE`, `serial` and `stepping` (MAJOR in bits 7:4,
MINOR in bits 3:0 of HUB_ID) are fuses. -/
structure Boot where
  pwrok : Bool
  railsGood : Bool
  tripped : Bool
  image : Option Image
  pending : Option Image
  staging : NMap Byte
  spiIdentity : Option Nat
  fwVersion : W32
  fwImage : List Byte
  reloadStep : Nat
  recovery : Bool
  reloadMs : Nat
  reloadFrom : Nat
  recovered : Bool
  linksDone : Bool
  bootEp : W32
  lcState : Nat
  fusePending : Option Nat
  lcRan : Option (Nat × Nat)
  custKeyHash : BitVec 512
  fwSvn : Nat
  imgSvn : Nat
  debugOpen : Bool
  debugOpened : Bool
  nonce : BitVec 512
  token : NMap Byte
  secReset : Bool
  mctp : List Nat
  throttled : Bool
  throtSeen : Bool
  hbmHalf : List Nat
  hbmRefresh : List Nat
  tick : Nat
  variantE : Bool
  serial : W64
  stepping : Byte
  deriving DecidableEq, Repr

/-- The state of one hub. `pending` is the queue of commands that wait; `fresh` numbers the free values drawn (the
model's own field, no statement rests on it); `regs` holds the registers by offset × 2^16 + INSTANCE, each at its
reset value where unlisted; `live` holds the counts behind the slow copies, `copies` the slow copies (R454); `out`
is what the hub has sent out, newest first (the model's own record). -/
structure State where
  pending : List Instr
  fresh : Nat
  regs : NMap W32
  live : NMap W32
  copies : NMap W32
  store : Store
  rows : Rows
  eng : Engines
  ord : Order
  coh : Coh
  fab : Fabric
  host : HostSide
  mgmt : Mgmt
  rel : Rel
  boot : Boot
  out : List Emit
  deriving DecidableEq, Repr

/-- A machine fault. The spec describes none that stops the hub's model: every error has an outcome (R472). -/
inductive Fault where
  /-- Raised by no command: every error the spec describes has an outcome of Table 14-1, a next state. Safe. -/
  | none
  deriving DecidableEq, Repr

/-- Why a command is turned away. -/
inductive Refusal where
  /-- Raised by the dispatcher for a row that has no meaning yet. Safe: nothing is claimed of the row. -/
  | notModelled (mnemonic : String)
  deriving DecidableEq, Repr

/-- What a meaning answers. -/
abbrev Out := Host.Outcome State Fault Refusal

/-- An empty call sheet bank (R475, R511: after a reset no call sheet remains). -/
def Bank.empty : Bank := { entries := [], members := [], widths := [], proxies := [] }

def Store.reset : Store :=
  { mem := [], poison := [], blk := [], allocs := [], pages := [], moves := [], oldLocs := [], caps := [0, 0, 0, 0, 0, 0],
    extents := [], lentOut := [], projs := [], prefetch := [] }

def Rows.reset : Rows :=
  { slots := [], moves := [], old := [], retryAt := [], sketch := [], heavy := [], replicas := [], granted := [], refused := [], deferred := [],
    replMax := 0, on := false }

def Engines.reset : Engines :=
  { queues := [], tables := [], bcastSeq := [], nextBcast := [], bcasts := [], idxs := [], inserts := [], searches := [], queries := [],
    ctbl := [], lanes := [] }

def Order.reset : Order := { tallies := [], watches := [], held := [], bells := [] }

def Coh.reset : Coh := { slots := [], dir := [], cache := [], txns := [], waiting := [], walks := [], regions := [] }

def Fabric.reset : Fabric :=
  { ports := [], waiting := [], reqs := [], group := [], member := [], staged := Bank.empty, current := Bank.empty,
    previous := Bank.empty, epoch := 0, prevEpoch := 0, prevLive := false, prevEdges := 0, commit := none,
    partners := [], gens := [], timeouts := [], pools := [], ledger := [] }

def HostSide.reset : HostSide :=
  { ptes := [], stale := [], atc := [], invals := [], migr := [], snoops := [], owned := [], fns := [], hdm := [], cxlMem := [false, false], chans := [],
    dmaOrder := [], portQ := [] }

def Mgmt.reset : Mgmt :=
  { runs := [], eventSeq := [], badParity := [], stopped := [], unlocked := [], intSent := 0, csBad := [], arbs := [] }

def Rel.reset : Rel :=
  { dies := [], lowSpare := [], ceTick := [], ceDone := [], ceThresh := 0x40, snap := none, takes := [], head := 1, ack := 1, cursor := 1, waiting := [],
    seen := [], scrubPos := 0, stepLast := 0 }

/-- Cold reset (R510): PWROK low, no image, boot not begun. The fuses stand as the part left the factory: DESIGN CHOICE
FIELD-OPEN, SVN counters 0 (log entry 4). -/
def Boot.reset : Boot :=
  { pwrok := false, railsGood := true, tripped := false, image := none, pending := none, staging := [],
    spiIdentity := none, fwVersion := 0, fwImage := [], reloadStep := 0, recovery := false, reloadMs := 0, reloadFrom := 0,
    recovered := false, linksDone := false, bootEp := 0,
    lcState := 1, fusePending := none, lcRan := none, custKeyHash := 0, fwSvn := 0, imgSvn := 0, debugOpen := false,
    debugOpened := false, nonce := 0, token := [], secReset := false, mctp := [], throttled := false, throtSeen := false,
    hbmHalf := [], hbmRefresh := [], tick := 0, variantE := false, serial := 0, stepping := 0 }

/-- The hub right after a cold reset (R510, R511): every register at its reset value, no object of any kind, every
queue empty, PWROK low, BOOT_STATUS.STAGE 0. -/
def State.reset : State :=
  { pending := [], fresh := 0, regs := [], live := [], copies := [], store := Store.reset, rows := Rows.reset,
    eng := Engines.reset, ord := Order.reset, coh := Coh.reset, fab := Fabric.reset, host := HostSide.reset,
    mgmt := Mgmt.reset, rel := Rel.reset, boot := Boot.reset, out := [] }

end Sys2Proof.Machine
end

