-- ==== Sys2Proof/Machine/RegMap.lean ====
section
/-! DEFINITION. The register map: where each register of the PF BAR0 space lies (R449, R451), and for each its access
type, reset value, implemented bits, the select register that chooses its instance and the unit that owns it (R465).
Written from the register tables of spec/. A reset value the tables mark with a dash stands as 0 (log entry 3). -/

namespace Sys2Proof.Machine

/-- Access types (Table 13-5). -/
inductive Acc where
  | rw | ro | rl | w1c | rk | rm | rs
  deriving DecidableEq, Repr

/-- What chooses the instance of a repeated set (Table 13-7); `fn` is the per-function registers. -/
inductive Sel where
  | none | part | port | flc | dma | reel | tally | codec | dolly | fn
  deriving DecidableEq, Repr

/-- A row of the map: `n1` copies `s1` bytes apart, each of `n2` copies `s2` bytes apart. `rw` are the bits that
take a written value, `ro` the other implemented bits. -/
structure RegRow where
  off : Nat
  n1 : Nat
  s1 : Nat
  n2 : Nat
  s2 : Nat
  acc : Acc
  rst : W32
  rw : W32
  ro : W32
  sel : Sel
  unit : Nat
  vfIgn : Bool
  deriving DecidableEq, Repr

namespace Reg


/-! Table 1-5 -/
abbrev tierQuota : Nat := 0x100400
abbrev tierOcc : Nat := 0x100420
abbrev allocBaseLo : Nat := 0x100440
abbrev allocBaseHi : Nat := 0x100444
abbrev allocSize : Nat := 0x100448
abbrev allocFlags : Nat := 0x10044C
abbrev allocWide : Nat := 0x100450
abbrev projCfg : Nat := 0x100454
abbrev projTally : Nat := 0x100458
abbrev projLayersLo : Nat := 0x10045C
abbrev projLayersHi : Nat := 0x100460
abbrev projNlayers : Nat := 0x100464
abbrev allocCmd : Nat := 0x100468
abbrev projMiss : Nat := 0x10046C
abbrev projState : Nat := 0x100498

/-! Table 1-9 -/
abbrev tierCap : Nat := 0x10000
abbrev tierFree : Nat := 0x10020
abbrev loanLost : Nat := 0x10044
abbrev loanCfg : Nat := 0x10040
abbrev hostLost : Nat := 0x10048

/-! Table 1-10 -/
abbrev hostxAddrLo : Nat := 0x10080
abbrev hostxAddrHi : Nat := 0x10084
abbrev hostxSize : Nat := 0x10088
abbrev hostxNotice : Nat := 0x1008C
abbrev hostxCmd : Nat := 0x10090

/-! Table 2-6 -/
abbrev beCtl : Nat := 0x20000
abbrev beHeat : Nat := 0x20004
abbrev beRow : Nat := 0x20008
abbrev beRepl : Nat := 0x2000C
abbrev beWear : Nat := 0x20010
abbrev beWiden : Nat := 0x20014
abbrev bePromoted : Nat := 0x20040
abbrev beDemoted : Nat := 0x20044
abbrev beRowMoved : Nat := 0x20048
abbrev beReplCreated : Nat := 0x2004C
abbrev beReplRetired : Nat := 0x20050
abbrev beEvacMoved : Nat := 0x20054
abbrev beWearMoved : Nat := 0x20058

/-! Table 2-8 -/
abbrev allocWideFmt : Nat := 0x100470
abbrev wideCtl : Nat := 0x100474
abbrev allocWideSoffLo : Nat := 0x100478
abbrev allocWideSoffHi : Nat := 0x10047C
abbrev quotaBlocked : Nat := 0x100480
abbrev migAbandoned : Nat := 0x100484
abbrev rowAbandoned : Nat := 0x100488
abbrev widenCount : Nat := 0x10048C
abbrev widenMisfit : Nat := 0x100490
abbrev adviceDropped : Nat := 0x100494

/-! Table 3-10 -/
abbrev auditCfg : Nat := 0x100500
abbrev auditTol : Nat := 0x100504
abbrev auditRange : Nat := 0x100508
abbrev auditTiles : Nat := 0x100510
abbrev auditFails : Nat := 0x100514
abbrev nfBlocks : Nat := 0x100518
abbrev nfZeroed : Nat := 0x10051C

/-! Table 4-16 -/
abbrev dqBaseLo : Nat := 0x101000
abbrev dqBaseHi : Nat := 0x101004
abbrev dqCqLo : Nat := 0x101008
abbrev dqCqHi : Nat := 0x10100C
abbrev dqCfg : Nat := 0x101010
abbrev dqDoorbell : Nat := 0x101014
abbrev dqHead : Nat := 0x101018
abbrev dqCqHead : Nat := 0x10101C
abbrev dqCqTail : Nat := 0x101020
abbrev dqCtl : Nat := 0x101024
abbrev dqStatus : Nat := 0x101028
abbrev dqMap : Nat := 0x10102C
abbrev dqWait : Nat := 0x101030
abbrev dqDone : Nat := 0x101034
abbrev dqErrors : Nat := 0x101038

/-! Table 5-11 -/
abbrev tblImageLo : Nat := 0x100600
abbrev tblImageHi : Nat := 0x100604
abbrev tblCmd : Nat := 0x100608
abbrev tblStatus : Nat := 0x10060C
abbrev badIndex : Nat := 0x100610
abbrev landFull : Nat := 0x100614
abbrev embWindows : Nat := 0x100618
abbrev embFetches : Nat := 0x10061C

/-! Table 5-14 -/
abbrev embCfg : Nat := 0x30000
abbrev embSort : Nat := 0x30004
abbrev embStaging : Nat := 0x30008
abbrev embReplThresh : Nat := 0x3000C
abbrev cutWin : Nat := 0x30040
abbrev cutIdx : Nat := 0x30044
abbrev cutUniq : Nat := 0x30048
abbrev cutMaxfan : Nat := 0x3004C
abbrev dollyReads : Nat := 0x30100
abbrev dollyOutst : Nat := 0x30104
abbrev dollyHeld : Nat := 0x30108
abbrev dollyTimeout : Nat := 0x3010C

/-! Table 6-11 -/
abbrev idxImageLo : Nat := 0x100700
abbrev idxImageHi : Nat := 0x100704
abbrev idxCmd : Nat := 0x100708
abbrev idxStatus : Nat := 0x10070C
abbrev idxVisLo : Nat := 0x100710
abbrev idxVisHi : Nat := 0x100714
abbrev idxSideLive : Nat := 0x100718
abbrev srchQueries : Nat := 0x100720
abbrev srchShort : Nat := 0x100724
abbrev srchReads : Nat := 0x100728
abbrev srchDropped : Nat := 0x10072C
abbrev srchWaits : Nat := 0x100730
abbrev badRef : Nat := 0x100734
abbrev badId : Nat := 0x100738

/-! Table 6-14 -/
abbrev srchCfg : Nat := 0x40000
abbrev srchBeam : Nat := 0x40004
abbrev scoutBlocks : Nat := 0x40040
abbrev scoutCands : Nat := 0x40044
abbrev scoutPoison : Nat := 0x40048
abbrev scoutOutst : Nat := 0x4004C

/-! Table 7-7 -/
abbrev codecInline : Nat := 0x100800
abbrev codecStored : Nat := 0x100810
abbrev codecRaw : Nat := 0x100814
abbrev codecBusyRaw : Nat := 0x100818
abbrev codecErrors : Nat := 0x10081C
abbrev codecDisturbed : Nat := 0x100820
abbrev codecSkipped : Nat := 0x100824
abbrev codecVerifyFail : Nat := 0x100828

/-! Table 7-8 -/
abbrev codecCfg : Nat := 0x50000
abbrev codecQueue : Nat := 0x50004
abbrev ctblCmd : Nat := 0x50010
abbrev ctblImageLo : Nat := 0x50014
abbrev ctblImageHi : Nat := 0x50018
abbrev ctblState : Nat := 0x50020
abbrev ctblRest : Nat := 0x50040
abbrev laneIn : Nat := 0x50100
abbrev laneOut : Nat := 0x50104
abbrev laneFull : Nat := 0x50108
abbrev laneDepth : Nat := 0x5010C

/-! Table 8-7 -/
abbrev ptTallyNum : Nat := 0x100900
abbrev ptTallyVal : Nat := 0x100904
abbrev ptWatchTarget : Nat := 0x100908
abbrev ptWatchCtl : Nat := 0x10090C
abbrev ptWatchAddrLo : Nat := 0x100910
abbrev ptWatchAddrHi : Nat := 0x100914
abbrev ptWatchValLo : Nat := 0x100918
abbrev ptWatchValHi : Nat := 0x10091C
abbrev tallyRefused : Nat := 0x100920
abbrev cueExpired : Nat := 0x100924

/-! Table 8-9 -/
abbrev cueCfg : Nat := 0x60000
abbrev cueHeld : Nat := 0x60004
abbrev cueApplied : Nat := 0x60008
abbrev cueExpiredAll : Nat := 0x6000C
abbrev tallyAssign : Nat := 0x60040

/-! Table 9-7 -/
abbrev cohCfg : Nat := 0x70000
abbrev dirCfg : Nat := 0x70004
abbrev cohStatus : Nat := 0x70008
abbrev cohAgentNum : Nat := 0x70010
abbrev cohAgent : Nat := 0x70014
abbrev cohAgentCmd : Nat := 0x70018
abbrev dirHits : Nat := 0x70040
abbrev dirMisses : Nat := 0x70044
abbrev dirEvictions : Nat := 0x70048
abbrev dirCorrected : Nat := 0x7004C
abbrev cohRecalls : Nat := 0x70050
abbrev cohNotHeld : Nat := 0x70054
abbrev cohForwards : Nat := 0x70058
abbrev cohStaleWb : Nat := 0x7005C
abbrev cohTimeouts : Nat := 0x70060

/-! Table 9-10 -/
abbrev regionBaseLo : Nat := 0x100A00
abbrev regionBaseHi : Nat := 0x100A04
abbrev regionSize : Nat := 0x100A08
abbrev regionOwner : Nat := 0x100A0C
abbrev regionCmd : Nat := 0x100A10
abbrev regionRefused : Nat := 0x100A20
abbrev cohPoisoned : Nat := 0x100A24
abbrev cohUncached : Nat := 0x100A28

/-! Table 10-12 -/
abbrev fabId : Nat := 0x80000
abbrev fabCfg : Nat := 0x80004
abbrev fmEp : Nat := 0x80008
abbrev csCfg : Nat := 0x80018
abbrev csEpoch : Nat := 0x8001C
abbrev csCmd : Nat := 0x80020
abbrev csStatus : Nat := 0x80024
abbrev csIdx : Nat := 0x80028
abbrev csData : Nat := 0x80030
abbrev rtIdx : Nat := 0x80050
abbrev rtDataLo : Nat := 0x80054
abbrev rtDataHi : Nat := 0x80058
abbrev poolIdx : Nat := 0x80060
abbrev poolData : Nat := 0x80064
abbrev ledgerCfg : Nat := 0x80068
abbrev partnerCfg : Nat := 0x8006C
abbrev pktDropped : Nat := 0x80080
abbrev pktUnroutable : Nat := 0x80084
abbrev pktBad : Nat := 0x80088
abbrev partnersLive : Nat := 0x8008C
abbrev partnerFull : Nat := 0x80090
abbrev csWalkTmo : Nat := 0x80094
abbrev ledgerLive : Nat := 0x80098
abbrev ledgerReverts : Nat := 0x8009C
abbrev ledgerRefused : Nat := 0x800A0
abbrev mgmtRefused : Nat := 0x800A4
abbrev proxyDropped : Nat := 0x800A8
abbrev endpointsLost : Nat := 0x800AC

/-! Table 10-14 -/
abbrev portCfg : Nat := 0x80100
abbrev portStatus : Nat := 0x80104
abbrev portPeer : Nat := 0x80108
abbrev portTcWeight : Nat := 0x8010C
abbrev portFecCorr : Nat := 0x80110
abbrev portFecUncorr : Nat := 0x80114
abbrev portCrcErr : Nat := 0x80118
abbrev portReplays : Nat := 0x8011C
abbrev portRetrains : Nat := 0x80120
abbrev portTxFlits : Nat := 0x80124
abbrev portRxFlits : Nat := 0x80128
abbrev portTags : Nat := 0x8012C

/-! Table 10-15 -/
abbrev fabFkey : Nat := 0x100B00
abbrev fabUnmapped : Nat := 0x100B04
abbrev fabRefused : Nat := 0x100B08
abbrev fabStale : Nat := 0x100B0C
abbrev fabTimeouts : Nat := 0x100B10
abbrev fabE2eFail : Nat := 0x100B14

/-! Table 11-7 -/
abbrev mapAsid : Nat := 0x100C00
abbrev mapVaLo : Nat := 0x100C04
abbrev mapVaHi : Nat := 0x100C08
abbrev mapTgtLo : Nat := 0x100C0C
abbrev mapTgtHi : Nat := 0x100C10
abbrev mapShdLo : Nat := 0x100C14
abbrev mapShdHi : Nat := 0x100C18
abbrev mapAttr : Nat := 0x100C1C
abbrev mapCmd : Nat := 0x100C20
abbrev ptPages : Nat := 0x100C24
abbrev xlateFaults : Nat := 0x100C28
abbrev migrations : Nat := 0x100C2C

/-! Table 11-10 -/
abbrev asidIdx : Nat := 0x90000
abbrev asidCfg : Nat := 0x90004
abbrev asidPasid : Nat := 0x90008
abbrev ptArea : Nat := 0x9000C
abbrev ptFree : Nat := 0x90010
abbrev tlbMisses : Nat := 0x90040
abbrev atsReqs : Nat := 0x90044
abbrev atsInvals : Nat := 0x90048
abbrev priReqs : Nat := 0x9004C

/-! Table 11-12 -/
abbrev aptIdx : Nat := 0xA0000
abbrev aptBaseLo : Nat := 0xA0004
abbrev aptBaseHi : Nat := 0xA0008
abbrev hostpStatus : Nat := 0xA0100
abbrev hostpBar2 : Nat := 0xA0104
abbrev hdmFaLo : Nat := 0xA0120
abbrev hdmFaHi : Nat := 0xA0124
abbrev hdmPart : Nat := 0xA0160
abbrev hostDropped : Nat := 0xA0180
abbrev hostUr : Nat := 0xA0184
abbrev atcHits : Nat := 0xA0188
abbrev priOutst : Nat := 0xA018C

/-! Table 11-13 -/
abbrev dmaCfg : Nat := 0xB0000
abbrev dmaAssign : Nat := 0xB0040
abbrev dmaEngStatus : Nat := 0xB0044
abbrev chSrcLo : Nat := 0xB0100
abbrev chSrcHi : Nat := 0xB0104
abbrev chDstLo : Nat := 0xB0108
abbrev chDstHi : Nat := 0xB010C
abbrev chLenLo : Nat := 0xB0110
abbrev chLenHi : Nat := 0xB0114
abbrev chCfg : Nat := 0xB0118
abbrev chTally : Nat := 0xB011C
abbrev chCtl : Nat := 0xB0120
abbrev chFaultLo : Nat := 0xB0124
abbrev chFaultHi : Nat := 0xB0128
abbrev chDoneLo : Nat := 0xB012C
abbrev chDoneHi : Nat := 0xB0130

/-! Table 12-7 -/
abbrev partCfg : Nat := 0xC0000
abbrev partCmd : Nat := 0xC0004
abbrev fnIdx : Nat := 0xC0008
abbrev fnMap : Nat := 0xC000C
abbrev reelCtl : Nat := 0xC0010
abbrev resetsAll : Nat := 0xC0014

/-! Table 12-8 -/
abbrev partId : Nat := 0x100000
abbrev partStatus : Nat := 0x100004
abbrev partCtl : Nat := 0x100008
abbrev partQos : Nat := 0x10000C
abbrev vecMask : Nat := 0x100020
abbrev vecPend : Nat := 0x100030
abbrev vecRaised : Nat := 0x100040
abbrev vecDropped : Nat := 0x100044
abbrev partResets : Nat := 0x100048
abbrev vecRouteLo : Nat := 0x100100
abbrev vecRouteHi : Nat := 0x100104

/-! Table 13-13 -/
abbrev hubMagic : Nat := 0x0
abbrev hubId : Nat := 0x4
abbrev hubFeature : Nat := 0x8
abbrev hubFitted : Nat := 0xC
abbrev flashFitted : Nat := 0x10
abbrev hubSerialLo : Nat := 0x14
abbrev hubSerialHi : Nat := 0x18
abbrev scriptId : Nat := 0x1C
abbrev fwVersion : Nat := 0x20
abbrev fnSelf : Nat := 0x24
abbrev slowEdges : Nat := 0x28
abbrev lockkey : Nat := 0x80
abbrev lockRefused : Nat := 0x84
abbrev regBadAccess : Nat := 0x88
abbrev hubIntStatus : Nat := 0x100
abbrev hubIntMask : Nat := 0x104
abbrev hubIntRouteLo : Nat := 0x108
abbrev hubIntRouteHi : Nat := 0x10C
abbrev fatalStatus : Nat := 0x180
abbrev parityFault : Nat := 0x184
abbrev parityWhereLo : Nat := 0x188
abbrev parityWhereHi : Nat := 0x18C
abbrev parityInject : Nat := 0x190
abbrev secViolation : Nat := 0x194
abbrev lcStatus : Nat := 0x198

/-! Table 14-9 -/
abbrev scrubCfg : Nat := 0xD0000
abbrev ceThresh : Nat := 0xD0004
abbrev flashCfg : Nat := 0xD0008
abbrev stageCe : Nat := 0xD0040
abbrev stageUe : Nat := 0xD0044
abbrev hbmCe : Nat := 0xD0080
abbrev hbmUe : Nat := 0xD00A0
abbrev ddrCe : Nat := 0xD00C0
abbrev ddrUe : Nat := 0xD00F0
abbrev poisonMade : Nat := 0xD0120
abbrev poisonSent : Nat := 0xD0124
abbrev flcCtl : Nat := 0xD0200
abbrev flcStatus : Nat := 0xD0204
abbrev flcDieRo : Nat := 0xD0208
abbrev flcRetried : Nat := 0xD020C
abbrev flcUe : Nat := 0xD0210
abbrev flcCrc : Nat := 0xD0214
abbrev flcRetired : Nat := 0xD0218
abbrev flcWear : Nat := 0xD021C
abbrev flcRoDropped : Nat := 0xD0220
abbrev snapCfg : Nat := 0xD0300
abbrev snapStatus : Nat := 0xD0304
abbrev snapLeft : Nat := 0xD0308
abbrev snapRefused : Nat := 0xD030C
abbrev snapCowWaits : Nat := 0xD0310
abbrev stepLastLo : Nat := 0xD0314
abbrev stepLastHi : Nat := 0xD0318
abbrev takeCfg : Nat := 0xD0400
abbrev takeTrigEn : Nat := 0xD0404
abbrev takeTrigList : Nat := 0xD0408
abbrev takeListLen : Nat := 0xD040C
abbrev takeSw : Nat := 0xD0410
abbrev takeHeadLo : Nat := 0xD0420
abbrev takeHeadHi : Nat := 0xD0424
abbrev takeAckLo : Nat := 0xD0428
abbrev takeAckHi : Nat := 0xD042C
abbrev takeCursorLo : Nat := 0xD0430
abbrev takeCursorHi : Nat := 0xD0434
abbrev takesLost : Nat := 0xD0438
abbrev takesSuppressed : Nat := 0xD043C
abbrev takeWin : Nat := 0xD0440
abbrev takeList : Nat := 0xD0500

/-! Table 15-16 -/
abbrev clkStatus : Nat := 0xE0000
abbrev bootStatus : Nat := 0xE0004
abbrev bootCmd : Nat := 0xE0008
abbrev hubReset : Nat := 0xE000C
abbrev reloadDrain : Nat := 0xE0010
abbrev imgLen : Nat := 0xE0014
abbrev imgOffset : Nat := 0xE0018
abbrev bootEp : Nat := 0xE001C
abbrev imgWork : Nat := 0xE0020
abbrev imgReelOffLo : Nat := 0xE0024
abbrev imgReelOffHi : Nat := 0xE0028
abbrev imgData : Nat := 0xE8000

/-! Table 15-17 -/
abbrev lcState : Nat := 0xF0000
abbrev lcCmd : Nat := 0xF0004
abbrev fuseSvn : Nat := 0xF0008
abbrev dbgRefused : Nat := 0xF000C
abbrev lcNonce : Nat := 0xF0040
abbrev lcToken : Nat := 0xF1000

/-! Table 16-6 -/
abbrev thermCfg : Nat := 0xE0100
abbrev pwrCfg : Nat := 0xE0104
abbrev tempStudio : Nat := 0xE0110
abbrev tempHbm : Nat := 0xE0120
abbrev tempMax : Nat := 0xE0140
abbrev vcoreAmps : Nat := 0xE0144
abbrev throtTicks : Nat := 0xE0148
abbrev throtStatus : Nat := 0xE014C

/-! Table 13-7 -/
abbrev partSel : Nat := 0x40
abbrev portSel : Nat := 0x44
abbrev flcSel : Nat := 0x48
abbrev dmaSel : Nat := 0x4C
abbrev reelSel : Nat := 0x50
abbrev tallySel : Nat := 0x54
abbrev codecSel : Nat := 0x58
abbrev dollySel : Nat := 0x5C

end Reg

/-- Registers of the partition set block. -/
def rowsPartSet1 : List RegRow :=
  [⟨Reg.partId, 1, 0, 1, 0, .ro, 0x0, 0x0, 0xFF, .part, 0, false⟩,
   ⟨Reg.partStatus, 1, 0, 1, 0, .ro, 0x0, 0x0, 0xF73, .part, 0, false⟩,
   ⟨Reg.partCtl, 1, 0, 1, 0, .rw, 0x0, 0x0, 0x0, .part, 0, false⟩,
   ⟨Reg.partQos, 1, 0, 1, 0, .rw, 0x10101010, 0xFFFFFFFF, 0x0, .part, 0, true⟩,
   ⟨Reg.vecMask, 4, 4, 1, 0, .rm, 0xFFFF, 0xFFFF, 0x0, .part, 0, false⟩,
   ⟨Reg.vecPend, 4, 4, 1, 0, .rl, 0x0, 0x0, 0xFFFF, .part, 0, false⟩,
   ⟨Reg.vecRaised, 1, 0, 1, 0, .rs, 0x0, 0x0, 0xFFFFFFFF, .part, 0, false⟩,
   ⟨Reg.vecDropped, 1, 0, 1, 0, .rs, 0x0, 0x0, 0xFFFFFFFF, .part, 0, false⟩,
   ⟨Reg.partResets, 1, 0, 1, 0, .rs, 0x0, 0x0, 0xFFFFFFFF, .part, 0, false⟩,
   ⟨Reg.vecRouteLo, 64, 8, 1, 0, .rw, 0x0, 0x3FFFF, 0x0, .part, 0, true⟩,
   ⟨Reg.vecRouteHi, 64, 8, 1, 0, .rw, 0x0, 0x3FFFF, 0x0, .part, 0, true⟩,
   ⟨Reg.tierQuota, 6, 4, 1, 0, .rw, 0x0, 0xFFFFFFFF, 0x0, .part, 1, true⟩,
   ⟨Reg.tierOcc, 6, 4, 1, 0, .rs, 0x0, 0x0, 0xFFFFFFFF, .part, 1, false⟩,
   ⟨Reg.allocBaseLo, 1, 0, 1, 0, .rw, 0x0, 0xFFE00000, 0x0, .part, 1, false⟩,
   ⟨Reg.allocBaseHi, 1, 0, 1, 0, .rw, 0x0, 0x3FFFF, 0x0, .part, 1, false⟩,
   ⟨Reg.allocSize, 1, 0, 1, 0, .rw, 0x0, 0x1FFFFFFF, 0x0, .part, 1, false⟩,
   ⟨Reg.allocFlags, 1, 0, 1, 0, .rw, 0x0, 0x3FFF, 0x0, .part, 1, false⟩,
   ⟨Reg.allocWide, 1, 0, 1, 0, .rw, 0x0, 0x1FFFF, 0x0, .part, 1, false⟩,
   ⟨Reg.projCfg, 1, 0, 1, 0, .rw, 0x0, 0xFFFFFF, 0x0, .part, 1, false⟩,
   ⟨Reg.projTally, 1, 0, 1, 0, .rw, 0x0, 0xFFFFFFFF, 0x0, .part, 1, false⟩,
   ⟨Reg.projLayersLo, 1, 0, 1, 0, .rw, 0x0, 0xFFFFFFF0, 0x0, .part, 1, false⟩,
   ⟨Reg.projLayersHi, 1, 0, 1, 0, .rw, 0x0, 0x3FFFF, 0x0, .part, 1, false⟩,
   ⟨Reg.projNlayers, 1, 0, 1, 0, .rw, 0x0, 0x1FFF, 0x0, .part, 1, false⟩,
   ⟨Reg.allocCmd, 1, 0, 1, 0, .rw, 0x0, 0xFFFF0007, 0xFF10, .part, 1, false⟩,
   ⟨Reg.projMiss, 1, 0, 1, 0, .ro, 0x0, 0x0, 0xFFFFFFFF, .part, 1, false⟩,
   ⟨Reg.allocWideFmt, 1, 0, 1, 0, .rw, 0x0, 0xF, 0x0, .part, 1, false⟩,
   ⟨Reg.wideCtl, 1, 0, 1, 0, .rw, 0x0, 0xFFFF, 0x10000, .part, 1, false⟩,
   ⟨Reg.allocWideSoffLo, 1, 0, 1, 0, .rw, 0x0, 0xFFFFFFC0, 0x0, .part, 1, false⟩,
   ⟨Reg.allocWideSoffHi, 1, 0, 1, 0, .rw, 0x0, 0x1FFFF, 0x0, .part, 1, false⟩,
   ⟨Reg.quotaBlocked, 1, 0, 1, 0, .rs, 0x0, 0x0, 0xFFFFFFFF, .part, 1, false⟩,
   ⟨Reg.migAbandoned, 1, 0, 1, 0, .rs, 0x0, 0x0, 0xFFFFFFFF, .part, 1, false⟩,
   ⟨Reg.rowAbandoned, 1, 0, 1, 0, .rs, 0x0, 0x0, 0xFFFFFFFF, .part, 1, false⟩,
   ⟨Reg.widenCount, 1, 0, 1, 0, .rs, 0x0, 0x0, 0xFFFFFFFF, .part, 1, false⟩,
   ⟨Reg.widenMisfit, 1, 0, 1, 0, .rs, 0x0, 0x0, 0xFFFFFFFF, .part, 1, false⟩,
   ⟨Reg.adviceDropped, 1, 0, 1, 0, .rs, 0x0, 0x0, 0xFFFFFFFF, .part, 1, false⟩,
   ⟨Reg.projState, 1, 0, 1, 0, .ro, 0x0, 0x0, 0x1FFFF, .part, 1, false⟩,
   ⟨Reg.auditCfg, 1, 0, 1, 0, .rw, 0xA, 0x1F, 0x0, .part, 2, false⟩,
   ⟨Reg.auditTol, 1, 0, 1, 0, .rw, 0x3D4CCCCD, 0xFFFFFFFF, 0x0, .part, 2, false⟩,
   ⟨Reg.auditRange, 1, 0, 1, 0, .rw, 0x5F800000, 0xFFFFFFFF, 0x0, .part, 2, false⟩,
   ⟨Reg.auditTiles, 1, 0, 1, 0, .rs, 0x0, 0x0, 0xFFFFFFFF, .part, 2, false⟩]

/-- Registers of the partition set block. -/
def rowsPartSet2 : List RegRow :=
  [⟨Reg.auditFails, 1, 0, 1, 0, .rs, 0x0, 0x0, 0xFFFFFFFF, .part, 2, false⟩,
   ⟨Reg.nfBlocks, 1, 0, 1, 0, .rs, 0x0, 0x0, 0xFFFFFFFF, .part, 2, false⟩,
   ⟨Reg.nfZeroed, 1, 0, 1, 0, .rs, 0x0, 0x0, 0xFFFFFFFF, .part, 2, false⟩,
   ⟨Reg.tblImageLo, 1, 0, 1, 0, .rw, 0x0, 0xFFFFFFC0, 0x0, .part, 3, false⟩,
   ⟨Reg.tblImageHi, 1, 0, 1, 0, .rw, 0x0, 0x3FFFF, 0x0, .part, 3, false⟩,
   ⟨Reg.tblCmd, 1, 0, 1, 0, .rw, 0x0, 0x3FFF0007, 0xFF10, .part, 3, false⟩,
   ⟨Reg.tblStatus, 1, 0, 1, 0, .ro, 0x0, 0x0, 0xF0000000, .part, 3, false⟩,
   ⟨Reg.badIndex, 1, 0, 1, 0, .rs, 0x0, 0x0, 0xFFFFFFFF, .part, 3, false⟩,
   ⟨Reg.landFull, 1, 0, 1, 0, .rs, 0x0, 0x0, 0xFFFFFFFF, .part, 3, false⟩,
   ⟨Reg.embWindows, 1, 0, 1, 0, .rs, 0x0, 0x0, 0xFFFFFFFF, .part, 3, false⟩,
   ⟨Reg.embFetches, 1, 0, 1, 0, .rs, 0x0, 0x0, 0xFFFFFFFF, .part, 3, false⟩,
   ⟨Reg.idxImageLo, 1, 0, 1, 0, .rw, 0x0, 0xFFFFFFC0, 0x0, .part, 4, false⟩,
   ⟨Reg.idxImageHi, 1, 0, 1, 0, .rw, 0x0, 0x3FFFF, 0x0, .part, 4, false⟩,
   ⟨Reg.idxCmd, 1, 0, 1, 0, .rw, 0x0, 0x3F0007, 0xFF10, .part, 4, false⟩,
   ⟨Reg.idxStatus, 1, 0, 1, 0, .ro, 0x0, 0x0, 0xE0000000, .part, 4, false⟩,
   ⟨Reg.idxVisLo, 1, 0, 1, 0, .rs, 0x0, 0x0, 0xFFFFFFFF, .part, 4, false⟩,
   ⟨Reg.idxVisHi, 1, 0, 1, 0, .rs, 0x0, 0x0, 0xF, .part, 4, false⟩,
   ⟨Reg.idxSideLive, 1, 0, 1, 0, .rs, 0x0, 0x0, 0x7FFFFFF, .part, 4, false⟩,
   ⟨Reg.srchQueries, 1, 0, 1, 0, .rs, 0x0, 0x0, 0xFFFFFFFF, .part, 4, false⟩,
   ⟨Reg.srchShort, 1, 0, 1, 0, .rs, 0x0, 0x0, 0xFFFFFFFF, .part, 4, false⟩,
   ⟨Reg.srchReads, 1, 0, 1, 0, .rs, 0x0, 0x0, 0xFFFFFFFF, .part, 4, false⟩,
   ⟨Reg.srchDropped, 1, 0, 1, 0, .rs, 0x0, 0x0, 0xFFFFFFFF, .part, 4, false⟩,
   ⟨Reg.srchWaits, 1, 0, 1, 0, .rs, 0x0, 0x0, 0xFFFFFFFF, .part, 4, false⟩,
   ⟨Reg.badRef, 1, 0, 1, 0, .rs, 0x0, 0x0, 0xFFFFFFFF, .part, 4, false⟩,
   ⟨Reg.badId, 1, 0, 1, 0, .rs, 0x0, 0x0, 0xFFFFFFFF, .part, 4, false⟩,
   ⟨Reg.codecInline, 1, 0, 1, 0, .rw, 0x0, 0x3FF, 0x0, .part, 5, false⟩,
   ⟨Reg.codecStored, 1, 0, 1, 0, .rs, 0x0, 0x0, 0xFFFFFFFF, .part, 5, false⟩,
   ⟨Reg.codecRaw, 1, 0, 1, 0, .rs, 0x0, 0x0, 0xFFFFFFFF, .part, 5, false⟩,
   ⟨Reg.codecBusyRaw, 1, 0, 1, 0, .rs, 0x0, 0x0, 0xFFFFFFFF, .part, 5, false⟩,
   ⟨Reg.codecErrors, 1, 0, 1, 0, .rs, 0x0, 0x0, 0xFFFFFFFF, .part, 5, false⟩,
   ⟨Reg.codecDisturbed, 1, 0, 1, 0, .rs, 0x0, 0x0, 0xFFFFFFFF, .part, 5, false⟩,
   ⟨Reg.codecSkipped, 1, 0, 1, 0, .rs, 0x0, 0x0, 0xFFFFFFFF, .part, 5, false⟩,
   ⟨Reg.codecVerifyFail, 1, 0, 1, 0, .rs, 0x0, 0x0, 0xFFFFFFFF, .part, 5, false⟩,
   ⟨Reg.ptTallyNum, 1, 0, 1, 0, .rw, 0x0, 0xFFFF, 0x0, .part, 6, false⟩,
   ⟨Reg.ptTallyVal, 1, 0, 1, 0, .rw, 0x0, 0xFFFFFFFF, 0x0, .part, 6, false⟩,
   ⟨Reg.ptWatchTarget, 1, 0, 1, 0, .rw, 0x0, 0xFFFFFFFF, 0x0, .part, 6, false⟩,
   ⟨Reg.ptWatchCtl, 1, 0, 1, 0, .rw, 0x0, 0x3F05, 0x2, .part, 6, false⟩,
   ⟨Reg.ptWatchAddrLo, 1, 0, 1, 0, .rw, 0x0, 0xFFFFFFF8, 0x0, .part, 6, false⟩,
   ⟨Reg.ptWatchAddrHi, 1, 0, 1, 0, .rw, 0x0, 0xFFFFFFFF, 0x0, .part, 6, false⟩,
   ⟨Reg.ptWatchValLo, 1, 0, 1, 0, .rw, 0x0, 0xFFFFFFFF, 0x0, .part, 6, false⟩]

/-- Registers of the partition set block. -/
def rowsPartSet3 : List RegRow :=
  [⟨Reg.ptWatchValHi, 1, 0, 1, 0, .rw, 0x0, 0xFFFFFFFF, 0x0, .part, 6, false⟩,
   ⟨Reg.tallyRefused, 1, 0, 1, 0, .rs, 0x0, 0x0, 0xFFFFFFFF, .part, 6, false⟩,
   ⟨Reg.cueExpired, 1, 0, 1, 0, .rs, 0x0, 0x0, 0xFFFFFFFF, .part, 6, false⟩,
   ⟨Reg.regionBaseLo, 1, 0, 1, 0, .rw, 0x0, 0xFFE00000, 0x0, .part, 7, false⟩,
   ⟨Reg.regionBaseHi, 1, 0, 1, 0, .rw, 0x0, 0x3FFFF, 0x0, .part, 7, false⟩,
   ⟨Reg.regionSize, 1, 0, 1, 0, .rw, 0x0, 0xFFFFFFF, 0x0, .part, 7, false⟩,
   ⟨Reg.regionOwner, 1, 0, 1, 0, .rw, 0x0, 0xFFFFF, 0x0, .part, 7, false⟩,
   ⟨Reg.regionCmd, 1, 0, 1, 0, .rw, 0x0, 0xFFF00007, 0xFF10, .part, 7, false⟩,
   ⟨Reg.regionRefused, 1, 0, 1, 0, .rs, 0x0, 0x0, 0xFFFFFFFF, .part, 7, false⟩,
   ⟨Reg.cohPoisoned, 1, 0, 1, 0, .rs, 0x0, 0x0, 0xFFFFFFFF, .part, 7, false⟩,
   ⟨Reg.cohUncached, 1, 0, 1, 0, .rs, 0x0, 0x0, 0xFFFFFFFF, .part, 7, false⟩,
   ⟨Reg.fabFkey, 1, 0, 1, 0, .rw, 0x0, 0xFFFF, 0x0, .part, 8, true⟩,
   ⟨Reg.fabUnmapped, 1, 0, 1, 0, .rs, 0x0, 0x0, 0xFFFFFFFF, .part, 8, false⟩,
   ⟨Reg.fabRefused, 1, 0, 1, 0, .rs, 0x0, 0x0, 0xFFFFFFFF, .part, 8, false⟩,
   ⟨Reg.fabStale, 1, 0, 1, 0, .rs, 0x0, 0x0, 0xFFFFFFFF, .part, 8, false⟩,
   ⟨Reg.fabTimeouts, 1, 0, 1, 0, .rs, 0x0, 0x0, 0xFFFFFFFF, .part, 8, false⟩,
   ⟨Reg.fabE2eFail, 1, 0, 1, 0, .rs, 0x0, 0x0, 0xFFFFFFFF, .part, 8, false⟩,
   ⟨Reg.mapAsid, 1, 0, 1, 0, .rw, 0x0, 0xFFF, 0x0, .part, 10, false⟩,
   ⟨Reg.mapVaLo, 1, 0, 1, 0, .rw, 0x0, 0xFFFFF000, 0x0, .part, 10, false⟩,
   ⟨Reg.mapVaHi, 1, 0, 1, 0, .rw, 0x0, 0xFFFF, 0x0, .part, 10, false⟩,
   ⟨Reg.mapTgtLo, 1, 0, 1, 0, .rw, 0x0, 0xFFFFF000, 0x0, .part, 10, false⟩,
   ⟨Reg.mapTgtHi, 1, 0, 1, 0, .rw, 0x0, 0xFFFFFFFF, 0x0, .part, 10, false⟩,
   ⟨Reg.mapShdLo, 1, 0, 1, 0, .rw, 0x0, 0xFFFFF000, 0x0, .part, 10, false⟩,
   ⟨Reg.mapShdHi, 1, 0, 1, 0, .rw, 0x0, 0xFFFFFFFF, 0x0, .part, 10, false⟩,
   ⟨Reg.mapAttr, 1, 0, 1, 0, .rw, 0x0, 0xFFFFFFF, 0xC0000000, .part, 10, false⟩,
   ⟨Reg.mapCmd, 1, 0, 1, 0, .rw, 0x0, 0x7, 0xFF10, .part, 10, false⟩,
   ⟨Reg.ptPages, 1, 0, 1, 0, .rs, 0x0, 0x0, 0xFFFFFFFF, .part, 10, false⟩,
   ⟨Reg.xlateFaults, 1, 0, 1, 0, .rs, 0x0, 0x0, 0xFFFFFFFF, .part, 10, false⟩,
   ⟨Reg.migrations, 1, 0, 1, 0, .rs, 0x0, 0x0, 0xFFFFFFFF, .part, 10, false⟩]

/-- Registers of the store block. -/
def rowsStore : List RegRow :=
  [⟨Reg.tierCap, 6, 4, 1, 0, .rs, 0x0, 0x0, 0xFFFFFFFF, .none, 1, false⟩,
   ⟨Reg.tierFree, 6, 4, 1, 0, .rs, 0x0, 0x0, 0xFFFFFFFF, .none, 1, false⟩,
   ⟨Reg.loanCfg, 1, 0, 1, 0, .rw, 0x640032, 0x3FFF01FF, 0x0, .none, 1, false⟩,
   ⟨Reg.loanLost, 1, 0, 1, 0, .ro, 0x0, 0x0, 0xFFFFFFFF, .none, 1, false⟩,
   ⟨Reg.hostLost, 1, 0, 1, 0, .ro, 0x0, 0x0, 0xFFFFFFFF, .none, 1, false⟩,
   ⟨Reg.hostxAddrLo, 1, 0, 1, 0, .rw, 0x0, 0xFFE00000, 0x0, .none, 1, false⟩,
   ⟨Reg.hostxAddrHi, 1, 0, 1, 0, .rw, 0x0, 0xFFFFFFFF, 0x0, .none, 1, false⟩,
   ⟨Reg.hostxSize, 1, 0, 1, 0, .rw, 0x0, 0xFFFFFFF, 0x0, .none, 1, false⟩,
   ⟨Reg.hostxNotice, 1, 0, 1, 0, .rw, 0x0, 0x3FFF, 0x0, .none, 1, false⟩,
   ⟨Reg.hostxCmd, 1, 0, 1, 0, .rw, 0x0, 0x7F0003, 0xFF10, .none, 1, false⟩]

/-- Registers of the placement block. -/
def rowsPlacement : List RegRow :=
  [⟨Reg.beCtl, 1, 0, 1, 0, .rw, 0x10001001, 0xFFFFFF01, 0x0, .none, 1, false⟩,
   ⟨Reg.beHeat, 1, 0, 1, 0, .rw, 0x2003, 0xFFFFFFF, 0x0, .none, 1, false⟩,
   ⟨Reg.beRow, 1, 0, 1, 0, .rw, 0x200100, 0xFFFFFFFF, 0x0, .none, 1, false⟩,
   ⟨Reg.beRepl, 1, 0, 1, 0, .rw, 0x1010, 0xFFFF, 0x0, .none, 1, false⟩,
   ⟨Reg.beWear, 1, 0, 1, 0, .rw, 0x8050, 0xFFFFFF7F, 0x0, .none, 1, false⟩,
   ⟨Reg.beWiden, 1, 0, 1, 0, .rw, 0xF0008, 0xFFFFFF, 0x0, .none, 1, false⟩,
   ⟨Reg.bePromoted, 1, 0, 1, 0, .rs, 0x0, 0x0, 0xFFFFFFFF, .none, 1, false⟩,
   ⟨Reg.beDemoted, 1, 0, 1, 0, .rs, 0x0, 0x0, 0xFFFFFFFF, .none, 1, false⟩,
   ⟨Reg.beRowMoved, 1, 0, 1, 0, .rs, 0x0, 0x0, 0xFFFFFFFF, .none, 1, false⟩,
   ⟨Reg.beReplCreated, 1, 0, 1, 0, .rs, 0x0, 0x0, 0xFFFFFFFF, .none, 1, false⟩,
   ⟨Reg.beReplRetired, 1, 0, 1, 0, .rs, 0x0, 0x0, 0xFFFFFFFF, .none, 1, false⟩,
   ⟨Reg.beEvacMoved, 1, 0, 1, 0, .rs, 0x0, 0x0, 0xFFFFFFFF, .none, 1, false⟩,
   ⟨Reg.beWearMoved, 1, 0, 1, 0, .rs, 0x0, 0x0, 0xFFFFFFFF, .none, 1, false⟩]

/-- Registers of the queue slots block. -/
def rowsQueueSlot : List RegRow :=
  [⟨Reg.dqBaseLo, 64, 64, 1, 0, .rw, 0x0, 0xFFFFFFC0, 0x0, .part, 2, false⟩,
   ⟨Reg.dqBaseHi, 64, 64, 1, 0, .rw, 0x0, 0xFFFFFFFF, 0x0, .part, 2, false⟩,
   ⟨Reg.dqCqLo, 64, 64, 1, 0, .rw, 0x0, 0xFFFFFFC0, 0x0, .part, 2, false⟩,
   ⟨Reg.dqCqHi, 64, 64, 1, 0, .rw, 0x0, 0xFFFFFFFF, 0x0, .part, 2, false⟩,
   ⟨Reg.dqCfg, 64, 64, 1, 0, .rw, 0x6, 0xFFF3FF1F, 0x0, .part, 2, false⟩,
   ⟨Reg.dqDoorbell, 64, 64, 1, 0, .rw, 0x0, 0xFFFFFFFF, 0x0, .part, 2, false⟩,
   ⟨Reg.dqHead, 64, 64, 1, 0, .ro, 0x0, 0x0, 0xFFFFFFFF, .part, 2, false⟩,
   ⟨Reg.dqCqHead, 64, 64, 1, 0, .rw, 0x0, 0xFFFFFFFF, 0x0, .part, 2, false⟩,
   ⟨Reg.dqCqTail, 64, 64, 1, 0, .ro, 0x0, 0x0, 0xFFFFFFFF, .part, 2, false⟩,
   ⟨Reg.dqCtl, 64, 64, 1, 0, .rw, 0x100, 0x1, 0x100, .part, 2, false⟩,
   ⟨Reg.dqStatus, 64, 64, 1, 0, .ro, 0x0, 0x0, 0xFFFF0FFF, .part, 2, false⟩,
   ⟨Reg.dqMap, 64, 64, 1, 0, .rw, 0x0, 0x80000FFF, 0x0, .part, 2, true⟩,
   ⟨Reg.dqWait, 64, 64, 1, 0, .rw, 0x5DC, 0xFFFF, 0x0, .part, 2, false⟩,
   ⟨Reg.dqDone, 64, 64, 1, 0, .rs, 0x0, 0x0, 0xFFFFFFFF, .part, 2, false⟩,
   ⟨Reg.dqErrors, 64, 64, 1, 0, .rs, 0x0, 0x0, 0xFFFFFFFF, .part, 2, false⟩]

/-- Registers of the embedding block. -/
def rowsEmbedding : List RegRow :=
  [⟨Reg.embCfg, 1, 0, 1, 0, .rw, 0x0, 0x1FFFFF, 0x0, .none, 3, false⟩,
   ⟨Reg.embSort, 1, 0, 1, 0, .ro, 0x0, 0x0, 0xFFFFFFFF, .none, 3, false⟩,
   ⟨Reg.embStaging, 1, 0, 1, 0, .ro, 0x0, 0x0, 0xFFFFFFFF, .none, 3, false⟩,
   ⟨Reg.embReplThresh, 1, 0, 1, 0, .ro, 0x0, 0x0, 0xFFFFFFFF, .none, 3, false⟩,
   ⟨Reg.cutWin, 8, 16, 1, 0, .rs, 0x0, 0x0, 0xFFFFFFFF, .none, 3, false⟩,
   ⟨Reg.cutIdx, 8, 16, 1, 0, .rs, 0x0, 0x0, 0xFFFFFFFF, .none, 3, false⟩,
   ⟨Reg.cutUniq, 8, 16, 1, 0, .rs, 0x0, 0x0, 0xFFFFFFFF, .none, 3, false⟩,
   ⟨Reg.cutMaxfan, 8, 16, 1, 0, .rs, 0x0, 0x0, 0x1FFFFF, .none, 3, false⟩,
   ⟨Reg.dollyReads, 1, 0, 1, 0, .rs, 0x0, 0x0, 0xFFFFFFFF, .dolly, 3, false⟩,
   ⟨Reg.dollyOutst, 1, 0, 1, 0, .rs, 0x0, 0x0, 0x1FFF, .dolly, 3, false⟩,
   ⟨Reg.dollyHeld, 1, 0, 1, 0, .rs, 0x0, 0x0, 0xFFFFFFFF, .dolly, 3, false⟩,
   ⟨Reg.dollyTimeout, 1, 0, 1, 0, .rs, 0x0, 0x0, 0xFFFFFFFF, .dolly, 3, false⟩]

/-- Registers of the search block. -/
def rowsSearch : List RegRow :=
  [⟨Reg.srchCfg, 1, 0, 1, 0, .rw, 0x40, 0xFF, 0x0, .none, 4, false⟩,
   ⟨Reg.srchBeam, 1, 0, 1, 0, .ro, 0x0, 0x0, 0xFFFFFFFF, .none, 4, false⟩,
   ⟨Reg.scoutBlocks, 1, 0, 1, 0, .rs, 0x0, 0x0, 0xFFFFFFFF, .flc, 4, false⟩,
   ⟨Reg.scoutCands, 1, 0, 1, 0, .rs, 0x0, 0x0, 0xFFFFFFFF, .flc, 4, false⟩,
   ⟨Reg.scoutPoison, 1, 0, 1, 0, .rs, 0x0, 0x0, 0xFFFFFFFF, .flc, 4, false⟩,
   ⟨Reg.scoutOutst, 1, 0, 1, 0, .rs, 0x0, 0x0, 0xFF, .flc, 4, false⟩]

/-- Registers of the codec block. -/
def rowsCodec : List RegRow :=
  [⟨Reg.codecCfg, 1, 0, 1, 0, .rw, 0x2, 0xFF03, 0x0, .none, 5, false⟩,
   ⟨Reg.codecQueue, 1, 0, 1, 0, .ro, 0x0, 0x0, 0xFFFFFFFF, .none, 5, false⟩,
   ⟨Reg.ctblCmd, 1, 0, 1, 0, .rw, 0x0, 0x70007, 0xFF10, .none, 5, false⟩,
   ⟨Reg.ctblImageLo, 1, 0, 1, 0, .rw, 0x0, 0xFFFFFFC0, 0x0, .none, 5, false⟩,
   ⟨Reg.ctblImageHi, 1, 0, 1, 0, .rw, 0x0, 0x3FFFF, 0x0, .none, 5, false⟩,
   ⟨Reg.ctblState, 8, 4, 1, 0, .ro, 0x0, 0x0, 0xFFFF1FFF, .none, 5, false⟩,
   ⟨Reg.ctblRest, 8, 4, 1, 0, .rs, 0x0, 0x0, 0xFFFFFFFF, .none, 5, false⟩,
   ⟨Reg.laneIn, 1, 0, 1, 0, .rs, 0x0, 0x0, 0xFFFFFFFF, .codec, 5, false⟩,
   ⟨Reg.laneOut, 1, 0, 1, 0, .rs, 0x0, 0x0, 0xFFFFFFFF, .codec, 5, false⟩,
   ⟨Reg.laneFull, 1, 0, 1, 0, .rs, 0x0, 0x0, 0xFFFFFFFF, .codec, 5, false⟩,
   ⟨Reg.laneDepth, 1, 0, 1, 0, .rs, 0x0, 0x0, 0x7FFFF, .codec, 5, false⟩]

/-- Registers of the ordering block. -/
def rowsOrdering : List RegRow :=
  [⟨Reg.cueCfg, 1, 0, 1, 0, .rw, 0xF, 0xFF, 0x0, .none, 6, false⟩,
   ⟨Reg.cueHeld, 1, 0, 1, 0, .rs, 0x0, 0x0, 0xFFFFFFFF, .none, 6, false⟩,
   ⟨Reg.cueApplied, 1, 0, 1, 0, .rs, 0x0, 0x0, 0xFFFFFFFF, .none, 6, false⟩,
   ⟨Reg.cueExpiredAll, 1, 0, 1, 0, .rs, 0x0, 0x0, 0xFFFFFFFF, .none, 6, false⟩,
   ⟨Reg.tallyAssign, 1, 0, 1, 0, .rw, 0x0, 0x800000FF, 0x0, .tally, 6, false⟩]

/-- Registers of the coherence block. -/
def rowsCoherence : List RegRow :=
  [⟨Reg.cohCfg, 1, 0, 1, 0, .rw, 0x303, 0xF03, 0x0, .none, 7, false⟩,
   ⟨Reg.dirCfg, 1, 0, 1, 0, .ro, 0x0, 0x0, 0xFF1F, .none, 7, false⟩,
   ⟨Reg.cohStatus, 1, 0, 1, 0, .rl, 0x0, 0x0, 0xF, .none, 7, false⟩,
   ⟨Reg.cohAgentNum, 1, 0, 1, 0, .rw, 0x0, 0xFF, 0x0, .none, 7, false⟩,
   ⟨Reg.cohAgent, 1, 0, 1, 0, .rw, 0x0, 0xFFFFF, 0xC0000000, .none, 7, false⟩,
   ⟨Reg.cohAgentCmd, 1, 0, 1, 0, .rw, 0x0, 0x7, 0xFF10, .none, 7, false⟩,
   ⟨Reg.dirHits, 1, 0, 1, 0, .rs, 0x0, 0x0, 0xFFFFFFFF, .none, 7, false⟩,
   ⟨Reg.dirMisses, 1, 0, 1, 0, .rs, 0x0, 0x0, 0xFFFFFFFF, .none, 7, false⟩,
   ⟨Reg.dirEvictions, 1, 0, 1, 0, .rs, 0x0, 0x0, 0xFFFFFFFF, .none, 7, false⟩,
   ⟨Reg.dirCorrected, 1, 0, 1, 0, .rs, 0x0, 0x0, 0xFFFFFFFF, .none, 7, false⟩,
   ⟨Reg.cohRecalls, 1, 0, 1, 0, .rs, 0x0, 0x0, 0xFFFFFFFF, .none, 7, false⟩,
   ⟨Reg.cohNotHeld, 1, 0, 1, 0, .rs, 0x0, 0x0, 0xFFFFFFFF, .none, 7, false⟩,
   ⟨Reg.cohForwards, 1, 0, 1, 0, .rs, 0x0, 0x0, 0xFFFFFFFF, .none, 7, false⟩,
   ⟨Reg.cohStaleWb, 1, 0, 1, 0, .rs, 0x0, 0x0, 0xFFFFFFFF, .none, 7, false⟩,
   ⟨Reg.cohTimeouts, 1, 0, 1, 0, .rs, 0x0, 0x0, 0xFFFFFFFF, .none, 7, false⟩]

/-- Registers of the fabric block. -/
def rowsFabric : List RegRow :=
  [⟨Reg.fabId, 1, 0, 1, 0, .ro, 0x0, 0x0, 0x3FFFF, .none, 8, false⟩,
   ⟨Reg.fabCfg, 1, 0, 1, 0, .rw, 0x4100A0C, 0xF1FFFFF, 0x0, .none, 8, false⟩,
   ⟨Reg.fmEp, 4, 4, 1, 0, .rw, 0x0, 0x8003FFFF, 0x0, .none, 8, false⟩,
   ⟨Reg.csCfg, 1, 0, 1, 0, .rw, 0x8, 0xFF, 0x0, .none, 8, false⟩,
   ⟨Reg.csEpoch, 1, 0, 1, 0, .ro, 0x0, 0x0, 0xFFFFFFFF, .none, 8, false⟩,
   ⟨Reg.csCmd, 1, 0, 1, 0, .rw, 0x0, 0xFFFF0007, 0xFF10, .none, 8, false⟩,
   ⟨Reg.csStatus, 1, 0, 1, 0, .ro, 0x0, 0x0, 0x80FFFFFF, .none, 8, false⟩,
   ⟨Reg.csIdx, 1, 0, 1, 0, .rw, 0x0, 0x33FFF, 0x0, .none, 8, false⟩,
   ⟨Reg.csData, 8, 4, 1, 0, .rw, 0x0, 0xFFFFFFFF, 0x0, .none, 8, false⟩,
   ⟨Reg.rtIdx, 1, 0, 1, 0, .rw, 0x0, 0x103FF, 0x0, .none, 8, false⟩,
   ⟨Reg.rtDataLo, 1, 0, 1, 0, .rw, 0x0, 0xFFFFFFFF, 0x0, .none, 8, false⟩,
   ⟨Reg.rtDataHi, 1, 0, 1, 0, .rw, 0x0, 0xFFFFFF, 0x0, .none, 8, false⟩,
   ⟨Reg.poolIdx, 1, 0, 1, 0, .rw, 0x0, 0x3FF, 0x0, .none, 8, false⟩,
   ⟨Reg.poolData, 1, 0, 1, 0, .rw, 0x0, 0x3, 0x0, .none, 8, false⟩,
   ⟨Reg.ledgerCfg, 1, 0, 1, 0, .rw, 0xF, 0x1FF, 0x0, .none, 8, false⟩,
   ⟨Reg.partnerCfg, 1, 0, 1, 0, .rw, 0x40, 0xFF, 0x0, .none, 8, false⟩,
   ⟨Reg.pktDropped, 1, 0, 1, 0, .rs, 0x0, 0x0, 0xFFFFFFFF, .none, 8, false⟩,
   ⟨Reg.pktUnroutable, 1, 0, 1, 0, .rs, 0x0, 0x0, 0xFFFFFFFF, .none, 8, false⟩,
   ⟨Reg.pktBad, 1, 0, 1, 0, .rs, 0x0, 0x0, 0xFFFFFFFF, .none, 8, false⟩,
   ⟨Reg.partnersLive, 1, 0, 1, 0, .rs, 0x0, 0x0, 0x1FFFF, .none, 8, false⟩,
   ⟨Reg.partnerFull, 1, 0, 1, 0, .rs, 0x0, 0x0, 0xFFFFFFFF, .none, 8, false⟩,
   ⟨Reg.csWalkTmo, 1, 0, 1, 0, .rs, 0x0, 0x0, 0xFFFFFFFF, .none, 8, false⟩,
   ⟨Reg.ledgerLive, 1, 0, 1, 0, .rs, 0x0, 0x0, 0x1FFFF, .none, 8, false⟩,
   ⟨Reg.ledgerReverts, 1, 0, 1, 0, .rs, 0x0, 0x0, 0xFFFFFFFF, .none, 8, false⟩,
   ⟨Reg.ledgerRefused, 1, 0, 1, 0, .rs, 0x0, 0x0, 0xFFFFFFFF, .none, 8, false⟩,
   ⟨Reg.mgmtRefused, 1, 0, 1, 0, .rs, 0x0, 0x0, 0xFFFFFFFF, .none, 8, false⟩,
   ⟨Reg.proxyDropped, 1, 0, 1, 0, .rs, 0x0, 0x0, 0xFFFFFFFF, .none, 8, false⟩,
   ⟨Reg.endpointsLost, 1, 0, 1, 0, .rs, 0x0, 0x0, 0xFFFFFFFF, .none, 8, false⟩,
   ⟨Reg.portCfg, 1, 0, 1, 0, .rw, 0x1, 0x1, 0x0, .port, 8, false⟩,
   ⟨Reg.portStatus, 1, 0, 1, 0, .rl, 0x0, 0x0, 0xFF1F, .port, 8, false⟩,
   ⟨Reg.portPeer, 1, 0, 1, 0, .ro, 0x0, 0x0, 0x8003FFFF, .port, 8, false⟩,
   ⟨Reg.portTcWeight, 1, 0, 1, 0, .rw, 0x1111, 0xFFFF, 0x0, .port, 8, false⟩,
   ⟨Reg.portFecCorr, 1, 0, 1, 0, .rs, 0x0, 0x0, 0xFFFFFFFF, .port, 8, false⟩,
   ⟨Reg.portFecUncorr, 1, 0, 1, 0, .rs, 0x0, 0x0, 0xFFFFFFFF, .port, 8, false⟩,
   ⟨Reg.portCrcErr, 1, 0, 1, 0, .rs, 0x0, 0x0, 0xFFFFFFFF, .port, 8, false⟩,
   ⟨Reg.portReplays, 1, 0, 1, 0, .rs, 0x0, 0x0, 0xFFFFFFFF, .port, 8, false⟩,
   ⟨Reg.portRetrains, 1, 0, 1, 0, .rs, 0x0, 0x0, 0xFFFFFFFF, .port, 8, false⟩,
   ⟨Reg.portTxFlits, 1, 0, 1, 0, .rs, 0x0, 0x0, 0xFFFFFFFF, .port, 8, false⟩,
   ⟨Reg.portRxFlits, 1, 0, 1, 0, .rs, 0x0, 0x0, 0xFFFFFFFF, .port, 8, false⟩,
   ⟨Reg.portTags, 1, 0, 1, 0, .rs, 0x0, 0x0, 0x1FFF, .port, 8, false⟩]

/-- Registers of the translation block. -/
def rowsTranslation : List RegRow :=
  [⟨Reg.asidIdx, 1, 0, 1, 0, .rw, 0x0, 0xFFF, 0x0, .none, 10, false⟩,
   ⟨Reg.asidCfg, 1, 0, 1, 0, .rw, 0x0, 0xFFE000FF, 0x0, .none, 10, false⟩,
   ⟨Reg.asidPasid, 1, 0, 1, 0, .rw, 0x0, 0xFFFFF, 0x0, .none, 10, false⟩,
   ⟨Reg.ptArea, 1, 0, 1, 0, .ro, 0x0, 0x0, 0xFFFFFFFF, .none, 10, false⟩,
   ⟨Reg.ptFree, 1, 0, 1, 0, .rs, 0x0, 0x0, 0xFFFFFFFF, .none, 10, false⟩,
   ⟨Reg.tlbMisses, 1, 0, 1, 0, .rs, 0x0, 0x0, 0xFFFFFFFF, .none, 10, false⟩,
   ⟨Reg.atsReqs, 1, 0, 1, 0, .rs, 0x0, 0x0, 0xFFFFFFFF, .none, 10, false⟩,
   ⟨Reg.atsInvals, 1, 0, 1, 0, .rs, 0x0, 0x0, 0xFFFFFFFF, .none, 10, false⟩,
   ⟨Reg.priReqs, 1, 0, 1, 0, .rs, 0x0, 0x0, 0xFFFFFFFF, .none, 10, false⟩]

/-- Registers of the host block. -/
def rowsHost : List RegRow :=
  [⟨Reg.aptIdx, 1, 0, 1, 0, .rw, 0x0, 0x1FF, 0x0, .none, 11, false⟩,
   ⟨Reg.aptBaseLo, 1, 0, 1, 0, .rw, 0x0, 0xFFFFF000, 0x0, .none, 11, false⟩,
   ⟨Reg.aptBaseHi, 1, 0, 1, 0, .rw, 0x0, 0xFFFFFFFF, 0x0, .none, 11, false⟩,
   ⟨Reg.hostpStatus, 2, 256, 1, 0, .rl, 0x0, 0x0, 0xFFF, .none, 11, false⟩,
   ⟨Reg.hostpBar2, 2, 256, 1, 0, .ro, 0x0, 0x0, 0x3F3F, .none, 11, false⟩,
   ⟨Reg.hdmFaLo, 2, 256, 8, 8, .rw, 0x0, 0xF0000000, 0x0, .none, 11, false⟩,
   ⟨Reg.hdmFaHi, 2, 256, 8, 8, .rw, 0x0, 0xFFFFFFFF, 0x0, .none, 11, false⟩,
   ⟨Reg.hdmPart, 2, 256, 8, 4, .rw, 0x0, 0xFF, 0x0, .none, 11, false⟩,
   ⟨Reg.hostDropped, 2, 256, 1, 0, .rs, 0x0, 0x0, 0xFFFFFFFF, .none, 11, false⟩,
   ⟨Reg.hostUr, 2, 256, 1, 0, .rs, 0x0, 0x0, 0xFFFFFFFF, .none, 11, false⟩,
   ⟨Reg.atcHits, 2, 256, 1, 0, .rs, 0x0, 0x0, 0xFFFFFFFF, .none, 11, false⟩,
   ⟨Reg.priOutst, 2, 256, 1, 0, .rs, 0x0, 0x0, 0x3FF, .none, 11, false⟩]

/-- Registers of the dma block. -/
def rowsDma : List RegRow :=
  [⟨Reg.dmaCfg, 1, 0, 1, 0, .rw, 0x96, 0xFF, 0x0, .none, 12, false⟩,
   ⟨Reg.dmaAssign, 1, 0, 1, 0, .rw, 0x0, 0x800000FF, 0x0, .dma, 12, true⟩,
   ⟨Reg.dmaEngStatus, 1, 0, 1, 0, .rl, 0x0, 0x0, 0xFF0F, .dma, 12, false⟩,
   ⟨Reg.chSrcLo, 8, 64, 1, 0, .rw, 0x0, 0xFFFFFFFF, 0x0, .dma, 12, false⟩,
   ⟨Reg.chSrcHi, 8, 64, 1, 0, .rw, 0x0, 0xFFFF, 0x0, .dma, 12, false⟩,
   ⟨Reg.chDstLo, 8, 64, 1, 0, .rw, 0x0, 0xFFFFFFFF, 0x0, .dma, 12, false⟩,
   ⟨Reg.chDstHi, 8, 64, 1, 0, .rw, 0x0, 0xFFFF, 0x0, .dma, 12, false⟩,
   ⟨Reg.chLenLo, 8, 64, 1, 0, .rw, 0x0, 0xFFFFFFFF, 0x0, .dma, 12, false⟩,
   ⟨Reg.chLenHi, 8, 64, 1, 0, .rw, 0x0, 0xFF, 0x0, .dma, 12, false⟩,
   ⟨Reg.chCfg, 8, 64, 1, 0, .rw, 0x0, 0xFFFFBF00, 0x0, .dma, 12, false⟩,
   ⟨Reg.chTally, 8, 64, 1, 0, .rw, 0x0, 0xFFFF, 0x0, .dma, 12, false⟩,
   ⟨Reg.chCtl, 8, 64, 1, 0, .rw, 0x0, 0x0, 0xFF0300, .dma, 12, false⟩,
   ⟨Reg.chFaultLo, 8, 64, 1, 0, .ro, 0x0, 0x0, 0xFFFFFFFF, .dma, 12, false⟩,
   ⟨Reg.chFaultHi, 8, 64, 1, 0, .ro, 0x0, 0x0, 0x8000FFFF, .dma, 12, false⟩,
   ⟨Reg.chDoneLo, 8, 64, 1, 0, .ro, 0x0, 0x0, 0xFFFFFFFF, .dma, 12, false⟩,
   ⟨Reg.chDoneHi, 8, 64, 1, 0, .ro, 0x0, 0x0, 0xFF, .dma, 12, false⟩]

/-- Registers of the partition block. -/
def rowsPartition : List RegRow :=
  [⟨Reg.partCfg, 1, 0, 1, 0, .ro, 0x0, 0x0, 0x1FF, .none, 0, false⟩,
   ⟨Reg.partCmd, 1, 0, 1, 0, .rw, 0x0, 0xFF0007, 0xFF10, .none, 0, false⟩,
   ⟨Reg.fnIdx, 1, 0, 1, 0, .rw, 0x0, 0x1FF, 0x0, .none, 0, false⟩,
   ⟨Reg.fnMap, 1, 0, 1, 0, .rw, 0x0, 0x800000FF, 0x0, .none, 0, false⟩,
   ⟨Reg.reelCtl, 1, 0, 1, 0, .rw, 0x0, 0x0, 0x10, .reel, 2, false⟩,
   ⟨Reg.resetsAll, 1, 0, 1, 0, .rs, 0x0, 0x0, 0xFFFFFFFF, .none, 0, false⟩]

/-- Registers of the common block. -/
def rowsCommon : List RegRow :=
  [⟨Reg.hubMagic, 1, 0, 1, 0, .ro, 0x57454956, 0x0, 0xFFFFFFFF, .none, 14, false⟩,
   ⟨Reg.hubId, 1, 0, 1, 0, .ro, 0x0, 0x0, 0xFFFFFFF, .none, 14, false⟩,
   ⟨Reg.hubFeature, 1, 0, 1, 0, .ro, 0x0, 0x0, 0x7FFFF7F, .none, 14, false⟩,
   ⟨Reg.hubFitted, 1, 0, 1, 0, .ro, 0x0, 0x0, 0xFFFFF, .none, 14, false⟩,
   ⟨Reg.flashFitted, 1, 0, 1, 0, .ro, 0x0, 0x0, 0xFFFFFFFF, .none, 14, false⟩,
   ⟨Reg.hubSerialLo, 1, 0, 1, 0, .ro, 0x0, 0x0, 0xFFFFFFFF, .none, 14, false⟩,
   ⟨Reg.hubSerialHi, 1, 0, 1, 0, .ro, 0x0, 0x0, 0xFFFFFFFF, .none, 14, false⟩,
   ⟨Reg.scriptId, 1, 0, 1, 0, .ro, 0x0, 0x0, 0xFFFFFFFF, .none, 14, false⟩,
   ⟨Reg.fwVersion, 1, 0, 1, 0, .ro, 0x0, 0x0, 0xFFFFFFFF, .none, 14, false⟩,
   ⟨Reg.fnSelf, 1, 0, 1, 0, .ro, 0x0, 0x0, 0xFF07FF, .none, 14, false⟩,
   ⟨Reg.slowEdges, 1, 0, 1, 0, .ro, 0x0, 0x0, 0xFFFFFFFF, .none, 14, false⟩,
   ⟨Reg.partSel, 1, 0, 1, 0, .rw, 0x0, 0xFFFF, 0x0, .fn, 14, false⟩,
   ⟨Reg.portSel, 1, 0, 1, 0, .rw, 0x0, 0xFFFF, 0x0, .fn, 14, false⟩,
   ⟨Reg.flcSel, 1, 0, 1, 0, .rw, 0x0, 0xFFFF, 0x0, .fn, 14, false⟩,
   ⟨Reg.dmaSel, 1, 0, 1, 0, .rw, 0x0, 0xFFFF, 0x0, .fn, 14, false⟩,
   ⟨Reg.reelSel, 1, 0, 1, 0, .rw, 0x0, 0xFFFF, 0x0, .fn, 14, false⟩,
   ⟨Reg.tallySel, 1, 0, 1, 0, .rw, 0x0, 0xFFFF, 0x0, .fn, 14, false⟩,
   ⟨Reg.codecSel, 1, 0, 1, 0, .rw, 0x0, 0xFFFF, 0x0, .fn, 14, false⟩,
   ⟨Reg.dollySel, 1, 0, 1, 0, .rw, 0x0, 0xFFFF, 0x0, .fn, 14, false⟩,
   ⟨Reg.lockkey, 1, 0, 1, 0, .rw, 0x0, 0x0, 0x0, .fn, 14, false⟩,
   ⟨Reg.lockRefused, 1, 0, 1, 0, .rs, 0x0, 0x0, 0xFFFFFFFF, .none, 14, false⟩,
   ⟨Reg.regBadAccess, 1, 0, 1, 0, .rs, 0x0, 0x0, 0xFFFFFFFF, .none, 14, false⟩,
   ⟨Reg.hubIntStatus, 1, 0, 1, 0, .rl, 0x0, 0x0, 0x1FF, .none, 14, false⟩,
   ⟨Reg.hubIntMask, 1, 0, 1, 0, .rm, 0x1FF, 0x1FF, 0x0, .none, 14, false⟩,
   ⟨Reg.hubIntRouteLo, 1, 0, 1, 0, .rw, 0x0, 0x3F807, 0x0, .none, 14, false⟩,
   ⟨Reg.hubIntRouteHi, 1, 0, 1, 0, .rw, 0x0, 0x3FFFF, 0x0, .none, 14, false⟩,
   ⟨Reg.fatalStatus, 1, 0, 1, 0, .w1c, 0x0, 0x7, 0x0, .none, 14, false⟩,
   ⟨Reg.parityFault, 1, 0, 1, 0, .w1c, 0x0, 0x7FFF, 0x0, .none, 14, false⟩,
   ⟨Reg.parityWhereLo, 1, 0, 1, 0, .ro, 0x0, 0x0, 0x3FFFFFC, .none, 14, false⟩,
   ⟨Reg.parityWhereHi, 1, 0, 1, 0, .ro, 0x0, 0x0, 0x801FFFFF, .none, 14, false⟩,
   ⟨Reg.parityInject, 1, 0, 1, 0, .rk, 0x0, 0x11F, 0x0, .none, 14, false⟩,
   ⟨Reg.secViolation, 1, 0, 1, 0, .w1c, 0x0, 0x3F, 0x0, .none, 14, false⟩,
   ⟨Reg.lcStatus, 1, 0, 1, 0, .w1c, 0x0, 0x7F, 0x0, .none, 14, false⟩]

/-- Registers of the reliability block. -/
def rowsReliability1 : List RegRow :=
  [⟨Reg.scrubCfg, 1, 0, 1, 0, .rw, 0x10018, 0x100FF, 0x0, .none, 13, false⟩,
   ⟨Reg.ceThresh, 1, 0, 1, 0, .rw, 0x40, 0xFFFF, 0x0, .none, 13, false⟩,
   ⟨Reg.flashCfg, 1, 0, 1, 0, .rw, 0xA08, 0x7F0F, 0x0, .none, 13, false⟩,
   ⟨Reg.stageCe, 1, 0, 1, 0, .rs, 0x0, 0x0, 0xFFFFFFFF, .none, 13, false⟩,
   ⟨Reg.stageUe, 1, 0, 1, 0, .rs, 0x0, 0x0, 0xFFFFFFFF, .none, 13, false⟩,
   ⟨Reg.hbmCe, 8, 4, 1, 0, .rs, 0x0, 0x0, 0xFFFFFFFF, .none, 13, false⟩,
   ⟨Reg.hbmUe, 8, 4, 1, 0, .rs, 0x0, 0x0, 0xFFFFFFFF, .none, 13, false⟩,
   ⟨Reg.ddrCe, 12, 4, 1, 0, .rs, 0x0, 0x0, 0xFFFFFFFF, .none, 13, false⟩,
   ⟨Reg.ddrUe, 12, 4, 1, 0, .rs, 0x0, 0x0, 0xFFFFFFFF, .none, 13, false⟩,
   ⟨Reg.poisonMade, 1, 0, 1, 0, .rs, 0x0, 0x0, 0xFFFFFFFF, .none, 13, false⟩,
   ⟨Reg.poisonSent, 1, 0, 1, 0, .rs, 0x0, 0x0, 0xFFFFFFFF, .none, 13, false⟩,
   ⟨Reg.flcCtl, 1, 0, 1, 0, .rw, 0x0, 0x1, 0x0, .flc, 13, false⟩,
   ⟨Reg.flcStatus, 1, 0, 1, 0, .ro, 0x0, 0x0, 0x1, .flc, 13, false⟩,
   ⟨Reg.flcDieRo, 1, 0, 1, 0, .ro, 0x0, 0x0, 0xFFFFFFFF, .flc, 13, false⟩,
   ⟨Reg.flcRetried, 1, 0, 1, 0, .rs, 0x0, 0x0, 0xFFFFFFFF, .flc, 13, false⟩,
   ⟨Reg.flcUe, 1, 0, 1, 0, .rs, 0x0, 0x0, 0xFFFFFFFF, .flc, 13, false⟩,
   ⟨Reg.flcCrc, 1, 0, 1, 0, .rs, 0x0, 0x0, 0xFFFFFFFF, .flc, 13, false⟩,
   ⟨Reg.flcRetired, 1, 0, 1, 0, .rs, 0x0, 0x0, 0xFFFFFFFF, .flc, 13, false⟩,
   ⟨Reg.flcWear, 1, 0, 1, 0, .rs, 0x0, 0x0, 0xFFFF, .flc, 13, false⟩,
   ⟨Reg.flcRoDropped, 1, 0, 1, 0, .rs, 0x0, 0x0, 0xFFFFFFFF, .flc, 13, false⟩,
   ⟨Reg.snapCfg, 1, 0, 1, 0, .rw, 0x28, 0xFF, 0x0, .none, 13, false⟩,
   ⟨Reg.snapStatus, 1, 0, 1, 0, .ro, 0x0, 0x0, 0xFFFF01, .none, 13, false⟩,
   ⟨Reg.snapLeft, 1, 0, 1, 0, .rs, 0x0, 0x0, 0xFFFFFFFF, .none, 13, false⟩,
   ⟨Reg.snapRefused, 1, 0, 1, 0, .rs, 0x0, 0x0, 0xFFFFFFFF, .none, 13, false⟩,
   ⟨Reg.snapCowWaits, 1, 0, 1, 0, .rs, 0x0, 0x0, 0xFFFFFFFF, .none, 13, false⟩,
   ⟨Reg.stepLastLo, 1, 0, 1, 0, .rs, 0x0, 0x0, 0xFFFFFFFF, .none, 13, false⟩,
   ⟨Reg.stepLastHi, 1, 0, 1, 0, .rs, 0x0, 0x0, 0xFFFFFFFF, .none, 13, false⟩,
   ⟨Reg.takeCfg, 1, 0, 1, 0, .rw, 0x5, 0xF, 0x0, .none, 13, false⟩,
   ⟨Reg.takeTrigEn, 1, 0, 1, 0, .rw, 0x10FC, 0xFFFF, 0x0, .none, 13, false⟩,
   ⟨Reg.takeTrigList, 1, 0, 1, 0, .rw, 0x0, 0xFFFFFFFF, 0x0, .none, 13, false⟩,
   ⟨Reg.takeListLen, 1, 0, 1, 0, .rw, 0x0, 0x1F1F1F1F, 0x0, .none, 13, false⟩,
   ⟨Reg.takeSw, 1, 0, 1, 0, .rw, 0x0, 0xFFFFFFFF, 0x0, .none, 13, false⟩,
   ⟨Reg.takeHeadLo, 1, 0, 1, 0, .ro, 0x1, 0x0, 0xFFFFFFFF, .none, 13, false⟩,
   ⟨Reg.takeHeadHi, 1, 0, 1, 0, .ro, 0x0, 0x0, 0xFFFF, .none, 13, false⟩,
   ⟨Reg.takeAckLo, 1, 0, 1, 0, .rw, 0x1, 0xFFFFFFFF, 0x0, .none, 13, false⟩,
   ⟨Reg.takeAckHi, 1, 0, 1, 0, .rw, 0x0, 0xFFFF, 0x0, .none, 13, false⟩,
   ⟨Reg.takeCursorLo, 1, 0, 1, 0, .rw, 0x1, 0xFFFFFFFF, 0x0, .none, 13, false⟩,
   ⟨Reg.takeCursorHi, 1, 0, 1, 0, .rw, 0x0, 0xFFFF, 0x0, .none, 13, false⟩,
   ⟨Reg.takesLost, 1, 0, 1, 0, .rs, 0x0, 0x0, 0xFFFFFFFF, .none, 13, false⟩,
   ⟨Reg.takesSuppressed, 1, 0, 1, 0, .rs, 0x0, 0x0, 0xFFFFFFFF, .none, 13, false⟩]

/-- Registers of the reliability block. -/
def rowsReliability2 : List RegRow :=
  [⟨Reg.takeWin, 21, 4, 1, 0, .ro, 0x0, 0x0, 0xFFFFFFFF, .none, 13, false⟩,
   ⟨Reg.takeList, 4, 64, 16, 4, .rw, 0x0, 0xFFFFFFFF, 0x0, .none, 13, false⟩]

/-- Registers of the boot block. -/
def rowsBoot : List RegRow :=
  [⟨Reg.clkStatus, 1, 0, 1, 0, .rl, 0x0, 0x0, 0x7, .none, 14, false⟩,
   ⟨Reg.bootStatus, 1, 0, 1, 0, .ro, 0x0, 0x0, 0x1FF0F, .none, 14, false⟩,
   ⟨Reg.bootCmd, 1, 0, 1, 0, .rk, 0x0, 0xF, 0xFF10, .none, 14, false⟩,
   ⟨Reg.hubReset, 1, 0, 1, 0, .rk, 0x0, 0x0, 0x0, .none, 14, false⟩,
   ⟨Reg.reloadDrain, 1, 0, 1, 0, .rw, 0x64, 0x3FFF, 0x0, .none, 14, false⟩,
   ⟨Reg.imgLen, 1, 0, 1, 0, .rw, 0x0, 0x7FFFFFF, 0x0, .none, 14, false⟩,
   ⟨Reg.imgOffset, 1, 0, 1, 0, .rw, 0x0, 0x7FF, 0x0, .none, 14, false⟩,
   ⟨Reg.bootEp, 1, 0, 1, 0, .rk, 0x0, 0x8003FFFF, 0x0, .none, 14, false⟩,
   ⟨Reg.imgWork, 1, 0, 1, 0, .ro, 0x0, 0x0, 0xFFFFFFFF, .none, 14, false⟩,
   ⟨Reg.imgReelOffLo, 1, 0, 1, 0, .ro, 0x0, 0x0, 0xFFFFFFFF, .none, 14, false⟩,
   ⟨Reg.imgReelOffHi, 1, 0, 1, 0, .ro, 0x0, 0x0, 0xFFFFFFFF, .none, 14, false⟩,
   ⟨Reg.thermCfg, 1, 0, 1, 0, .rw, 0x5F0361, 0xFFFFFF, 0x0, .none, 14, false⟩,
   ⟨Reg.pwrCfg, 1, 0, 1, 0, .rw, 0x1014A, 0x103FF, 0x0, .none, 14, false⟩,
   ⟨Reg.tempStudio, 4, 4, 1, 0, .rs, 0x0, 0x0, 0xFF, .none, 14, false⟩,
   ⟨Reg.tempHbm, 8, 4, 1, 0, .rs, 0x0, 0x0, 0xFF, .none, 14, false⟩,
   ⟨Reg.tempMax, 1, 0, 1, 0, .rs, 0x0, 0x0, 0xFF, .none, 14, false⟩,
   ⟨Reg.vcoreAmps, 1, 0, 1, 0, .rs, 0x0, 0x0, 0x3FF, .none, 14, false⟩,
   ⟨Reg.throtTicks, 1, 0, 1, 0, .rs, 0x0, 0x0, 0xFFFFFFFF, .none, 14, false⟩,
   ⟨Reg.throtStatus, 1, 0, 1, 0, .rl, 0x0, 0x0, 0xF, .none, 14, false⟩,
   ⟨Reg.imgData, 8192, 4, 1, 0, .rw, 0x0, 0xFFFFFFFF, 0x0, .none, 14, false⟩]

/-- Registers of the lifeCycle block. -/
def rowsLifeCycle : List RegRow :=
  [⟨Reg.lcState, 1, 0, 1, 0, .ro, 0x0, 0x0, 0x37, .none, 14, false⟩,
   ⟨Reg.lcCmd, 1, 0, 1, 0, .rk, 0x0, 0x7, 0xFF10, .none, 14, false⟩,
   ⟨Reg.fuseSvn, 1, 0, 1, 0, .ro, 0x0, 0x0, 0x3F3F, .none, 14, false⟩,
   ⟨Reg.dbgRefused, 1, 0, 1, 0, .rs, 0x0, 0x0, 0xFFFFFFFF, .none, 14, false⟩,
   ⟨Reg.lcNonce, 16, 4, 1, 0, .ro, 0x0, 0x0, 0xFFFFFFFF, .none, 14, false⟩,
   ⟨Reg.lcToken, 4096, 4, 1, 0, .rw, 0x0, 0xFFFFFFFF, 0x0, .none, 14, false⟩]

/-- The rows of the block in which a PF BAR0 offset lies (Table 13-2, Table 13-4). -/
def blockRows (off : Nat) : List RegRow :=
  if off ≥ 0x102000 then [] else if off ≥ 0x101000 then rowsQueueSlot else if off ≥ 0x100000 then rowsPartSet1 ++ rowsPartSet2 ++ rowsPartSet3 else
  match off / 0x10000 with
  | 0 => rowsCommon
  | 1 => rowsStore
  | 2 => rowsPlacement
  | 3 => rowsEmbedding
  | 4 => rowsSearch
  | 5 => rowsCodec
  | 6 => rowsOrdering
  | 7 => rowsCoherence
  | 8 => rowsFabric
  | 9 => rowsTranslation
  | 10 => rowsHost
  | 11 => rowsDma
  | 12 => rowsPartition
  | 13 => rowsReliability1 ++ rowsReliability2
  | 14 => rowsBoot
  | 15 => rowsLifeCycle
  | _ => []

/-- Whether a row holds the register at an offset. -/
def RegRow.holds (r : RegRow) (off : Nat) : Bool :=
  r.off ≤ off && (List.range r.n1).any fun i => (List.range r.n2).any fun j => r.off + i * r.s1 + j * r.s2 == off

/-- A row with one run of copies holds an offset within it at a whole stride. -/
def RegRow.covers (r : RegRow) (off : Nat) : Bool :=
  if r.n2 ≤ 1 then
    r.off ≤ off && (if r.n1 ≤ 1 then off == r.off else (off - r.off) % r.s1 == 0 && decide ((off - r.off) / r.s1 < r.n1))
  else r.holds off

/-- The row of the register at a PF BAR0 offset; none where no table assigns the offset (R447). -/
def regRow (off : Nat) : Option RegRow := (blockRows off).find? fun r => r.covers off

/-- The reset value of the register at an offset. -/
def regReset (off : Nat) : W32 := match regRow off with | some r => r.rst | none => 0

end Sys2Proof.Machine
end

