-- ==== Sys2Proof/Machine/Ops.lean ====
section
/-! DEFINITION. The named operations: tables of numbered things, bit fields, registers, counters, free values, the
paths by which registers are reached, the partition facts every unit asks for, and parity. -/

namespace Sys2Proof.Machine

open Sys2Proof

/-! Tables of numbered things -/

/-- The entry of key k. -/
def mget {α : Type} (k : Nat) : NMap α → Option α
  | [] => none
  | (j, v) :: t => if j = k then some v else mget k t

/-- Put v at key k. -/
def mset {α : Type} (k : Nat) (v : α) : NMap α → NMap α
  | [] => [(k, v)]
  | (j, w) :: t => if k < j then (k, v) :: (j, w) :: t else if j = k then (k, v) :: t else (j, w) :: mset k v t

/-- Remove key k. -/
def mdel {α : Type} (k : Nat) (m : NMap α) : NMap α := m.filter fun e => e.1 != k

/-- Put v at key k of a table whose unlisted entries read d: writing d removes the entry. -/
def mput {α : Type} [DecidableEq α] (d : α) (k : Nat) (v : α) (m : NMap α) : NMap α :=
  if v = d then mdel k m else mset k v m

/-- The entry of key k, d where unlisted. -/
def mgetD {α : Type} (d : α) (k : Nat) (m : NMap α) : α := (mget k m).getD d

/-- Whether key k is listed. -/
def mhas {α : Type} (k : Nat) (m : NMap α) : Bool := (mget k m).isSome

/-- Change the entry of key k where there is one. -/
def mmod {α : Type} (k : Nat) (f : α → α) (m : NMap α) : NMap α := m.map fun e => if e.1 = k then (e.1, f e.2) else e

/-- Change every entry. -/
def mmapv {α : Type} (f : Nat → α → α) (m : NMap α) : NMap α := m.map fun e => (e.1, f e.1 e.2)

/-- Keep the entries that satisfy p. -/
def mfilter {α : Type} (p : Nat → α → Bool) (m : NMap α) : NMap α := m.filter fun e => p e.1 e.2

/-- Keys strictly rising above a bound. -/
def sortedFrom {α : Type} (lo : Nat) : NMap α → Bool
  | [] => true
  | (j, _) :: t => decide (lo ≤ j) && sortedFrom (j + 1) t

/-- Keys strictly rising. -/
def sorted {α : Type} (m : NMap α) : Bool := sortedFrom 0 m

/-- The lowest number below n that p accepts. -/
def firstBelow (p : Nat → Bool) (n : Nat) : Option Nat := (List.range n).find? p

/-- The lowest key not listed. -/
def freeKeyFrom {α : Type} (k : Nat) : NMap α → Nat
  | [] => k
  | (j, _) :: t => if j = k then freeKeyFrom (k + 1) t else if k < j then k else freeKeyFrom k t

/-- Replace the first element that p accepts. -/
def replaceFirst {α : Type} (p : α → Bool) (f : α → α) : List α → List α
  | [] => []
  | a :: t => if p a then f a :: t else a :: replaceFirst p f t

/-- Put an element before the first one it may precede. -/
def insertBy {α : Type} (le : α → α → Bool) (a : α) : List α → List α
  | [] => [a]
  | b :: t => if le a b then a :: b :: t else b :: insertBy le a t

/-- Sort; equals keep their order. -/
def sortBy {α : Type} (le : α → α → Bool) (l : List α) : List α := l.foldr (insertBy le) []

/-! Bit fields and bytes -/

/-- Field of n bits from bit lo. -/
def fld {w : Nat} (v : BitVec w) (lo n : Nat) : Nat := v.toNat / 2 ^ lo % 2 ^ n

/-- Bit i. -/
def bit {w : Nat} (v : BitVec w) (i : Nat) : Bool := v.getLsbD i

/-- Replace the field of n bits from bit lo. -/
def setFld {w : Nat} (v : BitVec w) (lo n x : Nat) : BitVec w :=
  BitVec.ofNat w (v.toNat - fld v lo n * 2 ^ lo + x % 2 ^ n * 2 ^ lo)

/-- A word whose field of n bits from bit lo is x, the rest 0. -/
def inFld (lo n x : Nat) : Nat := x % 2 ^ n * 2 ^ lo

/-- A 32-bit value from a number. -/
def w32 (n : Nat) : W32 := BitVec.ofNat 32 n

/-- A 64-bit value from a number. -/
def w64 (n : Nat) : W64 := BitVec.ofNat 64 n

/-- 1 for true. -/
def b2n (b : Bool) : Nat := if b then 1 else 0

/-- The n little-endian bytes of a number (R15). -/
def leBytes : Nat → Nat → List Byte
  | 0, _ => []
  | n + 1, x => BitVec.ofNat 8 x :: leBytes n (x / 256)

/-- The number that little-endian bytes spell (R15). -/
def leNat : List Byte → Nat
  | [] => 0
  | b :: t => b.toNat + 256 * leNat t

/-- n bytes of a list from position i, 0 beyond its end. -/
def slice (bs : List Byte) (i n : Nat) : List Byte := (List.range n).map fun j => bs.getD (i + j) 0

/-- The number in n bytes from position i. -/
def leAt (bs : List Byte) (i n : Nat) : Nat := leNat (slice bs i n)

/-- Put bytes at position i of a list. -/
def splice (bs : List Byte) (i : Nat) (new : List Byte) : List Byte :=
  (List.range bs.length).map fun j => if i ≤ j ∧ j < i + new.length then new.getD (j - i) 0 else bs.getD j 0

/-- a rounded up to a multiple of n. -/
def roundUp (a n : Nat) : Nat := (a + n - 1) / n * n

/-- a divided by n, rounded up. -/
def ceilDiv (a n : Nat) : Nat := (a + n - 1) / n

/-- Whether [a, a+m) and [b, b+n) share a point. -/
def overlap (a m b n : Nat) : Bool := decide (a < b + n) && decide (b < a + m) && decide (0 < m) && decide (0 < n)

/-- The tally and count comparison of R176: a has reached b. -/
def reached (a b : W32) : Bool := decide ((a - b).toNat < 2 ^ 31)

/-- Generation a is newer than b (R312). -/
def newer (a b : Byte) : Bool := decide (a ≠ b) && decide ((a - b).toNat < 128)

/-- Cyclic redundancy check of R563 with a reflected polynomial: one byte, least significant bit first. -/
def crcByte (poly : W32) (c : W32) (b : Byte) : W32 :=
  (List.range 8).foldl (fun c _ => if c.getLsbD 0 then (c >>> 1) ^^^ poly else c >>> 1) (c ^^^ b.setWidth 32)

/-- The checks of R563: initial value and final XOR all ones. -/
def crc (poly : W32) (bs : List Byte) : W32 := (bs.foldl (crcByte poly) 0xFFFFFFFF) ^^^ 0xFFFFFFFF

/-- CRC-32, polynomial 0x04C1_1DB7 reflected. -/
def crc32 (bs : List Byte) : W32 := crc 0xEDB88320 bs

/-- CRC-32C, polynomial 0x1EDC_6F41 reflected. -/
def crc32c (bs : List Byte) : W32 := crc 0x82F63B78 bs

/-! Free values and what the hub sends -/

/-- Draw a free value (log entry 6). -/
def draw (s : State) : W64 × State := (Config.freeWord s.fresh, { s with fresh := s.fresh + 1 })

/-- Draw a free bit. -/
def drawBit (s : State) : Bool × State := ((Config.freeWord s.fresh).getLsbD 0, { s with fresh := s.fresh + 1 })

/-- Draw a free number below n (0 where n is 0). -/
def drawBelow (n : Nat) (s : State) : Nat × State := ((Config.freeWord s.fresh).toNat % n, { s with fresh := s.fresh + 1 })

/-- Record something sent out. -/
def emit (e : Emit) (s : State) : State := { s with out := e :: s.out }

/-! Registers (R446) -/

/-- The key of instance i of the register at offset r. -/
def rkey (r i : Nat) : Nat := r * 65536 + i

/-- The stored value of a register. -/
def rget (s : State) (r i : Nat) : W32 := mgetD (regReset r) (rkey r i) s.regs

/-- Set the stored value of a register. -/
def rset (r i : Nat) (v : W32) (s : State) : State := { s with regs := mput (regReset r) (rkey r i) v s.regs }

/-- Set a field of a register. -/
def rsetFld (r i lo n x : Nat) (s : State) : State := rset r i (setFld (rget s r i) lo n x) s

/-- A field of a register. -/
def rfld (s : State) (r i lo n : Nat) : Nat := fld (rget s r i) lo n

/-- A bit of a register. -/
def rbit (s : State) (r i b : Nat) : Bool := (rget s r i).getLsbD b

/-- The live count behind a counter. -/
def cget (s : State) (r i : Nat) : Nat := (mgetD 0 (rkey r i) s.live).toNat

/-- Set the live count of a counter. -/
def cset (r i n : Nat) (s : State) : State := { s with live := mput 0 (rkey r i) (w32 n) s.live }

/-- Add n to a saturating counter (R455). -/
def bumpN (r i n : Nat) (s : State) : State := cset r i (min (cget s r i + n) 0xFFFFFFFF) s

/-- Count one event. -/
def bump (r i : Nat) (s : State) : State := bumpN r i 1 s

/-! Status codes (Table 4-4) -/

/-- The code of a status. -/
def Status.code : Status → Nat
  | .ok => 0 | .short => 1 | .widened => 2 | .poison => 0x10 | .decode => 0x11 | .staleEpoch => 0x12
  | .ownership => 0x13 | .timeout => 0x14 | .quota => 0x15 | .fault => 0x16 | .codec => 0x17 | .audit => 0x18
  | .parity => 0x19 | .reset => 0x1A

/-- The rank of a status: 1 is the highest. -/
def Status.rank : Status → Nat
  | .reset => 1 | .parity => 2 | .fault => 3 | .decode => 4 | .ownership => 5 | .staleEpoch => 6 | .quota => 7
  | .timeout => 8 | .poison => 9 | .codec => 10 | .audit => 11 | .short => 12 | .widened => 13 | .ok => 14

/-- The status of a code; a code no table gives acts as DECODE. -/
def Status.ofCode (n : Nat) : Status :=
  match [Status.ok, .short, .widened, .poison, .decode, .staleEpoch, .ownership, .timeout, .quota, .fault, .codec,
    .audit, .parity, .reset].find? fun t => t.code == n with
  | some t => t
  | none => .decode

/-- The higher-ranked of two statuses (R172). -/
def Status.worse (a b : Status) : Status := if a.rank ≤ b.rank then a else b

/-- The highest-ranked status of a list, OK where empty (R172). -/
def worstOf (l : List Status) : Status := l.foldl Status.worse .ok

/-! The hub's own facts -/

/-- The hub answers while PWROK is high and no thermal trip holds its clocks (R510, R558). -/
def alive (s : State) : Bool := s.boot.pwrok && s.boot.railsGood && !s.boot.tripped

/-- STAGE of BOOT_STATUS (Table 15-7). -/
def stage (s : State) : Nat := rfld s Reg.bootStatus 0 0 4

/-- A fatal condition stands and the hub has not been recovered from it (R474): DIR_LOST and CS_PARITY by a recovery reload (R475), SECURITY by a
hub reset (R523). FATAL_STATUS keeps its bits longer. -/
def fatal (s : State) : Bool :=
  (rbit s Reg.fatalStatus 0 2 && !s.boot.secReset) || (decide (rfld s Reg.fatalStatus 0 0 2 ≠ 0) && !s.boot.recovered)

/-- This hub's endpoint number (Table 10-12). -/
def selfEp (s : State) : Nat := rfld s Reg.fabId 0 0 18

/-- PARTS (R426). -/
def parts (s : State) : Nat := rfld s Reg.partCfg 0 0 9

/-- STATE of a partition (Table 12-9): partition 0 is never FREE (R426). -/
def partState (s : State) (p : Nat) : Nat :=
  let st := rfld s Reg.partStatus p 0 2
  if p = 0 ∧ st = 0 then 1 else st

/-- A reset of the partition runs (R429, R439). -/
def partBusy (s : State) (p : Nat) : Bool := decide (partState s p = 2 ∨ partState s p = 3)

/-- A partition whose intake is stopped: its reset is at step 1 or later (Table 12-4), the fatal response runs (R474), or the hub reloads (R521). -/
def intakeStopped (s : State) (part : Nat) : Bool := fatal s || decide (stage s = 8) || partBusy s part

/-- The fabric key of a partition (Table 10-15). -/
def fkey (s : State) (p : Nat) : BitVec 16 := BitVec.ofNat 16 (rfld s Reg.fabFkey p 0 16)

/-- The lowest-numbered partition that holds a key; 0 where none does (R25). -/
def keyPart (s : State) (key : BitVec 16) : Nat := (firstBelow (fun p => fkey s p == key) (parts s)).getD 0

/-- Partition that owns a tally, if it is assigned (R302). -/
def tallyPart (s : State) (t : Nat) : Option Nat :=
  let v := rget s Reg.tallyAssign t
  if bit v 31 then some (fld v 0 8) else none

/-- Partition that owns an ASID, if it is assigned (R403). -/
def asidPart (s : State) (a : Nat) : Option Nat :=
  let v := rget s Reg.asidCfg a
  if bit v 31 then some (fld v 0 8) else none

/-- Partition of a DMA engine, if it is assigned (R419). -/
def dmaPart (s : State) (e : Nat) : Option Nat :=
  let v := rget s Reg.dmaAssign e
  if bit v 31 then some (fld v 0 8) else none

/-- Whether a fabric port exists (R11, R352, R457). -/
def portExists (s : State) (p : Nat) : Bool :=
  let n := if s.boot.variantE then 16 else 32
  decide (p < n) || (decide (32 ≤ p) && decide (p < 32 + n) &&
    match s.boot.image with | some im => bit im.portSplit (p - 32) | none => false)

/-! Functions and paths (Table 13-1) -/

/-- The number of the function by which a path reaches the per-function registers: 260 copies (R445). -/
def pathCode : Path → Nat
  | .pf p => p.val
  | .vf p n => 2 + 128 * p.val + n.val
  | .mgmt => 258
  | .akist => 259

/-- FN_IDX of a PCIe function (Table 12-7): port × 256 + FN. -/
def fnIdx : Path → Nat
  | .pf p => p.val * 256
  | .vf p n => p.val * 256 + n.val + 1
  | _ => 0

def isVf : Path → Bool
  | .vf _ _ => true
  | _ => false

/-- TotalVFs of a port (Table 15-8). -/
def totalVfs (s : State) (port : Nat) : Nat :=
  match s.boot.image with | some im => im.totalVfs.getD port 0 | none => 0

/-- Whether FN_IDX names a function (R430). -/
def fnExists (s : State) (i : Nat) : Bool := i % 256 == 0 || decide (i % 256 ≤ totalVfs s (i / 256))

/-- A reel that the image turns off (R518). -/
def reelOff (s : State) (r : Nat) : Bool := match s.boot.image with | some im => bit im.reelOff r | none => false

/-- The partition to which function FN_IDX is bound (R430): a PF always, a VF while FN_MAP.VALID. -/
def fnPart (s : State) (i : Nat) : Option Nat :=
  let v := rget s Reg.fnMap i
  if i % 256 == 0 then some (fld v 0 8) else if fnExists s i && bit v 31 then some (fld v 0 8) else none

/-- The partition of a path; the management paths act as partition 0 (Table 13-16). -/
def pathPart (s : State) : Path → Option Nat
  | .pf p => fnPart s (p.val * 256)
  | .vf p n => fnPart s (p.val * 256 + n.val + 1)
  | _ => some 0

/-- The valid proxy entry of the current sheet for a VF (R385, R397). -/
def proxyOf (s : State) (port vf : Nat) : Option (List W32) :=
  (s.fab.current.proxies.find? fun e =>
    bit (e.2.getD 0 0) 0 && fld (e.2.getD 0 0) 1 1 == port && fld (e.2.getD 0 0) 2 7 == vf).map (·.2)

/-- Whether a path is a proxy function (R397). -/
def isProxy (s : State) : Path → Bool
  | .vf p n => (proxyOf s p.val n.val).isSome
  | _ => false

/-- A reset of the path's function runs (R443): memory requests are answered Unsupported Request. -/
def fnResetting (s : State) (path : Path) : Bool :=
  match path with
  | .mgmt => false
  | .akist => false
  | p => match mget (fnIdx p) s.host.fns with | some f => f.resetting | none => false

/-- The instances of the register at offset r that hold other than its reset value. -/
def regInsts (s : State) (r : Nat) : List Nat := (s.regs.filter fun e => e.1 / 65536 == r).map fun e => e.1 % 65536

/-! Parity (R463 to R468) -/

/-- A register stored with bad parity. -/
def parityBad (s : State) (r i : Nat) : Bool := mhas (rkey r i) s.mgmt.badParity

/-- Whether a unit is stopped for an instance or a partition: a stop without an instance stops the whole unit (R465). -/
def unitStopped (s : State) (u : Nat) (inst : Option Nat) : Bool :=
  s.mgmt.stopped.any fun e => e.1 == u && (e.2 == none || (e.2 == inst && inst != none))

/-- Instance number of a repeated set's instance i, apart from partition numbers: reels, engines, lanes, ports, dollies, scouts, tallies. -/
def setInst (i : Nat) : Nat := 1000 + i

/-- A write stores fresh parity with instance i of a register of unit u; an armed PARITY_INJECT inverts it (R463, R468). -/
def storeParity (r i u : Nat) (s : State) : State :=
  let inj := rget s Reg.parityInject 0
  let unit := fld inj 0 5
  let hit := bit inj 8 && unit == u && unit != 9 && unit < 15
  let disarm := bit inj 8 && (hit || unit == 9 || decide (15 ≤ unit))
  let s := { s with mgmt := { s.mgmt with badParity := if hit then mset (rkey r i) () s.mgmt.badParity else mdel (rkey r i) s.mgmt.badParity } }
  if disarm then rset Reg.parityInject 0 (inj &&& 0xFFFFFEFF) s else s

/-- Store a configuration register's written bits. -/
def cfgStore (r i : Nat) (v : W32) (s : State) : State :=
  match regRow r with
  | none => s
  | some row => rset r i ((rget s r i &&& ~~~row.rw) ||| (v &&& row.rw)) (storeParity r i row.unit s)

/-! Reaching a register -/

/-- Where an access of a path arrives. -/
inductive RegTo where
  | ur                 -- Unsupported Request: an unbound or proxy VF (R450), a function in reset (R443)
  | bad                -- the select register's parity is bad (R464)
  | nothing            -- reads 0, ignores writes (R447, R450, R457)
  | at (inst : Nat)
  deriving DecidableEq, Repr

/-- The instance a select register chooses (R457). -/
def selectVia (s : State) (path : Path) (sr : Nat) (ok : Nat → Bool) : RegTo :=
  if parityBad s sr (pathCode path) then .bad
  else
    let i := rfld s sr (pathCode path) 0 16
    if ok i then .at i else .nothing

/-- Registers of the common block a VF sees (Table 13-3). -/
def vfCommon (off : Nat) : Bool :=
  [Reg.hubMagic, Reg.hubId, Reg.hubFeature, Reg.fnSelf, Reg.slowEdges, Reg.partSel, Reg.dmaSel].contains off

/-- In RECOVERY the BAR0 of a PF shows only the boot block (R512), and LOCKKEY, without which no command of it runs (log entry 58). -/
def hiddenInRecovery (s : State) (path : Path) (off : Nat) : Bool :=
  match path with
  | .pf _ => decide (stage s = 9) && off / 0x10000 != 14 && off != Reg.lockkey
  | _ => false

/-- The instance that an access of a path to a PF BAR0 offset reaches (R445, R449, R450, R456, R457). -/
def regTarget (s : State) (path : Path) (off : Nat) : RegTo :=
  if fnResetting s path then .ur else if hiddenInRecovery s path off then .nothing else
  match path with
  | .vf _ _ =>
    match pathPart s path with
    | none => .ur
    | some p =>
      if isProxy s path then .ur else
      match regRow off with
      | none => .nothing
      | some row =>
        match row.sel with
        | .part => .at p
        | .dma => selectVia s path Reg.dmaSel fun e => decide (e < 32) && dmaPart s e == some p
        | .fn => if vfCommon off then .at (pathCode path) else .nothing
        | _ => if vfCommon off then .at 0 else .nothing
  | _ =>
    match regRow off with
    | none => .nothing
    | some row =>
      match row.sel with
      | .none => .at 0
      | .fn => .at (pathCode path)
      | .part => selectVia s path Reg.partSel fun i => decide (i < parts s)
      | .port => selectVia s path Reg.portSel fun i => portExists s i
      | .flc => selectVia s path Reg.flcSel fun i => decide (i < 32)
      | .dma => selectVia s path Reg.dmaSel fun i => decide (i < 32)
      | .reel => selectVia s path Reg.reelSel fun i => decide (i < 64)
      | .tally => selectVia s path Reg.tallySel fun _ => true
      | .codec => selectVia s path Reg.codecSel fun i => decide (i < 32)
      | .dolly => selectVia s path Reg.dollySel fun i => decide (i < 16)

/-- Whether the writing function is unlocked (R459). -/
def unlocked (s : State) (path : Path) : Bool := s.mgmt.unlocked.contains (pathCode path)

/-- A write access uses up the function's unlock, whatever it reaches (R459). -/
def useUnlock (path : Path) (s : State) : State :=
  { s with mgmt := { s.mgmt with unlocked := s.mgmt.unlocked.filter (· ≠ pathCode path) } }

/-- The PF BAR0 offset of what an access at offset `off` reaches on its path (R449, R450, Table 13-3); an offset of a VF BAR0 window that
holds nothing stands for an offset that no table assigns. -/
def pfOffset (path : Path) (off : Nat) : Nat :=
  if !isVf path then off
  else if off < 0x10000 then off
  else if 0x10000 ≤ off ∧ off < 0x12000 then off - 0x10000 + 0x100000
  else if 0x20000 ≤ off ∧ off < 0x30000 then off - 0x20000 + 0xB0000
  else off % 8 + 0x3FFFFF8

/-- A register write that a path has let through: the unlock is used up, and where the access reaches an instance the effect f runs,
given the instance and whether the function was unlocked. A VF's write to a register it may not write is ignored. -/
def regWriteNow (path : Path) (off : Nat) (f : Nat → Bool → State → State) (s : State) : State :=
  if alive s then
    let was := unlocked s path
    let s := useUnlock path s
    match regTarget s path off with
    | .ur => s
    | .bad => bump Reg.regBadAccess 0 s
    | .nothing => s
    | .at i =>
      if isVf path && (match regRow off with | some row => row.vfIgn || off == Reg.partSel | none => true) then s
      else f i was s
  else s

/-- The PCIe port of a path. -/
def pathPort : Path → Nat
  | .pf p => p.val
  | .vf p _ => p.val
  | _ => 0

/-- A path of a PCIe port. -/
def onPort (hp : Nat) : Path → Bool
  | .pf p => p.val == hp
  | .vf p _ => p.val == hp
  | _ => false

/-- A posted write of a host access. -/
def opPosted : HostOp → Bool
  | .write _ => true
  | _ => false

/-- A held access that is a posted write of a port. -/
def HeldAccess.posted (hp : Nat) : HeldAccess → Bool
  | .bar2 path _ op => onPort hp path && opPosted op
  | _ => false

/-- A posted write of a port has not been performed yet (R295): on its way to its home, waiting there, or waiting to be sent. -/
def postedPending (s : State) (hp : Nat) : Bool :=
  s.fab.reqs.any (fun r => match r.owner with | .bar2 path w => onPort hp path && w | .proxy path w => onPort hp path && w | _ => false)
    || s.coh.waiting.any (fun w => match w.req with | .bar2 path _ op => onPort hp path && opPosted op | _ => false)
    || s.store.moves.any (fun m => m.2.held.any (HeldAccess.posted hp))
    || (match s.rel.snap with | some sn => sn.waiting.any (HeldAccess.posted hp) | none => false)
    || (match s.fab.commit with | some c => c.held.any (fun h => match h with | .bar2 path _ op => onPort hp path && opPosted op | _ => false) | none => false)
    || s.host.fns.any (fun f => f.1 / 256 == hp && f.2.proxyQ.any (fun q => opPosted q.2))

/-- What a port's next register write or answer must wait for: a posted write, or an earlier one of its own kind that waits. -/
def portBlocked (s : State) (path : Path) : Bool :=
  match path with
  | .mgmt => false
  | .akist => false
  | p => postedPending s (pathPort p) || s.host.portQ.any fun w => match w with | .write q _ _ => onPort (pathPort p) q | .answer hp _ => hp == pathPort p

/-- Answer a non-posted request of a host: after every posted write that came before it (R295). -/
def hostEmit (path : Path) (e : Emit) (s : State) : State :=
  if portBlocked s path then { s with host := { s.host with portQ := s.host.portQ ++ [.answer (pathPort path) e] } } else emit e s

/-- A write of v to a register on a path: a PCIe port takes it only after every earlier posted write of the port has been performed (R295). -/
def regWriteVia (path : Path) (off : Nat) (v : W32) (f : Nat → Bool → State → State) (s : State) : State :=
  if alive s && portBlocked s path then { s with host := { s.host with portQ := s.host.portQ ++ [.write path off v] } }
  else regWriteNow path off f s

/-- A command register's operation field. -/
def cmdOp (v : W32) : Nat := fld v 0 3

/-- BUSY of a command register (bit 4). -/
def cmdBusy (s : State) (r i : Nat) : Bool := rbit s r i 4

/-- Set BUSY of a command register. -/
def setBusy (r i : Nat) (b : Bool) (s : State) : State := rsetFld r i 4 1 (b2n b) s

/-- Set STATUS of a command register and clear BUSY. -/
def cmdEnd (r i : Nat) (st : Status) (s : State) : State := setBusy r i false (rsetFld r i 8 8 st.code s)

/-- A command that ran on ends, unless a stop or a newer command has taken its register meanwhile. -/
def cmdFinish (r i : Nat) (mine : Bool) (s : State) : State := if cmdBusy s r i && mine then cmdEnd r i .ok s else s

/-- A command written to instance i of a command register of unit u (R39, R40): ignored while BUSY or where the value does not name
operation op. A command of a partition set whose intake is stopped completes with RESET (R429), one of a stopped unit with PARITY (R465). -/
def issueAt (r op u : Nat) (v : W32) (f : Nat → State → State) (i : Nat) (s : State) : State :=
  if cmdBusy s r i || cmdOp v != op then s
  else
    let inSet := decide (0x100000 ≤ r)
    let s := cfgStore r i v s
    if inSet && intakeStopped s i then cmdEnd r i .reset s
    else if unitStopped s u (if inSet then some i else none) then cmdEnd r i .parity s
    else f i s

/-- Free capacity, quota and occupancy count pages of 2 MiB (R29). -/
def pageSize : Nat := 0x200000

end Sys2Proof.Machine
end

