-- ==== Sys2Proof/Machine/Codec.lean ====
section
/-! DEFINITION. The anamorphic codec on one 4 KiB block (chapter 7): the ZR, EX and BP streams, their encoders and the
decoder with the outcomes of Table 7-3. -/

namespace Sys2Proof.Machine

open Sys2Proof

def blockSize : Nat := 4096

/-- Metadata of a raw block (R269): LEN 15, EXT 0. -/
def rawMeta : Byte := 0x0F

/-- Codec numbers of Table 7-2. -/
def cZR : Nat := 0
def cEX : Nat := 1
def cBP : Nat := 2

/-- Stream header (Table 7-2). -/
def streamHeader (clen gen slot fmt codec : Nat) : List Byte :=
  leBytes 4 (inFld 17 13 clen + inFld 9 8 gen + inFld 6 3 slot + inFld 2 4 fmt + codec)

/-- Header, body with its end marker, tag byte (R271); none above 3,840 bytes (R270). -/
def sealStream (gen slot fmt codec : Nat) (body : List Byte) : Option (List Byte) :=
  let clen := 4 + body.length + 1
  if clen ≤ 3840 then some (streamHeader clen gen slot fmt codec ++ body ++ [BitVec.ofNat 8 (ceilDiv clen 256 - 1)]) else none

/-- Split into chunks of n bytes. -/
def chunks (n : Nat) (bs : List Byte) : List (List Byte) :=
  (List.range (bs.length / n)).map fun i => (bs.drop (i * n)).take n

/-! Bits -/

/-- Bytes from bits, bit 0 of each byte first, padded with 0 (R273). -/
def packBits : List Bool → List Byte
  | a :: b :: c :: d :: e :: f :: g :: h :: t =>
    BitVec.ofNat 8 (b2n a + 2 * b2n b + 4 * b2n c + 8 * b2n d + 16 * b2n e + 32 * b2n f + 64 * b2n g + 128 * b2n h) :: packBits t
  | [] => []
  | l => [BitVec.ofNat 8 ((l.zipIdx.map fun e => b2n e.1 * 2 ^ e.2).sum)]

/-- The bits of bytes, bit 0 of each byte first. -/
def unpackBits (bs : List Byte) : List Bool := bs.flatMap fun b => (List.range 8).map fun i => b.getLsbD i

/-- The n low bits of x, most significant first. -/
def msbBits (n x : Nat) : List Bool := (List.range n).map fun i => x.testBit (n - 1 - i)

/-- The number that bits spell, most significant first. -/
def ofMsb (l : List Bool) : Nat := l.foldl (fun a b => 2 * a + b2n b) 0

/-! ZR (R272) -/

/-- Token bytes of 8-byte words in maximal runs. -/
def zrTokens : Nat → List (List Byte) → List Byte
  | 0, _ => []
  | _, [] => []
  | f + 1, ws =>
    let zero := fun w : List Byte => w.all (· == 0)
    let z := (ws.takeWhile zero).length
    if z > 0 then BitVec.ofNat 8 (min z 128 - 1) :: zrTokens f (ws.drop (min z 128))
    else
      let l := min (ws.takeWhile fun w => !zero w).length 127
      BitVec.ofNat 8 (0x7F + l) :: (ws.take l).flatten ++ zrTokens f (ws.drop l)

/-- The ZR stream of a block. -/
def zrEncode (bs : List Byte) : Option (List Byte) := sealStream 0 0 0 cZR (zrTokens 513 (chunks 8 bs) ++ [0xFF])

/-- Decode ZR tokens: the words and the bytes consumed, through the end marker. -/
def zrDecode : Nat → List Byte → Option (List Byte × Nat)
  | 0, _ => none
  | _, [] => none
  | f + 1, t :: rest =>
    let n := t.toNat
    if n = 0xFF then some ([], 1)
    else if n < 0x80 then (zrDecode f rest).map fun r => (List.replicate (8 * (n + 1)) 0 ++ r.1, r.2 + 1)
    else
      let k := 8 * (n - 0x7F)
      if rest.length < k then none
      else (zrDecode f (rest.drop k)).map fun r => (rest.take k ++ r.1, r.2 + 1 + k)

/-! EX (R273, R287) -/

/-- Bytes per element, exponent bits and mantissa bits of FP32, BF16 and FP16. -/
def fpShape (fmt : Nat) : Nat × Nat × Nat := if fmt = 0 then (4, 8, 23) else if fmt = 1 then (2, 8, 7) else (2, 5, 10)

/-- Canonical code of a symbol: ordered by length, then by value, each the next code of its length (R287). -/
def codeOf (lens : List Nat) (sym : Nat) : Option (List Bool) :=
  let l := lens.getD sym 0
  if l = 0 then none
  else
    let first := (List.range l).foldl (fun c k => 2 * (c + if k = 0 then 0 else lens.count k)) 0
    some (msbBits l (first + (lens.take sym).count l))

/-- The symbol whose code begins the bits, with the rest. -/
def readSym (codes : List (Nat × List Bool)) (bits : List Bool) : Option (Nat × List Bool) :=
  (codes.find? fun c => c.2.isPrefixOf bits).map fun c => (c.1, bits.drop c.2.length)

/-- All symbols with a code. -/
def codeTable (lens : List Nat) : List (Nat × List Bool) := (List.range 257).filterMap fun i => (codeOf lens i).map fun c => (i, c)

/-- EX bits of one element: the code of its exponent, its sign, its mantissa. -/
def exElement (lens : List Nat) (fmt x : Nat) : Option (List Bool) :=
  let (w, e, m) := fpShape fmt
  (codeOf lens (x / 2 ^ m % 2 ^ e)).map fun c => c ++ (x.testBit (8 * w - 1) :: msbBits m x)

/-- The EX stream of a block; none where a symbol has no code. -/
def exEncode (lens : List Nat) (gen slot fmt : Nat) (bs : List Byte) : Option (List Byte) :=
  let w := (fpShape fmt).1
  let els := (chunks w bs).map fun c => exElement lens fmt (leNat c)
  match codeOf lens 256 with
  | none => none
  | some fin => if els.all Option.isSome then sealStream gen slot fmt cEX (packBits ((els.flatMap fun e => e.getD []) ++ fin)) else none

/-- Decode EX elements until the end marker; the bits left over. -/
def exDecode (codes : List (Nat × List Bool)) (fmt : Nat) : Nat → List Bool → Option (List Byte × List Bool)
  | 0, _ => none
  | f + 1, bits =>
    match readSym codes bits with
    | none => none
    | some (sym, rest) =>
      if sym = 256 then some ([], rest)
      else
        let (w, _, m) := fpShape fmt
        if rest.length < m + 1 then none
        else
          let x := b2n (rest.getD 0 false) * 2 ^ (8 * w - 1) + sym * 2 ^ m + ofMsb ((rest.drop 1).take m)
          (exDecode codes fmt f (rest.drop (m + 1))).map fun r => (leBytes w x ++ r.1, r.2)

/-! BP (R274) -/

/-- Planes of a group of 64 differences, from the highest. -/
def bpPlanes (w : Nat) (ds : List Nat) : List Bool :=
  (List.range w).flatMap fun i =>
    let plane := ds.map fun d => d.testBit (w - 1 - i)
    if plane.any id then true :: plane else [false]

/-- Each element XOR the one before it. -/
def xorDiff : Nat → List Nat → List Nat
  | _, [] => []
  | prev, x :: t => (x ^^^ prev) :: xorDiff x t

/-- Undo xorDiff. -/
def xorSum : Nat → List Nat → List Nat
  | _, [] => []
  | prev, d :: t => (d ^^^ prev) :: xorSum (d ^^^ prev) t

/-- Groups of 64. -/
def groups64 (l : List Nat) : List (List Nat) := (List.range (l.length / 64)).map fun i => (l.drop (64 * i)).take 64

/-- The BP stream of a block of FP32 or BF16. -/
def bpEncode (fmt : Nat) (bs : List Byte) : Option (List Byte) :=
  let w := (fpShape fmt).1
  let ds := xorDiff 0 ((chunks w bs).map leNat)
  sealStream 0 0 fmt cBP (packBits ((groups64 ds).flatMap (bpPlanes (8 * w))) ++ [0xB5])

/-- Read the planes of one group. -/
def bpReadPlanes : Nat → List Bool → Option (List (List Bool) × List Bool)
  | 0, bits => some ([], bits)
  | n + 1, bits =>
    match bits with
    | [] => none
    | false :: rest => (bpReadPlanes n rest).map fun r => (List.replicate 64 false :: r.1, r.2)
    | true :: rest =>
      if rest.length < 64 then none else (bpReadPlanes n (rest.drop 64)).map fun r => (rest.take 64 :: r.1, r.2)

/-- Elements of a group from its planes. -/
def bpElements (planes : List (List Bool)) : List Nat :=
  (List.range 64).map fun i => planes.foldl (fun a p => 2 * a + b2n (p.getD i false)) 0

/-- Decode g groups of width w bits. -/
def bpDecode (w : Nat) : Nat → List Bool → Option (List Nat × List Bool)
  | 0, bits => some ([], bits)
  | g + 1, bits =>
    match bpReadPlanes w bits with
    | none => none
    | some (ps, rest) => (bpDecode w g rest).map fun r => (bpElements ps ++ r.1, r.2)

/-! Decoding a stored block (R275, Table 7-3) -/

/-- A decode-table slot before any LOAD (R286). -/
def CtSlot.empty : CtSlot := { valid := false, fmt := 0, gen := 0, lens := [] }

/-- Stored units of a block from its metadata: the tag T (R268). -/
def blockTag (m : Byte) : Nat := m.toNat % 16 + 1

/-- A block is compressed when its tag is below 16 (R268). -/
def blockCoded (m : Byte) : Bool := decide (blockTag m < 16)

/-- Decode the stored bytes of a compressed block under its metadata; none stands for CODEC (Table 7-3). -/
def decodeBlock (slots : Nat → CtSlot) (m : Byte) (stored : List Byte) : Option (List Byte) :=
  let h := leAt stored 0 4
  let codec := h % 4
  let fmt := h / 4 % 16
  let slot := h / 64 % 8
  let gen := h / 512 % 256
  let clen := h / 2 ^ 17 % 2 ^ 13
  let t := blockTag m
  let body := (stored.take clen).drop 4
  let tagOk := fun i : Nat => decide (i < body.length) && (body.getD i 0).toNat == t - 1
  if codec = 3 ∨ 2 ^ 30 ≤ h ∨ clen < 10 ∨ 3840 < clen ∨ t * 256 < clen then none
  else if codec = cZR then
    match zrDecode 1025 body with
    | some (out, n) => if tagOk n ∧ out.length = blockSize then some out else none
    | none => none
  else if codec = cEX then
    let sl := slots slot
    if !sl.valid || sl.gen != gen || sl.fmt != fmt || !m.getLsbD 7 || m.toNat / 16 % 8 != slot then none
    else
      let bits := unpackBits body
      match exDecode (codeTable sl.lens) fmt 2049 bits with
      | some (out, rest) =>
        if tagOk (ceilDiv (bits.length - rest.length) 8) ∧ out.length = blockSize then some out else none
      | none => none
  else if 1 < fmt then none
  else
    let w := (fpShape fmt).1
    let bits := unpackBits body
    match bpDecode (8 * w) (blockSize / w / 64) bits with
    | some (ds, rest) =>
      let n := ceilDiv (bits.length - rest.length) 8
      if body.getD n 0 = 0xB5 ∧ n < body.length ∧ tagOk (n + 1) then some ((xorSum 0 ds).flatMap (leBytes w)) else none
    | none => none

/-- The metadata byte of a stream (R267). -/
def streamMeta (stream : List Byte) : Byte :=
  let h := leAt stream 0 4
  let t := ceilDiv stream.length 256
  if h % 4 = cEX then BitVec.ofNat 8 (128 + 16 * (h / 64 % 8) + (t - 1)) else BitVec.ofNat 8 (t - 1)

/-- The shorter of two streams, the first on a tie (R284). -/
def shorter (a b : Option (List Byte)) : Option (List Byte) :=
  match a, b with
  | some x, some y => if x.length ≤ y.length then some x else some y
  | some x, none => some x
  | none, b => b

/-- Encode a block with the chosen codec (0 AUTO, 1 ZR, 2 EX, 3 BP), format and slot (R283, R284). -/
def encodeBlock (slots : Nat → CtSlot) (choice slot fmt : Nat) (bs : List Byte) : Option (List Byte) :=
  let sl := slots slot
  let ex := if sl.valid && sl.fmt == fmt && decide (fmt ≤ 2) then exEncode sl.lens sl.gen slot fmt bs else none
  let bp := if fmt ≤ 1 then bpEncode fmt bs else none
  match choice with
  | 0 => shorter (zrEncode bs) (shorter bp ex)
  | 1 => zrEncode bs
  | 2 => ex
  | _ => bp

end Sys2Proof.Machine
end

