-- ==== Sys2Proof/Machine/Arb.lean ====
section
/-! DEFINITION. The weighted arbiters of Table 12-2 (R431 to R433). -/

namespace Sys2Proof.Machine

open Sys2Proof

/-- An arbiter at which nobody has waited. -/
def Arb.idle : Arb := { credits := [], last := 0, turn := [] }

/-- Arbiters by number: a reel's sequencer as it starts descriptors and as it fetches them, a dolly's issue, a class of a port's egress among partitions, a port's egress among its weighted classes. -/
def reelArb (r : Nat) : Nat := r
def dollyArb (u : Nat) : Nat := 64 + u
def fetchArb (r : Nat) : Nat := 2048 + 16 * r
def portArb (port c : Nat) : Nat := 128 + port * 16 + c
def classArb (port : Nat) : Nat := portArb port 15

def arbOf (s : State) (k : Nat) : Arb := mgetD Arb.idle k s.mgmt.arbs

def arbSet (k : Nat) (a : Arb) (s : State) : State := { s with mgmt := { s.mgmt with arbs := mset k a s.mgmt.arbs } }

/-- The credit a partition holds. -/
def Arb.credit (a : Arb) (p : Nat) : Int := mgetD 0 p a.credits

/-- Credit of a partition that waits no longer is discarded. -/
def Arb.keep (waiting : List Nat) (a : Arb) : Arb := { a with credits := a.credits.filter fun c => waiting.contains c.1 }

/-- Refills after which a partition has credit; one that has some needs none. -/
def Arb.short (w : Nat → Nat) (a : Arb) (p : Nat) : Nat := if 0 < a.credit p then 0 else (-a.credit p).toNat / (16 * w p) + 1

/-- Refill until a partition that waits has credit: each time, every one of them receives weight × 16. -/
def Arb.fill (w : Nat → Nat) (waiting : List Nat) (a : Arb) : Arb :=
  let n := match waiting with | [] => 0 | p :: t => (t.map (a.short w)).foldl min (a.short w p)
  waiting.foldl (fun a p => { a with credits := mset p (a.credit p + Int.ofNat (n * 16 * w p)) a.credits }) a

/-- The next in rotation after the one served last. -/
def nextOf (last : Nat) (ps : List Nat) : Option Nat :=
  match sortBy (fun a b => decide (a ≤ b)) (ps.filter fun p => decide (last < p)) with
  | p :: _ => some p
  | [] => (sortBy (fun a b => decide (a ≤ b)) ps).head?

/-- Whom an arbiter serves next (R432): in rotation, one that has credit, after a refill where none has. A partition of weight 0 is served only where no
other waits (R433). -/
def Arb.pick (w : Nat → Nat) (waiting : List Nat) (a : Arb) : Option Nat × Arb :=
  let a := a.keep waiting
  let weighted := waiting.filter fun p => decide (0 < w p) || decide (0 < a.credit p)
  if weighted.isEmpty then (nextOf a.last waiting, a)
  else
    let a := a.fill w weighted
    (nextOf a.last (weighted.filter fun p => decide (0 < a.credit p)), a)

/-- Which of some candidates, each a partition and a number, is next: the arbiter's choice of partition, then in rotation among those of that partition. -/
def Arb.pickOf (w : Nat → Nat) (cs : List (Nat × Nat)) (a : Arb) : Option (Nat × Nat) × Arb :=
  match a.pick w (cs.map (·.1)).dedup with
  | (some p, a) =>
    let qs := (cs.filter fun c => c.1 == p).map (·.2)
    (((match mget p a.turn with | some t => nextOf t qs | none => qs.foldl (fun m x => some (match m with | some y => min x y | none => x)) none)).map fun x => (p, x), a)
  | (none, a) => (none, a)

/-- One number of a partition has had its turn. -/
def Arb.took (p x : Nat) (a : Arb) : Arb := { a with turn := mset p x a.turn }

/-- The units of a service are charged to the one served. -/
def Arb.charge (p n : Nat) (a : Arb) : Arb := { a with credits := mset p (a.credit p - Int.ofNat n) a.credits, last := p }

/-- Weight of a weighted class at egress (PORT_TC_WEIGHT, 0 acting as 1). -/
def classWeight (s : State) (c : Nat) : Nat := max 1 (rfld s Reg.portTcWeight 0 (match c with | 2 => 4 | 5 => 8 | 6 => 12 | _ => 0) 4)

/-- REEL and FAB weights of a partition (PART_QOS). A key of no partition weighs nothing (DESIGN CHOICE, log entry 97). -/
def reelWeight (s : State) (p : Nat) : Nat := rfld s Reg.partQos p 16 8
def fabWeight (s : State) (p : Nat) : Nat := if p < 256 then rfld s Reg.partQos p 24 8 else 0

/-- Step 6 of a partition's reset: its credit at every arbiter is discarded (Table 12-4). The arbiters of the weighted classes hold no partition's credit. -/
def dropCredit (p : Nat) (s : State) : State :=
  { s with mgmt := { s.mgmt with arbs := s.mgmt.arbs.map fun e => if 128 ≤ e.1 ∧ e.1 % 16 = 15 then e else (e.1, { e.2 with credits := mdel p e.2.credits }) } }

end Sys2Proof.Machine
end

