-- ==== Sys2Proof/Machine/Net.lean ====
section
/-! DEFINITION. The fabric side of the hub: building packets, routes and ports, tags and outstanding requests, the partner
table, and the resolution of a fabric address by the call sheet (chapter 10). -/

namespace Sys2Proof.Machine

open Sys2Proof

/-! Transaction types (Table 10-5) -/

def tRD : Nat := 0x01
def tWR : Nat := 0x02
def tATOMIC : Nat := 0x03
def tCUE : Nat := 0x04
def tTALLY : Nat := 0x05
def tDOORBELL : Nat := 0x06
def tOWN : Nat := 0x07
def tEVENT : Nat := 0x08
def tHANDOFF : Nat := 0x09
def tRSP : Nat := 0x10
def tACK : Nat := 0x11
def tRETRY : Nat := 0x12
def tLEND : Nat := 0x30
def tNOTICE : Nat := 0x31
def tRELEASE : Nat := 0x32
def tLOST : Nat := 0x33
def tWALK : Nat := 0x34
def tMGMTRD : Nat := 0x38
def tMGMTWR : Nat := 0x39

/-- The class of a type (Table 10-5); none for an unknown type. -/
def typeClass (t : Nat) : Option Nat :=
  if t = 1 ∨ t = 2 ∨ t = 3 then some 0
  else if 4 ≤ t ∧ t ≤ 9 then some 5
  else if 0x10 ≤ t ∧ t ≤ 0x12 then some 1
  else if 0x20 ≤ t ∧ t ≤ 0x25 then some 2
  else if 0x28 ≤ t ∧ t ≤ 0x2A then some 3
  else if 0x2C ≤ t ∧ t ≤ 0x2F then some 4
  else if (0x30 ≤ t ∧ t ≤ 0x34) ∨ t = 0x38 ∨ t = 0x39 then some 7
  else none

/-- A packet of this hub (Table 10-4): SRC is its endpoint, no hop taken. -/
def mkPacket (s : State) (type dst : Nat) (addr arg : W64) (payload : List Byte) : Packet :=
  { type := BitVec.ofNat 8 type, tc := BitVec.ofNat 3 ((typeClass type).getD 0), zip := false, e2e := false,
    tallyEn := false, tallyUnit := false, loan := false, epoch := 0, dst := BitVec.ofNat 18 dst, pmask := false,
    src := BitVec.ofNat 18 (selfEp s), tid := 0, key := 0, hops := 0, addr := addr, arg := arg,
    len := BitVec.ofNat 13 payload.length, payload := payload,
    pois := 0, crc := 0 }

/-- The answer to a packet: to its SRC with its TID (R331, R361). -/
def answer (s : State) (q : Packet) (type : Nat) (addr arg : W64) (payload : List Byte) : Packet :=
  { mkPacket s type q.src.toNat addr arg payload with tid := q.tid }

/-- RSP with a status, a VALUE and data with its POISON mask (Table 10-5). -/
def rspTo (s : State) (q : Packet) (st : Status) (value : Nat) (mask : W64) (data : List Byte) : Packet :=
  answer s q tRSP mask (w64 (st.code + value % 65536 * 65536)) data

/-- ACK with a status and a POISON mask. -/
def ackTo (s : State) (q : Packet) (st : Status) (mask : W64) : Packet :=
  answer s q tACK mask (w64 st.code) []

/-- Bytes of a packet on the link (R360): header, payload, POISON mask, CRC-32C, padding. -/
def packetSize (p : Packet) : Nat :=
  roundUp (32 + p.payload.length + (if p.pmask then 8 else 0) + (if p.e2e then 4 else 0)) 4

/-! Ports -/

/-- A port before training. -/
def Port.down : Port :=
  { up := false, width := 0, laneFail := 0, peer := none, txSeq := 0, rxSeq := 4095, nakSent := false, retry := [],
    failedReplays := 0, rx := [], credits := [0, 0, 0, 0, 0, 0, 0, 0], retraining := false }

def portOf (s : State) (p : Nat) : Port := mgetD Port.down p s.fab.ports

def portSet (p : Nat) (f : Port → Port) (s : State) : State :=
  { s with fab := { s.fab with ports := mset p (f (portOf s p)) s.fab.ports } }

def portUp (s : State) (p : Nat) : Bool := portExists s p && (portOf s p).up

/-- Split ports have half the tags and retry flits (R357, R366). -/
def portSplit (s : State) (p : Nat) : Bool :=
  decide (32 ≤ p) || match s.boot.image with | some im => bit im.portSplit p | none => false

def retryFlits (s : State) (p : Nat) : Nat := if portSplit s p then 1024 else 2048
def tagCount (s : State) (p : Nat) : Nat := if portSplit s p then 2048 else 4096

/-- The ports of the path set of a destination that are valid and up (R370). -/
def pathSet (s : State) (dst : Nat) : List Nat :=
  let (lo, hi) :=
    if dst / 256 = selfEp s / 256 then mgetD (0, 0) (dst % 256) s.fab.member else mgetD (0, 0) (dst / 256) s.fab.group
  (List.range 8).filterMap fun c =>
    let p := if c < 4 then fld lo (6 * c) 6 else fld hi (6 * (c - 4)) 6
    if bit lo (24 + c) && portUp s p then some p else none

/-- Flits a packet fills (R356); packets are counted each on its own flits (log entry 18). -/
def flitsOf (p : Packet) : Nat := ceilDiv (packetSize p) 236

/-- The first two words of a packet's header (Table 10-4). -/
def headWord0 (p : Packet) : Nat :=
  p.type.toNat + p.tc.toNat * 2 ^ 8 + b2n p.zip * 2 ^ 11 + b2n p.e2e * 2 ^ 12 + b2n p.tallyEn * 2 ^ 13 + b2n p.tallyUnit * 2 ^ 14 + b2n p.loan * 2 ^ 15
    + p.epoch.toNat * 2 ^ 16 + p.dst.toNat * 2 ^ 32 + b2n p.pmask * 2 ^ 50 + p.len.toNat * 2 ^ 51

def headWord1 (p : Packet) : Nat := p.src.toNat + p.tid.toNat * 2 ^ 18 + p.key.toNat * 2 ^ 36 + p.hops.toNat * 2 ^ 52

/-- A packet as it stands on the link (R360). -/
def packetBytes (p : Packet) : List Byte :=
  let bs := leBytes 8 (headWord0 p) ++ leBytes 8 (headWord1 p) ++ leBytes 8 p.addr.toNat ++ leBytes 8 p.arg.toNat ++ p.payload
    ++ (if p.pmask then leBytes 8 p.pois.toNat else []) ++ (if p.e2e then leBytes 4 p.crc.toNat else [])
  bs ++ List.replicate (packetSize p - bs.length) 0

/-- A flit (Table 10-2) with its CRC-32 (R563): a body that starts with a packet where `first`; the acknowledgement of the last good flit; what a body
leaves unfilled is filler of zeros (log entry 18). -/
def flitBytes (s : State) (port seq : Nat) (first : Bool) (body : List Byte) : List Byte :=
  let bs := leBytes 2 seq ++ leBytes 2 ((portOf s port).rxSeq + 2 ^ 15) ++ [if first then 0 else 0xFF, 0] ++ List.replicate 10 0 ++ body
    ++ List.replicate (236 - body.length) 0
  bs ++ leBytes 4 (crc32 bs).toNat

/-- An idle flit (R356): it repeats the last SEQ, acknowledges or asks for a replay (NAK), and returns n credits of class c. -/
def idleFlit (s : State) (port : Nat) (nak : Bool) (c n : Nat) : List Byte :=
  let q := portOf s port
  let bs := leBytes 2 ((q.txSeq + 4095) % 4096) ++ leBytes 2 (q.rxSeq + 2 ^ 15 + b2n nak * 2 ^ 14) ++ leBytes 1 0xFF ++ leBytes 1 c ++ leBytes 2 n
    ++ List.replicate 244 0
  bs ++ leBytes 4 (crc32 bs).toNat

/-- The receive buffer that a packet filled is free again: the peer gets its credits back (R358). -/
def creditBack (port : Nat) (p : Packet) (s : State) : State :=
  if portUp s port then emit (.flit port (idleFlit s port false p.tc.toNat (ceilDiv (packetSize p) 64))) s else s

/-- The same for a packet that no longer waits at an egress. -/
def bufferFreed (e : EgressPkt) (s : State) : State := match e.from_ with | some q => creditBack q e.p s | none => s

/-- Put a packet on the wire of a port, from flit number seq on. -/
def putOnWire (port seq : Nat) (p : Packet) (s : State) : State :=
  let bs := packetBytes p
  let s := (List.range (flitsOf p)).foldl (fun s i => emit (.flit port (flitBytes s port ((seq + i) % 4096) (i == 0) ((bs.drop (236 * i)).take 236))) s) s
  emit (.packet port p) (bumpN Reg.portTxFlits port (flitsOf p) s)

/-- Send a packet on a port: credits are taken, the packet enters the retry buffer (R356, R357). -/
def transmit (port : Nat) (p : Packet) (s : State) : State :=
  let c := p.tc.toNat
  let need := ceilDiv (packetSize p) 64
  let seq := (portOf s port).txSeq
  putOnWire port seq p
    (portSet port (fun q => { q with txSeq := (q.txSeq + flitsOf p) % 4096, retry := q.retry ++ [(q.txSeq, p)], credits := q.credits.set c (q.credits.getD c 0 - need) }) s)

/-- Whether a port can take a packet: credit at the peer for its class and room in the retry buffer (R357, R358). -/
def canSend (s : State) (port : Nat) (p : Packet) : Bool :=
  decide (ceilDiv (packetSize p) 64 ≤ (portOf s port).credits.getD p.tc.toNat 0) &&
  decide (((portOf s port).retry.map fun e => flitsOf e.2).sum + flitsOf p ≤ retryFlits s port)

/-- The ports of a path set with the most free credits for a class (R370). -/
def bestPorts (s : State) (c : Nat) (ps : List Nat) : List Nat :=
  let cr := fun q => (portOf s q).credits.getD c 0
  ps.filter fun q => ps.all fun r => decide (cr r ≤ cr q)

/-- Choose a port of a path set: most credits, ties in a rotation the model leaves free (R370, log entry 18). -/
def choosePort (c : Nat) (ps : List Nat) (s : State) : Option Nat × State :=
  match bestPorts s c ps with
  | [] => (none, s)
  | [p] => (some p, s)
  | p :: t => let (i, s) := drawBelow (t.length + 1) s; (some ((p :: t).getD i p), s)

/-- Port number under which a packet for the hub itself is handed back (R370, log entry 19). -/
def loopback : Nat := 64

/-- Leave by a port, or wait for its credit (R358). -/
def egress (port : Nat) (p : Packet) (s : State) : State :=
  if canSend s port p && !(s.fab.waiting.any fun e => e.port == port && e.p.tc == p.tc) then transmit port p s
  else { s with fab := { s.fab with waiting := s.fab.waiting ++ [{ port := port, p := p, edges := 0, from_ := none }] } }

/-- Route a packet (R370, R371): true when it has a path. -/
def route (p : Packet) (s : State) : Bool × State :=
  if p.dst.toNat = selfEp s then (true, emit (.packet loopback p) s)
  else
    match choosePort p.tc.toNat (pathSet s p.dst.toNat) s with
    | (none, s) => (false, bump Reg.pktUnroutable 0 s)
    | (some q, s) => (true, egress q p s)

/-- Send a packet of this hub that expects no completion here. -/
def send (p : Packet) (s : State) : State := (route p s).2

/-- Packets of a class that wait at a port, in order of arrival. -/
def waitingAt (s : State) (port c : Nat) : List EgressPkt := s.fab.waiting.filter fun e => e.port == port && e.p.tc.toNat == c

/-- The partition whose key a packet carries; a key of no partition is taken as one of its own. -/
def packetPart (s : State) (p : Packet) : Nat := (firstBelow (fun i => fkey s i == p.key) (parts s)).getD 256

/-- Traffic the hub makes for itself in TC6 (R433): its moves and broadcasts, not the packets of a snapshot stream, whose descriptor a partition issued. -/
def hubMade (s : State) (p : Packet) : Bool :=
  p.tc.toNat == 6 && p.src.toNat == selfEp s && !(s.fab.reqs.any fun r => r.tag == p.tid.toNat && r.owner == .snap)

/-- The packet a class sends next: in TC0 and TC6 as its arbiter among partitions picks, in the others the one that came first. -/
def classHead (s : State) (port c : Nat) : Option EgressPkt :=
  let ws := waitingAt s port c
  if c = 0 ∨ c = 6 then
    match ws.find? fun e => hubMade s e.p with
    | some e => some e
    | none =>
      match ((arbOf s (portArb port c)).pick (fabWeight s) (ws.map fun e => packetPart s e.p).dedup).1 with
      | some part => ws.find? fun e => packetPart s e.p == part
      | none => none
  else ws.head?

/-- The packet of a class that is ready and has credit at the peer. -/
def classReady (s : State) (port c : Nat) : Option EgressPkt :=
  match classHead s port c with
  | some e => if canSend s port e.p then some e else none
  | none => none

/-- The packet a port sends next (R359, Table 10-3): of the best strict class that is ready, else of the weighted class its arbiter picks. Proportional
shares are deficit round robin among the classes (DESIGN CHOICE, log entry 97). -/
def nextPacket (s : State) (port : Nat) : Option EgressPkt :=
  match [7, 4, 3, 1].findSome? (classReady s port) with
  | some e => some e
  | none =>
    match ((arbOf s (classArb port)).pick (classWeight s) ([0, 2, 5, 6].filter fun c => (classReady s port c).isSome)).1 with
    | some c => classReady s port c
    | none => none

/-- Charge a packet's flits to its partition and its class at the arbiters that chose it. -/
def chargePacket (e : EgressPkt) (s : State) : State :=
  let c := e.p.tc.toNat
  let n := flitsOf e.p
  let s :=
    if (c = 0 ∨ c = 6) ∧ !hubMade s e.p then
      let a := ((arbOf s (portArb e.port c)).pick (fabWeight s) ((waitingAt s e.port c).map fun e => packetPart s e.p).dedup).2
      arbSet (portArb e.port c) (a.charge (packetPart s e.p) n) s
    else s
  if [0, 2, 5, 6].contains c then
    arbSet (classArb e.port) ((((arbOf s (classArb e.port)).pick (classWeight s) ([0, 2, 5, 6].filter fun c => (classReady s e.port c).isSome)).2).charge c n) s
  else s

/-- Send one packet of those that wait at a port, where one can go. -/
def pumpOne (port : Nat) (s : State) : State :=
  match nextPacket s port with
  | some e =>
    let s := chargePacket e s
    bufferFreed e (transmit port e.p { s with fab := { s.fab with waiting := s.fab.waiting.erase e } })
  | none => s

/-- Send what waits on a port while credit lasts (R358, R359). -/
def pumpPort (port : Nat) (s : State) : State := (List.range (s.fab.waiting.filter fun e => e.port == port).length).foldl (fun s _ => pumpOne port s) s

/-! Partners (R376, R377, R312) -/

def partnerCap : Nat := 65536

/-- Slow ticks a source entry may idle (PARTNER_CFG.AGE). -/
def partnerAgeTicks (s : State) : Nat := max 1 (rfld s Reg.partnerCfg 0 0 8)

/-- Types whose lack of an answer keeps the partner entry of their destination (R312): the counted ones and those that carry the count. -/
def keepsPartner (p : Packet) : Bool := [tWR, tATOMIC, tCUE, tOWN, tHANDOFF].contains p.type.toNat && !p.loan

/-- A destination for which something counted is not yet answered keeps its entry (R312), though the request has ended with TIMEOUT here. -/
def partnerBusy (s : State) (ep : Nat) : Bool :=
  (s.fab.reqs.any fun r => r.p.dst.toNat == ep && keepsPartner r.p) ||
    (match mget ep s.fab.partners with | some e => !e.unacked.isEmpty | none => false)

/-- An entry may be freed: idle for AGE as a source, for twice that as a destination (R377). -/
def partnerOld (s : State) (ep : Nat) (e : Partner) : Bool :=
  let idle := s.boot.tick - e.lastUse
  !partnerBusy s ep &&
    (if e.peerGen.isSome then decide (2 * partnerAgeTicks s ≤ idle) else decide (partnerAgeTicks s ≤ idle))

/-- The longest-idle entry that ageing permits to free (R377). -/
def partnerVictim (s : State) : Option Nat :=
  let ok := s.fab.partners.filter fun e => partnerOld s e.1 e.2
  (ok.find? fun e => ok.all fun f => decide (e.2.lastUse ≤ f.2.lastUse)).map (·.1)

/-- The entry of an endpoint, made on demand; none when the table is full and nothing can be freed (R377). -/
def partnerFor (ep : Nat) (s : State) : Option Partner × State :=
  match mget ep s.fab.partners with
  | some e => (some e, s)
  | none =>
    let fresh : Partner := { unacked := [], sendCount := 0, sendGen := mgetD 0 ep s.fab.gens + 1, applied := 0, peerGen := none, lastUse := s.boot.tick }
    let room := fun (s : State) => (some fresh, { s with fab := { s.fab with partners := mset ep fresh s.fab.partners, gens := mset ep fresh.sendGen s.fab.gens } })
    if s.fab.partners.length < partnerCap then room s
    else
      match partnerVictim s with
      | some v => room { s with fab := { s.fab with partners := mdel v s.fab.partners } }
      | none => (none, bump Reg.partnerFull 0 s)

def partnerSet (ep : Nat) (e : Partner) (s : State) : State :=
  { s with fab := { s.fab with partners := mset ep { e with lastUse := s.boot.tick } s.fab.partners } }

/-- Whether R309 counts a packet: WR and ATOMIC without LOAN. -/
def counted (p : Packet) : Bool := (p.type.toNat == tWR || p.type.toNat == tATOMIC) && !p.loan

/-- Cues and their kin carry the sender's count and generation (R308, Table 10-5). -/
def carriesCount (p : Packet) : Bool := [tCUE, tOWN, tHANDOFF].contains p.type.toNat

/-! Requests and tags (R366, R367) -/

/-- The limit sampled when a request is sent: REQ_TMO (Table 10-13). -/
def reqTmo (s : State) : Nat := max 2 (rfld s Reg.fabCfg 0 0 8)

/-- The lowest free tag of a port. -/
def freeTag (s : State) (port : Nat) : Option Nat :=
  (firstBelow (fun t => !s.fab.reqs.any fun r => r.tag == port * 4096 + t) (tagCount s port)).map (port * 4096 + ·)

/-- Requests not yet sent for want of a tag or a partner entry have numbers from here. -/
def unsentBase : Nat := 2 ^ 18

/-- Number for a request that waits to be sent. -/
def unsentTag (s : State) : Nat := (s.fab.reqs.map (·.tag)).foldl max (unsentBase - 1) + 1

/-- Stamp counts and generations (R309, R312): a counted transaction adds to the send count, a cue carries it. -/
def stamp (p : Packet) (s : State) : Option Packet × State :=
  if counted p || carriesCount p then
    match partnerFor p.dst.toNat s with
    | (none, s) => (none, s)
    | (some e, s) =>
      let e := if counted p then { e with sendCount := e.sendCount + 1 } else e
      let gen := e.sendGen.toNat
      let arg := if counted p then setFld p.arg 56 8 gen else setFld (setFld p.arg 0 32 e.sendCount.toNat) 32 8 gen
      (some { p with arg := arg }, partnerSet p.dst.toNat e s)
  else (some p, s)

/-- What became of a request that was to be sent. -/
inductive Sent where
  | gone          -- on its way, or waiting for a tag or a partner entry
  | failed (st : Status)        -- it completes at once: with TIMEOUT where no port leads there (R371), with PARITY where its port is stopped (R465)
  deriving DecidableEq, Repr

/-- Put a stamped request on a port with a tag. -/
def launch (r : Req) (port tag : Nat) (s : State) : State :=
  let p := { r.p with tid := BitVec.ofNat 18 tag }
  let r := { r with tag := tag, p := p, limit := reqTmo s, edges := 0, retrying := false }
  egress port p { s with fab := { s.fab with reqs := s.fab.reqs ++ [r] } }

/-- Send a request: partner entry and counts, a port of the path set with a free tag, the tag (R366, R371, R377). A request
for this hub itself takes tags of port 0. -/
def sendReq (r : Req) (s : State) : Sent × State :=
  let wait := fun (s : State) => (Sent.gone, { s with fab := { s.fab with reqs := s.fab.reqs ++ [{ r with tag := unsentTag s, retrying := true }] } })
  if r.p.dst.toNat = selfEp s then
    match freeTag s 0 with
    | none => wait s
    | some t =>
      match stamp r.p s with
      | (none, s) => wait s
      | (some p, s) =>
        let p := { p with tid := BitVec.ofNat 18 t }
        let r := { r with tag := t, p := p, limit := reqTmo s, edges := 0, retrying := false }
        (.gone, emit (.packet loopback p) { s with fab := { s.fab with reqs := s.fab.reqs ++ [r] } })
  else
    let ps := pathSet s r.p.dst.toNat
    if ps.isEmpty then (.failed .timeout, bump Reg.pktUnroutable 0 s)
    else
      match choosePort r.p.tc.toNat (ps.filter fun q => (freeTag s q).isSome) s with
      | (none, s) => wait s
      | (some q, s) =>
        if unitStopped s 8 (some (setInst q)) then (.failed .parity, s) else
        match stamp r.p s with
        | (none, s) => wait s
        | (some p, s) => (.gone, launch { r with p := p } q ((freeTag s q).getD 0) s)

/-- Requests that wait to be sent. -/
def unsentReqs (s : State) : List Req := s.fab.reqs.filter fun r => decide (unsentBase ≤ r.tag)

/-- Try to send a request that waits; it stays as it was while it cannot go. -/
def pumpReq (r : Req) (s : State) : State :=
  match sendReq r { s with fab := { s.fab with reqs := s.fab.reqs.filter fun q => q.tag ≠ r.tag } } with
  | (.gone, t) => if (unsentReqs t).length = (unsentReqs s).length then s else t
  | (.failed _, _) => s

/-- Requests that wait for a tag or a partner entry are sent as room appears (R366, R377), in order. -/
def pumpReqs (s : State) : State := (unsentReqs s).foldl (fun s r => pumpReq r s) s

/-- A request that ends with TIMEOUT: its packet, where it still waits at a port, is not sent (R296), and an answer it did not get keeps the partner entry (R312). -/
def forgetReq (r : Req) (s : State) : State :=
  let s := { s with fab := { s.fab with waiting := s.fab.waiting.filter fun e => !(e.p.src.toNat == selfEp s && e.p.tid == r.p.tid && e.p.type == r.p.type) } }
  if keepsPartner r.p then
    { s with fab := { s.fab with partners := mmod r.p.dst.toNat (fun e => { e with unacked := r.tag :: e.unacked }) s.fab.partners } }
  else s

/-- An answer that no request awaits any more shows that the old request was met (R312). -/
def lateAnswer (p : Packet) (s : State) : State :=
  { s with fab := { s.fab with partners := mmod p.src.toNat (fun e => { e with unacked := e.unacked.filter (· ≠ p.tid.toNat) }) s.fab.partners } }

/-- A request ends: its tag is free (R367). -/
def endReq (tag : Nat) (s : State) : State :=
  pumpReqs { s with fab := { s.fab with reqs := s.fab.reqs.filter fun r => r.tag ≠ tag } }

/-- A request with its owner, not yet sent. -/
def mkReq (p : Packet) (fa : Option Nat) (right part : Nat) (owner : ReqOwner) : Req :=
  { tag := 0, p := p, fa := fa, right := right, part := part, owner := owner, edges := 0, limit := 0, attempts := 1, retrying := false }

/-! Resolving a fabric address (R372, R373) -/

/-- Quadword i of a call sheet or proxy entry. -/
def quad (ws : List W32) (i : Nat) : Nat := (ws.getD (2 * i) 0).toNat + (ws.getD (2 * i + 1) 0).toNat * 2 ^ 32

def csValid (ws : List W32) : Bool := bit (ws.getD 0 0) 0
def csBase (ws : List W32) : Nat := quad ws 0 / 4096 * 4096
def csLen (ws : List W32) : Nat := quad ws 1 % 2 ^ 44
def csLocal (ws : List W32) : Nat := quad ws 2 % 2 ^ 50
def csTarget (ws : List W32) : Nat := quad ws 3 % 2 ^ 18
def csKey (ws : List W32) : BitVec 16 := BitVec.ofNat 16 (quad ws 3 / 2 ^ 32)
def csIl (ws : List W32) : Bool := bit (ws.getD 0 0) 1
/-- RD 0, WR 1, AT 2. -/
def csRight (ws : List W32) (right : Nat) : Bool := bit (ws.getD 0 0) (2 + right)

/-- H of R201: the upper 24 bits of a 64-bit product. -/
def hashH (x : Nat) : Nat := x * 0x9E3779B97F4A7C15 % 2 ^ 64 / 2 ^ 40

/-- The result of a resolution. -/
inductive Resolved where
  | decode
  | ownership
  | home (ep off : Nat)
  deriving DecidableEq, Repr

/-- The valid entry that covers a fabric address, with its index. -/
def csEntry (b : Bank) (fa : Nat) : Option (Nat × List W32) :=
  b.entries.find? fun e => csValid e.2 && decide (csBase e.2 ≤ fa) && decide (fa < csBase e.2 + 4096 * csLen e.2)

/-- Home and offset of an address within an entry (R372, R373). -/
def csHome (b : Bank) (ws : List W32) (fa : Nat) : Nat × Nat :=
  let o := fa - csBase ws
  if csIl ws then
    let set := csTarget ws % 256
    let w := max 1 (mgetD 1 set b.widths)
    let n := o / 4096
    let q := n / w
    let m := (n % w + hashH q) % w
    (mgetD 0 (64 * set + m) b.members, csLocal ws + 4096 * q + o % 4096)
  else (csTarget ws, csLocal ws + o)

/-- Resolve a fabric address for a key and a right (R20, R372); an offset beyond 50 bits is no hub-local offset (R21). -/
def resolveIn (b : Bank) (fa : Nat) (key : BitVec 16) (right : Nat) : Resolved :=
  match csEntry b fa with
  | none => .decode
  | some (_, ws) =>
    if csRight ws right && csKey ws == key then
      let (ep, off) := csHome b ws fa
      if off < 2 ^ 50 then .home ep off else .decode
    else .ownership

/-- Resolve under the current sheet for a partition; a refusal is counted in FAB_REFUSED (R372). -/
def resolve (fa part right : Nat) (s : State) : Resolved × State :=
  match resolveIn s.fab.current fa (fkey s part) right with
  | .ownership => (.ownership, bump Reg.fabRefused part s)
  | r => (r, s)

/-- A packet that a sheet resolved carries its epoch and the partition's key (R374, R380). -/
def stampKey (s : State) (part : Nat) (p : Packet) : Packet :=
  { p with epoch := BitVec.ofNat 16 s.fab.epoch, key := fkey s part }

end Sys2Proof.Machine
end

