-- ==== Sys2Proof/Machine/Vec.lean ====
section
/-! DEFINITION. What the hub reports: partition vectors and their routes (chapter 12), hub interrupts (chapter 13) and
the triggers of the take log (chapter 14). Every meaning ends through `done`. -/

namespace Sys2Proof.Machine

open Sys2Proof

/-! Functions -/

/-- A PCIe function after the reset of its port: PCI Express leaves its enables clear and its MSI-X entries masked
(PRESUMED, log entry 20). -/
def Fn.fresh : Fn :=
  { ats := false, pasid := false, busMaster := false, pri := false, priStopped := false, priAlloc := 0,
    msixMasked := List.range 128, msixPending := [], resetting := false, proxyQ := [], proxyBusy := false, proxyDiscard := false }

def fnOf (s : State) (i : Nat) : Fn := mgetD Fn.fresh i s.host.fns

def fnSet (i : Nat) (f : Fn → Fn) (s : State) : State :=
  { s with host := { s.host with fns := mset i (f (fnOf s i)) s.host.fns } }

/-- Entries of a function's MSI-X table (Table 11-1). -/
def msixEntries (i : Nat) : Nat := if i % 256 = 0 then 128 else 64

/-- Send the MSI-X message of an entry under the function's own table: a masked entry, or a function without Bus Master
Enable, leaves it pending (R436). -/
def msixSend (i entry : Nat) (s : State) : State :=
  let f := fnOf s i
  if f.msixMasked.contains entry || !f.busMaster then fnSet i (fun f => { f with msixPending := entry :: f.msixPending.filter (· ≠ entry) }) s
  else emit (.msix (i / 256) (i % 256) entry) s

/-- Send an EVENT on a route, with the route's running count (R437). -/
def sendEvent (route ep part vector : Nat) (key : BitVec 16) (s : State) : State :=
  let seq := mgetD 0 route s.mgmt.eventSeq
  let p := { mkPacket s tEVENT ep 0 (w64 seq.toNat) (leBytes 8 (vector + 256 * part)) with key := key }
  send p { s with mgmt := { s.mgmt with eventSeq := mput 0 route (seq + 1) s.mgmt.eventSeq } }

/-- A write to a route's register returns its count to 0 (R437). -/
def clearSeq (route : Nat) (s : State) : State := { s with mgmt := { s.mgmt with eventSeq := mdel route s.mgmt.eventSeq } }

/-- The route of a partition's vector. -/
def vecRoute (part v : Nat) : Nat := rkey (Reg.vecRouteLo + 8 * v) part

/-- Deliver one message of vector v under VEC_ROUTE_v (R435, R436, R437). -/
def deliverVec (part v : Nat) (s : State) : State :=
  let lo := rget s (Reg.vecRouteLo + 8 * v) part
  let hi := rget s (Reg.vecRouteHi + 8 * v) part
  let drop := bump Reg.vecDropped part s
  match fld lo 0 2 with
  | 1 =>
    let i := fld lo 2 1 * 256 + fld lo 3 8
    let entry := fld lo 11 7
    if (i % 256 ≠ 0 ∧ fnPart s i ≠ some part) ∨ msixEntries i ≤ entry then drop else msixSend i entry s
  | 2 => sendEvent (vecRoute part v) (fld hi 0 18) part v (fkey s part) s
  | _ => drop

/-- Raise vector v of a partition (R435). -/
def raiseVec (part v : Nat) (s : State) : State :=
  let s := bump Reg.vecRaised part s
  let off := 4 * (v / 16)
  if rbit s (Reg.vecMask + off) part (v % 16) then
    rset (Reg.vecPend + off) part (rget s (Reg.vecPend + off) part ||| w32 (2 ^ (v % 16))) s
  else deliverVec part v s

/-- Raise a vector where there is one. -/
def raiseOpt (part : Nat) (v : Option Nat) (s : State) : State := match v with | some v => raiseVec part v s | none => s

/-! Hub interrupts (R469) -/

/-- A die of the channel is read-only, or the channel is forced (R486, R488). -/
def channelRo (s : State) (ch : Nat) : Bool :=
  rbit s Reg.flcCtl ch 0 ||
    (let ds := s.rel.dies.filter fun e => e.1 / 32 == ch
     !ds.isEmpty && ds.all fun e => e.2.ro)

/-- HUB_INT_STATUS (Table 13-12). -/
def hubIntStatus (s : State) : W32 :=
  w32 (b2n (decide (rget s Reg.fatalStatus 0 ≠ 0))
    + 2 * b2n (decide (rget s Reg.parityFault 0 ≠ 0))
    + 4 * b2n (decide (rget s Reg.secViolation 0 ≠ 0))
    + 8 * b2n (decide (rget s Reg.lcStatus 0 ≠ 0))
    + 16 * b2n (decide (s.rel.ack < s.rel.head))
    + 32 * b2n ((List.range 64).any fun p => portExists s p && rbit s Reg.portCfg p 0 && !portUp s p)
    + 64 * b2n (!rbit s Reg.hostpStatus 0 11 || !rbit s (Reg.hostpStatus + 256) 0 11)
    + 128 * b2n (s.coh.slots.any fun e => e.2.lost)
    + 256 * b2n (s.rel.dies.any (fun e => e.2.ro) || (List.range 32).any fun c => rbit s Reg.flcCtl c 0))

/-- Send the hub interrupt message under HUB_INT_ROUTE (R470). -/
def hubIntMessage (s : State) : State :=
  let lo := rget s Reg.hubIntRouteLo 0
  match fld lo 0 2 with
  | 1 => msixSend (fld lo 2 1 * 256) (fld lo 11 7) s
  | 2 => sendEvent (rkey Reg.hubIntRouteLo 0) (rfld s Reg.hubIntRouteHi 0 0 18) 0 255 (fkey s 0) s
  | _ => s

/-- A message for each gain of the unmasked set (R469). -/
def hubInt (s : State) : State :=
  let now := hubIntStatus s &&& ~~~(rget s Reg.hubIntMask 0)
  let gain := now &&& ~~~s.mgmt.intSent
  let s := { s with mgmt := { s.mgmt with intSent := now } }
  if gain = 0 then s else hubIntMessage s

/-- How every meaning ends: the next state, with the hub interrupts brought up to date. -/
def done (s : State) : Out := .next (if alive s then hubInt s else s)

/-! Triggers of the take log (R499, R502, R503) -/

/-- Raise a trigger: it waits for its capture, or is suppressed or lost (R503). -/
def trigger (code : Nat) (detail : W64) (part : Option Nat) (inst : Nat) (s : State) : State :=
  let cfg := rget s Reg.takeCfg 0
  if !bit cfg 0 || !rbit s Reg.takeTrigEn 0 code then s
  else if bit cfg 2 && s.rel.seen.contains code then bump Reg.takesSuppressed 0 s
  else if s.rel.waiting.length < 64 then
    { s with rel := { s.rel with waiting := s.rel.waiting ++ [{ code := code, detail := detail, part := part, inst := inst }], seen := code :: s.rel.seen } }
  else bump Reg.takesLost 0 s

/-! Register reports shared by several units -/

/-- Medium codes of Table 14-7 by tier: stage 0, HBM 1, DDR 2, flash 3, loan 4; the host tier has none and uses 4 (log entry 21). -/
def mediumOf (tier : Nat) : Nat := if tier < 4 then tier else 4

end Sys2Proof.Machine
end

