-- ==== Sys2Proof/Machine/Mem.lean ====
section
/-! DEFINITION. Store memory: where an offset lies, tiers with their capacity and occupancy, poison, reads and writes of
bytes with everything a write does to its page (chapters 1, 2, 7 and 14). -/

namespace Sys2Proof.Machine

open Sys2Proof

/-! The hub-local space (Table 1-2) -/

def stageBase : Nat := 0x3000000000000
def stageEnd : Nat := 0x3000020000000
def localEnd : Nat := 2 ^ 50
def reelSize : Nat := 0x800000

/-- Where a range of the hub-local space lies. -/
inductive Addr where
  | decode             -- no memory there (R21, R23, R24)
  | hub                -- the hub window (R25)
  | stage              -- a working carve-out (R24)
  | store (a : Nat)    -- allocation a
  deriving DecidableEq, Repr

/-- Bytes of a reel's working carve-out (R24). -/
def workBytes (s : State) : Nat := match s.boot.image with | some im => im.workKib * 1024 | none => 0

def pageAt (s : State) (off : Nat) : Option Page := mget (off / pageSize) s.store.pages

/-- The allocation that covers an offset: none once DESTROY has removed its range (R43). -/
def allocAt (s : State) (off : Nat) : Option Nat :=
  match pageAt s off with
  | none => none
  | some pg => match mget pg.alloc s.store.allocs with
    | some a => if a.draining then none else some pg.alloc
    | none => none

/-- The address checks of R374 in the order R21, R25, R24, R23 for n bytes at an offset; a reel that is off holds no stage (Table 15-8). -/
def addrOf (s : State) (off n : Nat) : Addr :=
  let last := off + (n - 1)
  if localEnd ≤ last then .decode
  else if stageEnd ≤ last then .hub
  else if stageBase ≤ off then
    if (off - stageBase) / reelSize = (last - stageBase) / reelSize ∧ (last - stageBase) % reelSize < workBytes s ∧ !reelOff s ((off - stageBase) / reelSize) then .stage else .decode
  else if stageBase ≤ last then .decode
  else
    match allocAt s off with
    | some a => if allocAt s last = some a then .store a else .decode
    | none => .decode

def allocOf (s : State) (a : Nat) : Option Alloc := mget a s.store.allocs

/-- The partition that owns a target (R374): partition 0 for the stage window (R24). -/
def addrPart (s : State) : Addr → Nat
  | .store a => match allocOf s a with | some al => al.part | none => 0
  | _ => 0

/-! Flags of Table 1-4 -/

def fMask (f : W32) : Nat := fld f 0 6
def fPin (f : W32) : Bool := bit f 6
def fSqueeze (f : W32) : Bool := bit f 9
def fStream (f : W32) : Bool := bit f 10
def fWidenOk (f : W32) : Bool := bit f 11
def fCoherent (f : W32) : Bool := bit f 12
def fProject (f : W32) : Bool := bit f 13

/-- Flags of the allocation at an offset, 0 where none. -/
def flagsAt (s : State) (off : Nat) : W32 :=
  match allocAt s off with | some a => (match allocOf s a with | some al => al.flags | none => 0) | none => 0

/-- Partition of the allocation at an offset, 0 where none. -/
def partAt (s : State) (off : Nat) : Nat := match allocAt s off with | some a => addrPart s (.store a) | none => 0

/-! Tiers (Table 1-3) -/

/-- Tier of an offset: stage for the stage window. -/
def tierAt (s : State) (off : Nat) : Nat := match pageAt s off with | some p => p.tier | none => 0

/-- Rank by speed (R75): stage, HBM, DDR, loan, host, flash. -/
def tierRank (t : Nat) : Nat := match t with | 0 => 0 | 1 => 1 | 2 => 2 | 5 => 3 | 4 => 4 | _ => 5

/-- Tiers fastest first (R75). -/
def tiersBySpeed : List Nat := [0, 1, 2, 5, 4, 3]

/-- A tier the script image disables: Host by item HOST_TIER, Loan by LOAN_TIER (R7, R28). -/
def tierDisabled (s : State) (t : Nat) : Bool :=
  match s.boot.image with
  | some im => (t == 4 && !im.hostTier) || (t == 5 && !im.loanTier)
  | none => t == 4 || t == 5

def extTier : ExtId → Nat
  | .host _ _ => 4
  | .loan _ => 5

/-- Pages homed in an extent. -/
def extHomed (s : State) (e : ExtId) : Nat := (s.store.pages.filter fun p => p.2.loc == .ext e && !p.2.lost).length

/-- L of R60 in units of 10 µs. -/
def hopTime (s : State) : Nat := max 1 (rfld s Reg.fabCfg 0 16 5) * (max 1 (rfld s Reg.fabCfg 0 8 8) + 1)

/-- Notice period in ms, 0 standing for 100 (R49). -/
def noticeMs (n : Nat) : Nat := if n = 0 then 100 else n

/-- The evacuation budget of a loan extent in pages (R60). -/
def evacBudget (s : State) (x : Extent) : Nat :=
  rfld s Reg.loanCfg 0 0 8 * 10000 * (noticeMs x.noticeMs * 100 - 2 * hopTime s) / 2097152

/-- Pages an extent may still take as homes (R50 step 1, R60). -/
def extRoom (s : State) (e : ExtId) (x : Extent) : Nat :=
  if x.withdrawn then 0
  else
    let used := extHomed s e + (s.store.moves.filter fun m => m.2.dstLoc == .ext e).length
    (match e with | .host _ _ => x.pages | .loan _ => min x.pages (evacBudget s x)) - used

/-- Die key: channel × 32 + die. -/
def dieKey (ch d : Nat) : Nat := ch * 32 + d

/-- A die that is never written (R486, R488). -/
def dieRo (s : State) (ch d : Nat) : Bool :=
  rbit s Reg.flcCtl ch 0 || match mget (dieKey ch d) s.rel.dies with | some x => x.ro | none => true

/-- Pages one die holds: the tier's capacity in equal shares (DESIGN CHOICE, log entry 22). -/
def dieCap (s : State) : Nat := s.store.caps.getD 3 0 / max 1 s.rel.dies.length

/-- Pages placed on a die, arriving ones included. -/
def dieUsed (s : State) (ch d : Nat) : Nat :=
  (s.store.pages.filter fun p => p.2.loc == .die ch d && !p.2.lost).length + (s.store.moves.filter fun m => m.2.dstLoc == .die ch d).length
    + (s.store.oldLocs.filter fun o => o.loc == .die ch d).length

/-- Pages a tier can hold (TIER_CAP_t): 0 for a disabled tier (R28); lent extents for host and loan; a read-only die
counts only the pages still on it (R486). -/
def tierCap (s : State) (t : Nat) : Nat :=
  if tierDisabled s t then 0
  else if t = 3 then
    s.store.caps.getD 3 0 - ((s.rel.dies.filter fun e => dieRo s (e.1 / 32) (e.1 % 32)).map fun e => dieCap s - dieUsed s (e.1 / 32) (e.1 % 32)).sum
  else if t = 4 ∨ t = 5 then
    ((s.store.extents.filter fun e => extTier e.1 == t).map fun e => if e.2.released then 0 else if e.2.withdrawn then extHomed s e.1 else e.2.pages).sum
  else s.store.caps.getD t 0

/-- Quadword i of a 64-byte image or descriptor. -/
def qw (bs : List Byte) (i : Nat) : Nat := leAt bs (8 * i) 8

/-- Field of n bits from bit lo of quadword i. -/
def qf (bs : List Byte) (i lo n : Nat) : Nat := qw bs i / 2 ^ lo % 2 ^ n

/-- Row width of a table image in bytes (Table 5-1). -/
def rowWidth (im : List Byte) : Nat := (qf im 1 8 10 + 1) * 16

/-- Members of a table's hub set. -/
def tblN (im : List Byte) : Nat := max 1 (qf im 1 36 10)

/-- Slot of a row within its member's range (R201): mode 2 is sharded. -/
def rowSlotIdx (t : Table) (row : Nat) : Nat := if t.mode = 2 then row / tblN t.image else row

/-- Hub-local offset of a row in this hub's ALLOC (R201). -/
def rowOffset (s : State) (t : Table) (row : Nat) : Nat :=
  match mget (qf t.image 0 0 16) s.store.allocs with
  | some a => a.base * pageSize + rowSlotIdx t row * rowWidth t.image
  | none => 0

/-- Bytes of a row slot of a table: the row width rounded up to 64 (chapter 2). -/
def rowSlotBytes (s : State) (table : Nat) : Nat :=
  match mget table s.eng.tables with | some t => roundUp (rowWidth t.image) 64 | none => 64

def tablePart (s : State) (table : Nat) : Nat := match mget table s.eng.tables with | some t => t.part | none => 0

/-- Key of a row of a table. -/
def rowKey (table row : Nat) : Nat := table * 2 ^ 40 + row

/-- Pages of the row areas of a partition in a tier: promoted rows, rows moving in, and replicas (R44, chapter 2). -/
def rowPages (s : State) (part tier : Nat) : Nat :=
  let here := fun (k t : Nat) => t == tier && tablePart s (k / 2 ^ 40) == part
  let a := ((s.rows.slots.filter fun e => here e.1 e.2).map fun e => rowSlotBytes s (e.1 / 2 ^ 40)).sum
  let b := ((s.rows.moves.filter fun e => e.2.toSlot && here e.1 e.2.tier).map fun e => rowSlotBytes s (e.1 / 2 ^ 40)).sum
  let c := ((s.rows.replicas.filter fun e => e.2.tier == tier && e.2.part == part).map fun e => roundUp e.2.data.length 64).sum
  let d := ((s.rows.old.filter fun e => here e.1 e.2).map fun e => rowSlotBytes s (e.1 / 2 ^ 40)).sum
  ceilDiv (a + b + c + d) pageSize

/-- Window pages of projectors in a tier. -/
def windowPages (s : State) (part : Option Nat) (tier : Nat) : Nat :=
  ((s.store.projs.filter fun e => e.2.reserved && e.2.winTier == tier && (part == none || part == some (addrPart s (.store e.1)))).map
    fun e => e.2.window * e.2.slotPages).sum

/-- Copies made under copy-on-write in a tier (R493). -/
def cowPages (s : State) (part : Option Nat) (tier : Nat) : Nat :=
  match s.rel.snap with
  | some sn => if part = none ∨ part = some sn.part then (sn.copies.filter fun c => c.tier == tier).length else 0
  | none => 0

/-- Occupancy of a tier by a partition (R44). -/
def occ (s : State) (part tier : Nat) : Nat :=
  (s.store.pages.filter fun p => p.2.tier == tier && !p.2.lost && addrPart s (.store p.2.alloc) == part).length
    + rowPages s part tier + windowPages s (some part) tier + cowPages s (some part) tier

/-- Pages of a tier held by anything: homes, destinations of moves, locations not yet released, rows, windows,
copies, lending (R48, R61). -/
def tierUsed (s : State) (t : Nat) : Nat :=
  (s.store.pages.filter fun p => p.2.tier == t && !p.2.lost).length
    + (s.store.moves.filter fun m => m.2.dstTier == t).length
    + (s.store.oldLocs.filter fun o => o.tier == t).length
    + ((List.range (parts s)).map fun p => rowPages s p t).sum
    + windowPages s none t + cowPages s none t
    + (if t = 1 then (s.store.lentOut.map fun l => l.pages).sum else 0)

/-- Free capacity of a tier (TIER_FREE_t). -/
def tierFree (s : State) (t : Nat) : Nat := tierCap s t - tierUsed s t

def quota (s : State) (part t : Nat) : Nat := (rget s (Reg.tierQuota + 4 * t) part).toNat

/-- Free quota of a partition in a tier (R41). -/
def quotaFree (s : State) (part t : Nat) : Nat := quota s part t - occ s part t

/-- Room for home pages in a tier: for a loan the budget limits it further (R41, R60); flash pages need a die that can be written. -/
def homeRoom (s : State) (t : Nat) : Nat :=
  if t = 4 ∨ t = 5 then
    min (tierFree s t) ((s.store.extents.filter fun e => extTier e.1 == t).map fun e => extRoom s e.1 e.2).sum
  else if t = 3 then
    min (tierFree s t) ((s.rel.dies.filter fun e => !dieRo s (e.1 / 32) (e.1 % 32)).map fun e => dieCap s - dieUsed s (e.1 / 32) (e.1 % 32)).sum
  else tierFree s t

/-- Places of a tier that can take a page. -/
def openLocs (s : State) (t : Nat) : List Loc :=
  if homeRoom s t = 0 then []
  else if t = 3 then
    (s.rel.dies.filter fun e => !dieRo s (e.1 / 32) (e.1 % 32) && decide (dieUsed s (e.1 / 32) (e.1 % 32) < dieCap s)).map fun e => .die (e.1 / 32) (e.1 % 32)
  else if t = 4 ∨ t = 5 then
    (s.store.extents.filter fun e => extTier e.1 == t && decide (0 < extRoom s e.1 e.2)).map fun e => .ext e.1
  else [.plain]

/-- A place of a tier for a page; which die or extent is a free choice (log entry 22). -/
def pickLoc (t : Nat) (s : State) : Option Loc × State :=
  match openLocs s t with
  | [] => (none, s)
  | [l] => (some l, s)
  | l :: ls => let (i, s) := drawBelow (ls.length + 1) s; (some ((l :: ls).getD i l), s)

/-! Changing pages -/

def pageMod (pg : Nat) (f : Page → Page) (s : State) : State :=
  { s with store := { s.store with pages := mmod pg f s.store.pages } }

def moveMod (pg : Nat) (f : Move → Move) (s : State) : State :=
  { s with store := { s.store with moves := mmod pg f s.store.moves } }

/-! Poison (R476 to R480) -/

/-- Bytes of a poison unit at an offset (R477). -/
def poisonUnit (s : State) (off : Nat) : Nat := match tierAt s off with | 0 => 8 | 3 => 4096 | _ => 64

/-- A lost page reads as poison (R52). -/
def pageLost (s : State) (off : Nat) : Bool := match pageAt s off with | some p => p.lost | none => false

/-- Whether an aligned 8-byte word is poison. -/
def wordPoison (s : State) (w : Nat) : Bool := mhas w s.store.poison || pageLost s (8 * w)

/-- The words of a range. -/
def wordsOf (off n : Nat) : List Nat := if n = 0 then [] else (List.range ((off + n - 1) / 8 + 1 - off / 8)).map (off / 8 + ·)

/-- The poisoned words of a range. -/
def poisonIn (s : State) (off n : Nat) : List Nat := (wordsOf off n).filter (wordPoison s)

/-- Mark every poison unit that a range touches; each is counted in POISON_MADE (R480). -/
def markPoison (off n : Nat) (s : State) : State :=
  if n = 0 then s
  else
    let u := poisonUnit s off
    let lo := off / u
    let cnt := (off + n - 1) / u + 1 - lo
    let ws := wordsOf (lo * u) (cnt * u)
    bumpN Reg.poisonMade 0 cnt { s with store := { s.store with poison := ws.foldl (fun m w => mset w () m) s.store.poison } }

/-- A write clears the poison of the units it covers whole (R479). -/
def clearPoison (off n : Nat) (s : State) : State :=
  let u := poisonUnit s off
  let ws := (wordsOf off n).filter fun w => decide (off ≤ 8 * w / u * u) && decide (8 * w / u * u + u ≤ off + n)
  { s with store := { s.store with poison := ws.foldl (fun m w => mdel w m) s.store.poison } }

/-- Poisoned units of 64 bytes delivered, counted in POISON_SENT (R480). -/
def countSent (ws : List Nat) (s : State) : State :=
  if ws.isEmpty then s else bumpN Reg.poisonSent 0 (ws.map (· / 8)).dedup.length s

/-- Line mask of poisoned words for data that starts at an offset (R477): bit i for its 64-byte line i. -/
def lineMask (off : Nat) (ws : List Nat) : W64 :=
  w64 (((ws.map fun w => w / 8 - off / 64).dedup.map fun i => 2 ^ i).sum)

/-- The bytes delivered under poison are free values: the mark says that the value was lost (R476, log entry 6). -/
def hidePoison (off : Nat) (ws : List Nat) (bs : List Byte) (s : State) : List Byte × State :=
  if ws.isEmpty then (bs, s)
  else
    let (v, s) := draw s
    (bs.zipIdx.map fun e => if ws.contains ((off + e.2) / 8) then (Config.freeWord (v.toNat + off + e.2)).setWidth 8 else e.1, s)

/-! Raw bytes and blocks -/

/-- The byte stored at a hub-local offset; memory nothing has written reads 0 (R31). -/
def byteAt (s : State) (off : Nat) : Byte := mgetD 0 off s.store.mem

/-- Stored bytes of a range. -/
def rawRead (s : State) (off n : Nat) : List Byte := (List.range n).map fun i => byteAt s (off + i)

/-- Store bytes: 0 is not listed (log entry 23). -/
def rawWrite (off : Nat) (bs : List Byte) (s : State) : State :=
  { s with store := { s.store with mem := bs.zipIdx.foldl (fun m e => mput 0 (off + e.2) e.1 m) s.store.mem } }

/-- Store the bytes that are present. -/
def rawCells (off : Nat) (cs : List (Option Byte)) (s : State) : State :=
  { s with store := { s.store with mem := cs.zipIdx.foldl (fun m e => match e.1 with | some b => mput 0 (off + e.2) b m | none => m) s.store.mem } }

def slotOf (s : State) (i : Nat) : CtSlot := mgetD CtSlot.empty i s.eng.ctbl

def blockMeta (s : State) (b : Nat) : Byte := mgetD rawMeta b s.store.blk

def setMeta (b : Nat) (m : Byte) (s : State) : State := { s with store := { s.store with blk := mput rawMeta b m s.store.blk } }

/-- What a read found: bytes, the poisoned words, whether a block failed to decode. -/
structure Got where
  bytes : List Byte
  pois : List Nat
  codec : Bool
  deriving DecidableEq, Repr

/-- A block that decodes to CODEC becomes a raw block of poison, counted, with its trigger (R276). -/
def codecDrop (b : Nat) (s : State) : State :=
  let s := markPoison (b * blockSize) blockSize (setMeta b rawMeta s)
  trigger 3 (w64 (b * blockSize)) (some (partAt s (b * blockSize))) 0 (bump Reg.codecErrors (partAt s (b * blockSize)) s)

/-- A lane processed raw-side bytes and produced or consumed coded bytes (Table 7-8). -/
def laneWork (lane raw coded : Nat) (s : State) : State := bumpN Reg.laneOut lane coded (bumpN Reg.laneIn lane raw s)

/-- The content of block b (R275, R278). -/
def readBlock (b : Nat) (s : State) : Got × State :=
  let off := b * blockSize
  let m := blockMeta s b
  if blockCoded m then
    if (poisonIn s off (blockTag m * 256)).isEmpty then
      let s := laneWork (b % 32) blockSize (leAt (rawRead s off 4) 0 4 / 2 ^ 17 % 2 ^ 13) s
      match decodeBlock (slotOf s) m (rawRead s off (blockTag m * 256)) with
      | some bs => ({ bytes := bs, pois := [], codec := false }, s)
      | none => ({ bytes := rawRead s off blockSize, pois := wordsOf off blockSize, codec := true }, codecDrop b s)
    else ({ bytes := rawRead s off blockSize, pois := wordsOf off blockSize, codec := false }, s)
  else ({ bytes := rawRead s off blockSize, pois := poisonIn s off blockSize, codec := false }, s)

/-- The tag of block b is gone: what it decodes to is stored raw (R279); one that does not decode is dropped (R276). -/
def rawBlock (b : Nat) (s : State) : State :=
  if blockCoded (blockMeta s b) then
    let (g, s) := readBlock b s
    if g.codec then s
    else
      let s := rawWrite (b * blockSize) g.bytes (setMeta b rawMeta s)
      if g.pois.isEmpty then s else { s with store := { s.store with poison := g.pois.foldl (fun m w => mset w () m) s.store.poison } }
  else s

/-- Read n bytes that lie in one block. -/
def readIn (off n : Nat) (s : State) : Got × State :=
  if blockCoded (blockMeta s (off / blockSize)) then
    let (g, s) := readBlock (off / blockSize) s
    ({ g with bytes := slice g.bytes (off % blockSize) n, pois := g.pois.filter fun w => (wordsOf off n).contains w }, s)
  else ({ bytes := rawRead s off n, pois := poisonIn s off n, codec := false }, s)

/-- Pieces of a range, each inside one block. -/
def blockPieces : Nat → Nat → Nat → List (Nat × Nat)
  | 0, _, _ => []
  | f + 1, off, n =>
    if n = 0 then []
    else
      let k := min n (blockSize - off % blockSize)
      (off, k) :: blockPieces f (off + k) (n - k)

def piecesOf (off n : Nat) : List (Nat × Nat) := blockPieces (n / blockSize + 2) off n

/-- Read n bytes at a hub-local offset that is known to exist. -/
def memRead (off n : Nat) (s : State) : Got × State :=
  (piecesOf off n).foldl (fun (acc : Got × State) pc =>
    let (g, s) := readIn pc.1 pc.2 acc.2
    ({ bytes := acc.1.bytes ++ g.bytes, pois := acc.1.pois ++ g.pois, codec := acc.1.codec || g.codec }, s))
    ({ bytes := [], pois := [], codec := false }, s)

/-! Counting (R71) -/

/-- Units of 256 B that n bytes touch. -/
def units256 (off n : Nat) : Nat := if n = 0 then 0 else (off + n - 1) / 256 + 1 - off / 256

/-- Count an access to its page: STREAM allocations and SEQUENTIAL pages do not count (Table 2-1, Table 2-4). -/
def countAccess (off n : Nat) (isWrite : Bool) (s : State) : State :=
  match pageAt s off with
  | none => s
  | some p =>
    if fStream (flagsAt s off) || p.seqAdvice then s
    else
      let u := units256 off n
      pageMod (off / pageSize) (fun p => { p with acc := min (p.acc + u) 65535, wrc := if isWrite then min (p.wrc + u) 65535 else p.wrc }) s

/-- A read of a layer of a projected allocation that is not resident in the window is counted (R67). -/
def projMissed (off n : Nat) (s : State) : State :=
  match allocAt s off with
  | none => s
  | some a =>
    match mget a s.store.projs, allocOf s a with
    | some pr, some al =>
      let o := off - al.base * pageSize
      let missed := fun e : (Nat × Nat) × Nat => overlap e.1.1 e.1.2 o n && !pr.resident.any fun r => r.2 == e.2
      if pr.running && pr.layers.zipIdx.any missed then bump Reg.projMiss al.part s else s
    | _, _ => s

/-- Count a read: its page's counter, and a projected layer that is not resident. -/
def countRead (off n : Nat) (s : State) : State := projMissed off n (countAccess off n false s)

/-! Writes -/

/-- Tiers that hold compressed blocks (R277). -/
def codecTier (t : Nat) : Bool := t == 1 || t == 2 || t == 3 || t == 5

/-- A block the codec may compress (R266, R277). -/
def squeezable (s : State) (b : Nat) : Bool :=
  fSqueeze (flagsAt s (b * blockSize)) && codecTier (tierAt s (b * blockSize))

/-- Lane of a block on the memory path (R290). -/
def laneOf (b : Nat) : Nat := b % 32

/-- Lane that a SQUEEZE on a queue uses for block b: one of all 32 with span 64, else one of the 8 of the home reel's studio (R283), by block number
(DEDUCED from R290, log entry 172). -/
def sqLane (q span b : Nat) : Nat := if span = 3 then b % 32 else q / 64 / 16 * 8 + b % 8

def laneJobs (s : State) (l : Nat) : List LaneJob := mgetD [] l s.eng.lanes

def setJobs (l : Nat) (js : List LaneJob) (s : State) : State := { s with eng := { s.eng with lanes := mput [] l js s.eng.lanes } }

/-- A whole-block write is queued for inline encoding where that is enabled; a full queue leaves it raw (R279, R291). -/
def inlineQueue (b : Nat) (s : State) : State :=
  let part := partAt s (b * blockSize)
  let c := rget s Reg.codecInline part
  if squeezable s b && rbit s Reg.codecCfg 0 1 && bit c 0 && !unitStopped s 5 (some part) then
    let js := laneJobs s (laneOf b)
    if js.length < 64 then
      setJobs (laneOf b) (js ++ [{ block := b, part := part, codec := fld c 1 2, slot := fld c 3 3, fmt := fld c 6 4, disturbed := false }]) s
    else bump Reg.codecBusyRaw part s
  else s

/-- Whether a range meets the row of a key. -/
def meetsRow (s : State) (off n k : Nat) : Bool :=
  match mget (k / 2 ^ 40) s.eng.tables with
  | some t => overlap (rowOffset s t (k % 2 ^ 40)) (rowWidth t.image) off n
  | none => false

/-- A write to a row that is being copied disturbs the copy where the copy has read the row already (R88): a free choice. -/
def disturbRows (off n : Nat) (s : State) : State :=
  (s.rows.moves.filter fun m => meetsRow s off n m.1).foldl (fun s m =>
    let (late, s) := drawBit s
    if late then { s with rows := { s.rows with moves := mmod m.1 (fun x => { x with disturbed := true, ready := false }) s.rows.moves } } else s) s

/-- A write to block b disturbs a queued encode of it, unless the lane has not yet read the block: which is free. -/
def disturbJobs (b : Nat) (s : State) : State :=
  if (laneJobs s (laneOf b)).any fun j => j.block == b then
    let (hit, s) := drawBit s
    setJobs (laneOf b) ((laneJobs s (laneOf b)).map fun j => if j.block = b then { j with disturbed := j.disturbed || hit } else j) s
  else s

/-- A write applied to block b disturbs its encode (R281) and the copies of the rows in it (R88), sets DIRTY (R490)
and, where a pass of a move has read the block already (a free choice), dirties it in that pass (R80). -/
def noteWrite (off n : Nat) (s : State) : State :=
  let b := off / blockSize
  let pg := off / pageSize
  let s := disturbJobs b s
  let s := disturbRows off n s
  let s := pageMod pg (fun p => { p with dirty := true }) s
  match mget pg s.store.moves with
  | none => s
  | some _ =>
    let (hit, s) := drawBit s
    if hit then moveMod pg (fun m => { m with dirty := (b % 512) :: m.dirty.filter (· ≠ b % 512), ready := false }) s else s

/-- Write into one block: a whole block is stored raw; a partial write to a compressed block is merged raw, or dropped
when the block does not decode (R279). True where it was applied. -/
def writeIn (off : Nat) (cs : List (Option Byte)) (s : State) : Bool × State :=
  let b := off / blockSize
  let whole := cs.length == blockSize && cs.all Option.isSome
  if pageLost s off then (false, s)
  else
    let apply := fun s : State => noteWrite off cs.length ((if cs.all Option.isSome then clearPoison off cs.length else id) (rawCells off cs s))
    if whole then (true, inlineQueue b (apply (setMeta b rawMeta s)))
    else if (readBlock b s).1.codec then (false, rawBlock b s)
    else (true, apply (rawBlock b s))

/-- Pieces of a list of cells along the blocks they lie in. -/
def cellPieces (off : Nat) (cs : List (Option Byte)) : List (Nat × List (Option Byte)) :=
  (piecesOf off cs.length).map fun pc => (pc.1, (cs.drop (pc.1 - off)).take pc.2)

/-- Write cells at a hub-local offset that is known to exist. -/
def memWrite (off : Nat) (cs : List (Option Byte)) (s : State) : Bool × State :=
  (cellPieces off cs).foldl (fun acc pc => let r := writeIn pc.1 pc.2 acc.2; (acc.1 && r.1, r.2)) (true, s)

/-- Write bytes. -/
def memPut (off : Nat) (bs : List Byte) (s : State) : Bool × State := memWrite off (bs.map some) s

/-- Mark as poison the words of a list that lie in a range (R477, R478). -/
def poisonWords (ws : List Nat) (s : State) : State := ws.foldl (fun s w => if wordPoison s w then s else markPoison (8 * w) 8 s) s

/-! What a write meets first -/

/-- What holds a write back or turns it away at its page. -/
inductive Gate where
  | go
  | hold            -- a held pass (R83, R487)
  | snapWait        -- copy-on-write finds no capacity (R493)
  | refused         -- the projector runs (R68)
  | roDropped       -- a read-only die, no other place (R487)
  deriving DecidableEq, Repr

/-- A projector runs on the allocation. -/
def projRunning (s : State) (a : Nat) : Bool := match mget a s.store.projs with | some p => p.running | none => false

/-- The tier that can take a copied page: the fastest its mask permits with free capacity (R493). -/
def cowTier (s : State) (pg : Nat) : Option Nat :=
  let mask := fMask (flagsAt s (pg * pageSize))
  tiersBySpeed.find? fun t => mask.testBit t && decide (0 < tierFree s t)

/-- A captured page not yet streamed and not yet copied (R493). -/
def snapPending (s : State) (pg : Nat) : Bool :=
  match s.rel.snap with
  | some sn => sn.left.contains pg && !sn.copies.any fun c => c.page == pg
  | none => false

def writeGate (s : State) (off : Nat) : Gate :=
  let pg := off / pageSize
  if (match allocAt s off with | some a => projRunning s a | none => false) then .refused
  else if (match mget pg s.store.moves with | some m => m.heldPass | none => false) then .hold
  else if (match pageAt s off with | some p => (match p.loc with | .die ch d => dieRo s ch d | _ => false) | none => false) then .roDropped
  else if snapPending s pg && (cowTier s pg).isNone then .snapWait
  else .go

/-- The blocks of a page that do not decode are dropped where its content is read (R276). -/
def settlePage (pg : Nat) (s : State) : State :=
  (s.store.blk.filter fun c => decide (c.1 / 512 = pg) && blockCoded c.2).foldl (fun s c => (readBlock c.1 s).2) s

/-- Logical content of a page: its non-zero bytes and its poisoned words, compressed blocks decoded. -/
def pageContent (s : State) (pg : Nat) : List (Nat × Byte) × List Nat :=
  let lo := pg * pageSize
  let raw := s.store.mem.filter fun c => decide (lo ≤ c.1) && decide (c.1 < lo + pageSize) && !blockCoded (blockMeta s (c.1 / blockSize))
  let coded := s.store.blk.filter fun c => decide (c.1 / 512 = pg) && blockCoded c.2
  let more := coded.map fun c =>
    let g := (readBlock c.1 s).1
    ((g.bytes.zipIdx.map fun e => (c.1 * blockSize + e.2, e.1)).filter (fun e => e.2 != 0), g.pois)
  let pois := (s.store.poison.filter fun c => decide (lo ≤ 8 * c.1) && decide (8 * c.1 < lo + pageSize)).map (·.1)
  (raw ++ (more.map (·.1)).flatten, if pageLost s lo then wordsOf lo pageSize else pois ++ (more.map (·.2)).flatten)

/-- Copy a captured page before the write that would change it (R493). -/
def copyOnWrite (pg : Nat) (s : State) : State :=
  match s.rel.snap, snapPending s pg, cowTier s pg with
  | some sn, true, some t =>
    let s := settlePage pg s
    let (cells, pois) := pageContent s pg
    { s with rel := { s.rel with snap := some { sn with copies := sn.copies ++ [{ page := pg, tier := t, cells := cells, poison := pois }] } } }
  | _, _, _ => s

/-- A write of cells that its gates let through and that no rule counts: copy-on-write first (R493). -/
def placeCells (off : Nat) (cs : List (Option Byte)) (s : State) : Bool × State :=
  memWrite off cs (if off < stageBase then copyOnWrite (off / pageSize) s else s)

/-- A write of cells that its gates let through, and its count (R71). -/
def storeCells (off : Nat) (cs : List (Option Byte)) (s : State) : Bool × State :=
  let s := if off < stageBase then copyOnWrite (off / pageSize) s else s
  memWrite off cs (countAccess off cs.length true s)

/-! Memory errors (Table 14-3) -/

/-- Count a corrected error of a unit in this tick (R499). -/
def noteCe (medium unit : Nat) (s : State) : State :=
  let k := medium * 65536 + unit
  { s with rel := { s.rel with ceTick := mset k (mgetD 0 k s.rel.ceTick + 1) s.rel.ceTick } }

/-- Flash channel and die of an offset. -/
def dieAt (s : State) (off : Nat) : Option (Nat × Nat) :=
  match pageAt s off with | some p => (match p.loc with | .die ch d => some (ch, d) | _ => none) | none => none

/-- Where an error lies that an access to an offset met: in a compressed block anywhere in the bytes it stores, all of which are fetched (R275). -/
def errorAt (off : Nat) (s : State) : Nat × State :=
  let b := off / blockSize
  if blockCoded (blockMeta s b) then
    let (i, s) := drawBelow (max 1 (blockTag (blockMeta s b) * 32)) s
    (b * blockSize + 8 * i, s)
  else (off, s)

/-- What the check of the memory that holds an offset found (R481, R489); the metadata byte of a block lies in that memory too (R292). Which HBM stack
or DDR channel holds it no register reports (R374): a free choice. -/
def mediaFound (at_ : Nat) (m : Media) (s : State) : State :=
  let t := tierAt s at_
  let (off, s) := if m = .good then (at_, s) else errorAt at_ s
  let lost := fun (s : State) => trigger 2 (w64 (off % 2 ^ 50 + mediumOf t * 2 ^ 60)) (some (partAt s off)) 0 (markPoison off 1 s)
  match t, m with
  | _, .good => s
  | 0, .corrected => noteCe 0 0 (bump Reg.stageCe 0 s)
  | 0, _ => lost (bump Reg.stageUe 0 s)
  | 1, .corrected => let (u, s) := drawBelow 8 s; noteCe 1 u (bump (Reg.hbmCe + 4 * u) 0 s)
  | 1, _ => let (u, s) := drawBelow 8 s; lost (bump (Reg.hbmUe + 4 * u) 0 s)
  | 2, .corrected => let (u, s) := drawBelow 12 s; noteCe 2 u (bump (Reg.ddrCe + 4 * u) 0 s)
  | 2, _ => let (u, s) := drawBelow 12 s; lost (bump (Reg.ddrUe + 4 * u) 0 s)
  | 3, m =>
    let ch := match dieAt s off with | some (c, _) => c | none => 0
    match m with
    | .corrected => noteCe 3 ch (bump Reg.flcRetried ch s)
    | .crcFailed => lost (bump Reg.flcCrc ch s)
    | _ => lost (bump Reg.flcUe ch s)
  | _, .corrected => s
  | _, _ => lost s

end Sys2Proof.Machine
end

