-- ==== Sys2Proof/Machine/Coh.lean ====
section
/-! DEFINITION. The continuity directory (chapter 9): slots, entries, recalls, the transactions of Table 9-5 and what an
access must recall first. A line is numbered by its hub-local offset bits 49:6. -/

namespace Sys2Proof.Machine

open Sys2Proof

/-! Message codes (Table 10-5) and GRANT values (R361) -/

def tRDSHARED : Nat := 0x20
def tRDOWN : Nat := 0x21
def tUPGRADE : Nat := 0x22
def tWRBACK : Nat := 0x23
def tWRBACKS : Nat := 0x24
def tEVICT : Nat := 0x25
def tRECALLINV : Nat := 0x28
def tRECALLSHARE : Nat := 0x29
def tFORWARD : Nat := 0x2A
def tDATA : Nat := 0x2C
def tCMP : Nat := 0x2D
def tGRANTACK : Nat := 0x2E
def tRECALLACK : Nat := 0x2F

def gI : Nat := 0
def gS : Nat := 1
def gE : Nat := 2
def gM : Nat := 3

/-! Slots (R321, R322) -/

def cohSlot (s : State) (n : Nat) : Option Slot := mget n s.coh.slots

def slotLost (s : State) (n : Nat) : Bool := match cohSlot s n with | some x => x.lost | none => true

def slotKind (s : State) (n : Nat) : Nat := match cohSlot s n with | some x => x.kind | none => 0

/-- The slot of an identity. -/
def slotOfId (s : State) (kind ep : Nat) : Option Nat :=
  (s.coh.slots.find? fun e => e.2.kind == kind && e.2.ep == ep).map (·.1)

/-- The slots an endpoint's messages may speak for (R322): a caching accelerator's, else those of the hosts whose sled's hub it is. -/
def slotsOfEp (s : State) (ep : Nat) : List Nat :=
  match slotOfId s 0 ep with
  | some n => [n]
  | none => (slotOfId s 1 ep).toList ++ (slotOfId s 2 ep).toList

/-- The slot of a message's sender. A message names no KIND: where the hub at its endpoint has a slot for each of two hosts, which of them speaks is a
free choice (log entry 24). -/
def senderSlot (ep : Nat) (s : State) : Option Nat × State :=
  match slotsOfEp s ep with
  | [] => (none, s)
  | [n] => (some n, s)
  | n :: ns => let (i, s) := drawBelow (ns.length + 1) s; (some ((n :: ns).getD i n), s)

/-- The slot of this hub's own host on a port. -/
def slotOfHost (s : State) (hp : Nat) : Option Nat := slotOfId s (hp + 1) (selfEp s)

def slotMod (n : Nat) (f : Slot → Slot) (s : State) : State := { s with coh := { s.coh with slots := mmod n f s.coh.slots } }

/-! Lines and entries (R325) -/

def lineOf (off : Nat) : Nat := off / 64

/-- The lines of a range. -/
def linesOf (off n : Nat) : List Nat := if n = 0 then [] else (List.range ((off + n - 1) / 64 + 1 - off / 64)).map (off / 64 + ·)

def dirEntry (s : State) (line : Nat) : Option DirEntry := mget line s.coh.dir

def owned (e : DirEntry) : Bool := e.st == LineState.e || e.st == LineState.m

/-- The recorded owner of a line in E or M. -/
def ownerOf (s : State) (line : Nat) : Option Nat :=
  match dirEntry s line with
  | some e => if owned e then e.sharers.head? else none
  | none => none

/-- Entries the directory region holds: 16 ways in each of size / 1,024 sets (R326). -/
def dirSets (s : State) : Nat := rfld s Reg.dirCfg 0 0 5 * 2 ^ 20

/-- Ways of a set (R326). -/
def dirWays : Nat := 16

/-- The set of a line (R326; the hash is not given, log entry 17). -/
def setOf (s : State) (line : Nat) : Nat := Config.dirSet line % max 1 (dirSets s)

/-- The number of a state in Table 9-1. -/
def LineState.code : LineState → Nat
  | .s => 1
  | .l => 2
  | .e => 3
  | .m => 4

/-- The 64 bytes of an entry as Table 9-1 lays them out. -/
def entryBits (line : Nat) (e : DirEntry) : BitVec 512 :=
  BitVec.ofNat 512 ((e.sharers.dedup.map fun n => 2 ^ n).sum + inFld 256 8 e.lead + inFld 264 3 e.st.code + inFld 268 44 line + inFld 312 8 e.age.toNat)

/-- Entries the directory cache holds, each 64 B of it one (R327). -/
def cacheCap (s : State) : Nat := rfld s Reg.dirCfg 0 8 8 * 16384

/-- An entry enters the directory cache; which one leaves a full cache is free (R327). -/
def cacheIn (line : Nat) (s : State) : State :=
  if s.coh.cache.contains line || cacheCap s = 0 then s
  else if s.coh.cache.length < cacheCap s then { s with coh := { s.coh with cache := line :: s.coh.cache } }
  else let (i, s) := drawBelow s.coh.cache.length s; { s with coh := { s.coh with cache := line :: s.coh.cache.eraseIdx i } }

def cacheOut (line : Nat) (s : State) : State := { s with coh := { s.coh with cache := s.coh.cache.erase line } }

/-- The entries of a line's set that were used after it was: they age by one as it becomes the last used (log entry 144). -/
def agedBy (s : State) (line : Nat) : NMap DirEntry :=
  let old := match dirEntry s line with | some e => e.age.toNat | none => 255
  mmapv (fun k e => if k ≠ line ∧ setOf s k = setOf s line ∧ e.age.toNat < old then { e with age := e.age + 1 } else e) s.coh.dir

/-- Put an entry, or free it where it records no sharer (R326). -/
def setEntry (line : Nat) (e : Option DirEntry) (s : State) : State :=
  match e with
  | some e =>
    if e.sharers.isEmpty then cacheOut line { s with coh := { s.coh with dir := mdel line s.coh.dir } }
    else cacheIn line { s with coh := { s.coh with dir := mset line { e with age := 0 } (agedBy s line) } }
  | none => cacheOut line { s with coh := { s.coh with dir := mdel line s.coh.dir } }

/-- An entry is used: it becomes the last used of its set. -/
def touchEntry (line : Nat) (s : State) : State :=
  match dirEntry s line with
  | some e => { s with coh := { s.coh with dir := mset line { e with age := 0 } (agedBy s line) } }
  | none => s

/-- An entry without some slots (rows EV, R336, R343): S when the lead went. -/
def without (gone : List Nat) (e : DirEntry) : DirEntry :=
  let sh := e.sharers.filter fun n => !gone.contains n
  { e with sharers := sh, st := if e.st == LineState.l && gone.contains e.lead then LineState.s else e.st }

/-- A lookup of a line's entry (R327): a hit where the directory cache holds it, else a miss, which reads the region in HBM. -/
def dirLookup (line : Nat) (s : State) : State :=
  if s.coh.cache.contains line then touchEntry line (bump Reg.dirHits 0 s)
  else
    let s := touchEntry line (bump Reg.dirMisses 0 s)
    if (dirEntry s line).isSome then cacheIn line s else s

/-! Transactions -/

def txnOf (s : State) (line : Nat) : Option Txn := s.coh.txns.find? fun t => t.line == line

def txnMod (line : Nat) (f : Txn → Txn) (s : State) : State :=
  { s with coh := { s.coh with txns := replaceFirst (fun t => t.line == line) f s.coh.txns } }

def closeTxn (line : Nat) (s : State) : State :=
  { s with coh := { s.coh with txns := s.coh.txns.filter fun t => t.line ≠ line } }

/-- A message of the home about a line (R361): SRC and TID are the home's. As TID it takes the slot that is asked, which the answer returns (DESIGN
CHOICE, log entry 24). -/
def homeMsg (s : State) (type ep line n : Nat) (arg : W64) : Packet := { mkPacket s type ep (w64 (line * 64)) arg [] with tid := BitVec.ofNat 18 n }

/-- Send a recall to the holder in a slot: an agent, a host of another sled through its hub, or this hub's host by
back-invalidation (R322, Table 9-4). -/
def sendRecall (line n : Nat) (share : Bool) (hpa : Nat) (s : State) : State :=
  match cohSlot s n with
  | none => s
  | some x =>
    let s := bump Reg.cohRecalls 0 s
    if x.kind ≠ 0 ∧ x.ep = selfEp s then emit (.cxlSnoop (x.kind - 1) hpa share) s
    else send (homeMsg s (if share then tRECALLSHARE else tRECALLINV) x.ep line n 0) s

/-- Forward a read to a lead or owner (R336): it sends Data to the requester's endpoint under the requester's tag. -/
def sendForward (line n freq ftid : Nat) (s : State) : State :=
  match cohSlot s n with
  | none => s
  | some x => send (homeMsg s tFORWARD x.ep line n (w64 (inFld 4 18 freq + inFld 22 18 ftid))) (bump Reg.cohRecalls 0 s)

/-- The host physical address under which port hp's decoders reach a hub-local offset of a home (R401, R402), for a
snoop: through the current sheet backwards. -/
def hpaOf (s : State) (hp home off : Nat) : Option Nat :=
  let cands := s.fab.current.entries.flatMap fun e =>
    let ws := e.2
    if !csValid ws || off < csLocal ws then []
    else if csIl ws then
      let set := csTarget ws % 256
      let w := max 1 (mgetD 1 set s.fab.current.widths)
      let q := (off - csLocal ws) / 4096
      (List.range w).filterMap fun i =>
        let fa := csBase ws + (q * w + i) * 4096 + off % 4096
        if csHome s.fab.current ws fa == (home, off) && decide (q * w + i < csLen ws) then some fa else none
    else if csTarget ws == home && decide (off - csLocal ws < 4096 * csLen ws) then [csBase ws + (off - csLocal ws)] else []
  let hits := cands.flatMap fun fa =>
    (s.host.hdm.filter fun d => d.1 / 8 == hp && d.2.committed && decide (d.2.fa ≤ fa) && decide (fa < d.2.fa + d.2.size)).map
      fun d => d.2.base + (fa - d.2.fa)
  hits.head?

/-- What a timed-out or lost holder leaves (R343 steps 2 and 3): a shared bit clears; an owned line becomes poison. -/
def holderLost (line n : Nat) (s : State) : State :=
  let s := bump Reg.cohTimeouts 0 s
  match dirEntry s line with
  | some e =>
    if owned e then
      let off := line * 64
      let s := trigger 4 (w64 (off + n * 2 ^ 52)) (some (partAt s off)) n (bump Reg.cohPoisoned (partAt s off) (markPoison off 64 s))
      txnMod line (fun t => { t with lost := true }) (setEntry line none s)
    else txnMod line (fun t => { t with gone := n :: t.gone }) (setEntry line (some (without [n] e)) s)
  | none => s

/-- Edges a recall may wait, sampled when it is sent (R342). -/
def recallTmo (s : State) : Nat := max 1 (rfld s Reg.cohCfg 0 8 4)

/-- Recall some holders of a line; LOST slots count as timed out at once (R344). -/
def recallAll (line : Nat) (share : Bool) (ns : List Nat) (s : State) : State :=
  ns.foldl (fun s n =>
    if slotLost s n then holderLost line n s
    else
      let s := sendRecall line n share ((hpaOf s (slotKind s n - 1) (selfEp s) (line * 64)).getD 0) s
      txnMod line (fun t => { t with await := t.await ++ [(n, recallTmo s)] }) s) s

/-- A transaction before its recalls. -/
def newTxn (line : Nat) (row : TxnRow) (req : Option CohReq) (slot : Option Nat) : Txn :=
  { line := line, row := row, req := req, slot := slot, await := [], gone := [], forward := false, withData := true,
    grantAck := false, next := none, lost := false, early := false, wrote := false, grace := false }

/-- Open transactions that the home holds at most (R334). -/
def txnCap : Nat := 16384

def txnRoom (s : State) : Bool := decide (s.coh.txns.length < txnCap)

def openTxn (t : Txn) (s : State) : State := { s with coh := { s.coh with txns := s.coh.txns ++ [t] } }

/-- The line as memory holds it: 64 bytes, and whether it is poison. -/
def lineData (line : Nat) (s : State) : List Byte × Bool × State :=
  let (g, s) := memRead (line * 64) 64 s
  let (bs, s) := hidePoison (line * 64) g.pois g.bytes s
  (bs, !g.pois.isEmpty, countSent g.pois s)

/-- The grant a host gets: ownership is granted with Cmp-E (Table 9-4). -/
def hostGrant (g : Nat) : Nat := if g = gM then gE else g

/-- Send the requester its grant: Data, or Cmp where it needs no data. A host of this hub gets its CXL.mem answer. -/
def sendGrant (req : CohReq) (grant line : Nat) (withData : Bool) (s : State) : State :=
  match req with
  | .agent _ p _ =>
    if withData then
      let (bs, bad, s) := lineData line s
      send { answer s p tDATA (w64 (line * 64)) (w64 grant) bs with pois := w64 (b2n bad) } s
    else send (answer s p tCMP (w64 (line * 64)) (w64 grant) []) s
  | .host hp _ _ _ tag _ _ _ =>
    if withData then
      let (bs, bad, s) := lineData line s
      emit (.cxlData hp tag bs bad (hostGrant grant)) s
    else emit (.cxlCmp hp tag (hostGrant grant)) s
  | _ => s

/-- The identity that a request's packet or port carries. -/
def reqEp : CohReq → Option (Nat × Nat)
  | .agent _ p _ => some (p.src.toNat, p.tid.toNat)
  | _ => none

/-- Close the transaction of a line: its entry takes the next state. -/
def endTxn (line : Nat) (s : State) : State :=
  match txnOf s line with
  | some t => setEntry line t.next (closeTxn line s)
  | none => s

/-- Grant and, for a fabric agent, await its GrantAck (R332). -/
def grantTxn (line : Nat) (grant : Nat) (withData : Bool) (next : Option DirEntry) (s : State) : State :=
  match txnOf s line with
  | none => s
  | some t =>
    match t.req with
    | none => endTxn line (txnMod line (fun t => { t with next := next }) s)
    | some r =>
      let s := sendGrant r grant line withData s
      match r with
      | .agent _ _ _ => txnMod line (fun t => { t with next := next, grantAck := true, await := [] }) s
      | _ => endTxn line (txnMod line (fun t => { t with next := next }) s)

def lead (x : Nat) (sh : List Nat) : DirEntry := { st := .l, lead := x, sharers := sh, age := 0 }
def shared (sh : List Nat) : DirEntry := { st := .s, lead := 0, sharers := sh, age := 0 }
def excl (x : Nat) : DirEntry := { st := .e, lead := 0, sharers := [x], age := 0 }
def modif (x : Nat) : DirEntry := { st := .m, lead := 0, sharers := [x], age := 0 }

/-- Put a slot into a sharer list. -/
def addSharer (x : Nat) (sh : List Nat) : List Nat := if sh.contains x then sh else x :: sh

/-- After every answer has come: the next state of Table 9-5 and the grant. A lost line is granted I with poison (R343). -/
def resolveTxn (line : Nat) (s : State) : State :=
  match txnOf s line with
  | none => s
  | some t =>
    if !t.await.isEmpty || t.grantAck then s
    else if t.lost then
      match t.req, t.row with
      | some r, .rs => closeTxn line (sendGrant r gI line true s)
      | some r, .hs => closeTxn line (sendGrant r gI line true s)
      | some r, .ow => closeTxn line (sendGrant r gI line true s)
      | _, _ => closeTxn line s
    else
      let x := t.slot.getD 0
      let e := dirEntry s line
      let held := match e with | some e => (without t.gone e).sharers | none => []
      let others := held.filter (· ≠ x)
      match t.row with
      | .rs =>
        if t.early then endTxn line (txnMod line (fun t => { t with next := some (lead x (addSharer x held)) }) (bump Reg.cohForwards 0 s))
        else if t.forward && t.gone.isEmpty then
          txnMod line (fun t => { t with next := some (lead x (addSharer x held)), grantAck := true }) (bump Reg.cohForwards 0 s)
        else grantTxn line gS true (some (lead x (addSharer x held))) s
      | .hs =>
        let prevOwned := match e with | some e => owned e | none => false
        let next :=
          match others with
          | y :: _ => if prevOwned then (if slotKind s y = 0 then lead y (addSharer x held) else shared (addSharer x held))
                      else (match e with | some e => { without t.gone e with sharers := addSharer x held } | none => shared [x])
          | [] => shared [x]
        grantTxn line gS true (some next) s
      | .ow => grantTxn line gM t.withData (some (modif x)) s
      | .ur =>
        match others ++ (held.filter (· = x)) with
        | y :: ys => endTxn line (txnMod line (fun t => { t with next := some (if slotKind s y = 0 then lead y (y :: ys) else shared (y :: ys)) }) s)
        | [] => endTxn line s
      | .iw => endTxn line s
      | .de =>
        let keep := match e with | some e => some (without (t.gone) e) | none => none
        endTxn line (txnMod line (fun t => { t with next := keep }) s)

/-! Accesses in flight when their page was lost (R52) -/

/-- Run f as if no page of a range were lost, for an access that was in flight when it was; what f leaves waiting keeps that standing. -/
def graced (g : Bool) (off n : Nat) (f : State → State) (s : State) : State :=
  if !g then f s
  else
    let pgs := (List.range ((off + n - 1) / pageSize + 1 - off / pageSize)).map (off / pageSize + ·) |>.filter fun pg => pageLost s (pg * pageSize)
    let before := s.coh.waiting.length
    let s := f (pgs.foldl (fun s pg => pageMod pg (fun p => { p with lost := false }) s) s)
    let s := pgs.foldl (fun s pg => pageMod pg (fun p => { p with lost := true }) s) s
    { s with coh := { s.coh with waiting := s.coh.waiting.zipIdx.map fun w => if before ≤ w.2 then { w.1 with grace := true } else w.1 } }

/-- A line written with poison by its agent is poison (R477). -/
def hurtLine (line : Nat) (bad : Bool) (s : State) : State := if bad then poisonWords (wordsOf (line * 64) 64) s else s

/-- What an answer from a slot does to its transaction: data is taken back into memory, a slot that does not hold the line loses its bit
(R336, R338). For a recall to invalidate, every answering slot loses it. -/
def answerTaken (line n : Nat) (t : Txn) (notHeld : Bool) (dirty : Option (List Byte × Bool)) (s : State) : State :=
  let s := match dirty with | some d => hurtLine line d.2 (memPut (line * 64) d.1 (copyOnWrite (line * 64 / pageSize) s)).2 | none => s
  let s := if notHeld then bump Reg.cohNotHeld 0 s else s
  let drop := notHeld || t.row == TxnRow.ow || t.row == TxnRow.iw || t.row == TxnRow.de
  let s := txnMod line (fun t => { t with await := t.await.filter fun a => a.1 ≠ n, gone := if drop then n :: t.gone else t.gone }) s
  resolveTxn line s

/-- An answer from a slot for a line, where one is awaited. -/
def recallAnswer (line n : Nat) (notHeld : Bool) (dirty : Option (List Byte × Bool)) (s : State) : State :=
  match txnOf s line with
  | none => s
  | some t => if t.await.any fun a => a.1 = n then graced t.grace (line * 64) 64 (answerTaken line n t notHeld dirty) s else s

/-- A holder times out (R343). -/
def recallTimedOut (line n : Nat) (s : State) : State :=
  match txnOf s line with
  | none => s
  | some t =>
    if t.await.any fun a => a.1 = n then
      let s := slotMod n (fun x => { x with lost := true }) s
      graced t.grace (line * 64) 64 (fun s =>
        resolveTxn line (holderLost line n (txnMod line (fun t => { t with await := t.await.filter fun a => a.1 ≠ n }) s))) s
    else s

/-! What an access meets -/

/-- The offset of a coherence message's line (R361). -/
def msgOff (p : Packet) : Nat := p.addr.toNat % 2 ^ 50 / 64 * 64

/-- Bytes that a host access returns or writes. -/
def opLen : HostOp → Nat
  | .read n => n.val
  | .write d => d.length
  | .fetchAdd s8 _ => if s8 then 8 else 4
  | .swap s8 _ => if s8 then 8 else 4
  | .cas s8 _ _ => if s8 then 8 else 4
  | .cas128 => 16

/-- Operand size of an ATOMIC (R362). -/
def atomicSize (p : Packet) : Nat := if bit p.arg 4 then 8 else 4

/-- Bytes of its target that a packet reads or writes. -/
def packetSpan (p : Packet) : Nat :=
  if p.type.toNat = tRD then p.len.toNat else if p.type.toNat = tATOMIC then atomicSize p
  else if p.type.toNat = tCUE then 8 else if p.zip then blockSize else p.payload.length

/-- The offset and the length of what a request touches. -/
def CohReq.range : CohReq → Nat × Nat
  | .agent _ p _ => (msgOff p, 64)
  | .host _ _ line _ _ _ _ _ => (line * 64, 64)
  | .packet _ p => (p.addr.toNat, packetSpan p)
  | .bar2 _ off op => (off, opLen op)
  | .cue _ p => (p.addr.toNat, 8)

/-- Whether a request touches a line. -/
def CohReq.covers (r : CohReq) (line : Nat) : Bool := overlap r.range.1 r.range.2 (line * 64) 64

/-- Whether two requests touch a line in common. -/
def CohReq.meets (a b : CohReq) : Bool := (linesOf a.range.1 a.range.2).any b.covers

/-- Lines under a range walk are served uncached (R323). -/
def underWalk (s : State) (off : Nat) : Bool := s.coh.walks.any fun w => decide (w.lo ≤ off) && decide (off < w.hi) && !(w.lo == 0 && w.hi == stageBase && w.slot.isSome)

/-- A request for a line already waits. -/
def waitedFor (s : State) (line : Nat) : Bool := s.coh.waiting.any fun w => w.req.covers line

/-- A line that an access must wait for: a transaction is open, or a request already waits (R334). -/
def lineBusy (s : State) (line : Nat) : Bool := (txnOf s line).isSome || waitedFor s line

/-- The slot whose own copy an uncached read need not recall: a requester found recorded as owner has dropped the line (R335). An ordinary RD
comes from the agent at its SRC where that is a caching accelerator. -/
def readerSlot (s : State) : CohReq → Option Nat
  | .agent _ _ x => x
  | .host hp _ _ _ _ _ _ _ => slotOfHost s hp
  | .packet _ p => slotOfId s 0 p.src.toNat
  | _ => none

/-- The holders an uncached read must recall: an owner in E or M other than the reader (row UR). -/
def readRecalls (s : State) (x : Option Nat) (line : Nat) : List Nat :=
  match dirEntry s line with | some e => if owned e then e.sharers.filter fun n => some n ≠ x else [] | none => []

/-- The holders an invalidating write must recall: all (row IW). -/
def writeRecalls (s : State) (line : Nat) : List Nat :=
  match dirEntry s line with | some e => e.sharers | none => []

/-- The holders an access must recall. -/
def recallsOf (s : State) (isWrite : Bool) (x : Option Nat) (line : Nat) : List Nat := if isWrite then writeRecalls s line else readRecalls s x line

/-- Look up the lines of a range in the directory; a line of an allocation without COHERENT has no entry, and none is looked up (log entry 144). -/
def lookups (off n : Nat) (s : State) : State := if fCoherent (flagsAt s off) then (linesOf off n).foldl (fun s line => dirLookup line s) s else s

/-- Open the recalls an access to a range needs, as far as the home has room for transactions. -/
def startRecalls (off n : Nat) (isWrite : Bool) (x : Option Nat) (s : State) : State :=
  (linesOf off n).foldl (fun s line =>
    if (txnOf s line).isSome || !txnRoom s then s
    else
      let hs := recallsOf s isWrite x line
      if hs.isEmpty then s
      else resolveTxn line (recallAll line (!isWrite) hs (openTxn (newTxn line (if isWrite then .iw else .ur) none none) s))) s

/-- The first line of a range that an access must wait for, an open transaction or holders still recorded. -/
def blockedLine (s : State) (off n : Nat) (isWrite : Bool) (x : Option Nat) : Option Nat :=
  (linesOf off n).find? fun line => (txnOf s line).isSome || !(recallsOf s isWrite x line).isEmpty

/-- Let a request wait behind a line (R334). -/
def waitOn (line : Nat) (r : CohReq) (s : State) : State :=
  { s with coh := { s.coh with waiting := s.coh.waiting ++ [{ on := some line, req := r, grace := false }] } }

/-- Hold a request back until the home has room for a transaction (R334). -/
def waitRoom (r : CohReq) (s : State) : State :=
  { s with coh := { s.coh with waiting := s.coh.waiting ++ [{ on := none, req := r, grace := false }] } }

/-- Go on unless a request that came earlier waits for a line of the range: requests to one line keep their order (R334). One that comes from the
waiting list has had its turn. -/
def inTurn (off n : Nat) (fromQueue : Bool) (r : CohReq) (f : State → State) (s : State) : State :=
  match if fromQueue then none else (linesOf off n).find? (waitedFor s) with
  | some line => waitOn line r s
  | none => f s

/-- Run f now when nothing of the range must be recalled or waited for; otherwise start the recalls and wait. -/
def coherent (off n : Nat) (isWrite fromQueue : Bool) (r : CohReq) (f : State → State) (s : State) : State :=
  inTurn off n fromQueue r (fun s =>
    let x := readerSlot s r
    let s := startRecalls off n isWrite x (if fromQueue then s else lookups off n s)
    match blockedLine s off n isWrite x with
    | some line => if (txnOf s line).isSome then waitOn line r s else waitRoom r s
    | none => f s) s

/-! Evictions (R326) -/

/-- Lines of a line's set that have an entry, or will get one from an open transaction. -/
def setUsed (s : State) (line : Nat) : Nat :=
  (s.coh.dir.filter fun e => setOf s e.1 == setOf s line).length
    + (s.coh.txns.filter fun t => setOf s t.line == setOf s line && t.slot.isSome && (dirEntry s t.line).isNone).length

/-- The victim of a full set: least recently used, held by no transaction. -/
def dirVictim (s : State) (line : Nat) : Option Nat :=
  let free := s.coh.dir.filter fun e => setOf s e.1 == setOf s line && (txnOf s e.1).isNone
  (free.find? fun e => free.all fun f => decide (f.2.age.toNat ≤ e.2.age.toNat)).map (·.1)

/-- Evict a line: recall every copy (row DE). -/
def evictLine (line : Nat) (s : State) : State :=
  match dirEntry s line with
  | none => s
  | some e => resolveTxn line (recallAll line false e.sharers (openTxn (newTxn line .de none none) (bump Reg.dirEvictions 0 s)))

/-- A request that needs an entry in a full set evicts the victim and waits for it (R326); where transactions hold every way it waits for one of
them. True where it may go on. -/
def roomFor (line : Nat) (r : CohReq) (s : State) : Bool × State :=
  if (dirEntry s line).isSome || decide (setUsed s line < dirWays) then (true, s)
  else
    match dirVictim s line with
    | none => (false, match s.coh.txns.find? fun t => setOf s t.line == setOf s line with | some t => waitOn t.line r s | none => waitRoom r s)
    | some v =>
      if !txnRoom s then (false, waitRoom r s)
      else
        let s := evictLine v s
        if (dirEntry s v).isSome then (false, waitOn v r s) else (true, s)

/-- A caching request runs its transaction once its line is free, the home has room for a transaction, and its set for an entry (R326, R334). -/
def caching (line : Nat) (fromQueue : Bool) (r : CohReq) (f : State → State) (s : State) : State :=
  if (txnOf s line).isSome || (!fromQueue && waitedFor s line) then waitOn line r s
  else if !txnRoom s then waitRoom r s
  else
    match roomFor line r s with
    | (true, s) => f (dirLookup line s)
    | (false, s) => s

/-! Requests of caching agents (Table 9-5) -/

/-- Whether a caching request may be granted a state (R323). -/
def cacheable (s : State) (off : Nat) (slot : Option Nat) : Bool :=
  match slot with
  | none => false
  | some n => !slotLost s n && fCoherent (flagsAt s off) && !underWalk s off && !fatal s

/-- A shared read of slot x (rows RS, HS). -/
def sharedRead (line x : Nat) (host : Bool) (r : CohReq) (s : State) : State :=
  let s := openTxn (newTxn line (if host then .hs else .rs) (some r) (some x)) s
  let fwd := rbit s Reg.cohCfg 0 0
  let eEn := rbit s Reg.cohCfg 0 1
  let fresh := fun s : State =>
    if host then grantTxn line gS true (some (shared [x])) s
    else if eEn then grantTxn line gE true (some (excl x)) s
    else grantTxn line gS true (some (lead x [x])) s
  let (fep, ftid) := (reqEp r).getD (0, 0)
  match dirEntry s line with
  | none => fresh s
  | some e =>
    if owned e then
      let y := e.sharers.headD x
      if y = x then fresh s
      else if !host && slotKind s y == 0 && !slotLost s y then
        txnMod line (fun t => { t with forward := true, await := [(y, recallTmo s)] }) (sendForward line y fep ftid s)
      else resolveTxn line (recallAll line true [y] s)
    else if !host && e.st == LineState.l && e.lead != x && fwd then
      if slotLost s e.lead then resolveTxn line (holderLost line e.lead s)
      else txnMod line (fun t => { t with forward := true, await := [(e.lead, recallTmo s)] }) (sendForward line e.lead fep ftid s)
    else resolveTxn line s

/-- An ownership request of slot x (row OW); an Upgrade or MemInv still listed needs no data (R337). -/
def ownRead (line x : Nat) (upgrade : Bool) (r : CohReq) (s : State) : State :=
  let listed := match dirEntry s line with | some e => !owned e && e.sharers.contains x | none => false
  let s := openTxn { newTxn line .ow (some r) (some x) with withData := !(upgrade && listed) } s
  let others := match dirEntry s line with | some e => e.sharers.filter (· ≠ x) | none => []
  resolveTxn line (recallAll line false others s)

/-- A write-back of slot x (rows WB, WS); true where x is the recorded owner. -/
def writeBack (line x : Nat) (keep : Bool) (data : List (Option Byte)) (s : State) : Bool × State :=
  if ownerOf s line = some x ∧ !slotLost s x then
    let s := (storeCells (line * 64) data s).2
    let next := if keep then some (if slotKind s x = 0 then lead x [x] else shared [x]) else none
    (true, setEntry line next s)
  else (false, bump Reg.cohStaleWb 0 s)

/-- An Evict notice of slot x (row EV). -/
def evictNotice (line x : Nat) (s : State) : State :=
  match dirEntry s line with
  | some e =>
    if owned e then (if e.sharers.head? = some x then setEntry line none s else s)
    else setEntry line (some (without [x] e)) s
  | none => s

/-! Walks (R346) -/

/-- Whether an open transaction may leave a copy that a walk's criterion matches: its grant is recorded only when it ends. -/
def walkAwaits (w : Walk) (t : Txn) : Bool :=
  decide (w.lo ≤ t.line * 64) && decide (t.line * 64 < w.hi) &&
    match w.slot with
    | some n => t.slot == some n || (match t.next with | some e => e.sharers.contains n | none => false)
    | none => t.slot.isSome

/-- The entries a walk recalls, and for each the slots. -/
def walkHits (s : State) (w : Walk) : List (Nat × List Nat) :=
  s.coh.dir.filterMap fun e =>
    if decide (w.lo ≤ e.1 * 64) && decide (e.1 * 64 < w.hi) then
      match w.slot with
      | some n => if e.2.sharers.contains n then some (e.1, [n]) else none
      | none => some (e.1, e.2.sharers)
    else none

def addWalk (w : Walk) (s : State) : State := { s with coh := { s.coh with walks := s.coh.walks ++ [w] } }

end Sys2Proof.Machine
end

