-- ==== Sys2Proof/Machine/Guard.lean ====
section
/-! DEFINITION. The guards of a write's target (R348, R393, R68), stores that the hub makes of its own accord, tallies and
their watches (chapter 8), and the atomic operations (Table 8-6). -/

namespace Sys2Proof.Machine

open Sys2Proof

/-! Guards -/

/-- Who writes: a fabric endpoint by an ordinary or a coherence message, a host of this hub, or the hub's own engines,
which write as KIND 0 with this hub's endpoint (R347). A PCIe host's BAR2 store counts as its port's host (log entry 25). -/
inductive Writer where
  | fabric (ep : Nat)
  | agent (ep : Nat)
  | host (hp : Nat)
  | engine
  deriving DecidableEq, Repr

def Writer.ep (s : State) : Writer → Nat
  | .fabric e => e
  | .agent e => e
  | _ => selfEp s

/-- Whether a writer is the owner a region names (R322, R347). -/
def Writer.owns (s : State) (w : Writer) (r : Region) : Bool :=
  match w with
  | .fabric e => r.kind == 0 && r.ep == e
  | .agent e => r.ep == e
  | .host hp => r.kind == hp + 1 && r.ep == selfEp s
  | .engine => r.kind == 0 && r.ep == selfEp s

/-- The region that covers an offset. -/
def regionAt (s : State) (off : Nat) : Option (Nat × Region) :=
  s.coh.regions.find? fun e => decide (e.2.base * pageSize ≤ off) && decide (off < (e.2.base + e.2.pages) * pageSize)

/-- Pool of an endpoint (R389): 3 acts as 0. -/
def poolOf (s : State) (ep : Nat) : Nat := let p := mgetD 0 (ep / 256) s.fab.pools; if p = 3 then 0 else p

/-- The ledger entry that covers an offset. -/
def ledgerAt (s : State) (off : Nat) : Option Ledger :=
  (s.fab.ledger.find? fun e => decide (e.2.base ≤ off) && decide (off < e.2.base + e.2.pages * pageSize)).map (·.2)

/-- Region ownership (R348). -/
def regionRefuses (s : State) (off : Nat) (w : Writer) : Bool :=
  match regionAt s off with | some (_, r) => !w.owns s r | none => false

/-- The ledger's guard (R393). -/
def ledgerRefuses (s : State) (off : Nat) (w : Writer) : Bool :=
  match ledgerAt s off with
  | some l => l.inTransit || poolOf s (w.ep s) != l.pool
  | none => false

/-- The guards of R566 step 8 for a write: true where it may go on; a refusal is counted. A write to a projected
allocation whose projector runs counts in FAB_REFUSED (R68 names no counter, log entry 26). -/
def writeGuards (off : Nat) (w : Writer) (s : State) : Bool × State :=
  if regionRefuses s off w then (false, bump Reg.regionRefused (partAt s off) s)
  else if ledgerRefuses s off w then (false, bump Reg.ledgerRefused 0 s)
  else if (match allocAt s off with | some a => projRunning s a | none => false) then (false, bump Reg.fabRefused (partAt s off) s)
  else (true, s)

/-! Partners on the receiving side (R309 to R312) -/

/-- Tag of a store the hub makes of its own accord: no request has it, and no count is kept. -/
def localTid : BitVec 18 := 0x3FFFF

def isLocalStore (s : State) (p : Packet) : Bool := p.tid == localTid && p.src.toNat == selfEp s

/-- A counted transaction was applied, refused or dropped: it counts toward its source's applied number unless it is of
an older generation (R310, R312). -/
def countApplied (p : Packet) (s : State) : State :=
  if !counted p || isLocalStore s p then s
  else
    let gen : Byte := BitVec.ofNat 8 (fld p.arg 56 8)
    match partnerFor p.src.toNat s with
    | (none, s) => s
    | (some e, s) =>
      match e.peerGen with
      | none => partnerSet p.src.toNat { e with peerGen := some gen, applied := 1 } s
      | some g =>
        if newer gen g then partnerSet p.src.toNat { e with peerGen := some gen, applied := 1 } s
        else if gen = g then partnerSet p.src.toNat { e with applied := e.applied + 1 } s
        else s

/-! Stores the hub makes of its own accord -/

/-- Hold a write at its page: it applies at the switch (R83), or when the stream has taken the page (R493). -/
def holdAt (off : Nat) (g : Gate) (h : HeldAccess) (s : State) : State :=
  match g with
  | .snapWait =>
    match s.rel.snap with
    | some sn => bump Reg.snapCowWaits 0 { s with rel := { s.rel with snap := some { sn with waiting := sn.waiting ++ [h] } } }
    | none => s
  | _ => moveMod (off / pageSize) (fun m => { m with held := m.held ++ [h] }) s

/-- A store of this hub to one of its own homes, as a packet it would send itself: the checks of R374 and the guards,
then the write, waiting where a recall or a held page makes it wait. -/
def localStore (part off : Nat) (bs : List Byte) (s : State) : State :=
  match addrOf s off bs.length with
  | .decode => s
  | .hub => bump Reg.fabRefused part s
  | a =>
    if fkey s (addrPart s a) ≠ fkey s part then bump Reg.fabRefused (addrPart s a) s
    else
      match writeGuards off .engine s with
      | (false, s) => s
      | (true, s) =>
        let p := { mkPacket s tWR (selfEp s) (w64 off) 0 bs with key := fkey s part, tid := localTid }
        match writeGate s off with
        | .go => coherent off bs.length true false (.packet 0 p) (fun s => (storeCells off (bs.map some) s).2) s
        | .refused => s
        | .roDropped => match dieAt s off with | some (ch, _) => bump Reg.flcRoDropped ch s | none => s
        | g => holdAt off g (.packet 0 p) s

/-- A store of this hub to a fabric address for a partition (R307, R372). -/
def hubStore (part fa : Nat) (bs : List Byte) (s : State) : State :=
  match resolve fa part 1 s with
  | (.decode, s) => bump Reg.fabUnmapped part s
  | (.ownership, s) => s
  | (.home ep off, s) =>
    if ep = selfEp s then localStore part off bs s
    else (sendReq (mkReq (stampKey s part (mkPacket s tWR ep (w64 off) 0 bs)) (some fa) 1 part .hub) s).2

/-! Tallies (R302 to R307) -/

def tallyVal (s : State) (t : Nat) : W32 := mgetD 0 t s.ord.tallies

def noWatch : Watch := { target := 0, vector := 0, vecEn := false, fired := false, arm := false, addr := 0, val := 0 }

def watchOf (s : State) (t : Nat) : Watch := mgetD noWatch t s.ord.watches

def watchSet (t : Nat) (w : Watch) (s : State) : State := { s with ord := { s.ord with watches := mput noWatch t w s.ord.watches } }

/-- An armed watch whose target the tally has reached fires once (R307). -/
def fireWatch (t : Nat) (s : State) : State :=
  let w := watchOf s t
  match tallyPart s t with
  | none => s
  | some part =>
    if w.arm && reached (tallyVal s t) w.target then
      let s := watchSet t { w with arm := false, fired := true } s
      let s := if w.addr = 0 then s else hubStore part w.addr.toNat (leBytes 8 w.val.toNat) s
      if w.vecEn then raiseVec part w.vector s else s
    else s

/-- Set a tally; its watch is looked at (R306). -/
def tallySet (t : Nat) (v : W32) (s : State) : State :=
  fireWatch t { s with ord := { s.ord with tallies := mput 0 t v s.ord.tallies } }

/-- Add to a tally, wrapping (R302, R303). -/
def tallyAddTo (t : Nat) (n : W32) (s : State) : State := tallySet t (tallyVal s t + n) s

/-- Add on behalf of a partition: refused and counted where the tally is not its own (R302). -/
def tallyAddFor (part t : Nat) (n : W32) (s : State) : State :=
  if tallyPart s t = some part then tallyAddTo t n s else bump Reg.tallyRefused part s

/-! Atomic operations (Table 8-6) -/

/-- Order of FP32 values as integers, −0 below +0; NaN is kept apart. -/
def fpKey (x : W32) : Int := if x.getLsbD 31 then -(Int.ofNat (x.toNat % 2 ^ 31)) - 1 else Int.ofNat (x.toNat % 2 ^ 31)

def fpIsNan (x : W32) : Bool := decide (0x7F800000 < x.toNat % 2 ^ 31)

/-- The canonical NaN (R108). -/
def fpNan : W32 := 0x7FC00000

/-- Value of an FP32 as an integer multiple of 2^−149; only finite values. -/
def fpFix (x : W32) : Int :=
  let e := x.toNat / 2 ^ 23 % 256
  let m := x.toNat % 2 ^ 23
  let v : Nat := if e = 0 then m else (2 ^ 23 + m) * 2 ^ (e - 1)
  if x.getLsbD 31 then -(Int.ofNat v) else Int.ofNat v

/-- Round a magnitude in units of 2^−149 to FP32, nearest even; overflow gives Inf (R316). -/
def fpRoundFix (neg : Bool) (v : Nat) : W32 :=
  let sgn := if neg then 2 ^ 31 else 0
  if v < 2 ^ 24 then w32 (sgn + v)
  else
    let sh := Nat.log2 v - 23
    let q := v / 2 ^ sh
    let r := v % 2 ^ sh
    let half := 2 ^ (sh - 1)
    let q := if r > half ∨ (r = half ∧ q % 2 = 1) then q + 1 else q
    let (q, sh) := if q = 2 ^ 24 then (2 ^ 23, sh + 1) else (q, sh)
    if 254 < sh + 1 then w32 (sgn + 0x7F800000) else w32 (sgn + (sh + 1) * 2 ^ 23 + (q - 2 ^ 23))

def fpIsInf (x : W32) : Bool := decide (x.toNat % 2 ^ 31 = 0x7F800000)

/-- FP32 addition, one rounding to nearest even, canonical NaN (R108, R316). -/
def fpAdd (a b : W32) : W32 :=
  if fpIsNan a || fpIsNan b then fpNan
  else if fpIsInf a && fpIsInf b then (if a = b then a else fpNan)
  else if fpIsInf a then a
  else if fpIsInf b then b
  else
    let z := fpFix a + fpFix b
    if z = 0 then (if a.getLsbD 31 && b.getLsbD 31 then 0x80000000 else 0) else fpRoundFix (decide (z < 0)) z.natAbs

/-- Signed or unsigned order of n-byte integers. -/
def intKey (signed : Bool) (n x : Nat) : Int := if signed && decide (2 ^ (8 * n - 1) ≤ x) then Int.ofNat x - 2 ^ (8 * n) else Int.ofNat x

/-- The new value of a word of n bytes (Table 8-6): AOP, SIGNED, old value, operand, compare; none for no write. -/
def atomicNew (aop : Nat) (signed : Bool) (n old opd cmp : Nat) : Option Nat :=
  let m := 2 ^ (8 * n)
  match aop with
  | 0 => some ((old + opd) % m)
  | 1 => some (if intKey signed n opd < intKey signed n old then opd else old)
  | 2 => some (if intKey signed n old < intKey signed n opd then opd else old)
  | 3 => some opd
  | 4 => if old = cmp then some opd else none
  | 5 => some (fpAdd (w32 old) (w32 opd)).toNat
  | 6 => some (if fpIsNan (w32 old) || fpIsNan (w32 opd) then fpNan.toNat else if fpKey (w32 opd) < fpKey (w32 old) then opd else old)
  | _ => some (if fpIsNan (w32 old) || fpIsNan (w32 opd) then fpNan.toNat else if fpKey (w32 old) < fpKey (w32 opd) then opd else old)

end Sys2Proof.Machine
end

