-- ==== Sys2Proof/Machine/Home.lean ====
section
/-! DEFINITION. The home hub's side of the fabric: reads, writes, atomics, cue stores, tally writes, OWN and events, with
the ordered checks of R566. -/

namespace Sys2Proof.Machine

open Sys2Proof

/-- Send an answer. One for a store the hub made of its own accord has nobody waiting for it. -/
def reply (p : Packet) (s : State) : State :=
  if p.dst.toNat = selfEp s ∧ !s.fab.reqs.any (fun r => r.tag == p.tid.toNat) then s else send p s

/-- Whether an endpoint is an accelerator's, to which payloads travel raw (R285). -/
def isAccelerator (s : State) (ep : Nat) : Bool := s.coh.slots.any fun e => e.2.kind == 0 && e.2.ep == ep

/-- A payload of a whole aligned 4 KiB block to another hub may travel compressed where its class is enabled: a ZR or BP block at rest as it is stored,
any other encoded in a lane that has room; raw where nothing shortens it (R285, R363). Whether the hub does, and which codec it tries, are free choices
(log entry 90). The CRC-32C was taken before (R364). -/
def zipped (off : Nat) (atRest : Bool) (p : Packet) (s : State) : Packet × State :=
  let b := off / blockSize
  if rbit s Reg.codecCfg 0 (8 + p.tc.toNat) && p.payload.length == blockSize && off % blockSize == 0 && !p.pmask && p.dst.toNat != selfEp s
      && !isAccelerator s p.dst.toNat then
    let (zip, s) := drawBit s
    if !zip then (p, s)
    else
      let m := blockMeta s b
      if atRest && blockCoded m && !m.getLsbD 7 then
        let st := rawRead s (b * blockSize) (blockTag m * 256)
        ({ p with zip := true, len := BitVec.ofNat 13 st.length, payload := st }, s)
      else if 64 ≤ (laneJobs s (laneOf b)).length then (p, s)
      else
        let (k, s) := drawBelow 3 s
        match encodeBlock (slotOf s) (if k = 0 then 1 else 3) 0 (k - 1) p.payload with
        | none => (p, s)
        | some st =>
          let st := st ++ List.replicate (blockTag (streamMeta st) * 256 - st.length) 0
          ({ p with zip := true, len := BitVec.ofNat 13 st.length, payload := st }, laneWork (laneOf b) blockSize st.length s)
  else (p, s)

/-- Bytes a request names (Table 10-4): LEN. -/
def pktLen (p : Packet) : Nat := p.len.toNat

/-- The epoch check of R380. -/
def epochOk (s : State) (e : BitVec 16) : Bool :=
  decide ((e - BitVec.ofNat 16 s.fab.epoch).toNat < 2 ^ 15) || (s.fab.prevLive && e == BitVec.ofNat 16 s.fab.prevEpoch)

/-- A stopped unit that a request to an address needs (R465; the PLACE unit stays in service, R564). -/
def homeStopped (s : State) (a : Addr) (off n : Nat) (tally : Option Nat) : Bool :=
  let part := some (addrPart s a)
  unitStopped s 8 part || (fCoherent (flagsAt s off) && unitStopped s 7 part)
    || ((piecesOf off n).any (fun pc => blockCoded (blockMeta s (pc.1 / blockSize))) && unitStopped s 5 part)
    || (match tally with | some t => unitStopped s 6 (some (setInst t)) || unitStopped s 6 (tallyPart s t) | none => false)

/-- Checks 1 to 5 of R566 for a request that names n bytes at ADDR and perhaps a tally; a refusal is counted where its rule
counts it. None means that every check passes. -/
def homeChecks (p : Packet) (n : Nat) (tally : Option Nat) (s : State) : Option Status × State :=
  let off := p.addr.toNat
  if fatal s then (some .reset, s)
  else
    match addrOf s off n with
    | .decode => (some .decode, s)
    | .hub => (some .decode, bump Reg.fabRefused (keyPart s p.key) s)
    | a =>
      let owner := addrPart s a
      if fkey s owner ≠ p.key then (some .ownership, bump Reg.fabRefused owner s)
      else
        match tally with
        | some t =>
          match tallyPart s t with
          | some tp =>
            if fkey s tp ≠ p.key then (some .ownership, bump Reg.tallyRefused tp (bump Reg.fabRefused tp s))
            else if !epochOk s p.epoch then (some .staleEpoch, s)
            else if homeStopped s a off n tally then (some .parity, s) else (none, s)
          | none => (some .ownership, bump Reg.tallyRefused owner s)
        | none =>
          if !epochOk s p.epoch then (some .staleEpoch, s)
          else if homeStopped s a off n none then (some .parity, s) else (none, s)

/-- The lender's check of a loan-out access (R387): SRC is the borrower and the range lies in an extent lent to it. -/
def loanOk (s : State) (p : Packet) (n : Nat) : Bool :=
  s.store.lentOut.any fun l => l.borrower == p.src.toNat && decide (l.base ≤ p.addr.toNat) && decide (p.addr.toNat + n ≤ l.base + l.pages * pageSize)

/-- A stopped unit that a loan-out access needs (step 5 of R566, which such an access takes too). -/
def loanStopped (s : State) (off n : Nat) : Bool :=
  unitStopped s 8 none || ((piecesOf off n).any (fun pc => blockCoded (blockMeta s (pc.1 / blockSize))) && unitStopped s 5 none)

/-- Where a packet's bytes lie. HBM that this hub has lent is named by the borrower with lender-local offsets and is kept beyond the hub-local ones (log
entry 89). -/
def packetOff (p : Packet) : Nat := p.addr.toNat + (if p.loan then localEnd else 0)

/-- Serve a read: the data with its POISON mask (Table 10-4, R477). -/
def serveRd (p : Packet) (s : State) : State :=
  let off := packetOff p
  let n := pktLen p
  let (g, s) := memRead off n (countRead off n s)
  let (bs, s) := hidePoison off g.pois g.bytes s
  if g.pois.isEmpty && !g.codec then
    let (r, s) := zipped off true (rspTo s p .ok 0 0 bs) s
    reply r s
  else reply (rspTo s p (if g.codec then .codec else .poison) 0 (lineMask off g.pois) bs) (countSent g.pois s)

/-- A fabric RD at its home (R566, R275, R343): what the memory's check found is an operand. -/
def homeRd (port : Nat) (p : Packet) (m : Media) (s : State) : State :=
  let n := pktLen p
  if p.loan then
    if fatal s then reply (rspTo s p .reset 0 0 []) s
    else if !loanOk s p n then reply (rspTo s p .ownership 0 0 []) s
    else if loanStopped s (packetOff p) n then reply (rspTo s p .parity 0 0 []) s
    else serveRd p s
  else
    match homeChecks p n none s with
    | (some st, s) => reply (rspTo s p st 0 0 []) s
    | (none, s) => coherent p.addr.toNat n false false (.packet port p) (serveRd p) (mediaFound p.addr.toNat m s)

/-- The raw payload of a WR or RSP: a ZIP payload is decoded on ingress (R285, R363); none for CODEC. -/
def rawPayload (s : State) (p : Packet) : Option (List Byte) :=
  if p.zip then decodeBlock (slotOf s) (BitVec.ofNat 8 (p.payload.length / 256 - 1)) p.payload else some p.payload

/-- The tally a WR adds to, if any (R365). -/
def wrTally (p : Packet) : Option Nat := if p.tallyEn then some (fld p.arg 0 16) else none

/-- Apply a held cue store, OWN or OFFER of a source whose count is reached; the handlers stand below (R310). -/
def srcReached (s : State) (p : Packet) : Bool :=
  match mget p.src.toNat s.fab.partners with
  | some e => reached e.applied (BitVec.ofNat 32 (fld p.arg 0 32))
  | none => false

/-- What a write still does once it is let through: the bytes, the poison its mask names, the tally, the ACK. -/
def serveWr (p : Packet) (s : State) : State :=
  let off := packetOff p
  let bs := (rawPayload s p).getD []
  let (ok, s) := storeCells off (bs.map some) s
  let s := if p.pmask then poisonWords (((wordsOf off bs.length).filter fun w => p.pois.getLsbD (w / 8 - off / 64))) s else s
  let s := match wrTally p with
    | some t => if ok then tallyAddTo t (if p.tallyUnit then 1 else w32 bs.length) s else s
    | none => s
  reply (ackTo s p (if ok then .ok else .poison) 0) (countApplied p s)

/-- Refuse a write: answered, and counted toward its source (R310). -/
def refuseWr (p : Packet) (st : Status) (s : State) : State := reply (ackTo s p st 0) (countApplied p s)

/-- A write that passed the checks meets its page's gate and the directory. -/
def admitWr (port : Nat) (p : Packet) (fromQueue : Bool) (s : State) : State :=
  let off := p.addr.toNat
  let n := ((rawPayload s p).getD []).length
  inTurn off n fromQueue (.packet port p) (fun s =>
    match writeGate s off with
    | .go => coherent off n true fromQueue (.packet port p) (serveWr p) s
    | .refused => refuseWr p .ownership (bump Reg.fabRefused (partAt s off) s)
    | .roDropped => refuseWr p .quota (match dieAt s off with | some (ch, _) => bump Reg.flcRoDropped ch s | none => s)
    | g => holdAt off g (.packet port p) s) s

/-- No partner entry can be had for a counted transaction of a new source (R377). -/
def partnerRefused (p : Packet) (s : State) : Bool × State :=
  if counted p || carriesCount p then
    match partnerFor p.src.toNat s with | (none, s) => (true, s) | (some _, s) => (false, s)
  else (false, s)

/-- A fabric WR at its home (R566). -/
def homeWr (port : Nat) (p : Packet) (s : State) : State :=
  let off := p.addr.toNat
  let later := fun s : State =>
    match rawPayload s p with
    | none => refuseWr p .codec s
    | some bs =>
      if p.e2e && crc32c bs != p.crc then refuseWr p .poison (bump Reg.fabE2eFail (partAt s off) s)
      else if p.loan then serveWr p s
      else
        match writeGuards off (.fabric p.src.toNat) s with
        | (false, s) => refuseWr p .ownership s
        | (true, s) => admitWr port p false s
  if p.loan then
    if fatal s then refuseWr p .reset s
    else if !loanOk s p p.payload.length then refuseWr p .ownership s
    else if loanStopped s (packetOff p) p.payload.length then refuseWr p .parity s
    else later s
  else
    match partnerRefused p s with
    | (true, s) => reply (answer s p tRETRY 0 0 []) s
    | (false, s) =>
      match homeChecks p (if p.zip then blockSize else p.payload.length) (wrTally p) s with
      | (some st, s) => refuseWr p st s
      | (none, s) => later s

/-- Perform an atomic at its home: indivisible, returning the old value (R315, R478). -/
def serveAtomic (p : Packet) (s : State) : State :=
  let off := p.addr.toNat
  let n := atomicSize p
  let (g, s) := memRead off n s
  if !g.pois.isEmpty then
    let (bs, s) := hidePoison off g.pois g.bytes s
    reply (rspTo s p (if g.codec then .codec else .poison) 0 (lineMask off g.pois) bs) (countSent g.pois (countApplied p s))
  else
    let old := leNat g.bytes
    let opd := leAt p.payload 0 n
    let cmp := leAt p.payload n n
    let s := match atomicNew (fld p.arg 0 4) (bit p.arg 5) n old opd cmp with
      | some v => (storeCells off ((leBytes n v).map some) s).2
      | none => rawBlock (off / blockSize) (countAccess off n true s)
    reply (rspTo s p .ok 0 0 (leBytes n old)) (countApplied p s)

/-- Refuse an atomic. -/
def refuseAtomic (p : Packet) (st : Status) (s : State) : State := reply (rspTo s p st 0 0 []) (countApplied p s)

def admitAtomic (port : Nat) (p : Packet) (fromQueue : Bool) (s : State) : State :=
  let off := p.addr.toNat
  inTurn off (atomicSize p) fromQueue (.packet port p) (fun s =>
    match writeGate s off with
    | .go => coherent off (atomicSize p) true fromQueue (.packet port p) (serveAtomic p) s
    | .refused => refuseAtomic p .ownership (bump Reg.fabRefused (partAt s off) s)
    | .roDropped => refuseAtomic p .quota (match dieAt s off with | some (ch, _) => bump Reg.flcRoDropped ch s | none => s)
    | g => holdAt off g (.packet port p) s) s

/-- A fabric ATOMIC at its home (R315, R317, R362, R566); a borrower has no atomics on what it borrows (R387). -/
def homeAtomic (port : Nat) (p : Packet) (s : State) : State :=
  if p.loan then refuseAtomic p (if fatal s then .reset else .ownership) s
  else
  match partnerRefused p s with
  | (true, s) => reply (answer s p tRETRY 0 0 []) s
  | (false, s) =>
    match homeChecks p (atomicSize p) none s with
    | (some st, s) => refuseAtomic p st s
    | (none, s) =>
      let aop := fld p.arg 0 4
      if p.addr.toNat % atomicSize p ≠ 0 ∨ 7 < aop ∨ (5 ≤ aop ∧ atomicSize p = 8) then refuseAtomic p .decode s
      else
        match writeGuards p.addr.toNat (.fabric p.src.toNat) s with
        | (false, s) => refuseAtomic p .ownership s
        | (true, s) => admitAtomic port p false s

/-! Cue stores, OWN and OFFER (R308 to R312, R349, R391) -/

/-- Generation of a cue. -/
def cueGen (p : Packet) : Byte := BitVec.ofNat 8 (fld p.arg 32 8)

/-- Write a cue's flag (row IW) and acknowledge it. -/
def serveCue (p : Packet) (s : State) : State :=
  let (ok, s) := storeCells p.addr.toNat ((slice p.payload 0 8).map some) s
  reply (ackTo s p (if ok then .ok else .poison) 0) (bump Reg.cueApplied 0 s)

def admitCue (port : Nat) (p : Packet) (fromQueue : Bool) (s : State) : State :=
  let off := p.addr.toNat
  inTurn off 8 fromQueue (.cue port p) (fun s =>
    match writeGate s off with
    | .go => coherent off 8 true fromQueue (.cue port p) (serveCue p) s
    | .refused => reply (ackTo s p .ownership 0) (bump Reg.fabRefused (partAt s off) s)
    | .roDropped => reply (ackTo s p .quota 0) (match dieAt s off with | some (ch, _) => bump Reg.flcRoDropped ch s | none => s)
    | g => holdAt off g (.packet port p) s) s

/-- Take a cue whose count is reached: its guards, then its write. -/
def applyCue (port : Nat) (p : Packet) (s : State) : State :=
  match writeGuards p.addr.toNat (.fabric p.src.toNat) s with
  | (false, s) => reply (ackTo s p .ownership 0) s
  | (true, s) => admitCue port p false s

/-- Take an OWN (R349): the old owner's lines are walked, then the region changes hands. -/
def applyOwn (port : Nat) (p : Packet) (s : State) : State :=
  let num := fld p.arg 40 12
  match mget num s.coh.regions with
  | none => reply (ackTo s p .decode 0) s
  | some r =>
    let w := leAt p.payload 0 4
    if r.ep ≠ p.src.toNat then reply (ackTo s p .ownership 0) s
    else if w / 2 ^ 18 % 4 = 3 then reply (ackTo s p .decode 0) s
    else
      match slotOfId s r.kind r.ep with
      | some n => addWalk { lo := r.base * pageSize, hi := (r.base + r.pages) * pageSize, slot := some n, why := .ownPacket port p, running := false } s
      | none => reply (ackTo s p .ok 0) { s with coh := { s.coh with regions := mset num { r with kind := w / 2 ^ 18 % 4, ep := w % 2 ^ 18 } s.coh.regions } }

/-! The handoff ledger (R389 to R392) -/

/-- RSP of a ledger operation: the entry's state and pool as they stand (R390). -/
def ledgerRsp (p : Packet) (id : Nat) (st : Status) (s : State) : State :=
  let v := match mget id s.fab.ledger with | some l => (if l.inTransit then 2 else 1) + 4 * l.pool | none => 0
  let s := if st = .ok then s else bump Reg.ledgerRefused 0 s
  reply (rspTo s p st v 0 []) s

def ledgerSet (id : Nat) (l : Option Ledger) (s : State) : State :=
  { s with fab := { s.fab with ledger := match l with | some l => mset id l s.fab.ledger | none => mdel id s.fab.ledger } }

/-- OFFER once its count is reached: HELD by the caller's pool becomes IN_TRANSIT; its timeout starts here (R391). -/
def applyOffer (p : Packet) (s : State) : State :=
  let id := leAt p.payload 0 8
  match mget id s.fab.ledger with
  | some l =>
    if !l.inTransit ∧ poolOf s p.src.toNat = l.pool ∧ l.pool ≠ 0 then
      ledgerRsp p id .ok (ledgerSet id (some { l with inTransit := true, edges := 0 }) s)
    else ledgerRsp p id .ownership s
  | none => ledgerRsp p id .ownership s

/-- Apply a held item by its type. -/
def applyHeld (port : Nat) (p : Packet) (s : State) : State :=
  if p.type.toNat = tOWN then applyOwn port p s
  else if p.type.toNat = tHANDOFF then applyOffer p s
  else applyCue port p s

/-- Answer a cue-like packet that applies nothing. -/
def cueFail (p : Packet) (st : Status) (s : State) : State :=
  if p.type.toNat = tHANDOFF then ledgerRsp p (leAt p.payload 0 8) st s else reply (ackTo s p st 0) s

/-- The count that a cue carries. -/
def cueCount (p : Packet) : W32 := BitVec.ofNat 32 (fld p.arg 0 32)

/-- A held item of an older generation than its source's entry, which has taken a newer one since (R312). -/
def heldOutdated (s : State) (p : Packet) : Bool :=
  match mget p.src.toNat s.fab.partners with
  | some e => (match e.peerGen with | some g => newer g (cueGen p) | none => false)
  | none => false

/-- The packet of a held write. -/
def HeldAccess.pkt : HeldAccess → Option Packet
  | .packet _ p => some p
  | _ => none

/-- The packet of a request that waits. -/
def CohReq.pkt : CohReq → Option Packet
  | .agent _ p _ => some p
  | .packet _ p => some p
  | .cue _ p => some p
  | _ => none

/-- The packets of a source that this home has let in and that wait for a recall, a held page or a copy-on-write. -/
def waitingOf (s : State) (src : Nat) : List Packet :=
  (s.coh.waiting.filterMap (fun w => w.req.pkt) ++ (s.store.moves.flatMap fun m => m.2.held).filterMap HeldAccess.pkt
    ++ (match s.rel.snap with | some sn => sn.waiting.filterMap HeldAccess.pkt | none => [])).filter fun p => p.src.toNat == src

/-- A cue or an OWN of a source has been taken and is not yet applied: its next one must wait (R310). -/
def cueWaits (s : State) (src : Nat) : Bool :=
  (waitingOf s src).any (fun p => p.type.toNat == tCUE) ||
    s.coh.walks.any fun w => match w.why with | .ownPacket _ p => p.src.toNat == src | _ => false

/-- A store of a source waits here (R155). -/
def storeWaits (s : State) (src : Nat) : Bool :=
  (waitingOf s src).any (fun p => p.type.toNat != tRD && p.type.toNat != tRDSHARED) || s.ord.held.any fun h => h.p.src.toNat == src

/-- Held items of a source apply in order of their counts as far as its applied number reaches (R310), each once the one before it is applied; one
of an older generation applies nothing (R312). -/
def drainHeld (src : Nat) (s : State) : State :=
  let mine := s.ord.held.filter fun h => h.p.src.toNat == src
  let ordered := mine |> sortBy fun a b => reached (cueCount b.p) (cueCount a.p)
  ordered.foldl (fun s h =>
    if heldOutdated s h.p then cueFail h.p .timeout { s with ord := { s.ord with held := s.ord.held.erase h } }
    else if srcReached s h.p && !cueWaits s src then applyHeld h.port h.p { s with ord := { s.ord with held := s.ord.held.erase h } } else s) s

/-- The generation of a cue, OWN or HANDOFF meets its source's entry: an older one applies nothing and is answered TIMEOUT, a newer one restarts the
applied number (R312); with no entry to be had it is answered RETRY (R377). False where it has been answered. -/
def takeGen (p : Packet) (s : State) : Bool × State :=
  match partnerFor p.src.toNat s with
  | (none, s) => (false, reply (answer s p tRETRY 0 0 []) s)
  | (some e, s) =>
    let g := cueGen p
    let fresh := match e.peerGen with | none => true | some h => newer g h
    let old := match e.peerGen with | none => false | some h => !fresh && g != h
    if old then (false, cueFail p .timeout s)
    else
      let e := if fresh then { e with peerGen := some g, applied := 0 } else e
      (true, partnerSet p.src.toNat e s)

/-- A cue, OWN or OFFER of a good generation is applied when its count is reached, else held (R310). -/
def takeCue (port : Nat) (p : Packet) (s : State) : State :=
  match takeGen p s with
  | (false, s) => s
  | (true, s) =>
    if srcReached s p && !cueWaits s p.src.toNat && !(s.ord.held.any fun h => h.p.src == p.src && reached (cueCount p) (cueCount h.p)) then
      applyHeld port p s
    else { s with ord := { s.ord with held := s.ord.held ++ [{ port := port, p := p, edges := 0 }] } }

/-- A cue store at its home (R310, R566). -/
def homeCue (port : Nat) (p : Packet) (s : State) : State :=
  match homeChecks p 8 none s with
  | (some st, s) => reply (ackTo s p st 0) s
  | (none, s) => if p.addr.toNat % 8 ≠ 0 then reply (ackTo s p .decode 0) s else takeCue port p s

/-- OWN on the fabric (R349): only the current owner may send it; the KEY is the region's partition's (R374). -/
def homeOwn (port : Nat) (p : Packet) (s : State) : State :=
  if fatal s then reply (ackTo s p .reset 0) s
  else
    match mget (fld p.arg 40 12) s.coh.regions with
    | none => reply (ackTo s p .decode 0) s
    | some r =>
      if fkey s r.part ≠ p.key then reply (ackTo s p .ownership 0) (bump Reg.fabRefused r.part s)
      else if unitStopped s 7 (some r.part) || unitStopped s 8 (some r.part) then reply (ackTo s p .parity 0) s
      else if r.ep ≠ p.src.toNat then reply (ackTo s p .ownership 0) s
      else takeCue port p s

/-- A held item expires (R311): discarded, counted, the applied number raised, its source answered TIMEOUT. -/
def expireHeld (h : HeldCue) (s : State) : State :=
  let s := { s with ord := { s.ord with held := s.ord.held.erase h } }
  let part := if h.p.type.toNat = tCUE then partAt s h.p.addr.toNat
    else if h.p.type.toNat = tOWN then (match mget (fld h.p.arg 40 12) s.coh.regions with | some r => r.part | none => 0)
    else keyPart s h.p.key
  let s := bump Reg.cueExpiredAll 0 (bump Reg.cueExpired part s)
  let s := match mget h.p.src.toNat s.fab.partners with
    | some e => partnerSet h.p.src.toNat { e with applied := BitVec.ofNat 32 (fld h.p.arg 0 32) } s
    | none => s
  drainHeld h.p.src.toNat (cueFail h.p .timeout s)

/-! Tally writes and events -/

/-- A fabric tally write: the KEY of the tally's partition, then the add (R177, R303, R374). -/
def homeTally (p : Packet) (s : State) : State :=
  let t := fld p.arg 0 16
  if fatal s then reply (ackTo s p .reset 0) s
  else
    match tallyPart s t with
    | none => reply (ackTo s p .ownership 0) (bump Reg.tallyRefused (keyPart s p.key) s)
    | some part =>
      if fkey s part ≠ p.key then reply (ackTo s p .ownership 0) (bump Reg.tallyRefused part (bump Reg.fabRefused part s))
      else if unitStopped s 6 (some (setInst t)) || unitStopped s 6 (some part) || unitStopped s 8 (some part) then reply (ackTo s p .parity 0) s
      else
        let s := tallyAddTo t (w32 (fld p.arg 16 32)) s
        reply (ackTo s p .ok 0) s

/-- An EVENT of a proxied accelerator raises an MSI-X vector of its function (R386, R399). -/
def homeEvent (p : Packet) (s : State) : State :=
  let v := leAt p.payload 0 1
  let hits := s.fab.current.proxies.filter fun e => bit (e.2.getD 0 0) 0 && quad e.2 1 % 2 ^ 18 == p.src.toNat
  if hits.isEmpty ∨ 64 ≤ v then bump Reg.proxyDropped 0 s
  else hits.foldl (fun s e => msixSend (fld (e.2.getD 0 0) 1 1 * 256 + fld (e.2.getD 0 0) 2 7 + 1) v s) s

/-! HANDOFF operations other than OFFER (Table 10-11) -/

/-- The partition that owns the target of a HANDOFF (R374): of the entry, or of the allocation that a CLAIM of a new ID names. -/
def handoffOwner (p : Packet) (s : State) : Option Nat :=
  match mget (leAt p.payload 0 8) s.fab.ledger with
  | some l => some (partAt s l.base)
  | none => if fld p.arg 40 4 = 1 ∧ (allocAt s (leAt p.payload 8 8)).isSome then some (partAt s (leAt p.payload 8 8)) else none

/-- Checks every HANDOFF takes, in the order of R566: the fatal response, the KEY, which counts in FAB_REFUSED of the owner, the FAB unit, then pool
mode. None lets it go on. -/
def handoffCheck (p : Packet) (s : State) : Option Status × State :=
  if fatal s then (some .reset, s)
  else
    match (handoffOwner p s).filter fun o => fkey s o != p.key with
    | some o => (some .ownership, bump Reg.fabRefused o s)
    | none =>
      if unitStopped s 8 none then (some .parity, s)
      else if !rbit s Reg.ledgerCfg 0 8 then (some .decode, s)
      else (none, s)

/-- Go on with an operation whose generation is good (R312). -/
def takeHandoffGen (p : Packet) (s : State) (go : State → State) : State :=
  match takeGen p s with
  | (false, s) => s
  | (true, s) => go s

/-- A range the ledger may hold: aligned, in one allocation, free of other entries (R390). -/
def claimOk (s : State) (base pages : Nat) : Bool :=
  base % pageSize == 0 && decide (0 < pages) &&
    (match allocAt s base with
     | some a => (match allocOf s a with
       | some al => decide ((base / pageSize) + pages ≤ al.base + al.pages) && decide (base < stageBase)
       | none => false)
     | none => false) &&
    !s.fab.ledger.any fun e => overlap e.2.base (e.2.pages * pageSize) base (pages * pageSize)

def ledgerCap : Nat := 65536

def homeClaim (p : Packet) (s : State) : State :=
  let id := leAt p.payload 0 8
  match handoffCheck p s with
  | (some st, s) => ledgerRsp p id st s
  | (none, s) => takeHandoffGen p s fun s =>
    let pool := poolOf s p.src.toNat
    let base := leAt p.payload 8 8
    let pages := leAt p.payload 16 4
    if pool = 0 then ledgerRsp p id .ownership s
    else if mhas id s.fab.ledger then ledgerRsp p id .decode s
    else if !claimOk s base pages then ledgerRsp p id .decode s
    else if ledgerCap ≤ s.fab.ledger.length then ledgerRsp p id .quota s
    else ledgerRsp p id .ok (ledgerSet id (some { inTransit := false, pool := pool, base := base, pages := pages, edges := 0 }) s)

/-- An operation on an entry: allowed by `ok`, which sees the caller's pool, it leaves `after`. -/
def ledgerOp (p : Packet) (ok : Nat → Ledger → Bool) (after : Nat → Ledger → Option Ledger) (s : State) : State :=
  let id := leAt p.payload 0 8
  match handoffCheck p s with
  | (some st, s) => ledgerRsp p id st s
  | (none, s) => takeHandoffGen p s fun s =>
    let pool := poolOf s p.src.toNat
    match mget id s.fab.ledger with
    | some l => if pool ≠ 0 ∧ ok pool l then ledgerRsp p id .ok (ledgerSet id (after pool l) s) else ledgerRsp p id .ownership s
    | none => ledgerRsp p id .ownership s

/-- ACCEPT by the other pool of an entry in transit. -/
def homeAccept (p : Packet) (s : State) : State :=
  ledgerOp p (fun c l => l.inTransit && c != l.pool) (fun c l => some { l with inTransit := false, pool := c, edges := 0 }) s

/-- CANCEL by the sender's pool. -/
def homeCancel (p : Packet) (s : State) : State :=
  ledgerOp p (fun c l => l.inTransit && c == l.pool) (fun _ l => some { l with inTransit := false, edges := 0 }) s

/-- RELEASE by the owner's pool removes the entry; the answer shows it FREE. -/
def homeLedgerRelease (p : Packet) (s : State) : State :=
  ledgerOp p (fun c l => !l.inTransit && c == l.pool) (fun _ _ => none) s

def homeLedgerQuery (p : Packet) (s : State) : State :=
  let id := leAt p.payload 0 8
  match handoffCheck p s with
  | (some st, s) => ledgerRsp p id st s
  | (none, s) => takeHandoffGen p s (ledgerRsp p id .ok)

/-- OFFER is held and applied as a cue store (R391). -/
def homeOffer (port : Nat) (p : Packet) (s : State) : State :=
  match handoffCheck p s with
  | (some st, s) => ledgerRsp p (leAt p.payload 0 8) st s
  | (none, s) => takeCue port p s

end Sys2Proof.Machine
end

