-- ==== Sys2Proof/Machine/Agent.lean ====
section
/-! DEFINITION. The home's side of the coherence messages (Table 9-3), the snoops this hub passes to its hosts, and walks
(chapter 9). A refused coherence request is answered by RSP with its status (DESIGN CHOICE, log entry 27). -/

namespace Sys2Proof.Machine

open Sys2Proof

/-! Requests of agents -/

/-- Answer a coherence request with a status. -/
def refuseAgent (p : Packet) (st : Status) (s : State) : State := reply (rspTo s p st 0 0 []) s

/-- Serve a caching request uncached (R323): Data with grant I. -/
def agentUncached (port : Nat) (p : Packet) (x : Option Nat) (fromQueue : Bool) (s : State) : State :=
  let off := msgOff p
  coherent off 64 false fromQueue (.agent port p x) (fun s =>
    let (bs, bad, s) := lineData (lineOf off) (countRead off 64 s)
    send { answer s p tDATA (w64 off) (w64 gI) bs with pois := w64 (b2n bad) } s) s

/-- What a cacheable request does once its line is free and its set has room: the transaction of Table 9-5. -/
def agentCached (port : Nat) (p : Packet) (x : Nat) (s : State) : State :=
  let off := msgOff p
  let r := CohReq.agent port p (some x)
  if p.type.toNat = tRDSHARED then sharedRead (lineOf off) x (slotKind s x != 0) r (countRead off 64 s)
  else ownRead (lineOf off) x (p.type.toNat == tUPGRADE) r (countAccess off 64 true s)

/-- A slot still names the endpoint that a waiting request came from. -/
def stillSlot (s : State) (p : Packet) (x : Option Nat) : Option Nat := x.filter fun n => (slotsOfEp s p.src.toNat).contains n

/-- A shared or ownership request that passed its checks (R323, R334, R335). -/
def admitAgent (port : Nat) (p : Packet) (x : Option Nat) (fromQueue : Bool) (s : State) : State :=
  let off := msgOff p
  match x with
  | some n =>
    if cacheable s off (some n) then caching (lineOf off) fromQueue (.agent port p x) (agentCached port p n) s
    else agentUncached port p x fromQueue (bump Reg.cohUncached (partAt s off) s)
  | none => agentUncached port p none fromQueue (bump Reg.cohUncached (partAt s off) s)

/-- The checks of R566 for a request about a line: an ADDR with any of bits 63:50 set is answered DECODE (R21). -/
def agentChecks (p : Packet) (s : State) : Option Status × State := homeChecks { p with addr := w64 (p.addr.toNat / 64 * 64) } 64 none s

/-- RdShared at its home; a shared read is never refused for ownership (R348). -/
def homeRdShared (port : Nat) (p : Packet) (s : State) : State :=
  match agentChecks p s with
  | (some st, s) => refuseAgent p st s
  | (none, s) => let (x, s) := senderSlot p.src.toNat s; admitAgent port p x false s

/-- RdOwn and Upgrade at their home: the guards of R348 and R393 come after the checks. -/
def homeRdOwn (port : Nat) (p : Packet) (s : State) : State :=
  match agentChecks p s with
  | (some st, s) => refuseAgent p st s
  | (none, s) =>
    match writeGuards (msgOff p) (.agent p.src.toNat) s with
    | (false, s) => refuseAgent p .ownership s
    | (true, s) => let (x, s) := senderSlot p.src.toNat s; admitAgent port p x false s

/-- Acknowledge a write-back or an Evict (Table 9-3). -/
def agentCmp (p : Packet) (s : State) : State := send (answer s p tCMP (w64 (msgOff p)) 0 []) s

/-- The slot of a write-back's or an Evict's sender: of two hosts behind one endpoint, the one that the line's entry records. -/
def holderSlot (line : Nat) (p : Packet) (s : State) : Option Nat × State :=
  match (slotsOfEp s p.src.toNat).filter fun n => (writeRecalls s line).contains n with
  | [n] => (some n, s)
  | _ => senderSlot p.src.toNat s

/-- WrBack or WrBackS that passed its checks: it waits behind an open transaction, and at the gate of its page. -/
def admitWrBack (port : Nat) (p : Packet) (fromQueue : Bool) (s : State) : State :=
  let off := msgOff p
  let line := lineOf off
  if (txnOf s line).isSome || (!fromQueue && waitedFor s line) then waitOn line (.agent port p none) s
  else
    match holderSlot line p (dirLookup line s) with
    | (none, s) => agentCmp p (bump Reg.cohStaleWb 0 s)
    | (some x, s) =>
      match writeGate s off with
      | .hold => holdAt off .hold (.packet port p) s
      | .snapWait => holdAt off .snapWait (.packet port p) s
      | .roDropped => agentCmp p (match dieAt s off with | some (ch, _) => bump Reg.flcRoDropped ch s | none => s)
      | .refused => refuseAgent p .ownership (bump Reg.fabRefused (partAt s off) s)
      | .go =>
        match writeBack line x (p.type.toNat == tWRBACKS) ((slice p.payload 0 64).map some) s with
        | (took, s) => agentCmp p (hurtLine line (took && p.pois.getLsbD 0) s)

def homeWrBack (port : Nat) (p : Packet) (s : State) : State :=
  match agentChecks p s with
  | (some st, s) => refuseAgent p st s
  | (none, s) => admitWrBack port p false s

/-- Evict that passed its checks. -/
def admitEvict (port : Nat) (p : Packet) (fromQueue : Bool) (s : State) : State :=
  let line := lineOf (msgOff p)
  if (txnOf s line).isSome || (!fromQueue && waitedFor s line) then waitOn line (.agent port p none) s
  else
    match holderSlot line p (dirLookup line s) with
    | (none, s) => agentCmp p s
    | (some x, s) => agentCmp p (evictNotice line x s)

def homeEvict (port : Nat) (p : Packet) (s : State) : State :=
  match agentChecks p s with
  | (some st, s) => refuseAgent p st s
  | (none, s) => admitEvict port p false s

/-- A waiting agent request runs, by its type. -/
def replayAgent (port : Nat) (p : Packet) (x : Option Nat) (s : State) : State :=
  if p.type.toNat = tWRBACK ∨ p.type.toNat = tWRBACKS then admitWrBack port p true s
  else if p.type.toNat = tEVICT then admitEvict port p true s
  else admitAgent port p (stillSlot s p x) true s

/-! Answers to the home -/

/-- GrantAck closes the requester's transaction (R332). One that comes before the lead's answer is remembered. -/
def homeGrantAck (p : Packet) (s : State) : State :=
  let line := lineOf (msgOff p)
  match txnOf s line with
  | none => s
  | some t =>
    let from_ := match t.req with | some r => (reqEp r).map (·.1) | none => none
    if from_ = some p.src.toNat then
      if t.grantAck then endTxn line s
      else if t.forward then txnMod line (fun t => { t with early := true }) s
      else s
    else s

/-- The awaited slot that an answer comes from: its TID returns the slot that was asked (R361), whose endpoint is its SRC. -/
def awaitedSlot (s : State) (t : Txn) (p : Packet) : Option Nat :=
  (t.await.find? fun a => a.1 == p.tid.toNat && match cohSlot s a.1 with | some x => x.ep == p.src.toNat | none => false).map (·.1)

/-- RecallAck (Table 9-3): RESULT 1 brings the dirty data, 2 says that the line is not held. -/
def homeRecallAck (p : Packet) (s : State) : State :=
  let line := lineOf (msgOff p)
  let result := fld p.arg 2 2
  match txnOf s line with
  | none => s
  | some t =>
    match awaitedSlot s t p with
    | none => s
    | some n => recallAnswer line n (result == 2) (if result = 1 then some (slice p.payload 0 64, p.pois.getLsbD 0) else none) s

/-! Snoops of a remote home for this hub's hosts (R322) -/

/-- RecallAck of this hub for its hosts, once every one has answered: dirty data, a copy still held, or none. -/
def snoopAck (n : Snoop) (s : State) : State :=
  let result := if n.dirty.isSome then 1 else if n.held then 0 else 2
  send { mkPacket s tRECALLACK n.home (w64 n.off) (w64 (inFld 2 2 result)) (match n.dirty with | some d => d.1 | none => []) with
    tid := BitVec.ofNat 18 n.tid, pois := w64 (b2n (match n.dirty with | some d => d.2 | none => false)) } s

/-- A line of another home that a host of this hub owns (log entry 145). -/
def hostOwns (s : State) (hp home off : Nat) : Bool := s.host.owned.contains (hp, home, off)

/-- Record that a host owns a line of another home, or that it does no longer. -/
def ownedSet (hp home off : Nat) (own : Bool) (s : State) : State :=
  { s with host := { s.host with owned := (if own then [(hp, home, off)] else []) ++ s.host.owned.filter (· ≠ (hp, home, off)) } }

/-- The ports that run CXL.mem and whose committed decoders reach a line of a remote home, with the host address. A recall names no host, so each of
them is snooped (log entry 24). -/
def snoopPorts (s : State) (home off : Nat) : List (Nat × Nat) :=
  [0, 1].filterMap fun hp => if rbit s (Reg.hostpStatus + 256 * hp) 0 10 then (hpaOf s hp home off).map fun a => (hp, a) else none

/-- RecallInv or RecallShare from a remote home: passed to the hosts by back-invalidation, or answered NOT_HELD where none can be reached. -/
def hubSnooped (p : Packet) (share : Bool) (s : State) : State :=
  let off := msgOff p
  let home := p.src.toNat
  let ports := snoopPorts s home off
  let n : Snoop := { ports := ports, home := home, off := off, tid := p.tid.toNat, share := share, held := false, dirty := none }
  let s := ownedSet 0 home off false (ownedSet 1 home off false s)
  if ports.isEmpty then snoopAck n s
  else ports.foldl (fun s q => emit (.cxlSnoop q.1 q.2 share) s) { s with host := { s.host with snoops := s.host.snoops ++ [n] } }

/-- A host answers a snoop passed on for another home; the last answer lets this hub answer the home. -/
def snoopAnswered (n : Snoop) (hp : Nat) (kept : Bool) (s : State) : State :=
  let m := { n with ports := n.ports.filter fun q => q.1 ≠ hp, held := n.held || kept }
  if m.ports.isEmpty then snoopAck m { s with host := { s.host with snoops := s.host.snoops.erase n } }
  else { s with host := { s.host with snoops := replaceFirst (· == n) (fun _ => m) s.host.snoops } }

/-! Walks (R346) -/

/-- Recall what the running walks match on lines that no transaction holds. -/
def walkRecall (s : State) : State :=
  (s.coh.walks.filter (·.running)).foldl (fun s w =>
    (walkHits s w).foldl (fun s h =>
      if (txnOf s h.1).isSome || !txnRoom s then s
      else resolveTxn h.1 (recallAll h.1 false h.2 (openTxn (newTxn h.1 .de none none) s))) s) s

/-- A pass begins: up to 8 waiting walks share it. -/
def walkStart (s : State) : State :=
  if s.coh.walks.any (·.running) || s.coh.walks.isEmpty then s
  else walkRecall { s with coh := { s.coh with walks := (s.coh.walks.zipIdx.map fun e => if e.2 < 8 then { e.1 with running := true } else e.1) } }

/-- Everything the running walks matched is answered, and no open transaction leaves a copy that they match. -/
def walkClear (s : State) : Bool := (s.coh.walks.filter (·.running)).all fun w => (walkHits s w).isEmpty && !s.coh.txns.any (walkAwaits w)

/-- Give region num to a new owner in one step (R349). -/
def regionGive (num kind ep : Nat) (s : State) : State :=
  { s with coh := { s.coh with regions := mmod num (fun r => { r with kind := kind, ep := ep }) s.coh.regions } }

/-- What the end of a walk does for its purpose. A commit's, a reset's and a reload's walk is awaited by its own next step. -/
def walkDone (w : Walk) (s : State) : State :=
  match w.why with
  | .clearSlot n => cmdEnd Reg.cohAgentCmd 0 .ok { s with coh := { s.coh with slots := mdel n s.coh.slots } }
  | .ownReg num kind ep =>
    match mget num s.coh.regions with
    | some r => cmdEnd Reg.regionCmd r.part .ok (regionGive num kind ep s)
    | none => s
  | .ownPacket _ p =>
    let o := leAt p.payload 0 4
    reply (ackTo s p .ok 0) (bump Reg.cueApplied 0 (regionGive (fld p.arg 40 12) (o / 2 ^ 18 % 4) (o % 2 ^ 18) s))
  | .request _ p => reply (ackTo s p .ok 0) s
  | _ => s

/-- A pass ends: where its recalls are all answered the walks complete, else it goes on with lines that were held. -/
def walkEnd (s : State) : State :=
  let run := s.coh.walks.filter (·.running)
  if run.isEmpty then s
  else if walkClear s then
    run.foldl (fun s w => walkDone w s) { s with coh := { s.coh with walks := s.coh.walks.filter fun w => !w.running } }
  else walkRecall s

end Sys2Proof.Machine
end

