-- ==== Sys2Proof/Machine/Host.lean ====
section
/-! DEFINITION. What the hosts reach (chapter 11): BAR2 apertures, proxy windows and CXL.mem, served at this hub or sent to
another home, with the answers of R398 and R402. -/

namespace Sys2Proof.Machine

open Sys2Proof


def dropHost (hp : Nat) (s : State) : State := bump (Reg.hostDropped + 256 * hp) 0 s

/-! BAR2 (R398) -/

/-- The right an access needs (R372): RD 0, WR 1, AT 2. -/
def opRight : HostOp → Nat
  | .read _ => 0
  | .write _ => 1
  | _ => 2


/-- How an outcome reaches the host (R398). `early` marks an outcome of the resolution; CODEC reads as poison and a write the
tier refuses with QUOTA as an abort (DESIGN CHOICE, log entry 28). -/
def hostAnswer (path : Path) (posted early : Bool) (n : Nat) (st : Status) (data : List Byte) (s : State) : State :=
  let hp := pathPort path
  let poisoned := fun s : State =>
    let (bs, s) := hidePoison 0 (wordsOf 0 n) (slice data 0 n) s
    hostEmit path (.hostData path bs true) (dropHost hp s)
  let refuse := fun s : State => hostEmit path (.hostUr path) (bump (Reg.hostUr + 256 * hp) 0 s)
  match st with
  | .ok | .short | .widened => if posted then s else hostEmit path (.hostData path data false) s
  | .poison | .codec | .fault | .audit => if posted then dropHost hp s else poisoned s
  | .decode => if posted then dropHost hp s else if early then refuse s else poisoned s
  | .ownership => if posted then dropHost hp s else refuse s
  | .timeout | .staleEpoch | .parity | .reset | .quota => if posted then dropHost hp s else hostEmit path (.hostAbort path) s

/-- AOP, operand and compare of an AtomicOp. -/
def opAtomic : HostOp → Nat × Nat × Nat
  | .fetchAdd _ v => (0, v.toNat, 0)
  | .swap _ v => (3, v.toNat, 0)
  | .cas _ c v => (4, v.toNat, c.toNat)
  | _ => (3, 0, 0)

/-- Serve an access at this hub once nothing of it must be recalled. -/
def bar2Serve (path : Path) (off : Nat) (op : HostOp) (s : State) : State :=
  let n := opLen op
  match op with
  | .read _ =>
    let (g, s) := memRead off n (countRead off n s)
    let st := if g.codec then Status.codec else if g.pois.isEmpty then .ok else .poison
    hostAnswer path false false n st g.bytes (countSent g.pois s)
  | .write d =>
    let (ok, s) := storeCells off (d.map some) s
    hostAnswer path true false n (if ok then .ok else .poison) [] s
  | _ =>
    let (g, s) := memRead off n s
    if !g.pois.isEmpty then hostAnswer path false false n (if g.codec then .codec else .poison) g.bytes (countSent g.pois s)
    else
      let (aop, v, c) := opAtomic op
      let m := 2 ^ (8 * n)
      let s := match atomicNew aop false n (leNat g.bytes) (v % m) (c % m) with
        | some v => (storeCells off ((leBytes n v).map some) s).2
        | none => rawBlock (off / blockSize) (countAccess off n true s)
      hostAnswer path false false n .ok g.bytes s

/-- An access that passed its checks: guards, the gate of its page, the directory. -/
def admitBar2 (path : Path) (off : Nat) (op : HostOp) (fromQueue : Bool) (s : State) : State :=
  let n := opLen op
  let run := coherent off n (opRight op != 0) fromQueue (.bar2 path off op) (bar2Serve path off op)
  if opRight op = 0 then run s
  else
    inTurn off n fromQueue (.bar2 path off op) (fun s =>
      match writeGate s off with
      | .go => run s
      | .refused => hostAnswer path (opPosted op) false n .ownership [] (bump Reg.fabRefused (partAt s off) s)
      | .roDropped =>
        hostAnswer path (opPosted op) false n .quota [] (match dieAt s off with | some (ch, _) => bump Reg.flcRoDropped ch s | none => s)
      | g => holdAt off g (.bar2 path off op) s) s

/-- An access homed at this hub: the checks of R566 with the KEY of the function's partition. -/
def bar2Local (path : Path) (part off : Nat) (op : HostOp) (s : State) : State :=
  let n := opLen op
  let no := fun (st : Status) (s : State) => hostAnswer path (opPosted op) false n st [] s
  if fatal s then no .reset s
  else
    match addrOf s off n with
    | .decode => no .decode s
    | .hub => no .decode (bump Reg.fabRefused part s)
    | a =>
      let owner := addrPart s a
      if fkey s owner ≠ fkey s part then no .ownership (bump Reg.fabRefused owner s)
      else if homeStopped s a off n none then no .parity s
      else if opRight op = 2 ∧ off % n ≠ 0 then no .decode s
      else if opRight op = 0 then admitBar2 path off op false s
      else
        match writeGuards off (.host (pathPort path)) s with
        | (false, s) => no .ownership s
        | (true, s) => admitBar2 path off op false s

/-- A request held at step 1 of a commit: its address lies in a changed entry (Table 10-7). -/
def commitHolds (s : State) (fa : Nat) : Bool :=
  match s.fab.commit with
  | some c => c.changed.any fun r => decide (r.1 ≤ fa) && decide (fa < r.2)
  | none => false

def holdReq (h : HeldReq) (s : State) : State :=
  match s.fab.commit with
  | some c => { s with fab := { s.fab with commit := some { c with held := c.held ++ [h] } } }
  | none => s

/-- The packet of an access sent to another home. -/
def opPacket (s : State) (ep off : Nat) (op : HostOp) : Packet :=
  match op with
  | .read n => { mkPacket s tRD ep (w64 off) 0 [] with len := BitVec.ofNat 13 n.val }
  | .write d => mkPacket s tWR ep (w64 off) 0 d
  | op =>
    let (aop, v, c) := opAtomic op
    let n := opLen op
    mkPacket s tATOMIC ep (w64 off) (w64 (aop + 16 * b2n (n == 8))) (leBytes n v ++ if aop = 4 then leBytes n c else [])

/-- Fabric base of a function's aperture. -/
def aptBase (s : State) (fn : Nat) : Nat := (rget s Reg.aptBaseLo fn).toNat + (rget s Reg.aptBaseHi fn).toNat * 2 ^ 32

/-- Forward an access at a fabric address for a partition, from BAR2 (`proxy` false) or a proxy window. -/
def hostForward (path : Path) (part fa : Nat) (op : HostOp) (proxy : Bool) (s : State) : State :=
  let n := opLen op
  if unitStopped s 8 (some part) then hostAnswer path (opPosted op) false n .parity [] s else
  match resolve fa part (opRight op) s with
  | (.decode, s) => hostAnswer path (opPosted op) true n .decode [] (if opRight op = 0 then s else bump Reg.fabUnmapped part s)
  | (.ownership, s) => hostAnswer path (opPosted op) true n .ownership [] s
  | (.home ep off, s) =>
    if ep = selfEp s then bar2Local path part off op s
    else
      let owner := if proxy then ReqOwner.proxy path (opPosted op) else ReqOwner.bar2 path (opPosted op)
      match sendReq (mkReq (stampKey s part (opPacket s ep off op)) (some fa) (opRight op) part owner) s with
      | (.gone, s) => s
      | (.failed st, s) => hostAnswer path (opPosted op) false n st [] s

/-- An access to BAR2 of the PF or of a partition function; 128-bit CAS is unsupported. -/
def bar2Access (path : Path) (off : Nat) (op : HostOp) (s : State) : State :=
  let n := opLen op
  match pathPart s path with
  | none => hostAnswer path (opPosted op) true n .ownership [] s
  | some part =>
    if op = .cas128 then hostAnswer path false true n .ownership [] s
    else
      let fa := aptBase s (fnIdx path) + off
      if commitHolds s fa then holdReq (.bar2 path off op) s else hostForward path part fa op false s

/-! Proxy windows (R386, R399) -/

/-- Forward the next waiting request of a proxy function once the one before is answered. -/
def proxyPump (path : Path) (s : State) : State :=
  let i := fnIdx path
  let f := fnOf s i
  match f.proxyQ with
  | [] => s
  | (off, op) :: rest =>
    if f.proxyBusy then s
    else
      let s := fnSet i (fun f => { f with proxyQ := rest }) s
      match path, pathPart s path with
      | .vf p n, some part =>
        match proxyOf s p.val n.val with
        | some ws =>
          let fa := quad ws 0 / 4096 * 4096 + off
          if commitHolds s fa then fnSet i (fun f => { f with proxyQ := (off, op) :: rest }) s
          else
            let before := s.fab.reqs.length
            let s := hostForward path part fa op true s
            if before < s.fab.reqs.length then fnSet i (fun f => { f with proxyBusy := true }) s else s
        | none => hostAnswer path (opPosted op) true (opLen op) .ownership [] s
      | _, _ => hostAnswer path (opPosted op) true (opLen op) .ownership [] s

/-- The number of proxy requests that wait bounds how often the queue can be looked at. -/
def proxyDrain (path : Path) (s : State) : State :=
  (List.range ((fnOf s (fnIdx path)).proxyQ.length)).foldl (fun s _ => proxyPump path s) s

/-- An access to the window of a proxy function: reads and writes only (R386), below 2^BAR_LOG. -/
def proxyAccess (path : Path) (off : Nat) (op : HostOp) (s : State) : State :=
  match path with
  | .vf p n =>
    match proxyOf s p.val n.val with
    | some ws =>
      if 2 ^ (quad ws 1 / 2 ^ 18 % 64) ≤ off ∨ opRight op = 2 then hostAnswer path (opPosted op) true (opLen op) .ownership [] s
      else proxyPump path (fnSet (fnIdx path) (fun f => { f with proxyQ := f.proxyQ ++ [(off, op)] }) s)
    | none => hostAnswer path (opPosted op) true (opLen op) .ownership [] s
  | _ => hostAnswer path (opPosted op) true (opLen op) .ownership [] s

/-- An access to BAR2 of any function: there is none in the boot layout (R514); refused while its function resets (R443), in a fatal condition (Table
14-2), and as R402 says while a reset of its partition runs (Table 12-4). -/
def barAccess (path : Path) (off : Nat) (op : HostOp) (s : State) : State :=
  if fnResetting s path || s.boot.image.isNone then hostAnswer path (opPosted op) true (opLen op) .ownership [] s
  else if fatal s then hostAnswer path (opPosted op) false (opLen op) .reset [] s
  else if (match pathPart s path with | some p => intakeStopped s p | none => false) then hostAnswer path (opPosted op) false (opLen op) .poison [] s
  else if isProxy s path then proxyAccess path off op s else bar2Access path off op s

/-! CXL.mem (R395, R401, R402, Table 9-4) -/

/-- CXL_MEM of HOSTP_STATUS. -/
def cxlRuns (s : State) (hp : Nat) : Bool := rbit s (Reg.hostpStatus + 256 * hp) 0 10

/-- The committed decoder that covers a host address: fabric address and partition. -/
def hdmFind (s : State) (hp hpa : Nat) : Option (Nat × Nat) :=
  (s.host.hdm.find? fun d => d.1 / 8 == hp && d.2.committed && decide (d.2.base ≤ hpa) && decide (hpa < d.2.base + d.2.size)).map
    fun d => (d.2.fa + (hpa - d.2.base), d.2.part)

/-- Poisoned data for a host: the bytes are free values. -/
def cxlPoison (hp tag : Nat) (s : State) : State :=
  let (bs, s) := hidePoison 0 (wordsOf 0 64) (List.replicate 64 0) s
  emit (.cxlData hp tag bs true gI) s

/-- How a CXL.mem request that is not served ends: a read or ownership request gets poisoned data, a write its completion. -/
def cxlFail (hp op tag : Nat) (s : State) : State := if op = 0 then cxlPoison hp tag s else emit (.cxlCmp hp tag gI) s

/-- The cells of a MemWr under its byte enables. -/
def beCells (data : List Byte) (be : W64) : List (Option Byte) :=
  (slice data 0 64).zipIdx.map fun e => if be.getLsbD e.2 then some e.1 else none

/-- A MemRd or MemInv of a line homed here. -/
def cxlRead (hp line : Nat) (mv : MetaValue) (tag : Nat) (inv fromQueue : Bool) (s : State) : State :=
  let off := line * 64
  let r := CohReq.host hp (if inv then 2 else 0) line mv tag [] 0 false
  let plain := fun s : State =>
    coherent off 64 false fromQueue r (fun s =>
      if inv then emit (.cxlCmp hp tag gI) s
      else let (bs, bad, s) := lineData line (countRead off 64 s); emit (.cxlData hp tag bs bad gI) s) s
  if mv = .i then plain s
  else
    match slotOfHost s hp with
    | some x =>
      if cacheable s off (some x) then
        caching line fromQueue r (fun s =>
          if mv = .a then ownRead line x inv r (countAccess off 64 true s) else sharedRead line x true r (countRead off 64 s)) s
      else plain (bump Reg.cohUncached (partAt s off) s)
    | none => plain (bump Reg.cohUncached (partAt s off) s)

/-- The host is the recorded owner of a line. -/
def hostOwner (s : State) (hp line : Nat) : Option Nat := (slotOfHost s hp).filter fun x => ownerOf s line == some x && !slotLost s x

/-- A MemWr of a line homed here: the dirty data of a snooped line, the owner's write-back, or an invalidating write, which the guards of R566 may
refuse; the last two wait where their page holds writes (R83, R493). -/
def cxlWrite (hp line : Nat) (mv : MetaValue) (data : List Byte) (be : W64) (bad : Bool) (tag : Nat) (fromQueue : Bool) (s : State) : State :=
  let off := line * 64
  let r := CohReq.host hp 1 line mv tag data be bad
  let cells := beCells data be
  let cmp := emit (.cxlCmp hp tag gI)
  let x := slotOfHost s hp
  let snooped := match txnOf s line, x with | some t, some x => t.await.any (fun a => a.1 = x) && ownerOf s line == some x | _, _ => false
  if snooped then cmp (txnMod line (fun t => { t with wrote := true }) (hurtLine line bad (storeCells off cells s).2))
  else if (txnOf s line).isSome || (!fromQueue && waitedFor s line) then waitOn line r s
  else
    match writeGate s off with
    | .hold => holdAt off .hold (.cxl hp line mv tag data be bad) s
    | .snapWait => holdAt off .snapWait (.cxl hp line mv tag data be bad) s
    | .roDropped => cmp (match dieAt s off with | some (ch, _) => bump Reg.flcRoDropped ch s | none => s)
    | .refused => cmp (bump Reg.fabRefused (partAt s off) s)
    | .go =>
      match hostOwner s hp line with
      | some x => cmp (hurtLine line bad (writeBack line x (mv == .s) cells (dirLookup line s)).2)
      | none =>
        match writeGuards off (.host hp) s with
        | (false, s) => cmp s
        | (true, s) => coherent off 64 true true r (fun s => cmp (hurtLine line bad (storeCells off cells s).2)) s

/-- A MemClnEvct of a line homed here is an Evict (Table 9-4); it takes its turn behind an open transaction. -/
def cxlClean (hp line : Nat) (mv : MetaValue) (tag : Nat) (fromQueue : Bool) (s : State) : State :=
  if (txnOf s line).isSome || (!fromQueue && waitedFor s line) then waitOn line (.host hp 3 line mv tag [] 0 false) s
  else emit (.cxlCmp hp tag gI) (match slotOfHost s hp with | some x => evictNotice line x (dirLookup line s) | none => s)

/-- A waiting request of a host runs. -/
def replayHost (hp op line : Nat) (mv : MetaValue) (tag : Nat) (data : List Byte) (be : W64) (bad : Bool) (s : State) : State :=
  if op = 1 then cxlWrite hp line mv data be bad tag true s
  else if op = 3 then cxlClean hp line mv tag true s
  else cxlRead hp line mv tag (op == 2) true s

/-- The message that carries a host's request to another home (R322). A host's write goes as WR, which recalls every copy. -/
def cxlPacket (s : State) (op ep off : Nat) (mv : MetaValue) : Packet :=
  let t := if op = 3 then tEVICT else
    match mv with | .i => tRD | .s => tRDSHARED | .a => if op = 2 then tUPGRADE else tRDOWN
  { mkPacket s t ep (w64 off) 0 [] with len := if t = tRD then 64 else 0 }

/-- The runs of enabled bytes of a write, as offset and bytes. -/
def beRuns (cells : List (Option Byte)) : List (Nat × List Byte) :=
  (cells.zipIdx.foldl (fun (acc : List (Nat × List Byte)) e =>
    match e.1, acc with
    | none, _ => acc
    | some b, (o, bs) :: t => if o + bs.length = e.2 then (o, bs ++ [b]) :: t else (e.2, [b]) :: (o, bs) :: t
    | some b, [] => [(e.2, [b])]) []).reverse

/-- A request at this hub as a home: the address and KEY checks, and the guards for an ownership request; a write meets its own when it runs. -/
def cxlLocal (hp op off part : Nat) (mv : MetaValue) (data : List Byte) (be : W64) (bad : Bool) (tag : Nat) (s : State) : State :=
  let line := lineOf off
  match addrOf s off 64 with
  | .decode => cxlFail hp op tag s
  | .hub => cxlFail hp op tag (bump Reg.fabRefused part s)
  | a =>
    let owner := addrPart s a
    if fkey s owner ≠ fkey s part then cxlFail hp op tag (bump Reg.fabRefused owner s)
    else if homeStopped s a off 64 none then cxlFail hp op tag s
    else if op = 1 then cxlWrite hp line mv data be bad tag false s
    else if mv = .a then
      match writeGuards off (.host hp) s with
      | (false, s) => cxlFail hp op tag s
      | (true, s) => cxlRead hp line mv tag (op == 2) false s
    else cxlRead hp line mv tag (op == 2) false s

/-- The offset of a host address whose home is this hub. -/
def hostHome (s : State) (hp hpa : Nat) : Option Nat :=
  match hdmFind s hp hpa with
  | some (fa, part) =>
    match resolveIn s.fab.current (fa / 64 * 64) (fkey s part) 0 with
    | .home ep off => if ep = selfEp s then some off else none
    | _ => none
  | none => none

/-- The host is being snooped for the line of a fabric address, here or at another home: its write brings the dirty data. -/
def hostSnooped (s : State) (hp fa part : Nat) : Bool :=
  match resolveIn s.fab.current fa (fkey s part) 0 with
  | .home ep off =>
    (s.host.snoops.any fun n => n.ports.any (fun q => q.1 == hp) && n.home == ep && n.off == off) ||
      (ep == selfEp s && match txnOf s (lineOf off), slotOfHost s hp with | some t, some x => t.await.any fun a => a.1 == x | _, _ => false)
  | _ => false

/-- The dirty data of a line that another home snoops goes into the answer to that snoop, which a host that gives the line up has thereby answered. -/
def snoopWritten (hp ep off : Nat) (mv : MetaValue) (data : List Byte) (bad : Bool) (s : State) : State :=
  let here := fun n : Snoop => n.ports.any (fun q => q.1 == hp) && n.home == ep && n.off == off
  match s.host.snoops.find? here with
  | some n =>
    let m := { n with dirty := some (slice data 0 64, bad) }
    let s := { s with host := { s.host with snoops := replaceFirst here (fun _ => m) s.host.snoops } }
    if mv = .i then snoopAnswered m hp false s else s
  | none => s

/-- A MemWr that this hub carries to another home: the write-back of a line its host owns, or WRs of the enabled bytes. Where the home snoops the line,
the data goes to it with the answer and the write-back follows, which the home acknowledges as stale (R338). The host's completion waits for every
answer (R293). -/
def cxlSendWrite (hp ep off fa part : Nat) (mv : MetaValue) (data : List Byte) (be : W64) (bad : Bool) (tag : Nat) (s : State) : State :=
  let whole := be == BitVec.allOnes 64
  let snooped := s.host.snoops.any fun n => n.ports.any (fun q => q.1 == hp) && n.home == ep && n.off == off
  let own := ReqOwner.cxl hp tag 1
  let ps := if whole && (snooped || hostOwns s hp ep off) then [{ mkPacket s (if mv = .s then tWRBACKS else tWRBACK) ep (w64 off) 0 (slice data 0 64) with pois := w64 (b2n bad) }]
    else (beRuns (beCells data be)).map fun r => { mkPacket s tWR ep (w64 (off + r.1)) 0 r.2 with pmask := bad, pois := w64 (b2n bad) }
  let s := if whole then ownedSet hp ep off false (if snooped then snoopWritten hp ep off mv data bad s else s) else s
  let (sent, s) := ps.foldl (fun (acc : Bool × State) p =>
    match sendReq (mkReq (stampKey acc.2 part p) (some (fa + (p.addr.toNat - off))) 1 part own) acc.2 with
    | (.gone, s) => (true, s)
    | (.failed _, s) => (acc.1, s)) (false, s)
  if sent then s else emit (.cxlCmp hp tag gI) s

/-- A CXL.mem request (op 0 MemRd, 1 MemWr, 2 MemInv) at a host address. -/
def cxlRequest (hp op hpa : Nat) (mv : MetaValue) (data : List Byte) (be : W64) (bad : Bool) (tag : Nat) (s : State) : State :=
  if !cxlRuns s hp then s
  else if fatal s then cxlFail hp op tag s
  else
    match hdmFind s hp hpa with
    | none => cxlFail hp op tag (dropHost hp s)
    | some (fa, part) =>
      let fa := fa / 64 * 64
      let right := if op = 1 ∨ mv = .a then 1 else 0
      if intakeStopped s part && !(op == 1 && hostSnooped s hp fa part) then cxlFail hp op tag (dropHost hp s)
      else if commitHolds s fa then holdReq (.cxl hp op hpa mv data be bad tag) s
      else if unitStopped s 8 (some part) then cxlFail hp op tag s
      else
        match resolve fa part right s with
        | (.decode, s) => cxlFail hp op tag (if op = 1 then bump Reg.fabUnmapped part s else s)
        | (.ownership, s) => cxlFail hp op tag s
        | (.home ep off, s) =>
          if ep = selfEp s then cxlLocal hp op off part mv data be bad tag s
          else if op = 1 then cxlSendWrite hp ep off fa part mv data be bad tag s
          else
            match sendReq (mkReq (stampKey s part (cxlPacket s op ep off mv)) (some fa) right part (.cxl hp tag op)) s with
            | (.gone, s) => s
            | (.failed _, s) => cxlFail hp op tag s

/-- MemClnEvct (treated as Evict): local, or an Evict to the home. -/
def cxlEvict (hp hpa tag : Nat) (s : State) : State :=
  if !cxlRuns s hp then s
  else if fatal s then emit (.cxlCmp hp tag gI) s
  else
    match hdmFind s hp hpa with
    | none => emit (.cxlCmp hp tag gI) (dropHost hp s)
    | some (fa, part) =>
      let fa := fa / 64 * 64
      match resolve fa part 0 s with
      | (.home ep off, s) =>
        if ep = selfEp s then cxlClean hp (lineOf off) .i tag false s
        else
          match sendReq (mkReq (stampKey s part (cxlPacket s 3 ep off .i)) (some fa) 0 part (.cxl hp tag 3)) (ownedSet hp ep off false s) with
          | (.gone, s) => s
          | (.failed _, s) => emit (.cxlCmp hp tag gI) s
      | (_, s) => emit (.cxlCmp hp tag gI) s

/-- A back-invalidation response: to this home's recall, or to one passed on for another home. -/
def biResponse (hp hpa : Nat) (r : BiRsp) (s : State) : State :=
  if !cxlRuns s hp then s
  else
    match s.host.snoops.find? fun n => n.ports.contains (hp, hpa) with
    | some n => snoopAnswered n hp (r != .i) s
    | none =>
      match hdmFind s hp hpa with
      | none => s
      | some (fa, part) =>
        match resolveIn s.fab.current (fa / 64 * 64) (fkey s part) 0, slotOfHost s hp with
        | .home ep off, some x =>
          if ep = selfEp s then
            match txnOf s (lineOf off) with
            | some t =>
              let s := if r = .i then txnMod (lineOf off) (fun t => { t with gone := x :: t.gone }) s else s
              recallAnswer (lineOf off) x (r == .i && !t.wrote) none s
            | none => s
          else s
        | _, _ => s

end Sys2Proof.Machine
end

