-- ==== Sys2Proof/Machine/Drain.lean ====
section
/-! DEFINITION. What runs again once it need not wait: requests behind a line (R334), writes held at a page (R83, R493), cue
stores whose counts are reached (R310). -/

namespace Sys2Proof.Machine

open Sys2Proof

/-- A request that waited runs; its checks were made when it arrived. -/
def runWaiting (r : CohReq) (s : State) : State :=
  match r with
  | .agent port p x => replayAgent port p x s
  | .host hp op line mv tag data be bad => replayHost hp op line mv tag data be bad s
  | .packet port p =>
    if p.type.toNat = tRD then coherent p.addr.toNat (pktLen p) false true r (serveRd p) s
    else if p.type.toNat = tWR then admitWr port p true s
    else if p.type.toNat = tATOMIC then admitAtomic port p true s
    else s
  | .bar2 path off op => admitBar2 path off op true s
  | .cue port p => admitCue port p true s

/-- What a waiter waits for has come: its line is free, or the home has room for a transaction. -/
def waiterFree (s : State) (w : Waiter) : Bool := match w.on with | some line => (txnOf s line).isNone | none => txnRoom s

/-- The first waiting request that may run and before which no other waits for a line of its own. -/
def readyWaiting (s : State) : Option Waiter :=
  (s.coh.waiting.zipIdx.find? fun e => waiterFree s e.1 && !(s.coh.waiting.take e.2).any fun f => f.req.meets e.1.req).map (·.1)

/-- Run waiting requests, at most n. -/
def drain : Nat → State → State
  | 0, s => s
  | n + 1, s =>
    match readyWaiting s with
    | none => s
    | some w =>
      drain n (graced w.grace w.req.range.1 w.req.range.2 (runWaiting w.req) { s with coh := { s.coh with waiting := s.coh.waiting.erase w } })

/-- Bring everything up to date that a command may have set free. -/
def settle (s : State) : State :=
  let s := drain (s.coh.waiting.length + 1) s
  if s.ord.held.isEmpty then s
  else
    let srcs := (s.ord.held.map fun h => h.p.src.toNat).dedup
    let s := srcs.foldl (fun s e => drainHeld e s) s
    drain (s.coh.waiting.length + 1) s

/-- A write held at a page runs. -/
def runHeld (h : HeldAccess) (s : State) : State :=
  match h with
  | .packet port p =>
    if p.type.toNat = tWR then admitWr port p false s
    else if p.type.toNat = tATOMIC then admitAtomic port p false s
    else if p.type.toNat = tWRBACK ∨ p.type.toNat = tWRBACKS then admitWrBack port p false s
    else admitCue port p false s
  | .bar2 path off op => admitBar2 path off op false s
  | .cxl hp line mv tag data be bad => cxlWrite hp line mv data be bad tag false s

/-- Writes held at a page run in arrival order. -/
def runHeldAll (hs : List HeldAccess) (s : State) : State := hs.foldl (fun s h => runHeld h s) s

end Sys2Proof.Machine
end

