-- ==== Sys2Proof/Machine/Stop.lean ====
section
/-! DEFINITION. Queues and channels as the resets see them; ending work at once: aborts, the stop of a unit by a parity fault
(R465) and the fatal response (R474). -/

namespace Sys2Proof.Machine

open Sys2Proof

/-! Queues (R150, R151) -/

/-- A queue with nothing in it. -/
def Queue.idle : Queue :=
  { descs := [], inKernel := false, wide := [], widened := [], worst := .ok, bad := 0, owed := [], bset := [], usable := [] }

def queueOf (s : State) (q : Nat) : Queue := mgetD Queue.idle q s.eng.queues

def queueSet (q : Nat) (f : Queue → Queue) (s : State) : State :=
  { s with eng := { s.eng with queues := mput Queue.idle q (f (queueOf s q)) s.eng.queues } }

/-- Register r of queue slot k: the offset of its copy. -/
def slotReg (r k : Nat) : Nat := r + 64 * k

/-- The slot that maps a queue: its partition and number (R151). -/
def queueSlot (s : State) (q : Nat) : Option (Nat × Nat) :=
  (s.regs.find? fun e =>
    let off := e.1 / 65536
    decide (Reg.dqMap ≤ off) && decide (off < Reg.dqMap + 64 * 64) && (off - Reg.dqMap) % 64 == 0 && bit e.2 31 && fld e.2 0 12 == q).map
    fun e => (e.1 % 65536, (e.1 / 65536 - Reg.dqMap) / 64)

/-- The queue behind a slot. -/
def slotQueue (s : State) (part k : Nat) : Option Nat :=
  let v := rget s (slotReg Reg.dqMap k) part
  if bit v 31 then some (fld v 0 12) else none

def queuePart (s : State) (q : Nat) : Option Nat := (queueSlot s q).map (·.1)

/-- The queues of a partition. -/
def partQueues (s : State) (part : Nat) : List (Nat × Nat) :=
  (List.range 64).filterMap fun k => (slotQueue s part k).map fun q => (k, q)

/-- No descriptor fetched or in flight, no record owed (Table 4-18). A descriptor whose writes are still being performed is in flight only for
R165. -/
def queueIdle (s : State) (q : Nat) : Bool :=
  let x := queueOf s q
  (x.descs.all fun d => d.stage == DescStage.completed || d.stage == DescStage.fetching) && x.owed.isEmpty

def descOf (s : State) (q seq : Nat) : Option Desc := (queueOf s q).descs.find? fun d => d.seq == seq

def descMod (q seq : Nat) (f : Desc → Desc) (s : State) : State :=
  queueSet q (fun x => { x with descs := replaceFirst (fun d => d.seq == seq) f x.descs }) s

/-- A descriptor meets a status. -/
def descMeet (q seq : Nat) (st : Status) (s : State) : State := descMod q seq (fun d => { d with statuses := st :: d.statuses }) s

/-- End a descriptor at once with a status (R173): it only waits for DESCRIPTOR_COMPLETE. One whose ring entry is being read keeps the status for the
ring access (R152). -/
def Desc.stop (st : Status) (d : Desc) : Desc :=
  if d.stage = .completed then d else { d with statuses := st :: d.statuses, stage := if d.stage = .fetching then .fetching else .ran }

/-- Reads of descriptors of queue q that p accepts are nobody's any more. -/
def orphanReads (q : Nat) (p : Nat → Bool) (s : State) : State :=
  { s with fab := { s.fab with reqs := s.fab.reqs.map fun r =>
    match r.owner with | .descRead q' n _ _ => if q' = q ∧ p n then { r with owner := .hub } else r | _ => r } }

/-- End every descriptor of a queue that p accepts; one whose ring entry is still being read is not yet fetched and goes. -/
def stopDescs (q : Nat) (p : Desc → Bool) (st : Status) (s : State) : State :=
  let gone := ((queueOf s q).descs.filter fun d => d.stage == DescStage.fetching && p d).map (·.seq)
  queueSet q (fun x => { x with descs := (x.descs.filter fun d => !gone.contains d.seq).map fun d => if p d then d.stop st else d })
    (orphanReads q gone.contains s)

/-- DQ_CTL.ABORT (Table 4-18): ENABLE clears, every fetched or running descriptor ends with RESET; its queries end. -/
def abortQueue (q : Nat) (s : State) : State :=
  let s := match queueSlot s q with | some (p, k) => rsetFld (slotReg Reg.dqCtl k) p 0 1 0 s | none => s
  let s := stopDescs q (fun _ => true) .reset s
  { s with eng := { s.eng with queries := s.eng.queries.filter fun x => x.q ≠ q } }

/-- A ring access faults (R152): ENABLE clears, RING_FAULT is set, the queue's error vector is raised when ERR_EN is 1. -/
def ringFault (q : Nat) (s : State) : State :=
  match queueSlot s q with
  | none => s
  | some (p, k) =>
    let s := rsetFld (slotReg Reg.dqStatus k) p 10 1 1 (rsetFld (slotReg Reg.dqCtl k) p 0 1 0 s)
    let c := rget s (slotReg Reg.dqCfg k) p
    if bit c 11 then raiseVec p (fld c 12 6) s else s

/-! DMA channels (R420, R425) -/

def chanKey (e c : Nat) : Nat := e * 8 + c

def Chan.idle : Chan :=
  { state := 0, src := 0, dst := 0, len := 0, asid := 0, swap := 0, tally := none, vector := none, done := 0, statuses := [],
    waitPri := false, waitEdges := 0, priLimit := 0, retried := false, ended := false, bad := 0, remote := [], remotePoison := [] }

def chanOf (s : State) (e c : Nat) : Option Chan := mget (chanKey e c) s.host.chans

def chanMod (e c : Nat) (f : Chan → Chan) (s : State) : State :=
  { s with host := { s.host with chans := mmod (chanKey e c) f s.host.chans } }

/-- End a channel at once with a status: it waits for DMA_COMPLETE. -/
def Chan.stop (st : Status) (c : Chan) : Chan := if c.ended then c else { c with statuses := st :: c.statuses, ended := true, waitPri := false }

/-- End every channel of the engines that p accepts. -/
def stopChans (p : Nat → Bool) (st : Status) (s : State) : State :=
  { s with host := { s.host with chans := mmapv (fun k c => if p (k / 8) then c.stop st else c) s.host.chans } }

/-- Page moves under way end at the old location: held writes apply there. -/
def abandonMoves (p : Nat → Move → Bool) (s : State) : State :=
  let gone := s.store.moves.filter fun m => p m.1 m.2
  let s := { s with store := { s.store with moves := s.store.moves.filter fun m => !p m.1 m.2 } }
  gone.foldl (fun s m => runHeldAll m.2.held s) s

/-- Row moves that p accepts end where the row was. -/
def abandonRows (p : Nat → Bool) (s : State) : State := { s with rows := { s.rows with moves := s.rows.moves.filter fun m => !p m.1 } }

/-- A projector stops (R70): its copies are dropped, its window stays reserved. -/
def projStop (a : Nat) (s : State) : State :=
  { s with store := { s.store with projs := mmod a (fun p => { p with running := false, copying := false, resident := [] }) s.store.projs } }

/-- Answer a waiting request of the home with a status; the fatal response refuses them with RESET. -/
def refuseWaiting (r : CohReq) (st : Status) (s : State) : State :=
  match r with
  | .agent _ p _ => refuseAgent p st s
  | .host hp op _ _ tag _ _ _ => cxlFail hp op tag s
  | .packet _ p =>
    if p.type.toNat = tWR then refuseWr p st s else if p.type.toNat = tATOMIC then refuseAtomic p st s else reply (rspTo s p st 0 0 []) s
  | .bar2 path _ op => hostAnswer path (opPosted op) false (opLen op) st [] s
  | .cue _ p => reply (ackTo s p st 0) s

/-- Answer a held write with a status. -/
def refuseHeld (h : HeldAccess) (st : Status) (s : State) : State :=
  match h with
  | .packet _ p =>
    if p.type.toNat = tWR then refuseWr p st s
    else if p.type.toNat = tATOMIC then refuseAtomic p st s
    else if p.type.toNat = tWRBACK ∨ p.type.toNat = tWRBACKS then refuseAgent p st s
    else cueFail p st s
  | .bar2 path _ op => hostAnswer path (opPosted op) false (opLen op) st [] s
  | .cxl hp _ _ tag _ _ _ => cxlFail hp 1 tag s

/-- The snapshot stream ends (R495): its status is recorded, its tally and vector act, the SNAP trigger is raised. Accesses that wait are the caller's. -/
def snapEnd (st : Status) (s : State) : State :=
  match s.rel.snap with
  | none => s
  | some sn =>
    let s := { s with
      rel := { s.rel with snap := none }
      fab := { s.fab with reqs := s.fab.reqs.map fun r => if r.owner == ReqOwner.snap then { r with owner := .hub } else r } }
    let s := rset Reg.snapStatus 0 (setFld (setFld (rget s Reg.snapStatus 0) 0 1 0) 8 8 st.code) s
    let s := match sn.tally with | some t => tallyAddFor sn.part t 1 s | none => s
    trigger 13 (w64 (sn.id + st.code * 2 ^ 32)) (some sn.part) 0 (raiseOpt sn.part sn.vector s)

/-! The fatal response (Table 14-2) -/

/-- FATAL_STATUS bits (R473). -/
def fatalDir : Nat := 0
def fatalCs : Nat := 1
def fatalSec : Nat := 2

/-- A fatal condition arises: its bit is set; the first one runs the steps of Table 14-2. Requests that wait at this home are answered with RESET. -/
def fatalResponse (b : Nat) (s : State) : State :=
  let first := !fatal s
  let s := { s with boot := { s.boot with
    secReset := s.boot.secReset && b != fatalSec
    recovered := s.boot.recovered && b == fatalSec
    recovery := s.boot.recovery || (s.boot.reloadStep != 0 && b != fatalSec) } }
  let s := rset Reg.fatalStatus 0 (rget s Reg.fatalStatus 0 ||| w32 (2 ^ b)) s
  if !first then s
  else
    let s := trigger 6 (w64 (rget s Reg.fatalStatus 0).toNat) none 0 s
    let s := s.eng.queues.foldl (fun s e => abortQueue e.1 s) s
    let s := stopChans (fun _ => true) .reset s
    let moves := s.store.moves
    let waiting := s.coh.waiting
    let held := match s.rel.snap with | some sn => sn.waiting | none => []
    let s := { s with
      store := { s.store with moves := [], projs := mmapv (fun _ p => { p with running := false, copying := false, resident := [] }) s.store.projs }
      rows := { s.rows with moves := [] }
      eng := { s.eng with lanes := [] }
      coh := { s.coh with walks := [], waiting := [] } }
    let s := snapEnd .reset s
    let s := moves.foldl (fun s m => m.2.held.foldl (fun s h => refuseHeld h .reset s) s) s
    let s := held.foldl (fun s h => refuseHeld h .reset s) s
    waiting.foldl (fun s w => refuseWaiting w.req .reset s) s

/-! The stop of a unit (R465) -/

/-- The opcodes whose descriptors use a unit (Table 13-9): 1 PLACE, 3 EMB, 4 SRCH, 5 CODEC, 6 ORDER, 13 REL. -/
def unitOpcodes (u : Nat) : List Nat :=
  match u with
  | 1 => [0x50, 0x51]
  | 3 => [0x20, 0x21, 0x22]
  | 4 => [0x30, 0x31, 0x32]
  | 5 => [0x40, 0x41]
  | 6 => [0x05, 0x06, 0x13]
  | 13 => [0x60, 0x61]
  | _ => []

/-- Tiles of 256 rows. -/
def tilesOf (rows : Nat) : Nat := (rows + 255) / 256

/-- Tiles of a SEARCH: those of its centroids, in MODE INDEX on cluster lists, and of its side list, each dealt from the span's first reel (R245). -/
def searchTiles (s : State) (q : Nat) (d : Desc) : Nat :=
  let x := match s.eng.searches.find? fun r => r.q == q && r.seq == d.seq with
    | some r => some (r.image, r.vis)
    | none => (mget (qf d.bytes 1 0 6) s.eng.idxs).map fun i => (i.image, i.vis)
  match x with
  | some (im, vis) => max (if qf im 0 0 2 = 1 ∧ qf d.bytes 1 6 2 = 0 then tilesOf (qf im 4 32 25) else 0) (tilesOf (vis - qf im 1 0 37))
  | none => 0

/-- Work that falls to reel number i of a descriptor's span: MATVEC and MATMUL deal tile t to reel t mod span (R181), GATHER vector b to reel b mod span
(R213), SEARCH query n and tile t likewise (R245). How the other operations of R158 deal theirs no rule says, so any reel of the span may run some (log entry
151). -/
def dealsTo (s : State) (q : Nat) (d : Desc) (i : Nat) : Bool :=
  let b := d.bytes
  let n := fun k => decide (i < k)
  match (b.getD 0 0).toNat with
  | 0x10 => n (tilesOf (qf b 5 0 32))
  | 0x11 => n (tilesOf (qf b 5 0 32))
  | 0x20 => n (if qf b 1 17 3 = 0 then qf b 3 0 32 else qf b 3 32 32)
  | 0x30 => n (max (qf b 1 8 11) (searchTiles s q d))
  | op => [0x01, 0x02, 0x12, 0x13, 0x14, 0x16, 0x17].contains op

/-- The reel to which share n of a span falls: a reel that is off leaves its share to the next reel of the span that is on (R518). -/
def shareReel (s : State) (q span n : Nat) : Nat :=
  let base := q / 64 / 4 ^ span * 4 ^ span
  let at' := fun i => base + (n + i) % 4 ^ span
  at' ((firstBelow (fun i => !reelOff s (at' i)) (4 ^ span)).getD 0)

/-- A reel runs work of a descriptor: its home reel, or one of the span to which work is dealt. -/
def reelOf (s : State) (q : Nat) (d : Desc) (r : Nat) : Bool :=
  q / 64 == r || (List.range (4 ^ d.span)).any fun i => dealsTo s q d i && shareReel s q d.span i == r

/-- The tally that TALLY_WAIT, TALLY_ADD or REDUCE names at this hub. -/
def namedTally (d : Desc) : Option Nat :=
  match (d.bytes.getD 0 0).toNat with
  | 0x05 => some (qf d.bytes 1 0 16)
  | 0x06 => if qf d.bytes 1 16 1 = 0 then some (qf d.bytes 1 0 16) else none
  | 0x13 => some (qf d.bytes 3 32 16)
  | _ => none

/-- Whether a descriptor of queue q uses a unit, or the instance of it: REEL (2) and XLATE (10) are used by every descriptor, a reel by those
whose work it runs, ORDER (6) by those that name a tally. -/
def descUses (s : State) (u q : Nat) (inst : Option Nat) (d : Desc) : Bool :=
  if u = 2 ∨ u = 10 then
    match inst with
    | none => true
    | some i => i == d.part || (u == 2 && decide (setInst 0 ≤ i) && reelOf s q d (i - setInst 0))
  else (unitOpcodes u).contains (d.bytes.getD 0 0).toNat && (inst == none || inst == some d.part || (u == 6 && inst == (namedTally d).map setInst))

/-- A unit or an instance of it stops: its work completes with PARITY at once. PLACE stops as R564 says: placement moves under way are abandoned
at the old location and not counted. -/
def stopUnit (u : Nat) (inst : Option Nat) (s : State) : State :=
  let s := { s with mgmt := { s.mgmt with stopped := if s.mgmt.stopped.contains (u, inst) then s.mgmt.stopped else s.mgmt.stopped ++ [(u, inst)] } }
  let s := s.eng.queues.foldl (fun s e => stopDescs e.1 (descUses s u e.1 inst) .parity s) s
  let s := if u = 12 then stopChans (fun e => inst == none || inst == some (setInst e)) .parity s else s
  let s := if u = 10 ∨ u = 11 then stopChans (fun e => inst == none || dmaPart s e == inst) .parity s else s
  if u = 1 then
    abandonRows (fun k => inst == none || inst == some (tablePart s (k / 2 ^ 40)))
      (abandonMoves (fun pg m => m.kind == MoveKind.placement && (inst == none || inst == some (partAt s (pg * pageSize)))) s)
  else s

/-- A bank of the call sheet in use is found bad (R467): the current one, or the previous one while it is live. -/
def bankParity (s : State) : State :=
  if s.mgmt.csBad.contains 1 || (s.mgmt.csBad.contains 2 && s.fab.prevLive) then
    let s := rset Reg.parityFault 0 (rget s Reg.parityFault 0 ||| w32 (2 ^ 9)) s
    if rbit s Reg.fatalStatus 0 fatalCs && fatal s then s else fatalResponse fatalCs s
  else s

/-- The registers of a unit, or of an instance of it, that fail. -/
def unitFails (s : State) (u : Nat) (inst : Option Nat) : Bool :=
  s.mgmt.badParity.any fun e =>
    match regRow (e.1 / 65536) with
    | some row => row.unit == u && row.sel != Sel.fn &&
        (inst == none || (match row.sel with | .none => false | .part => inst == some (e.1 % 65536) | _ => inst == some (setInst (e.1 % 65536))))
    | none => false

/-- The instance that PARITY_WHERE names within unit u, none for a register of the unit's block. -/
def whereInst (s : State) (u : Nat) : Option Nat :=
  let lo := (rget s Reg.parityWhereLo 0).toNat
  let i := rfld s Reg.parityWhereHi 0 0 16
  match regRow lo with
  | some row => if row.unit = u then (match row.sel with | .none => none | _ => some (setInst i)) else some i
  | none => some i

/-- A unit's block registers fail. -/
def blockFails (s : State) (u : Nat) : Bool :=
  s.mgmt.badParity.any fun b => match regRow (b.1 / 65536) with | some row => row.unit == u && row.sel == Sel.none | none => false

/-- Record the first failing register of unit u while no record stands (R466). -/
def recordFail (u : Nat) (s : State) : State :=
  if rbit s Reg.parityWhereHi 0 31 then s
  else
    match s.mgmt.badParity.find? fun e => (match regRow (e.1 / 65536) with | some row => row.unit == u && row.sel != Sel.fn | none => false) with
    | some e =>
      let k := e.1 / 65536
      rset Reg.parityWhereHi 0 (w32 (2 ^ 31 + u * 2 ^ 16 + e.1 % 65536)) (rset Reg.parityWhereLo 0 (w32 ((if 0x100000 ≤ k then k - 0x100000 else k) / 4 * 4)) s)
    | none => s

/-- The check of a unit (R466): instances whose registers pass resume; the bit clears when the whole unit passes; the record clears when what
it names passes, and the next failing register found is recorded. -/
def parityRecheck (u : Nat) (s : State) : State :=
  let keep := s.mgmt.stopped.filter fun e => e.1 != u || (match e.2 with | none => blockFails s u | some i => unitFails s u (some i))
  let s := { s with mgmt := { s.mgmt with stopped := keep } }
  let hi := rget s Reg.parityWhereHi 0
  let named := bit hi 31 && fld hi 16 5 == u
  let s := if named && !unitFails s u (whereInst s u) then rset Reg.parityWhereHi 0 (hi &&& 0x7FFFFFFF) s else s
  let s := if unitFails s u none then s else rset Reg.parityFault 0 (rget s Reg.parityFault 0 &&& ~~~(w32 (2 ^ u))) s
  recordFail u s

end Sys2Proof.Machine
end

