-- ==== Sys2Proof/Machine/Xlate.lean ====
section
/-! DEFINITION. Store page tables, address-space tags, host accesses with ATS, and the MAP commands (chapter 11). -/

namespace Sys2Proof.Machine

open Sys2Proof

/-! Entries (R404). Keys of `ptes` are ASID × 2^36 + virtual page of 4 KiB. -/

/-- Pages of 4 KiB in an entry of a size code. -/
def sizePages (z : Nat) : Nat := if z = 0 then 1 else if z = 1 then 512 else 262144

def pteKey (asid vp : Nat) : Nat := asid * 2 ^ 36 + vp

/-- Whether an entry at key k covers the virtual page vp of an ASID. -/
def pteCovers (k : Nat) (e : Pte) (asid vp : Nat) : Bool :=
  k / 2 ^ 36 == asid && decide (k % 2 ^ 36 ≤ vp) && decide (vp < k % 2 ^ 36 + sizePages e.size)

/-- The entry that covers a virtual page, with its first page; pages at or above 2^48 have none. -/
def pteAt (s : State) (asid vp : Nat) : Option (Nat × Pte) :=
  if 2 ^ 36 ≤ vp then none
  else [0, 1, 2].findSome? fun z =>
    let b := vp / sizePages z * sizePages z
    match mget (pteKey asid b) s.host.ptes with
    | some e => if e.size = z then some (b, e) else none
    | none => none

/-- Table pages an ASID's tree holds (R406): a root, and one page for each node in use at each lower level. -/
def ptPagesOf (es : NMap Pte) (asid : Nat) : Nat :=
  let mine := (es.filter fun e => e.1 / 2 ^ 36 == asid).map fun e => (e.1 % 2 ^ 36, e.2.size)
  if mine.isEmpty then 0
  else
    let nodes := fun (sz b : Nat) => ((mine.filter fun e => decide (e.2 ≤ sz)).map fun e => e.1 / 2 ^ b).dedup.length
    1 + nodes 2 27 + nodes 1 18 + nodes 0 9

/-- Table pages held by every ASID. -/
def ptPagesAll (es : NMap Pte) : Nat := (((es.map fun e => e.1 / 2 ^ 36).dedup).map (ptPagesOf es)).sum

/-- Table pages held by the ASIDs of a partition. -/
def ptPagesPart (s : State) (part : Nat) : Nat :=
  (((s.host.ptes.map fun e => e.1 / 2 ^ 36).dedup.filter fun a => asidPart s a == some part).map (ptPagesOf s.host.ptes)).sum

/-- Table pages of the page-table area (PT_AREA in MiB). -/
def ptCap (s : State) : Nat := (rget s Reg.ptArea 0).toNat * 256

/-- Split an entry into entries of the next size down, which keep their targets (R407). -/
def splitPte (k : Nat) (e : Pte) (es : NMap Pte) : NMap Pte :=
  let z := e.size - 1
  (List.range 512).foldl (fun m i =>
    let o := i * sizePages z * 4096
    mset (k + i * sizePages z) { e with size := z, tgt := e.tgt + o, shd := if e.sh then e.shd + o else e.shd, hostTgt := if e.migrated then e.hostTgt + o else e.hostTgt } m) (mdel k es)

/-- Split what covers a page until no entry reaches past the range [lo, hi) and into it. -/
def splitAt : Nat → Nat → Nat → Nat → NMap Pte → NMap Pte
  | 0, _, _, _, es => es
  | f + 1, asid, lo, hi, es =>
    match es.find? fun e => e.1 / 2 ^ 36 == asid && overlap (e.1 % 2 ^ 36) (sizePages e.2.size) lo (hi - lo) && decide (0 < e.2.size) &&
        !(decide (lo ≤ e.1 % 2 ^ 36) && decide (e.1 % 2 ^ 36 + sizePages e.2.size ≤ hi)) with
    | some e => splitAt f asid lo hi (splitPte e.1 e.2 es)
    | none => es

/-- Remove every entry of a range; larger entries are split where the range ends inside them. -/
def clearRange (asid lo hi : Nat) (es : NMap Pte) : NMap Pte :=
  (splitAt 4 asid lo hi es).filter fun e => !(e.1 / 2 ^ 36 == asid && decide (lo ≤ e.1 % 2 ^ 36) && decide (e.1 % 2 ^ 36 < hi))

/-- The entries that the range touches stay in translation caches until the ASID is invalidated (R408). -/
def keepStale (asid lo hi : Nat) (s : State) : State :=
  let old := s.host.ptes.filter fun e => e.1 / 2 ^ 36 == asid && overlap (e.1 % 2 ^ 36) (sizePages e.2.size) lo (hi - lo)
  { s with host := { s.host with stale := s.host.stale ++ old } }

/-! Host accesses (R409, R410) -/

/-- FN_IDX of an ASID's function. -/
def asidFn (s : State) (asid : Nat) : Nat := rfld s Reg.asidCfg asid 29 1 * 256 + rfld s Reg.asidCfg asid 21 8

def asidPasid (s : State) (asid : Nat) : Nat := rfld s Reg.asidPasid asid 0 20

/-- Key of an ATC entry: function, PASID and 4 KiB page. -/
def atcKey (fn pasid vp : Nat) : Nat := (fn * 2 ^ 20 + pasid) * 2 ^ 52 + vp

/-- How a host translation ends. -/
inductive HostX where
  | ok (addr : Nat)
  | refused         -- refused by ATS
  | failed          -- any other failure
  deriving DecidableEq, Repr

/-- Entries of one port's ATC (R410). -/
def atcCap : Nat := 8192

/-- Put a translation into its port's ATC; which one leaves a full one is free (log entry 163). -/
def atcPut (k hp page : Nat) (w : Bool) (s : State) : State :=
  let mine := s.host.atc.filter fun e => e.1 / 2 ^ 52 / 2 ^ 20 / 256 == hp && e.1 != k
  let put := fun (m : NMap (Nat × Bool)) (s : State) => { s with host := { s.host with atc := mset k (page, w) m } }
  if mine.length < atcCap then put s.host.atc s
  else
    let (i, s) := drawBelow mine.length s
    put (mdel ((mine.map (·.1)).getD i 0) s.host.atc) s

/-- A Translation Request: refused where the Completion grants none or lacks the permission that the access needs. -/
def atsAsk (k fn pasid iova : Nat) (isWrite : Bool) (s : State) : HostX × State :=
  let s := bump Reg.atsReqs 0 (emit (.atsRequest (fn / 256) (fn % 256) pasid iova) s)
  let (ok, s) := drawBit s
  if !ok then (.refused, s)
  else
    let (w, s) := drawBit s
    let (a, s) := draw s
    let s := atcPut k (fn / 256) (a.toNat / 4096) w s
    if isWrite && !w then (.refused, s) else (.ok (a.toNat / 4096 * 4096 + iova % 4096), s)

/-- Translate a host I/O virtual address of an ASID for one access. Whether the host grants it, and to which address, the host
decides: free values. An entry without the permission that an access needs is asked for again (DESIGN CHOICE, log entry 163). -/
def hostXlate (asid iova : Nat) (isWrite : Bool) (s : State) : HostX × State :=
  let fn := asidFn s asid
  let f := fnOf s fn
  let pasid := asidPasid s asid
  if !rbit s Reg.asidCfg asid 30 || fnPart s fn != asidPart s asid || !f.busMaster || !f.pasid then (.failed, s)
  else if !f.ats then
    let (ok, s) := drawBit s
    (if ok then .ok iova else .failed, s)
  else
    let k := atcKey fn pasid (iova / 4096)
    match mget k s.host.atc with
    | some (a, w) =>
      if w || !isWrite then (.ok (a * 4096 + iova % 4096), bump (Reg.atcHits + 256 * (fn / 256)) 0 s) else atsAsk k fn pasid iova isWrite s
    | none => atsAsk k fn pasid iova isWrite s

/-- Read host memory: the bytes are the host's, and so is whether the whole completion comes marked as poison (R477): free values. -/
def hostRead (port addr n : Nat) (s : State) : List Byte × Bool × State :=
  let (bad, s) := drawBit s
  let (v, s) := draw s
  ((List.range n).map fun i => (Config.freeWord (v.toNat + i)).setWidth 8, bad, emit (.hostRead port addr n) s)

/-- Write host memory; a write of poison is marked whole (R477). -/
def hostWrite (port addr : Nat) (bs : List Byte) (bad : Bool) (s : State) : State := emit (.hostWrite port addr bs bad) s

/-! Translation (R405) -/

/-- What a virtual address of an ASID yields for one access. -/
inductive Place where
  | fabric (fa : Nat)
  | stage (off : Nat)
  | host (port addr : Nat)
  | atsRefused
  | fault
  deriving DecidableEq, Repr

/-- Use one entry for an access. -/
def placeOf (asid va b : Nat) (e : Pte) (isWrite compute : Bool) (s : State) : Place × State :=
  let o := va - b * 4096
  if (if isWrite then e.w else e.r) && (e.pin || !compute) then
    match e.kind with
    | 0 => (.fabric ((e.tgt + o) % 2 ^ 64), s)
    | 1 => (.stage (e.tgt + o), s)
    | _ =>
      match hostXlate asid (e.tgt + o) isWrite s with
      | (.ok a, s) => (.host (asidFn s asid / 256) a, s)
      | (.refused, s) => (.atsRefused, s)
      | (.failed, s) => (.fault, s)
  else (.fault, s)

/-- Translate a virtual address (R404, R405). A translation that MAP or UNMAP changed may still come from a cache (R408): which one is used is
free, and so is whether a cache holds it at all (TLB_MISSES). -/
def xlate (asid va : Nat) (isWrite compute : Bool) (s : State) : Place × State :=
  if 2 ^ 48 ≤ va then (.fault, s)
  else
    let vp := va / 4096
    let (miss, s) := drawBit s
    let s := if miss then bump Reg.tlbMisses 0 s else s
    let cached := s.host.stale.filter fun e => pteCovers e.1 e.2 asid vp
    let (i, s) := if cached.isEmpty then (0, s) else drawBelow (cached.length + 1) s
    let old := cached[i]?
    match old with
    | some e => placeOf asid va (e.1 % 2 ^ 36) e.2 isWrite compute s
    | none =>
      match pteAt s asid vp with
      | some (b, e) => placeOf asid va b e isWrite compute s
      | none => (.fault, s)

/-- Drop every cached translation of an ASID: tables' caches and the ATC entries of its function and PASID (R415). -/
def invalAsid (asid : Nat) (s : State) : State :=
  let fn := asidFn s asid
  let pasid := asidPasid s asid
  { s with host := { s.host with
      stale := s.host.stale.filter fun e => e.1 / 2 ^ 36 != asid
      atc := s.host.atc.filter fun e => e.1 / 2 ^ 52 != fn * 2 ^ 20 + pasid } }

/-! MAP commands (R407). The operand registers are those of partition set i. -/

def mapVa (s : State) (i : Nat) : Nat := (rget s Reg.mapVaLo i).toNat / 4096 * 4096 + rfld s Reg.mapVaHi i 0 16 * 2 ^ 32
def mapTgt (s : State) (i : Nat) : Nat := (rget s Reg.mapTgtLo i).toNat + (rget s Reg.mapTgtHi i).toNat * 2 ^ 32
def mapShd (s : State) (i : Nat) : Nat := (rget s Reg.mapShdLo i).toNat + (rget s Reg.mapShdHi i).toNat * 2 ^ 32

/-- The DECODE cases of MAP. -/
def mapBad (s : State) (i : Nat) : Bool :=
  let a := rget s Reg.mapAttr i
  let z := fld a 0 2
  let kind := fld a 2 2
  let sh := bit a 7
  let count := fld a 8 20
  let bytes := sizePages z * 4096
  let va := mapVa s i
  let tgt := mapTgt s i
  z == 3 || kind == 3 || count == 0 || va % bytes != 0 || tgt % bytes != 0 || (sh && mapShd s i % bytes != 0)
    || decide (2 ^ 48 < va + count * bytes) || decide (2 ^ 64 < tgt + count * bytes) || (sh && decide (2 ^ 64 < mapShd s i + count * bytes))
    || (sh && kind != 2) || (kind == 1 && !(decide (stageBase ≤ tgt) && decide (tgt + count * bytes ≤ stageEnd)))
    || (kind == 2 && !rbit s Reg.asidCfg (rfld s Reg.mapAsid i 0 12) 30)

/-- An entry that a running copy of R416 or R417 moves; a copy ends with its descriptor. -/
def entryMoves (s : State) (k : Nat) : Bool :=
  s.host.migr.any fun m => m.2.2 == k && (descOf s m.1 m.2.1).any fun d => d.stage == .started || d.stage == .waiting

/-- A range of virtual pages of an ASID touches an entry that moves (R418). -/
def rangeMoves (s : State) (asid lo hi : Nat) : Bool :=
  s.host.ptes.any fun e => e.1 / 2 ^ 36 == asid && overlap (e.1 % 2 ^ 36) (sizePages e.2.size) lo (hi - lo) && entryMoves s e.1

/-- The pages a MAP command names touch an entry that moves: it holds BUSY until the switch (R418). -/
def mapHeld (s : State) (i : Nat) : Bool :=
  let lo := mapVa s i / 4096
  rangeMoves s (rfld s Reg.mapAsid i 0 12) lo (lo + rfld s Reg.mapAttr i 8 20 * sizePages (rfld s Reg.mapAttr i 0 2))

/-- MAP: DECODE, then OWNERSHIP, then QUOTA, are looked for in this order (DESIGN CHOICE, log entry 29). -/
def mapRun (i : Nat) (s : State) : State :=
  let asid := rfld s Reg.mapAsid i 0 12
  let a := rget s Reg.mapAttr i
  if mapBad s i then cmdEnd Reg.mapCmd i .decode s
  else if asidPart s asid ≠ some i then cmdEnd Reg.mapCmd i .ownership s
  else
    let z := fld a 0 2
    let count := fld a 8 20
    let vp := mapVa s i / 4096
    let n := sizePages z
    let es := clearRange asid vp (vp + count * n) s.host.ptes
    let es := (List.range count).foldl (fun m j =>
      mset (pteKey asid (vp + j * n))
        { size := z, kind := fld a 2 2, r := bit a 4, w := bit a 5, pin := bit a 6, sh := bit a 7, migrated := false,
          tgt := mapTgt s i + j * n * 4096, shd := if bit a 7 then mapShd s i + j * n * 4096 else 0, hostTgt := 0 } m) es
    if mapHeld s i then setBusy Reg.mapCmd i true s
    else if ptCap s < ptPagesAll es then cmdEnd Reg.mapCmd i .quota s
    else
      let s := keepStale asid vp (vp + count * n) s
      cmdEnd Reg.mapCmd i .ok { s with host := { s.host with ptes := es } }

/-- UNMAP. -/
def unmapRun (i : Nat) (s : State) : State :=
  let asid := rfld s Reg.mapAsid i 0 12
  let a := rget s Reg.mapAttr i
  let z := fld a 0 2
  let count := fld a 8 20
  let bytes := sizePages z * 4096
  let va := mapVa s i
  if z = 3 ∨ count = 0 ∨ va % bytes ≠ 0 ∨ 2 ^ 48 < va + count * bytes then cmdEnd Reg.mapCmd i .decode s
  else if asidPart s asid ≠ some i then cmdEnd Reg.mapCmd i .ownership s
  else
    let lo := va / 4096
    let hi := lo + count * sizePages z
    let es := clearRange asid lo hi s.host.ptes
    if mapHeld s i then setBusy Reg.mapCmd i true s
    else if ptCap s < ptPagesAll es then cmdEnd Reg.mapCmd i .quota s
    else
      let s := keepStale asid lo hi s
      cmdEnd Reg.mapCmd i .ok { s with host := { s.host with ptes := es } }

/-- QUERY loads the operand registers with the entry that translates MAP_VA; COUNT reads 1 (DESIGN CHOICE, log entry 29). -/
def mapQueryRun (i : Nat) (s : State) : State :=
  let asid := rfld s Reg.mapAsid i 0 12
  if asidPart s asid ≠ some i then cmdEnd Reg.mapCmd i .ownership s
  else
    match pteAt s asid (mapVa s i / 4096) with
    | none => cmdEnd Reg.mapCmd i .ok (rset Reg.mapAttr i (rget s Reg.mapAttr i &&& 0x3FFFFFFF) s)
    | some (b, e) =>
      let s := rset Reg.mapVaLo i (w32 (b * 4096)) (rset Reg.mapVaHi i (w32 (b * 4096 / 2 ^ 32)) s)
      let s := rset Reg.mapTgtLo i (w32 e.tgt) (rset Reg.mapTgtHi i (w32 (e.tgt / 2 ^ 32)) s)
      let s := rset Reg.mapShdLo i (w32 e.shd) (rset Reg.mapShdHi i (w32 (e.shd / 2 ^ 32)) s)
      let v := 2 ^ 31 + 2 ^ 30 * b2n e.migrated + 2 ^ 8 + 2 ^ 7 * b2n e.sh + 2 ^ 6 * b2n e.pin + 2 ^ 5 * b2n e.w + 2 ^ 4 * b2n e.r + 4 * e.kind + e.size
      cmdEnd Reg.mapCmd i .ok (rset Reg.mapAttr i (w32 v) s)

/-- INVAL does what INVAL_ASID does (R407). -/
def mapInvalRun (i : Nat) (s : State) : State :=
  let asid := rfld s Reg.mapAsid i 0 12
  if asidPart s asid ≠ some i then cmdEnd Reg.mapCmd i .ownership s
  else if rangeMoves s asid 0 (2 ^ 36) then setBusy Reg.mapCmd i true s
  else cmdEnd Reg.mapCmd i .ok (invalAsid asid s)

/-- The MAP commands that a copy held run once it has ended. -/
def mapResume (s : State) : State :=
  (List.range (parts s)).foldl (fun s i =>
    if cmdBusy s Reg.mapCmd i then
      match rfld s Reg.mapCmd i 0 3 with | 1 => mapRun i s | 2 => unmapRun i s | _ => mapInvalRun i s
    else s) s

/-- A write of ASID_CFG (Table 11-11): a write to an ASID that is VALID keeps PART; clearing VALID removes every entry and invalidates. -/
def asidCfgSet (asid : Nat) (v : W32) (s : State) : State :=
  let old := rget s Reg.asidCfg asid
  let v := if bit old 31 then setFld v 0 8 (fld old 0 8) else v
  if bit old 31 && !bit v 31 then
    let s := invalAsid asid s
    cfgStore Reg.asidCfg asid v { s with host := { s.host with ptes := s.host.ptes.filter fun e => e.1 / 2 ^ 36 != asid } }
  else cfgStore Reg.asidCfg asid v s

/-! ATS invalidations (R411) -/

/-- Drop the ATC entries that an Invalidate Request covers; the Completion follows when its accesses are done. At most 32 run at once. -/
def atsInvalidate (hp fn pasid addr pages tag : Nat) (s : State) : State :=
  let f := hp * 256 + fn
  let s := { s with host := { s.host with
    atc := s.host.atc.filter fun e => !(e.1 / 2 ^ 52 == f * 2 ^ 20 + pasid && decide (addr / 4096 ≤ e.1 % 2 ^ 52) && decide (e.1 % 2 ^ 52 < addr / 4096 + pages)) } }
  { s with host := { s.host with invals := s.host.invals ++ [(hp, tag)] } }

/-- Send an Invalidate Completion for one of the first 32 that wait. -/
def atsInvalDone (hp tag : Nat) (s : State) : State :=
  if (s.host.invals.take 32).contains (hp, tag) then
    emit (.atsComplete hp tag) (bump Reg.atsInvals 0 { s with host := { s.host with invals := s.host.invals.erase (hp, tag) } })
  else s

end Sys2Proof.Machine
end

