-- ==== Sys2Proof/Machine/Extent.lean ====
section
/-! DEFINITION. Lent extents: withdrawal, release and loss (R49 to R61), and what the loss of an endpoint or a host does (R54, R345,
R369). -/

namespace Sys2Proof.Machine

open Sys2Proof

def extOf (s : State) (e : ExtId) : Option Extent := (s.store.extents.find? fun x => x.1 == e).map (·.2)

def extMod (e : ExtId) (f : Extent → Extent) (s : State) : State :=
  { s with store := { s.store with extents := s.store.extents.map fun x => if x.1 = e then (x.1, f x.2) else x } }

def extDel (e : ExtId) (s : State) : State :=
  { s with store := { s.store with extents := s.store.extents.filter fun x => x.1 ≠ e } }

/-- The register that counts pages lost from an extent. -/
def lostReg : ExtId → Nat
  | .host _ _ => Reg.hostLost
  | .loan _ => Reg.loanLost

/-- Page of an access that waits for the snapshot stream. -/
def heldPage : HeldAccess → Nat
  | .packet _ p => p.addr.toNat % 2 ^ 50 / pageSize
  | .bar2 _ off _ => off % 2 ^ 50 / pageSize
  | .cxl _ line _ _ _ _ _ => line * 64 / pageSize

/-- The writes that wait for the stream to take a page run. -/
def runSnapWaiting (pg : Nat) (s : State) : State :=
  match s.rel.snap with
  | none => s
  | some sn =>
    runHeldAll (sn.waiting.filter fun h => heldPage h == pg)
      { s with rel := { s.rel with snap := some { sn with waiting := sn.waiting.filter fun h => heldPage h != pg } } }

/-- Requests in flight on a page complete as if it were not lost (R52). -/
def gracePage (pg : Nat) (s : State) : State :=
  { s with coh := { s.coh with
    waiting := s.coh.waiting.map fun w => if overlap w.req.range.1 w.req.range.2 (pg * pageSize) pageSize then { w with grace := true } else w
    txns := s.coh.txns.map fun t => if t.line * 64 / pageSize = pg then { t with grace := true } else t } }

/-- A page is lost (R52): its move ends, the accesses in flight complete, and it is poison from then on. -/
def pageGone (pg : Nat) (s : State) : State :=
  let s := gracePage pg (runSnapWaiting pg (abandonMoves (fun k _ => k == pg) s))
  bumpN Reg.poisonMade 0 (pageSize / 64) (pageMod pg (fun p => { p with lost := true }) s)

/-- A page of an extent is lost, counted in LOAN_LOST or HOST_LOST. -/
def pageLose (pg : Nat) (reg : Nat) (s : State) : State :=
  pageGone pg (rset reg 0 (w32 (min ((rget s reg 0).toNat + 1) 0xFFFFFFFF)) s)

/-- The pages homed in an extent. -/
def extPages (s : State) (e : ExtId) : List Nat := (s.store.pages.filter fun p => p.2.loc == .ext e && !p.2.lost).map (·.1)

/-- Every page still homed in an extent is lost. -/
def extLosePages (e : ExtId) (s : State) : State := (extPages s e).foldl (fun s pg => pageLose pg (lostReg e) s) s

/-- Moves into an extent that no longer takes pages are given up at the old location. -/
def extDropMoves (e : ExtId) (s : State) : State := abandonMoves (fun _ m => m.dstLoc == .ext e) s

/-- Replicas and projector windows of a tier that only this extent can hold are discarded (R50 step 3). -/
def extDropCopies (e : ExtId) (s : State) : State :=
  let t := extTier e
  if s.store.extents.any fun x => x.1 != e && extTier x.1 == t && !x.2.withdrawn then s
  else
    let s := bumpN Reg.beReplRetired 0 (s.rows.replicas.filter fun r => r.2.tier == t).length s
    let s := { s with rows := { s.rows with replicas := s.rows.replicas.filter fun r => r.2.tier != t } }
    { s with store := { s.store with projs := mmapv (fun _ p => if p.winTier = t then { p with running := false, copying := false, resident := [] } else p) s.store.projs } }

/-- Notice on an extent (R50 steps 1 to 3): no further pages, placement moves out of it become forced (Table 2-2), a walk over what is homed there, copies dropped. Evacuation is planned
at the next slow tick (R95). -/
def withdraw (e : ExtId) (s : State) : State :=
  match extOf s e with
  | none => s
  | some x =>
    if x.withdrawn then s
    else
      let s := extDropMoves e (extMod e (fun x => { x with withdrawn := true, edges := 0 }) s)
      let s := { s with store := { s.store with
        moves := mmapv (fun _ m => if m.srcLoc = .ext e ∧ m.kind = .placement then { m with kind := .evac } else m) s.store.moves } }
      let s := extDropCopies e s
      (extPages s e).foldl (fun s pg => addWalk { lo := pg * pageSize, hi := (pg + 1) * pageSize, slot := none, why := .notice e, running := false } s) s

/-- Release of an extent to its lender (R50 step 5, R52). A host extent ends; a loan's RELEASE is then owed (R388). -/
def extRelease (e : ExtId) (s : State) : State :=
  let s := extLosePages e (extDropMoves e s)
  match e with
  | .host p n =>
    let s := extDel e s
    let c := rget s Reg.hostxCmd 0
    if bit c 4 && fld c 16 6 == n.val && fld c 22 1 == p.val then cmdEnd Reg.hostxCmd 0 .ok s else s
  | .loan _ => extMod e (fun x => { x with withdrawn := true, released := true }) s

/-- A lender disappears (R54): its extents end at once, with every page homed in them. -/
def lenderLost (p : ExtId → Extent → Bool) (s : State) : State :=
  (s.store.extents.filter fun x => p x.1 x.2).foldl (fun s x =>
    extDel x.1 (match x.1 with | .host _ _ => extRelease x.1 s | .loan _ => extLosePages x.1 (extDropMoves x.1 s))) s

/-- LOST_TMOS, 0 acting as 1. -/
def lostTmos (s : State) : Nat := max 1 (rfld s Reg.fabCfg 0 24 4)

/-- An endpoint is treated as lost (R369). -/
def endpointLost (ep : Nat) (s : State) : State :=
  let s := lenderLost (fun e x => (match e with | .loan _ => x.lender == ep | _ => false)) s
  let s := { s with fab := { s.fab with partners := mdel ep s.fab.partners, timeouts := mdel ep s.fab.timeouts } }
  trigger 7 (w64 (ep + 2 ^ 63)) none 0 (bump Reg.endpointsLost 0 s)

/-- A host is lost (R54, R345): its extents end and its slot at this hub becomes LOST. -/
def hostLost (hp : Nat) (s : State) : State :=
  let s := lenderLost (fun e _ => match e with | .host p _ => p.val == hp | _ => false) s
  let s := { s with host := { s.host with snoops := s.host.snoops.filter fun n => !n.ports.any (fun q => q.1 == hp), owned := s.host.owned.filter fun o => o.1 ≠ hp } }
  match slotOfHost s hp with
  | some n => slotMod n (fun x => { x with lost := true }) s
  | none => s

end Sys2Proof.Machine
end

