-- ==== Sys2Proof/Machine/Complete.lean ====
section
/-! DEFINITION. How an outstanding request ends (chapter 10): its answer, STALE_EPOCH and its one retry, RETRY, timeout; what each
kind of requester does with the outcome. -/

namespace Sys2Proof.Machine

open Sys2Proof

/-- A status that ends a descriptor or a channel at once (R173, R424). -/
def endsWork (st : Status) : Bool := st == .fault || st == .reset || st == .parity

/-- The poisoned words, as words of the virtual address, that a mask over lines names within n bytes at va. -/
def maskWords (va n : Nat) (mask : W64) : List Nat := (wordsOf va n).filter fun w => mask.getLsbD (w / 8 - va / 64)

/-- Statuses after which a read delivers poison (Table 4-4, R383). -/
def readPoisons (st : Status) : Bool := [Status.decode, .staleEpoch, .timeout].contains st

/-- Bytes and poisoned words that a read of n bytes at va delivers. Where no data came they are free values. -/
def readOutcome (va n : Nat) (st : Status) (mask : W64) (data : List Byte) (s : State) : List Byte × List Nat × State :=
  if st = .ok ∨ st = .poison ∨ st = .codec then (slice data 0 n, maskWords va n mask, s)
  else
    let (v, s) := draw s
    ((List.range n).map fun i => (Config.freeWord (v.toNat + i)).setWidth 8, if readPoisons st then wordsOf va n else [], s)

/-- Put fetched bytes beside a descriptor. -/
def depositBytes (va : Nat) (bs : List Byte) (m : NMap Byte) : NMap Byte := bs.zipIdx.foldl (fun m e => mset (va + e.2) e.1 m) m

/-- A descriptor meets DECODE at an address: DETAIL holds the first (Table 4-3). -/
def Desc.decode (va : Option Nat) (d : Desc) : Desc :=
  { d with statuses := .decode :: d.statuses, detail := if d.statuses.contains .decode then d.detail else va }

/-- A descriptor meets a status at an address. -/
def Desc.meet (va : Option Nat) (st : Status) (d : Desc) : Desc :=
  if st = .ok then d else if endsWork st then d.stop st else if st = .decode then d.decode va else { d with statuses := st :: d.statuses }

/-- A descriptor takes the bytes of a read, its poisoned words and its status. -/
def Desc.got (va : Nat) (bs : List Byte) (ws : List Nat) (st : Status) (d : Desc) : Desc :=
  { d with remote := depositBytes va bs d.remote, remotePoison := d.remotePoison ++ ws }.meet (if va < 2 ^ 64 then some va else none) st

/-- Place beside a descriptor of the bytes a dolly reads for row r of window w: beyond every virtual address. -/
def rowVa (w r : Nat) : Nat := 2 ^ 65 + (w * 2 ^ 40 + r) * 2 ^ 14

/-- Cut units a descriptor covers: the first, and how many (R206); span is the code of DQ_CFG. -/
def cutUnits (q span : Nat) : Nat × Nat := if span = 3 then (0, 8) else (q / 64 / 16 * 2, 2)

/-- The dolly of a row read: one of the two that the window's cut unit feeds; which is free. -/
def rowDolly (q span va : Nat) : Nat :=
  let w := (va - 2 ^ 65) / 2 ^ 54
  ((cutUnits q span).1 + w % (cutUnits q span).2) * 2 + b2n ((Config.freeWord ((va - 2 ^ 65) / 2 ^ 14 + 2 ^ 65)).getLsbD 0)

/-- A row read that timed out is counted in its dolly. -/
def countDolly (q seq va : Nat) (st : Status) (s : State) : State :=
  match descOf s q seq with
  | some d => if st = .timeout ∧ 2 ^ 65 ≤ va ∧ (d.bytes.getD 0 0).toNat = 0x20 then bump Reg.dollyTimeout (rowDolly q d.span va) s else s
  | none => s

/-- A descriptor's read is answered: the bytes are kept, and once none is outstanding the operation can go on. -/
def descAnswer (q seq va n : Nat) (st : Status) (mask : W64) (data : List Byte) (s : State) : State :=
  let (bs, ws, s) := readOutcome va n st mask data (countDolly q seq va st s)
  let s := descMod q seq (Desc.got va bs ws st) s
  let more := s.fab.reqs.any fun r => match r.owner with | .descRead q' seq' _ _ => q' == q && seq' == seq | _ => false
  if more then s else descMod q seq (fun d => if d.stage = .waiting then { d with stage := .started } else d) s

/-- A descriptor takes the status of a write of one work unit at an address. -/
def Desc.wrote (unit : Nat) (va : Option Nat) (st : Status) (d : Desc) : Desc :=
  if st = .ok ∨ d.stage = .completed then d
  else { d with badUnits := if d.badUnits.contains unit then d.badUnits else unit :: d.badUnits }.meet va st

/-- A descriptor's write is answered. After the descriptor completed its kernel meets the status (R172); one that CLEAR has left behind belongs to no
kernel. -/
def descWritten (q seq unit : Nat) (va : Option Nat) (st : Status) (s : State) : State :=
  match descOf s q seq with
  | some d => if d.stage = .completed ∧ seq < 2 ^ 32 then queueSet q (fun x => { x with worst := st.worse x.worst }) s else descMod q seq (Desc.wrote unit va st) s
  | none => s

/-- A channel's read or write is answered (R424). -/
def chanAnswer (e c va n : Nat) (isRead : Bool) (st : Status) (mask : W64) (data : List Byte) (s : State) : State :=
  let (bs, ws, s) := if isRead then readOutcome va n st mask data s else ([], [], s)
  chanMod e c (fun ch =>
    let ch := if isRead then { ch with remote := depositBytes va bs ch.remote, remotePoison := ch.remotePoison ++ ws } else ch
    let ch := if isRead || st == .ok then ch else { ch with bad := ch.bad + n }
    if st = .ok then ch else if endsWork st then ch.stop st else { ch with statuses := st :: ch.statuses }) s

/-- A CXL.mem request carried to another home is answered by an RSP or an ACK. -/
def cxlAnswer (hp tag op : Nat) (st : Status) (mask : W64) (data : List Byte) (s : State) : State :=
  if op = 0 then
    if st = .ok ∨ st = .poison then emit (.cxlData hp tag (slice data 0 64) (mask != 0) gI) s else cxlPoison hp tag s
  else if s.fab.reqs.any fun r => r.owner == .cxl hp tag op then s
  else emit (.cxlCmp hp tag gI) s

/-- A proxy function's request is answered: the host gets its answer unless an FLR discards it, and the next request leaves. -/
def proxyAnswer (path : Path) (posted : Bool) (n : Nat) (st : Status) (data : List Byte) (s : State) : State :=
  let i := fnIdx path
  let drop := (fnOf s i).proxyDiscard
  let s := fnSet i (fun f => { f with proxyBusy := false, proxyDiscard := false }) s
  let s := if drop then s else hostAnswer path posted false n st data s
  proxyDrain path s

/-- A receiver did not take a broadcast (R225): KERNEL_END meets the status; a receiver that never answered leaves the table STALE and gets no
replica of it until software clears the flag. -/
def bcastMissed (q seq table ep : Nat) (st : Status) (s : State) : State :=
  let s := descMeet q seq st s
  if st = .timeout then
    { s with eng := { s.eng with tables := mmod table (fun t => { t with stale := true, banned := if t.banned.contains ep then t.banned else ep :: t.banned }) s.eng.tables } }
  else s

/-- A write of the snapshot stream failed (R495; with any status, log entry 168): every page not yet streamed is DIRTY again, what waited for one runs, and only the header is
still to be written. -/
def snapFail (st : Status) (s : State) : State :=
  match s.rel.snap with
  | none => s
  | some sn =>
    let s := (sn.left ++ sn.cur.toList).foldl (fun s pg => pageMod pg (fun p => { p with dirty := true }) s) s
    runHeldAll sn.waiting { s with rel := { s.rel with snap := some { sn with left := [], copies := [], waiting := [], cur := none, status := if sn.status = .ok then st else sn.status } } }

/-- The record at the head of those owed was written, or is dropped where the ring cannot be reached (R152, R171); its vector is raised (R169). -/
def recordDone (q : Nat) (v : Option Nat) (st : Status) (s : State) : State :=
  let s := queueSet q (fun x => { x with owed := x.owed.drop 1 }) s
  match queueSlot s q with
  | none => s
  | some (p, k) =>
    let r := slotReg Reg.dqCqTail k
    raiseOpt p v (if st = .ok then rset r p (rget s r p + 1) s else ringFault q s)

/-- A borrower has not taken what this hub offered (R59). -/
def lendDrop (b : Nat) (s : State) : State := { s with store := { s.store with lentOut := s.store.lentOut.filter fun l => l.borrower ≠ b } }

/-- A borrower has taken what this hub offered, under its own number of the extent (Table 10-10). -/
def lendTaken (b ext : Nat) (s : State) : State :=
  { s with store := { s.store with lentOut := s.store.lentOut.map fun l => if l.borrower = b then { l with ext := some ext } else l } }

/-- What the owner of a request does as it ends with a status, a mask and data. -/
def ownerActs (r : Req) (st : Status) (mask : W64) (data : List Byte) (s : State) : State :=
  let n := if r.p.type.toNat = tRD then pktLen r.p else if r.p.type.toNat = tATOMIC then atomicSize r.p else 0
  match r.owner with
  | .descRead q seq va n => descAnswer q seq va n st mask data s
  | .descWrite q seq unit va => descWritten q seq unit va st s
  | .bar2 path posted => hostAnswer path posted false n st data s
  | .proxy path posted => proxyAnswer path posted n st data s
  | .cxl hp tag op => cxlAnswer hp tag op st mask data s
  | .dmaRead e c va n => chanAnswer e c va n true st mask data s
  | .dmaWrite e c => chanAnswer e c 0 r.p.payload.length false st mask data s
  | .commitWalk => if st = .timeout then bump Reg.csWalkTmo 0 s else s
  | .hub => s
  | .broadcast q seq table =>
    if st = .ok then s else bcastMissed q seq table r.p.dst.toNat st s
  | .snap => if st = .ok then s else snapFail st s
  | .ringWrite q v => recordDone q v st s
  | .lend => if st = .ok then s else lendDrop r.p.dst.toNat s

/-- Requests that wait for a tag and can no longer be sent end: their path set has no port up any more (R371), or their port is stopped (R465). -/
def failUnrouted (s : State) : State :=
  (unsentReqs s).foldl (fun s r =>
    match sendReq r { s with fab := { s.fab with reqs := s.fab.reqs.filter fun q => q.tag ≠ r.tag } } with
    | (.failed st, s) => ownerActs r st 0 [] s
    | (.gone, _) => s) s

/-- A request ends: its tag is free and its owner acts. -/
def endWith (r : Req) (st : Status) (mask : W64) (data : List Byte) (s : State) : State := failUnrouted (ownerActs r st mask data (endReq r.tag s))

/-- The outstanding request that an answer's TID names; an unsent one has none. -/
def reqOf (s : State) (tid : BitVec 18) : Option Req := s.fab.reqs.find? fun r => r.tag == tid.toNat

/-- An answer from an endpoint ends its run of timeouts (R369). -/
def heardFrom (ep : Nat) (s : State) : State := { s with fab := { s.fab with timeouts := mdel ep s.fab.timeouts } }

/-- The packet of a request resolved again: its home, offset and epoch are new (R382). -/
def retarget (s : State) (p : Packet) (ep off part : Nat) : Packet :=
  stampKey s part { p with dst := BitVec.ofNat 18 ep, addr := w64 off }

/-- STALE_EPOCH answers a request (R382): one more attempt under the current sheet, or it ends. -/
def staleAnswer (r : Req) (s : State) : State :=
  let stale := fun s : State => bump Reg.fabStale r.part s
  match r.fa with
  | none => endWith r .staleEpoch 0 [] s
  | some fa =>
    if 2 ≤ r.attempts then endWith r .staleEpoch 0 [] (stale s)
    else
      match resolve fa r.part r.right s with
      | (.home ep off, s) =>
        let s := { s with fab := { s.fab with reqs := s.fab.reqs.filter fun x => x.tag ≠ r.tag } }
        let r' := { r with p := retarget s r.p ep off r.part, attempts := r.attempts + 1 }
        match sendReq r' s with
        | (.gone, s) => pumpReqs s
        | (.failed st, s) => endWith r st 0 [] s
      | (_, s) => endWith r .decode 0 [] (stale s)

/-- RSP (R361): status, POISON mask and data; a ZIP payload is decoded first (R363). An answer to a request that ended is discarded (R367). -/
def takeRsp (p : Packet) (s : State) : State :=
  let s := heardFrom p.src.toNat s
  match reqOf s p.tid with
  | none => lateAnswer p s
  | some r =>
    let st := Status.ofCode (fld p.arg 0 8)
    if st = .staleEpoch then staleAnswer r s
    else if r.owner = .lend ∧ st = .ok then endWith r st p.addr [] (lendTaken p.src.toNat (fld p.arg 16 10) s)
    else
      match rawPayload s p with
      | some bs => endWith r st p.addr bs s
      | none => endWith r .codec (BitVec.allOnes 64) (List.replicate (pktLen r.p) 0) s

/-- ACK. -/
def takeAck (p : Packet) (s : State) : State :=
  let s := heardFrom p.src.toNat s
  match reqOf s p.tid with
  | none => lateAnswer p s
  | some r =>
    let st := Status.ofCode (fld p.arg 0 8)
    if st = .staleEpoch then staleAnswer r s else endWith r st p.addr [] s

/-- RETRY (R377): the request waits 1 µs and is sent again with the same count. -/
def takeRetry (p : Packet) (s : State) : State :=
  { heardFrom p.src.toNat s with fab := { (heardFrom p.src.toNat s).fab with reqs := s.fab.reqs.map fun r => if r.tag = p.tid.toNat then { r with retrying := true } else r } }

/-- Send a retried request again; from a hub, tag bits 17:12 are its port. -/
def resend (tag : Nat) (s : State) : State :=
  match s.fab.reqs.find? fun r => r.tag == tag && r.retrying && decide (tag < unsentBase) with
  | none => s
  | some r =>
    let s := { s with fab := { s.fab with reqs := s.fab.reqs.map fun x => if x.tag = tag then { x with retrying := false } else x } }
    if r.p.dst.toNat = selfEp s then emit (.packet loopback r.p) s
    else egress (tag / 4096) r.p s

/-- A grant of ownership of a line of another home is recorded (log entry 145). -/
def hostGranted (hp : Nat) (r : Req) (g : Nat) (s : State) : State :=
  if g = gE ∨ g = gM then ownedSet hp r.p.dst.toNat (msgOff r.p) true s else s

/-- Data from a remote home: the host gets its data with the grant, and a grant is acknowledged (R322, R332). -/
def takeData (p : Packet) (s : State) : State :=
  let s := heardFrom p.src.toNat s
  match reqOf s p.tid with
  | none => s
  | some r =>
    match r.owner with
    | .cxl hp tag _ =>
      let g := fld p.arg 0 2
      let s := emit (.cxlData hp tag (slice p.payload 0 64) (p.pois != 0) (hostGrant g)) (hostGranted hp r g (endReq r.tag s))
      if g = gI then s else send (answer s p tGRANTACK p.addr 0 []) s
    | _ => s

/-- Cmp from a remote home. -/
def takeCmp (p : Packet) (s : State) : State :=
  let s := heardFrom p.src.toNat s
  match reqOf s p.tid with
  | none => s
  | some r =>
    match r.owner with
    | .cxl hp tag _ =>
      let g := fld p.arg 0 2
      let s := emit (.cxlCmp hp tag (hostGrant g)) (hostGranted hp r g (endReq r.tag s))
      if g = gI then s else send (answer s p tGRANTACK p.addr 0 []) s
    | _ => s

/-- A request times out (R367): TIMEOUT, its tag free; LOST_TMOS in a row lose the endpoint (R369). A request of its own kind
(class 7) counts as well. -/
def reqTimeout (tag : Nat) (s : State) : State :=
  match s.fab.reqs.find? fun r => r.tag == tag && decide (r.limit ≤ r.edges) && decide (tag < unsentBase) with
  | none => s
  | some r =>
    let ep := r.p.dst.toNat
    let n := mgetD 0 ep s.fab.timeouts + 1
    let s := { s with fab := { s.fab with timeouts := mset ep n s.fab.timeouts } }
    let s := endWith r .timeout 0 [] (forgetReq r (bump Reg.fabTimeouts r.part s))
    if lostTmos s ≤ n then endpointLost ep s else s

end Sys2Proof.Machine
end

