-- ==== Sys2Proof/Machine/Fabric.lean ====
section
/-! DEFINITION. The commands of packets that meet the home, the ports and the router (chapter 10). -/

namespace Sys2Proof.Machine

open Sys2Proof

/-- MAX_HOPS, 0 acting as 1. -/
def maxHops (s : State) : Nat := max 1 (rfld s Reg.fabCfg 0 16 5)

/-- Forward a packet of another endpoint (R355, R368, R370): an unknown type is dropped, as is a packet that would leave with too many hops. -/
def forward (p : Packet) (s : State) : State :=
  if typeClass p.type.toNat = none then bump Reg.pktBad 0 s
  else if maxHops s < p.hops.toNat + 1 then bump Reg.pktDropped 0 s
  else send { p with hops := p.hops + 1 } s

/-! HANDOFF -/

/-- LEDGER_CFG.TMO, 0 acting as 1. -/
def ledgerTmo (s : State) : Nat := max 1 (rfld s Reg.ledgerCfg 0 0 8)

/-- An entry in transit for TMO edges reverts to its sender (R392). -/
def ledgerRevert (id : Nat) (s : State) : State :=
  match mget id s.fab.ledger with
  | some l =>
    if l.inTransit ∧ ledgerTmo s ≤ l.edges then
      bump Reg.ledgerReverts 0 (ledgerSet id (some { l with inTransit := false, edges := 0 }) s)
    else s
  | none => s

/-! Loan-out and management messages (Table 10-10, R362) -/

/-- LEND (R59): the loan tier enabled, an aligned whole range, one extent for each lender, room in the loan table. No page, or a notice above 10,000 ms, is answered DECODE
(DESIGN CHOICE, log entry 147). -/
def takeLend (p : Packet) (s : State) : State :=
  let base := leAt p.payload 0 8
  let pages := leAt p.payload 8 4
  let notice := leAt p.payload 12 2
  let lender := p.src.toNat
  let no := fun (st : Status) => reply (rspTo s p st 0 0 []) s
  if unitStopped s 1 none || unitStopped s 8 none then no .parity
  else if tierDisabled s 5 ∨ base % pageSize ≠ 0 ∨ pages = 0 ∨ 10000 < notice then no .decode
  else if s.store.extents.any (fun x => match x.1 with | .loan _ => x.2.lender == lender | _ => false) then no .quota
  else
    match (List.finRange 1024).find? fun n => (extOf s (.loan n)).isNone with
    | none => no .quota
    | some n =>
      let x : Extent := { lender := lender, addr := base, pages := pages, noticeMs := notice, withdrawn := false, edges := 0, released := false }
      let s := { s with store := { s.store with extents := s.store.extents ++ [(.loan n, x)] } }
      reply (rspTo s p .ok n.val 0 []) s

/-- The extent a class 7 message of a lender names. -/
def msgExt (s : State) (p : Packet) : Option ExtId :=
  match (List.finRange 1024)[fld p.arg 0 10]? with
  | some n => match extOf s (.loan n) with | some x => if x.lender = p.src.toNat ∧ !x.released then some (.loan n) else none | none => none
  | none => none

/-- NOTICE (R388): withdrawal begins; an unknown extent is answered DECODE. -/
def takeNotice (p : Packet) (s : State) : State :=
  match msgExt s p with
  | some e => let s := withdraw e s; reply (ackTo s p .ok 0) s
  | none => reply (ackTo s p .decode 0) s

/-- RELEASE (R388): the borrower gives the lent memory back; one that names no extent of its own is answered DECODE (log entry 95). -/
def takeRelease (p : Packet) (s : State) : State :=
  let mine := fun l : LentOut => l.borrower == p.src.toNat && l.ext == some (fld p.arg 0 10)
  if s.store.lentOut.any mine then
    let s := { s with store := { s.store with lentOut := s.store.lentOut.filter fun l => !mine l } }
    reply (ackTo s p .ok 0) s
  else reply (ackTo s p .decode 0) s

/-- RELEASE for a released loan extent leaves once nothing issued to it is outstanding (R388); the extent number is then free. -/
def sendRelease (n : Fin 1024) (s : State) : State :=
  match extOf s (.loan n) with
  | some x =>
    if x.released ∧ !s.store.oldLocs.any (fun o => o.loc == .ext (.loan n)) then
      let p := mkPacket s tRELEASE x.lender 0 (w64 n.val) []
      (sendReq (mkReq p none 0 0 .hub) (extDel (.loan n) s)).2
    else s
  | none => s

/-- Notice on lent HBM has run out: the hub may reuse the pages without a RELEASE (R61, R388). -/
def lentExpire (b : Nat) (s : State) : State :=
  { s with store := { s.store with lentOut := s.store.lentOut.filter fun l => !(l.borrower == b && l.noticed && decide (l.noticeMs * 3 ≤ 2 * l.edges)) } }

/-- An endpoint that one of FM_EP_0 to FM_EP_3 names. -/
def isManager (s : State) (ep : Nat) : Bool :=
  (List.range 4).any fun i => rbit s (Reg.fmEp + 4 * i) 0 31 && rfld s (Reg.fmEp + 4 * i) 0 0 18 == ep

/-- LOST (R369) from a fabric manager. -/
def takeLost (p : Packet) (s : State) : State :=
  if isManager s p.src.toNat then
    let s := endpointLost (fld p.arg 0 18) s
    reply (ackTo s p .ok 0) s
  else reply (ackTo s p .ownership 0) (bump Reg.mgmtRefused 0 s)

/-- WALK_REQ (R362): a range walk for the slot of the agent it names, answered when it completes; an agent without a slot holds nothing. -/
def takeWalkReq (port : Nat) (p : Packet) (s : State) : State :=
  let v := leAt p.payload 0 8
  let pages := v % 2 ^ 28
  let ep := v / 2 ^ 32 % 2 ^ 18
  let kind := v / 2 ^ 50 % 4
  if isManager s p.src.toNat || ((kind == 1 || kind == 2) && ep == p.src.toNat) then
    match slotOfId s kind ep with
    | some n => addWalk { lo := p.addr.toNat, hi := p.addr.toNat + pages * pageSize, slot := some n, why := .request port p, running := false } s
    | none => reply (ackTo s p .ok 0) s
  else reply (ackTo s p .ownership 0) (bump Reg.mgmtRefused 0 s)

/-- FAB_CFG.DWELL in units of 10 µs, 0 acting as 1. -/
def dwell (s : State) : Nat := max 1 (rfld s Reg.fabCfg 0 8 8)

/-- At a slow-tick edge every packet that has waited longer than DWELL is dropped (R368): one that has seen n edges has waited for more than n - 1 ticks of
2000/3 µs. -/
def dropWaited (s : State) : State :=
  let old := fun e : EgressPkt => decide (3 * dwell s ≤ (e.edges - 1) * 200)
  (s.fab.waiting.filter old).foldl (fun s e => bufferFreed e s)
    (bumpN Reg.pktDropped 0 (s.fab.waiting.filter old).length { s with fab := { s.fab with waiting := s.fab.waiting.filter fun e => !old e } })

/-- The n-th waiting packet has waited longer than DWELL (R368). -/
def dwellExpire (n : Nat) (s : State) : State :=
  match s.fab.waiting[n]? with
  | some e => bufferFreed e (bump Reg.pktDropped 0 { s with fab := { s.fab with waiting := s.fab.waiting.eraseIdx n } })
  | none => s

/-- A partner entry that ageing permits to free goes (R312, R377). -/
def partnerAge (ep : Nat) (s : State) : State :=
  match mget ep s.fab.partners with
  | some e => if partnerOld s ep e then pumpReqs { s with fab := { s.fab with partners := mdel ep s.fab.partners } } else s
  | none => s

/-- A held cue, OWN or OFFER that has waited CUE_CFG.HOLD edges expires (R311). -/
def cueExpire (src : Nat) (s : State) : State :=
  match s.ord.held.find? fun h => h.p.src.toNat == src && decide (max 1 (rfld s Reg.cueCfg 0 0 8) ≤ h.edges) with
  | some h => expireHeld h s
  | none => s

/-! Ports (R354 to R357) -/

/-- The widest aligned group of 8, 4 or 2 lanes that trained, of the port's own lanes. -/
def trainedWidth (lanes : Nat) (fail : Byte) : Nat :=
  let ok := fun (lo n : Nat) => (List.range n).all fun i => !fail.getLsbD (lo + i)
  if lanes = 8 ∧ ok 0 8 then 8
  else if ok 0 4 ∨ (lanes = 8 ∧ ok 4 4) then 4
  else if (List.range (lanes / 2)).any fun i => ok (2 * i) 2 then 2
  else 0

/-- Send again what the retry buffer of a port holds. -/
def replayPort (port : Nat) (s : State) : State := ((portOf s port).retry).foldl (fun s e => putOnWire port e.1 e.2 s) s

/-- An endpoint none of whose ports is up or retraining is lost (R369). -/
def peerGone (port : Nat) (s : State) : State :=
  match (portOf s port).peer with
  | some ep => if s.fab.ports.any fun e => (e.2.up || e.2.retraining) && e.2.peer == some ep then s else endpointLost ep s
  | none => s

/-- A port goes down: LINK trigger; it loses its flits, and perhaps its peer. A retraining port, whose trigger has been raised, loses what it kept. -/
def portFall (port : Nat) (s : State) : State :=
  let p := portOf s port
  if p.up || p.retraining then
    let s := portSet port (fun q => { q with up := false, retraining := false, width := 0, rx := [], retry := [] }) s
    peerGone port (if p.up then trigger 7 (w64 port) none port s else s)
  else s

/-- Training of a port ends (R354): up at the width that trained, with its peer, or down, the buffered flits then lost. -/
def portTrained (fit : PortFit) (s : State) : State :=
  let port := fit.port.val
  if !portExists s port || !rbit s Reg.portCfg port 0 || !rbit s Reg.clkStatus 0 2 then s
  else
    let w := trainedWidth (if portSplit s port then 4 else 8) fit.laneFail
    if w = 0 then portSet port (fun q => { q with laneFail := fit.laneFail.toNat, retry := [] }) (portFall port s)
    else
      let s := portSet port (fun q => { q with up := true, retraining := false, width := w, laneFail := fit.laneFail.toNat, peer := some fit.peer.toNat, failedReplays := 0, nakSent := false }) s
      pumpReqs (pumpPort port (replayPort port s))

/-- A port retrains (R357): down until PORT_TRAIN_DONE, its flits kept; LINK trigger (Table 14-9). -/
def portRetrainNow (port : Nat) (s : State) : State :=
  if (portOf s port).up then
    trigger 7 (w64 port) none port (portSet port (fun q => { q with up := false, retraining := true, width := 0, rx := [], failedReplays := 0 })
      (bump Reg.portRetrains port s))
  else s

/-- Flits up to a number are acknowledged: their packets leave the retry buffer. -/
def portAcked (port seq : Nat) (s : State) : State :=
  let done := fun (e : Nat × Packet) => decide ((seq + 4096 - (e.1 + flitsOf e.2 - 1) % 4096) % 4096 < 2048)
  let before := (portOf s port).retry.length
  let s := portSet port (fun q => { q with retry := q.retry.filter fun e => !done e }) s
  let s := if (portOf s port).retry.length < before then portSet port (fun q => { q with failedReplays := 0 }) s else s
  pumpPort port s

/-- A NAK names the last good flit (R357): the flits after it are sent again. -/
def portNak (port seq : Nat) (s : State) : State :=
  let s := portAcked port seq s
  if (portOf s port).retry.isEmpty then s
  else replayPort port (bump Reg.portReplays port (portSet port (fun q => { q with failedReplays := q.failedReplays + 1 }) s))

/-- A write of PORT_CFG (Table 10-14): clearing ENABLE takes the port down at once, its flits lost; RETRAIN retrains it. A port enabled again
comes up when its training ends. -/
def portCfgSet (port : Nat) (v : W32) (s : State) : State :=
  let s := cfgStore Reg.portCfg port v s
  if !bit v 0 then portSet port (fun q => { q with retry := [] }) (portFall port s)
  else if bit v 1 then portRetrainNow port s
  else s

/-- RT_DATA_HI (Table 10-12): the entry RT_IDX names takes both halves. -/
def rtDataHiSet (v : W32) (s : State) : State :=
  let s := cfgStore Reg.rtDataHi 0 v s
  let i := rfld s Reg.rtIdx 0 0 10
  let e := (rget s Reg.rtDataLo 0, rget s Reg.rtDataHi 0)
  pumpReqs (if rbit s Reg.rtIdx 0 16 then { s with fab := { s.fab with member := mput (0, 0) (i % 256) e s.fab.member } }
    else { s with fab := { s.fab with group := mput (0, 0) i e s.fab.group } })

/-! SDS_REFCLK (R508) -/

/-- Loss of SDS_REFCLK takes every fabric port down. -/
def sdsLost (s : State) : State :=
  let s := rsetFld Reg.clkStatus 0 2 1 0 s
  (s.fab.ports.map (·.1)).foldl (fun s p => portFall p s) s

end Sys2Proof.Machine
end

