-- ==== Sys2Proof/Machine/FpNum.lean ====
section
/-! DEFINITION. Numbers (chapter 3): the element encodings, exact values, rounding, FP32 arithmetic. A finite value is kept as an integer multiple of
2^−149, which every element of Table 3-1 with every scale is. -/

namespace Sys2Proof.Machine

open Sys2Proof

/-- A decoded value; finite ones in units of 2^−149. -/
inductive Val where
  | fin (x : Int)
  | inf (neg : Bool)
  | nan
  deriving DecidableEq, Repr

/-- 1 in units of 2^−149. -/
def fixOne : Nat := 2 ^ 149

def Val.isFin : Val → Bool
  | .fin _ => true
  | _ => false

/-! Floating elements (Table 3-2) -/

/-- A floating encoding: exponent bits, mantissa bits, bias, and what has no finite value: with `kind` 0 the all-ones exponent is Inf or NaN, with 1
only the all-ones code is NaN, with 2 every code is finite. -/
structure FloatFmt where
  e : Nat
  m : Nat
  bias : Nat
  kind : Nat
  deriving DecidableEq, Repr

def fmtF32 : FloatFmt := ⟨8, 23, 127, 0⟩
def fmtBf16 : FloatFmt := ⟨8, 7, 127, 0⟩
def fmtE4M3 : FloatFmt := ⟨4, 3, 7, 1⟩

/-- The floating element of a format code; none for the integer, level and trit formats. -/
def floatOf (fmt : Nat) : Option FloatFmt :=
  match fmt with
  | 0 => some fmtF32
  | 1 => some fmtBf16
  | 2 => some ⟨5, 10, 15, 0⟩
  | 3 => some fmtE4M3
  | 4 => some ⟨5, 2, 15, 0⟩
  | 5 => some fmtE4M3
  | 6 => some ⟨2, 3, 1, 2⟩
  | 7 => some ⟨3, 2, 3, 2⟩
  | 8 => some ⟨2, 1, 1, 2⟩
  | _ => none

/-- Magnitude of the code c without its sign (R111). -/
def FloatFmt.mag (f : FloatFmt) (c : Nat) : Nat :=
  let x := c / 2 ^ f.m
  if x = 0 then c * 2 ^ (150 - f.bias - f.m) else (2 ^ f.m + c % 2 ^ f.m) * 2 ^ (149 + x - f.bias - f.m)

/-- The code of the largest finite magnitude. -/
def FloatFmt.top (f : FloatFmt) : Nat :=
  match f.kind with | 0 => (2 ^ f.e - 1) * 2 ^ f.m - 1 | 1 => 2 ^ (f.e + f.m) - 2 | _ => 2 ^ (f.e + f.m) - 1

/-- The canonical NaN (R108, R111), where the format has one. -/
def FloatFmt.nanCode (f : FloatFmt) : Nat := match f.kind with | 0 => (2 ^ f.e - 1) * 2 ^ f.m + 2 ^ (f.m - 1) | 1 => 2 ^ (f.e + f.m) - 1 | _ => 0

def FloatFmt.decode (f : FloatFmt) (c : Nat) : Val :=
  let neg := c / 2 ^ (f.e + f.m) % 2 == 1
  let c := c % 2 ^ (f.e + f.m)
  if f.top < c then (if f.kind = 0 ∧ c % 2 ^ f.m = 0 then .inf neg else .nan)
  else .fin (if neg then -(Int.ofNat (f.mag c)) else Int.ofNat (f.mag c))

/-! Rounding -/

/-- Whether a remainder r of den above a code rounds up. -/
abbrev Up := Nat → Nat → Nat → Bool

/-- To nearest, ties to the even code (R130). -/
def upNearest : Up := fun r den c => decide (den < 2 * r) || (2 * r == den && c % 2 == 1)

/-- Away from zero. -/
def upAway : Up := fun r _ _ => r != 0

/-- Stochastic (R139): a 16-bit draw below the fraction, truncated to 16 bits. -/
def upDraw (draw : Nat) : Up := fun r den _ => decide (draw < r * 65536 / den)

/-- The code to which the magnitude p / q (in units of 2^−149) rounds; it may exceed the largest. -/
def FloatFmt.round (f : FloatFmt) (up : Up) (p q : Nat) : Nat :=
  let t0 := 150 - f.bias
  let l := Nat.log2 (p / q)
  let den := q * 2 ^ (max l t0 - f.m)
  let k := p / den
  let c := if l < t0 then k else (l - t0 + 1) * 2 ^ f.m + (k - 2 ^ f.m)
  if up (p % den) den c then c + 1 else c

/-- The integer to which p / q rounds. -/
def roundInt (up : Up) (p q : Nat) : Nat := if up (p % q) q (p / q) then p / q + 1 else p / q

/-! FP32 (R108) -/

def f32Val (w : W32) : Val := fmtF32.decode w.toNat

/-- FP32 of a magnitude p / q: one rounding to nearest even, overflow to Inf. -/
def f32OfMag (neg : Bool) (p q : Nat) : W32 := w32 (2 ^ 31 * b2n neg + min (fmtF32.round upNearest p q) 0x7F800000)

/-- FP32 of the number p / q in units of 2^−149; zero is +0. -/
def f32Of (p : Int) (q : Nat) : W32 := if p = 0 then 0 else f32OfMag (decide (p < 0)) p.natAbs q

def f32OfVal : Val → W32
  | .fin x => f32Of x 1
  | .inf n => w32 (0x7F800000 + 2 ^ 31 * b2n n)
  | .nan => fpNan

def f32Neg (a : W32) : W32 := if fpIsNan a then fpNan else a ^^^ 0x80000000

def f32Zero (a : W32) : Bool := a.toNat % 2 ^ 31 == 0

def f32Mul (a b : W32) : W32 :=
  let neg := a.getLsbD 31 != b.getLsbD 31
  if fpIsNan a || fpIsNan b then fpNan
  else if fpIsInf a || fpIsInf b then (if f32Zero a || f32Zero b then fpNan else w32 (0x7F800000 + 2 ^ 31 * b2n neg))
  else f32OfMag neg ((fpFix a).natAbs * (fpFix b).natAbs) fixOne

def f32Sub (a b : W32) : W32 := fpAdd a (f32Neg b)

/-- a × b + c with one rounding. -/
def f32Fma (a b c : W32) : W32 :=
  let neg := a.getLsbD 31 != b.getLsbD 31
  if fpIsNan a || fpIsNan b || fpIsNan c then fpNan
  else if fpIsInf a || fpIsInf b then
    (if f32Zero a || f32Zero b then fpNan else fpAdd (w32 (0x7F800000 + 2 ^ 31 * b2n neg)) c)
  else if fpIsInf c then c
  else
    let z := fpFix a * fpFix b + fpFix c * Int.ofNat fixOne
    if z = 0 then (if neg && c.getLsbD 31 then 0x80000000 else 0) else f32OfMag (decide (z < 0)) z.natAbs fixOne

/-- Order of FP32 values where neither is NaN: −0 equals +0. -/
def f32Lt (a b : W32) : Bool := !fpIsNan a && !fpIsNan b && !(f32Zero a && f32Zero b) && decide (fpKey a < fpKey b)

def f32Max (a b : W32) : W32 := if fpIsNan a || fpIsNan b then fpNan else if fpKey a < fpKey b then b else a

def f32Min (a b : W32) : W32 := if fpIsNan a || fpIsNan b then fpNan else if fpKey b < fpKey a then b else a

def f32Abs (a : W32) : W32 := if fpIsNan a then fpNan else a &&& 0x7FFFFFFF

/-- FP32 of an integer. -/
def f32OfInt (x : Int) : W32 := f32Of (x * Int.ofNat fixOne) 1

/-- Two's complement value of a 32-bit word. -/
def i32 (w : W32) : Int := w.toInt

/-- An FP32 sum whose order of additions no rule fixes (R128): which two terms are added next is free (log entry 6). -/
def freeSum (rnd : Nat → Nat) : Nat → List W32 → W32
  | 0, _ => 0
  | _ + 1, [] => 0
  | _ + 1, [a] => a
  | f + 1, a :: b :: t =>
    let l := a :: b :: t
    let i := rnd (2 * f) % l.length
    let x := l.getD i 0
    let l := l.eraseIdx i
    let j := rnd (2 * f + 1) % l.length
    freeSum rnd f (fpAdd x (l.getD j 0) :: l.eraseIdx j)

def f32Sum (rnd : Nat → Nat) (l : List W32) : W32 := freeSum rnd (l.length + 1) l

/-- A sequence of free numbers, from a drawn one. -/
def freeSeq (v : W64) (i : Nat) : Nat := (Config.freeWord (v.toNat + i)).toNat

/-! Functions with an error bound (Table 3-0) -/

/-- A choice among the FP32 codes within 1 ulp of an exact magnitude p / q: the code below, the code above, or, where the magnitude is a code, its
neighbours. The choice is free and the same for the same operands (R147, log entry 14). -/
def nearUlp (pick : Nat) (neg : Bool) (p q : Nat) : W32 :=
  let c := fmtF32.round (fun _ _ _ => false) p q
  let exact := fmtF32.round upAway p q == c
  let c := if exact then (match pick % 3 with | 0 => c | 1 => c + 1 | _ => c - 1) else if pick % 2 = 0 then c else c + 1
  w32 (2 ^ 31 * b2n neg + min c 0x7F800000)

/-- a / b within 1 ulp. -/
def f32Div (a b : W32) : W32 :=
  let neg := a.getLsbD 31 != b.getLsbD 31
  let sgn := 2 ^ 31 * b2n neg
  if fpIsNan a || fpIsNan b || (fpIsInf a && fpIsInf b) || (f32Zero a && f32Zero b) then fpNan
  else if fpIsInf a || f32Zero b then w32 (0x7F800000 + sgn)
  else if fpIsInf b || f32Zero a then w32 sgn
  else nearUlp (Config.ulpChoice 0 a b).toNat neg ((fpFix a).natAbs * fixOne) (fpFix b).natAbs

def f32One : W32 := 0x3F800000

/-- Integer square root by binary search. -/
def isqrtGo : Nat → Nat → Nat → Nat
  | 0, _, r => r
  | b + 1, n, r => let r' := r + 2 ^ b; if r' * r' ≤ n then isqrtGo b n r' else isqrtGo b n r

def isqrt (n : Nat) : Nat := isqrtGo (Nat.log2 n / 2 + 1) n 0

/-- √a within 1 ulp: the codes around the root, found by its integer part in units far below an ulp. -/
def f32Sqrt (a : W32) : W32 :=
  if fpIsNan a then fpNan
  else if f32Zero a then a
  else if a.getLsbD 31 then fpNan
  else if fpIsInf a then a
  else
    let x := (fpFix a).natAbs * 2 ^ 149 * 2 ^ 400
    let r := isqrt x
    nearUlp (Config.ulpChoice 1 a 0).toNat false (if r * r = x then 2 * r else 2 * r + 1) (2 * 2 ^ 200)

/-- 1 / √a within 1 ulp. -/
def f32Rsqrt (a : W32) : W32 :=
  if fpIsNan a then fpNan
  else if f32Zero a then w32 (0x7F800000 + 2 ^ 31 * b2n (a.getLsbD 31))
  else if a.getLsbD 31 then fpNan
  else if fpIsInf a then 0
  else
    let x := 2 ^ 149 * 2 ^ 298 * 2 ^ 400 / (fpFix a).natAbs
    let r := isqrt x
    nearUlp (Config.ulpChoice 2 a 0).toNat false (if r * r * (fpFix a).natAbs = 2 ^ 149 * 2 ^ 298 * 2 ^ 400 then 2 * r else 2 * r + 1) (2 * 2 ^ 200)

/-! EXP, LOG and their kin. Each is taken from its series in fixed point with 260 fraction bits, far below an ulp; the result is any FP32 code that the bound
of Table 3-0 allows, freely chosen but the same for the same operand (R147, log entry 14). -/

/-- 1.0 in that fixed point. -/
def unit260 : Nat := 2 ^ 260

/-- Order of FP32 codes as numbers: a negative code is its magnitude's negative. -/
def codeOfKey (k : Int) : W32 := if k < 0 then w32 (2 ^ 31 + k.natAbs) else w32 k.natAbs

/-- The largest code whose value is at most p / q, and the smallest whose value is at least that, as keys; p / q is in units of 2^−149. -/
def keyFloor (p : Int) (q : Nat) : Int :=
  if p < 0 then -(Int.ofNat (min (fmtF32.round upAway p.natAbs q) 0x7F800000)) else Int.ofNat (min (fmtF32.round (fun _ _ _ => false) p.natAbs q) 0x7F800000)

def keyCeil (p : Int) (q : Nat) : Int := -(keyFloor (-p) q)

/-- A code within `ulps` ulps of p / q, or within `abs` where that is larger. -/
def pickWithin (pick ulps abs : Nat) (p : Int) (q : Nat) : W32 :=
  let u := 2 ^ (max (Nat.log2 (p.natAbs / q)) 23 - 23)
  let b := Int.ofNat (max (ulps * u) abs * q)
  let lo := keyCeil (p - b) q
  let hi := keyFloor (p + b) q
  codeOfKey (lo + Int.ofNat (pick % ((hi - lo).toNat + 1)))

/-- Σ x^n / n! for 0 ≤ x < 1: the term and the sum so far. -/
def expSeries (x : Nat) : Nat → Nat → Nat → Nat → Nat
  | 0, _, _, acc => acc
  | f + 1, n, t, acc => expSeries x f (n + 1) (t * x / (unit260 * n)) (acc + t)

/-- 2 Σ z^(2k+1) / (2k+1), which is ln ((1 + z) / (1 − z)), for 0 ≤ z ≤ 1/3. -/
def logSeries (z2 : Nat) : Nat → Nat → Nat → Nat → Nat
  | 0, _, _, acc => 2 * acc
  | f + 1, k, t, acc => logSeries z2 f (k + 1) (t * z2 / unit260) (acc + t / (2 * k + 1))

/-- ln of p / q for 1 ≤ p / q ≤ 2. -/
def lnRatio (p q : Nat) : Nat :=
  let z := (p - q) * unit260 / (p + q)
  logSeries (z * z / unit260) 90 0 z 0

def ln2 : Nat := lnRatio 2 1

/-- e^(x / 2^260) as m × 2^n: m in fixed point from 1 to 2, and n. -/
def expParts (x : Int) : Nat × Int :=
  let n := x / Int.ofNat ln2
  (expSeries ((x - n * Int.ofNat ln2).toNat) 60 1 unit260 0, n)

/-- m × 2^n in units of 2^−149, as a quotient; |n| is kept within 1,000, beyond which the result is past every code. -/
def scaled (m : Nat) (n : Int) : Int × Nat :=
  let k := 149 + max (-1000) (min 1000 n)
  if 0 ≤ k then (Int.ofNat (m * 2 ^ k.toNat), unit260) else (Int.ofNat m, unit260 * 2 ^ (-k).toNat)

/-- An FP32 value in fixed point. -/
def fix260 (a : W32) : Int := fpFix a * 2 ^ 111

/-- ln of a positive FP32 value in fixed point: its mantissa's and its exponent's. -/
def lnFix (a : W32) : Int :=
  let x := (fpFix a).natAbs
  let l := Nat.log2 x
  Int.ofNat (lnRatio x (2 ^ l)) + (Int.ofNat l - 149) * Int.ofNat ln2

/-- 1 / (1 + e^−x) in fixed point. -/
def sigmoidFix (x : Int) : Int :=
  let (m, n) := expParts (-x)
  let (p, q) := scaled m n
  Int.ofNat (unit260 * (2 ^ 149 * q) / (2 ^ 149 * q + p.natAbs))

/-- 2/√π in fixed point. -/
def twoOverSqrtPi : Nat := 0x120dd750429b6d11ae3a914fed7fd8688281341d7587cea2e7342b06199cc41618

/-- Σ (−1)^n x^(2n+1) / (n! (2n+1)): the term x^(2n+1) / n! and the sum so far. -/
def erfSeries (x2 : Nat) : Nat → Nat → Nat → Int → Int
  | 0, _, _, acc => acc
  | f + 1, n, t, acc =>
    erfSeries x2 f (n + 1) (t * x2 / (unit260 * (n + 1))) (acc + (if n % 2 = 0 then Int.ofNat (t / (2 * n + 1)) else -(Int.ofNat (t / (2 * n + 1)))))

/-- erf (a / √2) in fixed point, for |a| ≤ 14. -/
def erfFix (a : W32) : Int :=
  let x := isqrt ((fix260 a).natAbs * (fix260 a).natAbs / 2)
  let e := erfSeries (x * x / unit260) 420 0 x 0 * Int.ofNat twoOverSqrtPi / Int.ofNat unit260
  if a.getLsbD 31 then -e else e

/-- A product of fixed-point numbers, from which the units of 2^−149 are a quotient. -/
def fixMul (a b : Int) : Int := a * b / Int.ofNat unit260

/-- A function of Table 3-0 of a finite operand for which the function is defined: 0 EXP, 1 EXP2, 2 LOG, 3 LOG2, 4 TANH, 5 SIGMOID, 6 GELU, 7 SILU. -/
def fpBounded (k : Nat) (a : W32) : W32 :=
  let pick := (Config.ulpChoice (8 + k) a 0).toNat
  let x := fix260 a
  let fine := fun (y : Int) => pickWithin pick 4 (2 ^ 127) (y * 2 ^ 149) unit260
  match k with
  | 0 => let (m, n) := expParts x; let (p, q) := scaled m n; pickWithin pick 2 0 p q
  | 1 => let (m, n) := expParts (fixMul x (Int.ofNat ln2)); let (p, q) := scaled m n; pickWithin pick 2 0 p q
  | 2 => pickWithin pick 2 0 (lnFix a * 2 ^ 149) unit260
  | 3 => pickWithin pick 2 0 (lnFix a * 2 ^ 149) ln2
  | 4 => fine (2 * sigmoidFix (2 * x) - Int.ofNat unit260)
  | 5 => fine (sigmoidFix x)
  | 6 =>
    if fpFix a > 14 * Int.ofNat fixOne then fine x
    else if fpFix a < -14 * Int.ofNat fixOne then fine 0
    else fine (fixMul x (Int.ofNat unit260 + erfFix a) / 2)
  | _ => fine (fixMul x (sigmoidFix x))

/-- Apply a function of Table 3-0: a NaN operand gives NaN, and every NaN is the canonical one (R108). Of an infinite operand, and for a logarithm of what is
not positive, no rule states the result: it is free (log entry 14). -/
def fpApply (k : Nat) (a : W32) : W32 :=
  if fpIsNan a then fpNan
  else if fpIsInf a || ((k == 2 || k == 3) && (f32Zero a || a.getLsbD 31)) then (let r := Config.fpFn k a; if fpIsNan r then fpNan else r)
  else fpBounded k a

end Sys2Proof.Machine
end

