-- ==== Sys2Proof/Machine/Commit.lean ====
section
/-! DEFINITION. The call sheet's commit (R378 to R383, Table 10-7), the coherence slots and the regions as registers command them
(chapters 9 and 10). -/

namespace Sys2Proof.Machine

open Sys2Proof

/-! Checking the staged bank (R379) -/

/-- Range of an entry. -/
def csEnd (ws : List W32) : Nat := csBase ws + 4096 * csLen ws

/-- An entry with invalid fields: LEN 0, a wrap past 2^64, LOCAL unaligned, a set number above 255, a set without a width. -/
def csBad (b : Bank) (ws : List W32) : Bool :=
  csLen ws == 0 || decide (2 ^ 64 < csEnd ws) || csLocal ws % pageSize != 0
    || (csIl ws && (let w := mgetD 0 (csTarget ws) b.widths; decide (255 < csTarget ws) || w == 0 || decide (64 < w)))

/-- A proxy entry with invalid fields: BAR_LOG outside 12 to 40, or above its port's VF_LOG (R399). -/
def proxyBad (s : State) (ws : List W32) : Bool :=
  let log := quad ws 1 / 2 ^ 18 % 64
  decide (log < 12) || decide (40 < log) || decide (rfld s (Reg.hostpBar2 + 256 * fld (ws.getD 0 0) 1 1) 0 8 6 < log)

/-- Some pair of a list satisfies r. -/
def anyPair {α : Type} (r : α → α → Bool) : List α → Bool
  | [] => false
  | a :: t => t.any (r a) || anyPair r t

def stagedBad (s : State) : Bool :=
  let b := s.fab.staged
  let es := (b.entries.map (·.2)).filter csValid
  let px := (b.proxies.map (·.2)).filter fun ws => bit (ws.getD 0 0) 0
  es.any (csBad b) || px.any (proxyBad s)
    || anyPair (fun x y => overlap (csBase x) (4096 * csLen x) (csBase y) (4096 * csLen y)) es
    || anyPair (fun x y => fld (x.getD 0 0) 1 8 == fld (y.getD 0 0) 1 8) px

/-! Changed entries -/

/-- The width and members of the set an entry names. -/
def csMembers (b : Bank) (ws : List W32) : List Nat :=
  if csIl ws then
    let set := csTarget ws % 256
    (List.range (max 1 (mgetD 1 set b.widths))).map fun m => mgetD 0 (64 * set + m) b.members
  else [csTarget ws]

/-- What an entry says, apart from reserved bits: range, LOCAL, rights, KEY and homes. -/
def csMeaning (b : Bank) (ws : List W32) : List Nat :=
  [csBase ws, csLen ws, csLocal ws, fld (ws.getD 0 0) 2 3, (csKey ws).toNat, b2n (csIl ws), csTarget ws] ++ csMembers b ws

/-- An entry of a bank that is valid at an index. -/
def csAt (b : Bank) (i : Nat) : Option (List W32) := match mget i b.entries with | some ws => if csValid ws then some ws else none | none => none

/-- The current entries that the staged bank removes or alters (R379); one that only stands at another index is neither. -/
def changedEntries (s : State) : List (Nat × List W32) :=
  s.fab.current.entries.filter fun e => csValid e.2 &&
    !(s.fab.staged.entries.any fun x => csValid x.2 && csMeaning s.fab.staged x.2 == csMeaning s.fab.current e.2)

/-! Hosts that lose a range or a right -/

/-- The partitions whose functions a port has, or whose decoders it has committed. -/
def portParts (s : State) (hp : Nat) : List Nat :=
  ((List.range (totalVfs s hp + 1)).filterMap fun n => fnPart s (hp * 256 + n))
    ++ ((s.host.hdm.filter fun d => d.1 / 8 == hp && d.2.committed).map fun d => d.2.part)

/-- A host of a port reaches an entry. -/
def hostReaches (s : State) (hp : Nat) (ws : List W32) : Bool := (portParts s hp).any fun p => fkey s p == csKey ws

/-- The host of a port loses a range or a right by a changed entry (R379). -/
def hostLoses (s : State) (hp i : Nat) (ws : List W32) : Bool :=
  cxlRuns s hp && hostReaches s hp ws &&
    match csAt s.fab.staged i with
    | none => true
    | some n =>
      decide (csBase ws < csBase n) || decide (csEnd n < csEnd ws)
        || csMembers s.fab.staged n != csMembers s.fab.current ws || csIl n != csIl ws
        || csLocal n + csBase ws != csLocal ws + csBase n || (csIl ws && csBase n != csBase ws)
        || (List.range 3).any (fun r => csRight ws r && !csRight n r)
        || !hostReaches s hp n

/-- The homes of an entry, with the hub-local offset and pages of its range at each. -/
def csHomes (b : Bank) (ws : List W32) : List (Nat × Nat × Nat) :=
  let w := (csMembers b ws).length
  (csMembers b ws).dedup.map fun ep => (ep, csLocal ws, ceilDiv (4096 * ceilDiv (csLen ws) (if csIl ws then w else 1)) pageSize)

/-! The commit -/

/-- COMMIT (R379): parity, epoch and fields, the live previous bank; then step 1 of Table 10-7. -/
def commitRun (s : State) : State :=
  let e := rfld s Reg.csCmd 0 16 16
  if s.mgmt.csBad.contains 0 then
    let s := { s with fab := { s.fab with staged := s.fab.current }, mgmt := { s.mgmt with csBad := s.mgmt.csBad.filter (· ≠ 0) } }
    cmdEnd Reg.csCmd 0 .parity (rset Reg.parityFault 0 (rget s Reg.parityFault 0 ||| 0x100) s)
  else if e ≠ (s.fab.epoch + 1) % 65536 ∨ stagedBad s then cmdEnd Reg.csCmd 0 .decode s
  else if s.fab.prevLive then cmdEnd Reg.csCmd 0 .quota s
  else
    let ch := (changedEntries s).map fun x => (csBase x.2, csEnd x.2)
    setBusy Reg.csCmd 0 true
      { s with fab := { s.fab with commit := some { epoch := e, step := 2, changed := ch, held := [], ownWalk := false, edges := 0 } } }

/-- DISCARD copies current into staged. -/
def discardRun (s : State) : State :=
  cmdEnd Reg.csCmd 0 .ok { s with fab := { s.fab with staged := s.fab.current }, mgmt := { s.mgmt with csBad := s.mgmt.csBad.filter (· ≠ 0) } }

/-- Offsets of the requests of this hub's own hosts that wait, or run a transaction, at this hub as their home. -/
def hostWaits (s : State) : List Nat :=
  let ofReq := fun r : CohReq => match r with | .host _ _ line _ _ _ _ _ => some (line * 64) | .bar2 _ off _ => some off | _ => none
  let ofHeld := fun h : HeldAccess => match h with | .bar2 _ off _ => some off | .cxl _ line _ _ _ _ _ => some (line * 64) | .packet _ _ => none
  s.coh.waiting.filterMap (fun w => ofReq w.req) ++ s.coh.txns.filterMap (fun t => t.req.bind ofReq)
    ++ (s.store.moves.flatMap fun m => m.2.held.filterMap ofHeld) ++ (match s.rel.snap with | some sn => sn.waiting.filterMap ofHeld | none => [])

/-- An offset of this hub lies in a changed entry's range. -/
def commitLocal (s : State) (c : Commit) (off : Nat) : Bool :=
  s.fab.current.entries.any fun e => csValid e.2 && c.changed.contains (csBase e.2, csEnd e.2) &&
    (csHomes s.fab.current e.2).any fun h => h.1 == selfEp s && decide (h.2.1 ≤ off) && decide (off < h.2.1 + h.2.2 * pageSize)

/-- A request that fell in a changed entry is outstanding. -/
def commitBusy (s : State) (c : Commit) : Bool :=
  (s.fab.reqs.any fun r => match r.fa with | some fa => c.changed.any (fun x => decide (x.1 ≤ fa) && decide (fa < x.2)) | none => false)
    || (hostWaits s).any (commitLocal s c)

/-- Walks a port's losses ask for: to other homes as WALK_REQ, at this hub directly (step 3). -/
def commitWalks (hp : Nat) (s : State) : State :=
  let lost := (changedEntries s).filter fun e => hostLoses s hp e.1 e.2
  lost.foldl (fun s e =>
    (csHomes s.fab.current e.2).foldl (fun s h =>
      let (ep, off, pages) := h
      if ep = selfEp s then
        match slotOfHost s hp with
        | some n => addWalk { lo := off, hi := off + pages * pageSize, slot := some n, why := .commit, running := false } s
        | none => s
      else
        let p := mkPacket s tWALK ep (w64 off) 0 (leBytes 8 (pages + selfEp s * 2 ^ 32 + (hp + 1) * 2 ^ 50))
        match sendReq (mkReq p none 0 0 .commitWalk) s with
        | (.gone, s) => s
        | (.failed _, s) => bump Reg.csWalkTmo 0 s) s) s

/-- Steps 2 and 3 (Table 10-7). -/
def commitDrained (s : State) : State :=
  match s.fab.commit with
  | some c =>
    if c.step = 2 ∧ !commitBusy s c then
      commitWalks 1 (commitWalks 0 { s with fab := { s.fab with commit := some { c with step := 4, edges := 0 } } })
    else s
  | none => s

/-- Run a request held at step 1 under the new current sheet. -/
def runHeldReq (h : HeldReq) (s : State) : State :=
  match h with
  | .bar2 path off op => barAccess path off op s
  | .cxl hp op hpa mv data be bad tag => cxlRequest hp op hpa mv data be bad tag s

/-- Every walk has answered, or REQ_TMO has passed for this hub's own. -/
def commitAnswered (s : State) (c : Commit) : Bool :=
  !s.fab.reqs.any (fun r => r.owner == ReqOwner.commitWalk)
    && (!s.coh.walks.any (fun w => w.why == WalkFor.commit) || decide (reqTmo s ≤ c.edges))

/-- Step 5: staged becomes current with the new epoch, the old current is live as previous, held requests are resolved. -/
def commitSwitch (s : State) : State :=
  match s.fab.commit with
  | some c =>
    if c.step = 4 ∧ commitAnswered s c then
      let own := (s.coh.walks.filter fun w => w.why == WalkFor.commit).length
      let s := bumpN Reg.csWalkTmo 0 own s
      let s := { s with coh := { s.coh with walks := s.coh.walks.filter fun w => w.why != WalkFor.commit } }
      let old := s.fab.epoch
      let s := { s with mgmt := { s.mgmt with csBad := if s.mgmt.csBad.contains 1 then [2] else [] } }
      let s := { s with fab := { s.fab with
        previous := s.fab.current, current := s.fab.staged, epoch := c.epoch, prevEpoch := old, prevLive := true, prevEdges := 0, commit := none } }
      let s := trigger 10 (w64 (c.epoch + old * 65536)) none 0 (cmdEnd Reg.csCmd 0 .ok s)
      let s := c.held.foldl (fun s h => runHeldReq h s) s
      (s.host.fns.map (·.1)).foldl (fun s i =>
        if h : i / 256 < 2 ∧ 0 < i % 256 ∧ i % 256 - 1 < 128 then proxyDrain (.vf ⟨i / 256, h.1⟩ ⟨i % 256 - 1, h.2.2⟩) s else s) s
    else s
  | none => s

/-- Requests this hub resolved under P that are outstanding, and requests carrying P that are being served (R381). -/
def prevInflight (s : State) : Nat :=
  let p := BitVec.ofNat 16 s.fab.prevEpoch
  (s.fab.reqs.filter fun r => r.fa.isSome && r.p.epoch == p).length
    + (s.coh.waiting.filter fun w => match w.req.pkt with | some q => q.epoch == p | none => false).length
    + (s.ord.held.filter fun h => h.p.type.toNat == tCUE && h.p.epoch == p).length

/-- CS_CFG.DRAIN, 0 acting as 1. -/
def csDrain (s : State) : Nat := max 1 (rfld s Reg.csCfg 0 0 8)

/-- P retires (R381). -/
def prevRetire (s : State) : State :=
  if s.fab.prevLive && (prevInflight s == 0 || decide (csDrain s ≤ s.fab.prevEdges)) then
    { s with fab := { s.fab with prevLive := false } }
  else s

/-- The bits of word j of an item that are not reserved: a call-sheet entry (Table 10-6), a proxy entry (Table 10-9). -/
def csFields (table j : Nat) : W32 :=
  match table, j with
  | 0, 0 => 0xFFFFF01F
  | 0, 3 => 0x00000FFF
  | 0, 5 => 0x0003FFFF
  | 0, 6 => 0x0003FFFF
  | 0, 7 => 0x0000FFFF
  | 2, 0 => 0xFFFFF1FF
  | 2, 2 => 0x00FFFFFF
  | 2, 3 => 0
  | _, _ => 0xFFFFFFFF

/-- CS_DATA (Table 10-12): the staged item that CS_IDX names takes one word; ignored while CS_CMD.BUSY is 1. An armed PARITY_INJECT of the fabric
unit leaves the staged bank with bad parity (R463, R468). -/
def csDataSet (j : Nat) (v0 : W32) (s : State) : State :=
  if cmdBusy s Reg.csCmd 0 then s
  else
    let v := v0 &&& csFields (rfld s Reg.csIdx 0 16 2) j
    let idx := rfld s Reg.csIdx 0 0 14
    let table := rfld s Reg.csIdx 0 16 2
    let put := fun (ws : List W32) (n : Nat) => ((ws ++ List.replicate 8 0).take n).set j v
    let b := s.fab.staged
    let b := match table with
      | 0 => if idx < 4096 then { b with entries := mset idx (put ((mget idx b.entries).getD []) 8) b.entries } else b
      | 1 => if j = 0 then { b with members := mput 0 idx (fld v 0 18) b.members } else b
      | 2 => if idx < 256 ∧ j < 4 then { b with proxies := mset idx (put ((mget idx b.proxies).getD []) 4) b.proxies } else b
      | _ => if j = 0 ∧ idx < 256 then { b with widths := mput 0 idx (fld v 0 7) b.widths } else b
    let inj := rget s Reg.parityInject 0
    let s := { s with fab := { s.fab with staged := b } }
    if bit inj 8 && fld inj 0 5 == 8 then
      rset Reg.parityInject 0 (inj &&& 0xFFFFFEFF) { s with mgmt := { s.mgmt with csBad := 0 :: s.mgmt.csBad.filter (· ≠ 0) } }
    else s

/-- A word of the staged item that CS_IDX names. -/
def csDataGet (s : State) (j : Nat) : W32 :=
  let idx := rfld s Reg.csIdx 0 0 14
  let b := s.fab.staged
  match rfld s Reg.csIdx 0 16 2 with
  | 0 => ((mget idx b.entries).getD []).getD j 0
  | 1 => if j = 0 then w32 (mgetD 0 idx b.members) else 0
  | 2 => ((mget idx b.proxies).getD []).getD j 0
  | _ => if j = 0 then w32 (mgetD 0 idx b.widths) else 0

/-! Coherence slots (R324, R350) -/

/-- SET. -/
def slotSetRun (s : State) : State :=
  let n := rfld s Reg.cohAgentNum 0 0 8
  let kind := rfld s Reg.cohAgent 0 18 2
  let ep := rfld s Reg.cohAgent 0 0 18
  if (cohSlot s n).isSome ∨ kind = 3 ∨ (slotOfId s kind ep).isSome then cmdEnd Reg.cohAgentCmd 0 .decode s
  else cmdEnd Reg.cohAgentCmd 0 .ok { s with coh := { s.coh with slots := mset n { kind := kind, ep := ep, lost := false } s.coh.slots } }

/-- CLEAR: an agent walk, then the slot is free (R324). A free slot completes at once (DESIGN CHOICE, log entry 30). -/
def slotClearRun (s : State) : State :=
  let n := rfld s Reg.cohAgentNum 0 0 8
  if (cohSlot s n).isNone then cmdEnd Reg.cohAgentCmd 0 .ok s
  else addWalk { lo := 0, hi := stageBase, slot := some n, why := .clearSlot n, running := false } (setBusy Reg.cohAgentCmd 0 true s)

/-- CLEAR_LOST. -/
def slotClearLostRun (s : State) : State :=
  let n := rfld s Reg.cohAgentNum 0 0 8
  match cohSlot s n with
  | some x =>
    if x.lost then cmdEnd Reg.cohAgentCmd 0 .ok (slotMod n (fun x => { x with lost := false }) s) else cmdEnd Reg.cohAgentCmd 0 .decode s
  | none => cmdEnd Reg.cohAgentCmd 0 .decode s

/-! Regions (R347, R349, R351) -/

def regionNum (s : State) (i : Nat) : Nat := rfld s Reg.regionCmd i 20 12

def regionBase (s : State) (i : Nat) : Nat := (rget s Reg.regionBaseLo i).toNat / pageSize + rfld s Reg.regionBaseHi i 0 18 * 2 ^ 11

/-- CREATE: the range inside one allocation of the partition, apart from every other region. -/
def regionCreateRun (i : Nat) (s : State) : State :=
  let base := regionBase s i
  let pages := rfld s Reg.regionSize i 0 28
  let o := rget s Reg.regionOwner i
  let inside := match allocAt s (base * pageSize) with
    | some a => (match allocOf s a with | some al => al.part == i && decide (0 < pages) && decide (base + pages ≤ al.base + al.pages) | none => false)
    | none => false
  let clash := s.coh.regions.any fun r => overlap r.2.base r.2.pages base pages
  if !inside ∨ clash ∨ fld o 18 2 = 3 then cmdEnd Reg.regionCmd i .decode s
  else
    let n := freeKeyFrom 0 s.coh.regions
    if 4096 ≤ n then cmdEnd Reg.regionCmd i .quota s
    else
      let r : Region := { part := i, base := base, pages := pages, kind := fld o 18 2, ep := fld o 0 18 }
      cmdEnd Reg.regionCmd i .ok (rsetFld Reg.regionCmd i 20 12 n { s with coh := { s.coh with regions := mset n r s.coh.regions } })

/-- A command on an existing region of the partition: another's gives OWNERSHIP, none gives DECODE (DESIGN CHOICE, log entry 30). -/
def regionFor (i : Nat) (f : Nat → Region → State → State) (s : State) : State :=
  match mget (regionNum s i) s.coh.regions with
  | none => cmdEnd Reg.regionCmd i .decode s
  | some r => if r.part ≠ i then cmdEnd Reg.regionCmd i .ownership s else f (regionNum s i) r s

def regionDestroyRun (i : Nat) (s : State) : State :=
  regionFor i (fun n _ s => cmdEnd Reg.regionCmd i .ok { s with coh := { s.coh with regions := mdel n s.coh.regions } }) s

/-- OWN by register: a walk for the old owner's slot if it has one, then the switch (R349). -/
def regionOwnRun (i : Nat) (s : State) : State :=
  regionFor i (fun n r s =>
    let o := rget s Reg.regionOwner i
    let kind := fld o 18 2
    let ep := fld o 0 18
    if kind = 3 then cmdEnd Reg.regionCmd i .decode s
    else
      match slotOfId s r.kind r.ep with
      | some x => addWalk { lo := r.base * pageSize, hi := (r.base + r.pages) * pageSize, slot := some x, why := .ownReg n kind ep, running := false } (setBusy Reg.regionCmd i true s)
      | none => cmdEnd Reg.regionCmd i .ok (regionGive n kind ep s)) s

def regionQueryRun (i : Nat) (s : State) : State :=
  regionFor i (fun _ r s =>
    let s := rset Reg.regionBaseLo i (w32 (r.base * pageSize)) (rset Reg.regionBaseHi i (w32 (r.base * pageSize / 2 ^ 32)) s)
    let s := rset Reg.regionSize i (w32 r.pages) (rset Reg.regionOwner i (w32 (r.kind * 2 ^ 18 + r.ep)) s)
    cmdEnd Reg.regionCmd i .ok s) s

/-! Coherence messages and walks -/

/-- What the check of the memory that holds the directory entries of a range, or of the directory cache, found as they were read: a corrected error is
counted; an uncorrectable one in an entry loses directory state, which is fatal (R328). -/
def dirChecked (off n : Nat) (m : Media) (s : State) : State :=
  match m with
  | .good => s
  | .corrected => bump Reg.dirCorrected 0 s
  | _ => if (linesOf off n).any fun line => (dirEntry s line).isSome then fatalResponse fatalDir s else s

/-- The same for the line of a coherence message. -/
def lineChecked (p : Packet) (m : Media) (s : State) : State := dirChecked (msgOff p) 64 m s

/-- The same for the lines of an uncached access; HBM that this hub has lent has no directory here. -/
def accessChecked (p : Packet) (m : Media) (s : State) : State := if p.loan then s else dirChecked p.addr.toNat (packetSpan p) m s

/-- The same for the entries that a running walk matches (R346). -/
def walkChecked (m : Media) (s : State) : State :=
  match m with
  | .good => s
  | .corrected => bump Reg.dirCorrected 0 s
  | _ => if (s.coh.walks.filter (·.running)).any fun w => !(walkHits s w).isEmpty then fatalResponse fatalDir s else s

/-- The same for the line of a host's request whose home is this hub. -/
def hostChecked (hp hpa : Nat) (m : Media) (s : State) : State := match hostHome s hp hpa with | some off => dirChecked off 64 m s | none => s

/-- An awaited answer whose edges have run out times out (R342, R343). -/
def recallExpire (line n : Nat) (s : State) : State :=
  match txnOf s line with
  | some t => if t.await.any fun a => a.1 == n && a.2 == 0 then recallTimedOut line n s else s
  | none => s

end Sys2Proof.Machine
end

