-- ==== Sys2Proof/Machine/Parity.lean ====
section
/-! DEFINITION. The hub finds registers stored with bad parity: units stop and the work that uses them ends (chapter 13, R463 to R467). -/

namespace Sys2Proof.Machine

open Sys2Proof

/-- Outstanding requests that use the stopped fabric unit, a partition's share of it or one port end with PARITY at once. -/
def stopRequests (u : Nat) (inst : Option Nat) (s : State) : State :=
  let hit := fun (r : Req) => match inst with | none => true | some i => r.part == i || i == setInst (r.tag / 4096)
  if u = 8 then (s.fab.reqs.filter hit).foldl (fun s r => endWith r .parity 0 [] s) s else s

/-- A command in progress ends with PARITY. -/
def cmdStop (r i : Nat) (s : State) : State := if cmdBusy s r i then cmdEnd r i .parity s else s

/-- A commit in progress ends with PARITY: nothing has switched; the requests it held go on. -/
def commitStop (s : State) : State :=
  match s.fab.commit with
  | none => s
  | some c =>
    let s := { s with fab := { s.fab with commit := none }, coh := { s.coh with walks := s.coh.walks.filter fun w => w.why != WalkFor.commit } }
    c.held.foldl (fun s h => runHeldReq h s) (cmdStop Reg.csCmd 0 s)

/-- The commands in progress that use a stopped unit, or a partition's share of it, end with PARITY at once; what they began goes on without them. -/
def stopCommands (u : Nat) (inst : Option Nat) (s : State) : State :=
  let whole := inst == none
  let sets := fun (r : Nat) (s : State) => (List.range (parts s)).foldl (fun s i => if whole || inst == some i then cmdStop r i s else s) s
  match u with
  | 0 => if whole || inst == some (rfld s Reg.partCmd 0 16 8) then cmdStop Reg.partCmd 0 s else s
  | 1 => sets Reg.allocCmd (if whole then cmdStop Reg.hostxCmd 0 s else s)
  | 3 => sets Reg.tblCmd s
  | 4 => sets Reg.idxCmd s
  | 7 =>
    let gone := fun (w : Walk) => match w.why with
      | .clearSlot _ => whole
      | .ownReg n _ _ => whole || (match mget n s.coh.regions with | some r => inst == some r.part | none => false)
      | _ => false
    sets Reg.regionCmd (if whole then cmdStop Reg.cohAgentCmd 0 { s with coh := { s.coh with walks := s.coh.walks.filter fun w => !gone w } }
      else { s with coh := { s.coh with walks := s.coh.walks.filter fun w => !gone w } })
  | 8 => if whole then commitStop s else s
  | 10 => sets Reg.mapCmd s
  | _ => s

/-- A parity mismatch of a register (R464, R465): a select register is only marked; any other stops its unit or the instance it
belongs to, is recorded unless a record stands, and raises the trigger once. -/
def parityMismatch (r i : Nat) (s : State) : State :=
  match regRow r with
  | none => s
  | some row =>
    if row.sel = .fn then s
    else
      let inst := match row.sel with | .none => none | .part => some i | _ => some (setInst i)
      if s.mgmt.stopped.contains (row.unit, inst) then s
      else
        let s := rset Reg.parityFault 0 (rget s Reg.parityFault 0 ||| w32 (2 ^ row.unit)) s
        let off := if 0x100000 ≤ r then r - 0x100000 else r
        let s := if rbit s Reg.parityWhereHi 0 31 then s
          else rset Reg.parityWhereHi 0 (w32 (2 ^ 31 + row.unit * 2 ^ 16 + i % 2 ^ 16)) (rset Reg.parityWhereLo 0 (w32 (off / 4 * 4)) s)
        let s := trigger 5 (w64 ((rget s Reg.parityWhereLo 0).toNat + (rget s Reg.parityWhereHi 0).toNat * 2 ^ 32)) (if row.sel = .part then some i else none) i s
        stopCommands row.unit inst (stopRequests row.unit inst (stopUnit row.unit inst s))

/-- The hub checks every register stored with bad parity (R463). -/
def paritySweep (s : State) : State := s.mgmt.badParity.foldl (fun s e => parityMismatch (e.1 / 65536) (e.1 % 65536) s) (bankParity s)

/-- No register and no bank stands with bad parity. -/
def parityGood (s : State) : Bool := s.mgmt.badParity.isEmpty && s.mgmt.csBad.isEmpty

/-- A unit is used and checks the registers it uses (R463); which ones each use takes in no rule says, so what bad parity is found then is a free choice
(log entry 91). -/
def checkUse (s : State) : State := if parityGood s then s else let (b, s) := drawBit s; if b then paritySweep s else s

/-- A command written on a path. -/
def issue (path : Path) (r op u : Nat) (v : W32) (f : Nat → State → State) (s : State) : State :=
  regWriteVia path r v (fun i _ s => issueAt r op u v f i (checkUse s)) s

end Sys2Proof.Machine
end

