-- ==== Sys2Proof/Machine/Operands.lean ====
section
/-! DEFINITION. Operands of descriptors and channels: a virtual range is read and written in pieces of a 4 KiB page, each by translation, call
sheet and home, with the outcomes of Table 4-4 (chapters 1, 4, 10 and 11). -/

namespace Sys2Proof.Machine

open Sys2Proof

/-- Who moves bytes: a descriptor (with the work unit it writes), a channel of a DMA engine, the snapshot stream, a queue that writes a completion record. -/
inductive Mover where
  | desc (q seq unit : Nat)
  | chan (e c : Nat)
  | snap
  | ring (q : Nat) (notify : Option Nat)
  deriving DecidableEq, Repr

def Mover.readOwner (m : Mover) (va n : Nat) : ReqOwner :=
  match m with | .desc q seq _ => .descRead q seq va n | .chan e c => .dmaRead e c va n | .snap => .hub | .ring _ _ => .hub

/-- What stands for the virtual address of bytes at x that have none. -/
def noVa (x : Nat) : Nat := 2 ^ 121 + x

/-- A virtual address, where it is one. -/
def realVa (va : Nat) : Option Nat := if va < 2 ^ 64 then some va else none

def Mover.writeOwner (va : Nat) : Mover → ReqOwner
  | .desc q seq u => .descWrite q seq u (realVa va)
  | .chan e c => .dmaWrite e c
  | .snap => .snap
  | .ring q v => .ringWrite q v

/-- Compute engines, rings and the snapshot stream need PIN (R405, R152, Table 14-5); DMA engines do not. -/
def Mover.compute : Mover → Bool
  | .desc _ _ _ => true
  | .chan _ _ => false
  | .snap => true
  | .ring _ _ => true

/-! Reading a piece -/

/-- What reading a piece yields. -/
inductive Piece where
  | data (bs : List Byte) (pois : List Nat) (st : Status)
  | sent            -- a request is on its way
  | refused         -- the translation was refused by ATS
  | fault
  deriving DecidableEq, Repr

/-- A read that brings no data (Table 4-4): free bytes, marked as poison where the status says so. -/
def lostData (va n : Nat) (st : Status) (s : State) : Piece × State :=
  let (bs, ws, s) := readOutcome va n st 0 [] s
  (.data bs ws st, s)

/-- An access to a range of this home must wait for the directory. -/
def mustWait (s : State) (off n : Nat) (isWrite : Bool) : Bool :=
  (linesOf off n).any (waitedFor s) || (blockedLine s off n isWrite none).isSome

/-- Ask a home for a piece; a piece of this hub that must wait goes the same way (log entry 19). -/
def remoteGet (m : Mover) (part ep off : Nat) (fa : Option Nat) (va n : Nat) (s : State) : Piece × State :=
  match sendReq (mkReq (stampKey s part { mkPacket s tRD ep (w64 off) 0 [] with len := BitVec.ofNat 13 n }) fa 0 part (m.readOwner va n)) s with
  | (.gone, s) => (.sent, s)
  | (.failed st, s) => lostData va n st s

/-- Words of an offset as words of the virtual address. -/
def toVaWords (off va : Nat) (ws : List Nat) : List Nat := ws.map fun w => (8 * w + va - off) / 8

/-- Words of a virtual address as words of the offset. -/
def toOffWords (off va : Nat) (ws : List Nat) : List Nat := ws.map fun w => (8 * w + off - va) / 8

/-- Read a piece at this home; `keyed` is the KEY check that an access through a LOCAL entry does not take (R24). -/
def localGet (m : Mover) (part off : Nat) (fa : Option Nat) (keyed : Bool) (va n : Nat) (s : State) : Piece × State :=
  match addrOf s off n with
  | .decode => lostData va n .decode s
  | .hub => lostData va n .decode (bump Reg.fabRefused part s)
  | a =>
    let owner := addrPart s a
    if keyed && fkey s owner != fkey s part then lostData va n .ownership (bump Reg.fabRefused owner s)
    else if homeStopped s a off n none then lostData va n .parity s
    else if keyed && mustWait s off n false then remoteGet m part (selfEp s) off fa va n s
    else
      let (g, s) := memRead off n (countRead off n (lookups off n s))
      let (bs, s) := hidePoison off g.pois g.bytes s
      (.data bs (toVaWords off va g.pois) (if g.codec then .codec else if g.pois.isEmpty then .ok else .poison), s)

/-- Read a piece at a home and offset. -/
def homeGet (m : Mover) (part ep off : Nat) (fa : Option Nat) (va n : Nat) (s : State) : Piece × State :=
  if ep = selfEp s then localGet m part off fa true va n s else remoteGet m part ep off fa va n s

/-- Read a piece of a virtual address: n bytes inside one 4 KiB page. A translation that reaches the stopped XLATE unit completes with PARITY (R465). -/
def getPiece (m : Mover) (part asid va n : Nat) (s : State) : Piece × State :=
  if unitStopped s 10 (some part) then lostData va n .parity s else
  match xlate asid va false m.compute s with
  | (.fault, s) => (.fault, s)
  | (.atsRefused, s) => (.refused, s)
  | (.host port addr, s) => 
    let (bs, bad, s) := hostRead port addr n s
    (.data bs (if bad then wordsOf va n else []) (if bad then .poison else .ok), s)
  | (.stage off, s) => localGet m part off none false va n s
  | (.fabric fa, s) =>
    if unitStopped s 8 (some part) then lostData va n .parity s else
    match resolve fa part 0 s with
    | (.decode, s) => lostData va n .decode s
    | (.ownership, s) => lostData va n .ownership s
    | (.home ep off, s) => homeGet m part ep off (some fa) va n s

/-! Writing a piece -/

/-- What a write carries: bytes, the poisoned words of its virtual range, a tally of the home to add its bytes to, the CRC-32C check. -/
structure Put where
  bs : List Byte
  pois : List Nat
  tally : Option Nat
  e2e : Bool
  deriving DecidableEq, Repr

/-- What writing a piece yields. -/
inductive Stored where
  | done (st : Status)
  | sent
  | refused
  | fault
  deriving DecidableEq, Repr

/-- The WR packet of a piece (R360, R364, R365). -/
def putPacket (s : State) (part ep off va : Nat) (w : Put) : Packet :=
  let p := stampKey s part (mkPacket s tWR ep (w64 off) (match w.tally with | some t => w64 t | none => 0) w.bs)
  let p := { p with tallyEn := w.tally.isSome, e2e := w.e2e, crc := if w.e2e then crc32c w.bs else 0 }
  if w.pois.isEmpty then p else { p with pmask := true, pois := lineMask off (toOffWords off va w.pois) }

/-- Send a piece to its home; the snapshot stream uses TC6 (Table 10-3). -/
def remotePut (m : Mover) (part ep off : Nat) (fa : Option Nat) (va : Nat) (w : Put) (s : State) : Stored × State :=
  let p := putPacket s part ep off va w
  let (p, s) := zipped off false (if m = .snap then { p with tc := 6 } else p) s
  match sendReq (mkReq p fa 1 part (m.writeOwner va)) s with
  | (.gone, s) => (.sent, s)
  | (.failed st, s) => (.done st, s)

/-- The tally check of a write at its home (R365, R374). -/
def putTally (part owner : Nat) (t : Option Nat) (s : State) : Bool × State :=
  match t with
  | none => (true, s)
  | some t =>
    match tallyPart s t with
    | some tp => if fkey s tp = fkey s part then (true, s) else (false, bump Reg.tallyRefused tp (bump Reg.fabRefused tp s))
    | none => (false, bump Reg.tallyRefused owner s)

/-- Store a piece that nothing holds back. -/
def storeNow (off va : Nat) (w : Put) (s : State) : Stored × State :=
  let (ok, s) := storeCells off (w.bs.map some) s
  let s := if ok then poisonWords (toOffWords off va w.pois) s else s
  match w.tally with
  | some t => if ok then (.done .ok, tallyAddTo t (w32 w.bs.length) s) else (.done .poison, s)
  | none => (.done (if ok then .ok else .poison), s)

/-- Write a piece at this home: the checks of R566 as a write of this hub, its guards, the gate of its page; what must wait goes as a packet to
the hub itself. -/
def localPut (m : Mover) (part off : Nat) (fa : Option Nat) (keyed : Bool) (va : Nat) (w : Put) (s : State) : Stored × State :=
  let n := w.bs.length
  match addrOf s off n with
  | .decode => (.done .decode, s)
  | .hub => (.done .decode, bump Reg.fabRefused part s)
  | a =>
    let owner := addrPart s a
    if keyed && fkey s owner != fkey s part then (.done .ownership, bump Reg.fabRefused owner s)
    else
      match putTally part owner w.tally s with
      | (false, s) => (.done .ownership, s)
      | (true, s) =>
        if homeStopped s a off n w.tally then (.done .parity, s)
        else
          match writeGuards off .engine s with
          | (false, s) => (.done .ownership, s)
          | (true, s) =>
            match writeGate s off with
            | .go => if keyed && mustWait s off n true then remotePut m part (selfEp s) off fa va w s else storeNow off va w s
            | .refused => (.done .ownership, s)
            | .roDropped => (.done .quota, match dieAt s off with | some (ch, _) => bump Reg.flcRoDropped ch s | none => s)
            | _ => remotePut m part (selfEp s) off fa va w s

/-- Write a piece at a home and offset. -/
def homePut (m : Mover) (part ep off : Nat) (fa : Option Nat) (va : Nat) (w : Put) (s : State) : Stored × State :=
  if ep = selfEp s then localPut m part off fa true va w s else remotePut m part ep off fa va w s

/-- Write a piece of a virtual address inside one 4 KiB page; a write that no entry covers is counted (R383). -/
def putPiece (m : Mover) (part asid va : Nat) (w : Put) (s : State) : Stored × State :=
  if unitStopped s 10 (some part) then (.done .parity, s) else
  match xlate asid va true m.compute s with
  | (.fault, s) => (.fault, s)
  | (.atsRefused, s) => (.refused, s)
  | (.host port addr, s) => (.done .ok, hostWrite port addr w.bs (!w.pois.isEmpty) s)
  | (.stage off, s) => localPut m part off none false va w s
  | (.fabric fa, s) =>
    if unitStopped s 8 (some part) then (.done .parity, s) else
    match resolve fa part 1 s with
    | (.decode, s) => (.done .decode, bump Reg.fabUnmapped part s)
    | (.ownership, s) => (.done .ownership, s)
    | (.home ep off, s) => homePut m part ep off (some fa) va w s

/-- A virtual range resolves into an entry that a commit is changing (Table 10-7, step 1), or touches a page that a copy moves (R418): the access
waits for the switch. -/
def vaHeld (s : State) (asid va n : Nat) : Bool :=
  (!s.host.migr.isEmpty && rangeMoves s asid (va / 4096) ((va + n + 4095) / 4096)) || s.fab.commit.isSome && (piecesOf va n).any fun pc =>
    match pteAt s asid (pc.1 / 4096) with
    | some (b, e) => e.kind == 0 && commitHolds s (e.tgt + (pc.1 - b * 4096))
    | none => false

/-! Operands of a descriptor -/

/-- A range's bytes stand beside the descriptor. -/
def hasBytes (m : NMap Byte) (va n : Nat) : Bool := (List.range n).all fun i => mhas (va + i) m

/-- A descriptor ends with FAULT at an address (R161, Table 11-4). -/
def descFault (q seq va : Nat) (s : State) : State :=
  descMod q seq (fun d => if d.stage = .completed then d else { d.stop .fault with detail := some va }) s

/-- A result reported in DETAIL, where neither DECODE nor FAULT was met (R210, R258). -/
def Desc.report (v : Nat) (d : Desc) : Desc := if d.statuses.any fun st => st == .decode || st == .fault then d else { d with detail := some v }

/-- A descriptor meets DECODE at an address. -/
def descDecode (q seq va : Nat) (s : State) : State := descMod q seq (Desc.decode (some va)) s

/-- Read one piece of a running descriptor's operand unless it is there. -/
def fetchPiece (q seq va n : Nat) (s : State) : State :=
  match descOf s q seq with
  | none => s
  | some d =>
    if d.stage ≠ .started ∨ hasBytes d.remote va n then s
    else
      match getPiece (.desc q seq 0) d.part d.asid va n s with
      | (.data bs ws st, s) => descMod q seq (Desc.got va bs ws st) s
      | (.sent, s) => s
      | (_, s) => descFault q seq va s

/-- A read of the descriptor is outstanding. -/
def descReading (s : State) (q seq : Nat) : Bool :=
  s.fab.reqs.any fun r => match r.owner with | .descRead q' seq' _ _ => q' == q && seq' == seq | _ => false

/-- A write of the descriptor is outstanding: not yet performed (R293). -/
def descWriting (s : State) (q seq : Nat) : Bool :=
  s.fab.reqs.any fun r => match r.owner with
    | .descWrite q' seq' _ _ => q' == q && seq' == seq
    | .broadcast q' seq' _ => q' == q && seq' == seq
    | _ => false

/-- Read ranges of a running descriptor: true once every byte is beside it. A descriptor whose reads are on their way waits. -/
def opFetch (q seq : Nat) (rs : List (Nat × Nat)) (s : State) : Bool × State :=
  match descOf s q seq with
  | none => (false, s)
  | some d =>
    if rs.any fun r => vaHeld s d.asid r.1 r.2 then (false, s)
    else
      let s := rs.foldl (fun s r => (piecesOf r.1 r.2).foldl (fun s pc => fetchPiece q seq pc.1 pc.2 s) s) s
      if descReading s q seq then (false, descMod q seq (fun d => if d.stage = .started then { d with stage := .waiting } else d) s)
      else (match descOf s q seq with | some d => d.stage == .started | none => false, s)

/-- The bytes of a range beside a descriptor. -/
def Desc.at (d : Desc) (va n : Nat) : List Byte := (List.range n).map fun i => mgetD 0 (va + i) d.remote

/-- Whether a word of a range was read as poison. -/
def Desc.bad (d : Desc) (va n : Nat) : Bool := (wordsOf va n).any fun w => d.remotePoison.contains w

/-- Read ranges, then go on with the descriptor that holds them. -/
def withBytes (q seq : Nat) (rs : List (Nat × Nat)) (f : Desc → State → State) (s : State) : State :=
  match opFetch q seq rs s with
  | (true, s) => (match descOf s q seq with | some d => f d s | none => s)
  | (false, s) => s

/-- Write one piece of a running descriptor's output. -/
def writePiece (q seq unit va : Nat) (w : Put) (s : State) : State :=
  match descOf s q seq with
  | none => s
  | some d =>
    if d.stage ≠ .started then descMod q seq (fun d => { d with badUnits := if d.badUnits.contains unit then d.badUnits else unit :: d.badUnits }) s
    else
      match putPiece (.desc q seq unit) d.part d.asid va w s with
      | (.done st, s) => descMod q seq (Desc.wrote unit (some va) st) s
      | (.sent, s) => s
      | (_, s) => descFault q seq va (descMod q seq (Desc.wrote unit none .fault) s)

/-- Write a range of a running descriptor, page by page; a fault ends it, and what comes after is not written. -/
def opPut (q seq unit va : Nat) (w : Put) (s : State) : State :=
  (piecesOf va w.bs.length).foldl (fun s pc =>
    writePiece q seq unit pc.1
      { w with bs := (w.bs.drop (pc.1 - va)).take pc.2, pois := w.pois.filter fun x => (wordsOf pc.1 pc.2).contains x } s) s

/-- Write bytes and mark some of their words poison. -/
def opWrite (q seq va : Nat) (bs : List Byte) (pois : List Nat) (s : State) : State :=
  opPut q seq 0 va { bs := bs, pois := pois, tally := none, e2e := false } s

/-- The operation has run to its end, with its COUNT. One that ended before (R173) keeps what it had counted. -/
def opEnd (q seq count : Nat) (s : State) : State :=
  descMod q seq (fun d => if d.stage = .started ∨ d.stage = .waiting then { d with count := count, stage := .ran } else d) s

/-- The operation has run to its end with what it has counted. -/
def opDone (q seq : Nat) (s : State) : State :=
  descMod q seq (fun d => if d.stage = .started ∨ d.stage = .waiting then { d with stage := .ran } else d) s

/-- Go on with an operation that nothing has ended. -/
def whileStarted (q seq : Nat) (f : State → State) (s : State) : State := if (descOf s q seq).any fun d => d.stage == .started then f s else s

/-- Count n more results of an operation that nothing has ended. -/
def opCount (q seq n : Nat) (s : State) : State := whileStarted q seq (descMod q seq fun d => { d with count := d.count + n }) s

/-- Write n results of w bytes each from va and count them: of a write that a FAULT ends, those before it. -/
def opPutCount (q seq va w n : Nat) (put : State → State) (s : State) : State :=
  whileStarted q seq (fun s =>
    let s := put s
    match descOf s q seq with
    | some d =>
      (match d.detail with
      | some a => if d.statuses.contains .fault ∧ va ≤ a ∧ a < va + w * n then descMod q seq (fun d => { d with count := d.count + (a - va) / w }) s else opCount q seq n s
      | none => opCount q seq n s)
    | none => s) s

/-- A started descriptor of an opcode runs. -/
def opRun (q : QueueNum) (seq : W32) (op : Nat) (f : Nat → Nat → Desc → State → State) (s : State) : State :=
  match descOf s q.toNat seq.toNat with
  | some d => if d.stage = .started ∧ (d.bytes.getD 0 0).toNat = op then f q.toNat seq.toNat d s else s
  | none => s

end Sys2Proof.Machine
end

