-- ==== Sys2Proof/Machine/Dma.lean ====
section
/-! DEFINITION. DMA engines (R419 to R425): channels, page requests (R413), pauses (R414), and the registers that start, abort and resume them. -/

namespace Sys2Proof.Machine

open Sys2Proof

/-- Register r of channel c. -/
def chReg (r c : Nat) : Nat := r + 64 * c

def chanOrder (s : State) (e : Nat) : List Nat := mgetD [] e s.host.dmaOrder

def setOrder (e : Nat) (l : List Nat) (s : State) : State := { s with host := { s.host with dmaOrder := mput [] e l s.host.dmaOrder } }

/-- Swap unit in bytes (Table 11-5). -/
def swapUnit (m : Nat) : Nat := match m with | 1 => 2 | 2 => 4 | 3 => 8 | 4 => 4 | 5 => 8 | _ => 1

/-- Where byte i of a unit goes (Table 11-5). -/
def swapTo (m i : Nat) : Nat :=
  match m with | 1 => 1 - i | 2 => 3 - i | 3 => 7 - i | 4 => (1 - i / 2) * 2 + i % 2 | 5 => (3 - i / 2) * 2 + i % 2 | _ => i

/-- Rearrange bytes in aligned units; the rearrangement is its own inverse. -/
def swapBytes (m : Nat) (bs : List Byte) : List Byte :=
  let u := swapUnit m
  (List.range bs.length).map fun i => bs.getD (i / u * u + swapTo m (i % u)) 0

/-- Destination words that a chunk's poisoned source words reach. -/
def swapWords (m src dst n : Nat) (ws : List Nat) : List Nat :=
  let u := swapUnit m
  (((List.range n).filter fun i => ws.contains ((src + i) / 8)).map fun i => (dst + i / u * u + swapTo m (i % u)) / 8).dedup

/-! START (R420) -/

/-- START samples the registers of an IDLE channel and queues it; intake may be stopped (Table 12-4). -/
def chanStart (e c : Nat) (s : State) : State :=
  let r := fun x => rget s (chReg x c) e
  if (chanOf s e c).isSome || (match dmaPart s e with | some p => intakeStopped s p | none => fatal s) then s
  else
    let cfg := r Reg.chCfg
    let ch : Chan := { Chan.idle with
      state := 1
      src := (r Reg.chSrcLo).toNat + fld (r Reg.chSrcHi) 0 16 * 2 ^ 32
      dst := (r Reg.chDstLo).toNat + fld (r Reg.chDstHi) 0 16 * 2 ^ 32
      len := (r Reg.chLenLo).toNat + fld (r Reg.chLenHi) 0 8 * 2 ^ 32
      asid := fld cfg 20 12
      swap := fld cfg 17 3
      tally := if bit cfg 16 then some (fld (r Reg.chTally) 0 16) else none
      vector := if bit cfg 15 then some (fld cfg 8 6) else none }
    let s := { s with host := { s.host with chans := mset (chanKey e c) ch s.host.chans } }
    setOrder e (chanOrder s e ++ [c]) s

/-- ABORT (R425): the channel issues nothing more. -/
def chanAbort (e c : Nat) (s : State) : State :=
  chanMod e c (fun ch => { ch with statuses := .reset :: ch.statuses, ended := true, waitPri := false }) s

/-- RESUME (R425) restarts a PAUSED channel. -/
def chanResume (e c : Nat) (s : State) : State :=
  chanMod e c (fun ch => if ch.state = 3 ∧ !ch.ended then { ch with state := 2, retried := false } else ch) s

/-- A write of CH_CTL (Table 11-15); several bits of one write act as START, ABORT, RESUME in turn (DESIGN CHOICE, log entry 31). -/
def chCtlSet (c : Nat) (v : W32) (e : Nat) (s : State) : State :=
  let s := storeParity (chReg Reg.chCtl c) e 12 s
  let s := if bit v 0 then chanStart e c s else s
  let s := if bit v 2 then chanAbort e c s else s
  if bit v 3 then chanResume e c s else s

/-! Page requests (R413) and pauses (R414) -/

/-- The channels of a function that wait on a page request, sent or not. -/
def priWaiting (s : State) (fn : Nat) (sent : Bool) : List (Nat × Chan) :=
  s.host.chans.filter fun e => e.2.waitPri && asidFn s e.2.asid == fn && (decide (0 < e.2.priLimit) == sent)

/-- Where a channel stands: the address it needs and whether to write. -/
def chunkLen (ch : Chan) : Nat :=
  min (ch.len - ch.done) (min (4096 - (ch.src + ch.done) % 4096) (4096 - (ch.dst + ch.done) % 4096))

def chanAt (ch : Chan) : Nat × Bool :=
  if hasBytes ch.remote (ch.src + ch.done) (chunkLen ch) then (ch.dst + ch.done, true) else (ch.src + ch.done, false)

/-- A channel pauses at its first unmoved byte. -/
def chanPause (e c : Nat) (s : State) : State :=
  match chanOf s e c with
  | none => s
  | some ch =>
    let (va, w) := chanAt ch
    let s := chanMod e c (fun ch => { ch with state := 3, waitPri := false }) s
    let s := rset (chReg Reg.chFaultHi c) e (w32 (va / 2 ^ 32 % 2 ^ 16 + 2 ^ 31 * b2n w)) (rset (chReg Reg.chFaultLo c) e (w32 va) s)
    match dmaPart s e with | some p => raiseOpt p ch.vector s | none => s

/-- Send the page request of a waiting channel: one page, with PASID, the read or write it needs. PRI_TMO is sampled now. -/
def priSend (e c : Nat) (s : State) : State :=
  match chanOf s e c with
  | none => s
  | some ch =>
    let (va, w) := chanAt ch
    let fn := asidFn s ch.asid
    let s := bump Reg.priReqs 0 (chanMod e c (fun ch => { ch with waitPri := true, waitEdges := 0, priLimit := max 1 (rfld s Reg.dmaCfg 0 0 8) }) s)
    emit (.pageRequest (fn / 256) (fn % 256) (asidPasid s ch.asid) va w) s

/-- Send what the Outstanding Page Request Allocation of a function permits; 512 per port (Table 11-1). -/
def priPump (fn : Nat) (s : State) : State :=
  let n := min (fnOf s fn).priAlloc 512 - (priWaiting s fn true).length
  ((priWaiting s fn false).take n).foldl (fun s e => priSend (e.1 / 8) (e.1 % 8) s) s

/-- A translation refused by ATS: a page request, or a pause. -/
def chanRefused (e c : Nat) (s : State) : State :=
  match chanOf s e c with
  | none => s
  | some ch =>
    let fn := asidFn s ch.asid
    let f := fnOf s fn
    if f.pri && !f.priStopped && !ch.retried then priPump fn (chanMod e c (fun ch => { ch with waitPri := true, priLimit := 0, waitEdges := 0 }) s)
    else chanPause e c s

/-! Moving -/

/-- Status of R421 for a channel that moves nothing; none where it runs. -/
def chanCheck (s : State) (e : Nat) (ch : Chan) : Option Status :=
  let u := swapUnit ch.swap
  if 6 ≤ ch.swap ∨ overlap ch.src ch.len ch.dst ch.len ∨ ch.len % u ≠ 0 ∨ ch.src % u ≠ 0 ∨ ch.dst % u ≠ 0 then some .decode
  else
    match dmaPart s e with
    | none => some .ownership
    | some p =>
      if asidPart s ch.asid != some p || (match ch.tally with | some t => tallyPart s t != some p | none => false) then some .ownership
      else if ch.len = 0 then some .ok
      else if unitStopped s 12 (some (setInst e)) || unitStopped s 10 (some p) || unitStopped s 11 (some p) then some .parity
      else none

/-- Take the status of a chunk written. -/
def Chan.wrote (n : Nat) (st : Status) (ch : Chan) : Chan :=
  let ch := { ch with done := ch.done + n, remote := [], remotePoison := [], retried := false }
  if st = .ok then ch
  else
    let ch := { ch with bad := ch.bad + n }
    if endsWork st then ch.stop st else { ch with statuses := st :: ch.statuses }

/-- Take the bytes of a chunk read. -/
def Chan.got (va : Nat) (bs : List Byte) (ws : List Nat) (st : Status) (ch : Chan) : Chan :=
  let ch := { ch with remote := depositBytes va bs ch.remote, remotePoison := ch.remotePoison ++ ws, retried := false }
  if st = .ok then ch else if endsWork st then ch.stop st else { ch with statuses := st :: ch.statuses }

/-- Move chunk after chunk, each inside one source page and one destination page, until something must be waited for (R423, R424). -/
def chanMove : Nat → Nat → Nat → State → State
  | 0, _, _, s => s
  | f + 1, e, c, s =>
    match chanOf s e c with
    | none => s
    | some ch =>
      if ch.ended ∨ ch.waitPri ∨ ch.state ≠ 2 then s
      else if ch.len ≤ ch.done then chanMod e c (fun ch => { ch with ended := true }) s
      else
        let n := chunkLen ch
        let va := ch.src + ch.done
        let wa := ch.dst + ch.done
        let part := (dmaPart s e).getD 0
        if vaHeld s ch.asid va n || vaHeld s ch.asid wa n then s
        else if hasBytes ch.remote va n then
          let bs := swapBytes ch.swap ((List.range n).map fun i => mgetD 0 (va + i) ch.remote)
          let ws := swapWords ch.swap va wa n ch.remotePoison
          match putPiece (.chan e c) part ch.asid wa { bs := bs, pois := ws, tally := none, e2e := false } s with
          | (.done st, s) => chanMove f e c (chanMod e c (Chan.wrote n st) s)
          | (.sent, s) => chanMove f e c (chanMod e c (Chan.wrote n .ok) s)
          | (.refused, s) => chanRefused e c s
          | (.fault, s) => chanPause e c s
        else
          match getPiece (.chan e c) part ch.asid va n s with
          | (.data bs ws st, s) => chanMove f e c (chanMod e c (Chan.got va bs ws st) s)
          | (.sent, s) => s
          | (.refused, s) => chanRefused e c s
          | (.fault, s) => chanPause e c s

/-- Steps that a channel can need. -/
def chanFuel (ch : Chan) : Nat := 4 * (ch.len / 4096 + 2)

def chanGo (e c : Nat) (s : State) : State := match chanOf s e c with | some ch => chanMove (chanFuel ch) e c s | none => s

/-- A read of the channel is outstanding. -/
def chanReading (s : State) (e c : Nat) : Bool :=
  s.fab.reqs.any fun r => match r.owner with | .dmaRead e' c' _ _ => e' == e && c' == c | _ => false

/-- A write of the channel is outstanding. -/
def chanWriting (s : State) (e c : Nat) : Bool :=
  s.fab.reqs.any fun r => match r.owner with | .dmaWrite e' c' => e' == e && c' == c | _ => false

/-- The engine's next queued channel starts, or its running channel goes on with what it waited for (R420). -/
def dmaRun (e : Nat) (s : State) : State :=
  let s := checkUse s
  match chanOrder s e with
  | [] => s
  | c :: _ =>
    match chanOf s e c with
    | none => s
    | some ch =>
      if ch.ended ∨ ch.waitPri ∨ chanReading s e c then s
      else if ch.state = 1 then
        match chanCheck s e ch with
        | some st => chanMod e c (fun ch => { ch with state := 2, statuses := if st = .ok then ch.statuses else st :: ch.statuses, ended := true }) s
        | none => chanGo e c (chanMod e c (fun ch => { ch with state := 2 }) s)
      else chanGo e c s

/-- The PRG Response of a channel that waits (R413). -/
def prgTake (e c : Nat) (code : PrgCode) (s : State) : State :=
  match chanOf s e c with
  | none => s
  | some ch =>
    if !ch.waitPri || ch.priLimit = 0 then s
    else
      let fn := asidFn s ch.asid
      let s := chanMod e c (fun ch => { ch with waitPri := false }) s
      match code with
      | .success => priPump fn (chanGo e c (chanMod e c (fun ch => { ch with retried := true }) s))
      | .invalidRequest => priPump fn (chanPause e c s)
      | .responseFailure =>
        let s := fnSet fn (fun f => { f with priStopped := true }) (chanMod e c (Chan.stop .fault) s)
        (priWaiting s fn false).foldl (fun s x => chanPause (x.1 / 8) (x.1 % 8) s) s

/-- No response within PRI_TMO: the channel pauses. -/
def priExpire (e c : Nat) (s : State) : State :=
  match chanOf s e c with
  | none => s
  | some ch =>
    if ch.waitPri ∧ 0 < ch.priLimit ∧ ch.priLimit ≤ ch.waitEdges then priPump (asidFn s ch.asid) (chanPause e c s) else s

/-- A channel completes once its requests have ended (R424): STATUS, CH_DONE, XLATE_FAULTS, the tally, the vector; then IDLE. -/
def dmaFinish (e c : Nat) (s : State) : State :=
  match chanOf s e c with
  | none => s
  | some ch =>
    if !ch.ended || chanReading s e c || chanWriting s e c then s
    else
      let st := worstOf ch.statuses
      let n := ch.done - ch.bad
      let s := setOrder e ((chanOrder s e).filter (· ≠ c)) { s with host := { s.host with chans := mdel (chanKey e c) s.host.chans } }
      let s := rset (chReg Reg.chCtl c) e (w32 (st.code * 2 ^ 16)) s
      let s := rset (chReg Reg.chDoneHi c) e (w32 (n / 2 ^ 32)) (rset (chReg Reg.chDoneLo c) e (w32 n) s)
      match dmaPart s e with
      | none => s
      | some p =>
        let s := if st = .fault then bump Reg.xlateFaults p s else s
        let s := match ch.tally with | some t => tallyAddFor p t 1 s | none => s
        raiseOpt p ch.vector s

/-- DMA_ASSIGN (Table 11-13): ignored while a channel of the engine is not IDLE. -/
def dmaAssignSet (v : W32) (e : Nat) (s : State) : State :=
  if s.host.chans.any fun c => c.1 / 8 == e then s else cfgStore Reg.dmaAssign e v s

end Sys2Proof.Machine
end

