-- ==== Sys2Proof/Machine/Alloc.lean ====
section
/-! DEFINITION. Allocations, their flags, quotas, the projector and the host-extent commands (chapter 1). -/

namespace Sys2Proof.Machine

open Sys2Proof

/-! Rooms (R41) -/

/-- Room of a tier for a partition's home pages. -/
def roomIn (s : State) (part t : Nat) : Nat := min (quotaFree s part t) (homeRoom s t)

/-- The mask with the disabled tiers' bits cleared (R28, R35). -/
def clearMask (s : State) (f : W32) : W32 :=
  (List.range 6).foldl (fun f t => if tierDisabled s t then f &&& ~~~(w32 (2 ^ t)) else f) f

/-- Flag sets that R35 refuses, on a mask already cleared. -/
def flagsBad (f : W32) (wideValid : Bool) : Bool :=
  let m := fMask f
  let has := fun t => m.testBit t
  let hub := has 1 || has 2 || has 3
  m == 0 || ((has 4 || has 5) && !hub) || (fPin f && has 5) || (fCoherent f && has 4) || (bit f 7 && bit f 8)
    || (fWidenOk f && !wideValid)
    || (fProject f && ((!has 0 && !has 1) || (!has 2 && !has 3 && !has 4 && !has 5) || ((has 4 || has 5) && !has 2 && !has 3)))

/-- ALLOC_WIDE, ALLOC_WIDE_FMT and ALLOC_WIDE_SOFF as sampled (R40, R97). -/
def wideNum (s : State) (i : Nat) : Option Nat :=
  let v := rget s Reg.allocWide i
  if bit v 16 then some (fld v 0 16) else none

def wideFmt (s : State) (i : Nat) : Nat := rfld s Reg.allocWideFmt i 0 4

def wideSoff (s : State) (i : Nat) : Nat := (rget s Reg.allocWideSoffLo i).toNat + rfld s Reg.allocWideSoffHi i 0 17 * 2 ^ 32

/-- The wider copy that WIDEN_OK needs is faulty (R97). -/
def wideBad (s : State) (i : Nat) (f : W32) : Bool :=
  fWidenOk f &&
    let fmt := wideFmt s i
    decide (fmt < 3) || decide (7 < fmt) ||
      match wideNum s i with
      | none => true
      | some w =>
        match allocOf s w with
        | none => true
        | some al => al.draining || al.part != i || (decide (5 ≤ fmt) && (wideSoff s i % 64 != 0 || decide (al.pages * pageSize ≤ wideSoff s i)))

/-! The layer table (R62, R69) -/

/-- The entries of a layer table, none where a word of it lies in no memory of the partition (DESIGN CHOICE, log entry 32). -/
def readLayers (part off n : Nat) (s : State) : Option (List (Nat × Nat)) × State :=
  match addrOf s off (16 * n) with
  | .decode => (none, s)
  | .hub => (none, s)
  | a =>
    if addrPart s a ≠ part ∧ a ≠ .stage then (none, s)
    else
      let (g, s) := memRead off (16 * n) s
      let (bs, s) := hidePoison off g.pois g.bytes s
      (some ((List.range n).map fun i => (leAt bs (16 * i) 8, leAt bs (16 * i + 8) 8)), s)

/-- A layer table that R69 refuses. -/
def layersBad (ls : List (Nat × Nat)) (pages : Nat) : Bool :=
  ls.isEmpty || ls.any fun l => l.2 == 0 || decide (pages * pageSize < l.1 + l.2)

/-- Pages of a window slot: the longest layer rounded up (R63). -/
def slotPagesOf (ls : List (Nat × Nat)) : Nat := ceilDiv ((ls.map (·.2)).foldl max 0) pageSize

/-- PROJ_STATE.NUM takes the allocation a projector command named. -/
def projNamed (i num : Nat) (s : State) : State := rset Reg.projState i (w32 num) s

/-! CREATE (R32, R41) -/

/-- CREATE's order of tiers. -/
def createOrder (f : W32) : List Nat :=
  if fProject f then [2, 3, 5, 4] else if fPin f then [0, 1, 2, 3, 4] else [1, 2, 3, 5, 4, 0]

/-- Tiers that may hold the home pages, in order. -/
def homeTiers (f : W32) : List Nat := (createOrder f).filter fun t => (fMask f).testBit t

/-- Tiers for n pages, each tier of the list filled before the next. -/
def fillTiers (n : Nat) : List (Nat × Nat) → List Nat
  | [] => []
  | (t, r) :: rest => List.replicate (min n r) t ++ fillTiers (n - min n r) rest

/-- Pages dealt over DDR and flash by peak read bandwidth, 768 to 115, while both have room; which page goes where is a DESIGN CHOICE (log entry 33). -/
def dealPages : Nat → Nat → Nat → Nat → List Nat
  | 0, _, _, _ => []
  | n + 1, j, rd, rf =>
    if rd = 0 ∧ rf = 0 then []
    else if rf = 0 ∨ (rd ≠ 0 ∧ j * 768 / 883 < (j + 1) * 768 / 883) then 2 :: dealPages n (j + 1) (rd - 1) rf
    else 3 :: dealPages n (j + 1) rd (rf - 1)

/-- The tier of each page of a new allocation. -/
def pageTiers (s : State) (part : Nat) (f : W32) (n : Nat) : List Nat :=
  let rooms := (homeTiers f).map fun t => (t, roomIn s part t)
  if fProject f then
    let dealt := dealPages n 0 (((rooms.find? fun r => r.1 == 2).map (·.2)).getD 0) (((rooms.find? fun r => r.1 == 3).map (·.2)).getD 0)
    dealt ++ fillTiers (n - dealt.length) (rooms.filter fun r => r.1 != 2 && r.1 != 3)
  else fillTiers n rooms

/-- A page of a new allocation. -/
def Page.new (alloc tier : Nat) (loc : Loc) : Page :=
  { alloc := alloc, tier := tier, loc := loc, lost := false, acc := 0, wrc := 0, heat := 0, wheat := 0, seqAdvice := false, willNeed := false,
    retryAt := 0, dirty := false }

/-- What the hub keeps beside the bytes of a range goes: metadata bytes (R269) and directory entries, whose lines are no longer those of an allocation (R31). -/
def forgetRange (lo n : Nat) (s : State) : State :=
  let out := fun a : Nat => decide (a < lo) || decide (lo + n ≤ a)
  { s with
    store := { s.store with blk := s.store.blk.filter fun c => out (c.1 * blockSize) }
    coh := { s.coh with dir := s.coh.dir.filter fun e => out (e.1 * 64), cache := s.coh.cache.filter fun l => out (l * 64) } }

/-- Everything a range holds is erased: it reads as zero (R31). -/
def eraseRange (lo n : Nat) (s : State) : State :=
  let out := fun a : Nat => decide (a < lo) || decide (lo + n ≤ a)
  forgetRange lo n { s with store := { s.store with
    mem := s.store.mem.filter fun c => out c.1
    poison := s.store.poison.filter fun c => out (8 * c.1) } }

/-- Home the pages of an allocation, the first at page `base`. -/
def homePages (num : Nat) : Nat → List Nat → State → State
  | _, [], s => s
  | pg, t :: ts, s =>
    let (l, s) := pickLoc t s
    homePages num (pg + 1) ts { s with store := { s.store with pages := mset pg (Page.new num t (l.getD .plain)) s.store.pages } }

/-- The tier that can take a projector's window (R63). -/
def windowTier (s : State) (part : Nat) (f : W32) (pages : Nat) : Option Nat :=
  [0, 1].find? fun t => (fMask f).testBit t && decide (pages ≤ min (quotaFree s part t) (tierFree s t))

/-- The base page of the operand registers. -/
def allocBase (s : State) (i : Nat) : Nat := (rget s Reg.allocBaseLo i).toNat / pageSize + rfld s Reg.allocBaseHi i 0 18 * 2 ^ 11

/-- The range is free and inside the store window. -/
def rangeOk (s : State) (base n : Nat) : Bool :=
  decide (0 < n) && decide (n ≤ 2 ^ 28) && decide (base + n ≤ stageBase / pageSize) && !(s.store.allocs.any fun a => overlap a.2.base a.2.pages base n)

/-- CREATE of partition i. The number is the lowest not in use (DESIGN CHOICE, log entry 34). For a projected allocation PROJ_CFG.W of 0 and a
PROJ_NLAYERS outside 1 to 4,096 complete with DECODE (DESIGN CHOICE, log entry 154); CONSUMERS of 0 is accepted, and the projector then waits for no DONE
(DESIGN CHOICE, log entry 155). -/
def allocCreateRun (i : Nat) (s : State) : State :=
  let base := allocBase s i
  let n := rfld s Reg.allocSize i 0 29
  let f := clearMask s (rget s Reg.allocFlags i)
  let w := rfld s Reg.projCfg i 0 8
  let toff := (rget s Reg.projLayersLo i).toNat + rfld s Reg.projLayersHi i 0 18 * 2 ^ 32
  let nl := rfld s Reg.projNlayers i 0 13
  if !rangeOk s base n || flagsBad f (wideNum s i).isSome || wideBad s i f then cmdEnd Reg.allocCmd i .decode s
  else
    let (ls, s) := if fProject f then readLayers i toff nl s else (some [], s)
    match ls with
    | none => cmdEnd Reg.allocCmd i .decode s
    | some ls =>
      if fProject f && (layersBad ls n || decide (4096 < nl) || w == 0) then cmdEnd Reg.allocCmd i .decode s
      else
        let slot := slotPagesOf ls
        let ts := pageTiers s i f n
        let win := if fProject f then windowTier s i f (w * slot) else some 0
        if 65536 ≤ s.store.allocs.length ∨ ts.length < n ∨ win.isNone then cmdEnd Reg.allocCmd i .quota s
        else
          let num := freeKeyFrom 0 s.store.allocs
          let al : Alloc := { part := i, base := base, pages := n, flags := f, wide := wideNum s i, wideFmt := wideFmt s i, wideSoff := wideSoff s i,
                              widened := false, reverting := false, fails := [0], draining := false }
          let s := homePages num base ts (eraseRange (base * pageSize) (n * pageSize) s)
          let s := { s with store := { s.store with allocs := mset num al s.store.allocs } }
          let s := if fProject f then
              let pr : Proj := { tableOff := toff, layers := ls, window := w, slotPages := slot, winTier := win.getD 0, consumers := rfld s Reg.projCfg i 8 16,
                                 readyTally := rfld s Reg.projTally i 0 16, doneTally := rfld s Reg.projTally i 16 16, k := 0, copying := false, running := true, reserved := true, resident := [] }
              projNamed i num { s with store := { s.store with projs := mset num pr s.store.projs } }
            else s
          cmdEnd Reg.allocCmd i .ok (rsetFld Reg.allocCmd i 16 16 num s)

/-! DESTROY (R43) -/

/-- The allocation that a command names (R42). -/
def namedAlloc (i : Nat) (s : State) (f : Nat → Alloc → State → State) : State :=
  let num := rfld s Reg.allocCmd i 16 16
  match allocOf s num with
  | some al => if al.draining then cmdEnd Reg.allocCmd i .decode s else if al.part ≠ i then cmdEnd Reg.allocCmd i .ownership s else f num al s
  | none => cmdEnd Reg.allocCmd i .decode s

def allocMod (num : Nat) (f : Alloc → Alloc) (s : State) : State := { s with store := { s.store with allocs := mmod num f s.store.allocs } }

/-- The widening of an allocation will be reverted at the next kernel start (R101). -/
def revertWide (al : Alloc) : Alloc := if al.widened then { al with reverting := true } else al

/-- The range of an allocation is removed: moves of its pages end uncounted (Table 2-2), its window goes, a widening that uses it is reverted. -/
def allocDrop (num : Nat) (s : State) : State :=
  let s := abandonMoves (fun pg _ => match mget pg s.store.pages with | some p => p.alloc == num | none => false) s
  { s with store := { s.store with
    allocs := mmapv (fun k al => if k = num then { al with draining := true } else if al.wide = some num then revertWide al else al) s.store.allocs
    projs := mdel num s.store.projs
    prefetch := s.store.prefetch.map fun r => { r with pages := r.pages.filter fun pg => (match mget pg s.store.pages with | some p => p.alloc != num | none => true) } } }

/-- The pages of a removed allocation return to quota and capacity. -/
def allocReturn (num : Nat) (s : State) : State :=
  let s := match allocOf s num with | some al => forgetRange (al.base * pageSize) (al.pages * pageSize) s | none => s
  let mine := (s.store.pages.filter fun p => p.2.alloc == num).map (·.1)
  let rel := match s.rel.snap with | some sn => { s.rel with snap := some { sn with left := sn.left.filter fun pg => !mine.contains pg || sn.copies.any fun c => c.page == pg } } | none => s.rel
  { s with
    store := { s.store with
      allocs := mdel num s.store.allocs
      pages := s.store.pages.filter fun p => p.2.alloc != num
      oldLocs := s.store.oldLocs.filter fun o => !mine.contains o.page }
    rel := rel }

def allocDestroyRun (i : Nat) (s : State) : State := namedAlloc i s fun num _ s => setBusy Reg.allocCmd i true (allocDrop num s)

/-- An earlier access to an allocation's range still waits. -/
def allocInUse (s : State) (al : Alloc) : Bool :=
  let lo := al.base * pageSize
  let hi := (al.base + al.pages) * pageSize
  let inside := fun off : Nat => decide (lo ≤ off) && decide (off < hi)
  s.coh.waiting.any (fun w => overlap w.req.range.1 w.req.range.2 lo (hi - lo)) || s.coh.txns.any (fun t => inside (t.line * 64))
    || s.ord.held.any (fun h => h.p.type.toNat == tCUE && inside h.p.addr.toNat)
    || (match s.rel.snap with | some sn => sn.waiting.any (fun h => match h with | .packet _ p => inside p.addr.toNat | .bar2 _ off _ => inside off | .cxl _ line _ _ _ _ _ => inside (line * 64)) | none => false)

/-- The last earlier access has completed: the pages return and BUSY clears (R43). -/
def pagesReturned (num : Nat) (s : State) : State :=
  match allocOf s num with
  | some al => if al.draining && !allocInUse s al then cmdFinish Reg.allocCmd al.part (rfld s Reg.allocCmd al.part 16 16 == num) (allocReturn num s) else s
  | none => s

/-! SET_FLAGS (R38) -/

/-- Bits that SET_FLAGS may change. -/
def setFlagsMay : W32 := 0xC7F

/-- SET_FLAGS: refused whole where it changes another bit or breaks R35 or R97; moves into tiers no longer permitted end uncounted. -/
def setFlagsRun (i : Nat) (s : State) : State :=
  namedAlloc i s fun num al s =>
    let f := clearMask s (rget s Reg.allocFlags i)
    if (f ^^^ al.flags) &&& ~~~setFlagsMay ≠ 0 ∨ flagsBad f (wideNum s i).isSome ∨ wideBad s i f then cmdEnd Reg.allocCmd i .decode s
    else
      let s := allocMod num (fun al =>
        let al := if fWidenOk al.flags && !fWidenOk f then revertWide al else al
        { al with flags := f, wide := wideNum s i, wideFmt := wideFmt s i, wideSoff := wideSoff s i }) s
      cmdEnd Reg.allocCmd i .ok (abandonMoves (fun pg m => (match mget pg s.store.pages with | some p => p.alloc == num | none => false) && !(fMask f).testBit m.dstTier) s)

/-! The projector (R64 to R70) -/

/-- A projector command names an allocation with PROJECT. -/
def namedProj (i : Nat) (s : State) (f : Nat → Alloc → Proj → State → State) : State :=
  namedAlloc i s fun num al s => match mget num s.store.projs with | some pr => f num al pr s | none => cmdEnd Reg.allocCmd i .decode s

def projMod (num : Nat) (f : Proj → Proj) (s : State) : State := { s with store := { s.store with projs := mmod num f s.store.projs } }

/-- PROJ_RESTART reads the layer table again; a refusal leaves the projector stopped. A window that a reset returned is reserved again, or QUOTA
(DESIGN CHOICE, log entry 35). -/
def projRestartRun (i : Nat) (s : State) : State :=
  namedProj i s fun num al pr s =>
    let s := projNamed i num s
    match readLayers i pr.tableOff pr.layers.length s with
    | (some ls, s) =>
      if layersBad ls al.pages || decide (pr.slotPages < slotPagesOf ls) then cmdEnd Reg.allocCmd i .decode (projStop num s)
      else if !pr.reserved && decide (min (quotaFree s al.part pr.winTier) (tierFree s pr.winTier) < pr.window * pr.slotPages) then cmdEnd Reg.allocCmd i .quota (projStop num s)
      else
        cmdEnd Reg.allocCmd i .ok (projMod num (fun pr => { pr with
          layers := ls, consumers := rfld s Reg.projCfg i 8 16, readyTally := rfld s Reg.projTally i 0 16, doneTally := rfld s Reg.projTally i 16 16,
          k := 0, copying := false, running := true, reserved := true, resident := [] }) s)
    | (none, s) => cmdEnd Reg.allocCmd i .decode (projStop num s)

def projStopRun (i : Nat) (s : State) : State :=
  namedProj i s fun num _ _ s => cmdEnd Reg.allocCmd i .ok (projStop num (projNamed i num s))

/-- A fetch starts (R65): fetch k waits until the slot of fetch k − W is released. A tally that has left the partition stops the projector (R70). -/
def projFetch (num : Nat) (s : State) : State :=
  match mget num s.store.projs, allocOf s num with
  | some pr, some al =>
    if !pr.running || pr.copying then s
    else if pr.window ≤ pr.k ∧ tallyPart s pr.doneTally ≠ some al.part then projStop num s
    else if pr.window ≤ pr.k ∧ !reached (tallyVal s pr.doneTally) (w32 (pr.consumers * (pr.k - pr.window + 1))) then s
    else projMod num (fun pr => { pr with copying := true, resident := pr.resident.filter fun r => r.1 ≠ pr.k % pr.window }) s
  | _, _ => s

/-- A fetch is done: every byte of the layer is visible in its slot, then READY is added to. -/
def projFetched (num : Nat) (s : State) : State :=
  match mget num s.store.projs, allocOf s num with
  | some pr, some al =>
    if !pr.running || !pr.copying then s
    else if tallyPart s pr.readyTally ≠ some al.part then projStop num s
    else
      let s := projMod num (fun pr => { pr with copying := false, k := pr.k + 1, resident := pr.resident ++ [(pr.k % pr.window, pr.k % pr.layers.length)] }) s
      tallyAddTo pr.readyTally 1 s
  | _, _ => s

/-! Quotas (R46, R93) -/

/-- Occupancy of a tier by a partition without its retiring replicas. -/
def occKept (s : State) (part t : Nat) : Nat :=
  occ { s with rows := { s.rows with replicas := s.rows.replicas.filter fun r => !r.2.retiring } } part t

/-- Replicas go, one after another in the order of their keys (DESIGN CHOICE, log entry 157), while the partition is over its quota (R93). -/
def shedReplicas (part t : Nat) (s : State) : State :=
  s.rows.replicas.foldl (fun s r =>
    if r.2.part = part ∧ r.2.tier = t ∧ !r.2.retiring ∧ quota s part t < occKept s part t then
      { s with rows := { s.rows with replicas := mmod r.1 (fun x => { x with retiring := true }) s.rows.replicas } }
    else s) s

def tierQuotaSet (t : Nat) (v : W32) (i : Nat) (s : State) : State := shedReplicas i t (cfgStore (Reg.tierQuota + 4 * t) i v s)

/-! Widening (R98, R101) -/

/-- A write of WIDE_CTL: NUM, and REVERT for a widened allocation of the partition. -/
def wideCtlSet (v : W32) (i : Nat) (s : State) : State :=
  let s := cfgStore Reg.wideCtl i v s
  if bit v 17 then
    allocMod (fld v 0 16) (fun al => if al.part = i then revertWide al else al) s
  else s

/-- WIDEN (R98): at an edge, failures of the WINDOW ticks that have ended have reached THRESHOLD; the first count is the running tick's. -/
def widenRun (num : Nat) (s : State) : State :=
  match allocOf s num with
  | none => s
  | some al =>
    let th := rfld s Reg.beWiden 0 0 16
    let win := max 1 (rfld s Reg.beWiden 0 16 8)
    if al.draining || !fWidenOk al.flags || al.widened || th = 0 || unitStopped s 1 (some al.part) || decide (((al.fails.drop 1).take win).sum < th) then s
    else trigger 9 (w64 num) (some al.part) 0 (bump Reg.widenCount al.part (allocMod num (fun al => { al with widened := true, reverting := false }) s))

/-! Host extents (R55 to R57) -/

/-- The extent that HOSTX_CMD names. -/
def hostxExt (s : State) : ExtId :=
  let c := rget s Reg.hostxCmd 0
  .host (if bit c 22 then 1 else 0) (Fin.ofNat 64 (fld c 16 6))

/-- LEND. A size of no page or a notice above 10,000 ms, outside the ranges of R49, completes with DECODE (DESIGN CHOICE, log entry 147). -/
def hostxLendRun (s : State) : State :=
  let e := hostxExt s
  if tierDisabled s 4 then cmdEnd Reg.hostxCmd 0 .decode s
  else if rfld s Reg.hostxSize 0 0 28 = 0 ∨ 10000 < rfld s Reg.hostxNotice 0 0 14 then cmdEnd Reg.hostxCmd 0 .decode s
  else if (extOf s e).isSome then cmdEnd Reg.hostxCmd 0 .quota s
  else
    let port := match e with | .host p _ => p.val | .loan _ => 0
    let x : Extent := { lender := port, addr := (rget s Reg.hostxAddrLo 0).toNat + (rget s Reg.hostxAddrHi 0).toNat * 2 ^ 32,
                        pages := rfld s Reg.hostxSize 0 0 28, noticeMs := rfld s Reg.hostxNotice 0 0 14, withdrawn := false, edges := 0, released := false }
    cmdEnd Reg.hostxCmd 0 .ok { s with store := { s.store with extents := s.store.extents ++ [(e, x)] } }

/-- NOTICE: BUSY stays 1 until the release; an extent that is not lent completes with DECODE (DESIGN CHOICE, log entry 30). -/
def hostxNoticeRun (s : State) : State :=
  let e := hostxExt s
  match extOf s e with
  | some _ => withdraw e (setBusy Reg.hostxCmd 0 true s)
  | none => cmdEnd Reg.hostxCmd 0 .decode s

/-- A unit number no parity fault stops: NOTICE stays in service (R564). -/
def noUnit : Nat := 31

/-- Early release of an extent from which every page has moved (R50 step 5). -/
def extEarly (e : ExtId) (s : State) : State :=
  match extOf s e with
  | some x =>
    if x.withdrawn && !x.released && (extPages s e).isEmpty && !(s.store.oldLocs.any fun o => o.loc == .ext e) then extRelease e s else s
  | none => s

/-- The notice period has passed: for a loan it ends 2L early (R388). A slow tick is 2/3 ms. -/
def noticeOver (s : State) (e : ExtId) (x : Extent) : Bool :=
  match e with
  | .host _ _ => decide (3 * noticeMs x.noticeMs ≤ 2 * x.edges)
  | .loan _ => decide (3 * (noticeMs x.noticeMs * 100 - 2 * hopTime s) ≤ 200 * x.edges)

def noticeEnd (e : ExtId) (s : State) : State :=
  match extOf s e with
  | some x => if x.withdrawn && !x.released && noticeOver s e x then extRelease e s else s
  | none => s

end Sys2Proof.Machine
end

