-- ==== Sys2Proof/Machine/Moves.lean ====
section
/-! DEFINITION. Page moves and row moves of the Blocking engine: their passes, switches and releases (chapter 2). -/

namespace Sys2Proof.Machine

open Sys2Proof

/-! Destinations -/

/-- Tiers that may hold home pages of an allocation (R32, R79); a disabled tier holds none (R28). -/
def homeMask (s : State) (al : Alloc) (t : Nat) : Bool := !tierDisabled s t && (fMask al.flags).testBit t && !(fProject al.flags && t < 2)

/-- Free quota of a partition in a tier, less the pages that moves in progress bring to it. -/
def quotaRoom (s : State) (part t : Nat) : Nat :=
  quotaFree s part t - (s.store.moves.filter fun m => m.2.dstTier == t && m.2.srcTier != t && partAt s (m.1 * pageSize) == part).length

/-- The first tier of a list that an allocation's mask permits and that has free capacity, and free quota where it is asked. -/
def firstRoom (s : State) (al : Alloc) (needQuota : Bool) (ts : List Nat) : Option Nat :=
  ts.find? fun t => homeMask s al t && decide (0 < homeRoom s t) && (!needQuota || decide (0 < quotaRoom s al.part t))

/-- Destination of a page whose tier its mask no longer permits (R38): the fastest with room and quota, else the fastest with room. -/
def forcedDest (s : State) (al : Alloc) (ts : List Nat) : Option Nat :=
  match firstRoom s al true ts with | some t => some t | none => firstRoom s al false ts

/-- Destination of a demotion (R79): the fastest slower tier with room and quota, else the slowest with room. -/
def demoteDest (s : State) (al : Alloc) (tier : Nat) : Option Nat :=
  let slower := tiersBySpeed.filter fun t => decide (tierRank tier < tierRank t)
  match firstRoom s al true slower with | some t => some t | none => firstRoom s al false slower.reverse

/-- A forced move: by anything but placement (R74). -/
def MoveKind.forced : MoveKind → Bool
  | .placement => false
  | _ => true

/-- Moves in progress, at most 256 (Table 2-5). -/
def moveSlots : Nat := 256

def allocAtPage (s : State) (pg : Nat) : Option Alloc :=
  match mget pg s.store.pages with | some p => allocOf s p.alloc | none => none

/-- The pages in which a row has its place. -/
def rowHome (s : State) (k : Nat) : List Nat :=
  match mget (k / 2 ^ 40) s.eng.tables with
  | some t => let o := rowOffset s t (k % 2 ^ 40); [o / pageSize, (o + rowWidth t.image - 1) / pageSize]
  | none => []

/-- Start a move of a page to a place of a tier. A forced move takes the place of a placement move, with a first pass (Table 2-2), and ends the
row moves of its page uncounted (R90). -/
def startMoveTo (pg : Nat) (kind : MoveKind) (tier : Nat) (loc : Loc) (s : State) : State :=
  let s := if kind.forced then abandonRows (fun k => (rowHome s k).contains pg) (abandonMoves (fun k m => k == pg && !m.kind.forced) s) else s
  match mget pg s.store.pages with
  | none => s
  | some p =>
    if (mget pg s.store.moves).isSome || moveSlots ≤ s.store.moves.length then s
    else
      let m : Move := { srcTier := p.tier, srcLoc := p.loc, dstTier := tier, dstLoc := loc, kind := kind, pass := 1, dirty := [], ready := false,
                        heldPass := false, held := [], retried := false }
      { s with store := { s.store with moves := mset pg m s.store.moves } }

def startMove (pg : Nat) (kind : MoveKind) (tier : Nat) (s : State) : State :=
  match pickLoc tier s with
  | (some l, s) => startMoveTo pg kind tier l s
  | (none, s) => s

/-! Passes (R80 to R85) -/

/-- A page is lost (R52): counted where a lent extent held it. -/
def pageLostAt (pg : Nat) (s : State) : State :=
  match mget pg s.store.pages with
  | some p =>
    match p.loc with
    | .ext e => pageLose pg (lostReg e) s
    | _ => pageGone pg s
  | none => s

/-- A write to the destination failed (R85): a placement move is abandoned; a forced move retries once in another permitted tier, then the page is lost. Where no
other permitted tier has room there is nothing to retry in, and the page is lost at once (DESIGN CHOICE, log entry 148). Writes held for the pass apply at the old location before
the retry begins. -/
def moveFailed (pg : Nat) (m : Move) (s : State) : State :=
  let s := bump Reg.migAbandoned (partAt s (pg * pageSize)) s
  if !m.kind.forced then abandonMoves (fun k _ => k == pg) s
  else if m.retried then pageLostAt pg s
  else
    match allocAtPage s pg with
    | none => s
    | some al =>
      match firstRoom s al false (tiersBySpeed.filter fun t => t ≠ m.dstTier) with
      | none => pageLostAt pg s
      | some t =>
        match pickLoc t s with
        | (some l, s) =>
          runHeldAll m.held (moveMod pg (fun m => { m with dstTier := t, dstLoc := l, pass := 1, dirty := [], ready := false, heldPass := false, held := [], retried := true }) s)
        | (none, s) => pageLostAt pg s

/-- The end of a pass. -/
def movePass (pg : Nat) (found : Media) (s : State) : State :=
  match mget pg s.store.moves with
  | none => s
  | some m =>
    if m.ready then s
    else if found = .failed ∨ found = .crcFailed then moveFailed pg m s
    else if m.heldPass || m.dirty.isEmpty then moveMod pg (fun m => { m with ready := true, dirty := [] }) s
    else if m.pass < 3 then moveMod pg (fun m => { m with pass := m.pass + 1, dirty := [] }) s
    else if m.kind.forced then moveMod pg (fun m => { m with heldPass := true }) s
    else
      let s := bump Reg.migAbandoned (partAt s (pg * pageSize)) s
      pageMod pg (fun p => { p with retryAt := s.boot.tick + 16 }) (abandonMoves (fun k _ => k == pg) s)

/-- Decode the compressed blocks of a page (R84). -/
def rawPage (pg : Nat) (s : State) : State :=
  ((s.store.blk.filter fun c => c.1 / 512 == pg).map (·.1)).foldl (fun s b => rawBlock b s) s

/-- The counters of a switched move (R565, Table 2-6). -/
def moveCounts (m : Move) (s : State) : State :=
  let s := if tierRank m.dstTier < tierRank m.srcTier then bump Reg.bePromoted 0 s
    else if tierRank m.srcTier < tierRank m.dstTier then bump Reg.beDemoted 0 s else s
  match m.kind with
  | .evac => bump Reg.beEvacMoved 0 s
  | .wear => bump Reg.beWearMoved 0 s
  | _ => s

/-- Poison of a page takes the unit of the place it now lies in: a unit with any poisoned word becomes poison whole and counts as made (R477, R480). -/
def coarsenPoison (pg : Nat) (s : State) : State :=
  let u := poisonUnit s (pg * pageSize)
  let ws := (s.store.poison.filter fun c => c.1 / (pageSize / 8) == pg).map (·.1)
  ((ws.map fun w => 8 * w / u).dedup).foldl (fun s i => if (wordsOf (i * u) u).all (wordPoison s) then s else markPoison (i * u) u s) s

/-- The switch (R81): the page's place changes in one step, the old one is kept until released, and writes held for the page apply at the new one
(R83). -/
def moveSwitch (pg : Nat) (s : State) : State :=
  match mget pg s.store.moves with
  | none => s
  | some m =>
    if !m.ready then s
    else
      let s := if codecTier m.dstTier then s else rawPage pg s
      let old : OldLoc := { page := pg, part := partAt s (pg * pageSize), tier := m.srcTier, loc := m.srcLoc }
      let s := coarsenPoison pg (pageMod pg (fun p => { p with tier := m.dstTier, loc := m.dstLoc }) s)
      let s := { s with store := { s.store with moves := mdel pg s.store.moves, oldLocs := s.store.oldLocs ++ [old] } }
      runHeldAll m.held (moveCounts m s)

/-- The last access that resolved to an old location has completed: it is free. -/
def oldRelease (pg : Nat) (s : State) : State := { s with store := { s.store with oldLocs := s.store.oldLocs.filter fun o => o.page ≠ pg } }

/-! Row moves (R88 to R90). A row's bytes stand at its place in the page; where the hub serves them from is `rows.slots`. -/

def rowMoveMod (k : Nat) (f : RowMove → RowMove) (s : State) : State := { s with rows := { s.rows with moves := mmod k f s.rows.moves } }

/-- A copy of a row ends: ready, or disturbed and repeated, or after the third abandoned (R89). -/
def rowCopied (k : Nat) (s : State) : State :=
  match mget k s.rows.moves with
  | none => s
  | some m =>
    if m.ready then s
    else if !m.disturbed then rowMoveMod k (fun m => { m with ready := true }) s
    else if m.copies < 3 then rowMoveMod k (fun m => { m with copies := m.copies + 1, disturbed := false }) s
    else
      bump Reg.rowAbandoned (tablePart s m.table)
        { s with rows := { s.rows with moves := mdel k s.rows.moves, retryAt := mset k (s.boot.tick + 16) s.rows.retryAt } }

/-- The row map changes in one step; a slot left behind stays until released. -/
def rowSwitched (k : Nat) (s : State) : State :=
  match mget k s.rows.moves with
  | none => s
  | some m =>
    if !m.ready then s
    else
      let s := bump Reg.beRowMoved 0 { s with rows := { s.rows with moves := mdel k s.rows.moves } }
      if m.toSlot then { s with rows := { s.rows with slots := mset k m.tier s.rows.slots } }
      else { s with rows := { s.rows with slots := mdel k s.rows.slots, old := mset k m.tier s.rows.old } }

/-- The last gather that resolved to the old slot has completed. -/
def rowReleased (k : Nat) (s : State) : State := { s with rows := { s.rows with old := mdel k s.rows.old } }

end Sys2Proof.Machine
end

