-- ==== Sys2Proof/Machine/Part.lean ====
section
/-! DEFINITION. Partitions (chapter 12): their creation, reset and release, the binding of functions, vector masks, reel resets. -/

namespace Sys2Proof.Machine

open Sys2Proof

/-! What a partition leaves behind -/

/-- The objects of a table go: its rows' slots and moves, its replicas, its broadcast count. -/
def tableGone (t : Nat) (s : State) : State :=
  let keep := fun k : Nat => k / 2 ^ 40 != t
  { s with
    rows := { s.rows with
      slots := s.rows.slots.filter fun e => keep e.1
      moves := s.rows.moves.filter fun e => keep e.1
      old := s.rows.old.filter fun e => keep e.1
      retryAt := s.rows.retryAt.filter fun e => keep e.1
      heavy := s.rows.heavy.filter fun e => keep e.1
      replicas := s.rows.replicas.filter fun e => keep e.1
      granted := s.rows.granted.filter fun e => keep e.1
      refused := s.rows.refused.filter fun e => keep e.1 }
    eng := { s.eng with
      tables := mdel t s.eng.tables
      bcastSeq := mdel t s.eng.bcastSeq } }

/-- The objects of an index go. -/
def indexGone (x : Nat) (s : State) : State :=
  { s with eng := { s.eng with idxs := mdel x s.eng.idxs, inserts := s.eng.inserts.filter fun i => i.idx != x } }

/-- The entries of a table of registers of the partition set. -/
def clearSlots (part : Nat) (s : State) : State :=
  (List.range 64).foldl (fun s k => rsetFld (slotReg Reg.dqMap k) part 31 1 0 (rset (Reg.vecRouteLo + 8 * k) part 0 (rset (Reg.vecRouteHi + 8 * k) part 0 (clearSeq (vecRoute part k) s)))) s

/-- Clear VALID of every instance of a register that p says is the partition's. -/
def clearValid (r : Nat) (p : State → Nat → Bool) (s : State) : State :=
  (regInsts s r).foldl (fun s i => if p s i then rsetFld r i 31 1 0 s else s) s

/-- The release of a partition (R428). -/
def partRelease (part : Nat) (s : State) : State :=
  let mine := s.store.allocs.filter fun a => a.2.part == part
  let s := s.store.allocs.foldl (fun s a => if a.2.part = part then allocReturn a.1 (allocDrop a.1 s) else s) s
  let s := s.eng.tables.foldl (fun s t => if t.2.part = part then tableGone t.1 s else s) s
  let s := s.eng.idxs.foldl (fun s x => if x.2.part = part then indexGone x.1 s else s) s
  let s := { s with
    coh := { s.coh with regions := s.coh.regions.filter fun r => r.2.part != part }
    fab := { s.fab with ledger := s.fab.ledger.filter fun l => !(mine.any fun a => decide (a.2.base * pageSize ≤ l.2.base) && decide (l.2.base < (a.2.base + a.2.pages) * pageSize)) } }
  let s := (regInsts s Reg.asidCfg).foldl (fun s a => if asidPart s a = some part then invalAsid a { s with host := { s.host with ptes := s.host.ptes.filter fun e => e.1 / 2 ^ 36 != a } } else s) s
  let s := clearValid Reg.asidCfg (fun s a => asidPart s a == some part) s
  let s := clearValid Reg.tallyAssign (fun s t => tallyPart s t == some part) s
  let s := clearValid Reg.dmaAssign (fun s e => dmaPart s e == some part) s
  let s := clearSlots part s
  let s := (regInsts s Reg.fnMap).foldl (fun s i =>
    if rfld s Reg.fnMap i 0 8 ≠ part then s else if i % 256 = 0 then rset Reg.fnMap i 0 s else rsetFld Reg.fnMap i 31 1 0 s) s
  let s := (List.range 6).foldl (fun s t => rset (Reg.tierQuota + 4 * t) part 0 s) (rset Reg.fabFkey part 0 s)
  { s with host := { s.host with hdm := mmapv (fun _ d => if d.part = part then { d with committed := false } else d) s.host.hdm } }

/-! The reset of a partition (R439, R440) -/

/-- The reset that runs on a partition. -/
def partRun (s : State) (part : Nat) : Option PartRun := mget part s.mgmt.runs

def runSet (part : Nat) (r : PartRun) (s : State) : State := { s with mgmt := { s.mgmt with runs := mset part r s.mgmt.runs } }

/-- Step 2 begins: in-flight work ends, projectors and the partition's snapshot stream stop, tally watches are disarmed. -/
def partStopWork (part : Nat) (s : State) : State :=
  let s := (partQueues s part).foldl (fun s q => abortQueue q.2 s) s
  let s := (List.range 64).foldl (fun s k => rsetFld (slotReg Reg.dqCtl k) part 0 1 0 s) s
  let s := stopChans (fun e => dmaPart s e == some part) .reset s
  let s := s.store.allocs.foldl (fun s a => if a.2.part = part then projStop a.1 s else s) s
  let s := { s with ord := { s.ord with watches := mmapv (fun t w => if tallyPart s t = some part then { w with arm := false } else w) s.ord.watches } }
  match s.rel.snap with
  | some sn => if sn.part = part then runHeldAll sn.waiting (snapEnd .reset s) else s
  | none => s

/-- Steps 1 and 2 of a reset. -/
def partResetStart (part : Nat) (destroy : Bool) (s : State) : State :=
  let s := rsetFld Reg.partStatus part 4 3 1 (rsetFld Reg.partStatus part 0 2 (if destroy then 3 else 2) s)
  partStopWork part (runSet part { step := 1, destroy := destroy, destroyWaits := false } s)

/-- A cause of a reset (R439): recorded; it starts a run unless one runs; a FREE partition ignores it. -/
def partCause (part cause : Nat) (s : State) : State :=
  if partState s part = 0 ∨ parts s ≤ part then s
  else
    let s := rsetFld Reg.partStatus part 8 4 cause s
    if partBusy s part then s else partResetStart part false s

/-- Every descriptor and channel of the partition has completed (step 2). -/
def partWorkDone (s : State) (part : Nat) : Bool :=
  ((partQueues s part).all fun q => (queueOf s q.2).descs.all fun d => d.stage == DescStage.completed)
    && !s.host.chans.any fun c => dmaPart s (c.1 / 8) == some part

def partWorkEnded (part : Nat) (s : State) : State :=
  match partRun s part with
  | some r => if r.step = 1 ∧ partWorkDone s part then rsetFld Reg.partStatus part 4 3 2 (runSet part { r with step := 2 } s) else s
  | none => s

/-- Step 5: every translation of the partition's ASIDs is dropped. -/
def partInval (part : Nat) (s : State) : State :=
  (regInsts s Reg.asidCfg).foldl (fun s a => if asidPart s a = some part then invalAsid a s else s) s

/-- Step 6: replicas, counted as released (Table 2-6), projector windows, pending PREFETCH ranges, advice and the credit at the arbiters go. -/
def partReturn (part : Nat) (s : State) : State :=
  let s := bumpN Reg.beReplRetired 0 (s.rows.replicas.filter fun r => r.2.part == part).length (dropCredit part s)
  { s with
    rows := { s.rows with replicas := s.rows.replicas.filter fun r => r.2.part != part }
    store := { s.store with
      projs := mmapv (fun a p => if addrPart s (.store a) = part then { p with reserved := false } else p) s.store.projs
      prefetch := s.store.prefetch.filter fun r => r.part != part
      pages := mmapv (fun _ p => if addrPart s (.store p.alloc) = part then { p with seqAdvice := false, willNeed := false } else p) s.store.pages } }

/-- Step 7: vectors masked, pending bits cleared; vector 0 is raised unless the reset belongs to a DESTROY, and then waits under its mask. -/
def partMask (part : Nat) (destroy : Bool) (s : State) : State :=
  let s := (List.range 4).foldl (fun s q => rset (Reg.vecPend + 4 * q) part 0 (rset (Reg.vecMask + 4 * q) part 0xFFFF s)) s
  if destroy then s else raiseVec part 0 s

/-- Functions bound to the partition answer again (R443). -/
def fnsBack (part : Nat) (s : State) : State :=
  (s.host.fns.map (·.1)).foldl (fun s i => if fnPart s i = some part then fnSet i (fun f => { f with resetting := false }) s else s) s

/-- A DESTROY of PART_CMD completes. -/
def destroyEnd (part : Nat) (s : State) : State :=
  if cmdBusy s Reg.partCmd 0 && rfld s Reg.partCmd 0 16 8 == part then cmdEnd Reg.partCmd 0 .ok s else s

/-- Steps 4 to 7 end: the partition is ACTIVE again, or its release runs and it is FREE. A DESTROY that waited then runs in full (R429). -/
def partFinish (part : Nat) (r : PartRun) (s : State) : State :=
  let s := partMask part r.destroy (partReturn part (partInval part s))
  let s := bump Reg.partResets part (bump Reg.resetsAll 0 (fnsBack part s))
  let s := rsetFld Reg.partStatus part 4 3 7 { s with mgmt := { s.mgmt with runs := mdel part s.mgmt.runs } }
  if r.destroy then destroyEnd part (rsetFld Reg.partStatus part 0 2 0 (partRelease part s))
  else
    let s := rsetFld Reg.partStatus part 0 2 1 s
    if r.destroyWaits then partResetStart part true (rsetFld Reg.partStatus part 8 4 4 s) else s

/-- Step 3 ends when no request of the partition is outstanding; then the walk of step 4 over its COHERENT allocations, or on at once. -/
def partTagsDrained (part : Nat) (s : State) : State :=
  match partRun s part with
  | some r =>
    if r.step = 2 ∧ !s.fab.reqs.any (fun x => x.part == part && x.owner != ReqOwner.commitWalk) then
      let coh := s.store.allocs.filter fun a => a.2.part == part && fCoherent a.2.flags
      let s := rsetFld Reg.partStatus part 4 3 3 (runSet part { r with step := 3 } s)
      if coh.isEmpty && !(r.destroy && s.store.allocs.any fun a => a.2.part == part && allocInUse s a.2) then partFinish part r s
      else coh.foldl (fun s a => addWalk { lo := a.2.base * pageSize, hi := (a.2.base + a.2.pages) * pageSize, slot := none, why := .partReset part, running := false } s) s
    else s
  | none => s

/-- Step 4 ends with its walks; a release waits for the accesses that still reach the partition's allocations (R43). -/
def partWalkEnded (part : Nat) (s : State) : State :=
  match partRun s part with
  | some r =>
    if r.step = 3 ∧ !s.coh.walks.any (fun w => w.why == WalkFor.partReset part)
        ∧ !(r.destroy && s.store.allocs.any fun a => a.2.part == part && allocInUse s a.2) then partFinish part r s
    else s
  | none => s

/-- A write of PART_CTL through a partition's set. -/
def partCtlSet (v : W32) (i : Nat) (s : State) : State :=
  let s := storeParity Reg.partCtl i 0 s
  if bit v 0 then partCause i 1 s else s

/-! CREATE and DESTROY (R427, R429) -/

/-- Every register of a partition's set at its reset value, its counts and route counts at 0. -/
def partSetReset (part : Nat) (s : State) : State :=
  let keep := fun k : Nat => decide (k / 65536 < 0x100000) || k % 65536 != part
  { s with
    regs := s.regs.filter fun e => keep e.1
    live := s.live.filter fun e => keep e.1
    copies := s.copies.filter fun e => keep e.1
    mgmt := { s.mgmt with
      badParity := s.mgmt.badParity.filter fun e => keep e.1
      eventSeq := s.mgmt.eventSeq.filter fun e => keep e.1 } }

/-- NUM of PART_CMD. -/
def partNum (s : State) : Nat := rfld s Reg.partCmd 0 16 8

def partCreateRun (s : State) : State :=
  let n := partNum s
  if n = 0 ∨ parts s ≤ n ∨ partState s n ≠ 0 then cmdEnd Reg.partCmd 0 .decode s
  else cmdEnd Reg.partCmd 0 .ok (rsetFld Reg.partStatus n 0 2 1 (partSetReset n s))

/-- DESTROY: a partition that resets is destroyed after that reset; BUSY stays 1 until the release ends, and STATUS reads OK. -/
def partDestroyRun (s : State) : State :=
  let n := partNum s
  if n = 0 ∨ parts s ≤ n ∨ partState s n = 0 then cmdEnd Reg.partCmd 0 .decode s
  else
    let s := setBusy Reg.partCmd 0 true (rsetFld Reg.partCmd 0 8 8 0 s)
    match partRun s n with
    | some r => rsetFld Reg.partStatus n 8 4 4 (runSet n { r with destroyWaits := true } s)
    | none => partResetStart n true (rsetFld Reg.partStatus n 8 4 4 s)

/-! Functions (R430) -/

/-- FN_MAP of the function that FN_IDX names; a write for no function is ignored, VALID of a PF stays 1. -/
def fnMapSet (v : W32) (s : State) : State :=
  let i := rfld s Reg.fnIdx 0 0 9
  if !fnExists s i then s
  else cfgStore Reg.fnMap i (if i % 256 = 0 then setFld v 31 1 0 else v) s

/-! Vector masks (R435) -/

/-- VEC_MASK_q: bits 31:16 say which mask bits are written; a pending vector that is unmasked is delivered once. -/
def vecMaskSet (q : Nat) (v : W32) (i : Nat) (s : State) : State :=
  let old := rget s (Reg.vecMask + 4 * q) i
  let wm := fld v 16 16
  let s := cfgStore (Reg.vecMask + 4 * q) i (w32 (((old &&& ~~~(w32 wm)) ||| (v &&& w32 wm)).toNat % 65536)) s
  (List.range 16).foldl (fun s b =>
    if rbit s (Reg.vecPend + 4 * q) i b && !rbit s (Reg.vecMask + 4 * q) i b then
      rsetFld (Reg.vecPend + 4 * q) i b 1 0 (deliverVec i (16 * q + b) s)
    else s) s

/-! Reel resets (R444) -/

/-- A descriptor is homed on a reel, or runs work units there. -/
def onReel (s : State) (r q : Nat) (d : Desc) : Bool := q / 64 == r || (reelOf s q d r && (d.stage == DescStage.started || d.stage == DescStage.waiting))

/-- A write of REEL_CTL. RESET: what is homed or runs on the reel completes with RESET, the queues homed there clear ENABLE. -/
def reelResetRun (v : W32) (r : Nat) (s : State) : State :=
  if cmdBusy s Reg.reelCtl r then s
  else if !bit v 0 then storeParity Reg.reelCtl r 2 s
  else
    let s := (List.range (parts s)).foldl (fun s p => (partQueues s p).foldl (fun s q => if q.2 / 64 = r then rsetFld (slotReg Reg.dqCtl q.1) p 0 1 0 s else s) s) s
    let s := s.eng.queues.foldl (fun s e => stopDescs e.1 (fun d => onReel s r e.1 d || s.eng.queries.any fun x => x.q == e.1 && x.seq == d.seq && x.reel == r) .reset s) s
    let s := { s with eng := { s.eng with queries := s.eng.queries.filter fun x => x.q / 64 ≠ r && x.reel ≠ r } }
    setBusy Reg.reelCtl r true (storeParity Reg.reelCtl r 2 s)

/-- A register of the reel's own set, or a queue-slot register of a queue homed on it, fails (R466). -/
def reelFails (s : State) (r : Nat) : Bool :=
  s.mgmt.badParity.any fun e =>
    let off := e.1 / 65536
    let i := e.1 % 65536
    match regRow off with
    | some row =>
      row.unit == 2 && ((row.sel == Sel.reel && i == r) ||
        (row.sel == Sel.part && decide (Reg.dqMap ≤ off) && decide (off < Reg.dqMap + 4096) &&
          (match slotQueue s i ((off - Reg.dqMap) / 64) with | some q => q / 64 == r | none => false)))
    | none => false

/-- The end of a reel reset: REEL_CTL at its reset value, the reel's registers checked; it resumes where they pass. -/
def reelResetDone (r : Nat) (s : State) : State :=
  if !cmdBusy s Reg.reelCtl r then s
  else
    let s := rset Reg.reelCtl r 0 { s with mgmt := { s.mgmt with badParity := mdel (rkey Reg.reelCtl r) s.mgmt.badParity } }
    if reelFails s r then recordFail 2 s
    else
      let s := { s with mgmt := { s.mgmt with stopped := s.mgmt.stopped.filter fun e => e != (2, some (setInst r)) } }
      let hi := rget s Reg.parityWhereHi 0
      let s := if bit hi 31 && fld hi 16 5 == 2 && whereInst s 2 == some (setInst r) && !unitFails s 2 (some (setInst r)) then rset Reg.parityWhereHi 0 (hi &&& 0x7FFFFFFF) s else s
      if unitFails s 2 none then s else rset Reg.parityFault 0 (rget s Reg.parityFault 0 &&& ~~~(w32 4)) s

end Sys2Proof.Machine
end

