-- ==== Sys2Proof/Machine/HostCmd.lean ====
section
/-! DEFINITION. The commands of the hosts: accesses, CXL.mem, decoders, resets of functions and ports, links, configuration requests, mailbox, page
tables and ATS (chapter 11). -/

namespace Sys2Proof.Machine

open Sys2Proof

/-! Accesses -/

/-- BIConflict (Table 9-4): the hub completes the conflict with BIConflictAck; the snoop goes on. -/
def conflictAck (hp hpa : Nat) (s : State) : State := if cxlRuns s hp then emit (.cxlConflictAck hp hpa) s else s

/-! Decoders (R401) -/

/-- Decoder d of a port commits: interleave ways other than 0, and a base or size that is no multiple of 256 MiB, fail. -/
def hdmCommit (hp d base size ways : Nat) (s : State) : State :=
  let k := hp * 8 + d
  let r := fun off => (rget s off 0).toNat
  let fa := r (Reg.hdmFaLo + 256 * hp + 8 * d) / 2 ^ 28 * 2 ^ 28 + r (Reg.hdmFaHi + 256 * hp + 8 * d) * 2 ^ 32
  let ok := ways == 0 && base % 2 ^ 28 == 0 && size % 2 ^ 28 == 0
  let h : Hdm := { base := base, size := size, fa := fa, part := r (Reg.hdmPart + 256 * hp + 4 * d) % 256, committed := ok }
  { s with host := { s.host with hdm := mset k h s.host.hdm } }

/-! Resets of functions and ports (R400, R439, Table 15-4) -/

/-- FLR of a proxy function: nothing waits to be forwarded, the answer of what was forwarded is discarded, MSI-X entries are masked. -/
def proxyReset (i : Nat) (s : State) : State :=
  fnSet i (fun f => { f with proxyQ := [], proxyDiscard := f.proxyBusy, msixMasked := List.range 128 }) s

/-- A function's own state after its reset (PRESUMED from PCI Express, log entry 20); a request already forwarded for a proxy function keeps its place. -/
def fnReset (i : Nat) (s : State) : State :=
  fnSet i (fun f => { Fn.fresh with resetting := f.resetting, proxyBusy := f.proxyBusy, proxyDiscard := f.proxyBusy }) s

/-- FLR of the PF or of a partition function: the reset of its partition starts, and the function answers nothing until it ends. The function
is locked (R459). -/
def flrRun (path : Path) (s : State) : State :=
  let i := fnIdx path
  match path with
  | .mgmt => s
  | .akist => s
  | _ =>
    if isProxy s path then proxyReset i s
    else
      let s := fnReset i (useUnlock path s)
      let s := if isVf path then s else hostLost (pathPort path) s
      match fnPart s i with
      | none => s
      | some p =>
        let s := partCause p (if isVf path then 2 else 3) s
        if partBusy s p then fnSet i (fun f => { f with resetting := true }) s else s

/-- The functions of a port that are bound to a partition. -/
def boundParts (s : State) (hp : Nat) : List Nat :=
  ((List.range (totalVfs s hp + 1)).filterMap fun n => fnPart s (hp * 256 + n)).dedup

/-- PERST_N, hot reset or link-down of a port (Table 15-4): its link is down, its functions and decoders are reset, its host is lost, and every
partition with a function on it is reset. A link that was up raises the LINK trigger with the port's number (Table 14-7, log entry 103). -/
def portReset (hp : Nat) (s : State) : State :=
  let s := if rbit s (Reg.hostpStatus + 256 * hp) 0 11 then trigger 7 (w64 hp) none hp s else s
  let s := rset (Reg.hostpStatus + 256 * hp) 0 0 s
  let ps := boundParts s hp
  let s := (s.host.fns.map (·.1)).foldl (fun s i => if i / 256 = hp then fnReset i s else s) s
  let s := { s with host := { s.host with
    cxlMem := s.host.cxlMem.set hp false
    hdm := s.host.hdm.filter fun d => d.1 / 8 != hp
    atc := s.host.atc.filter fun e => e.1 / 2 ^ 52 / 2 ^ 20 / 256 != hp
    invals := s.host.invals.filter fun e => e.1 != hp
    portQ := s.host.portQ.filter fun w => match w with | .write path _ _ => !onPort hp path | .answer p _ => p != hp } }
  let s := hostLost hp s
  ps.foldl (fun s p => partCause p 5 s) s

/-- CXL_MEM of HOSTP_STATUS (R395): link up in FLIT mode and enabled by the host, where the image gives the port CXL. -/
def cxlUpdate (hp : Nat) (s : State) : State :=
  let r := Reg.hostpStatus + 256 * hp
  let allowed := match s.boot.image with | some im => im.cxlEn.getD hp false | none => false
  rsetFld r 0 10 1 (b2n (rbit s r 0 11 && rbit s r 0 9 && s.host.cxlMem.getD hp false && allowed)) s

/-- A port's link has trained. -/
def linkUp (f : HostFit) (s : State) : State :=
  cxlUpdate f.port (rset (Reg.hostpStatus + 256 * f.port) 0 (w32 (f.speed.toNat + f.width.toNat * 16 + b2n f.flit * 512 + 2048)) s)

/-- A link trains from stage 6 on; port 0 already at WAIT_IMAGE or RECOVERY (R512, R514). -/
def mayLink (s : State) (hp : Nat) : Bool := decide (6 ≤ stage s) && stage s != 15 && (stage s != 9 || hp == 0) || (stage s == 4 && hp == 0)

/-! Configuration requests (R394, R395, R410, R413, R443) -/

/-- The MSI-X entry of a function unmasked: a pending message leaves. -/
def msixUnmask (i entry : Nat) (s : State) : State :=
  let s := fnSet i (fun f => { f with msixMasked := f.msixMasked.filter (· ≠ entry) }) s
  let f := fnOf s i
  if f.msixPending.contains entry && f.busMaster then
    emit (.msix (i / 256) (i % 256) entry) (fnSet i (fun f => { f with msixPending := f.msixPending.filter (· ≠ entry) }) s)
  else s

/-- Bus Master Enable set: pending messages of unmasked entries leave. -/
def msixFlush (i : Nat) (s : State) : State :=
  let f := fnOf s i
  (f.msixPending.filter fun e => !f.msixMasked.contains e).foldl (fun s e =>
    emit (.msix (i / 256) (i % 256) e) (fnSet i (fun f => { f with msixPending := f.msixPending.filter (· ≠ e) }) s)) s

/-- The vendor-specific capability of a function (R397): FKIND, the proxied accelerator's endpoint, BAR_LOG. It follows the current call sheet. -/
def fnCap (s : State) (path : Path) : Nat × Nat × Nat :=
  match path with
  | .vf p n => match proxyOf s p.val n.val with | some ws => (2, quad ws 1 % 2 ^ 18, quad ws 1 / 2 ^ 18 % 64) | none => (1, 0, 0)
  | _ => (0, 0, 0)

def configWrite (path : Path) (op : ConfigOp) (s : State) : State :=
  let i := fnIdx path
  match op with
  | .cxlMemEnable on => if isVf path then s else cxlUpdate (pathPort path) { s with host := { s.host with cxlMem := s.host.cxlMem.set (pathPort path) on } }
  | .atsEnable on =>
    let s := fnSet i (fun f => { f with ats := on }) s
    if on then s else { s with host := { s.host with atc := s.host.atc.filter fun e => e.1 / 2 ^ 52 / 2 ^ 20 != i } }
  | .pasidEnable on => fnSet i (fun f => { f with pasid := on }) s
  | .busMaster on => let s := fnSet i (fun f => { f with busMaster := on }) s; if on then msixFlush i s else s
  | .priEnable on => priPump i (fnSet i (fun f => { f with pri := on }) s)
  | .priReset => fnSet i (fun f => { f with priStopped := false }) s
  | .priAllocation n => priPump i (fnSet i (fun f => { f with priAlloc := n }) s)
  | .msixMask e on =>
    if msixEntries i ≤ e.val then s
    else if on then fnSet i (fun f => { f with msixMasked := e.val :: f.msixMasked.filter (· ≠ e.val) }) s
    else msixUnmask i e s
  | .capRead => let (kind, ep, log) := fnCap s path; hostEmit path (.capability path kind ep log) s
  | .doeRead => s
  | .otherRead => s
  | .otherWrite => s

/-- A configuration request that reads: its answer waits as R295 says. -/
def configReads : ConfigOp → Bool
  | .capRead => true
  | .doeRead => true
  | .otherRead => true
  | _ => false

/-- Answer a configuration request. -/
def configAnswer (path : Path) (op : ConfigOp) (retry : Bool) (s : State) : State :=
  if configReads op then hostEmit path (.config path retry) s else emit (.config path retry) s

/-- A configuration request: Request Retry Status while the function resets (R443). -/
def configRun (path : Path) (op : ConfigOp) (s : State) : State :=
  match path with
  | .mgmt => s
  | .akist => s
  | _ =>
    if fnResetting s path then configAnswer path op true s
    else configAnswer path op false (configWrite path op s)

/-- The CXL mailbox (Table 11-1): Get Event Records is always empty; the contents of the other answers
are outside the manual: free bytes (log entry 6). -/
def mailboxRun (hp : Nat) (op : MailboxOp) (s : State) : State :=
  match op with
  | .other => emit (.mailbox hp false []) s
  | .getEventRecords => emit (.mailbox hp true []) s
  | .clearEventRecords => emit (.mailbox hp true []) s
  | .identifyMemoryDevice => let (v, s) := draw s; emit (.mailbox hp true (leBytes 8 v.toNat)) s
  | .getSupportedLogs => let (v, s) := draw s; emit (.mailbox hp true (leBytes 8 v.toNat)) s
  | .getLogCel => let (v, s) := draw s; emit (.mailbox hp true (leBytes 8 v.toNat)) s

/-! Page tables -/

/-- ASID_CFG of the ASID that ASID_SEL names. -/
def asidCfgWrite (v : W32) (s : State) : State := asidCfgSet (rfld s Reg.asidIdx 0 0 12) v s

end Sys2Proof.Machine
end

