-- ==== Sys2Proof/Machine/Arith.lean ====
section
/-! DEFINITION. Narrow arithmetic (chapter 3): formats, blocks and tensors in memory, dot products, conversion with its accounting and extras. -/

namespace Sys2Proof.Machine

open Sys2Proof

/-! Formats (Table 3-1) -/

def isBlock (fmt : Nat) : Bool := decide (5 ≤ fmt) && decide (fmt ≤ 12)

/-- Elements of a block; 1 where the format has none. -/
def blkLen (fmt : Nat) : Nat := if isBlock fmt then (if fmt = 10 then 16 else 32) else 1

/-- Elements that a conversion or a dot product takes together (R125, R133). -/
def groupLen (fmt : Nat) : Nat := if isBlock fmt then blkLen fmt else 32

/-- Bits of an element; a trit has none of its own. -/
def elemBits (fmt : Nat) : Nat :=
  match fmt with | 0 => 32 | 1 => 16 | 2 => 16 | 6 => 6 | 7 => 6 | 8 => 4 | 10 => 4 | 11 => 2 | 14 => 32 | _ => 8

def elemBytes (fmt : Nat) : Nat := elemBits fmt / 8

/-- Bytes of a block in the element plane (R122). -/
def planeBytes (fmt : Nat) : Nat := match fmt with | 5 => 32 | 6 => 24 | 7 => 24 | 8 => 16 | 9 => 32 | 10 => 8 | 11 => 8 | 12 => 7 | f => elemBytes f

/-- Bytes of a block's scale (R121). -/
def scaleBytes (fmt : Nat) : Nat := if isBlock fmt then (if fmt = 12 then 2 else 1) else 0

/-- Stored bits per element, in hundredths. -/
def storedBits (fmt : Nat) : Nat :=
  match fmt with | 0 => 3200 | 1 => 1600 | 2 => 1600 | 5 => 825 | 6 => 625 | 7 => 625 | 8 => 425 | 9 => 825 | 10 => 450 | 11 => 225 | 12 => 225 | 14 => 3200 | _ => 800

/-! The ARITH field (Table 3-4) -/

def arExtras (a : Nat) : Nat := a / 64 % 4
def arRule (a : Nat) : Nat := a / 16 % 4
def arSat (a : Nat) : Bool := a.testBit 2
def arNfz (a : Nat) : Bool := a.testBit 1
def arSr (a : Nat) : Bool := a.testBit 0

/-! Elements and scales -/

/-- Two's complement value of an n-bit code. -/
def signedOf (n c : Nat) : Int := if 2 ^ (n - 1) ≤ c then Int.ofNat c - 2 ^ n else Int.ofNat c

/-- Value of an element code, before scaling. -/
def elemVal (fmt c : Nat) : Val :=
  match floatOf fmt with
  | some f => f.decode c
  | none =>
    match fmt with
    | 9 => .fin (signedOf 8 c * 2 ^ 143)
    | 10 => .fin (signedOf 4 c * 2 ^ 149)
    | 11 => .fin ((2 * Int.ofNat c - 3) * 2 ^ 148)
    | 12 => .fin ((Int.ofNat c - 1) * 2 ^ 149)
    | 13 => .fin (signedOf 8 c * 2 ^ 149)
    | _ => .fin (signedOf 32 c * 2 ^ 149)

/-- Code of element i in a block's plane (R118, R122). -/
def elemCode (fmt : Nat) (plane : List Byte) (i : Nat) : Nat :=
  if fmt = 12 then (plane.getD (i / 5) 0).toNat / 3 ^ (i % 5) % 3 else leNat plane / 2 ^ (elemBits fmt * i) % 2 ^ elemBits fmt

/-- A scale in units of 2^−149; none where it makes its block non-finite (R115, R120). -/
def scaleVal (fmt c : Nat) : Option Nat :=
  if fmt < 10 then (if c = 255 then none else some (2 ^ (c + 22)))
  else
    let f := if fmt = 12 then fmtBf16 else fmtE4M3
    if c / 2 ^ (f.e + f.m) = 1 then none else match f.decode c with | .fin x => some x.natAbs | _ => none

/-- A zero element with its sign bit set, which may be read in either sign (R113). -/
def isNegZero (fmt c : Nat) : Bool := match floatOf fmt with | some f => c == 2 ^ (f.e + f.m) | none => false

/-- An element as an operation takes it: its value, its scale in units of 2^−149, the block it belongs to, whether its words are poison, whether it
is a zero of negative sign. -/
structure El where
  v : Val
  s : Nat
  g : Nat
  p : Bool
  z : Bool
  deriving DecidableEq, Repr

/-- The value with its scale applied. -/
def El.full (e : El) : Val := match e.v with | .fin x => .fin (x * Int.ofNat e.s / 2 ^ 149) | v => v

/-- A sequence of elements read: how many blocks or groups were non-finite, how many of them read as zero under NFZ, which elements are padding or lie in
a non-finite block. -/
structure Els where
  els : List El
  nf : Nat
  zeroed : Nat
  badBlk : List Nat
  deriving DecidableEq, Repr

/-- Block number b of a format from its plane and scale bytes: n real elements; `pp` and `sp` say which plane bytes and whether the scale is poison. -/
def readBlk (fmt : Nat) (nfz : Bool) (plane scale : List Byte) (pp : Nat → Bool) (sp : Bool) (b n : Nat) : Els :=
  let sv := if fmt = 12 && plane.any (fun x => decide (243 ≤ x.toNat)) then none else scaleVal fmt (leNat scale)
  let w := elemBits fmt
  let pois := fun i => sp || (if fmt = 12 then (List.range 7).any pp else pp (w * i / 8) || pp ((w * i + w - 1) / 8))
  match sv with
  | some s =>
    { els := (List.range n).map fun i => { v := elemVal fmt (elemCode fmt plane i), s := s, g := b, p := pois i, z := isNegZero fmt (elemCode fmt plane i) }
      nf := b2n ((List.range n).any fun i => !(elemVal fmt (elemCode fmt plane i)).isFin), zeroed := 0, badBlk := [] }
  | none =>
    { els := (List.range n).map fun i => { v := if nfz then .fin 0 else .nan, s := fixOne, g := b, p := pois i, z := false }
      nf := 1, zeroed := b2n nfz, badBlk := [b] }

def Els.app (a b : Els) : Els := { els := a.els ++ b.els, nf := a.nf + b.nf, zeroed := a.zeroed + b.zeroed, badBlk := a.badBlk ++ b.badBlk }

def Els.none : Els := { els := [], nf := 0, zeroed := 0, badBlk := [] }

/-! Tensors in memory (R121, R178) -/

/-- A tensor: address, format, rows, elements of a row. -/
structure Tensor where
  va : Nat
  fmt : Nat
  rows : Nat
  cols : Nat
  deriving DecidableEq, Repr

/-- Blocks of a row. -/
def Tensor.bpr (t : Tensor) : Nat := ceilDiv t.cols (blkLen t.fmt)

def Tensor.planeLen (t : Tensor) : Nat := t.rows * t.bpr * planeBytes t.fmt

def Tensor.scaleVa (t : Tensor) : Nat := t.va + roundUp t.planeLen 64

/-- The byte ranges of a tensor. -/
def Tensor.ranges (t : Tensor) : List (Nat × Nat) :=
  if isBlock t.fmt then [(t.va, t.planeLen), (t.scaleVa, t.rows * t.bpr * scaleBytes t.fmt)] else [(t.va, t.planeLen)]

/-- Bytes from its start to its end. -/
def Tensor.len (t : Tensor) : Nat := if isBlock t.fmt then roundUp t.planeLen 64 + t.rows * t.bpr * scaleBytes t.fmt else t.planeLen

/-- An operand address that R121 and the alignment rules allow. -/
def Tensor.aligned (t : Tensor) : Bool := t.va % (if isBlock t.fmt then 64 else elemBytes t.fmt) == 0

/-- Elements of a non-block row: groups of 32 that hold a NaN or an Inf are counted. -/
def countGroups : Nat → List El → Nat
  | 0, _ => 0
  | f + 1, l => if l.isEmpty then 0 else b2n ((l.take 32).any fun e => !e.v.isFin) + countGroups f (l.drop 32)

/-- Row r of a tensor whose bytes stand beside a descriptor. -/
def Tensor.row (t : Tensor) (d : Desc) (nfz : Bool) (r : Nat) : Els :=
  if isBlock t.fmt then
    (List.range t.bpr).foldl (fun acc j =>
      let b := r * t.bpr + j
      let pv := t.va + b * planeBytes t.fmt
      let sv := t.scaleVa + b * scaleBytes t.fmt
      acc.app (readBlk t.fmt nfz (d.at pv (planeBytes t.fmt)) (d.at sv (scaleBytes t.fmt)) (fun i => d.bad (pv + i) 1) (d.bad sv (scaleBytes t.fmt)) j
        (min (blkLen t.fmt) (t.cols - j * blkLen t.fmt)))) Els.none
  else
    let w := elemBytes t.fmt
    let els := (List.range t.cols).map fun i =>
      let a := t.va + (r * t.cols + i) * w
      { v := elemVal t.fmt (leNat (d.at a w)), s := fixOne, g := i / 32, p := d.bad a w, z := isNegZero t.fmt (leNat (d.at a w)) : El }
    { els := els, nf := countGroups (t.cols / 32 + 1) els, zeroed := 0, badBlk := [] }

/-! Dot products (R125 to R128) -/

/-- Consecutive runs of pairs of one group. -/
def splitRuns : List (El × El) → List (List (El × El))
  | [] => []
  | x :: t =>
    match splitRuns t with
    | (y :: r) :: rest => if x.1.g = y.1.g ∧ x.2.g = y.2.g then (x :: y :: r) :: rest else [x] :: (y :: r) :: rest
    | l => [x] :: l

/-- Exact value of a finite element, 0 otherwise. -/
def Val.int : Val → Int
  | .fin x => x
  | _ => 0

/-- c(g): the products exact, cut to multiples of 2^(e − 40), summed exactly, scaled, rounded once. -/
def groupTerm (l : List (El × El)) : W32 :=
  if l.any fun x => !x.1.v.isFin || !x.2.v.isFin then fpNan
  else
    let ps := l.map fun x => x.1.v.int * x.2.v.int
    let top := (ps.map Int.natAbs).foldl max 0
    let cut := 2 ^ (Nat.log2 top - 40)
    let p := (ps.map fun x => (if x < 0 then -(Int.ofNat (x.natAbs / cut * cut)) else Int.ofNat (x.natAbs / cut * cut))).sum
    match l.head? with
    | some h => f32Of (p * Int.ofNat (h.1.s * h.2.s)) (2 ^ 447)
    | none => 0

/-- round32(x × h) of an extras entry (R127). -/
def extraTerm (x h : Val) : W32 :=
  match x, h with
  | .fin a, .fin b => f32Of (a * b) fixOne
  | a, b => f32Mul (f32OfVal a) (f32OfVal b)

/-- A valid extras entry of a row: element index, value. -/
abbrev Extra := Nat × Val

/-- The terms of a dot product: groups without the elements taken out, and the extras. -/
def dotTerms (a h : List El) (xs : List Extra) : List W32 :=
  let a := a.zipIdx.map fun e => if xs.any (fun x => x.1 == e.2) then { e.1 with v := .fin 0 } else e.1
  (splitRuns (a.zip h)).map groupTerm ++ xs.map fun x => extraTerm x.2 ((h.getD x.1 { v := .fin 0, s := fixOne, g := 0, p := false, z := false }).full)

/-- An FP32 word as it is written: −0 as +0 (R113). -/
def plusZero (w : W32) : W32 := if f32Zero w then 0 else w

/-- FP32 rounded to BF16, to nearest even; zero is +0 (R113). -/
def bf16Of (v : Val) : Nat :=
  match v with
  | .fin x =>
    let c := min (fmtBf16.round upNearest x.natAbs 1) 0x7F80
    if c = 0 then 0 else b2n (decide (x < 0)) * 32768 + c
  | .inf n => 0x7F80 + b2n n * 32768
  | .nan => 0x7FC0

/-- A held operand as the cell loads it: FP32 is rounded to BF16 (R107); without blocks of its own it ends no group. -/
def holdEls (fmt : Nat) (l : List El) : List El :=
  l.map fun e =>
    let v := if fmt = 0 then fmtBf16.decode (bf16Of e.v) else e.v
    if isBlock fmt then { e with v := v } else { e with v := v, g := 0 }

/-! Extras records (R137, R138) -/

/-- The valid entries of a block's record for a row, and how many were ignored: `first` is the block's first element, `n` its real elements. -/
def readExtras (rec : List Byte) (e first n : Nat) : List Extra × Nat :=
  (List.range e).foldl (fun acc i =>
    let x := (rec.getD (2 * e + i) 0).toNat
    if x < 128 then acc
    else if n ≤ x % 32 then (acc.1, acc.2 + 1)
    else (acc.1 ++ [(first + x % 32, fmtBf16.decode (leAt rec (2 * i) 2))], acc.2)) ([], 0)

/-! Conversion (R130 to R133, R136) -/

/-- What a conversion wrote and counted: element-plane bytes, scale bytes, extras record, saturated elements, non-finite blocks or groups, extras taken. -/
structure Enc where
  plane : List Byte
  scale : List Byte
  extra : List Byte
  sat : Nat
  nonfin : Nat
  taken : Nat
  deriving DecidableEq, Repr

/-- Saturated or not, and the code. -/
abbrev Coded := Nat × Bool

/-- The non-finite value of an element in a format without blocks (R133). -/
def encodeSpecial (fmt : Nat) (sat : Bool) (v : Val) : Nat :=
  match floatOf fmt, v with
  | some f, .nan => f.nanCode
  | some f, .inf n =>
    let sgn := b2n n * 2 ^ (f.e + f.m)
    if f.kind = 0 then sgn + (2 ^ f.e - 1) * 2 ^ f.m else if sat then sgn + f.top else f.nanCode
  | some _, .fin _ => 0
  | none, .inf n => if fmt = 14 then (if n then 2 ^ 31 else 2 ^ 31 - 1) else (if n then 129 else 127)
  | none, _ => 0

/-- A finite value in a format without blocks; beyond the largest finite magnitude it saturates under SAT (R132). -/
def encodeFin (fmt : Nat) (sat : Bool) (up : Up) (x : Int) : Coded :=
  let neg := decide (x < 0)
  let p := x.natAbs
  match floatOf fmt with
  | some f =>
    let sgn := b2n neg * 2 ^ (f.e + f.m)
    let ovf := decide (f.mag f.top < p)
    let infC := (2 ^ f.e - 1) * 2 ^ f.m
    if ovf then (if f.kind = 0 && !sat then (sgn + infC, true) else (sgn + f.top, true))
    else
      let c := f.round up p 1
      if c = 0 then (0, false) else (sgn + c, false)
  | none =>
    if fmt = 14 then
      let big := if neg then 2 ^ 31 else 2 ^ 31 - 1
      let q := roundInt (if big * fixOne < p then upNearest else up) p fixOne
      let o := decide (big < q)
      let q := min q big
      ((if neg then 2 ^ 32 - q else q) % 2 ^ 32, o)
    else
      let o := decide (127 * fixOne < p)
      let q := if o then 127 else min (roundInt up p fixOne) 127
      ((if neg then 256 - q else q) % 256, o)

/-- A value in a format without blocks. -/
def encodePlain (fmt arith draw : Nat) (v : Val) : Coded :=
  match v with
  | .fin x => encodeFin fmt (arSat arith) (if arSr arith then upDraw draw else upNearest) x
  | v => (encodeSpecial fmt (arSat arith) v, false)

/-- The zero code of a block format. -/
def zeroCode (fmt : Nat) : Nat := match fmt with | 11 => 2 | 12 => 1 | _ => 0

/-- Exponent of the largest element of an MX format, and that element in units of 2^−149 (Table 3-5). -/
def mxTop (fmt : Nat) : Nat × Nat :=
  match floatOf fmt with
  | some f => (Nat.log2 (f.mag f.top) - 149, f.mag f.top)
  | none => (0, 127 * 2 ^ 143)

/-- Smallest j with x ≤ 2^j, for x ≥ 1. -/
def ceilLog2 (x : Nat) : Nat := if x ≤ 1 then 0 else Nat.log2 (x - 1) + 1

/-- Code of an E4M3 or BF16 scale for p / q: at most the largest finite, at least the smallest positive. -/
def scaleRound (f : FloatFmt) (cover : Bool) (p q : Nat) : Nat := max 1 (min f.top (f.round (if cover then upAway else upNearest) p q))

/-- The scale code of a block from the magnitudes of its real elements that are not taken into extras (R131, Table 3-5). -/
def scaleRule (fmt : Nat) (cover : Bool) (mags : List Nat) : Nat :=
  let a := mags.foldl max 0
  if a = 0 then 0
  else if fmt < 10 then
    let (emax, m) := mxTop fmt
    let e : Int := if cover then (if a ≤ m then -(Int.ofNat (Nat.log2 (m / a))) else Int.ofNat (ceilLog2 (ceilDiv a m)))
      else Int.ofNat (Nat.log2 a) - 149 - Int.ofNat emax
    (min 254 (max 0 (e + 127))).toNat
  else
    match fmt with
    | 10 => scaleRound fmtE4M3 cover a 7
    | 11 => scaleRound fmtE4M3 cover (2 * a) 3
    | _ => if cover then scaleRound fmtBf16 true a 1 else scaleRound fmtBf16 false mags.sum mags.length

/-- A K2 level: the nearest, a tie to the even code (R130); under SR as R139 says. -/
def encodeK2 (sr : Bool) (draw : Nat) (x : Int) (s : Nat) : Coded :=
  let n := Int.ofNat s
  let ovf := decide (3 * s < 2 * x.natAbs)
  if ovf ∨ 3 * s = 2 * x.natAbs then ((if x < 0 then 0 else 3), ovf)
  else if sr then
    if 2 * x.natAbs ≤ s then
      let up := upDraw draw (2 * x + n).toNat (2 * s) 0
      ((if 2 * x = n ∨ up then 2 else 1), false)
    else
      let up := upDraw draw (2 * x.natAbs - s) (2 * s) 0
      ((if x < 0 then (if up then 0 else 1) else (if up then 3 else 2)), false)
  else
    let c := (x + 2 * n) / n
    let c := if x % n = 0 ∧ c % 2 = 1 then c - 1 else c
    ((max 0 (min 3 c)).toNat, false)

/-- An element of a block under a scale s (R132, R133). -/
def encodeScaled (fmt : Nat) (sr : Bool) (draw : Nat) (x : Int) (s : Nat) : Coded :=
  let neg := decide (x < 0)
  let p := x.natAbs
  let up := if sr then upDraw draw else upNearest
  if s = 0 then (zeroCode fmt, false)
  else
    match floatOf fmt with
    | some f =>
      let ovf := decide (f.mag f.top * s < p * fixOne)
      let c := if ovf then f.top else min f.top (f.round up (p * fixOne) s)
      (if c = 0 then 0 else b2n neg * 2 ^ (f.e + f.m) + c, ovf)
    | none =>
      if fmt = 11 then encodeK2 sr draw x s
      else
        let (k, top, w) := match fmt with | 9 => (64, 127, 256) | 10 => (1, 7, 16) | _ => (1, 1, 3)
        let ovf := decide (top * s < k * p)
        let q := if ovf then top else min top (roundInt up (k * p) s)
        if fmt = 12 then (if neg then 1 - q else 1 + q, ovf) else ((if neg then w - q else q) % w, ovf)

/-- Plane bytes of a block's codes; the padding elements hold the zero code (R118, R122, R123). -/
def packBlk (fmt : Nat) (codes : List Nat) : List Byte :=
  let at_ := fun i => codes.getD i (zeroCode fmt)
  if fmt = 12 then
    (List.range 7).map fun k => BitVec.ofNat 8 (((List.range 5).map fun j => (if 5 * k + j < 32 then at_ (5 * k + j) else 1) * 3 ^ j).sum)
  else leBytes (planeBytes fmt) (((List.range (blkLen fmt)).map fun i => at_ i * 2 ^ (elemBits fmt * i)).sum)

/-- Rank of a value among those taken into extras: NaN, Inf, then magnitude; zero is never taken (R136). -/
def extraKey (v : Val) : Nat := match v with | .nan => 2 ^ 600 + 1 | .inf _ => 2 ^ 600 | .fin x => x.natAbs

/-- Indices of the e largest elements, ties to the lowest index. -/
def takeExtras : Nat → List Val → List Nat → List Nat
  | 0, _, acc => acc
  | e + 1, vs, acc =>
    let cand := (vs.zipIdx.filter fun x => !acc.contains x.2 && extraKey x.1 != 0)
    match cand with
    | [] => acc
    | c :: cs => takeExtras e vs (acc ++ [(cs.foldl (fun b x => if extraKey b.1 < extraKey x.1 then x else b) c).2])

/-- Encode one block of a block format (R133, R136, R137). -/
def encodeBlk (fmt arith : Nat) (rnd : Nat → Nat) (vs : List Val) : Enc :=
  let e := arExtras arith
  let tk := takeExtras e vs []
  let rest := (vs.zipIdx.filter fun x => !tk.contains x.2)
  let rec_ := if e = 0 then [] else
    ((List.range e).map fun i => match tk[i]? with | some j => leBytes 2 (bf16Of (vs.getD j .nan)) | none => [0, 0]).flatten ++
      (List.range e).map fun i => match tk[i]? with | some j => BitVec.ofNat 8 (128 + j) | none => 0
  if rest.any fun x => !x.1.isFin then
    { plane := packBlk fmt [], scale := if fmt < 10 then [0xFF] else if fmt = 12 then [0xC0, 0x7F] else [0x7F], extra := rec_, sat := 0, nonfin := 1, taken := tk.length }
  else
    let sc := scaleRule fmt (arRule arith == 1) (rest.map fun x => x.1.int.natAbs)
    let s := (scaleVal fmt sc).getD 0
    let cs := vs.zipIdx.map fun x => if tk.contains x.2 then (zeroCode fmt, false) else encodeScaled fmt (arSr arith) (rnd x.2 % 65536) x.1.int s
    { plane := packBlk fmt (cs.map (·.1)), scale := leBytes (scaleBytes fmt) sc, extra := rec_, sat := (cs.filter (·.2)).length, nonfin := 0, taken := tk.length }

/-- Encode a group of a format without blocks. -/
def encodeGroup (fmt arith : Nat) (rnd : Nat → Nat) (vs : List Val) : Enc :=
  let cs := vs.zipIdx.map fun x => encodePlain fmt arith (rnd x.2 % 65536) x.1
  { plane := (cs.map fun c => leBytes (elemBytes fmt) c.1).flatten, scale := [], extra := [], sat := (cs.filter (·.2)).length,
    nonfin := b2n (vs.any fun v => !v.isFin), taken := 0 }

/-- Encode a row, block after block or group after group. -/
def encodeRow (fmt arith : Nat) (rnd : Nat → Nat) : Nat → List Val → List Enc
  | 0, _ => []
  | f + 1, vs =>
    if vs.isEmpty then []
    else
      let n := groupLen fmt
      (if isBlock fmt then encodeBlk fmt arith rnd (vs.take n) else encodeGroup fmt arith rnd (vs.take n))
        :: encodeRow fmt arith (fun i => rnd (i + n)) f (vs.drop n)

def encodeVals (fmt arith : Nat) (rnd : Nat → Nat) (vs : List Val) : List Enc := encodeRow fmt arith rnd (vs.length / groupLen fmt + 1) vs

/-- An FP32 result in a format without blocks (R129). -/
def f32Bytes (fmt arith draw : Nat) (w : W32) : List Byte := leBytes (elemBytes fmt) (encodePlain fmt arith draw (f32Val w)).1

end Sys2Proof.Machine
end

