-- ==== Sys2Proof/Machine/Ctl.lean ====
section
/-! DEFINITION. Descriptor headers and the control operations COPY, FILL, FENCE, TALLY_WAIT and TALLY_ADD (chapter 4). -/

namespace Sys2Proof.Machine

open Sys2Proof

/-! The header (Table 4-1) -/

def Desc.opcode (d : Desc) : Nat := (d.bytes.getD 0 0).toNat
def Desc.arith (d : Desc) : Nat := (d.bytes.getD 1 0).toNat
def Desc.record (d : Desc) : Bool := (d.bytes.getD 2 0).getLsbD 0
def Desc.notify (d : Desc) : Bool := (d.bytes.getD 2 0).getLsbD 1
def Desc.doneEn (d : Desc) : Bool := (d.bytes.getD 2 0).getLsbD 2
def Desc.vector (d : Desc) : Nat := (d.bytes.getD 3 0).toNat % 64
def Desc.doneTally (d : Desc) : Nat := leAt d.bytes 4 2
def Desc.tag (d : Desc) : Nat := leAt d.bytes 6 2

/-- Quadword i. -/
def Desc.w (d : Desc) (i : Nat) : Nat := qw d.bytes i

/-- Field of n bits from bit lo of quadword i. -/
def Desc.f (d : Desc) (i lo n : Nat) : Nat := qf d.bytes i lo n

/-- What a descriptor's start finds wrong: the byte offsets of bad fields in field order (DECODE, Table 4-3), and whether it names what is not its
partition's (OWNERSHIP, R162). Both may hold; R172 ranks them. -/
structure Check where
  bad : List Nat
  own : Bool
  deriving DecidableEq, Repr

def Check.ok : Check := { bad := [], own := false }

/-- The offset of a field, where it is bad. -/
def badIf (b : Bool) (off : Nat) : List Nat := if b then [off] else []

/-- Overlaps are faults of their fields only where every field is valid by itself, since the ranges rest on the other fields (DEDUCED, log entry 38). -/
def badLap (bad laps : List Nat) : List Nat := if bad.isEmpty then laps else bad

/-- The tracked ranges of a descriptor (R165): read, written. -/
structure Ranges where
  reads : List (Nat × Nat)
  writes : List (Nat × Nat)
  deriving DecidableEq, Repr

/-- The whole address space (R166). -/
def allSpace : List (Nat × Nat) := [(0, 2 ^ 64)]

/-- A tally that is not the partition's (R162). -/
def notOurs (s : State) (part t : Nat) : Bool := tallyPart s t != some part

/-! COPY and FILL (R174, R175) -/

def unitSize : Nat := 65536

/-- The pieces of a range by work unit: unit, offset, bytes. -/
def unitPieces (va len : Nat) : List (Nat × Nat × Nat) :=
  (List.range (ceilDiv len unitSize)).flatMap fun u =>
    (piecesOf (va + u * unitSize) (min unitSize (len - u * unitSize))).map fun pc => (u, pc.1 - va, pc.2)

def copyLen (d : Desc) : Nat := d.f 3 0 40

def copyCheck (d : Desc) : Check := { Check.ok with bad := badIf (overlap (d.w 1) (copyLen d) (d.w 2) (copyLen d)) 16 }

def copyRanges (d : Desc) : Ranges := { reads := [(d.w 1, copyLen d)], writes := [(d.w 2, copyLen d)] }

/-- The words at `dst` that depend on poisoned words at `src`, for n bytes copied. -/
def movedWords (src dst n : Nat) (ws : List Nat) : List Nat :=
  if ws.isEmpty then [] else (((List.range n).filter fun i => ws.contains ((src + i) / 8)).map fun i => (dst + i) / 8).dedup

/-- Drop the bytes read of a piece. -/
def dropBytes (q seq va n : Nat) (s : State) : State :=
  descMod q seq (fun d => { d with remote := d.remote.filter fun e => !(decide (va ≤ e.1) && decide (e.1 < va + n)) }) s

/-- Copy piece after piece, so that what lies before a fault is written; a piece whose data is on its way is waited for. -/
def copyGo (q seq : Nat) : List (Nat × Nat × Nat) → State → State
  | [], s => descMod q seq (fun d => if d.stage = .started then { d with stage := .ran } else d) s
  | (u, o, n) :: rest, s =>
    match descOf s q seq with
    | none => s
    | some d =>
      let sv := d.w 1 + o
      let dv := d.w 2 + o
      if vaHeld s d.asid dv n then s
      else
        match opFetch q seq [(sv, n)] s with
        | (false, s) => s
        | (true, s) =>
          match descOf s q seq with
          | none => s
          | some d =>
            let w : Put := { bs := d.at sv n, pois := movedWords sv dv n d.remotePoison, tally := if d.f 4 16 1 = 1 then some (d.f 4 0 16) else none, e2e := d.f 4 17 1 == 1 }
            let s := dropBytes q seq sv n (opPut q seq u dv w s)
            let s := descMod q seq (fun d => if d.stage = .started then { d with step := d.step + 1, count := o + n } else d) s
            if (descOf s q seq).any (fun d => d.stage == .started) then copyGo q seq rest s else s

def fillLen (d : Desc) : Nat := d.f 2 0 40

def fillSize (d : Desc) : Nat := 2 ^ d.f 4 0 2

def fillCheck (d : Desc) : Check := { Check.ok with bad := badIf (fillLen d % fillSize d != 0) 16 }

def fillRanges (d : Desc) : Ranges := { reads := [], writes := [(d.w 1, fillLen d)] }

/-- The pattern's bytes at offset o of the range. -/
def fillBytes (d : Desc) (o n : Nat) : List Byte := (List.range n).map fun i => BitVec.ofNat 8 (d.w 3 / 256 ^ ((o + i) % fillSize d))

def fillGo (q seq : Nat) (d : Desc) (s : State) : State :=
  if vaHeld s d.asid (d.w 1) (fillLen d) then s
  else
    let s := (unitPieces (d.w 1) (fillLen d)).foldl (fun s x =>
      let (u, o, n) := x
      let s := opPut q seq u (d.w 1 + o) { bs := fillBytes d o n, pois := [], tally := none, e2e := false } s
      descMod q seq (fun d => if d.stage = .started then { d with count := o + n } else d) s) s
    descMod q seq (fun d => if d.stage = .started then { d with stage := .ran } else d) s

/-- Work units of a descriptor of which a write has not been answered. -/
def unitsPending (s : State) (q seq : Nat) : List Nat :=
  s.fab.reqs.filterMap fun r => match r.owner with | .descWrite q' n u _ => if q' = q ∧ n = seq then some u else none | _ => none

/-- COUNT of COPY and FILL: work units whose bytes were all written. -/
def unitsWritten (s : State) (q : Nat) (d : Desc) (len : Nat) : Nat :=
  ((List.range (ceilDiv len unitSize)).filter fun u =>
    decide (min len ((u + 1) * unitSize) ≤ d.count) && !d.badUnits.contains u && !(unitsPending s q d.seq).contains u).length

/-! FENCE -/

/-! Tallies (R176, R177) -/

/-- The slow ticks a queue waits for a tally (DQ_WAIT); 0 means no limit. -/
def waitTicks (s : State) (q : Nat) : Nat :=
  match queueSlot s q with | some (p, k) => rfld s (slotReg Reg.dqWait k) p 0 16 | none => 0

/-- The tally wait of a descriptor: `step` 1 while it waits, 2 once the tally was reached. -/
def tallyBegin (q seq t : Nat) (target : W32) (go : State → State) (s : State) : State :=
  if reached (tallyVal s t) target then go (descMod q seq (fun d => { d with step := 2 }) s)
  else descMod q seq (fun d => { d with stage := .waiting, step := 1, waitEdges := 0, waitLimit := waitTicks s q }) s

/-- The tally and value a descriptor may wait for: TALLY_WAIT, REDUCE, and SCATTER_UPDATE in APPLY, which waits for its table's LAND_TALLY (R221). -/
def descTally (s : State) (d : Desc) : Option (Nat × W32) :=
  match d.opcode with
  | 0x21 => if d.f 1 30 2 = 2 then (mget (d.f 1 0 14) s.eng.tables).map fun t => (qf t.image 5 16 16, w32 (d.f 3 32 32)) else none
  | 0x05 => some (d.f 1 0 16, w32 (d.f 1 32 32))
  | 0x13 => some (d.f 3 32 16, w32 (d.f 4 0 32))
  | _ => none

def tallyWaitRun (q seq : Nat) (d : Desc) (s : State) : State :=
  tallyBegin q seq (d.f 1 0 16) (w32 (d.f 1 32 32)) (opEnd q seq 0) s

/-- A waiting descriptor's tally has reached its target: TALLY_WAIT has run, REDUCE and APPLY go on. -/
def tallyReached (q seq : Nat) (s : State) : State :=
  match descOf s q seq with
  | none => s
  | some d =>
    match descTally s d with
    | some (t, v) =>
      if d.stage = .waiting ∧ d.step = 1 ∧ reached (tallyVal s t) v then
        if d.opcode = 0x05 then opEnd q seq 0 s else descMod q seq (fun d => { d with stage := .started, step := 2 }) s
      else s
    | none => s

/-- The wait limit passes first: TIMEOUT, and nothing is written or cleared. -/
def tallyTimeout (q seq : Nat) (s : State) : State :=
  match descOf s q seq with
  | none => s
  | some d =>
    if d.stage = .waiting ∧ d.step = 1 ∧ (descTally s d).isSome ∧ d.waitLimit ≠ 0 ∧ d.waitLimit ≤ d.waitEdges then opEnd q seq 0 (descMeet q seq .timeout s) else s

/-- TALLY_ADD: here, or as a fabric tally write whose answer the descriptor's completion waits for. -/
def tallyAddRun (q seq : Nat) (d : Desc) (s : State) : State :=
  let t := d.f 1 0 16
  let v := d.f 2 0 32
  if d.f 1 16 1 = 0 then opEnd q seq 0 (tallyAddFor d.part t (w32 v) s)
  else
    let p := { mkPacket s tTALLY (d.f 1 32 18) 0 (w64 (t + v * 65536)) [] with key := fkey s d.part }
    match sendReq (mkReq p none 0 d.part (.descWrite q seq 0 none)) s with
    | (.gone, s) => opEnd q seq 0 s
    | (.failed st, s) => opEnd q seq 0 (descMeet q seq st s)

/-- Checks of the tally operations (R162). -/
def tallyCheck (s : State) (d : Desc) : Check :=
  { Check.ok with own := (d.opcode == 0x05 || d.f 1 16 1 == 0) && notOurs s d.part (d.f 1 0 16) }

end Sys2Proof.Machine
end

