-- ==== Sys2Proof/Machine/Advice.lean ====
section
/-! DEFINITION. PREFETCH, ADVISE and INVAL_ASID (chapters 2, 4 and 11). -/

namespace Sys2Proof.Machine

open Sys2Proof

def advVa (d : Desc) : Nat := d.w 1
def advLen (d : Desc) : Nat := d.f 2 0 40
def advCode (d : Desc) : Nat := d.f 3 0 4

/-- ADVISE codes 4 to 15 give DECODE (Table 2-4, R417). -/
def advCheck (d : Desc) : Check := { Check.ok with bad := badIf (d.opcode == 0x51 && decide (4 ≤ advCode d)) 24 }

/-- Neither reads or writes bytes of its range (R165). -/
def noRanges : Ranges := { reads := [], writes := [] }

def countDropped (part n : Nat) (s : State) : State := bumpN Reg.adviceDropped part n s

/-! Store pages of a range (R193) -/

/-- The page of this hub's allocations of a partition that a virtual 4 KiB page reaches through a FABRIC entry without a shadow. -/
def storePage (s : State) (d : Desc) (vp : Nat) : Option Nat :=
  match pteAt s d.asid vp with
  | some (b, e) =>
    if e.kind = 0 ∧ !e.migrated then
      match resolveIn s.fab.current ((e.tgt + (vp - b) * 4096) % 2 ^ 64) (fkey s d.part) 0 with
      | .home ep off =>
        if ep = selfEp s ∧ off < stageBase ∧ (pageAt s off).isSome ∧ (allocAt s off).isSome ∧ partAt s off = d.part then some (off / pageSize) else none
      | _ => none
    else none
  | none => none

/-- Whether a virtual page belongs to host memory for these operations: a HOST or MIGRATED entry. -/
def hostSide (s : State) (d : Desc) (vp : Nat) : Bool := match pteAt s d.asid vp with | some (_, e) => e.kind == 2 || e.migrated | none => false

/-- Virtual 4 KiB pages of a range. -/
def advPages (d : Desc) : List Nat := if advLen d = 0 then [] else (List.range ((advVa d + advLen d - 1) / 4096 + 1 - advVa d / 4096)).map (advVa d / 4096 + ·)

/-- Hub pages the range names, and how many virtual pages of 2 MiB lie in no allocation of the partition. -/
def advTargets (s : State) (d : Desc) : List Nat × Nat :=
  let ps := (advPages d).filter fun vp => !hostSide s d vp
  ((ps.filterMap (storePage s d)).dedup, ((ps.filter fun vp => (storePage s d vp).isNone).map (· / 512)).dedup.length)

/-- Record a PREFETCH range (R102): at the limit the oldest is dropped (Table 2-5). -/
def pushRange (part : Nat) (pages : List Nat) (s : State) : State :=
  let l := s.store.prefetch ++ [{ part := part, pages := pages, ticks := 0 }]
  match l with
  | r :: rest =>
    if 1024 < l.length then { countDropped r.part 1 s with store := { s.store with prefetch := rest } }
    else { s with store := { s.store with prefetch := l } }
  | [] => s

/-- Advice on one page (R103, Table 2-4). COLD after WILLNEED in one tick sets the heat to 0 and leaves WILLNEED, which raises it at the edge (DESIGN
CHOICE, log entry 159). -/
def advisePage (code pg : Nat) (s : State) : State :=
  let f := flagsAt s (pg * pageSize)
  if fPin f || fProject f then countDropped (partAt s (pg * pageSize)) 1 s
  else
    pageMod pg (fun p =>
      match code with
      | 0 => { p with seqAdvice := false, willNeed := false }
      | 1 => { p with willNeed := true }
      | 2 => { p with heat := 0 }
      | _ => { p with seqAdvice := true }) s

/-- The store pages' part of PREFETCH or ADVISE. -/
def advStore (d : Desc) (s : State) : State :=
  let (pages, none_) := advTargets s d
  let s := if none_ = 0 then s else countDropped d.part none_ s
  if d.opcode = 0x50 then (if pages.isEmpty then s else pushRange d.part pages s)
  else pages.foldl (fun s pg => advisePage (advCode d) pg s) s

/-! Host pages (R416 to R418) -/

/-- Bring the translations of a HOST entry into the ATC; a failure is a FAULT. -/
def adviseEntry (q seq asid vp n : Nat) (e : Pte) (s : State) : State :=
  (List.range n).foldl (fun s i =>
    match hostXlate asid (e.tgt + i * 4096) false s with
    | (.ok _, s) => s
    | (_, s) => descFault q seq ((vp + i) * 4096) s) s

/-- Copy one 4 KiB page of a host page into its shadow. -/
def copyIn (q seq asid part va iova fa : Nat) (s : State) : State :=
  match hostXlate asid iova false s with
  | (.ok a, s) =>
    let (bs, bad, s) := hostRead (asidFn s asid / 256) a 4096 s
    if bad then descMod q seq (Desc.got va [] (wordsOf va 4096) .poison) s else
    match resolve fa part 1 s with
    | (.home ep off, s) =>
      match homePut (.desc q seq 0) part ep off (some fa) va { bs := bs, pois := [], tally := none, e2e := false } s with
      | (.done st, s) => descMod q seq (Desc.wrote 0 (some va) st) s
      | (.sent, s) => s
      | (_, s) => descFault q seq va s
    | (.ownership, s) => descMod q seq (Desc.wrote 0 (some va) .ownership) s
    | (.decode, s) => descMod q seq (Desc.wrote 0 (some va) .decode) s
  | (_, s) => descFault q seq va s

/-- Read one 4 KiB page of a shadow. -/
def fetchBack (q seq part va fa : Nat) (s : State) : State :=
  match resolve fa part 0 s with
  | (.home ep off, s) =>
    match homeGet (.desc q seq 0) part ep off (some fa) va 4096 s with
    | (.data bs ws st, s) => descMod q seq (Desc.got va bs ws st) s
    | (.sent, s) => s
    | (_, s) => descFault q seq va s
  | (.ownership, s) => descMod q seq (Desc.got va [] [] .ownership) s
  | (.decode, s) => descMod q seq (Desc.got va [] (wordsOf va 4096) .decode) s

/-- Write one 4 KiB page back to the host. -/
def copyBack (q seq asid va iova : Nat) (bs : List Byte) (s : State) : State :=
  match hostXlate asid iova true s with
  | (.ok a, s) => hostWrite (asidFn s asid / 256) a bs false s
  | (_, s) => descFault q seq va s

def migrEnd (q seq : Nat) (s : State) : State :=
  mapResume { s with host := { s.host with migr := s.host.migr.filter fun m => !(m.1 == q && m.2.1 == seq) } }

/-- Drop the cached translations of one entry's page alone. -/
def dropEntry (asid k : Nat) (e : Pte) (iova : Nat) (s : State) : State :=
  let a := atcKey (asidFn s asid) (asidPasid s asid) (iova / 4096)
  { s with host := { s.host with
      stale := s.host.stale.filter fun x => !(x.1 / 2 ^ 36 == asid && overlap (x.1 % 2 ^ 36) (sizePages x.2.size) (k % 2 ^ 36) (sizePages e.size))
      atc := s.host.atc.filter fun x => !(decide (a ≤ x.1) && decide (x.1 < a + sizePages e.size)) } }

/-- The indivisible switch of an entry: to its shadow, or back to the host. -/
def switchEntry (part asid k : Nat) (e : Pte) (s : State) : State :=
  let e' : Pte := if e.migrated then { e with kind := 2, migrated := false, tgt := e.hostTgt, hostTgt := 0 } else { e with kind := 0, migrated := true, tgt := e.shd, hostTgt := e.tgt }
  bump Reg.migrations part (dropEntry asid k e (if e.migrated then e.hostTgt else e.tgt) { s with host := { s.host with ptes := mset k e' s.host.ptes } })

/-- Statuses that abandon a copy: what it read or wrote is not whole. -/
def copySpoilt (d : Desc) : Bool := !d.badUnits.isEmpty || !d.remotePoison.isEmpty || d.statuses.any fun st => st != .ok

/-- One entry of the range at virtual page vp: true where the operation goes on behind it at once. `step` counts the pages passed; a copy in
flight is in `migr`. -/
def advEntry (q seq : Nat) (d : Desc) (b : Nat) (e : Pte) (s : State) : Bool × State :=
  let k := pteKey d.asid b
  let n := sizePages e.size
  let running := s.host.migr.any fun m => m.1 == q && m.2.1 == seq
  let into := d.opcode == 0x50 && e.kind == 2 && e.sh && !e.migrated
  let back := d.opcode == 0x51 && advCode d == 2 && e.migrated
  let went := fun s : State => (descOf s q seq).any fun d => d.stage == .started
  if into ∨ back then
    let s := if running then s
      else
        let s := { s with host := { s.host with migr := s.host.migr ++ [(q, seq, k)] } }
        (List.range n).foldl (fun s i =>
          if into then copyIn q seq d.asid d.part ((b + i) * 4096) (e.tgt + i * 4096) (e.shd + i * 4096) s
          else fetchBack q seq d.part ((b + i) * 4096) (e.tgt + i * 4096) s) s
    if descReading s q seq ∨ descWriting s q seq then (false, s)
    else
      match descOf s q seq with
      | none => (false, migrEnd q seq s)
      | some d =>
        if d.stage ≠ .started then (false, migrEnd q seq s)
        else if copySpoilt d then
          let s := descMod q seq (fun d => { d with badUnits := [], remote := [], remotePoison := [] }) (if d.remotePoison.isEmpty then s else descMeet q seq .poison s)
          (true, migrEnd q seq s)
        else
          let s := if back then (List.range n).foldl (fun s i => copyBack q seq d.asid ((b + i) * 4096) (e.hostTgt + i * 4096) (d.at ((b + i) * 4096) 4096) s) s else s
          let s := if went s then switchEntry d.part d.asid k e s else s
          (went s, migrEnd q seq (descMod q seq (fun d => { d with remote := [] }) s))
  else if e.kind = 2 ∧ ((d.opcode = 0x50 ∧ !e.sh) ∨ (d.opcode = 0x51 ∧ advCode d = 1)) then
    let s := adviseEntry q seq d.asid b n e s
    (went s, s)
  else (true, s)

/-- Entry after entry of the range. -/
def advGo (q seq : Nat) : Nat → State → State
  | 0, s => opEnd q seq 0 s
  | f + 1, s =>
    match descOf s q seq with
    | none => s
    | some d =>
      let last := (advPages d).length
      if last ≤ d.step then opEnd q seq 0 s
      else
        let vp := advVa d / 4096 + d.step
        match pteAt s d.asid vp with
        | some (b, e) =>
          match advEntry q seq d b e s with
          | (true, s) => advGo q seq f (descMod q seq (fun d => { d with step := min last (b + sizePages e.size - advVa d / 4096) }) s)
          | (false, s) => s
        | none => advGo q seq f (descMod q seq (fun d => { d with step := d.step + 1 }) s)

/-- PREFETCH and ADVISE: the store pages are recorded first, then host pages move. `count` 1 says that the store pages were recorded. -/
def advRun (q seq : Nat) (d : Desc) (s : State) : State :=
  let s := if d.count = 0 then advStore d (descMod q seq (fun d => { d with count := 1 }) s) else s
  advGo q seq ((advPages d).length + 1) s

/-! INVAL_ASID (R415) -/

def invalCheck (s : State) (d : Desc) : Check := { Check.ok with own := asidPart s (d.f 1 0 12) != some d.part }

/-- A descriptor or channel of an ASID has an access outstanding. -/
def asidBusy (s : State) (asid : Nat) : Bool :=
  s.fab.reqs.any fun r => match r.owner with
    | .descRead q seq _ _ => (descOf s q seq).any fun d => d.asid == asid
    | .descWrite q seq _ _ => (descOf s q seq).any fun d => d.asid == asid
    | .dmaRead e c _ _ => (chanOf s e c).any fun c => c.asid == asid
    | .dmaWrite e c => (chanOf s e c).any fun c => c.asid == asid
    | _ => false

def invalRun (q seq : Nat) (d : Desc) (s : State) : State :=
  let asid := d.f 1 0 12
  let s := if d.step = 0 then invalAsid asid (descMod q seq (fun d => { d with step := 1 }) s) else s
  if asidBusy s asid then s else opEnd q seq 0 s

end Sys2Proof.Machine
end

