-- ==== Sys2Proof/Machine/Wide.lean ====
section
/-! DEFINITION. Wider copies (R97 to R100), streamed operands read narrow or wide, the stand-in audit (R142 to R146). -/

namespace Sys2Proof.Machine

open Sys2Proof

/-! Wider copies -/

/-- The allocation of this hub in which a virtual address lies, and the offset in it. -/
def vaAlloc (s : State) (d : Desc) (va : Nat) : Option (Nat × Nat) :=
  match pteAt s d.asid (va / 4096) with
  | some (b, e) =>
    let off := match e.kind with
      | 0 => match resolveIn s.fab.current ((e.tgt + (va - b * 4096)) % 2 ^ 64) (fkey s d.part) 0 with
        | .home ep off => if ep = selfEp s then some off else none
        | _ => none
      | _ => none
    off.bind fun off => (allocAt s off).bind fun a => (allocOf s a).map fun al => (a, off - al.base * pageSize)
  | none => none

/-- The wider copy of the allocation an operand lies in, as sampled at kernel start: number, format, scale offset. -/
def wideEntry (s : State) (q : Nat) (d : Desc) (va fmt : Nat) : Option (Nat × Nat × Nat × Nat) :=
  match vaAlloc s d va with
  | some (a, off) =>
    match (queueOf s q).wide.find? fun w => w.1 == a with
    | some (_, w, wf, soff) => if 3 ≤ wf ∧ wf ≤ 7 ∧ storedBits fmt < storedBits wf then some (off, w, wf, soff) else none
    | none => none
  | none => none

/-- An operand that R99 redirects: of a narrow format, in an allocation widened when the kernel started, narrower than its wider copy. -/
def redirects (s : State) (q : Nat) (d : Desc) (va fmt : Nat) : Bool :=
  [6, 7, 8, 10, 11, 12].contains fmt && (wideEntry s q d va fmt).isSome
    && match vaAlloc s d va with | some (a, _) => (queueOf s q).widened.contains a | none => false

/-- An operand's place in a wider copy: hub-local base of the copy, its format, its scale offset, index of the operand's element 0. -/
structure WideRef where
  base : Nat
  fmt : Nat
  soff : Nat
  e0 : Nat
  deriving DecidableEq, Repr

/-- Byte of the element plane where element e ends. -/
def WideRef.lastByte (w : WideRef) (e : Nat) : Nat := if isBlock w.fmt then e / 32 * planeBytes w.fmt + (e % 32 * elemBits w.fmt + elemBits w.fmt - 1) / 8 else e

/-- Where an operand of n elements (its padding counted) is read in its wider copy; none where R100 reads it narrow. -/
def wideRef (s : State) (q : Nat) (d : Desc) (va fmt n : Nat) : Option WideRef :=
  match wideEntry s q d va fmt with
  | some (off, w, wf, soff) =>
    match allocOf s w with
    | some al =>
      let size := al.pages * pageSize
      let r : WideRef := { base := al.base * pageSize, fmt := wf, soff := soff, e0 := off / planeBytes fmt * blkLen fmt }
      let last := r.e0 + n - 1
      if off % planeBytes fmt ≠ 0 ∨ al.draining ∨ size ≤ r.lastByte last then none
      else if isBlock wf ∧ (soff ≤ r.lastByte last ∨ size ≤ soff + last / 32) then none
      else some r
    | none => none
  | none => none

/-- The bytes of a wider copy that hold elements e to e + n − 1: plane bytes from `p0`, scale bytes from block `b0`, and the poisoned words. -/
structure WideData where
  ref : WideRef
  p0 : Nat
  plane : List Byte
  b0 : Nat
  scale : List Byte
  pois : List Nat
  deriving DecidableEq, Repr

/-- Count the reads of a range, page by page (R71). -/
def countSpan (off n : Nat) (s : State) : State := (piecesOf off n).foldl (fun s pc => countRead pc.1 pc.2 s) s

/-- Read n elements of a wider copy from element e of the operand. -/
def readWide (r : WideRef) (e n : Nat) (s : State) : WideData × State :=
  let lo := r.e0 + e
  let hi := r.e0 + e + n - 1
  let p0 := if isBlock r.fmt then lo / 32 * planeBytes r.fmt else lo
  let pn := r.lastByte hi + 1 - p0
  let b0 := lo / 32
  let sn := if isBlock r.fmt then hi / 32 + 1 - b0 else 0
  let (g, s) := memRead (r.base + p0) pn (countSpan (r.base + p0) pn s)
  let (h, s) := memRead (r.base + r.soff + b0) sn (countSpan (r.base + r.soff + b0) sn s)
  ({ ref := r, p0 := p0, plane := g.bytes, b0 := b0, scale := h.bytes, pois := g.pois ++ h.pois }, s)

/-- Whether bytes of the copy at an offset are poison. -/
def WideData.bad (w : WideData) (o n : Nat) : Bool := (wordsOf (w.ref.base + o) n).any fun x => w.pois.contains x

/-- Element e of the operand in a wider copy; k is its place in the reduction. -/
def WideData.el (w : WideData) (nfz : Bool) (e k : Nat) : El × Bool :=
  let e := w.ref.e0 + e
  let f := w.ref.fmt
  if isBlock f then
    let b := e / 32
    let code := elemCode f (slice w.plane (b * planeBytes f - w.p0) (planeBytes f)) (e % 32)
    let p := w.bad (b * planeBytes f + e % 32 * elemBits f / 8) 1 || w.bad (w.ref.lastByte e) 1 || w.bad (w.ref.soff + b) 1
    match scaleVal f (w.scale.getD (b - w.b0) 0).toNat with
    | some x => ({ v := elemVal f code, s := x, g := b, p := p, z := isNegZero f code }, false)
    | none => ({ v := if nfz then .fin 0 else .nan, s := fixOne, g := b, p := p, z := false }, true)
  else
    let code := (w.plane.getD (e - w.p0) 0).toNat
    ({ v := elemVal f code, s := fixOne, g := k / 32, p := w.bad e 1, z := isNegZero f code }, false)

/-- Runs of elements of one group: how many are non-finite, and how many of those read as zero. -/
def countRuns (nfz : Bool) : List (El × Bool) → Option Nat → Bool → Nat × Nat → Nat × Nat
  | [], _, _, acc => acc
  | x :: t, g, seen, acc =>
    let fresh := g != some x.1.g
    let hit := !x.1.v.isFin || x.2
    let old := if fresh then false else seen
    countRuns nfz t (some x.1.g) (old || hit) (if hit && !old then (acc.1 + 1, acc.2 + b2n (x.2 && nfz)) else acc)

/-- A row of n elements from element e. -/
def WideData.row (w : WideData) (nfz : Bool) (e n : Nat) : Els :=
  let l := (List.range n).map fun k => w.el nfz (e + k) k
  let (nf, zeroed) := countRuns nfz l none false (0, 0)
  { els := l.map (·.1), nf := nf, zeroed := zeroed, badBlk := [] }

/-! Streamed operands -/

/-- A row of a streamed operand as the cell takes it: its elements, its valid extras, non-finite blocks and ignored extras counted, blocks read as
zero, whether a word of it is poison. -/
structure Row where
  els : List El
  xs : List Extra
  nf : Nat
  zeroed : Nat
  p : Bool
  deriving DecidableEq, Repr

/-- Row r of a streamed operand read narrow, with the extras stream at `ax` (R138): a non-finite block's record is not read. -/
def narrowRow (t : Tensor) (d : Desc) (nfz : Bool) (e ax r : Nat) : Row :=
  let x := t.row d nfz r
  let ex := if e = 0 then [] else ((List.range t.bpr).filter fun j => !x.badBlk.contains j).map fun j =>
    let a := ax + (r * t.bpr + j) * 3 * e
    (readExtras (d.at a (3 * e)) e (j * blkLen t.fmt) (min (blkLen t.fmt) (t.cols - j * blkLen t.fmt)), d.bad a (3 * e))
  { els := x.els, xs := ex.flatMap fun y => y.1.1, nf := x.nf + (ex.map fun y => y.1.2).sum, zeroed := x.zeroed,
    p := (x.els.any fun e => e.p) || ex.any fun y => y.2 }

/-- Row r of a tensor's operand read from its wider copy. -/
def wideRow (t : Tensor) (w : WideData) (nfz : Bool) (r : Nat) : Row :=
  let x := w.row nfz (r * t.bpr * blkLen t.fmt) t.cols
  { els := x.els, xs := [], nf := x.nf, zeroed := x.zeroed, p := x.els.any fun e => e.p }

/-- Some rows of a tensor's operand from its wider copy, each with what was read for it. -/
def readWideRows (r : WideRef) (t : Tensor) (rows : List Nat) (s : State) : List (Nat × WideData) × State :=
  rows.foldl (fun (acc : List (Nat × WideData) × State) i =>
    let (w, s) := readWide r (i * t.bpr * blkLen t.fmt) t.cols acc.2
    (acc.1 ++ [(i, w)], s)) ([], s)

/-- Elements of a tensor from its first to the last one of row `last`. -/
def Tensor.upTo (t : Tensor) (last : Nat) : Nat := last * t.bpr * blkLen t.fmt + t.cols

/-- Elements of a tensor from its first to its last real one, the padding between rows counted. -/
def Tensor.span (t : Tensor) : Nat := (t.rows - 1) * t.bpr * blkLen t.fmt + t.cols

/-! The audit -/

/-- K of AUDIT_CFG: 0 disables; 1 to 3 act as 4, 21 to 31 as 20 (Table 3-11). -/
def auditK (c : W32) : Nat := let k := fld c 0 5; if k = 0 then 0 else max 4 (min 20 k)

/-- A threshold register: NaN, zero and negative values act as its reset value (Table 3-10). -/
def auditLimit (w dflt : W32) : W32 := if fpIsNan w || f32Zero w || w.getLsbD 31 then dflt else w

def f32Finite (w : W32) : Bool := !fpIsNan w && !fpIsInf w

/-- FP32 2-norm; the order of the sum is free. -/
def f32Norm (rnd : Nat → Nat) (l : List W32) : W32 := f32Sqrt (f32Sum rnd (l.map fun x => f32Mul x x))

/-- The range check of R144. -/
def rangeFails (d : Desc) (ys : List W32) : Bool :=
  ys.any fun y => !f32Finite y || !f32Lt (f32Abs y) (auditLimit d.auditRange 0x5F800000)

/-- Whether a tile fails: `ws` are the wide results, none where there is no wider copy to read (R143, R144). -/
def tileFails (d : Desc) (rnd : Nat → Nat) (ys : List W32) (ws : Option (List W32)) : Bool :=
  match ws with
  | none => rangeFails d ys
  | some ws =>
    if ws.any fun w => !f32Finite w then rangeFails d ys
    else if ys.any fun y => !f32Finite y then true
    else
      let e := f32Div (f32Norm rnd ((ys.zip ws).map fun x => f32Sub x.1 x.2)) (f32Max (f32Norm (fun i => rnd (i + 7)) ws) 0x00800000)
      f32Lt (auditLimit d.auditTol 0x3D4CCCCD) e

/-- A tile was audited; each failure is counted, charged to the streamed operand's allocation and raises the trigger (R145). -/
def auditTile (q seq : Nat) (alloc : Option Nat) (failed : Bool) (s : State) : State :=
  match descOf s q seq with
  | none => s
  | some d =>
    let s := bump Reg.auditTiles d.part (descMod q seq (fun d => { d with audited := d.audited + 1 }) s)
    if !failed then s
    else
      let s := bump Reg.auditFails d.part (descMod q seq (fun d => { d with failed := d.failed + 1, statuses := .audit :: d.statuses }) s)
      let (v, s) := match alloc with
        | some a => (a, allocMod a (fun al => { al with fails := match al.fails with | n :: t => (n + 1) :: t | [] => [1] }) s)
        | none => let (v, s) := draw s; (v.toNat % 65536, s)
      trigger 8 (w64 (v + q % 4096 * 65536)) (some d.part) 0 s

/-- Non-finite blocks met and read as zero (R134, Table 3-10). -/
def countNf (q seq part nf zeroed : Nat) (s : State) : State :=
  bumpN Reg.nfZeroed part zeroed (bumpN Reg.nfBlocks part nf (descMod q seq (fun d => { d with nf := d.nf + nf }) s))

end Sys2Proof.Machine
end

