-- ==== Sys2Proof/Machine/Math.lean ====
section
/-! DEFINITION. MATVEC, MATMUL and ATTEND (chapter 4). -/

namespace Sys2Proof.Machine

open Sys2Proof

/-! Shared by the operations that compute -/

/-- ARITH is bad: EXTRAS 3, EXTRAS where the operation takes none, SCALE_RULE 2 or 3 (Table 3-4). -/
def arithBad (d : Desc) (extrasOk : Bool) : Bool :=
  arExtras d.arith == 3 || decide (2 ≤ arRule d.arith) || (arExtras d.arith != 0 && !extrasOk)

/-- A format code in a range. -/
def fmtIn (lo hi f : Nat) : Bool := decide (lo ≤ f) && decide (f ≤ hi)

/-- Draws of an operation: a 16-bit number for each value converted. -/
def rnd16 (v : W64) (i : Nat) : Nat := freeSeq v i % 65536

/-- Write row r of a tensor: its blocks or groups, an element's poison spreading to the words of its block (R478). -/
def putRow (q seq unit : Nat) (t : Tensor) (r : Nat) (encs : List Enc) (bad : Nat → Bool) (s : State) : State :=
  if isBlock t.fmt then
    let bl := blkLen t.fmt
    let pb := planeBytes t.fmt
    let sb := scaleBytes t.fmt
    let hit := fun j => (List.range (min bl (t.cols - j * bl))).any fun i => bad (j * bl + i)
    let js := (List.range t.bpr).filter hit
    let pv := t.va + r * t.bpr * pb
    let sv := t.scaleVa + r * t.bpr * sb
    let s := opPut q seq unit pv { bs := (encs.map (·.plane)).flatten, pois := js.flatMap fun j => wordsOf (pv + j * pb) pb, tally := none, e2e := false } s
    opPut q seq unit sv { bs := (encs.map (·.scale)).flatten, pois := js.flatMap fun j => wordsOf (sv + j * sb) sb, tally := none, e2e := false } s
  else
    let w := elemBytes t.fmt
    let pv := t.va + r * t.cols * w
    opPut q seq unit pv { bs := (encs.map (·.plane)).flatten, pois := ((List.range t.cols).filter bad).flatMap fun i => wordsOf (pv + i * w) w, tally := none, e2e := false } s

/-- Write FP32 results in a format without blocks at an address. -/
def putF32s (q seq unit va fmt arith : Nat) (v : W64) (ys : List W32) (bad : Nat → Bool) (s : State) : State :=
  let w := elemBytes fmt
  opPut q seq unit va
    { bs := (ys.zipIdx.map fun y => f32Bytes fmt arith (rnd16 v y.2) y.1).flatten
      pois := ((List.range ys.length).filter bad).flatMap fun i => wordsOf (va + i * w) w, tally := none, e2e := false } s

/-- A held operand read from beside the descriptor. -/
def heldRow (t : Tensor) (d : Desc) (r : Nat) : Row :=
  let x := t.row d (arNfz d.arith) r
  { els := holdEls t.fmt x.els, xs := [], nf := x.nf, zeroed := x.zeroed, p := x.els.any fun e => e.p }

/-! MATVEC and MATMUL (R178 to R182) -/

def mmM (d : Desc) : Nat := d.f 5 0 32
def mmK (d : Desc) : Nat := d.f 5 32 32
def mmN (d : Desc) : Nat := if d.opcode = 0x10 then 1 else d.f 6 12 7
def mmAcc (d : Desc) : Bool := d.f 6 19 1 == 1
def mmXs (d : Desc) : Nat := if d.opcode = 0x10 then 0 else d.f 6 32 32
def mmYs (d : Desc) : Nat := if d.opcode = 0x10 then 0 else d.f 7 0 32
def mmA (d : Desc) : Tensor := { va := d.w 1, fmt := d.f 6 0 4, rows := mmM d, cols := mmK d }
def mmX (d : Desc) (n : Nat) : Tensor := { va := d.w 2 + n * mmXs d, fmt := d.f 6 4 4, rows := 1, cols := mmK d }
def mmY (d : Desc) (n : Nat) : Tensor := { va := d.w 3 + n * mmYs d, fmt := d.f 6 8 4, rows := 1, cols := mmM d }

/-- Bytes of the extras stream of A. -/
def mmAxLen (d : Desc) : Nat := mmM d * (mmA d).bpr * 3 * arExtras d.arith

/-- DECODE of R180, with R107, R121 and Table 3-4. -/
def mmCheck (d : Desc) : Check :=
  let fa := d.f 6 0 4
  let fx := d.f 6 4 4
  let fy := d.f 6 8 4
  let n := mmN d
  let okF := fmtIn 1 13 fa && fmtIn 0 13 fx && fmtIn 0 4 fy
  let xlen := (mmX d 0).len
  let ylen := (mmY d 0).len
  let lap := (List.range n).any fun i =>
    overlap (mmY d i).va ylen (mmA d).va (mmA d).len || (List.range n).any fun j => overlap (mmY d i).va ylen (mmX d j).va xlen
  let bad := badIf (arithBad d (isBlock fa)) 1
      ++ badIf (fmtIn 1 13 fa && !(mmA d).aligned) 8
      ++ badIf (fmtIn 0 13 fx && !(mmX d 0).aligned) 16
      ++ badIf (fmtIn 0 4 fy && !(mmY d 0).aligned) 24
      ++ badIf (mmM d == 0) 40 ++ badIf (mmK d == 0 || decide (1048576 < mmK d)) 44
      ++ badIf (!fmtIn 1 13 fa || !fmtIn 0 13 fx) 48 ++ badIf (!fmtIn 0 4 fy || n == 0 || decide (64 < n)) 49
      ++ badIf (mmAcc d && fy != 0) 50
      ++ badIf (decide (1 < n) && okF && (decide (mmXs d < xlen) || (isBlock fx && mmXs d % 64 != 0))) 52
      ++ badIf (decide (1 < n) && okF && decide (mmYs d < ylen)) 56
  { bad := badLap bad (badIf lap 24), own := false }

def mmRanges (d : Desc) : Ranges :=
  let y := ((mmY d 0).va, (mmN d - 1) * mmYs d + (mmY d 0).len)
  { reads := [((mmA d).va, (mmA d).len), ((mmX d 0).va, (mmN d - 1) * mmXs d + (mmX d 0).len)]
      ++ (if arExtras d.arith = 0 then [] else [(d.w 4, mmAxLen d)]) ++ (if mmAcc d then [y] else [])
    writes := [y] }

/-- FP32 terms of output row r for one held vector (R125 to R128, R179). -/
def mmTerms (a x : Row) (old : Option W32) : List W32 := dotTerms a.els x.els a.xs ++ old.toList

def mmOld (d : Desc) (n r : Nat) : Option W32 := if mmAcc d then some (w32 (leNat (d.at ((mmY d n).va + 4 * r) 4))) else none

/-- Results of rows `rs` for every held vector, column after column; which order each sum takes is free. -/
def mmResults (d : Desc) (v : W64) (row : Nat → Row) (xs : List Row) (rs : List Nat) : List (List W32) :=
  xs.zipIdx.map fun x => rs.map fun r => f32Sum (fun i => freeSeq v ((x.2 * mmM d + r) * 2 ^ 24 + i)) (mmTerms (row r) x.1 (mmOld d x.2 r))

/-- Audit the tiles of 256 rows (R142 to R145). -/
def mmAudit (q seq : Nat) (d : Desc) (wide : Option WideRef) (row : Nat → Row) (xs : List Row) (v : W64) (s : State) : State :=
  let k := auditK d.auditCfg
  let alloc := (vaAlloc s d (mmA d).va).map (·.1)
  if k = 0 then s
  else
    (List.range (ceilDiv (mmM d) 256)).foldl (fun s t =>
      let (c, s) := draw s
      if c.toNat % 2 ^ k ≠ 0 then s
      else
        let rs := (List.range (min 256 (mmM d - 256 * t))).map (256 * t + ·)
        let ys := (mmResults d v row xs rs).flatten
        let (g, s) := draw s
        let (ws, s) := match wide with
          | none => (none, s)
          | some r =>
            let e0 := 256 * t * (mmA d).bpr * blkLen (mmA d).fmt
            let (w, s) := readWide r e0 ((rs.length - 1) * (mmA d).bpr * blkLen (mmA d).fmt + mmK d) s
            (some (mmResults d g (fun r => wideRow (mmA d) w (arNfz d.arith) r) xs rs).flatten, s)
        auditTile q seq alloc (tileFails d (freeSeq g) ys ws) s) s

/-- Held vector n, from its wider copy where it is redirected (R99). -/
def mmHeld (d : Desc) (n : Nat) (ref : Option WideRef) (s : State) : Row × State :=
  let t := mmX d n
  match ref with
  | some r =>
    let (w, s) := readWide r 0 t.span s
    let x := wideRow t w (arNfz d.arith) 0
    ({ x with els := holdEls r.fmt x.els }, s)
  | none => (heldRow t d 0, s)

/-- MATVEC and MATMUL once their operands stand beside the descriptor; COUNT is the output elements (Table 4-3, log entry 46). -/
def mmCompute (q seq : Nat) (redirected : Option WideRef) (heldRefs : List (Option WideRef)) (misfits : Nat) (d : Desc) (s : State) : State :=
  let nfz := arNfz d.arith
  let a := mmA d
  let s := if misfits = 0 then s else bumpN Reg.widenMisfit d.part misfits s
  let (wd, s) := match redirected with | some r => let (w, s) := readWide r 0 a.span s; (some w, s) | none => (none, s)
  let row := fun r => match wd with | some w => wideRow a w nfz r | none => narrowRow a d nfz (arExtras d.arith) (d.w 4) r
  let (xs, s) := heldRefs.zipIdx.foldl (fun (acc : List Row × State) x => let (r, s) := mmHeld d x.2 x.1 acc.2; (acc.1 ++ [r], s)) ([], s)
  let (v, s) := draw s
  let rs := List.range (mmM d)
  let ys := mmResults d v row xs rs
  let rows := rs.map row
  let s := countNf q seq d.part ((rows.map (·.nf)).sum + (xs.map (·.nf)).sum) ((rows.map (·.zeroed)).sum + (xs.map (·.zeroed)).sum) s
  let s := if rows.any (·.p) ∨ xs.any (·.p) then descMeet q seq .poison s else s
  let wide := if redirected.isSome then none else wideRef s q d a.va a.fmt a.span
  let s := mmAudit q seq d wide row xs v s
  let s := if redirected.isSome ∨ heldRefs.any (·.isSome) then descMeet q seq .widened s else s
  let (u, s) := draw s
  let s := ys.zipIdx.foldl (fun s y =>
    let t := mmY d y.2
    let bad := fun r => (xs.getD y.2 { els := [], xs := [], nf := 0, zeroed := 0, p := false }).p || (rows.getD r { els := [], xs := [], nf := 0, zeroed := 0, p := false }).p
      || (mmAcc d && d.bad (t.va + 4 * r) 4)
    (List.range (ceilDiv (mmM d) 256)).foldl (fun s k =>
      let o := 256 * k
      let ws := (y.1.drop o).take 256
      opPutCount q seq (t.va + o * elemBytes t.fmt) (elemBytes t.fmt) ws.length
        (putF32s q seq k (t.va + o * elemBytes t.fmt) t.fmt d.arith (u + w64 (y.2 * mmM d + o)) ws fun r => bad (o + r)) s) s) s
  opDone q seq s

/-- MATVEC and MATMUL: which of the operands are redirected, and how many of those that R99 redirects R100 reads narrow; the held vectors are one operand. -/
def mmRun (q seq : Nat) (d : Desc) (s : State) : State :=
  let a := mmA d
  let ref := fun (t : Tensor) => if redirects s q d t.va t.fmt then wideRef s q d t.va t.fmt t.span else none
  let misfit := fun (t : Tensor) => redirects s q d t.va t.fmt && (ref t).isNone
  let xs := (List.range (mmN d)).map (mmX d)
  let rs := (if (ref a).isSome then [] else a.ranges ++ (if arExtras d.arith = 0 then [] else [(d.w 4, mmAxLen d)]))
    ++ (xs.filter fun t => (ref t).isNone).flatMap (·.ranges) ++ (if mmAcc d then (List.range (mmN d)).flatMap fun n => (mmY d n).ranges else [])
  withBytes q seq rs (mmCompute q seq (ref a) (xs.map ref) (b2n (misfit a) + b2n (xs.any misfit))) s

/-! ATTEND (R183 to R187) -/

def atS (d : Desc) : Nat := d.f 5 0 16
def atQ (d : Desc) : Nat := d.f 5 16 8
def atH (d : Desc) : Nat := d.f 5 32 8
def atG (d : Desc) : Nat := d.f 5 40 8
def atD (d : Desc) : Nat := d.f 5 48 9
def atP (d : Desc) : Nat := 2 ^ (d.f 5 57 3 + 4)
def atScale (d : Desc) : W32 := w32 (d.f 6 32 32)
def atWindow (d : Desc) : Nat := d.f 7 0 32
def atLse (d : Desc) : Nat := d.w 4

/-- Queries and outputs: one row of D elements for each (s, j, h). -/
def atQry (d : Desc) : Tensor := { va := d.w 1, fmt := d.f 6 0 4, rows := atS d * atQ d * atH d, cols := atD d }
def atOut (d : Desc) : Tensor := { va := d.w 3, fmt := d.f 6 8 4, rows := atS d * atQ d * atH d, cols := atD d }

def atKvOk (f : Nat) : Bool := f == 3 || f == 5 || f == 8

/-- DECODE of R186, with Table 4-7's SEQ alignment and Table 3-4. -/
def atCheck (d : Desc) : Check :=
  let okQ := fmtIn 0 3 (atQry d).fmt
  let okO := fmtIn 0 2 (atOut d).fmt
  let kv := d.f 6 4 4
  let lap := overlap (atOut d).va (atOut d).len (atQry d).va (atQry d).len
  let bad := badIf (arithBad d (isBlock kv)) 1 ++ badIf (okQ && !(atQry d).aligned) 8 ++ badIf (d.w 2 % 16 != 0) 16
      ++ badIf (okO && !(atOut d).aligned) 24
      ++ badIf (atLse d % 4 != 0) 32
      ++ badIf (atS d == 0 || decide (4096 < atS d)) 40 ++ badIf (atQ d == 0 || decide (64 < atQ d)) 42
      ++ badIf (atH d == 0 || decide (128 < atH d) || (atG d != 0 && atH d % atG d != 0)) 44 ++ badIf (atG d == 0 || decide (128 < atG d)) 45
      ++ badIf (atD d == 0 || decide (256 < atD d)) 46 ++ badIf (decide (4 < d.f 5 57 3)) 47
      ++ badIf (!okQ || !atKvOk kv) 48 ++ badIf (!okO) 49
  { bad := badLap bad (badIf lap 24), own := false }

/-- Keys and values are reached through a list (R166). -/
def atRanges (d : Desc) : Ranges :=
  { reads := allSpace, writes := [((atOut d).va, (atOut d).len)] ++ (if atLse d = 0 then [] else [(atLse d, 4 * (atOut d).rows)]) }

/-- A sequence as its entry gives it: page table, length. -/
def atSeq (d : Desc) (s : Nat) : Nat × Nat := (leNat (d.at (d.w 2 + 16 * s) 8), leNat (d.at (d.w 2 + 16 * s + 8) 4))

/-- A length that R186 allows. -/
def atLenOk (d : Desc) (len : Nat) : Bool := decide (atQ d ≤ len) && decide (len ≤ 2 ^ 24)

/-- First token that query token j of a sequence sees, and the last. -/
def atTokens (d : Desc) (len j : Nat) : Nat × Nat :=
  let n := len - atQ d + j
  (if atWindow d = 0 then 0 else n + 1 - min (n + 1) (atWindow d), n)

/-- Pages that a sequence needs. -/
def atPages (d : Desc) (len : Nat) : List Nat :=
  let lo := (atTokens d len 0).1 / atP d
  (List.range ((len - 1) / atP d + 1 - lo)).map (lo + ·)

/-- Address of page p of a sequence. -/
def atPageVa (d : Desc) (pt p : Nat) : Nat := leNat (d.at (pt + 8 * p) 8)

/-- A sequence that R186 leaves out: a bad length, or a needed page address that is 0 or not 64-byte aligned (the last DEDUCED from R121, log
entry 39). -/
def atSeqBad (d : Desc) (s : Nat) : Bool :=
  let (pt, len) := atSeq d s
  !atLenOk d len || (atPages d len).any fun p => atPageVa d pt p == 0 || atPageVa d pt p % 64 != 0

/-- Key plane (false) and value plane (true) of a page (R183), with the address of its extras. -/
def atPlane (d : Desc) (page : Nat) (value : Bool) : Tensor × Nat :=
  let k : Tensor := { va := page, fmt := d.f 6 4 4, rows := atP d * atG d, cols := atD d }
  let ext := fun t : Tensor => t.va + roundUp t.len 64
  let used := roundUp k.len 64 + (if arExtras d.arith = 0 then 0 else roundUp (k.rows * k.bpr * 3 * arExtras d.arith) 64)
  let t := if value then { k with va := page + used } else k
  (t, ext t)

/-- Byte ranges of one vector of a plane. -/
def vecRanges (t : Tensor) (e ax r : Nat) : List (Nat × Nat) :=
  [(t.va + r * t.bpr * planeBytes t.fmt, t.bpr * planeBytes t.fmt)]
    ++ (if isBlock t.fmt then [(t.scaleVa + r * t.bpr * scaleBytes t.fmt, t.bpr * scaleBytes t.fmt)] else [])
    ++ (if e = 0 then [] else [(ax + r * t.bpr * 3 * e, t.bpr * 3 * e)])

/-- The tokens of page p that a sequence needs. -/
def atSlots (d : Desc) (len p : Nat) : List Nat :=
  (List.range (atP d)).filter fun t => decide ((atTokens d len 0).1 ≤ p * atP d + t) && decide (p * atP d + t < len)

/-- Rows of a plane that a sequence needs of page p: every head's vectors of its tokens. -/
def atNeed (d : Desc) (len p : Nat) : List Nat := (List.range (atG d)).flatMap fun g => (atSlots d len p).map fun x => g * atP d + x

/-- A plane's redirection for the rows needed: none where it is not redirected, and whether R100 reads it narrow. -/
def atWide (s : State) (q : Nat) (d : Desc) (t : Tensor) (need : List Nat) : Option WideRef × Bool :=
  let r := wideRef s q d t.va t.fmt (t.upTo (need.foldl max 0))
  if redirects s q d t.va t.fmt then (r, r.isNone) else (none, false)

/-- What the good sequences need of their pages, apart from redirected planes. -/
def atKvRanges (s : State) (q : Nat) (d : Desc) : List (Nat × Nat) :=
  (List.range (atS d)).flatMap fun i =>
    let (pt, len) := atSeq d i
    if atSeqBad d i then []
    else (atPages d len).flatMap fun p => [false, true].flatMap fun val =>
      let (t, ax) := atPlane d (atPageVa d pt p) val
      if (atWide s q d t (atNeed d len p)).1.isSome then [] else (atNeed d len p).flatMap fun r => vecRanges t (arExtras d.arith) ax r

/-- A plane read: how its row r is read. -/
abbrev RowFn := Nat → Row

/-- The rows needed of a plane, from its wider copy. -/
def atWideRows (d : Desc) (t : Tensor) (r : WideRef) (need : List Nat) (s : State) : RowFn × State :=
  let (ws, s) := readWideRows r t need s
  (fun i => match ws.find? fun w => w.1 == i with | some w => wideRow t w.2 (arNfz d.arith) i | none => { els := [], xs := [], nf := 0, zeroed := 0, p := false }, s)

/-- A plane of a page as ATTEND reads it, redirected or narrow; `audit` asks for the wider copy of an operand that is not redirected. -/
def atRows (q seq : Nat) (d : Desc) (t : Tensor) (ax : Nat) (audit : Bool) (need : List Nat) (s : State) : Option RowFn × State :=
  let (w, misfit) := atWide s q d t need
  if audit then
    match (if w.isSome then none else wideRef s q d t.va t.fmt (t.upTo (need.foldl max 0))) with
    | some r => let (f, s) := atWideRows d t r need s; (some f, s)
    | none => (none, s)
  else
    match w with
    | some r => let (f, s) := atWideRows d t r need s; (some f, descMeet q seq .widened s)
    | none => (some (narrowRow t d (arNfz d.arith) (arExtras d.arith) ax), if misfit then bump Reg.widenMisfit d.part s else s)

/-- Key and value planes of pages of a sequence. -/
abbrev Planes := List (Nat × Option RowFn × Option RowFn)

/-- The planes of some pages of a sequence, with the rows needed of each. -/
def atLoad (q seq : Nat) (d : Desc) (i : Nat) (audit : Bool) (pages : List (Nat × List Nat)) (s : State) : Planes × State :=
  let pt := (atSeq d i).1
  pages.foldl (fun (acc : Planes × State) p =>
    let k := atPlane d (atPageVa d pt p.1) false
    let v := atPlane d (atPageVa d pt p.1) true
    let (kr, s) := atRows q seq d k.1 k.2 audit p.2 acc.2
    let (vr, s) := atRows q seq d v.1 v.2 audit p.2 s
    (acc.1 ++ [(p.1, kr, vr)], s)) ([], s)

/-- Pages that one head of query token j needs, with their rows. -/
def atTilePages (d : Desc) (len j h : Nat) : List (Nat × List Nat) :=
  let g := h / (atH d / atG d)
  let (lo, n) := atTokens d len j
  (List.range (n / atP d + 1 - lo / atP d)).map fun k =>
    let p := lo / atP d + k
    (p, ((List.range (atP d)).filter fun x => decide (lo ≤ p * atP d + x) && decide (p * atP d + x ≤ n)).map fun x => g * atP d + x)

/-- Row of token t of head g in the key or value planes. -/
def atRow (d : Desc) (ps : Planes) (g t : Nat) (value : Bool) : Option Row :=
  match ps.find? fun x => x.1 == t / atP d with
  | some (_, k, v) => (if value then v else k).map fun f => f (g * atP d + t % atP d)
  | none => none

/-- Maximum, sum and weighted values of a chunk of tokens. -/
structure Part where
  m : W32
  z : W32
  o : List W32
  deriving DecidableEq, Repr


/-- Merge two chunks in FP32 (R185). -/
def Part.merge (a b : Part) : Part :=
  let m := f32Max a.m b.m
  let x := fpApply 0 (f32Sub a.m m)
  let y := fpApply 0 (f32Sub b.m m)
  { m := m, z := fpAdd (f32Mul a.z x) (f32Mul b.z y), o := (a.o.zip b.o).map fun e => fpAdd (f32Mul e.1 x) (f32Mul e.2 y) }

/-- Merge chunks in an order no rule fixes. -/
def mergeAll (rnd : Nat → Nat) : Nat → List Part → Option Part
  | 0, _ => none
  | _ + 1, [] => none
  | _ + 1, [a] => some a
  | f + 1, a :: t =>
    let j := rnd f % t.length
    match t[j]? with
    | some b => mergeAll rnd f (a.merge b :: t.eraseIdx j)
    | none => some a

/-- Weighted values of a chunk: terms of Σ p_t v_t for element c. A block format's value carries its own scale, so each token is a group; FP8 values
form groups of 32 tokens (DESIGN CHOICE, log entry 40). -/
def atWeighted (block : Bool) (ps : List (W32 × Row)) (c : Nat) : List W32 :=
  let xs := ps.zipIdx.map fun p =>
    let e := p.1.2.els.getD c { v := .nan, s := fixOne, g := 0, p := false, z := false }
    let ex := p.1.2.xs.filter fun x => x.1 == c
    let h : El := { v := fmtBf16.decode (bf16Of (f32Val p.1.1)), s := fixOne, g := 0, p := false, z := false }
    ({ e with g := if block then p.2 else p.2 / 32, v := if ex.isEmpty then e.v else .fin 0 }, h, ex.map fun x => extraTerm x.2 h.v)
  (splitRuns (xs.map fun x => (x.1, x.2.1))).map groupTerm ++ xs.flatMap fun x => x.2.2

/-- One chunk of scores and values. -/
def atChunk (block : Bool) (dims : Nat) (rnd : Nat → Nat) (xs : List (W32 × Row)) : Part :=
  let m := match xs with | [] => fpNan | x :: t => t.foldl (fun m y => f32Max m y.1) x.1
  let ps := xs.map fun x => (fpApply 0 (f32Sub x.1 m), x.2)
  { m := m, z := f32Sum rnd (ps.map (·.1)), o := (List.range dims).map fun c => f32Sum (fun i => rnd ((c + 1) * 2 ^ 20 + i)) (atWeighted block ps c) }

/-- Lists of at most n. -/
def chunksOf {α : Type} (n : Nat) : Nat → List α → List (List α)
  | 0, _ => []
  | f + 1, l => if l.isEmpty then [] else l.take n :: chunksOf n f (l.drop n)

/-- Output and log-sum-exp of (j, h) of a sequence, and whether poison entered; none where a plane is not there. -/
def atHead (d : Desc) (ps : Planes) (len j h : Nat) (query : Row) (rnd : Nat → Nat) : Option (List W32 × W32 × Bool) :=
  let g := h / (atH d / atG d)
  let (lo, n) := atTokens d len j
  let toks := (List.range (n + 1 - lo)).map (lo + ·)
  let rows := toks.map fun t => (atRow d ps g t false, atRow d ps g t true)
  if rows.any fun r => r.1.isNone || r.2.isNone then none
  else
    let xs := rows.zipIdx.filterMap fun r =>
      match r.1.1, r.1.2 with
      | some k, some v => some (f32Mul (atScale d) (f32Sum (fun i => rnd (r.2 * 1024 + i)) (dotTerms k.els query.els k.xs)), k, v)
      | _, _ => none
    let block := isBlock (d.f 6 4 4)
    let chunks := (chunksOf 4096 (xs.length / 4096 + 1) (xs.map fun x => (x.1, x.2.2))).zipIdx.map fun c =>
      atChunk block (atD d) (fun i => rnd (2 ^ 40 + c.2 * 2 ^ 32 + i)) c.1
    match mergeAll (fun i => rnd (2 ^ 50 + i)) (chunks.length + 1) chunks with
    | some p => some (p.o.map fun o => f32Div o p.z, fpAdd p.m (fpApply 2 p.z), query.p || xs.any fun x => x.2.1.p || x.2.2.p)
    | none => none

/-- The entry of a sequence, or an entry of its page table that it needs, was read as poison: it enters every output of the sequence (R478). -/
def atListPoison (d : Desc) (i : Nat) : Bool :=
  let (pt, len) := atSeq d i
  d.bad (d.w 2 + 16 * i) 16 || (atLenOk d len && (atPages d len).any fun p => d.bad (pt + 8 * p) 8)

/-- One head of one query token: computed, audited, written. An audit reads the wider copy of what the tile reads, and is charged to the allocation of the first
page the tile reads (R98, log entry 149). -/
def atTile (q seq : Nat) (d : Desc) (i : Nat) (ps : Planes) (j h : Nat) (s : State) : State :=
  let (pt, len) := atSeq d i
  let r := (i * atQ d + j) * atH d + h
  let query := heldRow (atQry d) d r
  let (v, s) := draw s
  let (u, s) := draw s
  match atHead d ps len j h query (freeSeq v) with
  | none => s
  | some (o, lse, bad) =>
    let k := auditK d.auditCfg
    let (c, s) := draw s
    let s := if k = 0 ∨ c.toNat % 2 ^ k ≠ 0 then s
      else
        let (ws, s) := atLoad q seq d i true (atTilePages d len j h) s
        auditTile q seq ((vaAlloc s d (atPageVa d pt ((atTokens d len j).1 / atP d))).map (·.1))
          (tileFails d (freeSeq u) o ((atHead d ws len j h query (freeSeq (v + 1))).map (·.1))) s
    let bad := bad || atListPoison d i
    let s := if bad then descMeet q seq .poison s else s
    let va := (atOut d).va + r * atD d * elemBytes (atOut d).fmt
    let s := opPutCount q seq va (elemBytes (atOut d).fmt) (atD d) (putF32s q seq 0 va (atOut d).fmt d.arith u o fun _ => bad) s
    if atLse d = 0 then s else putF32s q seq 0 (atLse d + 4 * r) 0 d.arith u [lse] (fun _ => bad) s

/-- Non-finite blocks and ignored extras of the vectors a sequence reads, and blocks read as zero. -/
def atNf (d : Desc) (ps : Planes) (len : Nat) : Nat × Nat :=
  let rows := (List.range (len - (atTokens d len 0).1)).flatMap fun t => (List.range (atG d)).flatMap fun g =>
    [false, true].filterMap fun val => atRow d ps g ((atTokens d len 0).1 + t) val
  ((rows.map (·.nf)).sum, (rows.map (·.zeroed)).sum)

/-- Outputs and LSE of a sequence whose entry is bad (R186). -/
def atNan (q seq : Nat) (d : Desc) (i : Nat) (s : State) : State :=
  let n := atQ d * atH d
  let va := (atOut d).va + i * n * atD d * elemBytes (atOut d).fmt
  let s := opPutCount q seq va (elemBytes (atOut d).fmt) (n * atD d)
    (putF32s q seq 0 va (atOut d).fmt d.arith 0 (List.replicate (n * atD d) fpNan) fun _ => atListPoison d i) s
  let s := if atLse d = 0 then s else putF32s q seq 0 (atLse d + 4 * i * n) 0 d.arith 0 (List.replicate n fpNan) (fun _ => atListPoison d i) s
  descDecode q seq (d.w 2 + 16 * i) s

/-- One sequence, unless something has ended the operation. -/
def atSequence (q seq : Nat) (d : Desc) (s : State) (i : Nat) : State :=
  if !(descOf s q seq).any fun d => d.stage == .started then s
  else if atSeqBad d i then atNan q seq d i s
  else
    let (ps, s) := atLoad q seq d i false ((atPages d (atSeq d i).2).map fun p => (p, atNeed d (atSeq d i).2 p)) s
    let qs := (List.range (atQ d * atH d)).map fun k => heldRow (atQry d) d (i * atQ d * atH d + k)
    let (nf, zeroed) := atNf d ps (atSeq d i).2
    let s := countNf q seq d.part (nf + (qs.map (·.nf)).sum) (zeroed + (qs.map (·.zeroed)).sum) s
    (List.range (atQ d)).foldl (fun s j => (List.range (atH d)).foldl (fun s h => atTile q seq d i ps j h s) s) s

/-- The sequence table and the page tables, read as the descriptor starts (Table 4-14); then go on. Those at other homes are asked for as they are known. -/
def atTables (q seq : Nat) (f : Desc → State → State) (s : State) : State :=
  match descOf s q seq with
  | none => s
  | some d =>
    withBytes q seq [(d.w 2, 16 * atS d)] (fun d s =>
      let pts := (List.range (atS d)).flatMap fun i =>
        let (pt, len) := atSeq d i
        if atLenOk d len then (atPages d len).map fun p => (pt + 8 * p, 8) else []
      withBytes q seq pts f s) s

/-- ATTEND: the operands are read before any output is written. -/
def atRun (q seq : Nat) (_ : Desc) (s : State) : State :=
  atTables q seq (fun d s =>
    withBytes q seq ((atQry d).ranges ++ atKvRanges s q d) (fun d s => opDone q seq ((List.range (atS d)).foldl (atSequence q seq d) s)) s) s

end Sys2Proof.Machine
end

