-- ==== Sys2Proof/Machine/Tensor.lean ====
section
/-! DEFINITION. REDUCE, QUANT, ELTWISE and OPTIM (chapter 4). -/

namespace Sys2Proof.Machine

open Sys2Proof

/-- An FP32 factor of which a zero of either sign acts as 1.0. -/
def factorOr1 (w : W32) : W32 := if f32Zero w then f32One else w

/-- x × y + z in FP32: fused, or with the product rounded first; which, R108 leaves open where the operation names neither (log entry 41). -/
def f32MulAdd (fused : Bool) (x y z : W32) : W32 := if fused then f32Fma x y z else fpAdd (f32Mul x y) z

/-- Write rows of values to a tensor, row by row. -/
def putVals (q seq : Nat) (t : Tensor) (arith : Nat) (v : W64) (rows : List (List Val)) (bad : Nat → Nat → Bool) (s : State) : State :=
  rows.zipIdx.foldl (fun s r => putRow q seq r.2 t r.2 (encodeVals t.fmt arith (fun i => rnd16 v (r.2 * t.cols + i)) r.1) (bad r.2) s) s

/-! REDUCE (R188) -/

def rdNe (d : Desc) : Nat := d.f 3 0 32
def rdTally (d : Desc) : Nat := d.f 3 32 16
def rdP (d : Desc) : Nat := d.f 3 48 8
def rdMode (d : Desc) : Nat := d.f 3 60 2
def rdClear (d : Desc) : Bool := d.f 3 63 1 == 1
def rdExpect (d : Desc) : W32 := w32 (d.f 4 0 32)
def rdStride (d : Desc) : Nat := d.f 5 0 40
def rdIn (d : Desc) : Nat := if rdMode d = 0 then 0 else d.f 5 40 4
def rdOut (d : Desc) : Tensor := { va := d.w 2, fmt := d.f 3 56 4, rows := 1, cols := rdNe d }

/-- The accumulator, or the slots. -/
def rdParts (d : Desc) : List Tensor :=
  (List.range (if rdMode d = 0 then 1 else rdP d)).map fun i => { va := d.w 1 + i * rdStride d, fmt := rdIn d, rows := 1, cols := rdNe d }

def rdCheck (s : State) (d : Desc) : Check :=
  let bad := badIf (arithBad d false) 1 ++ badIf (fmtIn 0 13 (rdOut d).fmt && isBlock (rdOut d).fmt && !(rdOut d).aligned) 16
    ++ badIf (rdNe d == 0) 24 ++ badIf (rdMode d == 1 && rdP d == 0) 30 ++ badIf (!fmtIn 0 13 (rdOut d).fmt || decide (2 ≤ rdMode d)) 31
    ++ badIf (rdMode d == 1 && rdStride d % 64 != 0) 40 ++ badIf (rdMode d == 1 && decide (1 < d.f 5 40 4)) 45
  { bad := bad, own := notOurs s d.part (rdTally d) }

def rdRanges (d : Desc) : Ranges :=
  let ps := (rdParts d).map fun t => (t.va, t.len)
  { reads := ps, writes := [((rdOut d).va, (rdOut d).len)] ++ (if rdClear d then ps else []) }

/-- The emit, and the clearing after it. -/
def rdEmit (q seq : Nat) (d : Desc) (s : State) : State :=
  let parts := (rdParts d).map fun t => (t.row d false 0).els
  let (v, s) := draw s
  let (u, s) := draw s
  let f := factorOr1 (w32 (d.f 4 32 32))
  let ne := rdNe d
  let outs := (List.range ne).map fun i =>
    f32Val (f32Mul f (f32Sum (fun k => freeSeq v (i * 1024 + k)) (parts.map fun p => match p[i]? with | some e => f32OfVal e.full | none => 0)))
  let bad := fun (_ i : Nat) => parts.any fun p => match p[i]? with | some e => e.p | none => false
  let s := opPutCount q seq (rdOut d).va (elemBytes (rdOut d).fmt) ne (putVals q seq (rdOut d) d.arith u [outs] bad) s
  let s := if rdClear d then
      let s := (rdParts d).foldl (fun s t => opPut q seq 0 t.va { bs := List.replicate t.len 0, pois := [], tally := none, e2e := false } s) s
      if (descOf s q seq).any fun d => d.stage == .started then tallyAddTo (rdTally d) (0 - rdExpect d) s else s
    else s
  opDone q seq s

def rdRun (q seq : Nat) (d : Desc) (s : State) : State :=
  let go := fun s => withBytes q seq ((rdParts d).map fun t => (t.va, t.len)) (rdEmit q seq) s
  if d.step = 0 then tallyBegin q seq (rdTally d) (rdExpect d) go s else go s

/-! QUANT (R133 to R136, R189) -/

def quCols (d : Desc) : Nat := d.f 6 0 32
def quRows (d : Desc) : Nat := d.f 6 32 32
def quSrc (d : Desc) : Tensor := { va := d.w 1, fmt := d.f 7 0 4, rows := quRows d, cols := quCols d }
def quDst (d : Desc) : Tensor := { va := d.w 2, fmt := d.f 7 4 4, rows := quRows d, cols := quCols d }
/-- Extras entries of a source block: read only with SX given and a block source. -/
def quSe (d : Desc) : Nat := if d.w 3 ≠ 0 ∧ isBlock (quSrc d).fmt then d.f 7 8 2 else 0
def quSxLen (d : Desc) : Nat := quRows d * (quSrc d).bpr * 3 * quSe d
def quDxLen (d : Desc) : Nat := quRows d * (quDst d).bpr * 3 * arExtras d.arith

def quCheck (d : Desc) : Check :=
  let okS := fmtIn 0 14 (quSrc d).fmt
  let okD := fmtIn 0 14 (quDst d).fmt
  let lap := overlap (quSrc d).va (quSrc d).len (quDst d).va (quDst d).len
  let bad := badIf (arithBad d (isBlock (quDst d).fmt)) 1 ++ badIf (okS && !(quSrc d).aligned) 8 ++ badIf (okD && !(quDst d).aligned) 16
    ++ badIf (isBlock (quDst d).fmt && arExtras d.arith != 0 && d.w 4 == 0) 32 ++ badIf (d.w 5 % 8 != 0) 40
    ++ badIf (quCols d == 0) 48 ++ badIf (quRows d == 0) 52 ++ badIf (!okS || !okD) 56 ++ badIf (quSe d == 3) 57
  { bad := badLap bad (badIf lap 8), own := false }

def quRanges (d : Desc) : Ranges :=
  { reads := [((quSrc d).va, (quSrc d).len)] ++ (if quSe d = 0 then [] else [(d.w 3, quSxLen d)])
    writes := [((quDst d).va, (quDst d).len)] ++ (if arExtras d.arith = 0 then [] else [(d.w 4, quDxLen d)]) ++ (if d.w 5 = 0 then [] else [(d.w 5, 32)]) }

/-- Add to a 64-bit word of the accounting record with an integer atomic (R135). -/
def acctAdd (q seq va n : Nat) (s : State) : State :=
  match descOf s q seq with
  | none => s
  | some d =>
    let sendTo := fun (ep off : Nat) (fa : Option Nat) (s : State) =>
      if ep = selfEp s ∧ !mustWait s off 8 true ∧ writeGate s off = .go then
        let g := (memRead off 8 s).1
        if !g.pois.isEmpty then descMeet q seq .poison s
        else
          match localPut (.desc q seq 0) d.part off fa true va { bs := leBytes 8 (leNat g.bytes + n), pois := [], tally := none, e2e := false } s with
          | (.done st, s) => descMod q seq (Desc.wrote 0 (some va) st) s
          | (_, s) => s
      else
      match sendReq (mkReq (stampKey s d.part (mkPacket s tATOMIC ep (w64 off) 16 (leBytes 8 n))) fa 2 d.part (.descWrite q seq 0 (some va))) s with
      | (.gone, s) => s
      | (.failed st, s) => descMeet q seq st s
    if d.stage ≠ .started then s
    else
      match xlate d.asid va true true s with
      | (.host port addr, s) => 
        let (bs, bad, s) := hostRead port addr 8 s
        if bad then descMeet q seq .poison s else hostWrite port addr (leBytes 8 (leNat bs + n)) false s
      | (.stage off, s) => (storeNow off va { bs := leBytes 8 (leNat (memRead off 8 s).1.bytes + n), pois := [], tally := none, e2e := false } s).2
      | (.fabric fa, s) =>
        match resolve fa d.part 2 s with
        | (.home ep off, s) => sendTo ep off (some fa) s
        | (.ownership, s) => descMeet q seq .ownership s
        | (.decode, s) => descDecode q seq va (bump Reg.fabUnmapped d.part s)
      | (_, s) => descFault q seq va s

/-- A source row's exact values with its extras, and which of its elements are poison. -/
def quRow (d : Desc) (r : Nat) : List Val × Nat × (Nat → Bool) :=
  let t := quSrc d
  let x := narrowRow t d (arNfz d.arith) (quSe d) (d.w 3) r
  let vs := x.els.zipIdx.map fun e => match x.xs.filter (fun y => y.1 == e.2) |>.getLast? with | some y => y.2 | none => e.1.full
  let recBad := fun i => quSe d != 0 && d.bad (d.w 3 + (r * t.bpr + i / blkLen t.fmt) * 3 * quSe d) (3 * quSe d)
  (vs, x.zeroed, fun i => (match x.els[i]? with | some e => e.p | none => false) || recBad i)

def quGo (q seq : Nat) (d : Desc) (s : State) : State :=
  let (v, s) := draw s
  let dst := quDst d
  let e := arExtras d.arith
  let s := (List.range (quRows d)).foldl (fun s r =>
    let (vs, zeroed, bad) := quRow d r
    let encs := encodeVals dst.fmt d.arith (fun i => rnd16 v (r * quCols d + i)) vs
    let s := whileStarted q seq (bumpN Reg.nfZeroed d.part zeroed) s
    let s := opPutCount q seq (dst.va + r * dst.cols * elemBytes dst.fmt) (elemBytes dst.fmt) dst.cols (putRow q seq r dst r encs bad) s
    if e = 0 then s
    else
      let a := d.w 4 + r * dst.bpr * 3 * e
      let js := (List.range dst.bpr).filter fun j => (List.range (min (blkLen dst.fmt) (dst.cols - j * blkLen dst.fmt))).any fun i => bad (j * blkLen dst.fmt + i)
      opPut q seq r a { bs := (encs.map (·.extra)).flatten, pois := js.flatMap fun j => wordsOf (a + j * 3 * e) (3 * e), tally := none, e2e := false } s) s
  let encs := (List.range (quRows d)).flatMap fun r => encodeVals dst.fmt d.arith (fun i => rnd16 v (r * quCols d + i)) (quRow d r).1
  let s := if d.w 5 = 0 then s
    else
      let s := acctAdd q seq (d.w 5) (quRows d * quCols d) s
      let s := acctAdd q seq (d.w 5 + 8) (encs.map (·.sat)).sum s
      let s := acctAdd q seq (d.w 5 + 16) (encs.map (·.nonfin)).sum s
      acctAdd q seq (d.w 5 + 24) (encs.map (·.taken)).sum s
  opDone q seq s

def quRun (q seq : Nat) (d : Desc) (s : State) : State :=
  withBytes q seq ((quSrc d).ranges ++ (if quSe d = 0 then [] else [(d.w 3, quSxLen d)])) (quGo q seq) s

/-! ELTWISE (R190, Table 4-11) -/

def elOp (d : Desc) : Nat := d.f 6 16 6

/-- Inputs an operation takes: 1 A, 2 A and B, 3 A, B and C; 0 for an OP not in the table. -/
def elArity (op : Nat) : Nat :=
  if [0x01, 0x02, 0x03, 0x05, 0x07, 0x08, 0x13, 0x24, 0x30, 0x31, 0x32, 0x33, 0x34].contains op then 2
  else if op = 0x04 then 3
  else if [0x00, 0x06, 0x09, 0x0A, 0x0B, 0x0C, 0x0D, 0x0E, 0x0F, 0x10, 0x11, 0x12, 0x20, 0x21, 0x22, 0x23, 0x35, 0x36].contains op then 1
  else 0

def elInt (op : Nat) : Bool := decide (0x30 ≤ op)

/-- Operations that write one element per row. -/
def elRowOp (op : Nat) : Bool := [0x20, 0x21, 0x22].contains op

/-- Operations whose output elements depend on the whole row. -/
def elWholeRow (op : Nat) : Bool := decide (0x20 ≤ op) && decide (op ≤ 0x24)

def elTensor (d : Desc) (i : Nat) : Tensor :=
  let one := (i == 1 && d.f 6 22 1 == 1) || (i == 2 && d.f 6 23 1 == 1)
  { va := d.w (i + 1), fmt := d.f 6 (4 * i) 4, rows := if one then 1 else d.f 5 32 32, cols := if i = 3 ∧ elRowOp (elOp d) then 1 else d.f 5 0 32 }

/-- The inputs an operation uses. The rules for missing inputs and overlap ask about these and the output (DEDUCED, log entry 42). -/
def elInputs (d : Desc) : List Nat := List.range (elArity (elOp d))

def elFmtOk (d : Desc) (i : Nat) : Bool := if elInt (elOp d) then (elTensor d i).fmt == 14 else fmtIn 0 13 (elTensor d i).fmt

def elCheck (d : Desc) : Check :=
  let ins := elInputs d
  let out := elTensor d 3
  let lap := fun i => overlap (elTensor d i).va (elTensor d i).len out.va out.len && !(i == 0 && out.va == (elTensor d 0).va)
  let align := fun i => elFmtOk d i && !(elTensor d i).aligned
  let bad := badIf (arithBad d false) 1 ++ badIf (ins.contains 0 && align 0) 8
    ++ badIf (ins.contains 1 && (d.w 2 == 0 || align 1)) 16 ++ badIf (ins.contains 2 && (d.w 3 == 0 || align 2)) 24
    ++ badIf (align 3) 32
    ++ badIf (!elFmtOk d 0 || !elFmtOk d 1) 48 ++ badIf (!elFmtOk d 2 || !elFmtOk d 3) 49
    ++ badIf (elArity (elOp d) == 0) 50
  { bad := badLap bad (badIf (ins.any lap) 32), own := false }

def elRanges (d : Desc) : Ranges :=
  { reads := (elInputs d).map fun i => ((elTensor d i).va, (elTensor d i).len), writes := [((elTensor d 3).va, (elTensor d 3).len)] }

/-- An element as FP32: a zero of negative sign may be read in either sign (R113). -/
def El.f32 (neg : Bool) (e : El) : W32 := if e.z && neg then 0x80000000 else f32OfVal e.full

/-- The result of an element-wise operation. -/
def elFn (op : Nat) (fused : Bool) (sc : W32) (a b c : W32) : W32 :=
  match op with
  | 0x00 => a
  | 0x01 => fpAdd a b
  | 0x02 => f32Sub a b
  | 0x03 => f32Mul a b
  | 0x04 => f32Fma a b c
  | 0x05 => f32MulAdd fused sc a b
  | 0x06 => f32Mul sc a
  | 0x07 => f32Min a b
  | 0x08 => f32Max a b
  | 0x09 => f32Max a 0
  | 0x0A => fpApply 0 a
  | 0x0B => fpApply 2 a
  | 0x0C => f32Div f32One a
  | 0x0D => f32Sqrt a
  | 0x0E => f32Rsqrt a
  | 0x0F => fpApply 4 a
  | 0x10 => fpApply 5 a
  | 0x11 => fpApply 6 a
  | 0x12 => fpApply 7 a
  | _ => f32Mul (fpApply 7 a) b

/-- Sum of squares of a row, in an order no rule fixes. -/
def sumSquares (rnd : Nat → Nat) (l : List W32) : W32 := f32Sum rnd (l.map fun a => f32Mul a a)

/-- The largest element of a row; of no element, a free value. -/
def rowMax (rnd : Nat → Nat) (l : List W32) : W32 := match l with | [] => w32 (rnd 0) | a :: t => t.foldl f32Max a

/-- The result of a row operation on a row. -/
def elRowFn (op : Nat) (rnd : Nat → Nat) (eps : W32) (as bs : List W32) : List W32 :=
  match op with
  | 0x20 => [f32Sum rnd as]
  | 0x21 => [rowMax rnd as]
  | 0x22 => [sumSquares rnd as]
  | 0x23 =>
    let m := rowMax rnd as
    let ex := as.map fun a => fpApply 0 (f32Sub a m)
    let z := f32Sum rnd ex
    ex.map fun e => f32Div e z
  | _ =>
    let r := f32Rsqrt (fpAdd (f32Div (sumSquares rnd as) (f32OfInt (Int.ofNat as.length))) eps)
    (as.zip bs).map fun x => f32Mul (f32Mul x.1 r) x.2

/-- Integer operations on 32-bit words. -/
def elIntFn (op : Nat) (sh : Nat) (a b : W32) : W32 :=
  match op with
  | 0x30 => a + b
  | 0x31 => a - b
  | 0x32 => a &&& b
  | 0x33 => a ||| b
  | 0x34 => a ^^^ b
  | 0x35 => a <<< sh
  | _ => a.sshiftRight sh

/-- The 32-bit word of an INT32 element. -/
def El.word (e : El) : W32 := BitVec.ofInt 32 (e.v.int / Int.ofNat fixOne)

/-- Row r of the output: its values, the poison of each, blocks read as zero. -/
def elRow (d : Desc) (v : W64) (r : Nat) : List Val × (Nat → Bool) × Nat :=
  let op := elOp d
  let row := fun i => if (elInputs d).contains i then (elTensor d i).row d (arNfz d.arith) (if (elTensor d i).rows = 1 then 0 else r) else Els.none
  let rnd := fun k => freeSeq v (r * 2 ^ 33 + k)
  let a := (row 0).els
  let b := (row 1).els
  let c := (row 2).els
  let f := fun (l : List El) (j i : Nat) => match l[i]? with | some e => e.f32 (Config.negZeroRead (elTensor d j).fmt) | none => 0
  let n := (elTensor d 0).cols
  let pAt := fun (l : List El) i => match l[i]? with | some e => e.p | none => false
  let s1 := w32 (d.f 6 32 32)
  let vals := if elInt op then
      (List.range n).map fun i => (match a[i]? with | some x => .fin ((elIntFn op (s1.toNat % 32) x.word (match b[i]? with | some y => y.word | none => 0)).toInt * Int.ofNat fixOne) | none => .fin 0)
    else if elWholeRow op then (elRowFn op rnd (w32 (d.f 7 0 32)) ((List.range n).map (f a 0)) ((List.range n).map (f b 1))).map f32Val
    else (List.range n).map fun i => f32Val (elFn op (Config.axpyFused s1 (f a 0 i) (f b 1 i)) s1 (f a 0 i) (f b 1 i) (f c 2 i))
  let whole := elWholeRow op && a.any fun e => e.p
  (vals, fun i => whole || (if elRowOp op then false else pAt a i || pAt b i || pAt c i), (row 0).zeroed + (row 1).zeroed + (row 2).zeroed)

def elGo (q seq : Nat) (d : Desc) (s : State) : State :=
  let (v, s) := draw s
  let (u, s) := draw s
  let out := elTensor d 3
  let s := (List.range out.rows).foldl (fun s r =>
    let (vals, bad, zeroed) := elRow d v r
    opPutCount q seq (out.va + r * out.cols * elemBytes out.fmt) (elemBytes out.fmt) out.cols
      (putRow q seq r out r (encodeVals out.fmt d.arith (fun i => rnd16 u (r * out.cols + i)) vals) bad)
      (whileStarted q seq (bumpN Reg.nfZeroed d.part zeroed) s)) s
  opDone q seq s

def elRun (q seq : Nat) (d : Desc) (s : State) : State := withBytes q seq ((elInputs d).flatMap fun i => (elTensor d i).ranges) (elGo q seq) s

/-! OPTIM (R191, R192) -/

def ocCols (d : Desc) : Nat := d.f 7 0 16
def ocN (d : Desc) : Nat := d.f 7 16 32
def ocFp (d : Desc) : Nat := d.f 7 48 4
def ocFg (d : Desc) : Nat := d.f 7 52 4
def ocFs (d : Desc) : Nat := d.f 7 56 4
def ocAlgo (d : Desc) : Nat := d.f 7 60 3
def ocList (d : Desc) : Nat := d.w 5
def ocIdx (d : Desc) : Nat := if d.f 7 63 1 = 1 then 8 else 4

def ocCheck (d : Desc) : Check :=
  let bad := badIf (arithBad d false) 1 ++ badIf (d.w 6 % 64 != 0) 48 ++ badIf (ocCols d == 0) 56 ++ badIf (!fmtIn 0 2 (ocFp d) || !fmtIn 0 1 (ocFg d)) 62
    ++ badIf (!fmtIn 0 1 (ocFs d) || decide (3 ≤ ocAlgo d)) 63
  { bad := bad, own := false }

/-- Bytes of a row of parameters, gradients, state. -/
def ocRowP (d : Desc) : Nat := ocCols d * elemBytes (ocFp d)
def ocRowG (d : Desc) : Nat := ocCols d * elemBytes (ocFg d)
def ocRowS (d : Desc) : Nat := if ocAlgo d = 1 then 4 else ocCols d * elemBytes (ocFs d)

/-- The rows that a list reaches cover the whole address space (R166). -/
def ocRanges (d : Desc) : Ranges :=
  let st := [(d.w 3, ocN d * ocRowS d)] ++ (if ocAlgo d = 2 then [(d.w 4, ocN d * ocRowS d)] else [])
  let g := [(d.w 2, ocN d * ocRowG d), (d.w 6, 64)]
  if ocList d = 0 then { reads := g ++ [(d.w 1, ocN d * ocRowP d)] ++ st, writes := [(d.w 1, ocN d * ocRowP d)] ++ st }
  else { reads := g ++ [(ocList d, ocN d * ocIdx d)] ++ allSpace, writes := allSpace }

def ocRowsIn (d : Desc) : Nat := leNat (d.at (d.w 6 + 32) 8)

/-- Row index of visit i. -/
def ocRow (d : Desc) (i : Nat) : Nat := if ocList d = 0 then i else leNat (d.at (ocList d + i * ocIdx d) (ocIdx d))

/-- A row of a format without blocks as FP32, from beside the descriptor. -/
def f32Row (d : Desc) (va fmt n : Nat) (rnd : Nat → Nat) : List W32 :=
  (List.range n).map fun i =>
    let c := leNat (d.at (va + i * elemBytes fmt) (elemBytes fmt))
    if isNegZero fmt c && rnd i % 2 == 1 then 0x80000000 else f32OfVal (elemVal fmt c)

/-- The hyperparameter block (Table 4-13). -/
structure Hyper where
  lr : W32
  b1 : W32
  b2 : W32
  eps : W32
  wd : W32
  gscale : W32
  step : W32
  skipNf : Bool
  deriving DecidableEq, Repr

def hyperAt (d : Desc) (va : Nat) : Hyper :=
  let w := fun o => w32 (leNat (d.at (va + o) 4))
  { lr := w 0, b1 := w 4, b2 := w 8, eps := w 12, wd := w 16, gscale := w 20, step := w 24, skipNf := (w 28).getLsbD 0 }

/-- 1 − β^STEP with EXP2 and LOG2. -/
def ocCorr (beta : W32) (t : W32) : W32 := f32Sub f32One (fpApply 1 (f32Mul (f32OfInt (Int.ofNat t.toNat)) (fpApply 3 beta)))

/-- New parameters and states of a row for the gradient g, already scaled (R191). -/
def rowUpdate (algo : Nat) (h : Hyper) (fused : Bool) (rnd : Nat → Nat) (p g s1 s2 : List W32) : List W32 × List W32 × List W32 :=
  let ma := f32MulAdd fused
  match algo with
  | 0 =>
    let g := (g.zip p).map fun x => ma h.wd x.2 x.1
    let v := (s1.zip g).map fun x => ma h.b1 x.1 x.2
    ((p.zip v).map fun x => ma (f32Neg h.lr) x.2 x.1, v, [])
  | 1 =>
    let g := (g.zip p).map fun x => ma h.wd x.2 x.1
    let a := fpAdd (s1.headD 0) (f32Div (sumSquares rnd g) (f32OfInt (Int.ofNat p.length)))
    let den := fpAdd (f32Sqrt a) h.eps
    ((p.zip g).map fun x => f32Sub x.1 (f32Div (f32Mul h.lr x.2) den), [a], [])
  | _ =>
    let m := (s1.zip g).map fun x => ma h.b1 x.1 (f32Mul (f32Sub f32One h.b1) x.2)
    let v := (s2.zip g).map fun x => ma h.b2 x.1 (f32Mul (f32Mul (f32Sub f32One h.b2) x.2) x.2)
    let c1 := ocCorr h.b1 h.step
    let c2 := ocCorr h.b2 h.step
    (((p.zip (m.zip v)).map fun x =>
      ma (f32Neg h.lr) (ma h.wd x.1 (f32Div (f32Div x.2.1 c1) (fpAdd (f32Sqrt (f32Div x.2.2 c2)) h.eps))) x.1), m, v)

/-- Keep what a row's update wrote beside the descriptor: a later visit of the row reads it. -/
def ocKeep (q seq va : Nat) (bs : List Byte) (bad : Bool) (s : State) : State :=
  descMod q seq (fun d => { d with remote := depositBytes va bs d.remote, remotePoison := if bad then wordsOf va bs.length ++ d.remotePoison else d.remotePoison }) s

/-- Write a row or state and keep it. -/
def ocPut (q seq unit va fmt : Nat) (arith : Nat) (v : W64) (ys : List W32) (bad : Bool) (s : State) : State :=
  let bs := (ys.zipIdx.map fun y => f32Bytes fmt arith (rnd16 v y.2) y.1).flatten
  ocKeep q seq va bs bad (opPut q seq unit va { bs := bs, pois := if bad then wordsOf va bs.length else [], tally := none, e2e := false } s)

/-- The places of a row. -/
def ocAddr (d : Desc) (r i : Nat) : Nat × Nat × Nat × Nat := (d.w 1 + r * ocRowP d, d.w 2 + i * ocRowG d, d.w 3 + r * ocRowS d, d.w 4 + r * ocRowS d)

/-- One visit. Its writes carry its number, so that COUNT leaves out the rows of which a write failed. -/
def ocVisit (q seq : Nat) (s : State) (i : Nat) : State :=
  match descOf s q seq with
  | none => s
  | some d =>
    let r := ocRow d i
    if d.stage ≠ .started then s
    else if ocRowsIn d ≤ r then
      descDecode q seq (if ocList d = 0 then d.w 1 + r * ocRowP d else ocList d + i * ocIdx d) s
    else
      let (pv, gv, sv, tv) := ocAddr d r i
      let (v, s) := draw s
      let rnd := fun k => freeSeq v k
      let grad := f32Row d gv (ocFg d) (ocCols d) rnd
      if (hyperAt d (d.w 6)).skipNf && grad.any fun x => !f32Finite x then s
      else
        let fs := if ocAlgo d = 1 then 0 else ocFs d
        let ns := if ocAlgo d = 1 then 1 else ocCols d
        let bad := d.bad pv (ocRowP d) || d.bad gv (ocRowG d) || d.bad sv (ocRowS d) || (ocAlgo d == 2 && d.bad tv (ocRowS d))
          || (ocList d != 0 && d.bad (ocList d + i * ocIdx d) (ocIdx d)) || d.bad (d.w 6) 40
        let g := grad.map fun x => f32Mul (factorOr1 (hyperAt d (d.w 6)).gscale) x
        let s2 := if ocAlgo d = 2 then f32Row d tv fs ns (fun k => rnd (k + 2 ^ 20)) else []
        let (p, a, b) := rowUpdate (ocAlgo d) (hyperAt d (d.w 6)) (rnd (2 ^ 30) % 2 == 1) (fun k => rnd (k + 2 ^ 31)) (f32Row d pv (ocFp d) (ocCols d) (fun k => rnd (k + 2 ^ 18))) g (f32Row d sv fs ns (fun k => rnd (k + 2 ^ 19))) s2
        let (u, s) := draw s
        let s := if bad then descMeet q seq .poison s else s
        let s := ocPut q seq i pv (ocFp d) d.arith u p bad s
        let s := ocPut q seq i sv fs d.arith (u + w64 (2 ^ 20)) a bad s
        let s := if ocAlgo d = 2 then ocPut q seq i tv fs d.arith (u + w64 (2 ^ 21)) b bad s else s
        descMod q seq (fun d => { d with count := d.count + 1 }) s

/-- What the visits read. -/
def ocNeeds (d : Desc) : List (Nat × Nat) :=
  (List.range (ocN d)).flatMap fun i =>
    let r := ocRow d i
    let (pv, gv, sv, tv) := ocAddr d r i
    if ocRowsIn d ≤ r then [] else [(pv, ocRowP d), (gv, ocRowG d), (sv, ocRowS d)] ++ (if ocAlgo d = 2 then [(tv, ocRowS d)] else [])

/-- OPTIM: the hyperparameter block first; a STEP of 0 gives DECODE for Adam, with DETAIL its address (log entry 43). -/
def ocRun (q seq : Nat) (d : Desc) (s : State) : State :=
  withBytes q seq ((d.w 6, 64) :: if ocList d = 0 then [] else [(ocList d, ocN d * ocIdx d)]) (fun d s =>
    if ocAlgo d = 2 ∧ (hyperAt d (d.w 6)).step = 0 then opEnd q seq 0 (descDecode q seq (d.w 6 + 24) s)
    else
      withBytes q seq (ocNeeds d) (fun d s =>
        opDone q seq ((List.range (ocN d)).foldl (ocVisit q seq) s)) s) s

end Sys2Proof.Machine
end

