-- ==== Sys2Proof/Machine/Cut.lean ====
section
/-! DEFINITION. Embedding tables, the cut unit, SORTUNIQ and the row sketch (chapters 2 and 5). -/

namespace Sys2Proof.Machine

open Sys2Proof

/-! Table images (Table 5-1) -/

def tblFmt (im : List Byte) : Nat := qf im 1 0 4
def tblFmtS (im : List Byte) : Nat := qf im 1 4 4
def tblDim (im : List Byte) : Nat := qf im 1 18 15
def tblRows (im : List Byte) : Nat := qf im 2 0 40
def tblSelf (im : List Byte) : Nat := qf im 1 46 10
def tblSpanLog (im : List Byte) : Nat := qf im 1 56 6
def tblLandEn (im : List Byte) : Bool := qf im 1 35 1 == 1
def tblLandLog (im : List Byte) : Nat := qf im 5 0 6
def tblLandTally (im : List Byte) : Nat := qf im 5 16 16

/-- This hub is a member of the table's hub set. -/
def tblMember (im : List Byte) : Bool := tblSelf im != 1023

/-- Bytes a row needs (R198). -/
def rowNeed (im : List Byte) : Nat :=
  let f := tblFmt im
  if isBlock f then ceilDiv (tblDim im) (blkLen f) * (planeBytes f + 1) else tblDim im * elemBytes f

/-- Owner member of a row (R201). -/
def rowOwner (im : List Byte) (r : Nat) : Nat := (r % tblN im + hashH (r / tblN im)) % tblN im

/-- Fabric address of a row's owner copy (R199, R201). -/
def rowFa (t : Table) (r : Nat) : Nat := (qw t.image 3 + rowOwner t.image r * 2 ^ tblSpanLog t.image + rowSlotIdx t r * rowWidth t.image) % 2 ^ 64

/-- Slots of a member's copy. -/
def tblSlots (im : List Byte) (mode : Nat) : Nat := if mode = 2 then ceilDiv (tblRows im) (tblN im) else tblRows im

/-- Bytes of a landing record (R219). -/
def landRb (im : List Byte) : Nat := 16 + 16 * ceilDiv (tblDim im * 4) 16

/-- Records that a zone holds (R220). -/
def landCap (im : List Byte) : Nat := (2 ^ tblLandLog im - 64) / landRb im

/-! Table commands (R197, R202, R203) -/

def tblNum (s : State) (i : Nat) : Nat := rfld s Reg.tblCmd i 16 14
def tblImageOff (s : State) (i : Nat) : Nat := (rget s Reg.tblImageLo i).toNat / 64 * 64 + rfld s Reg.tblImageHi i 0 18 * 2 ^ 32

/-- The mode of a table: given, or from the flags of its allocation and the threshold of the script image; a table no larger than that is replicated
(R37, R200; which side of the threshold, DESIGN CHOICE, log entry 44). None where the image contradicts itself. -/
def tblMode (s : State) (im : List Byte) (al : Option Alloc) : Option Nat :=
  let m := qf im 1 62 2
  if !tblMember im then (if m = 1 ∨ m = 2 then some m else none)
  else
    match al with
    | none => none
    | some al =>
      let repl := bit al.flags 7
      let shard := bit al.flags 8
      if m = 0 then
        if repl then some 1 else if shard then some 2
        else some (if tblRows im * rowWidth im ≤ (match s.boot.image with | some i => i.replMib | none => 0) * 2 ^ 20 then 1 else 2)
      else if m = 3 ∨ (m = 1 ∧ shard ∧ !repl) ∨ (m = 2 ∧ repl ∧ !shard) then none
      else some m

/-- A field outside Table 5-1. -/
def tblFieldsBad (im : List Byte) : Bool :=
  let f := tblFmt im
  !([0, 1, 2, 3, 4, 5, 8, 10].contains f) || decide (1 < tblFmtS im) || tblDim im == 0 || decide (16384 < tblDim im) || qf im 1 36 10 == 0
    || decide (tblSpanLog im < 21) || decide (50 < tblSpanLog im) || qf im 1 62 2 == 3 || tblRows im == 0 || qw im 3 % 2 ^ tblSpanLog im != 0
    || (tblLandEn im && (decide (tblLandLog im < 12) || decide (40 < tblLandLog im) || qw im 4 % 2 ^ tblLandLog im != 0))
    || !(decide (tblSelf im < tblN im) || tblSelf im == 1023) || decide (rowWidth im < rowNeed im)

/-- Allocations a member's image names: number, whether it is used. -/
def tblAllocs (im : List Byte) : List Nat :=
  if !tblMember im then []
  else [qf im 0 0 16] ++ (if qf im 1 33 1 = 1 then [qf im 0 16 16] else []) ++ (if qf im 1 34 1 = 1 then [qf im 0 32 16] else [])
    ++ (if tblLandEn im then [qf im 0 48 16] else [])

def liveAlloc (s : State) (a : Nat) : Option Alloc := match allocOf s a with | some al => if al.draining then none else some al | none => none

/-- A member's allocations do not fit (R202). -/
def tblAllocsBad (s : State) (im : List Byte) (mode : Nat) : Bool :=
  tblMember im &&
    ((match liveAlloc s (qf im 0 0 16) with | some al => fProject al.flags || decide (al.pages * pageSize < tblSlots im mode * rowWidth im) | none => true) ||
      (tblLandEn im && match liveAlloc s (qf im 0 48 16) with | some al => decide (al.pages * pageSize < 2 ^ tblLandLog im) | none => true))

/-- One of some allocations is another partition's. -/
def allocsElse (s : State) (part : Nat) (as : List Nat) : Bool := as.any fun a => match liveAlloc s a with | some al => al.part != part | none => false

/-- A named allocation or tally of another partition; a tally of none counts as one (R302). -/
def tblForeign (s : State) (part : Nat) (im : List Byte) : Bool :=
  allocsElse s part (tblAllocs im)
    || (tblLandEn im && notOurs s part (tblLandTally im)) || (qf im 5 48 1 == 1 && notOurs s part (qf im 5 32 16))

/-- CREATE: the image lies in an allocation of the partition (R197); an image read as poison is no image (log entry 45). -/
def tblCreateRun (i : Nat) (s : State) : State :=
  let num := tblNum s i
  let off := tblImageOff s i
  match mget num s.eng.tables with
  | some _ => cmdEnd Reg.tblCmd i .decode s
  | none =>
    match addrOf s off 64 with
    | .store a =>
      if addrPart s (.store a) ≠ i then cmdEnd Reg.tblCmd i .ownership s
      else
        let (g, s) := memRead off 64 s
        let im := g.bytes
        let mode := tblMode s im (liveAlloc s (qf im 0 0 16))
        if !g.pois.isEmpty || tblFieldsBad im || mode.isNone || tblAllocsBad s im (mode.getD 1) then cmdEnd Reg.tblCmd i .decode s
        else if tblForeign s i im then cmdEnd Reg.tblCmd i .ownership s
        else
          let t : Table := { part := i, image := im, mode := mode.getD 1, stale := false, banned := [], ending := false, users := [] }
          cmdEnd Reg.tblCmd i .ok { s with eng := { s.eng with tables := mset num t s.eng.tables } }
    | _ => cmdEnd Reg.tblCmd i .decode s

/-- A command on a table of the partition. -/
def namedTable (i : Nat) (s : State) (f : Nat → State → State) : State :=
  match mget (tblNum s i) s.eng.tables with
  | none => cmdEnd Reg.tblCmd i .decode s
  | some t => if t.part ≠ i then cmdEnd Reg.tblCmd i .ownership s else if t.ending then cmdEnd Reg.tblCmd i .decode s else f (tblNum s i) s

/-- A descriptor has started and not completed. -/
def Desc.running (d : Desc) : Bool := [DescStage.started, .waiting, .ran].contains d.stage

/-- The descriptors p accepts that have started and not completed: queue and number. -/
def runningDescs (s : State) (p : Desc → Bool) : List (Nat × Nat) :=
  s.eng.queues.flatMap fun q => (q.2.descs.filter fun d => d.running && p d).map fun d => (q.1, d.seq)

/-- One of some descriptors has not completed. -/
def stillRunning (s : State) (us : List (Nat × Nat)) : Bool := us.any fun u => (descOf s u.1 u.2).any Desc.running

/-- GATHER and SCATTER_UPDATE use the table they name. -/
def usesTable (num : Nat) (d : Desc) : Bool := (d.opcode == 0x20 || d.opcode == 0x21) && d.f 1 0 14 == num

/-- A table that DESTROY ends goes when its last user completes (R203). -/
def tableEnd (num : Nat) (s : State) : State :=
  match mget num s.eng.tables with
  | some t =>
    if t.ending && !stillRunning s t.users then
      let n := (s.rows.replicas.filter fun e => e.1 / 2 ^ 40 == num).length
      cmdFinish Reg.tblCmd t.part (tblNum s t.part == num) (tableGone num (bumpN Reg.beReplRetired 0 n s))
    else s
  | none => s

/-- Every table that only waits for its users. -/
def tablesEnd (s : State) : State := s.eng.tables.foldl (fun s t => tableEnd t.1 s) s

/-- DESTROY: its row moves end, its replicas retire (R90, R93). -/
def tblDestroyRun (i : Nat) (s : State) : State :=
  namedTable i s fun num s =>
    let s := setBusy Reg.tblCmd i true s
    tableEnd num
      { s with
        eng := { s.eng with tables := mmod num (fun t => { t with ending := true, users := runningDescs s (usesTable num) }) s.eng.tables }
        rows := { s.rows with
          moves := s.rows.moves.filter fun e => e.1 / 2 ^ 40 != num
          replicas := mmapv (fun k r => if k / 2 ^ 40 = num then { r with retiring := true } else r) s.rows.replicas } }

/-- CLEAR_STALE: the receivers left out may be granted replicas again (R225). -/
def tblClearRun (i : Nat) (s : State) : State :=
  namedTable i s fun num s =>
    cmdEnd Reg.tblCmd i .ok { s with eng := { s.eng with tables := mmod num (fun t => { t with stale := false, banned := [] }) s.eng.tables } }

/-! The row sketch (R73) -/

/-- Key of a counter of the sketch: hash row × 65,536 + counter. -/
def sketchKey (j : Fin 4) (k : Nat) : Nat := j.val * 65536 + (Config.sketchHash j k).toNat

def heatOf (m : NMap (Nat × Nat)) (k : Nat) : Nat := (mgetD (0, 0) k m).1 + (mgetD (0, 0) k m).2

/-- The sketch's estimate of a row. -/
def sketchEstimate (s : State) (k : Nat) : Nat :=
  ([0, 1, 2, 3].map fun j : Fin 4 => heatOf s.rows.sketch (sketchKey j k)).foldl min (2 ^ 64)

/-- Count n occurrences of a row: its counters, and its entry in the heavy-hitter list, where the coldest entry is displaced (Table 2-5). -/
def sketchAdd (k n : Nat) (s : State) : State :=
  let add := fun (m : NMap (Nat × Nat)) (x : Nat) => let e := mgetD (0, 0) x m; mset x (e.1, e.2 + n) m
  let s := { s with rows := { s.rows with sketch := ([0, 1, 2, 3].map fun j : Fin 4 => sketchKey j k).foldl add s.rows.sketch } }
  let h := s.rows.heavy
  if mhas k h then { s with rows := { s.rows with heavy := add h k } }
  else
    let est := sketchEstimate s k
    let entry := (est - n, n)
    if h.length < 16384 then { s with rows := { s.rows with heavy := mset k entry h } }
    else
      match h with
      | [] => s
      | e :: t =>
        let cold := t.foldl (fun c x => if x.2.1 + x.2.2 < c.2.1 + c.2.2 then x else c) e
        if cold.2.1 + cold.2.2 < est then { s with rows := { s.rows with heavy := mset k entry (mdel cold.1 h) } } else s

/-! The cut unit (R206 to R210) -/

/-- A window of 2^w entries fits a cut unit's share of the sort buffers (R208). -/
def windowFits (s : State) (w : Nat) : Bool :=
  decide (10 ≤ w) && decide (w ≤ 20) && match s.boot.image with | some im => decide (16 * 2 ^ w ≤ im.sortKib * 1024) | none => false

/-- Insert a list position under its row index; rows ascend. -/
def cutInsert (r pos : Nat) : List (Nat × List Nat) → List (Nat × List Nat)
  | [] => [(r, [pos])]
  | (k, ps) :: t => if r < k then (r, [pos]) :: (k, ps) :: t else if r = k then (k, ps ++ [pos]) :: t else (k, ps) :: cutInsert r pos t

/-- The unique rows of a window, ascending, each with the positions of its occurrences (R207). -/
def cutWindow (es : List (Nat × Nat)) : List (Nat × List Nat) := es.foldl (fun l e => cutInsert e.1 e.2 l) []

/-- The counters of cut unit u for one window of n entries (R210, Table 5-14). -/
def cutCount (part u n : Nat) (uniq : List (Nat × List Nat)) (s : State) : State :=
  let fan := (uniq.map fun x => x.2.length).foldl max 0
  let s := bump Reg.embWindows part (bump (Reg.cutWin + 16 * u) 0 s)
  let s := bumpN (Reg.cutUniq + 16 * u) 0 uniq.length (bumpN (Reg.cutIdx + 16 * u) 0 n s)
  cset (Reg.cutMaxfan + 16 * u) 0 (max (cget s (Reg.cutMaxfan + 16 * u) 0) fan) s

/-- The largest fan-out among windows and a row that has it, in the layout of R210; among equals the row is free. -/
def maxFan (ws : List (List (Nat × List Nat))) (s : State) : Nat × State :=
  let fan := ((ws.flatten).map fun x => x.2.length).foldl max 0
  let rows := ((ws.flatten).filter fun x => x.2.length == fan).map (·.1)
  let (i, s) := drawBelow rows.length s
  (rows.getD i 0 % 2 ^ 40 + fan % 2 ^ 24 * 2 ^ 40, s)

/-- The counter-threshold trigger of R210. -/
def fanTrigger (part detail : Nat) (s : State) : State :=
  let level := rfld s Reg.embCfg 0 0 21
  if level ≠ 0 ∧ level ≤ detail / 2 ^ 40 then trigger 11 (w64 detail) (some part) 0 s else s

/-! Index lists (R204, R205) -/

def ixSize (d : Desc) : Nat := if d.f 1 16 1 = 1 then 8 else 4

/-- Entry i of a list. -/
def ixAt (d : Desc) (va i : Nat) : Nat := leNat (d.at (va + i * ixSize d) (ixSize d))

/-- The value with every bit set. -/
def ixNull (d : Desc) : Nat := 2 ^ (8 * ixSize d) - 1

/-! SORTUNIQ (R216) -/

def suWin (d : Desc) : Nat := d.f 1 24 5
def suN (d : Desc) : Nat := d.f 3 0 32
def suOuts (d : Desc) : List (Nat × Nat) :=
  [(d.w 4, suN d * ixSize d)] ++ (if d.w 5 = 0 then [] else [(d.w 5, suN d * 4)]) ++ (if d.w 6 = 0 then [] else [(d.w 6, suN d * 4)])

def suCheck (s : State) (d : Desc) : Check :=
  let n := suN d
  let lap := fun (va len : Nat) => overlap va len (d.w 2) (n * ixSize d)
  let bad := badIf (arithBad d false) 1 ++ badIf (!windowFits s (suWin d)) 11 ++ badIf (d.w 2 % ixSize d != 0) 16 ++ badIf (n == 0 || decide (2 ^ suWin d < n)) 24
  let laps := badIf (lap (d.w 4) (n * ixSize d)) 32 ++ badIf (d.w 5 != 0 && lap (d.w 5) (n * 4)) 40 ++ badIf (d.w 6 != 0 && lap (d.w 6) (n * 4)) 48
  { bad := badLap bad laps, own := false }

def suRanges (d : Desc) : Ranges := { reads := [(d.w 2, suN d * ixSize d)], writes := suOuts d }

/-- SORTUNIQ: one window on one cut unit of the home reel's studio; which of the two is free. Every output depends on the whole list. -/
def suGo (q seq : Nat) (d : Desc) (s : State) : State :=
  let n := suN d
  let idx := (List.range n).map (ixAt d (d.w 2))
  let uniq := cutWindow (idx.zipIdx.filter fun e => e.1 != ixNull d)
  let (b, s) := drawBit s
  let s := cutCount d.part (q / 64 / 16 * 2 + b2n b) n uniq s
  let bad := d.bad (d.w 2) (n * ixSize d)
  let put := fun (va : Nat) (bs : List Byte) (s : State) => opWrite q seq va bs (if bad then wordsOf va bs.length else []) s
  let s := put (d.w 4) (uniq.flatMap fun x => leBytes (ixSize d) x.1) s
  let s := if d.w 5 = 0 then s else put (d.w 5) (uniq.flatMap fun x => leBytes 4 x.2.length) s
  let s := if d.w 6 = 0 then s
    else put (d.w 6) (idx.flatMap fun x => leBytes 4 (if x = ixNull d then 0xFFFFFFFF else uniq.findIdx fun y => y.1 == x)) s
  opEnd q seq uniq.length s

end Sys2Proof.Machine
end

