-- ==== Sys2Proof/Machine/Gather.lean ====
section
/-! DEFINITION. GATHER: windows, the fetch of unique rows by the dollies, pooling (chapter 5). -/

namespace Sys2Proof.Machine

open Sys2Proof

/-! Fields (Tables 5-3 and 5-5 share these positions) -/

def gaTable (d : Desc) : Nat := d.f 1 0 14
def gaPool (d : Desc) : Nat := d.f 1 17 3
def gaWin (d : Desc) : Nat := d.f 1 24 5
def gaBagLen (d : Desc) : Nat := d.f 1 32 32
def gaN (d : Desc) : Nat := d.f 3 0 32
def gaBags (d : Desc) : Nat := d.f 3 32 32
def gaOff (d : Desc) : Nat := d.w 4
def gaWts (d : Desc) : Nat := d.w 5
def gaStride (d : Desc) : Nat := d.f 7 0 32

def tableOf (s : State) (d : Desc) : Option Table := mget (gaTable d) s.eng.tables

/-- The table a descriptor names is there and not destroyed (R203, R215). -/
def tableBad (s : State) (d : Desc) : Bool := match tableOf s d with | some t => t.ending | none => true

def tableElse (s : State) (d : Desc) : Bool := match tableOf s d with | some t => t.part != d.part | none => false

/-- The list, the offsets and the weights that a descriptor reads. -/
def gaLists (d : Desc) (bags weights : Bool) : List (Nat × Nat) :=
  [(d.w 2, gaN d * ixSize d)] ++ (if bags && gaOff d != 0 then [(gaOff d, 4 * (gaBags d + 1))] else []) ++ (if weights then [(gaWts d, 4 * gaN d)] else [])

/-- Output vectors of a GATHER: one per bag, or per entry under NONE. -/
def gaVectors (d : Desc) : Nat := if gaPool d = 0 then gaN d else gaBags d

def gaCheck (s : State) (d : Desc) : Check :=
  let dim := match tableOf s d with | some t => tblDim t.image | none => 1
  let fo := d.f 1 20 4
  let es := elemBytes fo
  let out := (d.w 6, if gaVectors d = 0 then 0 else (gaVectors d - 1) * gaStride d + dim * es)
  let lap := (gaLists d (gaPool d != 0) (gaPool d == 4)).any fun r => overlap r.1 r.2 out.1 out.2
  let bad := badIf (arithBad d false) 1 ++ badIf (tableBad s d) 8 ++ badIf (decide (4 < gaPool d) || decide (4 < fo)) 10 ++ badIf (!windowFits s (gaWin d)) 11
    ++ badIf (gaPool d != 0 && gaOff d == 0 && gaBags d * gaBagLen d != gaN d) 12 ++ badIf (d.w 2 % ixSize d != 0) 16 ++ badIf (gaN d == 0) 24
    ++ badIf (gaPool d != 0 && gaBags d == 0) 28 ++ badIf (gaPool d == 4 && gaWts d == 0) 40
    ++ badIf (decide (gaStride d < dim * es) || gaStride d % es != 0) 56
  let own := match tableOf s d with | some t => tblMember t.image && allocsElse s d.part [qf t.image 0 0 16] | none => false
  { bad := badLap bad (badIf lap 48), own := tableElse s d || own }

/-- The rows of a table are reached through a list (R166). -/
def gaRanges (s : State) (d : Desc) : Ranges :=
  let dim := match tableOf s d with | some t => tblDim t.image | none => 1
  { reads := allSpace, writes := [(d.w 6, if gaVectors d = 0 then 0 else (gaVectors d - 1) * gaStride d + dim * elemBytes (d.f 1 20 4))] }

/-! Entries and windows -/

/-- The entries of a list that are neither null nor out of range: row, position. -/
def goodEntries (d : Desc) (rows : Nat) : List (Nat × Nat) :=
  ((List.range (gaN d)).map fun i => (ixAt d (d.w 2) i, i)).filter fun e => e.1 != ixNull d && decide (e.1 < rows)

/-- Whether list entry i is out of range. -/
def outOfRange (d : Desc) (rows i : Nat) : Bool := ixAt d (d.w 2) i != ixNull d && decide (rows ≤ ixAt d (d.w 2) i)

/-- Windows of 2^w list positions, each as its unique rows (R206, R207). -/
def windowsOf (n w : Nat) (es : List (Nat × Nat)) : List (List (Nat × List Nat)) :=
  (List.range (ceilDiv n (2 ^ w))).map fun k => cutWindow (es.filter fun e => e.2 / 2 ^ w == k)

/-- Entry b of the offsets. -/
def bagOff (d : Desc) (b : Nat) : Nat := leNat (d.at (gaOff d + 4 * b) 4)

/-- The list positions of bag b; none where its bounds break R205. -/
def bagRange (d : Desc) (b : Nat) : Option (Nat × Nat) :=
  if gaOff d = 0 then some (b * gaBagLen d, (b + 1) * gaBagLen d)
  else
    let lo := bagOff d b
    let hi := bagOff d (b + 1)
    if (b = 0 ∧ lo ≠ 0) ∨ hi < lo ∨ gaN d < hi ∨ (b + 1 = gaBags d ∧ hi ≠ gaN d) then none else some (lo, hi)

/-- The bags whose bounds break R205. -/
def brokenBags (d : Desc) (bags : Bool) : List Nat := if bags then (List.range (gaBags d)).filter fun b => (bagRange d b).isNone else []

/-- Address of the offset that breaks a bag. -/
def bagFault (d : Desc) (b : Nat) : Nat := if b = 0 ∧ bagOff d 0 ≠ 0 then gaOff d else gaOff d + 4 * (b + 1)

/-- Offsets of a bag were read as poison. -/
def bagPoison (d : Desc) (b : Nat) : Bool := gaOff d != 0 && d.bad (gaOff d + 4 * b) 8


/-- The window counters of a descriptor and the rows' occurrences in the sketch (R73, R210). -/
def countWindows (q : Nat) (d : Desc) (num : Nat) (ws : List (List (Nat × List Nat))) (n : Nat) (s : State) : State :=
  ws.zipIdx.foldl (fun s w =>
    let u := (cutUnits q d.span).1 + w.2 % (cutUnits q d.span).2
    let s := cutCount d.part u (min (2 ^ gaWin d) (n - w.2 * 2 ^ gaWin d)) w.1 s
    w.1.foldl (fun s x => sketchAdd (rowKey num x.1) x.2.length s) s) s

/-! The fetch of unique rows (R211, R212) -/

/-- Pieces of a row of n bytes: reads of up to 256 B. -/
def rowReads (n : Nat) : List (Nat × Nat) := (List.range (ceilDiv n 256)).map fun i => (256 * i, min 256 (n - 256 * i))

/-- Row reads that dolly n has outstanding. -/
def dollyOut (s : State) (n : Nat) : Nat :=
  (s.fab.reqs.filter fun r => match r.owner with
    | .descRead q seq va _ => (match descOf s q seq with
      | some d => decide (2 ^ 65 ≤ va) && d.opcode == 0x20 && rowDolly q d.span va == n
      | none => false)
    | _ => false).length

/-- Partitions of which a descriptor has a row to read at dolly n. -/
def dollyWaiting (s : State) (n : Nat) : List Nat :=
  (s.eng.queues.flatMap fun q => (q.2.descs.filter fun d => d.unread.any fun u => rowDolly q.1 d.span (rowVa u.1 u.2) == n).map (·.part)).dedup

/-- Read a piece of row r for window w from this hub's own copy or the owner's (R212). -/
def rowPiece (q seq w r : Nat) (t : Table) (d : Desc) (pc : Nat × Nat) (s : State) : Piece × State :=
  let va := rowVa w r + pc.1
  if tblMember t.image && (t.mode == 1 || rowOwner t.image r == tblSelf t.image) then
    match liveAlloc s (qf t.image 0 0 16) with
    | some _ => localGet (.desc q seq 0) d.part (rowOffset s t r + pc.1) none true va pc.2 s
    | none => lostData va pc.2 .decode s
  else
    let fa := (rowFa t r + pc.1) % 2 ^ 64
    match resolve fa d.part 0 s with
    | (.home ep off, s) => homeGet (.desc q seq 0) d.part ep off (some fa) va pc.2 s
    | (.decode, s) => lostData va pc.2 .decode s
    | (.ownership, s) => lostData va pc.2 .ownership s

/-- A dolly issues the reads of a row, resolved as it issues the first (R212): a usable replica answers at once. -/
def fetchRow (q seq : Nat) (num w : Nat) (t : Table) (d : Desc) (r : Nat) (s : State) : State :=
  let va := rowVa w r
  let n := rowWidth t.image
  let u := rowDolly q d.span va
  let s := bump Reg.embFetches d.part (bumpN Reg.dollyReads u (rowReads n).length s)
  let s := arbSet (dollyArb u) ((arbOf s (dollyArb u)).charge d.part (rowReads n).length) s
  match (match mget (rowKey num r) s.rows.replicas with
      | some x => if (queueOf s q).usable.contains (num, r) && x.filled && !x.retiring then some x else none
      | none => none) with
  | some x => descMod q seq (Desc.got va (slice x.data 0 n) (x.pois.map (va / 8 + ·)) (if x.pois.isEmpty then .ok else .poison)) s
  | none =>
    (rowReads n).foldl (fun s pc =>
      match rowPiece q seq w r t d pc s with
      | (.data bs ws st, s) => descMod q seq (Desc.got (va + pc.1) bs ws st) s
      | (_, s) => s) s

/-- A dolly issues the next row of a descriptor: while its reads are within the 4,096 it may have outstanding (R211, log entry 150), and its arbiter
serves the descriptor's partition (Table 12-2). True where it was issued. -/
def issueRow (q seq num : Nat) (t : Table) (d : Desc) (w r : Nat) (s : State) : Bool × State :=
  let u := rowDolly q d.span (rowVa w r)
  if 4096 < dollyOut s u + (rowReads (rowWidth t.image)).length then
    let (n, s) := draw s
    (false, bumpN Reg.dollyHeld u (max 1 (n.toNat % 2 ^ 32)) s)
  else
    match (arbOf s (dollyArb u)).pick (reelWeight s) (d.part :: (dollyWaiting s u).filter (· ≠ d.part)) with
    | (some p, a) => if p = d.part then (true, fetchRow q seq num w t d r (arbSet (dollyArb u) a s)) else (false, s)
    | (none, _) => (false, s)

/-- The dollies issue what they can of a descriptor's rows, in the order in which the cut units emit them; a dolly that holds one holds what follows
at it. -/
def issueRows (q seq num : Nat) (t : Table) : List (Nat × Nat) → List Nat → State → State
  | [], _, s => s
  | x :: rest, held, s =>
    match descOf s q seq with
    | none => s
    | some d =>
      let u := rowDolly q d.span (rowVa x.1 x.2)
      if d.stage ≠ .started ∨ held.contains u then issueRows q seq num t rest held s
      else
        match issueRow q seq num t d x.1 x.2 s with
        | (true, s) => issueRows q seq num t rest held (descMod q seq (fun d => { d with unread := d.unread.erase x }) s)
        | (false, s) => issueRows q seq num t rest (u :: held) s

/-! Rows as values (R198) -/

/-- The elements of a row from its bytes. -/
def rowEls (im : List Byte) (nfz : Bool) (bs : List Byte) : Els :=
  let f := tblFmt im
  let n := tblDim im
  if isBlock f then
    let nb := ceilDiv n (blkLen f)
    (List.range nb).foldl (fun acc j =>
      acc.app (readBlk f nfz (slice bs (j * planeBytes f) (planeBytes f)) (slice bs (nb * planeBytes f + j) 1) (fun _ => false) false j
        (min (blkLen f) (n - j * blkLen f)))) Els.none
  else
    let w := elemBytes f
    { els := (List.range n).map fun i => { v := elemVal f (leAt bs (i * w) w), s := fixOne, g := 0, p := false, z := isNegZero f (leAt bs (i * w) w) }
      nf := 0, zeroed := 0, badBlk := [] }

/-- A fetched row as FP32, and whether a word of it is poison. -/
def fetchedRow (d : Desc) (t : Table) (w r : Nat) (neg : Bool) : List W32 × Bool :=
  let bs := d.at (rowVa w r) (rowWidth t.image)
  ((rowEls t.image (arNfz d.arith) bs).els.map (El.f32 neg), d.bad (rowVa w r) (rowNeed t.image))

/-! Pooling (R213, R214) -/

def zeros (n : Nat) : List W32 := List.replicate n 0

/-- Element-wise sum of vectors, in an order no rule fixes. -/
def vecSum (rnd : Nat → Nat) (dim : Nat) (vs : List (List W32)) : List W32 :=
  (List.range dim).map fun c => f32Sum (fun i => rnd (c * 2 ^ 33 + i)) (vs.map fun v => v.getD c 0)

/-- The pooled vector of the good entries of a bag: rows and weights. -/
def poolBag (pool dim : Nat) (rnd : Nat → Nat) (xs : List (List W32 × W32)) : List W32 :=
  if xs.isEmpty then zeros dim
  else
    match pool with
    | 2 => (vecSum rnd dim (xs.map (·.1))).map fun y => f32Div y (f32OfInt (Int.ofNat xs.length))
    | 3 => (List.range dim).map fun c => rowMax rnd (xs.map fun x => x.1.getD c 0)
    | 4 => vecSum rnd dim (xs.map fun x => x.1.map fun y => f32Mul x.2 y)
    | _ => vecSum rnd dim (xs.map (·.1))

/-- Vector b of a GATHER: its values and whether it is poison. -/
def gaVector (d : Desc) (t : Table) (v : W64) (b : Nat) : List W32 × Bool :=
  let dim := tblDim t.image
  let rows := tblRows t.image
  match (if gaPool d = 0 then some (b, b + 1) else bagRange d b) with
  | none => (zeros dim, true)
  | some (lo, hi) =>
    let is := (List.range (hi - lo)).map (lo + ·)
    let good := is.filter fun i => ixAt d (d.w 2) i != ixNull d && !outOfRange d rows i
    let xs := good.map fun i =>
      let r := fetchedRow d t (i / 2 ^ gaWin d) (ixAt d (d.w 2) i) (freeSeq v (2 ^ 62 + i) % 2 == 1)
      (r.1, w32 (leNat (d.at (gaWts d + 4 * i) 4)), r.2)
    let bad := (is.any fun i => outOfRange d rows i || d.bad (d.w 2 + i * ixSize d) (ixSize d)) || (good.any fun i => gaPool d == 4 && d.bad (gaWts d + 4 * i) 4)
      || (xs.any fun x => x.2.2) || (gaPool d != 0 && bagPoison d b)
    (poolBag (gaPool d) dim (fun i => freeSeq v (b * 2 ^ 70 + i)) (xs.map fun x => (x.1, x.2.1)), bad)

/-- The first look at the lists: bad indices and bags, windows, the fetches. -/
def gaFetch (q seq : Nat) (d : Desc) (t : Table) (s : State) : State :=
  let rows := tblRows t.image
  let oor := (List.range (gaN d)).filter (outOfRange d rows)
  let s := bumpN Reg.badIndex d.part oor.length s
  let s := match oor with | i :: _ => descDecode q seq (d.w 2 + i * ixSize d) s | [] => s
  let broken := brokenBags d (gaPool d != 0)
  let s := bumpN Reg.badIndex d.part broken.length s
  let s := match broken with | b :: _ => descDecode q seq (bagFault d b) s | [] => s
  let ws := windowsOf (gaN d) (gaWin d) (goodEntries d rows)
  let s := countWindows q d (gaTable d) ws (gaN d) s
  descMod q seq (fun d => { d with step := 1, unread := ws.zipIdx.flatMap fun w => w.1.map fun x => (w.2, x.1) }) s

/-- Report the largest fan-out (R210), where neither DECODE nor FAULT was met. -/
def reportFan (q seq : Nat) (ws : List (List (Nat × List Nat))) (s : State) : State :=
  match descOf s q seq with
  | none => s
  | some d =>
    let (det, s) := maxFan ws s
    let s := fanTrigger d.part det s
    if d.statuses.any fun st => st == .decode || st == .fault then s else descMod q seq (Desc.report det) s

/-- The reels of the span that hold a vector naming one of some list positions: vector b goes to the span's first reel + b mod span (R213). -/
def namingReels (d : Desc) (ps : List Nat) : List Nat :=
  let bags := if gaPool d = 0 then ps
    else (List.range (gaBags d)).filter fun b => match bagRange d b with | some (lo, hi) => ps.any fun p => decide (lo ≤ p) && decide (p < hi) | none => false
  (bags.map (· % 4 ^ d.span)).dedup

/-- Pool and write every vector. -/
def gaPoolAll (q seq : Nat) (t : Table) (d : Desc) (s : State) : State :=
  let (v, s) := draw s
  let (u, s) := draw s
  let ws := windowsOf (gaN d) (gaWin d) (goodEntries d (tblRows t.image))
  let zeroed := (ws.zipIdx.flatMap fun w => w.1.map fun x =>
    (rowEls t.image (arNfz d.arith) (d.at (rowVa w.2 x.1) (rowWidth t.image))).zeroed * (namingReels d x.2).length).sum
  let s := bumpN Reg.nfZeroed d.part zeroed s
  let s := (List.range (gaVectors d)).foldl (fun s b =>
    let (ys, bad) := gaVector d t v b
    let s := putF32s q seq 0 (d.w 6 + b * gaStride d) (d.f 1 20 4) d.arith (u + w64 (b * 16384)) ys (fun _ => bad) s
    descMod q seq (fun d => if d.stage = .started then { d with count := d.count + 1 } else d) s) s
  opDone q seq (reportFan q seq ws s)

def gaRun (q seq : Nat) (d : Desc) (s : State) : State :=
  match tableOf s d with
  | none => s
  | some t =>
    withBytes q seq (gaLists d (gaPool d != 0) (gaPool d == 4)) (fun d s =>
      let s := if d.step = 0 then gaFetch q seq d t s else s
      let s := issueRows q seq (gaTable d) t (match descOf s q seq with | some d => d.unread | none => []) [] s
      withBytes q seq [] (fun d s => if d.unread.isEmpty then gaPoolAll q seq t d s else s) s) s

end Sys2Proof.Machine
end

