-- ==== Sys2Proof/Machine/Scatter.lean ====
section
/-! DEFINITION. SCATTER_UPDATE: DIRECT, ROUTE and APPLY (chapter 5). -/

namespace Sys2Proof.Machine

open Sys2Proof

def scAlgo (d : Desc) : Nat := d.f 1 14 2
def scMode (d : Desc) : Nat := d.f 1 30 2
def scFg (d : Desc) : Nat := d.f 1 20 4
def scPool (d : Desc) : Nat := gaPool d

/-- Bytes between the states of two slots (R218). -/
def stateStride (algo : Nat) (im : List Byte) : Nat := if algo = 1 then 4 else roundUp (tblDim im * elemBytes (tblFmtS im)) 16

/-- Bytes of the state of a slot. -/
def stateLen (algo : Nat) (im : List Byte) : Nat := if algo = 1 then 4 else tblDim im * elemBytes (tblFmtS im)

/-- A state allocation an algorithm needs is absent or too small (R218). -/
def stateBad (s : State) (t : Table) (algo : Nat) : Bool :=
  let short := fun (en : Bool) (a : Nat) =>
    !en || !tblMember t.image || match liveAlloc s a with | some al => decide (al.pages * pageSize < tblSlots t.image t.mode * stateStride algo t.image) | none => true
  short (qf t.image 1 33 1 == 1) (qf t.image 0 16 16) || (algo == 2 && short (qf t.image 1 34 1 == 1) (qf t.image 0 32 16))

/-- Gradient rows of DIRECT and ROUTE: one per entry or per bag. -/
def scGrads (d : Desc) : Nat := if scPool d = 0 then gaN d else gaBags d

def scGradLen (d : Desc) (t : Table) : Nat := tblDim t.image * elemBytes (scFg d)

def scCheck (s : State) (d : Desc) : Check :=
  let apply := scMode d == 2
  let route := scMode d == 1
  let tbad := match tableOf s d with
    | none => true
    | some t => t.ending || !([0, 1, 2].contains (tblFmt t.image)) || (!route && stateBad s t (scAlgo d)) || (scMode d == 0 && decide (1 < tblN t.image))
      || (scMode d != 0 && !tblLandEn t.image) || (apply && !tblMember t.image)
  let bad := badIf (arithBad d false) 1 ++ badIf tbad 8 ++ badIf (!route && scAlgo d == 3) 9
    ++ badIf (!([0, 1, 2, 4].contains (scPool d)) || decide (1 < scFg d)) 10 ++ badIf (!windowFits s (gaWin d) || scMode d == 3) 11
    ++ badIf (!apply && scPool d != 0 && gaOff d == 0 && gaBags d * gaBagLen d != gaN d) 12 ++ badIf (!apply && d.w 2 % ixSize d != 0) 16
    ++ badIf (!apply && scPool d == 4 && gaWts d == 0) 40
  let own := match tableOf s d with
    | none => false
    | some t => allocsElse s d.part (tblAllocs t.image) || (scMode d != 0 && tblMember t.image && notOurs s d.part (tblLandTally t.image))
  { bad := bad, own := tableElse s d || own }

/-- Rows are reached through a list (R166). -/
def scRanges (_ : Desc) : Ranges := { reads := allSpace, writes := allSpace }

/-! Combined gradients (R217) -/

/-- The bag of list entry i; none where no bag with good bounds holds it. -/
def bagOf (d : Desc) (i : Nat) : Option Nat :=
  if gaOff d = 0 then (if gaBagLen d = 0 then none else some (i / gaBagLen d))
  else (List.range (gaBags d)).find? fun b => match bagRange d b with | some (lo, hi) => decide (lo ≤ i) && decide (i < hi) | none => false

/-- Entries of a bag that are neither null nor out of range. -/
def bagCount (d : Desc) (rows b : Nat) : Nat :=
  match bagRange d b with
  | some (lo, hi) => ((List.range (hi - lo)).filter fun i => ixAt d (d.w 2) (lo + i) != ixNull d && !outOfRange d rows (lo + i)).length
  | none => 0

/-- A gradient row as FP32, and whether a word of it is poison. -/
def gradRow (d : Desc) (t : Table) (k : Nat) : List W32 × Bool :=
  let va := d.w 6 + k * scGradLen d t
  (f32Row d va (scFg d) (tblDim t.image) (fun _ => 0), d.bad va (scGradLen d t))

/-- The contribution of list entry i. -/
def contribution (d : Desc) (t : Table) (i : Nat) : List W32 × Bool :=
  let p := d.bad (d.w 2 + i * ixSize d) (ixSize d)
  if scPool d = 0 then let g := gradRow d t i; (g.1, g.2 || p)
  else
    let b := (bagOf d i).getD 0
    let g := gradRow d t b
    match scPool d with
    | 2 => (g.1.map fun y => f32Div y (f32OfInt (Int.ofNat (bagCount d (tblRows t.image) b))), g.2 || p || bagPoison d b)
    | 4 => (g.1.map fun y => f32Mul (w32 (leNat (d.at (gaWts d + 4 * i) 4))) y, g.2 || p || bagPoison d b || d.bad (gaWts d + 4 * i) 4)
    | _ => (g.1, g.2 || p || bagPoison d b)

/-- A combined gradient: row, occurrences, values, poison. -/
structure Combined where
  row : Nat
  n : Nat
  g : List W32
  p : Bool
  deriving DecidableEq, Repr

/-- Sum contributions; a single one is taken as it is. -/
def combine (rnd : Nat → Nat) (dim row : Nat) (xs : List (List W32 × Bool)) : Combined :=
  { row := row, n := xs.length, g := match xs with | [x] => x.1 | _ => vecSum rnd dim (xs.map (·.1)), p := xs.any (·.2) }

/-- The entries an update takes: those of broken bags fall out with the out-of-range ones. -/
def scEntries (d : Desc) (rows : Nat) : List (Nat × Nat) := (goodEntries d rows).filter fun e => scPool d == 0 || (bagOf d e.2).isSome

/-- The entries dropped and counted in BAD_INDEX. -/
def scDropped (d : Desc) (rows : Nat) : List Nat :=
  (List.range (gaN d)).filter fun i => outOfRange d rows i || (ixAt d (d.w 2) i != ixNull d && scPool d != 0 && (bagOf d i).isNone)

def scWindows (d : Desc) (t : Table) : List (List (Nat × List Nat)) := windowsOf (gaN d) (gaWin d) (scEntries d (tblRows t.image))

/-- The combined gradients of the windows, window after window. -/
def scCombined (d : Desc) (t : Table) (v : W64) : List (List Combined) :=
  (scWindows d t).zipIdx.map fun w => w.1.map fun x =>
    combine (fun i => freeSeq v ((w.2 * 2 ^ 40 + x.1) * 2 ^ 48 + i)) (tblDim t.image) x.1 (x.2.map (contribution d t))

/-- The lists' bad entries, the windows' counters and the sketch, once. -/
def scCount (q seq : Nat) (d : Desc) (t : Table) (s : State) : State :=
  let bad := scDropped d (tblRows t.image)
  let s := bumpN Reg.badIndex d.part bad.length s
  let s := match bad with
    | i :: _ => descDecode q seq (if outOfRange d (tblRows t.image) i then d.w 2 + i * ixSize d else match (List.range (gaBags d)).find? fun b => (bagRange d b).isNone with | some b => bagFault d b | none => d.w 2 + i * ixSize d) s
    | [] => s
  countWindows q d (gaTable d) (scWindows d t) (gaN d) s

/-- What DIRECT and ROUTE read. -/
def scNeeds (d : Desc) (t : Table) (hyper : Bool) : List (Nat × Nat) :=
  gaLists d (scPool d != 0) (scPool d == 4) ++ [(d.w 6, scGrads d * scGradLen d t)] ++ (if hyper then [(d.w 7, 64)] else [])

/-! The update of rows (R218) -/

/-- Offsets of a row, its state 1 and its state 2. -/
def scPlaces (s : State) (t : Table) (algo r : Nat) : List (Nat × Nat) :=
  let st := fun (a : Nat) => (match allocOf s a with | some al => al.base * pageSize | none => 0) + rowSlotIdx t r * stateStride algo t.image
  [(rowOffset s t r, rowNeed t.image), (st (qf t.image 0 16 16), stateLen algo t.image)]
    ++ (if algo = 2 then [(st (qf t.image 0 32 16), stateLen algo t.image)] else [])

/-- A place that must first be free of other work: held writes, lines held by agents. -/
def placeWaits (s : State) (p : Nat × Nat) : Bool :=
  mustWait s p.1 p.2 true || (piecesOf p.1 p.2).any fun x => writeGate s x.1 == .hold || writeGate s x.1 == .snapWait

/-- FP32 values stored at an offset, with the words' poison. -/
def readPlace (q seq part : Nat) (p : Nat × Nat) (fmt : Nat) (rnd : Nat → Nat) (s : State) : List W32 × Bool × State :=
  match localGet (.desc q seq 0) part p.1 none false p.1 p.2 s with
  | (.data bs ws st, s) =>
    let w := elemBytes fmt
    let s := if st = .ok then s else descMeet q seq st s
    ((List.range (p.2 / w)).map fun i => let c := leAt bs (i * w) w; if isNegZero fmt c && rnd i % 2 == 1 then 0x80000000 else f32OfVal (elemVal fmt c),
      !ws.isEmpty, s)
  | (_, s) => ([], true, s)

/-- Store FP32 values at an offset, whole words poison where an input was. -/
def writePlace (q seq part unit : Nat) (p : Nat × Nat) (fmt arith : Nat) (v : W64) (ys : List W32) (bad : Bool) (s : State) : State :=
  let bs := (ys.zipIdx.map fun y => f32Bytes fmt arith (rnd16 v y.2) y.1).flatten
  match localPut (.desc q seq unit) part p.1 none false (noVa p.1) { bs := bs, pois := if bad then wordsOf (noVa p.1) p.2 else [], tally := none, e2e := false } s with
  | (.done st, s) => descMod q seq (Desc.wrote unit none st) s
  | (_, s) => s

/-- One optimiser step of a row; it joins the kernel's broadcast set (R223). -/
def scStep (q seq : Nat) (t : Table) (h : Hyper) (unit : Nat) (s : State) (c : Combined) : State :=
  match descOf s q seq with
  | none => s
  | some d =>
    let algo := scAlgo d
    if d.stage ≠ .started || (h.skipNf && c.g.any fun x => !f32Finite x) then s
    else
      let (v, s) := draw s
      let rnd := freeSeq v
      let fs := if algo = 1 then 0 else tblFmtS t.image
      let ps := scPlaces s t algo c.row
      let p1 := ps.getD 0 (0, 0)
      let p2 := ps.getD 1 (0, 0)
      let p3 := ps.getD 2 (0, 0)
      let (p, b1, s) := readPlace q seq d.part p1 (tblFmt t.image) rnd s
      let (a, b2, s) := readPlace q seq d.part p2 fs (fun i => rnd (i + 2 ^ 20)) s
      let (b, b3, s) := if algo = 2 then readPlace q seq d.part p3 fs (fun i => rnd (i + 2 ^ 21)) s else ([], false, s)
      let bad := c.p || b1 || b2 || b3
      let g := c.g.map fun x => f32Mul (factorOr1 h.gscale) x
      let (p', a', b') := rowUpdate algo h (rnd (2 ^ 30) % 2 == 1) (fun i => rnd (i + 2 ^ 31)) p g a b
      let (u, s) := draw s
      let s := if bad then descMeet q seq .poison s else s
      let s := writePlace q seq d.part unit p1 (tblFmt t.image) d.arith u p' bad s
      let s := writePlace q seq d.part unit p2 fs d.arith (u + w64 (2 ^ 20)) a' bad s
      let s := if algo = 2 then writePlace q seq d.part unit p3 fs d.arith (u + w64 (2 ^ 21)) b' bad s else s
      let key := (gaTable d, c.row)
      queueSet q (fun x => { x with bset := if x.bset.contains key then x.bset else x.bset ++ [key] }) s

/-- Apply combined gradients, window w before window w + 1; while a place must wait, nothing happens. True once done. -/
def scApply (q seq : Nat) (t : Table) (h : Hyper) (ws : List (List Combined)) (s : State) : Bool × State :=
  match descOf s q seq with
  | none => (false, s)
  | some d =>
    let places := ws.flatten.flatMap fun c => scPlaces s t (scAlgo d) c.row
    match places.find? (placeWaits s) with
    | some p => (false, startRecalls p.1 p.2 true none s)
    | none => (true, ws.zipIdx.foldl (fun s w => w.1.foldl (scStep q seq t h w.2) s) s)

/-- STEP 0 gives DECODE for Adam (Table 4-13, log entry 43). -/
def stepBad (d : Desc) (h : Hyper) : Bool := scAlgo d == 2 && h.step == 0

/-! DIRECT -/

def directRun (q seq : Nat) (d : Desc) (s : State) : State :=
  match tableOf s d with
  | none => s
  | some t =>
    if scMode d ≠ 0 then s
    else
      withBytes q seq (scNeeds d t true) (fun d s =>
        let h := hyperAt d (d.w 7)
        if stepBad d h then opEnd q seq 0 (descDecode q seq (d.w 7 + 24) s)
        else
          let s := if d.step = 0 then descMod q seq (fun d => { d with step := 1 }) (scCount q seq d t s) else s
          let (v, s) := draw s
          match scApply q seq t h (scCombined d t v) s with
          | (true, s) => opEnd q seq 0 (reportFan q seq (scWindows d t) s)
          | (false, s) => s) s

/-! ROUTE (R219, R220) -/

/-- Place beside the descriptor of the old cursor of member m. -/
def cursorVa (m : Nat) : Nat := 2 ^ 120 + 8 * m

/-- Fabric address of member m's landing zone. -/
def zoneFa (t : Table) (m : Nat) : Nat := (qw t.image 4 + m * 2 ^ tblLandLog t.image) % 2 ^ 64

/-- The records for member m, in the order of the windows. -/
def recordsFor (t : Table) (ws : List (List Combined)) (m : Nat) : List Combined := ws.flatten.filter fun c => rowOwner t.image c.row == m

/-- Bytes of a landing record (Table 5-6); −0 is written as +0 (R113). -/
def landBytes (s : State) (t : Table) (c : Combined) : List Byte :=
  let bs := leBytes 8 c.row ++ leBytes 4 c.n ++ leBytes 4 (selfEp s) ++ (c.g.map fun y => leBytes 4 (plusZero y).toNat).flatten
  bs ++ List.replicate (landRb t.image - bs.length) 0

/-- Reserve k records at member m with an atomic add on its cursor. -/
def reserve (q seq : Nat) (t : Table) (m k : Nat) (s : State) : State :=
  match descOf s q seq with
  | none => s
  | some d =>
    let fa := zoneFa t m
    let lost := fun (st : Status) (s : State) => descMod q seq (Desc.got (cursorVa m) (leBytes 8 (2 ^ 63)) (wordsOf (cursorVa m) 8) st) s
    match resolve fa d.part 2 s with
    | (.decode, s) => lost .decode s
    | (.ownership, s) => lost .ownership s
    | (.home ep off, s) =>
      if ep = selfEp s ∧ !mustWait s off 8 true ∧ writeGate s off = .go then
        match localGet (.desc q seq 0) d.part off (some fa) true (cursorVa m) 8 s with
        | (.data bs ws st, s) =>
          let s := descMod q seq (Desc.got (cursorVa m) bs ws st) s
          if ws.isEmpty ∧ st = .ok then (localPut (.desc q seq 0) d.part off (some fa) true (cursorVa m) { bs := leBytes 8 (leNat bs + k), pois := [], tally := none, e2e := false } s).2 else s
        | (_, s) => s
      else
        match sendReq (mkReq (stampKey s d.part (mkPacket s tATOMIC ep (w64 off) 16 (leBytes 8 k))) (some fa) 2 d.part (.descRead q seq (cursorVa m) 8)) s with
        | (.gone, s) => s
        | (.failed st, s) => lost st s

/-- Write one record to slot j of member m's zone, in pieces a packet can carry. -/
def landWrite (q seq : Nat) (t : Table) (m j : Nat) (c : Combined) (s : State) : State :=
  match descOf s q seq with
  | none => s
  | some d =>
    let bs := landBytes s t c
    (piecesOf (64 + j * landRb t.image) bs.length).foldl (fun s pc =>
      let fa := zoneFa t m + pc.1
      let w : Put := { bs := (bs.drop (pc.1 - (64 + j * landRb t.image))).take pc.2, pois := if c.p then wordsOf (noVa fa) pc.2 else [], tally := none, e2e := false }
      match resolve fa d.part 1 s with
      | (.decode, s) => descMod q seq (Desc.decode none) (bump Reg.fabUnmapped d.part s)
      | (.ownership, s) => descMeet q seq .ownership s
      | (.home ep off, s) =>
        match homePut (.desc q seq m) d.part ep off (some fa) (noVa fa) w s with
        | (.done st, s) => descMod q seq (Desc.wrote m none st) s
        | (_, s) => s) s

/-- Write the records reserved at member m: those beyond the zone are dropped and counted, all of them where no slot was reserved. -/
def landMember (q seq : Nat) (t : Table) (ws : List (List Combined)) (s : State) (m : Nat) : State :=
  match descOf s q seq with
  | none => s
  | some d =>
    let rs := recordsFor t ws m
    if rs.isEmpty ∨ d.bad (cursorVa m) 8 ∨ !hasBytes d.remote (cursorVa m) 8 then s
    else
      let c := leNat (d.at (cursorVa m) 8)
      let cap := landCap t.image
      let s := rs.zipIdx.foldl (fun s r => if c + r.2 < cap then landWrite q seq t m (c + r.2) r.1 s else s) s
      let n := (rs.zipIdx.filter fun r => decide (cap ≤ c + r.2)).length
      if n = 0 then s else bumpN Reg.landFull d.part n (descMeet q seq .quota s)

/-- Add 1 to LAND_TALLY at member m: here, or with a fabric tally write to the hub that holds the member's landing zone. -/
def landTally (q seq : Nat) (t : Table) (s : State) (m : Nat) : State :=
  match descOf s q seq with
  | none => s
  | some d =>
    let tal := tblLandTally t.image
    if m = tblSelf t.image then (if notOurs s d.part tal then tallyAddFor d.part tal 1 (descMeet q seq .ownership s) else tallyAddFor d.part tal 1 s)
    else
      match resolve (zoneFa t m) d.part 1 s with
      | (.decode, s) => descMod q seq (Desc.decode none) s
      | (.ownership, s) => descMeet q seq .ownership s
      | (.home ep _, s) =>
        let p := { mkPacket s tTALLY ep 0 (w64 (tal + 65536)) [] with key := fkey s d.part }
        match sendReq (mkReq p none 0 d.part (.descWrite q seq m none)) s with
        | (.gone, s) => s
        | (.failed st, s) => descMeet q seq st s

/-- A step of a descriptor: run once, then `step` is n + 1. -/
def atStep (q seq n : Nat) (f : State → State) (s : State) : State :=
  match descOf s q seq with
  | some d => if d.step = n ∧ d.stage = .started then descMod q seq (fun d => { d with step := n + 1 }) (f s) else s
  | none => s

/-- ROUTE: 0 counts and reserves, 1 writes the records, 2 adds to the tallies once every record has been performed, 3 ends. -/
def routeRun (q seq : Nat) (d : Desc) (s : State) : State :=
  match tableOf s d with
  | none => s
  | some t =>
    if scMode d ≠ 1 then s
    else
      withBytes q seq (scNeeds d t false) (fun d s =>
        let ms := List.range (tblN t.image)
        let plain := scCombined d t 0
        let s := atStep q seq 0 (fun s =>
          ms.foldl (fun s m => let k := (recordsFor t plain m).length; if k = 0 then s else reserve q seq t m k s) (scCount q seq d t s)) s
        withBytes q seq [] (fun d s =>
          let (v, s) := draw s
          let s := atStep q seq 1 (fun s => ms.foldl (landMember q seq t (scCombined d t v)) s) s
          if descWriting s q seq then s
          else
            let s := atStep q seq 2 (fun s => ms.foldl (landTally q seq t) s) s
            if descWriting s q seq then s else opEnd q seq 0 (reportFan q seq (scWindows d t) s)) s) s

/-! APPLY (R221) -/

/-- A landing record as it stands in the zone. -/
def readRecord (q seq part base : Nat) (im : List Byte) (j : Nat) (s : State) : Combined × State :=
  let off := base + 64 + j * landRb im
  match localGet (.desc q seq 0) part off none false off (landRb im) s with
  | (.data bs ws st, s) =>
    ({ row := leNat (slice bs 0 8), n := leAt bs 8 4, g := (List.range (tblDim im)).map fun i => w32 (leAt bs (16 + 4 * i) 4), p := !ws.isEmpty }, if st = .ok then s else descMeet q seq st s)
  | (_, s) => ({ row := 0, n := 0, g := [], p := true }, s)

/-- Read the first n records. -/
def readRecords (q seq part base : Nat) (im : List Byte) (n : Nat) (s : State) : List Combined × State :=
  (List.range n).foldl (fun (acc : List Combined × State) j => let (c, s) := readRecord q seq part base im j acc.2; (acc.1 ++ [c], s)) ([], s)

/-- The records' windows, each as its unique rows. -/
def recordWindows (d : Desc) (rs : List Combined) (good : Combined → Bool) : List (List (Nat × List Nat)) :=
  windowsOf rs.length (gaWin d) ((rs.zipIdx.filter fun r => good r.1).map fun r => (r.1.row, r.2))

def applyGo (q seq : Nat) (t : Table) (d : Desc) (s : State) : State :=
  let h := hyperAt d (d.w 7)
  let base := match allocOf s (qf t.image 0 48 16) with | some al => al.base * pageSize | none => 0
  if stepBad d h then opEnd q seq 0 (descDecode q seq (d.w 7 + 24) s)
  else if placeWaits s (base, 8) then startRecalls base 8 true none s
  else
    let c := leNat (memRead base 8 s).1.bytes
    let cap := landCap t.image
    let n := min c cap
    let (rs, s') := readRecords q seq d.part base t.image n s
    let good := fun r : Combined => decide (r.row < tblRows t.image) && rowOwner t.image r.row == tblSelf t.image
    let ws := recordWindows d rs good
    let (v, s') := draw s'
    let cs := ws.zipIdx.map fun w => w.1.map fun x =>
      combine (fun i => freeSeq v ((w.2 * 2 ^ 40 + x.1) * 2 ^ 48 + i)) (tblDim t.image) x.1 (x.2.map fun j => match rs[j]? with | some r => (r.g, r.p) | none => ([], true))
    match scApply q seq t h cs s' with
    | (false, s) => s
    | (true, s) =>
      let bad := (rs.zipIdx.filter fun r => !good r.1).map (·.2)
      let s := bumpN Reg.badIndex d.part bad.length s
      let s := match bad with | j :: _ => descDecode q seq (base + 64 + j * landRb t.image) s | [] => s
      let s := ws.zipIdx.foldl (fun s w => cutCount d.part ((cutUnits q d.span).1 + w.2 % (cutUnits q d.span).2) (min (2 ^ gaWin d) (n - w.2 * 2 ^ gaWin d)) w.1 s) s
      let s := if cap < c then descMeet q seq .quota s else s
      let s := (localPut (.desc q seq 0) d.part base none false base { bs := leBytes 8 0, pois := [], tally := none, e2e := false } s).2
      let s := tallyAddTo (tblLandTally t.image) (0 - w32 (d.f 3 32 32)) s
      opEnd q seq 0 (reportFan q seq ws s)

def applyRun (q seq : Nat) (d : Desc) (s : State) : State :=
  match tableOf s d with
  | none => s
  | some t =>
    if scMode d ≠ 2 then s
    else
      let go := fun s => withBytes q seq [(d.w 7, 64)] (applyGo q seq t) s
      if d.step = 0 then tallyBegin q seq (tblLandTally t.image) (w32 (d.f 3 32 32)) go s else go s

end Sys2Proof.Machine
end

