-- ==== Sys2Proof/Machine/Bcast.lean ====
section
/-! DEFINITION. The end of a kernel and the broadcasts between the hubs of a table (chapters 4 and 5). -/

namespace Sys2Proof.Machine

open Sys2Proof

/-! KERNEL_END: the owner sends the updated rows (R168, R223) -/

/-- A row as it stands at this hub: its bytes, its poisoned words as words from the row's start. -/
def rowNow (t : Table) (r : Nat) (s : State) : (List Byte × List Nat) × State :=
  let off := rowOffset s t r
  let (g, s) := memRead off (rowWidth t.image) s
  ((g.bytes, toVaWords off 0 g.pois), s)

/-- Who receives the rows of a table: its other members when it is replicated, each hub that holds a replica of one of them when it is sharded. A
member whose range no entry covers is met as DECODE. -/
def receivers (q seq : Nat) (num : Nat) (t : Table) (rows : List Nat) (part : Nat) (s : State) : List (Nat × List Nat) × State :=
  if t.mode = 2 then
    let eps := ((s.rows.granted.filter fun g => rows.any fun r => rowKey num r == g.1).map (·.2)).dedup
    (eps.map fun e => (e, rows.filter fun r => s.rows.granted.contains (rowKey num r, e)), s)
  else
    ((List.range (tblN t.image)).filter (· ≠ tblSelf t.image)).foldl (fun (acc : List (Nat × List Nat) × State) i =>
      match resolve ((qw t.image 3 + i * 2 ^ tblSpanLog t.image) % 2 ^ 64) part 1 acc.2 with
      | (.home ep _, s) => (acc.1 ++ [(ep, rows)], s)
      | (.decode, s) => (acc.1, descMod q seq (Desc.decode none) s)
      | (.ownership, s) => (acc.1, descMeet q seq .ownership s)) ([], s)

/-- Send a packet of a broadcast. -/
def bcastSend (q seq part num ep : Nat) (p : Packet) (s : State) : State :=
  match sendReq (mkReq p none 1 part (.broadcast q seq num)) s with
  | (.gone, s) => s
  | (.failed st, s) => bcastMissed q seq num ep st s

/-- The writes that carry a row into a receiver's staging area; where in it no rule says (log entry 48). -/
def rowPackets (part ep : Nat) (t : Table) (r : Nat) (s : State) : List Packet × State :=
  let ((bs, ws), s) := rowNow t r s
  (piecesOf 0 bs.length).foldl (fun (acc : List Packet × State) pc =>
    let (a, s) := draw acc.2
    let p := { mkPacket s tWR ep a 0 ((bs.drop pc.1).take pc.2) with key := fkey s part, tc := 6 }
    let bad := ws.filter fun w => (wordsOf pc.1 pc.2).contains w
    let (p, s) := zipped a.toNat false (if bad.isEmpty then p else { p with pmask := true, pois := lineMask pc.1 bad }) s
    (acc.1 ++ [p], s)) ([], s)

/-- Send a row of a broadcast. -/
def bcastRow (q seq part num ep : Nat) (t : Table) (s : State) (r : Nat) : State :=
  let (ps, s) := rowPackets part ep t r s
  ps.foldl (fun s p => bcastSend q seq part num ep p s) s

/-- The cue after the rows carries their count and the sequence number. -/
def bcastCue (q seq part num ep count no : Nat) (s : State) : State :=
  let (a, s) := draw s
  bcastSend q seq part num ep { mkPacket s tCUE ep a 0 (leBytes 8 (count + no * 2 ^ 32)) with key := fkey s part } s

/-- Broadcast the rows of one table. -/
def bcastTable (q seq part : Nat) (set : List (Nat × Nat)) (s : State) (num : Nat) : State :=
  match mget num s.eng.tables with
  | none => s
  | some t =>
    let rows := (set.filter fun e => e.1 == num).map (·.2)
    let no := (mgetD 0 num s.eng.bcastSeq)
    let (rs, s) := receivers q seq num t rows part s
    if rs.isEmpty then s
    else
      let s := { s with eng := { s.eng with bcastSeq := mput 0 num ((no + 1) % 2 ^ 32) s.eng.bcastSeq } }
      rs.foldl (fun s e => bcastCue q seq part num e.1 e.2.length no (e.2.foldl (bcastRow q seq part num e.1 t) s)) s

/-- KERNEL_END: `step` 1 says that the kernel's broadcasts were sent; it has run once they are performed. -/
def kernelEndRun (q seq : Nat) (_ : Desc) (s : State) : State :=
  let s := atStep q seq 0 (fun s =>
    let set := (queueOf s q).bset
    let part := match descOf s q seq with | some d => d.part | none => 0
    (set.map (·.1)).dedup.foldl (bcastTable q seq part set) (queueSet q (fun x => { x with bset := [] }) s)) s
  if descWriting s q seq then s else opEnd q seq 0 s

/-! BROADCAST_COMMIT (R224) -/

/-- The place of the next broadcast of an owner for a table. -/
def bcastKey (src table : Nat) : Nat := src * 2 ^ 14 + table

/-- A row of a broadcast: its index, its bytes, its poisoned words from the row's start. -/
abbrev BcastRow := Nat × List Byte × List Nat

/-- A row of a broadcast takes its new value: in this member's copy, which counts as no access (Table 2-1), or in the replica held. -/
def switchRow (num : Nat) (t : Table) (s : State) (x : BcastRow) : State :=
  let k := rowKey num x.1
  let bs := x.2.1.take (rowWidth t.image)
  if t.mode = 1 then
    if tblMember t.image && decide (x.1 < tblRows t.image) then
      let off := rowOffset s t x.1
      poisonWords (toOffWords off 0 x.2.2) (placeCells off (bs.map some) s).2
    else s
  else
    match mget k s.rows.replicas with
    | none => s
    | some r =>
      let s := if r.filled then s else bump Reg.beReplCreated 0 s
      { s with rows := { s.rows with replicas := mset k { r with data := splice r.data 0 bs, pois := x.2.2, filled := true } s.rows.replicas } }

/-- Places of this member's copy that the rows switch in. -/
def switchPlaces (s : State) (t : Table) (rows : List BcastRow) : List (Nat × Nat) :=
  if t.mode = 1 && tblMember t.image then (rows.filter fun x => decide (x.1 < tblRows t.image)).map fun x => (rowOffset s t x.1, rowWidth t.image) else []

/-- The broadcast that stands staged before another: of the same owner and table, with an earlier number. -/
def bcastBefore (a b : Bcast) : Bool := a.src == b.src && a.table == b.table && a.no != b.no && reached b.no a.no

/-- Commit a staged broadcast: every row switches in one step, then the tally counts. It waits for an earlier one of its owner for the table, and for
other work on its rows (R224). -/
def bcastTry (s : State) (b : Bcast) : State :=
  match mget b.table s.eng.tables with
  | none => { s with eng := { s.eng with bcasts := s.eng.bcasts.erase b } }
  | some t =>
    if s.eng.bcasts.any fun x => bcastBefore x b then s
    else
      match (switchPlaces s t b.rows).find? (placeWaits s) with
      | some p => startRecalls p.1 p.2 true none s
      | none =>
        let s := b.rows.foldl (switchRow b.table t) s
        let s := { s with eng := { s.eng with bcasts := s.eng.bcasts.erase b, nextBcast := mput 0 (bcastKey b.src b.table) (b.no + 1).toNat s.eng.nextBcast } }
        if qf t.image 5 48 1 = 1 then tallyAddFor t.part (qf t.image 5 32 16) 1 s else s

/-- Commit what can commit of the staged broadcasts, earlier numbers first. -/
def bcastDrain (s : State) : State :=
  (sortBy (fun a b => if bcastKey a.src a.table = bcastKey b.src b.table then !bcastBefore b a else decide (bcastKey a.src a.table ≤ bcastKey b.src b.table))
    s.eng.bcasts).foldl bcastTry s

/-- Bytes of the broadcast staging area in use. -/
def stagedBytes (bs : List Bcast) : Nat := (bs.map fun b => (b.rows.map fun r => r.2.1.length).sum).sum

/-- The cue of a broadcast has been applied: the broadcast stands staged until it commits. One that finds no room in the staging area is still held back
at its owner (R225); one older than the last committed is not committed again (log entry 47). -/
def bcastCommit (src table : Nat) (no : W32) (rows : List BcastRow) (s : State) : State :=
  match mget table s.eng.tables with
  | none => s
  | some t =>
    let b : Bcast := { src := src, table := table, no := no, rows := rows }
    if t.ending ∨ !reached no (w32 (mgetD 0 (bcastKey src table) s.eng.nextBcast)) ∨ (s.eng.bcasts.any fun x => x.src == src && x.table == table && x.no == no) then s
    else if (match s.boot.image with | some im => im.stagingMib | none => 0) * 2 ^ 20 < stagedBytes s.eng.bcasts + stagedBytes [b] then s
    else bcastDrain { s with eng := { s.eng with bcasts := s.eng.bcasts ++ [b] } }

end Sys2Proof.Machine
end

