-- ==== Sys2Proof/Machine/Index.lean ====
section
/-! DEFINITION. Search indexes: their images and layout, CREATE, DESTROY and SWAP, INSERT and DELETE (chapter 6). -/

namespace Sys2Proof.Machine

open Sys2Proof

/-! Index images (Table 6-1) -/

def ixGraph (im : List Byte) : Bool := qf im 0 0 2 == 0
def ixMetric (im : List Byte) : Nat := qf im 0 2 2
def ixBin (im : List Byte) : Bool := qf im 0 8 1 == 1
def ixTBin (im : List Byte) : Bool := qf im 0 13 1 == 1
def ixFmt (im : List Byte) : Nat := qf im 0 4 4
def ixTFmt (im : List Byte) : Nat := qf im 0 9 4
def ixDim (im : List Byte) : Nat := qf im 0 14 13
def ixRmax (im : List Byte) : Nat := qf im 0 27 7
def ixEntries (im : List Byte) : Nat := qf im 0 34 2
def ixNvec (im : List Byte) : Nat := qf im 1 0 37
def ixVec (im : List Byte) : Nat := qf im 2 0 16
def ixAdj (im : List Byte) : Nat := qf im 2 16 16
def ixTrav (im : List Byte) : Nat := qf im 2 32 16
def ixTomb (im : List Byte) : Nat := qf im 2 48 16
def ixSide (im : List Byte) : Nat := qf im 3 0 16
def ixSattr (im : List Byte) : Nat := qf im 3 16 16
def ixDir (im : List Byte) : Nat := qf im 3 32 16
def ixSideCap (im : List Byte) : Nat := qf im 4 0 27
def ixC (im : List Byte) : Nat := qf im 4 32 25
def ixEntry (im : List Byte) (i : Nat) : Nat := qf im (5 + i) 0 36

/-! Layout (R234 to R239) -/

/-- Bytes of a vector (R234). -/
def vecBytes (bin : Bool) (fmt dim : Nat) : Nat :=
  if bin then ceilDiv dim 8 else if isBlock fmt then ceilDiv dim (blkLen fmt) * (planeBytes fmt + 1) else dim * elemBytes fmt

def fullBytes (im : List Byte) : Nat := vecBytes (ixBin im) (ixFmt im) (ixDim im)

/-- Bytes of a record of the full-vector plane, of the adjacency plane, of the traversal plane, of a cluster. -/
def vecRec (im : List Byte) : Nat := roundUp (fullBytes im) 16
def adjRec (im : List Byte) : Nat := roundUp (4 + 5 * ixRmax im) 16
def travRec (im : List Byte) : Nat := roundUp (8 + vecBytes (ixTBin im) (ixTFmt im) (ixDim im)) 16
def clusterRec (im : List Byte) : Nat := roundUp (16 + fullBytes im) 16

/-- Offset of record i of rb bytes from the start of a packed plane (R235). -/
def recOff (rb i : Nat) : Nat := if rb ≤ 4096 then i / (4096 / rb) * 4096 + i % (4096 / rb) * rb else i * ceilDiv rb 4096 * 4096

/-- Bytes of a packed plane of n records, in whole blocks. -/
def recPlane (rb n : Nat) : Nat := if rb ≤ 4096 then ceilDiv n (4096 / rb) * 4096 else n * ceilDiv rb 4096 * 4096

/-- Pieces of row r of a plane of full vectors with n rows (R178, R239): its element bytes, its scale bytes. -/
def fullRow (im : List Byte) (n r : Nat) : List (Nat × Nat) :=
  let f := ixFmt im
  if ixBin im then [(r * fullBytes im, fullBytes im)]
  else if isBlock f then
    let b := ceilDiv (ixDim im) (blkLen f)
    [(r * b * planeBytes f, b * planeBytes f), (roundUp (n * b * planeBytes f) 64 + r * b, b)]
  else [(r * fullBytes im, fullBytes im)]

/-- Bytes of a plane of n full vectors. -/
def fullPlane (im : List Byte) (n : Nat) : Nat :=
  let f := ixFmt im
  if !ixBin im && isBlock f then roundUp (n * ceilDiv (ixDim im) (blkLen f) * planeBytes f) 64 + n * ceilDiv (ixDim im) (blkLen f) else n * fullBytes im

/-! The checks of R231 and R232 -/

/-- The allocations of an index: number, bytes its planes take, 0 flash, 1 stage, HBM or DDR, 2 DDR (Table 6-2). What the clusters take in VEC_ALLOC
the directory alone says. -/
def ixAllocs (im : List Byte) : List (Nat × Nat × Nat) :=
  let n := ixNvec im
  let g := ixGraph im
  [(ixVec im, if g then recPlane (vecRec im) n else 0, 0), (ixTrav im, if g then n * travRec im else fullPlane im (ixC im), 1),
    (ixTomb im, ceilDiv (n + ixSideCap im) 8, 1), (ixSide im, fullPlane im (ixSideCap im), 2), (ixSattr im, 8 * ixSideCap im, 2)]
    ++ (if g then [(ixAdj im, recPlane (adjRec im) n, 0)] else [(ixDir im, 16 * ixC im, 1)])

/-- An allocation that Table 6-2 does not let an index use in a role. -/
def ixFlagsBad (f : W32) (role : Nat) : Bool :=
  fProject f || match role with
    | 0 => fMask f != 8 || !fPin f || fSqueeze f
    | 1 => fMask f == 0 || fMask f / 8 != 0
    | _ => fMask f != 4

def ixAllocsBad (s : State) (im : List Byte) : Bool :=
  (ixAllocs im).any fun a => match liveAlloc s a.1 with
    | some al => ixFlagsBad al.flags a.2.2 || decide (al.pages * pageSize < a.2.1)
    | none => true

def ixForeign (s : State) (part : Nat) (im : List Byte) : Bool :=
  (ixAllocs im).any fun a => match liveAlloc s a.1 with | some al => al.part != part | none => false

def ixVecFmt (f : Nat) : Bool := f == 2 || f == 10 || f == 13

/-- A field outside Table 6-1. -/
def ixFieldsBad (im : List Byte) : Bool :=
  let g := ixGraph im
  decide (1 < qf im 0 0 2) || ixMetric im == 3 || (!ixBin im && !ixVecFmt (ixFmt im)) || ixDim im == 0 || decide (4096 < ixDim im)
    || ixSideCap im == 0 || decide (67108864 < ixSideCap im) || ixNvec im == 0 || decide (2 ^ 36 - ixSideCap im < ixNvec im)
    || (g && ((!ixTBin im && (ixBin im || !ixVecFmt (ixTFmt im))) || ixRmax im == 0 || decide (64 < ixRmax im) || ixEntries im == 0
        || [0, 1, 2].any fun i => decide (ixNvec im ≤ ixEntry im i)))
    || (!g && (ixC im == 0 || decide (16777216 < ixC im)))

/-! Tombstones (R238) -/

/-- The bytes of the bitmap that hold the bits of IDs lo to hi − 1. -/
def tombPlace (s : State) (im : List Byte) (lo hi : Nat) : Nat × Nat :=
  match allocOf s (ixTomb im) with
  | some al => if hi ≤ lo then (0, 0) else (al.base * pageSize + lo / 8, (hi - 1) / 8 + 1 - lo / 8)
  | none => (0, 0)

/-- Change some of the bitmap once no agent holds a line of it (R294) and no page of it holds writes back; until then recalls go out and `later` answers. -/
def whenFree (p : Nat × Nat) (later go : State → State) (s : State) : State :=
  if p.2 ≠ 0 ∧ placeWaits s p then later (startRecalls p.1 p.2 true none s) else go s

/-- Clear the tombstone bits of IDs lo to hi − 1. -/
def clearTombs (im : List Byte) (lo hi : Nat) (s : State) : State :=
  match allocOf s (ixTomb im) with
  | none => s
  | some al =>
    if hi ≤ lo then s
    else
      let b0 := lo / 8
      let n := (hi - 1) / 8 + 1 - b0
      let off := al.base * pageSize + b0
      (piecesOf off n).foldl (fun s pc =>
        let (g, s) := memRead pc.1 pc.2 s
        let bs := g.bytes.zipIdx.map fun e =>
          let b := 8 * (b0 + (pc.1 - off) + e.2)
          BitVec.ofNat 8 (((List.range 8).filter fun i => e.1.getLsbD i && !(decide (lo ≤ b + i) && decide (b + i < hi))).map fun i => 2 ^ i).sum
        (storeCells pc.1 (bs.map some) s).2) s

/-! Index commands -/

def ixNum (s : State) (i : Nat) : Nat := rfld s Reg.idxCmd i 16 6
def ixImageOff (s : State) (i : Nat) : Nat := (rget s Reg.idxImageLo i).toNat / 64 * 64 + rfld s Reg.idxImageHi i 0 18 * 2 ^ 32

/-- The image a command names, in an allocation of the partition; otherwise the status. An image read as poison is no image (log entry 45). -/
def ixImage (i : Nat) (s : State) : (Status × List Byte) × State :=
  match addrOf s (ixImageOff s i) 64 with
  | .store a =>
    if addrPart s (.store a) ≠ i then ((.ownership, []), s)
    else
      let (g, s) := memRead (ixImageOff s i) 64 s
      ((if g.pois.isEmpty then .ok else .decode, g.bytes), s)
  | _ => ((.decode, []), s)

/-- A CREATE that waits goes on: the tombstone bits of the side list's first IDs are cleared (R232). -/
def indexMake (num : Nat) (s : State) : State :=
  match mget num s.eng.idxs with
  | none => s
  | some x =>
    if !x.making then s
    else
      let n := ixNvec x.image
      let hi := n + ixSideCap x.image
      whenFree (tombPlace s x.image n hi) id (fun s =>
        cmdFinish Reg.idxCmd x.part (ixNum s x.part == num)
          (clearTombs x.image n hi { s with eng := { s.eng with idxs := mset num { x with making := false } s.eng.idxs } })) s

/-- Every CREATE that waits. -/
def indexesMake (s : State) : State := s.eng.idxs.foldl (fun s x => if x.2.making then indexMake x.1 s else s) s

/-- CREATE: the three counts start at NVEC (R232, R257). -/
def idxCreateRun (i : Nat) (s : State) : State :=
  let num := ixNum s i
  match mget num s.eng.idxs with
  | some _ => cmdEnd Reg.idxCmd i .decode s
  | none =>
    let ((st, im), s) := ixImage i s
    if st ≠ .ok then cmdEnd Reg.idxCmd i st s
    else if ixFieldsBad im || ixAllocsBad s im then cmdEnd Reg.idxCmd i .decode s
    else if ixForeign s i im then cmdEnd Reg.idxCmd i .ownership s
    else
      let n := ixNvec im
      let x : Index := { part := i, image := im, old := none, nextId := n, vis := n, nvecEff := n, ending := false, users := [], making := true }
      indexMake num (setBusy Reg.idxCmd i true { s with eng := { s.eng with idxs := mset num x s.eng.idxs } })

/-- A command on an index of the partition. -/
def namedIndex (i : Nat) (s : State) (f : Nat → Index → State → State) : State :=
  match mget (ixNum s i) s.eng.idxs with
  | none => cmdEnd Reg.idxCmd i .decode s
  | some x => if x.part ≠ i then cmdEnd Reg.idxCmd i .ownership s else if x.ending || x.making then cmdEnd Reg.idxCmd i .decode s else f (ixNum s i) x s

/-- SEARCH, INSERT and DELETE use the index they name. -/
def usesIndex (num : Nat) (d : Desc) : Bool := [0x30, 0x31, 0x32].contains d.opcode && d.f 1 0 6 == num

/-- An index that DESTROY ends goes when its last user completes (R233). -/
def indexEnd (num : Nat) (s : State) : State :=
  match mget num s.eng.idxs with
  | some x => if x.ending && !stillRunning s x.users then cmdFinish Reg.idxCmd x.part (ixNum s x.part == num) (indexGone num s) else s
  | none => s

/-- Every index that only waits for its users. -/
def indexesEnd (s : State) : State := s.eng.idxs.foldl (fun s x => indexEnd x.1 s) s

def idxDestroyRun (i : Nat) (s : State) : State :=
  namedIndex i s fun num _ s =>
    indexEnd num (setBusy Reg.idxCmd i true { s with eng := { s.eng with idxs := mmod num (fun x => { x with ending := true, users := runningDescs s (usesIndex num) }) s.eng.idxs } })

/-- SWAP fails (R262): a field that must stay differs, NVEC lies outside the range, a field or allocation is bad. -/
def swapBad (s : State) (x : Index) (im : List Byte) : Bool :=
  let o := x.image
  qf im 0 0 9 != qf o 0 0 9 || ixDim im != ixDim o || ixTomb im != ixTomb o || ixSide im != ixSide o || ixSattr im != ixSattr o || ixSideCap im != ixSideCap o
    || decide (ixNvec im < ixNvec o) || decide (x.vis < ixNvec im) || ixFieldsBad im || ixAllocsBad s im

/-- SWAP: searches that start now use the new image; BUSY holds until those under the old one have completed (R263). -/
def idxSwapRun (i : Nat) (s : State) : State :=
  namedIndex i s fun num x s =>
    let ((st, im), s) := ixImage i s
    if st ≠ .ok then cmdEnd Reg.idxCmd i st s
    else if swapBad s x im || ixForeign s i im then cmdEnd Reg.idxCmd i .decode s
    else
      setBusy Reg.idxCmd i true { s with eng := { s.eng with
        idxs := mset num { x with image := im, old := some x.image } s.eng.idxs
        searches := s.eng.searches.map fun r => if r.idx = num then { r with old := true } else r } }

/-- The last search under the old image has completed (R263). -/
def swapDrained (num : Nat) (s : State) : State :=
  match mget num s.eng.idxs with
  | none => s
  | some x =>
    match x.old with
    | none => s
    | some o =>
      if s.eng.searches.any fun r => r.idx == num && r.old then s
      else
        let cap := ixSideCap x.image
        whenFree (tombPlace s x.image (ixNvec o + cap) (ixNvec x.image + cap)) id (fun s =>
          let s := { s with eng := { s.eng with idxs := mset num { x with old := none, nvecEff := ixNvec x.image } s.eng.idxs } }
          cmdFinish Reg.idxCmd x.part (ixNum s x.part == num) (clearTombs x.image (ixNvec o + cap) (ixNvec x.image + cap) s)) s

/-! Descriptors that name an index -/

def indexOf (s : State) (d : Desc) : Option Index := mget (d.f 1 0 6) s.eng.idxs

def indexBad (s : State) (d : Desc) : Bool := match indexOf s d with | some x => x.ending || x.making | none => true

def indexElse (s : State) (d : Desc) : Bool := match indexOf s d with | some x => x.part != d.part | none => false

/-- Bytes of a plane of the index at an offset of allocation a; whether they are poison, fail to decode or are not there. `heat` counts the access. -/
def ixRead (q seq part a off n : Nat) (heat : Bool) (s : State) : (List Byte × Bool) × State :=
  match allocOf s a with
  | none => ((List.replicate n 0, true), descMod q seq (Desc.decode none) s)
  | some al =>
    let o := al.base * pageSize + off
    match addrOf s o n with
    | .store b =>
      if al.part ≠ part then ((List.replicate n 0, true), descMeet q seq .ownership s)
      else if homeStopped s (.store b) o n none then ((List.replicate n 0, true), descMeet q seq .parity s)
      else
        let (g, s) := memRead o n (if heat then countRead o n s else s)
        if g.pois.isEmpty && !g.codec then ((g.bytes, false), s) else ((g.bytes, true), descMeet q seq .poison s)
    | _ => ((List.replicate n 0, true), descMod q seq (Desc.decode none) s)

/-- Pieces of an index plane, one after the other. -/
def ixReads (q seq part a : Nat) (ps : List (Nat × Nat)) (heat : Bool) (s : State) : (List Byte × Bool) × State :=
  ps.foldl (fun (acc : (List Byte × Bool) × State) p =>
    let ((bs, bad), s) := ixRead q seq part a p.1 p.2 heat acc.2
    ((acc.1.1 ++ bs, acc.1.2 || bad), s)) (([], false), s)

/-- The tombstone bit of an ID; true as well where the bitmap cannot be read. -/
def ixDead (q seq part : Nat) (im : List Byte) (id : Nat) (s : State) : Bool × State :=
  let ((bs, bad), s) := ixRead q seq part (ixTomb im) (id / 8) 1 true s
  (bad || (bs.getD 0 0).getLsbD (id % 8), s)

/-- A line of the index's allocations that agents hold and that a use of it must first recall. -/
def ixHeldLine (s : State) (im : List Byte) (isWrite : Bool) : Option Nat :=
  let lines := s.coh.dir.map (·.1) ++ s.coh.txns.map (·.line)
  (lines.filter fun l => (ixAllocs im).any fun a => match allocOf s a.1 with
    | some al => decide (al.base * pageSize ≤ 64 * l) && decide (64 * l < (al.base + al.pages) * pageSize)
    | none => false).find? fun l => mustWait s (64 * l) 64 isWrite

/-! INSERT (R258, R259) -/

def inNv (d : Desc) : Nat := d.f 1 32 27

/-- SRC is aligned as A is under R178. -/
def inAligned (im : List Byte) (d : Desc) : Bool := ixBin im || ({ va := d.w 2, fmt := ixFmt im, rows := inNv d, cols := ixDim im } : Tensor).aligned

def inCheck (s : State) (d : Desc) : Check :=
  let src := match indexOf s d with | some x => inAligned x.image d | none => true
  { bad := badIf (arithBad d false) 1 ++ badIf (indexBad s d) 8 ++ badIf (inNv d == 0 || decide (67108864 < inNv d)) 12 ++ badIf (!src) 16, own := indexElse s d }

/-- The index and its side list cover the whole address space (R256). -/
def inRanges (s : State) (d : Desc) : Ranges :=
  let src := match indexOf s d with | some x => [(d.w 2, fullPlane x.image (inNv d))] | none => []
  { reads := src ++ (if d.w 3 = 0 then [] else [(d.w 3, 8 * inNv d)]), writes := allSpace }

/-- At its start an INSERT reserves IDs. -/
def insertBegin (q seq : Nat) (d : Desc) (s : State) : State :=
  match indexOf s d with
  | none => s
  | some x =>
    let n := min (inNv d) (ixSideCap x.image - (x.nextId - x.nvecEff))
    let e : Insertion := { idx := d.f 1 0 6, q := q, seq := seq, first := x.nextId, n := n, written := 0, done := false }
    { s with eng := { s.eng with idxs := mmod (d.f 1 0 6) (fun x => { x with nextId := x.nextId + n }) s.eng.idxs, inserts := s.eng.inserts ++ [e] } }

/-- Bytes and poisoned words moved from the source of vector j to its side row: offset in the side plane, source, length. -/
def inMoves (im : List Byte) (d : Desc) (j id : Nat) : List (Nat × Nat × Nat) :=
  ((fullRow im (ixSideCap im) (id % ixSideCap im)).zip (fullRow im (inNv d) j)).map fun p => (p.1.1, d.w 2 + p.2.1, p.1.2)

/-- Where the side rows of an INSERT's vectors lie. -/
def inPlaces (s : State) (im : List Byte) (d : Desc) (e : Insertion) : List (Nat × Nat) :=
  match allocOf s (ixSide im), allocOf s (ixSattr im) with
  | some a, some b => (List.range e.n).flatMap fun j =>
      ((inMoves im d j (e.first + j)).map fun m => (a.base * pageSize + m.1, m.2.2)) ++ [(b.base * pageSize + 8 * ((e.first + j) % ixSideCap im), 8)]
  | _, _ => []

/-- Write a piece of the side list. -/
def sidePut (q seq part unit off : Nat) (bs : List Byte) (pois : List Nat) (s : State) : State :=
  match localPut (.desc q seq unit) part off none false (noVa off) { bs := bs, pois := toVaWords off (noVa off) pois, tally := none, e2e := false } s with
  | (.done st, s) => descMod q seq (Desc.wrote unit none st) s
  | (_, s) => s

/-- Write vector j and its attribute word. -/
def insertRow (q seq : Nat) (im : List Byte) (d : Desc) (e : Insertion) (s : State) (j : Nat) : State :=
  match allocOf s (ixSide im), allocOf s (ixSattr im) with
  | some a, some b =>
    let id := e.first + j
    let s := (inMoves im d j id).foldl (fun s m =>
      let o := a.base * pageSize + m.1
      sidePut q seq d.part j o (d.at m.2.1 m.2.2) (movedWords m.2.1 o m.2.2 d.remotePoison) s) s
    let o := b.base * pageSize + 8 * (id % ixSideCap im)
    let av := d.w 3 + 8 * j
    if d.w 3 = 0 then sidePut q seq d.part j o (leBytes 8 0) [] s else sidePut q seq d.part j o (d.at av 8) (movedWords av o 8 d.remotePoison) s
  | _, _ => descMod q seq (Desc.decode none) s

def insertGo (q seq : Nat) (im : List Byte) (e : Insertion) (d : Desc) (s : State) : State :=
  match (inPlaces s im d e).find? (placeWaits s) with
  | some p => startRecalls p.1 p.2 true none s
  | none =>
    let s := if d.remotePoison.isEmpty then s else descMeet q seq .poison s
    let s := (List.range e.n).foldl (insertRow q seq im d e) s
    let s := { s with eng := { s.eng with inserts := s.eng.inserts.map fun x => if x.q = q ∧ x.seq = seq then { x with written := e.n } else x } }
    let s := if e.n < inNv d then descMeet q seq .quota s else s
    opEnd q seq e.n (descMod q seq (Desc.report e.first) s)

def insertRun (q seq : Nat) (d : Desc) (s : State) : State :=
  match indexOf s d, s.eng.inserts.find? fun e => e.q == q && e.seq == seq with
  | some x, some e =>
    let im := x.image
    let src := (List.range e.n).flatMap fun j => (fullRow im (inNv d) j).map fun p => (d.w 2 + p.1, p.2)
    withBytes q seq (src ++ (if d.w 3 = 0 then [] else [(d.w 3, 8 * e.n)])) (insertGo q seq im e) s
  | _, _ => s

/-- The descriptor of an INSERT has completed. -/
def insertDone (q seq : Nat) (s : State) : State :=
  { s with eng := { s.eng with inserts := s.eng.inserts.map fun e => if e.q = q ∧ e.seq = seq then { e with done := true } else e } }

/-- Set the tombstone bits of IDs. -/
def setTombs (im : List Byte) (ids : List Nat) (s : State) : State :=
  match allocOf s (ixTomb im) with
  | none => s
  | some al => ids.foldl (fun s id =>
      let o := al.base * pageSize + id / 8
      (storeCells o [some (byteAt s o ||| BitVec.ofNat 8 (2 ^ (id % 8)))] s).2) s

/-- INSERT_PUBLISH (R259): once it has completed, its writes are performed and every INSERT with lower IDs has published. IDs whose vectors were not
written are deleted. VIS never goes back. -/
def insertPublish (q seq : Nat) (s : State) : State :=
  match s.eng.inserts.find? fun e => e.q == q && e.seq == seq with
  | none => s
  | some e =>
    if !e.done ∨ descWriting s q seq ∨ (s.eng.inserts.any fun o => o.idx == e.idx && decide (o.first < e.first)) then s
    else
      match mget e.idx s.eng.idxs with
      | none => { s with eng := { s.eng with inserts := s.eng.inserts.erase e } }
      | some x =>
        whenFree (tombPlace s x.image (e.first + e.written) (e.first + e.n)) id (fun s =>
          let s := setTombs x.image ((List.range (e.n - e.written)).map (e.first + e.written + ·)) s
          { s with eng := { s.eng with inserts := s.eng.inserts.erase e, idxs := mset e.idx { x with vis := max x.vis (e.first + e.n) } s.eng.idxs } }) s

/-! DELETE (R260) -/

def deN (d : Desc) : Nat := d.f 3 0 32

def deCheck (s : State) (d : Desc) : Check :=
  { bad := badIf (arithBad d false) 1 ++ badIf (indexBad s d) 8 ++ badIf (deN d == 0) 24, own := indexElse s d }

def deRanges (d : Desc) : Ranges := { reads := [(d.w 2, 8 * deN d)], writes := allSpace }

/-- The ID of list entry i. -/
def deId (d : Desc) (i : Nat) : Nat := leNat (d.at (d.w 2 + 8 * i) 8) % 2 ^ 36

/-- Set one tombstone bit, as an atomic does: a poisoned word does not change, nor one whose write is refused. -/
def deleteOne (q seq part : Nat) (im : List Byte) (id : Nat) (s : State) : State :=
  let ((bs, bad), s) := ixRead q seq part (ixTomb im) (id / 8) 1 true s
  let b := bs.getD 0 0
  if bad ∨ b.getLsbD (id % 8) then s
  else
    match allocOf s (ixTomb im) with
    | none => s
    | some al =>
      let o := al.base * pageSize + id / 8
      let s := sidePut q seq part 0 o [b ||| BitVec.ofNat 8 (2 ^ (id % 8))] [] s
      if (byteAt s o).getLsbD (id % 8) then descMod q seq (fun d => { d with count := d.count + 1 }) s else s

def deleteEntry (q seq : Nat) (x : Index) (d : Desc) (s : State) (i : Nat) : State :=
  let va := d.w 2 + 8 * i
  if d.bad va 8 then descMeet q seq .poison s
  else if x.nextId ≤ deId d i then descDecode q seq va (bump Reg.badId d.part s)
  else deleteOne q seq d.part x.image (deId d i) s

def deleteGo (q seq : Nat) (d : Desc) (s : State) : State :=
  match indexOf s d with
  | none => s
  | some x =>
    let places := match allocOf s (ixTomb x.image) with
      | some al => ((List.range (deN d)).filter fun i => decide (deId d i < x.nextId)).map fun i => (al.base * pageSize + deId d i / 8, 1)
      | none => []
    match places.find? (placeWaits s) with
    | some p => startRecalls p.1 p.2 true none s
    | none =>
      opDone q seq ((List.range (deN d)).foldl (deleteEntry q seq x d) s)

end Sys2Proof.Machine
end

