-- ==== Sys2Proof/Machine/Search.lean ====
section
/-! DEFINITION. SEARCH: distances, the graph walk, cluster lists, the exact modes, the side list, results (chapter 6). -/

namespace Sys2Proof.Machine

open Sys2Proof

/-! Fields (Tables 6-4 and 6-5) -/

def srMode (d : Desc) : Nat := d.f 1 6 2
def srNq (d : Desc) : Nat := d.f 1 8 11
def srK (d : Desc) : Nat := d.f 1 19 11
def srSkipDead (d : Desc) : Bool := d.f 1 30 1 == 1
def srFmt (d : Desc) : Nat := d.f 1 32 4
def srLo (d : Desc) : Nat := d.f 5 0 36
def srSubn (d : Desc) : Nat := d.f 6 0 37
def srStride (d : Desc) : Nat := d.f 7 0 32

/-- Field of the parameter block. -/
def srParam (d : Desc) (off n : Nat) : Nat := leNat (d.at (d.w 4 + off) n)

def srBeam (d : Desc) : Nat := srParam d 0 2
def srHops (d : Desc) : Nat := srParam d 2 2
def srRerank (d : Desc) : Nat := srParam d 4 2
def srIow (d : Desc) : Nat := srParam d 6 1
def srFilter (d : Desc) : Nat := srParam d 7 1
def srNprobe (d : Desc) : Nat := srParam d 8 2

/-- Bytes of a query. -/
def srQueryLen (im : List Byte) (d : Desc) : Nat := if ixBin im then ceilDiv (ixDim im) 8 else ixDim im * elemBytes (srFmt d)

/-- The listed IDs of EXACT_LIST. -/
def srList (d : Desc) : List (Nat × Nat) := if srMode d = 2 then [(d.w 5, 8 * srSubn d)] else []

def srCheck (s : State) (d : Desc) : Check :=
  let im := match indexOf s d with | some x => x.image | none => []
  let out := (d.w 3, 16 * srK d * srNq d)
  let lap := ([(d.w 2, (srNq d - 1) * srStride d + srQueryLen im d), (d.w 4, 64)] ++ srList d).any fun r => overlap r.1 r.2 out.1 out.2
  let bad := badIf (arithBad d false) 1 ++ badIf (indexBad s d || srMode d == 3 || (srMode d == 2 && !ixGraph im)) 8
    ++ badIf (srNq d == 0 || decide (1024 < srNq d)) 9 ++ badIf (srK d == 0 || decide (1024 < srK d)) 10
    ++ badIf (!ixBin im && srFmt d != 0 && srFmt d != 2) 12 ++ badIf (d.w 4 % 64 != 0) 32
    ++ badIf (srMode d == 1 && decide (srSubn d ≤ srLo d)) 40
    ++ badIf ((srMode d == 1 && decide (2 ^ 36 < srSubn d)) || (srMode d == 2 && (srSubn d == 0 || decide (2 ^ 32 ≤ srSubn d)))) 48
    ++ badIf (decide (srStride d < srQueryLen im d) || (!ixBin im && srStride d % elemBytes (srFmt d) != 0)) 56
  { bad := badLap bad (badIf lap 24), own := indexElse s d }

/-- The index covers the whole address space (R256). -/
def srRanges (d : Desc) : Ranges := { reads := allSpace, writes := [(d.w 3, 16 * srK d * srNq d)] }

/-- Offset of the first parameter outside Table 6-5, for an index and the mode that use it. -/
def paramBad (im : List Byte) (d : Desc) : Option Nat :=
  let g := srMode d == 0 && ixGraph im
  let c := srMode d == 0 && !ixGraph im
  (badIf (g && (srBeam d == 0 || decide (1024 < srBeam d))) 0 ++ badIf (g && (srHops d == 0 || decide (4096 < srHops d))) 2
    ++ badIf (g && srRerank d != 0 && (decide (srRerank d < srK d) || decide (4096 < srRerank d))) 4 ++ badIf (g && (srIow d == 0 || decide (16 < srIow d))) 6
    ++ badIf (c && (srNprobe d == 0 || decide (min 4096 (ixC im) < srNprobe d))) 8).head?

/-- Working space of a query (R248). -/
def querySpace (im : List Byte) (d : Desc) : Nat :=
  let n := if srMode d ≠ 0 then 16 * srK d
    else if ixGraph im then 16 * (2 * (srHops d * ixRmax im + ixEntries im) + srBeam d + srRerank d + srK d)
    else 16 * (srNprobe d + srK d)
  roundUp n 4096

/-- A reel's share of the search-beam carve-out. -/
def beamShare (s : State) : Nat := match s.boot.image with | some im => im.beamKib * 1024 | none => 0

/-- The filter of R249. -/
def srPasses (d : Desc) (a : Nat) : Bool :=
  let f := srFilter d
  let terms := (List.range (f % 4)).map fun j => xor (Nat.land a (srParam d (16 + 16 * j) 8) == srParam d (24 + 16 * j) 8) (f.testBit (2 + j))
  if terms.isEmpty then true else if f.testBit 7 then terms.any id else terms.all id

/-! Distances (R241 to R243) -/

/-- A vector as a distance takes it: its elements, or its bits; the blocks that read as zero. -/
structure SVec where
  els : List El
  bits : List Bool
  zeroed : Nat
  deriving DecidableEq, Repr

/-- Bits of a binary vector (R234). -/
def bitsOf (bs : List Byte) (dim : Nat) : List Bool := (List.range dim).map fun i => (bs.getD (i / 8) 0).getLsbD (i % 8)

/-- A stored vector. -/
def storedVec (bin : Bool) (fmt dim : Nat) (nfz : Bool) (bs : List Byte) : SVec :=
  if bin then { els := [], bits := bitsOf bs dim, zeroed := 0 }
  else if isBlock fmt then
    let nb := ceilDiv dim (blkLen fmt)
    let x := (List.range nb).foldl (fun acc j =>
      acc.app (readBlk fmt nfz (slice bs (j * planeBytes fmt) (planeBytes fmt)) (slice bs (nb * planeBytes fmt + j) 1) (fun _ => false) false j
        (min (blkLen fmt) (dim - j * blkLen fmt)))) Els.none
    { els := x.els, bits := [], zeroed := x.zeroed }
  else
    let w := elemBytes fmt
    { els := (List.range dim).map fun i => { v := elemVal fmt (leAt bs (i * w) w), s := fixOne, g := i / 32, p := false, z := isNegZero fmt (leAt bs (i * w) w) }
      bits := [], zeroed := 0 }

/-- An element greater than +0 (R242). -/
def El.positive (e : El) : Bool := match e.v with | .fin x => decide (0 < x) | .inf n => !n | .nan => false

/-- A query: FP32 is rounded to BF16 as a held operand is; bits for binary planes. -/
def queryVec (im : List Byte) (d : Desc) (n : Nat) : SVec :=
  let va := d.w 2 + n * srStride d
  if ixBin im then { els := [], bits := bitsOf (d.at va (srQueryLen im d)) (ixDim im), zeroed := 0 }
  else
    let els := (heldRow { va := va, fmt := srFmt d, rows := 1, cols := ixDim im } d 0).els
    { els := els, bits := els.map El.positive, zeroed := 0 }

/-- Dot product on the vector unit: exact products, FP32 sums in a free order (R105, R128, R241). -/
def dotOf (rnd : Nat → Nat) (a b : List El) : W32 := f32Sum rnd ((a.zip b).map fun e => extraTerm e.1.full e.2.full)

/-- The distance of Table 6-3 from a query to a vector. -/
def distance (metric dim : Nat) (bin : Bool) (rnd : Nat → Nat) (q x : SVec) : W32 :=
  if bin then
    let h := Int.ofNat ((q.bits.zip x.bits).filter fun b => b.1 != b.2).length
    match metric with
    | 0 => f32OfInt (4 * h)
    | 1 => f32OfInt (2 * h - Int.ofNat dim)
    | _ => f32Div (f32OfInt (2 * h)) (f32OfInt (Int.ofNat dim))
  else
    let qx := dotOf rnd x.els q.els
    let qq := dotOf (fun i => rnd (i + 512)) q.els q.els
    let xx := dotOf (fun i => rnd (i + 1024)) x.els x.els
    match metric with
    | 0 =>
      let r := f32Sum (fun i => rnd (i + 1536)) [qq, f32Neg (f32Mul 0x40000000 qx), xx]
      if fpIsNan r then fpNan else if f32Lt 0 r then r else 0
    | 1 => f32Neg qx
    | _ => if f32Zero qq || f32Zero xx then f32One else f32Sub f32One (f32Div qx (f32Sqrt (f32Mul qq xx)))

/-! Candidates -/

structure Cand where
  id : Nat
  dist : W32
  side : Bool
  exact : Bool
  deriving DecidableEq, Repr

/-- Nearer, and among equals the smaller key first. -/
def Cand.before (key : Nat → Nat) (a b : Cand) : Bool := f32Lt a.dist b.dist || (!f32Lt b.dist a.dist && decide (key a.id ≤ key b.id))

/-- The n nearest of a list. Which of equals a director keeps before the merge is free: `key`. -/
def nearest (key : Nat → Nat) (n : Nat) (l : List Cand) : List Cand := (sortBy (Cand.before key) l).take n

/-- What a query's run knows: its descriptor, its image, itself, the free values of its sums. -/
structure SCtx where
  q : Nat
  seq : Nat
  d : Desc
  im : List Byte
  query : SVec
  v : W64
  deriving DecidableEq, Repr

/-- Free order of the sums for a vector of one plane. -/
def SCtx.rnd (c : SCtx) (plane id : Nat) : Nat → Nat := fun i => freeSeq c.v ((plane * 2 ^ 40 + id) * 4096 + i)

/-- Free order of equal candidates. -/
def SCtx.tie (c : SCtx) : Nat → Nat := fun id => freeSeq c.v (2 ^ 80 + id)

/-- A candidate is dropped (R243, Table 6-9). -/
def dropCand (c : SCtx) (s : State) : State := bump Reg.srchDropped c.d.part s

/-- The query holds a NaN (R243). -/
def SCtx.nan (c : SCtx) : Bool := c.query.els.any fun e => match e.v with | .nan => true | _ => false

/-- Distance to a stored vector; none where it is dropped. From a query that holds a NaN every distance but a Hamming distance is one. -/
def score (c : SCtx) (bin : Bool) (fmt plane id : Nat) (bs : List Byte) (bad : Bool) (s : State) : Option W32 × State :=
  if bad then (none, dropCand c s)
  else
    let x := storedVec bin fmt (ixDim c.im) (arNfz c.d.arith) bs
    let s := bumpN Reg.nfZeroed c.d.part x.zeroed s
    let r := distance (ixMetric c.im) (ixDim c.im) bin (c.rnd plane id) c.query x
    if fpIsNan r || (!bin && c.nan) then (none, dropCand c s) else (some r, s)

def SCtx.dead (c : SCtx) (id : Nat) (s : State) : Bool × State := ixDead c.q c.seq c.d.part c.im id s

/-! Scouts (R246, R247) -/

/-- Channel of the block at an offset: the blocks of a page lie evenly over the channels; the first one's channel is free. -/
def channelOf (off : Nat) : Nat := (off / 4096 + (Config.freeWord (2 ^ 67 + off / pageSize)).toNat) % 32

/-- Flash blocks of a record. -/
def recBlocks (rb : Nat) : Nat := ceilDiv rb 4096

/-- Scouts read n blocks from offset `off` of an allocation, each scored or poison. -/
def scoutBlocks (a off n : Nat) (s : State) : State :=
  match allocOf s a with
  | none => s
  | some al =>
    let o := al.base * pageSize + off
    (List.range n).foldl (fun s i =>
      let ch := channelOf (o + 4096 * i)
      if (poisonIn s (o + 4096 * i) 4096).isEmpty then bump Reg.scoutBlocks ch s else bump Reg.scoutPoison ch s) s

/-- The scout of the block at an offset of an allocation returned a candidate. -/
def scoutReturned (a off : Nat) (s : State) : State :=
  match allocOf s a with
  | none => s
  | some al => bump Reg.scoutCands (channelOf (al.base * pageSize + off)) s

/-- The full vector of a graph node, read from flash. -/
def fullScore (c : SCtx) (id : Nat) (heat : Bool) (s : State) : Option W32 × State :=
  let rb := vecRec c.im
  let block := recOff rb id / 4096 * 4096
  let s := if heat then scoutBlocks (ixVec c.im) block (recBlocks rb) (bumpN Reg.srchReads c.d.part (recBlocks rb) s) else s
  let ((bs, bad), s) := ixRead c.q c.seq c.d.part (ixVec c.im) (recOff rb id) (fullBytes c.im) heat s
  match score c (ixBin c.im) (ixFmt c.im) 1 id bs bad s with
  | (some r, s) => (some r, scoutReturned (ixVec c.im) block s)
  | (none, s) => (none, s)

/-! The graph walk (R250) -/

/-- A walk: visited nodes, the beam with its expanded marks, the result list. -/
structure GWalk where
  seen : List Nat
  beam : List (Cand × Bool)
  res : List Cand
  deriving DecidableEq, Repr

/-- Visit node w; an entry point enters the beam whatever its tombstone. -/
def visitNode (c : SCtx) (entry : Bool) (acc : GWalk × State) (w : Nat) : GWalk × State :=
  let (g, s) := acc
  if g.seen.contains w then acc
  else
    let g := { g with seen := w :: g.seen }
    let (dead, s) := c.dead w s
    if !entry && srSkipDead c.d && dead then (g, s)
    else
      let ((bs, bad), s) := ixRead c.q c.seq c.d.part (ixTrav c.im) (w * travRec c.im) (8 + vecBytes (ixTBin c.im) (ixTFmt c.im) (ixDim c.im)) true s
      match score c (ixTBin c.im) (ixTFmt c.im) 0 w (bs.drop 8) bad s with
      | (none, s) => (g, s)
      | (some r, s) =>
        let x : Cand := { id := w, dist := r, side := false, exact := false }
        let beam := (g.beam ++ [(x, false)]) |> sortBy fun a b => Cand.before c.tie a.1 b.1
        let g := { g with beam := if entry then beam else beam.take (srBeam c.d) }
        let keep := if srRerank c.d = 0 then srK c.d else srRerank c.d
        (if !dead && !c.nan && srPasses c.d (leAt bs 0 8) then { g with res := nearest c.tie keep (x :: g.res) } else g, s)

/-- The neighbours in an adjacency record, malformed entries counted (R240). -/
def neighbours (c : SCtx) (w : Nat) (s : State) : List Nat × State :=
  let rb := adjRec c.im
  let ((bs, bad), s) := ixRead c.q c.seq c.d.part (ixAdj c.im) (recOff rb w) (4 + 5 * ixRmax c.im) true (bump Reg.srchReads c.d.part s)
  if bad then ([], s)
  else
    let n := leAt bs 0 2
    let ids := (List.range (min n (ixRmax c.im))).map fun i => leAt bs (4 + 5 * i) 5
    let good := ids.filter fun x => decide (x < 2 ^ 36) && decide (x < ixNvec c.im)
    (good, bumpN Reg.badRef c.d.part (n - good.length) s)

/-- Expand the nearest unexpanded nodes until HOPS are used or none is left. -/
def expand (c : SCtx) : Nat → Nat → GWalk × State → GWalk × State
  | 0, _, acc => acc
  | f + 1, hops, (g, s) =>
    let us := ((g.beam.filter fun b => !b.2).take (min (srIow c.d) (srHops c.d - hops))).map fun b => b.1.id
    if us.isEmpty then (g, s)
    else
      let g := { g with beam := g.beam.map fun b => if us.contains b.1.id then (b.1, true) else b }
      let (ws, s) := us.foldl (fun (acc : List Nat × State) u => let (n, s) := neighbours c u acc.2; (acc.1 ++ n, s)) ([], s)
      expand c f (hops + us.length) (ws.foldl (visitNode c false) (g, s))

/-- Re-rank with full vectors. -/
def rerank (c : SCtx) (l : List Cand) (s : State) : List Cand × State :=
  l.foldl (fun (acc : List Cand × State) x =>
    match fullScore c x.id true acc.2 with
    | (some r, s) => (acc.1 ++ [{ x with dist := r, exact := true }], s)
    | (none, s) => (acc.1, s)) ([], s)

def graphSearch (c : SCtx) (s : State) : List Cand × State :=
  let start := ((List.range (ixEntries c.im)).map (ixEntry c.im)).foldl (visitNode c true) ({ seen := [], beam := [], res := [] }, s)
  let (g, s) := expand c (srHops c.d) 0 start
  if srRerank c.d = 0 then (g.res, s) else rerank c g.res s

/-! Cluster lists (R251) -/

/-- Score centroid k. -/
def centroid (c : SCtx) (acc : List Cand × State) (k : Nat) : List Cand × State :=
  let ((bs, bad), s) := ixReads c.q c.seq c.d.part (ixTrav c.im) (fullRow c.im (ixC c.im) k) false acc.2
  match score c (ixBin c.im) (ixFmt c.im) 2 k bs bad s with
  | (some r, s) => ({ id := k, dist := r, side := false, exact := true } :: acc.1, s)
  | (none, s) => (acc.1, s)

/-- First block and record count of a directory entry; none where it reaches beyond VEC_ALLOC (R240). -/
def clusterExtent (s : State) (im bs : List Byte) : Option (Nat × Nat) :=
  let size := match allocOf s (ixVec im) with | some al => al.pages * pageSize | none => 0
  if leAt bs 0 8 % 4096 ≠ 0 ∨ size < leAt bs 0 8 + recPlane (clusterRec im) (leAt bs 8 4) then none else some (leAt bs 0 8, leAt bs 8 4)

/-- First block and record count of a cluster; none where its directory entry is poison or bad. -/
def clusterAt (c : SCtx) (k : Nat) (s : State) : Option (Nat × Nat) × State :=
  let ((bs, bad), s) := ixRead c.q c.seq c.d.part (ixDir c.im) (16 * k) 16 true s
  if bad then (none, dropCand c s)
  else
    match clusterExtent s c.im bs with
    | none => (none, descMod c.q c.seq (Desc.decode none) (bump Reg.badRef c.d.part s))
    | some e => (some e, s)

/-- A scan of clusters: the candidates held, and the bounds there have been, the newest first. -/
structure CScan where
  held : List Cand
  bounds : List W32
  deriving DecidableEq, Repr

/-- The K-th nearest distance held, +Inf while fewer are held (R251). -/
def kthBound (c : SCtx) (l : List Cand) : W32 :=
  if l.length < srK c.d then 0x7F800000 else match (nearest c.tie (srK c.d) l).getLast? with | some x => x.dist | none => 0x7F800000

/-- A record of a cluster as the scout scores it, against the bound it was sent, and as the director takes what is returned. -/
def clusterRecord (c : SCtx) (off : Nat) (heat : Bool) (ok : Nat → Bool) (bound : W32) (acc : List Cand × State) (i : Nat) : List Cand × State :=
  let o := off + recOff (clusterRec c.im) i
  let ((bs, bad), s) := ixRead c.q c.seq c.d.part (ixVec c.im) o (16 + fullBytes c.im) heat acc.2
  let id := leAt bs 0 8 % 2 ^ 36
  if bad then (acc.1, dropCand c s)
  else if ixNvec c.im ≤ id then (acc.1, bump Reg.badRef c.d.part s)
  else if !srPasses c.d (leAt bs 8 8) then (acc.1, s)
  else
    match score c (ixBin c.im) (ixFmt c.im) 3 ((off / 4096) * 2 ^ 16 + i) (bs.drop 16) false s with
    | (none, s) => (acc.1, s)
    | (some r, s) =>
      if f32Lt bound r then (acc.1, s)
      else
        let s := scoutReturned (ixVec c.im) (o / 4096 * 4096) s
        let (dead, s) := c.dead id s
        (if dead || !ok id then acc.1 else { id := id, dist := r, side := false, exact := true } :: acc.1, s)

/-- The records of a cluster's blocks, block after block. With each read goes the bound as it stood when the read was issued: one of those so far, which is
free; the exact modes send none. -/
def clusterScan (c : SCtx) (heat : Bool) (ok : Nat → Bool) (acc : CScan × State) (k : Nat) : CScan × State :=
  match clusterAt c k acc.2 with
  | (none, s) => (acc.1, s)
  | (some (off, n), s) =>
    let blocks := recPlane (clusterRec c.im) n / 4096
    let s := if heat then scoutBlocks (ixVec c.im) off blocks (bumpN Reg.srchReads c.d.part blocks s) else s
    let per := max 1 (4096 / clusterRec c.im)
    (List.range (ceilDiv n per)).foldl (fun (acc : CScan × State) b =>
      let (j, s) := drawBelow acc.1.bounds.length acc.2
      let bound := if heat then acc.1.bounds.getD j 0x7F800000 else 0x7F800000
      let (l, s) := ((List.range (min per (n - b * per))).map (b * per + ·)).foldl (clusterRecord c off heat ok bound) (acc.1.held, s)
      ({ held := l, bounds := kthBound c l :: acc.1.bounds }, s)) (acc.1, s)

/-- Some clusters scanned one after the other. -/
def clustersScan (c : SCtx) (heat : Bool) (ok : Nat → Bool) (ks : List Nat) (s : State) : List Cand × State :=
  let (x, s) := ks.foldl (clusterScan c heat ok) ({ held := [], bounds := [0x7F800000] }, s)
  (x.held, s)

def clusterSearch (c : SCtx) (s : State) : List Cand × State :=
  let (cs, s) := (List.range (ixC c.im)).foldl (centroid c) ([], s)
  clustersScan c true (fun _ => true) ((nearest id (srNprobe c.d) cs).map fun x => x.id) s

/-! The exact modes and the side list (R252, R253) -/

/-- IDs of EXACT_LIST, each once; one at or above VIS is skipped. -/
def listedIds (d : Desc) (vis : Nat) : List Nat :=
  (((List.range (srSubn d)).filter fun i => !d.bad (d.w 5 + 8 * i) 8).map fun i => leNat (d.at (d.w 5 + 8 * i) 8)).filter (fun x => decide (x < vis)) |>.dedup

/-- Whether an ID lies in the subset of an exact mode. -/
def inSubset (d : Desc) (ids : List Nat) (id : Nat) : Bool :=
  match srMode d with | 0 => true | 1 => decide (srLo d ≤ id) && decide (id < srSubn d) | _ => ids.contains id

/-- IDs of a graph's subset. -/
def graphSubset (im : List Byte) (d : Desc) (ids : List Nat) : List Nat :=
  if srMode d = 1 then (List.range (min (srSubn d) (ixNvec im) - srLo d)).map (srLo d + ·) else ids.filter fun x => decide (x < ixNvec im)

/-- A vector of a graph's subset: its scout scores it, then the director asks whether it is dead or filtered (R253). -/
def exactNode (c : SCtx) (acc : List Cand × State) (id : Nat) : List Cand × State :=
  match fullScore c id false acc.2 with
  | (none, s) => (acc.1, s)
  | (some r, s) =>
    let (dead, s) := c.dead id s
    if dead then (acc.1, s)
    else
      let ((bs, bad), s) := ixRead c.q c.seq c.d.part (ixTrav c.im) (id * travRec c.im) 8 true s
      if bad then (acc.1, dropCand c s)
      else (if srPasses c.d (leAt bs 0 8) then { id := id, dist := r, side := false, exact := true } :: acc.1 else acc.1, s)

/-- A vector of the side list. -/
def sideNode (c : SCtx) (acc : List Cand × State) (id : Nat) : List Cand × State :=
  let (dead, s) := c.dead id acc.2
  if dead then (acc.1, s)
  else
    let r := id % ixSideCap c.im
    let ((ab, abad), s) := ixRead c.q c.seq c.d.part (ixSattr c.im) (8 * r) 8 false s
    if abad then (acc.1, dropCand c s)
    else if !srPasses c.d (leAt ab 0 8) then (acc.1, s)
    else
      let ((bs, bad), s) := ixReads c.q c.seq c.d.part (ixSide c.im) (fullRow c.im (ixSideCap c.im) r) false s
      match score c (ixBin c.im) (ixFmt c.im) 4 id bs bad s with
      | (some x, s) => ({ id := id, dist := x, side := true, exact := true } :: acc.1, s)
      | (none, s) => (acc.1, s)

/-! Results (R254, R255) -/

/-- One entry of Table 6-6; a distance of −0 is written as +0 (R113). -/
def resultBytes (x : Cand) : List Byte := leBytes 8 x.id ++ leBytes 4 (plusZero x.dist).toNat ++ leBytes 4 (b2n x.side + 2 * b2n x.exact)

def emptyResult : List Byte := leBytes 8 (2 ^ 64 - 1) ++ leBytes 4 0x7F800000 ++ leBytes 4 0

/-- The nearest of a query, each ID once, ties to the lower ID. -/
def mergeResults (k : Nat) (l : List Cand) : List Cand :=
  ((sortBy (Cand.before id) l).foldl (fun acc x => if acc.any fun y => y.id == x.id then acc else acc ++ [x]) []).take k

/-- A query's own bytes, its parameters or its subset were read as poison: it finds nothing (R478, log entry 50). -/
def queryPoison (im : List Byte) (d : Desc) (n : Nat) : Bool := d.bad (d.w 2 + n * srStride d) (srQueryLen im d) || d.bad (d.w 4) 64

/-- All candidates of a query. -/
def querySearch (c : SCtx) (vis : Nat) (s : State) : List Cand × State :=
  let ids := if srMode c.d = 2 then listedIds c.d vis else []
  let (a, s) := match srMode c.d, ixGraph c.im with
    | 0, true => graphSearch c s
    | 0, false => clusterSearch c s
    | _, true => (graphSubset c.im c.d ids).foldl (exactNode c) ([], s)
    | _, false => clustersScan c false (inSubset c.d ids) (List.range (ixC c.im)) s
  ((List.range (vis - ixNvec c.im)).map (ixNvec c.im + ·) |>.filter (inSubset c.d ids)).foldl (sideNode c) (a, s)

/-- Run query n and write its results. -/
def queryRun (q seq : Nat) (r : SearchRun) (d : Desc) (s : State) (n : Nat) : State :=
  let (v, s) := draw s
  let c : SCtx := { q := q, seq := seq, d := d, im := r.image, query := queryVec r.image d n, v := v }
  let (l, s) := if queryPoison r.image d n then ([], descMeet q seq .poison s) else querySearch c r.vis s
  let out := mergeResults (srK d) l
  let k := out.length
  let bs := (out.map resultBytes ++ List.replicate (srK d - k) emptyResult).flatten
  let s := opPut q seq n (d.w 3 + 16 * srK d * n) { bs := bs, pois := [], tally := none, e2e := false } s
  let s := descMod q seq (fun d => { d with count := d.count + k }) (bump Reg.srchQueries d.part s)
  if k < srK d then descMeet q seq .short (bump Reg.srchShort d.part s) else s

/-! Queries and their working space (R245, R248) -/


/-- A waiting query may start: nothing waits on its reel before it, and the space is free. -/
def queryMayStart (s : State) (x : Query) : Bool :=
  let mine := s.eng.queries.filter fun y => y.reel == x.reel
  let used := ((mine.filter fun y => y.started).map fun y => y.wq).sum
  (match mine.find? fun y => !y.started with | some y => y.q == x.q && y.seq == x.seq && y.n == x.n | none => true) && decide (used + x.wq ≤ beamShare s)

/-- Start a query. -/
def queryStart (x : Query) (s : State) : State :=
  { s with eng := { s.eng with queries := s.eng.queries.map fun y => if y.q = x.q ∧ y.seq = x.seq ∧ y.n = x.n then { y with started := true } else y } }

/-- Query n arrives: it starts, or waits and is counted. -/
def queryArrive (q seq part wq span : Nat) (s : State) (n : Nat) : State :=
  let x : Query := { q := q, seq := seq, n := n, reel := shareReel s q span n, wq := wq, started := false }
  let s := { s with eng := { s.eng with queries := s.eng.queries ++ [x] } }
  if queryMayStart s x then queryStart x s else bump Reg.srchWaits part s

/-- Count accesses to a range page by page. -/
def countRange (a off n : Nat) (s : State) : State :=
  match allocOf s a with
  | some al => (piecesOf (al.base * pageSize + off) n).foldl (fun s pc => countRead pc.1 pc.2 s) s
  | none => s

/-- What a descriptor reads once for all its queries (R252, R253): side list, centroids, the subset's blocks. -/
def readOnce (r : SearchRun) (d : Desc) (s : State) : State :=
  let im := r.image
  let ids := if srMode d = 2 then listedIds d r.vis else []
  let rows := (List.range (r.vis - ixNvec im)).map fun i => (ixNvec im + i) % ixSideCap im
  let s := rows.foldl (fun s i => (fullRow im (ixSideCap im) i).foldl (fun s p => countRange (ixSide im) p.1 p.2 s) (countRange (ixSattr im) (8 * i) 8 s)) s
  if srMode d = 0 then
    (if ixGraph im then s else (List.range (ixC im)).foldl (fun s k => (fullRow im (ixC im) k).foldl (fun s p => countRange (ixTrav im) p.1 p.2 s) s) s)
  else if ixGraph im then
    let rb := vecRec im
    let blocks := ((graphSubset im d ids).map fun i => recOff rb i / 4096 * 4096).dedup
    blocks.foldl (fun s o => scoutBlocks (ixVec im) o (recBlocks rb) (countRange (ixVec im) o (4096 * recBlocks rb) (bumpN Reg.srchReads d.part (recBlocks rb) s))) s
  else
    (List.range (ixC im)).foldl (fun s k =>
      match ixRead r.q r.seq d.part (ixDir im) (16 * k) 16 true s with
      | ((bs, false), s) =>
        (match clusterExtent s im bs with
        | none => s
        | some (off, n) =>
          let n := recPlane (clusterRec im) n
          scoutBlocks (ixVec im) off (n / 4096) (countRange (ixVec im) off n (bumpN Reg.srchReads d.part (n / 4096) s)))
      | (_, s) => s) s

/-- Listed IDs at or above VIS are counted once, and poisoned list entries drop. -/
def listChecks (q seq : Nat) (r : SearchRun) (d : Desc) (s : State) : State :=
  if srMode d ≠ 2 then s
  else
    let all := List.range (srSubn d)
    let pois := all.filter fun i => d.bad (d.w 5 + 8 * i) 8
    let high := all.filter fun i => !d.bad (d.w 5 + 8 * i) 8 && decide (r.vis ≤ leNat (d.at (d.w 5 + 8 * i) 8))
    let s := bumpN Reg.srchDropped d.part pois.length (bumpN Reg.badId d.part high.length s)
    let s := if pois.isEmpty then s else descMeet q seq .poison s
    match high with | i :: _ => descDecode q seq (d.w 5 + 8 * i) s | [] => s

/-- The first look at a SEARCH: its parameters, then its queries. -/
def searchSetup (q seq : Nat) (r : SearchRun) (d : Desc) (s : State) : State :=
  match paramBad r.image d with
  | some o => opEnd q seq 0 (descDecode q seq (d.w 4 + o) s)
  | none =>
    if beamShare s < querySpace r.image d then opEnd q seq 0 (descDecode q seq (d.w 4) s)
    else
      let s := readOnce r d (listChecks q seq r d s)
      (List.range (srNq d)).foldl (queryArrive q seq d.part (querySpace r.image d) d.span) (descMod q seq (fun d => { d with step := 1 }) s)

/-- The queries of a descriptor that may run now. -/
def queriesOf (s : State) (q seq : Nat) : List Query := s.eng.queries.filter fun x => x.q == q && x.seq == seq

/-- Run the queries that have started; each frees its space at its end. The descriptor ends with its last query. -/
def searchGo (q seq : Nat) (r : SearchRun) (d : Desc) (s : State) : State :=
  let now := (queriesOf s q seq).filter fun x => x.started
  withBytes q seq (now.map fun x => (d.w 2 + x.n * srStride d, srQueryLen r.image d)) (fun d s =>
    match ixHeldLine s r.image false with
    | some l => startRecalls (64 * l) 64 false none s
    | none =>
      let s := now.foldl (fun s x => if (descOf s q seq).any fun d => d.stage == .started then queryRun q seq r d s x.n else s) s
      let s := { s with eng := { s.eng with queries := s.eng.queries.filter fun x => !(now.contains x) } }
      if (queriesOf s q seq).isEmpty then opDone q seq s else s) s

def searchRun (q seq : Nat) (_ : Desc) (s : State) : State :=
  match s.eng.searches.find? fun r => r.q == q && r.seq == seq, descOf s q seq with
  | some r, some d =>
    withBytes q seq ([(d.w 4, 64)] ++ srList d) (fun d s =>
      let s := if d.step = 0 then searchSetup q seq r d s else s
      match descOf s q seq with
      | some d => if d.stage = .started then searchGo q seq r d s else s
      | none => s) s
  | _, _ => s

/-- A query that waited starts once its reel has room (R248), and runs. -/
def queryGo (q seq n : Nat) (s : State) : State :=
  match s.eng.queries.find? fun x => x.q == q && x.seq == seq && x.n == n && !x.started with
  | none => s
  | some x =>
    if queryMayStart s x then
      let s := queryStart x s
      match descOf s q seq with
      | some d => if d.stage = .started then searchRun q seq d s else s
      | none => s
    else s

/-! Start and end of a SEARCH -/

/-- A SEARCH samples its image and VIS as it starts (R252, R256). -/
def searchBegin (q seq : Nat) (d : Desc) (s : State) : State :=
  match indexOf s d with
  | none => s
  | some x => { s with eng := { s.eng with searches := s.eng.searches ++ [{ q := q, seq := seq, idx := d.f 1 0 6, vis := x.vis, image := x.image, old := false }] } }

/-- A SEARCH has completed: its queries hold nothing any more. -/
def searchEnd (q seq : Nat) (s : State) : State :=
  { s with eng := { s.eng with
    searches := s.eng.searches.filter fun r => !(r.q == q && r.seq == seq)
    queries := s.eng.queries.filter fun x => !(x.q == q && x.seq == seq) } }

end Sys2Proof.Machine
end

