-- ==== Sys2Proof/Machine/CodecCmd.lean ====
section
/-! DEFINITION. The codec's commands: SQUEEZE and UNSQUEEZE, the lanes' encoding, the decode tables (chapter 7). -/

namespace Sys2Proof.Machine

open Sys2Proof

/-! Storing what a lane made (R270, R281, R282) -/

/-- What became of a block. -/
inductive Encoded where
  | coded
  | raw
  deriving DecidableEq, Repr

/-- Store the content of block b raw, unless it is. -/
def storeRaw (b : Nat) (bs : List Byte) (s : State) : State := if blockCoded (blockMeta s b) then rawWrite (b * blockSize) bs (setMeta b rawMeta s) else s

/-- Encode block b, whose content is known, and store the stream with its metadata in one step; raw where no codec permitted gives one, or where the
stream does not decode to it under VERIFY. -/
def encodeStore (lane b part codec slot fmt : Nat) (bs : List Byte) (s : State) : Encoded × State :=
  match encodeBlock (slotOf s) codec slot fmt bs with
  | none => (.raw, bump Reg.codecRaw part (storeRaw b bs (laneWork lane blockSize 0 s)))
  | some st =>
    let s := laneWork lane blockSize st.length s
    let m := streamMeta st
    if rbit s Reg.codecCfg 0 0 && decodeBlock (slotOf s) m (st ++ List.replicate (blockTag m * 256 - st.length) 0) != some bs then
      (.raw, bump Reg.codecVerifyFail part (storeRaw b bs s))
    else (.coded, bump Reg.codecStored part (rawWrite (b * blockSize) st (setMeta b m s)))

/-! Lanes (R279 to R282, R290) -/

/-- What the check of a lane's queue found on the block it holds (R292, Table 14-3): false where the word is lost and the block stays raw. -/
def laneChecked (b : Nat) (m : Media) (s : State) : Bool × State :=
  match m with
  | .good => (true, s)
  | .corrected => (true, noteCe 0 0 (bump Reg.stageCe 0 s))
  | _ => (false, trigger 2 (w64 (b * blockSize)) (some (partAt s (b * blockSize))) 0 (bump Reg.stageUe 0 s))

/-- The lane encodes the first block of its queue. A disturbed encode is discarded; a block that no longer may be compressed stays as it is, and so does
one whose queued copy the check found lost (log entry 152). -/
def laneEncode (l : Nat) (m : Media) (s : State) : State :=
  match laneJobs s l with
  | [] => s
  | j :: rest =>
    let s := setJobs l rest s
    if j.disturbed then bump Reg.codecDisturbed j.part s
    else if !squeezable s j.block || blockCoded (blockMeta s j.block) || writeGate s (j.block * blockSize) == .hold || writeGate s (j.block * blockSize) == .roDropped then s
    else
      let (g, s) := readBlock j.block s
      match laneChecked j.block m s with
      | (false, s) => s
      | (true, s) => if g.codec || !g.pois.isEmpty then s else (encodeStore l j.block j.part j.codec j.slot j.fmt g.bytes s).2

/-! SQUEEZE and UNSQUEEZE (R283, R284) -/

def sqLen (d : Desc) : Nat := d.f 2 0 40
def sqCodec (d : Desc) : Nat := d.f 3 0 2
def sqFmt (d : Desc) : Nat := d.f 3 2 4
def sqSlot (d : Desc) : Nat := d.f 3 6 3

def sqCheck (s : State) (d : Desc) : Check :=
  let sl := slotOf s (sqSlot d)
  let bad := d.opcode == 0x40 && ((sqCodec d == 2 && (!sl.valid || sl.fmt != sqFmt d)) || (sqCodec d == 3 && decide (1 < sqFmt d)))
  { bad := badIf (arithBad d false) 1 ++ badIf (d.w 1 % blockSize != 0) 8 ++ badIf (sqLen d % blockSize != 0) 16 ++ badIf bad 24, own := false }

def sqRanges (d : Desc) : Ranges := { reads := [(d.w 1, sqLen d)], writes := [(d.w 1, sqLen d)] }

/-- One block of the home: false where it must wait. -/
def sqLocal (q seq part b : Nat) (d : Desc) (s : State) : Bool × State :=
  let off := b * blockSize
  let skip := fun s : State => (true, bump Reg.codecSkipped part s)
  match addrOf s off blockSize with
  | .store a =>
    let owner := addrPart s (.store a)
    if fkey s owner != fkey s part then (true, descMeet q seq .ownership (bump Reg.fabRefused owner s))
    else if !squeezable s b then skip s
    else if homeStopped s (.store a) off blockSize none then (true, descMeet q seq .parity s)
    else if 64 ≤ (laneJobs s (sqLane q d.span b)).length ∨ writeGate s off = .hold then (false, s)
    else if writeGate s off = .roDropped then (true, descMeet q seq .quota s)
    else
      let was := blockCoded (blockMeta s b)
      let (g, s) := readBlock b (countRead off blockSize s)
      let up := fun s : State => descMod q seq (fun d => { d with count := d.count + 1 }) s
      if g.codec then (true, descMeet q seq .codec s)
      else if !g.pois.isEmpty then (true, descMeet q seq .poison s)
      else if d.opcode = 0x41 then (true, if was then up (storeRaw b g.bytes s) else s)
      else
        match encodeStore (sqLane q d.span b) b owner (sqCodec d) (sqSlot d) (sqFmt d) g.bytes s with
        | (.coded, s) => (true, up s)
        | (.raw, s) => (true, s)
  | _ => skip s

/-- One block of the range; one whose home is another hub, the host or the stage is not eligible (log entry 51). -/
def sqBlock (q seq : Nat) (d : Desc) (va : Nat) (s : State) : Bool × State :=
  match xlate d.asid va true true s with
  | (.fault, s) => (true, descFault q seq va s)
  | (.atsRefused, s) => (true, descFault q seq va s)
  | (.host _ _, s) => (true, bump Reg.codecSkipped d.part s)
  | (.stage _, s) => (true, bump Reg.codecSkipped d.part s)
  | (.fabric fa, s) =>
    match resolve fa d.part 1 s with
    | (.decode, s) => (true, descDecode q seq va s)
    | (.ownership, s) => (true, descMeet q seq .ownership s)
    | (.home ep off, s) => if ep = selfEp s ∧ off % blockSize = 0 then sqLocal q seq d.part (off / blockSize) d s else (true, bump Reg.codecSkipped d.part s)

/-- Block after block; `step` counts those done. -/
def sqGo (q seq : Nat) : Nat → State → State
  | 0, s => s
  | f + 1, s =>
    match descOf s q seq with
    | none => s
    | some d =>
      if d.stage ≠ .started then s
      else if sqLen d ≤ d.step * blockSize then opEnd q seq d.count s
      else if vaHeld s d.asid (d.w 1 + d.step * blockSize) blockSize then s
      else
        match sqBlock q seq d (d.w 1 + d.step * blockSize) s with
        | (true, s) => sqGo q seq f (descMod q seq (fun d => { d with step := d.step + 1 }) s)
        | (false, s) => s

def sqRun (q seq : Nat) (d : Desc) (s : State) : State := sqGo q seq (sqLen d / blockSize + 1) s

/-! Decode tables (R286 to R289) -/

/-- The in-use count of a slot: blocks in lane queues that name it. -/
def slotInUse (s : State) (i : Nat) : Nat := ((s.eng.lanes.map fun l => (l.2.filter fun j => j.slot == i && (j.codec == 0 || j.codec == 2)).length)).sum

/-- The at-rest count of a slot: compressed blocks stored here that name it. -/
def slotAtRest (s : State) (i : Nat) : Nat := (s.store.blk.filter fun e => blockCoded e.2 && e.2.getLsbD 7 && e.2.toNat / 16 % 8 == i).length

/-- Code lengths of a table image. -/
def imageLens (bs : List Byte) : List Nat := (List.range 257).map fun i => (bs.getD (4 + i / 2) 0).toNat / 16 ^ (i % 2) % 16

/-- An image that LOAD refuses with DECODE. -/
def imageBad (bs : List Byte) : Bool :=
  let fmt := (bs.getD 0 0).toNat % 16
  let l := imageLens bs
  decide (2 < fmt) || l.getD 256 0 == 0 || (fmt == 2 && ((l.take 256).drop 32).any fun x => x != 0)
    || decide (2 ^ 15 < (l.map fun x => if x = 0 then 0 else 2 ^ (15 - x)).sum)

def ctblSlot (s : State) : Nat := rfld s Reg.ctblCmd 0 16 3

def ctblOff (s : State) : Nat := (rget s Reg.ctblImageLo 0).toNat / 64 * 64 + rfld s Reg.ctblImageHi 0 0 18 * 2 ^ 32

def ctblLoadRun (s : State) : State :=
  let i := ctblSlot s
  let fin := fun (st : Status) (s : State) => cmdEnd Reg.ctblCmd 0 st s
  match addrOf s (ctblOff s) 133 with
  | .store _ =>
    let (g, s) := memRead (ctblOff s) 133 s
    let old := slotOf s i
    if !g.pois.isEmpty || imageBad g.bytes then fin .decode s
    else if slotInUse s i ≠ 0 ∨ (old.gen = 255 ∧ slotAtRest s i ≠ 0) then fin .quota s
    else
      let x : CtSlot := { valid := true, fmt := (g.bytes.getD 0 0).toNat % 16, gen := (old.gen + 1) % 256, lens := imageLens g.bytes }
      fin .ok { s with eng := { s.eng with ctbl := mset i x s.eng.ctbl } }
  | _ => fin .decode s

def ctblRetireRun (s : State) : State :=
  let i := ctblSlot s
  if slotInUse s i ≠ 0 then cmdEnd Reg.ctblCmd 0 .quota s
  else cmdEnd Reg.ctblCmd 0 .ok { s with eng := { s.eng with ctbl := mmod i (fun x => { x with valid := false }) s.eng.ctbl } }

end Sys2Proof.Machine
end

