-- ==== Sys2Proof/Machine/SnapOps.lean ====
section
/-! DEFINITION. SNAPSHOT, STEPMARK and the snapshot stream (chapter 14, R490 to R498). -/

namespace Sys2Proof.Machine

open Sys2Proof

/-! Fields (Table 14-5) -/

def snList (d : Desc) : Nat := d.w 1
def snN (d : Desc) : Nat := d.f 2 0 16
def snIncr (d : Desc) : Bool := d.f 2 16 1 == 1
def snId (d : Desc) : Nat := d.f 2 32 32
def snDest (d : Desc) : Nat := d.w 3
def snLen (d : Desc) : Nat := d.f 4 0 40
def snTally (d : Desc) : Option Nat := if d.f 6 16 1 = 1 then some (d.f 6 0 16) else none
def snVector (d : Desc) : Option Nat := if d.f 6 30 1 = 1 then some (d.f 6 24 6) else none

/-- Entries 1 to 4,096 and an aligned destination (R491); SNAP_TALLY is the partition's (R162). -/
def snCheck (s : State) (d : Desc) : Check :=
  let bad := badIf (arithBad d false) 1 ++ badIf (snN d == 0 || decide (4096 < snN d)) 16 ++ badIf (snDest d % pageSize != 0) 24
  { bad := bad, own := match snTally d with | some t => notOurs s d.part t | none => false }

def snRanges (d : Desc) : Ranges := { reads := [(snList d, 16 * snN d)], writes := [] }

/-- Entry i of the range list: allocation, first page, count. -/
def snEntry (d : Desc) (i : Nat) : Nat × Nat × Nat :=
  let e := d.at (snList d + 16 * i) 16
  (leAt e 0 2, leAt e 4 4, leAt e 8 4)

def snLive (s : State) (a : Nat) : Option Alloc := match allocOf s a with | some x => if x.draining then none else some x | none => none

/-- An entry leaves its allocation, or shares a page with another one (R491). -/
def snBad (s : State) (d : Desc) (i : Nat) : Bool :=
  let (a, f, n) := snEntry d i
  match snLive s a with
  | none => true
  | some x => decide (x.pages < f + n) || (List.range i).any fun j => let (b, g, m) := snEntry d j; b == a && overlap f n g m

def snForeign (s : State) (d : Desc) (i : Nat) : Bool :=
  match snLive s (snEntry d i).1 with | some x => x.part != d.part | none => false

/-- The pages of the ranges in range-list order, each with its allocation. -/
def snPages (s : State) (d : Desc) : List (Nat × Nat) :=
  (List.range (snN d)).flatMap fun i =>
    let (a, f, n) := snEntry d i
    match snLive s a with | some x => (List.range n).map fun j => (x.base + f + j, a) | none => []

def pageDirty (s : State) (pg : Nat) : Bool := match mget pg s.store.pages with | some p => p.dirty | none => false

/-- The manifest rounded up (R494), and the image's bytes. -/
def snManifest (n : Nat) : Nat := roundUp (64 + 16 * n) pageSize

def snImage (n : Nat) : Nat := snManifest n + n * pageSize

/-- A SNAPSHOT that starts while a stream runs (R496). -/
def snRefused (s : State) (d : Desc) : State :=
  trigger 13 (w64 (snId d + Status.quota.code * 2 ^ 32)) (some d.part) 0 (raiseOpt d.part (snVector d) (bump Reg.snapRefused 0 s))

/-- Capture (R492): the pages become SNAP, their DIRTY bits clear, the stream begins. -/
def snCapture (q : Nat) (d : Desc) (ps : List (Nat × Nat)) (s : State) : State :=
  let s := ps.foldl (fun s p => pageMod p.1 (fun x => { x with dirty := false }) s) s
  let s := rset Reg.snapStatus 0 (setFld (setFld (rget s Reg.snapStatus 0) 0 1 1) 16 8 d.part) s
  let sn : Snap := {
    part := d.part, asid := d.asid, q := q, dest := snDest d, id := snId d, baseId := if snIncr d then d.f 7 0 32 else 0, incr := snIncr d,
    step := d.w 5, pages := ps, left := ps.map (·.1), copies := [], tally := snTally d, vector := snVector d, status := .ok, waiting := [],
    cur := none, header := false }
  { s with rel := { s.rel with snap := some sn } }

/-- The snapshot that a descriptor's bytes describe, for descriptor seq of queue q: its list is read, then its pages are captured in one step. -/
def snapGo (q seq : Nat) (bytes : List Byte) (s : State) : State :=
  match descOf s q seq with
  | none => s
  | some d =>
    let d := { d with bytes := bytes }
    if s.rel.snap.isSome then opEnd q seq 0 (descMeet q seq .quota (snRefused s d))
    else
      withBytes q seq [(snList d, 16 * snN d)] (fun d s =>
        let d := { d with bytes := bytes }
        if d.statuses.any (fun st => st != .ok) then opEnd q seq 0 s
        else if d.bad (snList d) (16 * snN d) then opEnd q seq 0 (descMeet q seq .poison s)
        else
          let s := match (List.range (snN d)).find? (snBad s d) with | some i => descDecode q seq (snList d + 16 * i) s | none => s
          let s := if (List.range (snN d)).any (snForeign s d) then descMeet q seq .ownership s else s
          if ((descOf s q seq).map fun x => x.statuses.isEmpty).getD false then
            let ps := (snPages s d).filter fun p => !snIncr d || pageDirty s p.1
            if snLen d < snImage ps.length then opEnd q seq 0 (descMeet q seq .quota s) else opEnd q seq ps.length (snCapture q d ps s)
          else opEnd q seq 0 s) s

/-! STEPMARK (R497) -/

/-- The template as the SNAPSHOT performed: STEP and ID are the mark's. -/
def stepBytes (d : Desc) : List Byte :=
  splice (splice (d.at (d.w 2) 64) 40 (leBytes 8 (d.w 1))) 20 (leBytes 4 (d.w 1))

/-- A due STEPMARK performs its template; what the template's fields break counts as it would for the SNAPSHOT. -/
def stepGo (q seq : Nat) (d : Desc) (s : State) : State :=
  if (d.statuses.any fun st => st != .ok) then opEnd q seq 0 s
  else if d.bad (d.w 2) 64 then opEnd q seq 0 (descMeet q seq .poison s)
  else
    let t := { d with bytes := stepBytes d }
    if t.opcode ≠ 0x60 then opEnd q seq 0 (descDecode q seq (d.w 2) s)
    else
      let c := snCheck s t
      let s := if c.own then descMeet q seq .ownership s else s
      let s := match c.bad with | [] => s | o :: _ => descDecode q seq (d.w 2 + o) s
      if c.own || !c.bad.isEmpty then opEnd q seq 0 s else snapGo q seq t.bytes s

/-- The template is read (R165). -/
def stepRanges (d : Desc) : Ranges := { reads := if d.w 2 = 0 then [] else [(d.w 2, 64)], writes := [] }

def stepRun (q seq : Nat) (d : Desc) (s : State) : State :=
  let s := { s with rel := { s.rel with stepLast := w64 (d.w 1) } }
  let n := d.f 3 0 16
  if d.w 2 = 0 ∨ n = 0 ∨ d.w 1 % n ≠ 0 then opEnd q seq 0 s else withBytes q seq [(d.w 2, 64)] (stepGo q seq) s

/-! The stream (R493 to R495) -/

def snapMod (f : Snap → Snap) (s : State) : State := { s with rel := { s.rel with snap := s.rel.snap.map f } }

/-- The stream writes bytes of its image. -/
def snapPut (sn : Snap) (va : Nat) (bs : List Byte) (pois : List Nat) (s : State) : State :=
  (piecesOf va bs.length).foldl (fun s pc =>
    if (s.rel.snap.map fun x => x.status == Status.ok || x.header).getD false then
      match putPiece .snap sn.part sn.asid pc.1 { bs := (bs.drop (pc.1 - va)).take pc.2, pois := pois.filter fun x => (wordsOf pc.1 pc.2).contains x, tally := none, e2e := false } s with
      | (.done .ok, s) => s
      | (.done st, s) => snapFail st s
      | (.sent, s) => s
      | (_, s) => snapFail .fault s
    else s) s

/-- A write of the stream is not yet performed. -/
def snapWriting (s : State) : Bool := s.fab.reqs.any fun r => r.owner == ReqOwner.snap

/-- A range of the image is held back by a commit or a copy (Table 10-7, R418). -/
def snapHeld (s : State) (sn : Snap) (va n : Nat) : Bool := vaHeld s sn.asid va n

/-- The content a page was captured with: its copy where a write made one, else what it holds. -/
def snContent (s : State) (sn : Snap) (pg : Nat) : List (Nat × Byte) × List Nat :=
  match sn.copies.find? fun c => c.page == pg with | some c => (c.cells, c.poison) | none => pageContent s pg

/-- The 2 MiB of a page from its cells; `bad` are the lines taken as zero. -/
def snBytes (pg : Nat) (cells : List (Nat × Byte)) (bad : List Nat) : List Byte :=
  let m := cells |> sortBy fun a b => decide (a.1 ≤ b.1)
  let rec fill : Nat → Nat → List (Nat × Byte) → List Byte
    | 0, _, _ => []
    | n + 1, o, [] => 0 :: fill n (o + 1) []
    | n + 1, o, c :: cs => if c.1 = o then (if bad.contains (o / 64) then 0 else c.2) :: fill n (o + 1) cs else 0 :: fill n (o + 1) (c :: cs)
  fill pageSize (pg * pageSize) m

/-- The manifest entry of a page (R494). -/
def snManifestEntry (pg a : Nat) (cells : List (Nat × Byte)) (pois : List Nat) : List Byte :=
  let lines := (pois.map (· / 8)).dedup
  leBytes 8 (pg * pageSize + b2n (!pois.isEmpty)) ++ leBytes 4 (crc32c (snBytes pg cells lines)).toNat ++ leBytes 2 a ++ [0, 0]


/-- The page the stream takes next: one that a write waits for, else the first left (R493, R495). -/
def snNext (sn : Snap) : Option Nat :=
  match (sn.waiting.map heldPage).find? fun pg => sn.left.contains pg with | some pg => some pg | none => sn.left.head?

/-- The stream takes a page: its bytes and its entry are written, and the writes that waited for it run. -/
def snapPage (s : State) : State :=
  match s.rel.snap with
  | none => s
  | some sn =>
    match snNext sn with
    | none => s
    | some pg =>
      let i := (sn.pages.map (·.1)).idxOf pg
      let at_ := sn.dest + snManifest sn.pages.length + i * pageSize
      if snapWriting s || snapHeld s sn at_ pageSize || snapHeld s sn (sn.dest + 64 + 16 * i) 16 then s
      else
        let s := if sn.copies.any fun c => c.page == pg then s else settlePage pg s
        let (cells, pois) := snContent s sn pg
        let a := ((sn.pages.find? fun p => p.1 == pg).map (·.2)).getD 0
        let go := sn.waiting.filter fun h => heldPage h == pg
        let s := snapMod (fun x => { x with left := x.left.filter fun y => y != pg, copies := x.copies.filter fun c => c.page != pg,
                                            waiting := x.waiting.filter fun h => heldPage h != pg, cur := some pg }) s
        let s := snapPut sn at_ (snBytes pg cells []) (toVaWords (pg * pageSize) at_ pois) s
        let s := snapPut sn (sn.dest + 64 + 16 * i) (snManifestEntry pg a cells pois) [] s
        runHeldAll go s

/-- The header (Table 14-6). -/
def snHeader (s : State) (sn : Snap) : List Byte :=
  leBytes 4 0x50414E53 ++ leBytes 4 sn.id ++ leBytes 4 sn.baseId ++ leBytes 1 (b2n sn.incr) ++ leBytes 1 (b2n (sn.status == Status.ok)) ++ leBytes 2 0
    ++ leBytes 8 sn.step ++ leBytes 8 sn.pages.length ++ leBytes 4 (selfEp s) ++ List.replicate 28 0

/-- The stream's last act: the header once every other write was performed, and the end once the header was. -/
def snapLast (s : State) : State :=
  match s.rel.snap with
  | none => s
  | some sn =>
    if !sn.left.isEmpty || snapWriting s || (!sn.header && snapHeld s sn sn.dest 64) then s
    else
      let s := if sn.header then s else snapPut sn sn.dest (snHeader s sn) [] (snapMod (fun x => { x with header := true }) s)
      if snapWriting s then s else snapEnd ((s.rel.snap.map (·.status)).getD .ok) s

end Sys2Proof.Machine
end

