-- ==== Sys2Proof/Machine/Queue.lean ====
section
/-! DEFINITION. Descriptor queues: doorbells, fetch, start, completion, records, the queue registers (chapter 4, R150 to R173). -/

namespace Sys2Proof.Machine

open Sys2Proof

/-! Slot registers (Tables 4-16 to 4-19) -/

/-- The depth of a slot's rings. -/
def ringDepth (s : State) (part k : Nat) : Nat := 2 ^ max 6 (min 16 (rfld s (slotReg Reg.dqCfg k) part 0 5))

def dqTail (s : State) (part k : Nat) : W32 := rget s (slotReg Reg.dqDoorbell k) part
def dqHead (s : State) (part k : Nat) : W32 := rget s (slotReg Reg.dqHead k) part
def cqTail (s : State) (part k : Nat) : W32 := rget s (slotReg Reg.dqCqTail k) part
def cqHead (s : State) (part k : Nat) : W32 := rget s (slotReg Reg.dqCqHead k) part

/-- A base register pair: 64-byte aligned. -/
def ringBase (s : State) (lo hi part k : Nat) : Nat :=
  (rget s (slotReg lo k) part).toNat / 64 * 64 + (rget s (slotReg hi k) part).toNat * 2 ^ 32

def ringAsid (s : State) (part k : Nat) : Nat := rfld s (slotReg Reg.dqCfg k) part 20 12

def cqFull (s : State) (part k : Nat) : Bool := decide ((cqTail s part k - cqHead s part k).toNat = ringDepth s part k)

def dqEnabled (s : State) (part k : Nat) : Bool := rbit s (slotReg Reg.dqCtl k) part 0

/-! Doorbells (R154, R567) -/

def badDoorbell (part k : Nat) (s : State) : State :=
  let r := slotReg Reg.dqStatus k
  rsetFld r part 16 16 (min (rfld s r part 16 16 + 1) 0xFFFF) s

/-- A doorbell's TAIL is farther ahead of HEAD than the ring is deep. -/
def doorbellBad (s : State) (part k : Nat) (v : W32) : Bool := decide (ringDepth s part k < (v - dqHead s part k).toNat)

/-- A doorbell at a slot: TAIL is set, or the doorbell is dropped and counted. -/
def ringDoorbell (part k : Nat) (v : W32) (s : State) : State :=
  if intakeStopped s part || doorbellBad s part k v then badDoorbell part k s else rset (slotReg Reg.dqDoorbell k) part v s

/-- A write of DQ_DOORBELL. -/
def dqDoorbellSet (part k : Nat) (v : W32) (s : State) : State := ringDoorbell part k v (storeParity (slotReg Reg.dqDoorbell k) part 2 s)

/-- Take a fabric doorbell: ARG bits 11:0 the hub queue, bits 63:32 TAIL. -/
def doorbellTake (p : Packet) (s : State) : State :=
  let v := w32 (fld p.arg 32 32)
  if fatal s then reply (ackTo s p .reset 0) s
  else
    match queueSlot s (fld p.arg 0 12) with
    | none => reply (ackTo s p .decode 0) s
    | some (part, k) =>
      if fkey s part ≠ p.key then reply (ackTo s p .ownership 0) (bump Reg.fabRefused part s)
      else if unitStopped s 8 (some part) then reply (ackTo s p .parity 0) s
      else if intakeStopped s part then reply (ackTo s p .reset 0) (badDoorbell part k s)
      else if doorbellBad s part k v then reply (ackTo s p .decode 0) (badDoorbell part k s)
      else reply (ackTo s p .ok 0) (rset (slotReg Reg.dqDoorbell k) part v s)

/-- A fabric doorbell arrives: it acts as a cue store, after every store of its source that has come before it (R155). -/
def homeDoorbell (p : Packet) (s : State) : State :=
  if storeWaits s p.src.toNat || s.ord.bells.any (fun q => q.src == p.src) then { s with ord := { s.ord with bells := s.ord.bells ++ [p] } }
  else doorbellTake p s

/-! What an opcode's start checks, and what its operands cover -/

/-- The opcodes of Table 4-2. -/
def opcodes : List Nat :=
  [0x01, 0x02, 0x03, 0x04, 0x05, 0x06, 0x10, 0x11, 0x12, 0x13, 0x14, 0x16, 0x17, 0x20, 0x21, 0x22, 0x30, 0x31, 0x32, 0x40, 0x41, 0x50,
   0x51, 0x52, 0x60, 0x61]

/-- The checks of the opcode itself. -/
def opCheck (s : State) (d : Desc) : Check :=
  match d.opcode with
  | 0x01 => copyCheck d
  | 0x02 => fillCheck d
  | 0x05 => tallyCheck s d
  | 0x06 => tallyCheck s d
  | 0x10 => mmCheck d
  | 0x11 => mmCheck d
  | 0x12 => atCheck d
  | 0x13 => rdCheck s d
  | 0x14 => quCheck d
  | 0x16 => elCheck d
  | 0x17 => ocCheck d
  | 0x20 => gaCheck s d
  | 0x21 => scCheck s d
  | 0x22 => suCheck s d
  | 0x30 => srCheck s d
  | 0x31 => inCheck s d
  | 0x32 => deCheck s d
  | 0x40 => sqCheck s d
  | 0x41 => sqCheck s d
  | 0x50 => advCheck d
  | 0x51 => advCheck d
  | 0x52 => invalCheck s d
  | 0x60 => snCheck s d
  | _ => Check.ok

/-- Operations without block operands take no extras, and SCALE_RULE 2 and 3 are refused on every descriptor (Table 3-4). -/
def plainOp (op : Nat) : Bool := [0x01, 0x02, 0x03, 0x04, 0x05, 0x06, 0x50, 0x51, 0x52, 0x61].contains op

/-- Every check made at start (R162, R163, R403): the bad fields, and OWNERSHIP. -/
def startCheck (s : State) (d : Desc) : Check :=
  let foreign := asidPart s d.asid != some d.part
  if !opcodes.contains d.opcode then { bad := [0], own := foreign }
  else
    let c := opCheck s d
    { bad := badIf (plainOp d.opcode && arithBad d false) 1 ++ c.bad, own := foreign || c.own || (d.doneEn && notOurs s d.part d.doneTally) }

/-- The tracked ranges of a descriptor (R165, R166). -/
def opRanges (s : State) (d : Desc) : Ranges :=
  match d.opcode with
  | 0x01 => copyRanges d
  | 0x02 => fillRanges d
  | 0x10 => mmRanges d
  | 0x11 => mmRanges d
  | 0x12 => atRanges d
  | 0x13 => rdRanges d
  | 0x14 => quRanges d
  | 0x16 => elRanges d
  | 0x17 => ocRanges d
  | 0x20 => gaRanges s d
  | 0x21 => scRanges d
  | 0x22 => suRanges d
  | 0x30 => srRanges d
  | 0x31 => inRanges s d
  | 0x32 => deRanges d
  | 0x40 => sqRanges d
  | 0x41 => sqRanges d
  | 0x60 => snRanges d
  | 0x61 => stepRanges d
  | _ => noRanges

/-! Fetch (R152, R153, R156, R157) -/

/-- A descriptor whose ring entry is being read. -/
def newDesc (part asid span seq : Nat) : Desc :=
  { seq := seq, bytes := [], stage := .fetching, statuses := [], detail := none, count := 0, audited := 0, failed := 0, nf := 0, reads := [],
    writes := [], asid := asid, part := part, span := span, waitEdges := 0, waitLimit := 0, step := 0, remote := [], remotePoison := [],
    badUnits := [], auditCfg := 0, auditTol := 0, auditRange := 0, unread := [] }

/-- Descriptors that count against the limits of R157. -/
def inFlight (s : State) (q : Nat) : Nat := ((queueOf s q).descs.filter fun d => d.stage != DescStage.completed).length

/-- A queue with room in its own share and in its reel's sequencer. -/
def fetchRoom (s : State) (q : Nat) : Bool :=
  decide (inFlight s q < 8) &&
    decide (((s.eng.queues.filter fun e => e.1 / 64 == q / 64).map fun e => inFlight s e.1).sum < 32)

def dropDesc (q seq : Nat) (s : State) : State := queueSet q (fun x => { x with descs := x.descs.filter fun d => d.seq != seq }) s

/-- The ring entry has been read: the descriptor is fetched, or the ring access faulted. -/
def fetchEnd (q part k : Nat) (d : Desc) (s : State) : State :=
  let va := ringBase s Reg.dqBaseLo Reg.dqBaseHi part k + 64 * (d.seq % ringDepth s part k)
  if !d.statuses.isEmpty || !d.remotePoison.isEmpty then ringFault q (dropDesc q d.seq s)
  else
    let s := descMod q d.seq (fun d => { d with bytes := d.at va 64, remote := [], stage := .fetched }) s
    rset (slotReg Reg.dqHead k) part (dqHead s part k + 1) s

/-- Read the next ring entry. -/
def fetchBegin (q part k : Nat) (s : State) : State :=
  let seq := (dqHead s part k).toNat
  let va := ringBase s Reg.dqBaseLo Reg.dqBaseHi part k + 64 * (seq % ringDepth s part k)
  let asid := ringAsid s part k
  if asidPart s asid ≠ some part then bump Reg.xlateFaults part (ringFault q s)
  else if vaHeld s asid va 64 then s
  else
    let s := queueSet q (fun x => { x with descs := x.descs ++ [newDesc part asid 0 seq] }) s
    match getPiece (.desc q seq 0) part asid va 64 s with
    | (.data bs ws st, s) =>
      let s := descMod q seq (Desc.got va bs ws st) s
      (match descOf s q seq with | some d => fetchEnd q part k d s | none => s)
    | (.sent, s) => s
    | (_, s) => bump Reg.xlateFaults part (ringFault q (dropDesc q seq s))

/-- A queue has a descriptor to fetch and room for it. -/
def mayFetch (s : State) (q part k : Nat) : Bool :=
  ((queueOf s q).descs.all fun d => d.stage != DescStage.fetching) && dqEnabled s part k && dqTail s part k != dqHead s part k && fetchRoom s q
    && !intakeStopped s part && decide (7 ≤ stage s)

/-- The mapped queues of a reel that p accepts, each with its partition. -/
def reelQueues (s : State) (r : Nat) (p : Nat → Nat → Nat → Bool) : List (Nat × Nat) :=
  (List.range (parts s)).flatMap fun i => (partQueues s i).filterMap fun x => if x.2 / 64 = r ∧ p x.2 i x.1 then some (i, x.2) else none

/-- The queue that a reel's sequencer fetches from next (R157): among partitions by weight, round-robin among the queues of one. -/
def fetchPick (s : State) (r : Nat) : Option (Nat × Nat) × Arb := (arbOf s (fetchArb r)).pickOf (reelWeight s) (reelQueues s r (mayFetch s))

/-- The sequencer fetches the next descriptor of a queue, where it picks the queue; an entry at another home is fetched once its answer is there. -/
def fetchGo (q : Nat) (s : State) : State :=
  match queueSlot s q with
  | none => s
  | some (part, k) =>
    match (queueOf s q).descs.find? fun d => d.stage == DescStage.fetching with
    | some d => if descReading s q d.seq then s else fetchEnd q part k d s
    | none =>
      match fetchPick s (q / 64) with
      | (some (p, x), a) => if x = q then fetchBegin q part k (arbSet (fetchArb (q / 64)) ((a.charge p 1).took p x) s) else s
      | (none, _) => s

/-! Start (R164 to R168) -/

/-- FENCE, TALLY_ADD, KERNEL_END, and what starts as FENCE does. -/
def orderPoint (op : Nat) : Bool := [0x03, 0x04, 0x06, 0x52, 0x60, 0x61].contains op

/-- Two lists of ranges share a byte. -/
def rangesMeet (a b : List (Nat × Nat)) : Bool := a.any fun x => b.any fun y => overlap x.1 x.2 y.1 y.2

/-- The ranges of a descriptor in flight: as tracked since its start, or as they stand before it. -/
def trackedRanges (s : State) (d : Desc) : Ranges := if d.stage = .fetched then opRanges s d else { reads := d.reads, writes := d.writes }

/-- An earlier descriptor e of queue q lets one with ranges r start (R165, R167, R168). -/
def letsStart (s : State) (q : Nat) (point : Bool) (r : Ranges) (e : Desc) : Bool :=
  if e.stage = .completed then !(descWriting s q e.seq && (point || rangesMeet (r.reads ++ r.writes) e.writes))
  else if point || e.stage = .fetching || e.opcode = 0x04 || e.opcode = 0x05 then false
  else
    let x := trackedRanges s e
    !rangesMeet (r.reads ++ r.writes) x.writes && !rangesMeet r.writes x.reads

def mayStart (s : State) (q part k : Nat) (d : Desc) : Bool :=
  let before := (queueOf s q).descs.takeWhile fun e => e.seq != d.seq
  !cqFull s part k && before.all (letsStart s q (orderPoint d.opcode) (opRanges s d))

/-- A kernel starts (R99, R143, R164): the wider copies and widenings of the partition's allocations are sampled, widenings reverted before it
have ended, the replicas filled before it are usable (R92). -/
def kernelStart (q part : Nat) (s : State) : State :=
  let s := { s with store := { s.store with allocs := mmapv (fun _ a => if a.reverting then { a with widened := false, reverting := false, fails := [0] } else a) s.store.allocs } }
  let live := s.store.allocs.filter fun a => a.2.part == part && !a.2.draining
  let wide := live.filterMap fun a => match a.2.wide with
    | some w => if live.any fun b => b.1 == w then some (a.1, w, a.2.wideFmt, a.2.wideSoff) else none
    | none => none
  let reps := (s.rows.replicas.filter fun r => r.2.part == part && r.2.filled && !r.2.retiring).map fun r => (r.2.table, r.2.row)
  queueSet q (fun x => { x with inKernel := true, wide := wide, widened := (live.filter fun a => a.2.widened).map (·.1), usable := reps }) s

/-- What an opcode does as it starts beside its checks; what Table 4-14 and R256 have read at the start is read. -/
def startHook (q seq : Nat) (d : Desc) (s : State) : State :=
  match d.opcode with
  | 0x12 => atTables q seq (fun _ s => s) s
  | 0x17 => (opFetch q seq [(d.w 6, 64)] s).2
  | 0x30 => (opFetch q seq [(d.w 4, 64)] (searchBegin q seq d s)).2
  | 0x31 => insertBegin q seq d s
  | _ => s

/-- A tally that a descriptor waits for, adds to or counts in is not its partition's: counted in TALLY_REFUSED. -/
def tallyRefusal (s : State) (d : Desc) : Bool :=
  (d.doneEn && notOurs s d.part d.doneTally) ||
    match d.opcode with
    | 0x05 => notOurs s d.part (d.f 1 0 16)
    | 0x06 => d.f 1 16 1 == 0 && notOurs s d.part (d.f 1 0 16)
    | 0x13 => notOurs s d.part (d.f 3 32 16)
    | 0x60 => match snTally d with | some t => notOurs s d.part t | none => false
    | _ => false

/-- A descriptor starts with what it samples (Table 4-14). `step` 99 marks one that its checks turned away. -/
def startNow (q seq part k : Nat) (s : State) : State :=
  let s := if (queueOf s q).inKernel then s else kernelStart q part s
  let c := rget s (slotReg Reg.dqCfg k) part
  let s := descMod q seq (fun d =>
    let d := { d with asid := fld c 20 12, span := fld c 8 2, auditCfg := rget s Reg.auditCfg part, auditTol := rget s Reg.auditTol part,
                      auditRange := rget s Reg.auditRange part }
    let r := opRanges s d
    { d with reads := r.reads, writes := r.writes }) s
  match descOf s q seq with
  | none => s
  | some d =>
    if s.mgmt.stopped.any fun e => descUses s e.1 q e.2 d then descMod q seq (fun d => { d.stop .parity with step := 99 }) s
    else
      let x := startCheck s d
      if x.bad.isEmpty && !x.own then startHook q seq d (descMod q seq (fun d => { d with stage := .started }) s)
      else
        let sts := (if x.own then [Status.ownership] else []) ++ (if x.bad.isEmpty then [] else [Status.decode])
        let s := if opcodes.contains d.opcode && tallyRefusal s d then bump Reg.tallyRefused d.part s else s
        descMod q seq (fun d => { d with stage := .ran, step := 99, statuses := sts, detail := if x.bad.isEmpty then none else some (x.bad.foldl min (x.bad.headD 0)) }) s

/-- A queue has a descriptor that may start. -/
def hasStart (s : State) (q part k : Nat) : Bool := (queueOf s q).descs.any fun d => d.stage == DescStage.fetched && mayStart s q part k d

/-- The queue of which a reel's sequencer starts a descriptor next (R157, Table 12-2). -/
def startPick (s : State) (r : Nat) : Option (Nat × Nat) × Arb := (arbOf s (reelArb r)).pickOf (reelWeight s) (reelQueues s r (hasStart s))

/-- Work units of a descriptor: the units of R158's operations; one for any other, and for ATTEND its (s, g) pairs, whose chunks its tables give. -/
def workUnits (d : Desc) : Nat :=
  match d.opcode with
  | 0x01 => ceilDiv (copyLen d) unitSize
  | 0x02 => ceilDiv (fillLen d) unitSize
  | 0x10 => tilesOf (mmM d)
  | 0x11 => tilesOf (mmM d)
  | 0x12 => atS d * atG d
  | 0x13 => ceilDiv (rdOut d).len unitSize
  | 0x14 => quRows d
  | 0x16 => d.f 5 32 32
  | 0x17 => ceilDiv (ocN d) 256
  | _ => 1

/-- The work units that reel number i of a span of n reels starts. -/
def reelUnits (d : Desc) (n i : Nat) : Nat := workUnits d / n + b2n (decide (i < workUnits d % n))

/-- The work units of a descriptor are charged to its partition at the sequencers that start them (Table 12-2). -/
def chargeUnits (q span : Nat) (d : Desc) (s : State) : State :=
  let n := if [0x01, 0x02, 0x10, 0x11, 0x12, 0x13, 0x14, 0x16, 0x17].contains d.opcode then 4 ^ span else 1
  (List.range n).foldl (fun s i =>
    let r := if n = 1 then q / 64 else shareReel s q span i
    arbSet (reelArb r) ((arbOf s (reelArb r)).charge d.part (reelUnits d n i)) s) s

/-- A reel's sequencer starts a descriptor of the queue it picked: its turn, its charge. -/
def served (q part k : Nat) (d : Desc) (a : Arb) (s : State) : State :=
  chargeUnits q (fld (rget s (slotReg Reg.dqCfg k) part) 8 2) d (arbSet (reelArb (q / 64)) (a.took part q) s)

def startGo (q seq : Nat) (s : State) : State :=
  match queueSlot s q, descOf s q seq with
  | some (part, k), some d =>
    if d.stage = .fetched ∧ mayStart s q part k d then
      match startPick s (q / 64) with
      | (some (_, x), a) => if x = q then startNow q seq part k (paritySweep (served q part k d a s)) else s
      | (none, _) => s
    else s
  | _, _ => s

/-! Completion (R169 to R173) -/

/-- A status ranked above AUDIT (R173). -/
def aboveAudit (st : Status) : Bool := decide (st.rank < Status.audit.rank)

def cleanStatus (st : Status) : Bool := st == Status.ok || st == Status.widened

/-- The bytes of a completion record (Table 4-3). -/
def recordBytes (q : Nat) (phase : Bool) (r : Record) : List Byte :=
  leBytes 2 r.tag ++ leBytes 1 r.status.code ++ leBytes 1 r.opcode ++ leBytes 2 (q + 0x8000 * b2n phase) ++ leBytes 2 0 ++ leBytes 4 r.seq
    ++ leBytes 4 (min r.count 0xFFFFFFFF) ++ leBytes 8 r.detail ++ leBytes 2 (min r.audited 65535) ++ leBytes 2 (min r.failed 65535)
    ++ leBytes 4 (min r.nf 0xFFFFFFFF)

/-- A record of the queue is on its way to another home. -/
def recordSent (s : State) (q : Nat) : Bool := s.fab.reqs.any fun r => match r.owner with | .ringWrite q' _ => q' == q | _ => false

/-- Write the first record owed, once the ring has room; a record the ring cannot take is dropped (R152). -/
def recordWrite (q : Nat) (s : State) : State :=
  match queueSlot s q, (queueOf s q).owed.head? with
  | some (part, k), some r =>
    let n := (cqTail s part k).toNat
    let depth := ringDepth s part k
    let va := ringBase s Reg.dqCqLo Reg.dqCqHi part k + 32 * (n % depth)
    let asid := ringAsid s part k
    if recordSent s q || cqFull s part k then s
    else if asidPart s asid ≠ some part then recordDone q r.notify .fault (bump Reg.xlateFaults part s)
    else if vaHeld s asid va 32 then s
    else
      match putPiece (.ring q r.notify) part asid va { bs := recordBytes q (n / depth % 2 == 0) r, pois := [], tally := none, e2e := false } s with
      | (.done st, s) => recordDone q r.notify st s
      | (.sent, s) => s
      | (_, s) => recordDone q r.notify .fault (bump Reg.xlateFaults part s)
  | _, _ => s

/-- Completed descriptors that nothing more is owed for go. -/
def pruneDescs (q : Nat) (s : State) : State :=
  queueSet q (fun x => { x with descs := x.descs.filter fun d => d.stage != DescStage.completed || d.doneEn || descWriting s q d.seq }) s

/-- What an opcode does as it completes: copies it still runs end, objects kept for it go. -/
def completeHook (q seq : Nat) (d : Desc) (s : State) : State :=
  match d.opcode with
  | 0x50 => migrEnd q seq s
  | 0x51 => migrEnd q seq s
  | 0x30 => searchEnd q seq s
  | 0x31 => insertDone q seq s
  | _ => s

/-- COUNT of a descriptor (Table 4-3): of OPTIM the visits that updated a row whose writes were all taken. -/
def countOf (s : State) (q : Nat) (d : Desc) (bad : Nat) : Nat :=
  match d.opcode with
  | 0x01 => if d.step = 99 then 0 else unitsWritten s q d (copyLen d)
  | 0x02 => if d.step = 99 then 0 else unitsWritten s q d (fillLen d)
  | 0x04 => bad
  | 0x17 => d.count - (d.badUnits ++ unitsPending s q d.seq).dedup.length
  | 0x50 => 0
  | 0x51 => 0
  | _ => d.count

/-- DETAIL of a record (Table 4-3), which R210 and R258 define further; where no rule gives one it is a free value (log entry 52). -/
def detailOf (d : Desc) (st : Status) (s : State) : Nat × State :=
  let free := let (v, s) := draw s; (v.toNat, s)
  if d.opcode = 0x04 then (d.w 1, s)
  else
    match d.detail with
    | some v => if st = .decode ∨ st = .fault ∨ !(d.statuses.any fun st => st == .decode || st == .fault) then (v, s) else free
    | none => free

/-- A status above AUDIT stops the queue or raises its error vector as DQ_CFG says (R173). -/
def errorActs (part k : Nat) (st : Status) (s : State) : State :=
  if !aboveAudit st then s
  else
    let c := rget s (slotReg Reg.dqCfg k) part
    let s := bump (slotReg Reg.dqErrors k) part s
    let s := if bit c 10 then rsetFld (slotReg Reg.dqStatus k) part 11 1 1 (rsetFld (slotReg Reg.dqCtl k) part 0 1 0 s) else s
    if bit c 11 then raiseVec part (fld c 12 6) s else s

/-- A descriptor completes. -/
def completeNow (q seq part k : Nat) (d : Desc) (s : State) : State :=
  let st := worstOf d.statuses
  let x := queueOf s q
  let worst := st.worse x.worst
  let bad := x.bad + b2n (!cleanStatus st)
  let closes := d.opcode == 0x04
  let s := completeHook q seq d s
  let s := if st = .fault then bump Reg.xlateFaults part s else s
  let s := bump (slotReg Reg.dqDone k) part s
  let s := if cleanStatus st then s else rsetFld (slotReg Reg.dqStatus k) part 0 8 st.code s
  let s := queueSet q (fun x =>
    if closes then { x with inKernel := false, worst := .ok, bad := 0, wide := [], widened := [], bset := [], usable := [] } else { x with worst := worst, bad := bad }) s
  let s := indexesEnd (tablesEnd (descMod q seq (fun d => { d with stage := .completed, remote := [], remotePoison := [], unread := [] }) s))
  let v := if d.notify then some d.vector else none
  let s :=
    if closes || d.record || !cleanStatus st then
      let (detail, s) := detailOf d st s
      let r : Record := {
        tag := d.tag, status := if closes then worst else st, opcode := d.opcode, seq := seq, count := countOf s q d bad, detail := detail,
        audited := d.audited, failed := d.failed, nf := d.nf, notify := v }
      recordWrite q (queueSet q (fun x => { x with owed := x.owed ++ [r] }) s)
    else raiseOpt part v s
  pruneDescs q (errorActs part k st s)

/-- A descriptor whose writes must have been answered before it completes: a TALLY_ADD elsewhere (R177), and those of which COUNT tells what was written (R174,
R175, R192; log entry 53). One that FAULT, RESET or PARITY ended completes at once (R173). -/
def awaitsWrites (d : Desc) : Bool := [0x01, 0x02, 0x06, 0x17].contains d.opcode && !d.statuses.any endsWork

/-- A descriptor that has run completes; a KERNEL_END before it closes first. -/
def completeGo (q seq : Nat) (s : State) : State :=
  match queueSlot s q, descOf s q seq with
  | some (part, k), some d =>
    let before := (queueOf s q).descs.takeWhile fun e => e.seq != seq
    if d.stage ≠ .ran ∨ (awaitsWrites d ∧ descWriting s q seq) ∨ before.any (fun e => e.stage != DescStage.completed && e.opcode == 0x04) then s
    else completeNow q seq part k d s
  | _, _ => s

/-- A tally of DONE_EN that was refused as the descriptor started, and counted then (R162). -/
def doneRefused (s : State) (d : Desc) : Bool := d.step == 99 && d.statuses.contains .ownership && notOurs s d.part d.doneTally

/-- DONE_TALLY counts once the descriptor's writes are performed (R169); a tally that is not the partition's is refused and counted (R302). -/
def doneTallyGo (q seq : Nat) (s : State) : State :=
  match (queueOf s q).descs.find? fun d => d.stage == DescStage.completed && d.seq % 2 ^ 32 == seq && d.doneEn && !descWriting s q d.seq with
  | none => s
  | some d => dropDesc q d.seq (if doneRefused s d then s else tallyAddFor d.part d.doneTally 1 s)

/-! The queue registers -/

/-- CLEAR (Table 4-18). Completed descriptors whose writes are still being performed keep a number of their own (log entry 53). -/
def dqClear (q : Option Nat) (part k : Nat) (s : State) : State :=
  let s := [Reg.dqDoorbell, Reg.dqHead, Reg.dqCqHead, Reg.dqCqTail].foldl (fun s r => rset (slotReg r k) part 0 s) s
  let s := rset (slotReg Reg.dqStatus k) part (rget s (slotReg Reg.dqStatus k) part &&& 0x3FF) s
  match q with
  | none => s
  | some q =>
    let s := orphanReads q (fun _ => true) s
    let s := { s with fab := { s.fab with reqs := s.fab.reqs.map fun r =>
      match r.owner with | .descWrite q' n u va => if q' = q then { r with owner := .descWrite q (n + 2 ^ 32) u va } else r | _ => r } }
    queueSet q (fun x => { Queue.idle with descs := (x.descs.filter fun d => d.stage == DescStage.completed).map fun d => { d with seq := d.seq + 2 ^ 32 } }) s

/-- A write of DQ_CTL (Table 4-18): ABORT first, CLEAR as the queue stood, then ENABLE, which an ABORT leaves at 0 (log entry 54). -/
def dqCtlSet (part k : Nat) (v : W32) (s : State) : State :=
  let r := slotReg Reg.dqCtl k
  let q := slotQueue s part k
  let idle := match q with | some q => queueIdle s q | none => true
  let clear := bit v 2 && !dqEnabled s part k && idle
  let s := if bit v 1 then (match q with | some q => abortQueue q s | none => rsetFld r part 0 1 0 s) else s
  let s := if clear then dqClear q part k s else s
  cfgStore r part (w32 (b2n (bit v 0 && !bit v 1))) s

/-- DQ_CQ_HEAD: a value ahead of CQ_TAIL or more than the depth behind it is ignored. -/
def cqHeadSet (part k : Nat) (v : W32) (s : State) : State :=
  if ringDepth s part k < (cqTail s part k - v).toNat then s else cfgStore (slotReg Reg.dqCqHead k) part v s

/-- DQ_MAP (R151): ignored while ENABLE is 1, and where another slot maps the queue named. -/
def dqMapSet (part k : Nat) (v : W32) (s : State) : State :=
  let taken := match queueSlot s (fld v 0 12) with | some (p, j) => bit v 31 && !(p == part && j == k) | none => false
  if dqEnabled s part k || taken || reelOff s (fld v 0 12 / 64) then s else cfgStore (slotReg Reg.dqMap k) part v s

end Sys2Proof.Machine
end

