-- ==== Sys2Proof/Machine/OrderCmd.lean ====
section
/-! DEFINITION. The tally registers (chapter 8, Tables 8-7 to 8-9). -/

namespace Sys2Proof.Machine

open Sys2Proof

/-- The tally that PT_TALLY_NUM of a partition names. -/
def ptTally (s : State) (part : Nat) : Nat := rfld s Reg.ptTallyNum part 0 16

/-- An access to the tally that PT_TALLY_NUM names: one of another partition, or of none, is refused and counted (R302). -/
def onTally (part : Nat) (f : Nat → State → State) (s : State) : State :=
  if tallyPart s (ptTally s part) = some part then f (ptTally s part) s else bump Reg.tallyRefused part s

def tallyValSet (v : W32) (part : Nat) (s : State) : State := onTally part (fun t s => tallySet t v s) (storeParity Reg.ptTallyVal part 6 s)

/-- A write of PT_WATCH_CTL (Table 8-8): ARM 1 arms and clears FIRED, ARM 0 disarms; a watch whose target is reached fires at once (R307). -/
def watchCtlSet (v : W32) (part : Nat) (s : State) : State :=
  onTally part (fun t s =>
    let w := watchOf s t
    fireWatch t (watchSet t { w with vector := fld v 8 6, vecEn := bit v 2, arm := bit v 0, fired := w.fired && !bit v 0 } s)) (storeParity Reg.ptWatchCtl part 6 s)

/-- The other registers of a watch: an armed watch compares against a new target at once. -/
def watchPut (off : Nat) (v : W32) (part : Nat) (s : State) : State :=
  onTally part (fun t s =>
    let w := watchOf s t
    let lo := fun (x : W64) (m : Nat) => w64 (x.toNat / 2 ^ 32 * 2 ^ 32 + v.toNat / m * m)
    let hi := fun (x : W64) => w64 (x.toNat % 2 ^ 32 + v.toNat * 2 ^ 32)
    if off = Reg.ptWatchTarget then fireWatch t (watchSet t { w with target := v } s)
    else if off = Reg.ptWatchAddrLo then watchSet t { w with addr := lo w.addr 8 } s
    else if off = Reg.ptWatchAddrHi then watchSet t { w with addr := hi w.addr } s
    else if off = Reg.ptWatchValLo then watchSet t { w with val := lo w.val 1 } s
    else if off = Reg.ptWatchValHi then watchSet t { w with val := hi w.val } s
    else s) (storeParity off part 6 s)

/-- What a register of the tally window reads; 0 for a tally that is not the partition's. -/
def tallyRead (s : State) (off part : Nat) : W32 :=
  let t := ptTally s part
  let w := watchOf s t
  if tallyPart s t ≠ some part then 0
  else if off = Reg.ptTallyVal then tallyVal s t
  else if off = Reg.ptWatchTarget then w.target
  else if off = Reg.ptWatchCtl then w32 (b2n w.arm + 2 * b2n w.fired + 4 * b2n w.vecEn + 256 * w.vector)
  else if off = Reg.ptWatchAddrLo then w32 w.addr.toNat
  else if off = Reg.ptWatchAddrHi then w32 (w.addr.toNat / 2 ^ 32)
  else if off = Reg.ptWatchValLo then w32 w.val.toNat
  else if off = Reg.ptWatchValHi then w32 (w.val.toNat / 2 ^ 32)
  else 0

/-- A write of TALLY_ASSIGN: a change of PART or VALID disarms the tally's watch and clears FIRED (R307). -/
def tallyAssignSet (v : W32) (t : Nat) (s : State) : State :=
  let old := rget s Reg.tallyAssign t
  let s := if fld old 0 8 ≠ fld v 0 8 ∨ bit old 31 ≠ bit v 31 then watchSet t { watchOf s t with arm := false, fired := false } s else s
  cfgStore Reg.tallyAssign t v s

end Sys2Proof.Machine
end

