-- ==== Sys2Proof/Machine/Boot.lean ====
section
/-! DEFINITION. Resets of the whole hub and the boot sequence (chapter 15): firmware, clocks, training, links, joining the fabric. -/

namespace Sys2Proof.Machine

open Sys2Proof

/-- A write of an RK register (R459, R460): from a locked function it is ignored and counted. -/
def guarded (path : Path) (r : Nat) (v : W32) (f : State → State) (s : State) : State :=
  regWriteVia path r v (fun _ was s => if was then f s else bump Reg.lockRefused 0 s) s

def bootSet (f : Boot → Boot) (s : State) : State := { s with boot := f s.boot }

/-- 512 free bits (R532: the entropy source). -/
def draw512 (s : State) : BitVec 512 × State :=
  (List.range 8).foldl (fun (a : BitVec 512 × State) i => let (v, s) := draw a.2; (a.1 ||| (v.setWidth 512 <<< (64 * i)), s)) (0, s)

/-- A new LC_NONCE (R532). -/
def newNonce (s : State) : State := let (v, s) := draw512 s; bootSet (fun b => { b with nonce := v }) s

/-! BOOT_STATUS (Table 15-16) -/

def setStage (n : Nat) (s : State) : State := rsetFld Reg.bootStatus 0 0 4 n s

/-- Stage codes beside 0 to 7. -/
def stReloading : Nat := 8
def stRecovery : Nat := 9
def stHalted : Nat := 15

/-- Boot halts, or enters RECOVERY, with ERR. -/
def bootErr (st err : Nat) (s : State) : State := setStage st (rsetFld Reg.bootStatus 0 12 4 err s)

/-! Life cycle facts the boot needs -/

/-- Bits of LC_STATUS (Table 15-18). -/
def lcFlag (b : Nat) (s : State) : State := rset Reg.lcStatus 0 (rget s Reg.lcStatus 0 ||| w32 (2 ^ b)) s

/-- Zeroisation (R528): stage, HBM, DDR and flash read zero, with the directory, the page tables and the staging area that lie in HBM; SPI from
0x0080_0000 and the take log are cleared, the customer key hash is revoked. Pages lent by others are not the hub's to write. -/
def zeroise (s : State) : State :=
  let lent := fun off : Nat => decide (3 < tierAt s off)
  let s := { s with
    store := { s.store with
      mem := s.store.mem.filter fun c => lent c.1
      poison := s.store.poison.filter fun c => lent (8 * c.1)
      blk := s.store.blk.filter fun c => lent (c.1 * blockSize) }
    rows := { s.rows with replicas := mmapv (fun _ r => { r with data := r.data.map fun _ => 0 }) s.rows.replicas }
    eng := { s.eng with bcasts := s.eng.bcasts.map fun b => { b with rows := b.rows.map fun r => (r.1, r.2.1.map (fun _ => 0), []) } }
    coh := { s.coh with dir := [] }
    host := { s.host with ptes := [] }
    rel := { s.rel with
      takes := []
      snap := s.rel.snap.map fun sn => { sn with copies := sn.copies.map fun c => if c.tier < 4 then { c with cells := [], poison := [] } else c } } }
  lcFlag 5 (bootSet (fun b => { b with spiIdentity := none, custKeyHash := BitVec.allOnes 512 }) s)

/-- Whether entering a state zeroises (Table 15-12). -/
def zeroises (cur target : Nat) : Bool := (target == 3 || target == 4) && (cur == 1 || cur == 2)

/-- The fuses of a transition are blown. A debug opening belongs to the state it was granted in (R525). -/
def enterState (target : Nat) (s : State) : State :=
  let s := if zeroises s.boot.lcState target then zeroise s else s
  bootSet (fun b => { b with lcState := target, fusePending := none, lcRan := some (s.boot.lcState, target), debugOpen := false }) s

/-- Power or reset comes: a transition carried out since the last slow-tick edge may not have blown its last fuse, and stands PENDING in the state it
left (R529; DESIGN CHOICE, log entry 153). -/
def interrupt (s : State) : State :=
  match s.boot.lcRan with
  | some (from_, target) =>
    let (b, s) := drawBit s
    if b then bootSet (fun b => { b with lcState := from_, fusePending := some target, lcRan := none }) s else bootSet (fun b => { b with lcRan := none }) s
  | none => s

/-- Stage 0: a transition that power or reset interrupted is repeated whole (R529). -/
def finishTransition (s : State) : State :=
  match s.boot.fusePending with
  | some t => lcFlag 6 (enterState t s)
  | none => s

/-! Resets (Table 15-4, R511) -/

/-- What a hub reset leaves: fuses and the flash dies' wear and spare pools always; SEC_VIOLATION, FATAL_STATUS.SECURITY and LC_STATUS while standby
power holds them. Commands still waiting and the record of what was sent are the model's own. -/
def hubReset (standby : Bool) (s : State) : State :=
  let b := s.boot
  let keep := fun (r : Nat) (m : W32) (t : State) => if standby then rset r 0 (rget s r 0 &&& m) t else t
  let t := { State.reset with
    pending := s.pending
    fresh := s.fresh
    out := s.out
    rel := { Rel.reset with dies := mmapv (fun _ d => { d with ro := false }) s.rel.dies }
    boot := { Boot.reset with
      pwrok := b.pwrok, railsGood := b.railsGood, spiIdentity := b.spiIdentity, lcState := b.lcState, fusePending := b.fusePending,
      custKeyHash := b.custKeyHash, fwSvn := b.fwSvn, imgSvn := b.imgSvn, variantE := b.variantE, serial := b.serial, stepping := b.stepping,
      secReset := standby } }
  keep Reg.secViolation 0x3F (keep Reg.fatalStatus 4 (keep Reg.lcStatus 0x7F t))

/-- Boot begins at stage 0. -/
def bootStart (s : State) : State := finishTransition (newNonce s)

/-- A warm reset: as cold, standby power keeping its state; boot from stage 0. -/
def warmReset (s : State) : State := bootStart (hubReset true (interrupt s))

/-- PWROK rises: the hub's own detectors hold it in reset until every rail is good (R550). -/
def pwrokUp (s : State) : State :=
  if s.boot.pwrok then s
  else
    let s := bootSet (fun b => { b with pwrok := true }) s
    if s.boot.railsGood && !s.boot.tripped then bootStart s else s

/-- PWROK low: a cold reset, which also ends a thermal trip (R558). Standby power stays until the board removes it. -/
def pwrokDown (s : State) : State := bootSet (fun b => { b with pwrok := false }) (hubReset true (interrupt s))

/-- The last late rail arrives (R550). -/
def railsUp (s : State) : State :=
  if s.boot.railsGood then s
  else
    let s := bootSet (fun b => { b with railsGood := true }) s
    if s.boot.pwrok && !s.boot.tripped then bootStart s else s

/-- Every rail is lost at once (R551): a cold reset in which standby power holds nothing. -/
def railsLost (s : State) : State := bootSet (fun b => { b with pwrok := false, railsGood := false }) (hubReset false (interrupt s))

/-- A sensor at its trip point: the clocks stop until PWROK goes low. The sensors work before PWROK rises (R558, R560, log entry 61). -/
def thermalTrip (s : State) : State := if s.boot.railsGood then bootSet (fun b => { b with tripped := true }) s else s

/-! The management pins FATAL_N and THERMTRIP_N (R471, R558, R560) -/

/-- What an open-drain output does. -/
inductive PinLevel where
  | low
  | highZ
  deriving DecidableEq, Repr

/-- FATAL_N is low while FATAL_STATUS is not 0, whatever masks the hub interrupts; high-impedance without standby power and until PWROK rises. -/
def fatalN (s : State) : PinLevel := if s.boot.railsGood && s.boot.pwrok && rget s Reg.fatalStatus 0 != 0 then .low else .highZ

/-- THERMTRIP_N is low from the trip until PWROK goes low; high-impedance without standby power. -/
def thermtripN (s : State) : PinLevel := if s.boot.railsGood && s.boot.tripped then .low else .highZ

/-- HUB_RESET.GO. -/
def hubResetSet (v : W32) (s : State) : State := if bit v 0 then warmReset s else s

/-! Security violations (R534) -/

/-- A cause of Table 15-14: its bit, FATAL_STATUS.SECURITY, the fatal response. -/
def secViolate (b : Nat) (s : State) : State :=
  fatalResponse fatalSec (rset Reg.secViolation 0 (rget s Reg.secViolation 0 ||| w32 (2 ^ b)) s)

/-- Loss of lock, or CORE out of range: which of the two, and so ROOT_LOCK, is free (R508, log entry 6). -/
def clockLost (s : State) : State :=
  let (lock, s) := drawBit s
  secViolate 1 (if lock then s else rsetFld Reg.clkStatus 0 0 1 0 s)

/-! Stages 1 to 3 (Table 15-5) -/

/-- Vendor signature and SVN of a firmware copy (R512). -/
def fwSigned (img : FwImage) : Bool := Config.signatureOk Config.vendorKey (Config.sha3 img.bytes) img.signature
def fwGood (s : State) (img : FwImage) : Bool := fwSigned img && decide (s.boot.fwSvn ≤ img.svn.toNat)

/-- A verified firmware runs: stage 2 begins. -/
def fwRun (img : FwImage) (s : State) : State :=
  bootErr 2 0 (bootSet (fun b => { b with fwVersion := img.version, fwImage := img.bytes }) s)

/-- Stage 1: copy A, then copy B, else RECOVERY; in END the ROM stops here. -/
def fwCheck (a b : FwImage) (s : State) : State :=
  if stage s ≠ 0 then s
  else if s.boot.lcState = 4 then setStage 1 s
  else if fwGood s a then fwRun a s
  else if fwGood s b then fwRun b s
  else bootErr stRecovery 2 s

/-- LOAD_FW in RECOVERY, verified as at stage 1. STATUS tells a failed signature (2) from an SVN below the counter (4). -/
def loadFwRun (img : FwImage) (s : State) : State :=
  if !fwSigned img then rsetFld Reg.bootCmd 0 8 8 2 s
  else if img.svn.toNat < s.boot.fwSvn then rsetFld Reg.bootCmd 0 8 8 4 s
  else fwRun img (rsetFld Reg.bootCmd 0 8 8 0 s)

/-- OP of BOOT_CMD is stored and runs in the stage that has a use for it. -/
def bootCmdOp (op st : Nat) (v : W32) (f : State → State) (s : State) : State :=
  if cmdBusy s Reg.bootCmd 0 || cmdOp v != op then s
  else
    let s := cfgStore Reg.bootCmd 0 v s
    if stage s = st then f s else s

/-- Stage 2. -/
def clocksUp (ok : Bool) (s : State) : State :=
  if stage s ≠ 2 then s
  else if ok then setStage 3 (rset Reg.clkStatus 0 7 s)
  else bootErr stHalted 3 s

/-- A die at training: its spare pool, of a size the manual gives only as a share of the die's blocks (4 %, R485), is free (log entry 6); a die
trained before keeps its pool and its wear (R511). -/
def trainDie (d : DieFit) (s : State) : State :=
  let k := dieKey d.channel d.die
  if mhas k s.rel.dies then s
  else
    let (n, s) := drawBelow 65536 s
    { s with rel := { s.rel with dies := mset k { pool := n + 1, spare := n + 1, wear := 0, ro := false } s.rel.dies } }

/-- GiB of a channel's RDIMM; one outside 32 GiB to 256 GiB fails training and is left out (R540). -/
def rdimm (gib : Nat) : Nat := if 32 ≤ gib ∧ gib ≤ 256 then gib else 0

/-- Capacity in pages that training found: DDR, and flash less its spare area of 4 % (Table 1-3, R485). HBM counts 48 GiB for each stack. -/
def trainedCaps (hbm : Byte) (ddrGiB : List Nat) (flashTib : Nat) : List Nat :=
  let nHbm := ((List.range 8).filter fun i => hbm.getLsbD i).length
  [0, nHbm * 24576, ((ddrGiB.take 12).map rdimm).sum * 512, min 256 flashTib * 524288 * 96 / 100, 0, 0]

/-- Stage 3 (R513): components that failed are left out; without any HBM stack boot halts. -/
def memoryUp (hbm : Byte) (ddrGiB : List Nat) (flashTib : Nat) (dies : List DieFit) (s : State) : State :=
  if stage s ≠ 3 then s
  else if hbm = 0 then bootErr stHalted 1 s
  else
    let ddr := ((ddrGiB.take 12).zipIdx.map fun e => if rdimm e.1 = 0 then 0 else 2 ^ e.2).sum
    let chans := (dies.map fun d => d.channel.val).dedup
    let s := rset Reg.hubFitted 0 (w32 (ddr + hbm.toNat * 4096)) (rset Reg.flashFitted 0 (w32 ((chans.map fun c => 2 ^ c).sum)) s)
    let fitted := fun k : Nat => dies.any fun d => dieKey d.channel d.die == k
    let s := { s with
      rel := { s.rel with dies := mfilter (fun k _ => fitted k) s.rel.dies }
      store := { s.store with caps := trainedCaps hbm (ddrGiB.take 12) flashTib } }
    setStage 4 (dies.foldl (fun s d => trainDie d s) s)

/-! Stages 6 and 7 -/

/-- The ports that FM_EP names, with their register index. -/
def managers (s : State) : List (Nat × Nat) :=
  (List.range 4).filterMap fun i => if rbit s (Reg.fmEp + 4 * i) 0 31 then some (i, rfld s (Reg.fmEp + 4 * i) 0 0 18) else none

/-- A route to an endpoint has a port up. -/
def hasRoute (s : State) (ep : Nat) : Bool := ep == selfEp s || !(pathSet s ep).isEmpty

/-- The join EVENT to each valid manager (R516): VECTOR 0xFE, PART 0. -/
def sendJoin (s : State) : State :=
  (managers s).foldl (fun s m => sendEvent (rkey (Reg.fmEp + 4 * m.1) 0) m.2 0 0xFE (fkey s 0) s) s

/-- Stage 6 ends: every enabled port is up or has failed, and the PCIe ports that trained are up (R514). -/
def linksEnd (fab : List PortFit) (pcie : List HostFit) (s : State) : State :=
  if stage s ≠ 6 then s
  else
    let s := fab.foldl (fun s f => portTrained f s) s
    bootSet (fun b => { b with linksDone := true }) (pcie.foldl (fun s f => linkUp f s) s)

/-- READY (R516), once a route to each manager is up. -/
def joinGo (s : State) : State :=
  if stage s = 6 ∧ s.boot.linksDone ∧ (managers s).all fun m => hasRoute s m.2 then setStage 7 (sendJoin s) else s

end Sys2Proof.Machine
end

