-- ==== Sys2Proof/Machine/Image.lean ====
section
/-! DEFINITION. Script images: their layout, their checks, their application at boot and by RELOAD (chapter 15). -/

namespace Sys2Proof.Machine

open Sys2Proof

/-! Signature blocks (R527) -/

/-- The n signature blocks of 7,232 bytes from position i. -/
def sigBlocks (bs : List Byte) (i n : Nat) : List (List Byte) := (List.range n).map fun k => slice bs (i + 7232 * k) 7232

/-- Digest of the customer key in a block. -/
def blockKey (b : List Byte) : BitVec 512 := Config.sha3 (slice b 4 2592)

def blockSig (b : List Byte) : List Byte := slice b 2596 4627

/-- A block of the vendor (SIGNER 0) that verifies. -/
def vendorSigned (digest : BitVec 512) (blocks : List (List Byte)) : Bool :=
  blocks.any fun b => leAt b 0 4 == 0 && Config.signatureOk Config.vendorKey digest (blockSig b)

/-- A block of the customer (SIGNER 1) whose key matches the key hash and that verifies. -/
def customerSigned (hash digest : BitVec 512) (blocks : List (List Byte)) : Bool :=
  blocks.any fun b => leAt b 0 4 == 1 && blockKey b == hash && Config.signatureOk (blockKey b) digest (blockSig b)

/-! The layout of an image (Table 15-7, Table 15-8) -/

/-- The items of a body, each a code and its value; none where a head or a value is cut off. -/
def itemsOf : Nat → List Byte → Option (List (Nat × List Byte))
  | _, [] => some []
  | 0, _ => none
  | f + 1, bs =>
    let n := 4 * leAt bs 2 2
    if bs.length < 4 + n then none
    else (itemsOf f (bs.drop (4 + n))).map fun t => (leAt bs 0 2, slice bs 4 n) :: t

/-- A one-word value between two bounds, a multiple of m. -/
def wordIn (v : List Byte) (lo hi m : Nat) : Bool := v.length == 4 && decide (lo ≤ leAt v 0 4) && decide (leAt v 0 4 ≤ hi) && leAt v 0 4 % m == 0

/-- Whether an item's WORDS and value are valid (Table 15-8). The layouts of PCIE, FM_EPS and ROUTES within their words are the model's
(log entry 55): PCIE is a word for each port with PF_LOG, VF_LOG, TotalVFs and CXL_EN in its bytes 0 to 3, FM_EPS a word for each endpoint, ROUTES
four words for each entry. -/
def itemOk (it : Nat × List Byte) : Bool :=
  let v := it.2
  match it.1 with
  | 1 => wordIn v 1 256 1
  | 2 => v.length == 8
  | 3 => wordIn v 0 8192 64
  | 4 => wordIn v 4 128 4
  | 5 => wordIn v 16 16384 16
  | 6 => wordIn v 0 4096 4
  | 7 => v.length == 4 && [1, 2, 4, 8, 16].contains (leAt v 0 4)
  | 8 => wordIn v 64 65536 1
  | 9 => wordIn v 16 4096 1
  | 10 => wordIn v 0 3 1
  | 11 => wordIn v 1 65535 1
  | 12 => v.length == 4
  | 13 => v.length == 8 && (List.range 2).all fun p =>
      let b := fun i => leAt v (4 * p + i) 1
      decide (30 ≤ b 0) && decide (b 0 ≤ 40) && decide (12 ≤ b 1) && decide (b 1 ≤ 40) && decide (b 2 ≤ 128) && decide (b 3 ≤ 1)
  | 14 => decide (v.length ≤ 16) && v.length % 4 == 0 && (List.range (v.length / 4)).all fun i => decide (leAt v (4 * i) 4 < 2 ^ 18)
  | 15 => v.length % 16 == 0 && (List.range (v.length / 16)).all fun i =>
      let t := leAt v (16 * i) 4
      decide (t ≤ 1) && decide (leAt v (16 * i + 4) 4 < if t = 0 then 1024 else 256)
  | _ => false

/-- The value of an item. -/
def itemOf (its : List (Nat × List Byte)) (code : Nat) : Option (List Byte) := (its.find? fun e => e.1 == code).map (·.2)

/-- A one-word item, its default where absent. -/
def itemNum (its : List (Nat × List Byte)) (code dflt : Nat) : Nat := match itemOf its code with | some v => leAt v 0 4 | none => dflt

/-- The endpoint a header gives (R515): 0x3_FFFF takes BOOT_EP, else the identity record. -/
def imageEp (s : State) (ep : Nat) : Option Nat :=
  if ep ≠ 0x3FFFF then some ep
  else if bit s.boot.bootEp 31 then some (fld s.boot.bootEp 0 18)
  else s.boot.spiIdentity

/-- Bytes that an image's signature blocks sign: header and body (R527). -/
def imageSigned (bs : List Byte) : List Byte := slice bs 0 (256 + leAt bs 12 4)

/-- The image that bytes spell; none for BAD_FORMAT. -/
def imageParse (s : State) (fromStaged : Bool) (bs : List Byte) : Option Image :=
  let len := leAt bs 12 4
  let nsig := leAt bs 17 1
  let total := 256 + len + 7232 * nsig
  if leAt bs 0 4 ≠ 0x4D495357 ∨ leAt bs 4 4 ≠ 1 ∨ len % 4 ≠ 0 ∨ (nsig ≠ 1 ∧ nsig ≠ 2) ∨ bs.length < total ∨ 2 ^ 26 < total then none
  else
    match itemsOf (len + 1) (slice bs 256 len), imageEp s (leAt bs 20 3 % 2 ^ 18) with
    | some its, some ep =>
      if !its.all itemOk || (its.map (·.1)).dedup.length != its.length then none
      else
        let pcie := fun p i dflt => match itemOf its 13 with | some v => leAt v (4 * p + i) 1 | none => dflt
        let eps := (itemOf its 14).getD []
        let rts := (itemOf its 15).getD []
        some
          { scriptId := w32 (leAt bs 8 4), endpoint := ep, parts := itemNum its 1 16,
            reelOff := w64 (match itemOf its 2 with | some v => leAt v 0 8 | none => 0),
            workKib := itemNum its 3 2048, dircacheMib := itemNum its 4 32, sortKib := itemNum its 5 4096, beamKib := itemNum its 6 1024,
            dirGib := itemNum its 7 4, ptMib := itemNum its 8 1024, stagingMib := itemNum its 9 256,
            hostTier := (itemNum its 10 3).testBit 0, loanTier := (itemNum its 10 3).testBit 1, replMib := itemNum its 11 64,
            portSplit := w32 (itemNum its 12 0),
            pfLog := [pcie 0 0 36, pcie 1 0 36], vfLog := [pcie 0 1 30, pcie 1 1 30], totalVfs := [pcie 0 2 0, pcie 1 2 0],
            cxlEn := [pcie 0 3 1 == 1, pcie 1 3 1 == 1],
            fmEps := (List.range (eps.length / 4)).map fun i => leAt eps (4 * i) 4,
            routes := (List.range (rts.length / 16)).map fun i =>
              (leAt rts (16 * i) 4, leAt rts (16 * i + 4) 4, w32 (leAt rts (16 * i + 8) 4), w32 (leAt rts (16 * i + 12) 4)),
            bump := bit (bs.getD 19 0) 0, svn := leAt bs 18 1, digest := Config.sha3 (imageSigned bs), fromStaged := fromStaged }
    | _, _ => none

/-! The checks (Table 15-9) -/

/-- Reels that are on. -/
def Image.reels (im : Image) : Nat := ((List.range 64).filter fun i => !bit im.reelOff i).length

/-- The stage that the carve-outs take, and the whole of it, in KiB (R519). -/
def Image.carved (im : Image) : Nat := im.reels * (im.workKib + im.beamKib) + im.dircacheMib * 1024 + 8 * im.sortKib + 8192
def Image.stageKib (im : Image) : Nat := im.reels * 8192

/-- The signatures that Table 15-11 asks of an image. -/
def imageSigs (s : State) (bs : List Byte) (im : Image) : Bool :=
  let blocks := sigBlocks bs (256 + leAt bs 12 4) (leAt bs 17 1)
  vendorSigned im.digest blocks && (s.boot.lcState != 2 || customerSigned s.boot.custKeyHash im.digest blocks)

/-- What a reload may not change (MISMATCH). -/
def imageMismatch (s : State) (im : Image) : Bool :=
  match s.boot.image with
  | none => true
  | some r =>
    im.endpoint != r.endpoint || im.pfLog != r.pfLog || im.vfLog != r.vfLog || im.totalVfs != r.totalVfs || im.cxlEn != r.cxlEn
      || (s.boot.variantE && im.portSplit >>> 16 != r.portSplit >>> 16)
      || (List.range 256).any fun p => decide (im.parts ≤ p) && decide (partState s p ≠ 0)

/-- The LOAD code of an image that parses: the first check that fails, in the order of Table 15-9. -/
def imageCode (s : State) (onReload : Bool) (bs : List Byte) (im : Image) : Nat :=
  if s.boot.lcState = 3 ∨ s.boot.lcState = 4 then 8
  else if !imageSigs s bs im then 2
  else if im.svn < s.boot.imgSvn then 4
  else if leAt bs 16 1 ≠ b2n s.boot.variantE then 3
  else if im.stageKib < im.carved ∨ (onReload ∧ im.ptMib * 256 < ptPagesAll s.host.ptes) then 5
  else if onReload ∧ imageMismatch s im then 6
  else 0

/-- The bytes that BOOT_CMD.SRC names: the staging area up to IMG_LEN, or the image in SPI. -/
def imageBytes (s : State) (v : W32) (spi : List Byte) : List Byte :=
  if bit v 3 then spi else (List.range (rfld s Reg.imgLen 0 0 27)).map fun i => mgetD 0 i s.boot.staging

/-- Check an image; STATUS and LOAD take the code, a refusal changes nothing else but LC_STATUS (R520). -/
def imageTake (onReload : Bool) (v : W32) (spi : List Byte) (f : Image → State → State) (s : State) : State :=
  let bs := imageBytes s v spi
  let note := fun (c : Nat) (s : State) => rsetFld Reg.bootCmd 0 8 8 c (rsetFld Reg.bootStatus 0 8 4 c s)
  match imageParse s (!bit v 3) bs with
  | none => lcFlag 4 (note 1 s)
  | some im =>
    let c := imageCode s onReload bs im
    if c ≠ 0 then lcFlag 4 (note c s) else f im (note 0 s)

/-- LOAD at WAIT_IMAGE (stage 4): BOOT_EP is sampled, an accepted image opens stage 5. -/
def loadRun (v : W32) (spi : List Byte) (s : State) : State :=
  let s := bootSet (fun b => { b with bootEp := rget s Reg.bootEp 0 }) s
  imageTake false v spi (fun im s => setStage 5 (bootSet (fun b => { b with pending := some im }) s)) s

/-! Application (Table 15-8, R519) -/

/-- Capacity of stage and HBM under an image: the page maps also take HBM, how much is free (log entry 6). -/
def imageCaps (im : Image) (s : State) : State :=
  let nHbm := ((List.range 8).filter fun i => rbit s Reg.hubFitted 0 (12 + i)).length
  let (n, s) := drawBelow (nHbm * 24576 - im.dirGib * 512 - im.ptMib / 2 - im.stagingMib / 2 + 1) s
  { s with store := { s.store with caps := (s.store.caps.set 0 ((im.stageKib - im.carved) / 2048)).set 1 n } }

/-- The items take effect; FM_EPS and ROUTES only at a boot load. -/
def imageApply (onBoot : Bool) (im : Image) (s : State) : State :=
  let s := imageCaps im (bootSet (fun b => { b with image := some im, pending := none, imgSvn := if im.bump then max b.imgSvn (min im.svn 63) else b.imgSvn }) s)
  let s := rset Reg.fabId 0 (w32 im.endpoint) (rset Reg.partCfg 0 (w32 im.parts) s)
  let s := rset Reg.dirCfg 0 (w32 (im.dirGib + im.dircacheMib * 256)) (rset Reg.ptArea 0 (w32 im.ptMib) s)
  let s := (List.range 2).foldl (fun s p => rset (Reg.hostpBar2 + 256 * p) 0 (w32 (im.pfLog.getD p 0 + im.vfLog.getD p 0 * 256)) s) s
  let s := rsetFld Reg.bootStatus 0 16 1 (b2n im.fromStaged) s
  if !onBoot then s
  else
    let s := im.fmEps.zipIdx.foldl (fun s e => rset (Reg.fmEp + 4 * e.2) 0 (w32 (2 ^ 31 + e.1)) s) s
    im.routes.foldl (fun s r =>
      let e := (r.2.2.1, r.2.2.2 &&& 0xFFFFFF)
      if r.1 = 1 then { s with fab := { s.fab with member := mput (0, 0) r.2.1 e s.fab.member } }
      else { s with fab := { s.fab with group := mput (0, 0) r.2.1 e s.fab.group } }) s

/-- Stage 5 ends. An image that came over PCIe takes port 0's link down, out of its boot layout (R514). -/
def imageApplyRun (s : State) : State :=
  match s.boot.pending with
  | some im =>
    if stage s ≠ 5 then s
    else
      let s := setStage 6 (imageApply true im s)
      if im.fromStaged then portReset 0 s else s
  | none => s

/-! Reload (Table 15-10) -/

/-- A security violation stops a reload: only a hub reset recovers the hub (R523). -/
def secStopped (s : State) : Bool := rbit s Reg.fatalStatus 0 2 && !s.boot.secReset

/-- RELOAD of a running hub: the image is checked, then intake stops hub-wide. The drain limit is sampled. -/
def reloadRun (v : W32) (spi : List Byte) (s : State) : State :=
  if secStopped s then s
  else
    imageTake true v spi (fun im s =>
      let s := bootSet (fun b => { b with
        pending := some im, reloadStep := 2, recovery := decide (rget s Reg.fatalStatus 0 ≠ 0),
        reloadMs := max 1 (rfld s Reg.reloadDrain 0 0 14), reloadFrom := b.tick }) s
      setStage stReloading (setBusy Reg.bootCmd 0 true s)) s

/-- A COMMIT, a partition reset or a DESTROY under way is waited for; after a fatal condition a COMMIT cannot end and goes with the sheets. -/
def reloadMayStop (s : State) : Bool := (s.fab.commit.isNone || s.boot.recovery) && s.mgmt.runs.isEmpty

/-- RELOAD_DRAIN has passed: every remaining descriptor and channel completes with RESET. A tick lasts 2/3 ms. -/
def reloadExpire (s : State) : State :=
  if s.boot.reloadStep = 2 ∧ !secStopped s ∧ reloadMayStop s ∧ s.boot.reloadMs * 3 ≤ (s.boot.tick - s.boot.reloadFrom) * 2 then
    stopChans (fun _ => true) .reset (s.eng.queues.foldl (fun s e => abortQueue e.1 s) s)
  else s

/-- Every queue is left with ENABLE 0 (R522). -/
def queuesOff (s : State) : State :=
  (List.range 64).foldl (fun s k => (regInsts s (slotReg Reg.dqCtl k)).foldl (fun s p => rsetFld (slotReg Reg.dqCtl k) p 0 1 0 s) s) s

/-- Moves are abandoned at the old location and not counted, projectors and the snapshot stream stop. -/
def reloadStop (s : State) : State :=
  let s := abandonRows (fun _ => true) (abandonMoves (fun _ _ => true) s)
  let s := s.store.projs.foldl (fun s p => projStop p.1 s) s
  match s.rel.snap with
  | some sn => runHeldAll sn.waiting (snapEnd .reset s)
  | none => s

def workEnded (s : State) : Bool :=
  (s.eng.queues.all fun q => q.2.descs.all fun d => d.stage == DescStage.completed) && s.host.chans.isEmpty

/-- Step 2 ends when work and tags have drained; then the walk of step 3, which a recovery reload skips. -/
def reloadDrained (s : State) : State :=
  if s.boot.reloadStep = 2 ∧ !secStopped s ∧ reloadMayStop s ∧ workEnded s then
    let s := reloadStop (queuesOff s)
    if !s.fab.reqs.isEmpty then s
    else
      let s := bootSet (fun b => { b with reloadStep := 3 }) s
      if s.boot.recovery then s else addWalk { lo := 0, hi := localEnd, slot := none, why := .reload, running := false } s
  else s

/-- A stage page goes to the next tier its mask permits. -/
def leaveStage (pg : Nat) (s : State) : State :=
  match allocAtPage s pg with
  | none => s
  | some al =>
    match demoteDest s al 0 with
    | none => s
    | some t =>
      match pickLoc t s with
      | (some l, s) =>
        let s := if codecTier t then s else rawPage pg s
        let m : Move := { srcTier := 0, srcLoc := .plain, dstTier := t, dstLoc := l, kind := .reload, pass := 1, dirty := [], ready := true,
                          heldPass := false, held := [], retried := false }
        moveCounts m (pageMod pg (fun p => { p with tier := t, loc := l }) s)
      | (none, s) => s

/-- Step 4: stage pages move out, promoted rows return to their places, replicas and projector windows go. -/
def reloadMove (s : State) : State :=
  if s.boot.reloadStep = 3 ∧ !secStopped s ∧ !(s.coh.walks.any fun w => w.why == WalkFor.reload) then
    let s := (s.store.pages.filter fun p => p.2.tier == 0 && !p.2.lost).foldl (fun s p => leaveStage p.1 s) s
    let s := bumpN Reg.beReplRetired 0 s.rows.replicas.length (bumpN Reg.beRowMoved 0 s.rows.slots.length s)
    let s := { s with
      rows := { s.rows with slots := [], old := [], replicas := [] }
      store := { s.store with projs := mmapv (fun _ p => { p with reserved := false, resident := [] }) s.store.projs } }
    bootSet (fun b => { b with reloadStep := 4 }) s
  else s

/-- What a recovery reload leaves (R475): every slot LOST, the three banks empty, the epoch kept. -/
def recoverState (s : State) : State :=
  { setBusy Reg.csCmd 0 false s with
    coh := { s.coh with slots := mmapv (fun _ x => { x with lost := true }) s.coh.slots, txns := [], waiting := [], walks := [] }
    fab := { s.fab with staged := Bank.empty, current := Bank.empty, previous := Bank.empty, prevLive := false, commit := none }
    mgmt := { s.mgmt with csBad := [] } }

/-- Ports whose split changes go down for their new training. -/
def resplit (old new : W32) (s : State) : State :=
  (List.range 32).foldl (fun s p =>
    if bit old p = bit new p then s
    else [p, p + 32].foldl (fun s q => portSet q (fun _ => Port.down) (portFall q s)) s) s

/-- Step 5: items applied, the directory every entry I, changed ports down. -/
def reloadApply (s : State) : State :=
  match s.boot.pending, s.boot.image with
  | some im, some r =>
    if s.boot.reloadStep = 4 ∧ !secStopped s then
      let s := resplit r.portSplit im.portSplit s
      let s := imageApply false im s
      let s := if s.boot.recovery then recoverState s else s
      bootSet (fun b => { b with reloadStep := 6 }) { s with coh := { s.coh with dir := [] } }
    else s
  | _, _ => s

/-- Step 6: the join EVENT, STAGE READY, BUSY 0; partitions resume intake. -/
def reloadEnd (s : State) : State :=
  if s.boot.reloadStep = 6 ∧ !secStopped s then
    let s := setBusy Reg.bootCmd 0 false (setStage 7 (sendJoin s))
    bootSet (fun b => { b with reloadStep := 0, recovery := false, recovered := b.recovered || b.recovery }) s
  else s

end Sys2Proof.Machine
end

