-- ==== Sys2Proof/Machine/Life.lean ====
section
/-! DEFINITION. The life cycle: tokens, transitions, debug opening, attestation (chapter 15). -/

namespace Sys2Proof.Machine

open Sys2Proof

/-! LC_CMD (Table 15-17) -/

/-- The token window (Table 15-13): n bytes from position i. -/
def tokenBytes (s : State) (i n : Nat) : List Byte := (List.range n).map fun j => mgetD 0 (i + j) s.boot.token

def tokenNum (s : State) (i n : Nat) : Nat := leNat (tokenBytes s i n)

/-- Digest of the token body, which its blocks sign (R527, R531). -/
def tokenDigest (s : State) : BitVec 512 := Config.sha3 (tokenBytes s 0 256)

def tokenBlocks (s : State) : List (List Byte) := (List.range (tokenNum s 6 1)).map fun k => tokenBytes s (256 + 7232 * k) 7232

def tokenVendor (s : State) : Bool := vendorSigned (tokenDigest s) (tokenBlocks s)
def tokenCustomer (s : State) : Bool := customerSigned s.boot.custKeyHash (tokenDigest s) (tokenBlocks s)

/-- Whether the token's signatures are those that its transition needs; none for a transition that Table 15-12 does not list. -/
def transitionSigned (s : State) (target : Nat) : Option Bool :=
  match s.boot.lcState, target with
  | 0, 1 => some (tokenVendor s)
  | 1, 2 => some (tokenCustomer s)
  | 1, 3 => some (tokenVendor s && tokenCustomer s)
  | 2, 3 => some (tokenVendor s && tokenCustomer s)
  | 0, 4 => some (tokenVendor s)
  | 3, 4 => some (tokenVendor s)
  | 1, 4 => some (tokenVendor s || tokenCustomer s)
  | 2, 4 => some (tokenVendor s || tokenCustomer s)
  | _, _ => none

/-- Whether a DEBUG_OPEN token is signed as Table 15-11 asks; none where no token opens JTAG. -/
def debugSigned (s : State) : Option Bool :=
  match s.boot.lcState with
  | 1 => some (tokenCustomer s)
  | 3 => some (tokenVendor s)
  | _ => none

/-- The STATUS of a token command (Table 15-17): 0 where it is accepted. Where several reasons apply, the order is the model's (log entry 59). -/
def tokenStatus (s : State) (kind : Nat) (signed : Option Bool) : Nat :=
  if tokenNum s 0 4 ≠ 0x4E4B5457 ∨ tokenNum s 4 1 ≠ kind ∨ (tokenNum s 6 1 ≠ 1 ∧ tokenNum s 6 1 ≠ 2) then 1
  else if tokenNum s 8 8 ≠ s.boot.serial.toNat then 3
  else if tokenNum s 16 64 ≠ s.boot.nonce.toNat then 4
  else match signed with | none => 5 | some false => 2 | some true => 0

/-- LC_CMD runs only at READY, RECOVERY and WAIT_IMAGE, and not while BOOT_CMD is busy (R530). -/
def lcReady (s : State) : Bool := [4, 7, 9].contains (stage s) && !cmdBusy s Reg.bootCmd 0

def lcStatusSet (n : Nat) (s : State) : State := rsetFld Reg.lcCmd 0 8 8 n s

/-- A token command: its status, LC_STATUS.REFUSED on a refusal, and a new nonce either way (R532). -/
def tokenRun (kind : Nat) (signed : Option Bool) (f : State → State) (s : State) : State :=
  let c := if lcReady s then tokenStatus s kind signed else 6
  newNonce (lcStatusSet c (if c = 0 then f s else lcFlag 1 s))

/-- A transition (R526): MAKER to FIELD-OPEN programs the customer key hash, which its token must give. -/
def transitionRun (s : State) : State :=
  let target := tokenNum s 5 1
  let signed := transitionSigned s target
  let signed := if s.boot.lcState = 0 ∧ target = 1 ∧ tokenNum s 80 64 = 0 then none else signed
  tokenRun 1 signed (fun s =>
    let s := if s.boot.lcState = 0 ∧ target = 1 then bootSet (fun b => { b with custKeyHash := BitVec.ofNat 512 (tokenNum s 80 64) }) s else s
    lcFlag 0 (enterState target s)) s

def debugOpenRun (s : State) : State :=
  tokenRun 2 (debugSigned s) (fun s => lcFlag 2 (bootSet (fun b => { b with debugOpen := true, debugOpened := true }) s)) s

def newNonceRun (s : State) : State := if lcReady s then newNonce (lcStatusSet 0 s) else lcStatusSet 6 s

/-- OP of LC_CMD is stored and runs. -/
def lcCmdOp (op : Nat) (v : W32) (f : State → State) (s : State) : State := if cmdOp v = op then f (cfgStore Reg.lcCmd 0 v s) else s

/-- JTAG is open in MAKER, and while a token has opened it (Table 15-11). -/
def jtagOpen (s : State) : Bool := decide (s.boot.lcState = 0) || s.boot.debugOpen

/-! Attestation (R535) -/

/-- The identity key exists once stage 2 has derived it. -/
def keyReady (s : State) : Bool := decide (3 ≤ stage s) && decide (stage s ≤ 8)

/-- What GET_CERT returns: the identity public key of 2,592 bytes and the certificate. In RETURN the record that held the certificate has been erased
(R528, R533, log entry 169). -/
def certOf (s : State) : List Byte :=
  if s.boot.lcState = 3 then slice (Config.certificate s.boot.serial) 0 2592 ++ Config.erasedRecord else Config.certificate s.boot.serial

/-- At most 20 answers in any second, 1,500 slow ticks; others are BUSY. -/
def mctpRun (hp : Nat) (f : State → List Byte) (s : State) : State :=
  if !keyReady s then s
  else
    let last := s.boot.mctp.filter fun t => decide (s.boot.tick < t + 1500)
    if 20 ≤ last.length then emit (.mctp hp true []) s
    else emit (.mctp hp false (f s)) (bootSet (fun b => { b with mctp := b.tick :: last }) s)

/-- Bytes 319:0 of the report (Table 15-15). -/
def reportBody (s : State) (nonce : BitVec 512) : List Byte :=
  let im := fun (d : Nat) (f : Image → Nat) => match s.boot.image with | some im => f im | none => d
  leBytes 4 0x54544157 ++ leBytes 1 1 ++ leBytes 1 s.boot.lcState
    ++ leBytes 1 (b2n (jtagOpen s) + 2 * b2n (s.boot.debugOpened || s.boot.lcState == 0)) ++ leBytes 1 (b2n s.boot.variantE)
    ++ leBytes 8 s.boot.serial.toNat ++ leBytes 4 s.boot.fwVersion.toNat ++ leBytes 4 (im 0 fun i => i.scriptId.toNat)
    ++ leBytes 1 s.boot.fwSvn ++ leBytes 1 s.boot.imgSvn ++ leBytes 2 0
    ++ leBytes 4 (rget s Reg.secViolation 0).toNat ++ leBytes 4 (rget s Reg.fatalStatus 0).toNat ++ leBytes 28 0
    ++ leBytes 64 nonce.toNat ++ leBytes 64 (Config.sha3 s.boot.fwImage).toNat ++ leBytes 64 (im 0 fun i => i.digest.toNat)
    ++ leBytes 64 s.boot.custKeyHash.toNat

/-- The report with its signature of 4,627 bytes. -/
def reportOf (nonce : BitVec 512) (s : State) : List Byte :=
  reportBody s nonce ++ slice (Config.signReport s.boot.serial (Config.sha3 (reportBody s nonce))) 0 4627

end Sys2Proof.Machine
end

