-- ==== Sys2Proof/Machine/Thermal.lean ====
section
/-! DEFINITION. Temperature and power (chapter 16): throttling, the HBM measures, the thermal trip. -/

namespace Sys2Proof.Machine

open Sys2Proof

/-- A field that acts as its reset value where it is out of range (Table 16-6). -/
def inRange (v lo hi rst : Nat) : Nat := if lo ≤ v ∧ v ≤ hi then v else rst

def hbmLimit (s : State) : Nat := inRange (rfld s Reg.thermCfg 0 16 8) 70 100 95
def thermHyst (s : State) : Nat := inRange (rfld s Reg.thermCfg 0 8 8) 1 15 3

/-- Throttling for the causes present (R556); VR_HOT_N counts only while VRHOT_EN is 1. It changes time only. -/
def throttleOn (die power vrhot : Bool) (s : State) : State :=
  let hot := vrhot && rbit s Reg.pwrCfg 0 16
  let v := rget s Reg.throtStatus 0
  let s := rset Reg.throtStatus 0 (setFld v 0 3 (b2n die + 2 * b2n power + 4 * b2n hot)) s
  bootSet (fun b => { b with throttled := b.throttled || die || power || hot, throtSeen := b.throtSeen || die || power || hot }) s

/-- Every cause has been absent for 1 ms. -/
def throttleOff (s : State) : State := bootSet (fun b => { b with throttled := false }) (rsetFld Reg.throtStatus 0 0 3 0 s)

/-- THROT_STATUS.HBM follows the stacks under R557. -/
def hbmStatus (s : State) : State := rsetFld Reg.throtStatus 0 3 1 (b2n (!s.boot.hbmHalf.isEmpty || !s.boot.hbmRefresh.isEmpty)) s

/-- A stack at 85 °C has its refresh doubled, one at HBM_LIMIT its bandwidth halved (R557). -/
def hbmHotter (k temp : Nat) (s : State) : State :=
  let add := fun (c : Bool) (l : List Nat) => if c then k :: l.filter (· ≠ k) else l
  hbmStatus (bootSet (fun b => { b with throtSeen := b.throtSeen || decide (85 ≤ temp) || decide (hbmLimit s ≤ temp), hbmRefresh := add (decide (85 ≤ temp)) b.hbmRefresh, hbmHalf := add (decide (hbmLimit s ≤ temp)) b.hbmHalf }) s)

/-- Below 85 °C the refresh is normal again, at HBM_LIMIT − HYST the bandwidth. -/
def hbmCooler (k temp : Nat) (s : State) : State :=
  let drop := fun (c : Bool) (l : List Nat) => if c then l.filter (· ≠ k) else l
  hbmStatus (bootSet (fun b => { b with
    hbmRefresh := drop (decide (temp < 85)) b.hbmRefresh
    hbmHalf := drop (decide (temp ≤ hbmLimit s - thermHyst s)) b.hbmHalf }) s)

end Sys2Proof.Machine
end

