-- ==== Sys2Proof/Machine/Flash.lean ====
section
/-! DEFINITION. Memory errors found by the scrub, corrected-error triggers, flash wear and read-only dies (chapter 14). -/

namespace Sys2Proof.Machine

open Sys2Proof

/-! Corrected errors and the scrub (R482, R499) -/

/-- Corrected errors of a unit have reached CE_THRESH, as the last slow-tick edge read it, in this tick: one trigger, whatever follows in the tick. -/
def ceReached (medium unit : Nat) (s : State) : State :=
  let k := medium * 65536 + unit
  let n := mgetD 0 k s.rel.ceTick
  let th := s.rel.ceThresh
  if th = 0 ∨ n < th ∨ s.rel.ceDone.contains k then s
  else trigger 1 (w64 (n % 2 ^ 32 + medium * 2 ^ 60)) none unit { s with rel := { s.rel with ceDone := k :: s.rel.ceDone } }

/-- The patrol scrub reads a line of HBM or DDR while HOURS is not 0, of stage while STAGE_EN is 1; flash is not scrubbed. -/
def scrubGo (off : Nat) (m : Media) (s : State) : State :=
  if addrOf s off 1 = .decode ∨ addrOf s off 1 = .hub ∨ pageLost s off then s
  else
    let t := tierAt s off
    if t = 0 then (if rbit s Reg.scrubCfg 0 16 then mediaFound off m s else s)
    else if (t = 1 ∨ t = 2) ∧ rfld s Reg.scrubCfg 0 0 8 ≠ 0 then mediaFound off m { s with rel := { s.rel with scrubPos := off } }
    else s

/-! Read-only dies (R485 to R488) -/

/-- The least-worn writable die with free capacity, apart from the one a page leaves; among equals the choice is free (log entry 22). -/
def leastWorn (but : Loc) (s : State) : Option Loc × State :=
  let ds := s.rel.dies.filter fun e => but != .die (e.1 / 32) (e.1 % 32) && !dieRo s (e.1 / 32) (e.1 % 32) && decide (dieUsed s (e.1 / 32) (e.1 % 32) < dieCap s)
  let best := ds.filter fun e => ds.all fun f => decide (e.2.wear ≤ f.2.wear)
  match best with
  | [] => (none, s)
  | _ => let (i, s) := drawBelow best.length s; ((best[i]?).map fun e => .die (e.1 / 32) (e.1 % 32), s)

/-- Where a page goes whose die is worn or read-only (R96, R487): the least-worn die, else another tier its mask permits, in R38's order (DESIGN CHOICE,
log entry 125). -/
def wornDest (al : Alloc) (but : Loc) (s : State) : Option (Nat × Loc) × State :=
  let other := fun (s : State) =>
    match forcedDest s al (tiersBySpeed.filter (· ≠ 3)) with
    | some t => let (l, s) := pickLoc t s; (l.map fun l => (t, l), s)
    | none => (none, s)
  if homeMask s al 3 then
    match leastWorn but s with
    | (some l, s) => (some (3, l), s)
    | (none, s) => other s
  else other s

/-- A page on a read-only die enters a forced move that is held from its first pass; one whose destination became read-only starts again
(R487). Without a destination the page stays. -/
def leaveDie (pg : Nat) (s : State) : State :=
  let badDst := match mget pg s.store.moves with
    | some m => (match m.dstLoc with | .die c d => dieRo s c d | _ => false)
    | none => false
  let s := if badDst then abandonMoves (fun k _ => k == pg) s else s
  match allocAtPage s pg with
  | none => s
  | some al =>
    if (mget pg s.store.moves).any fun m => m.kind.forced then moveMod pg (fun m => { m with heldPass := true, kind := .readOnly }) s
    else
      match wornDest al .plain s with
      | (some (t, l), s) => moveMod pg (fun m => { m with heldPass := true }) (startMoveTo pg .readOnly t l s)
      | (none, s) => s

/-- Every page on a read-only die moves; moves toward one start again. -/
def leaveRoDies (s : State) : State :=
  let onRo := s.store.pages.filter fun p => !p.2.lost && (match p.2.loc with | .die c d => dieRo s c d | _ => false)
  let toRo := s.store.moves.filter fun m => (match m.2.dstLoc with | .die c d => dieRo s c d | _ => false)
  let s := onRo.foldl (fun s p => leaveDie p.1 s) s
  toRo.foldl (fun s m =>
    match mget m.1 s.store.moves, allocAtPage s m.1 with
    | some x, some al =>
      if x = m.2 then
        let s := abandonMoves (fun k _ => k == m.1) s
        match wornDest al .plain s with
        | (some (t, l), s) => startMoveTo m.1 x.kind t l s
        | (none, s) => s
      else s
    | _, _ => s) s

/-- The FLASH trigger (Table 14-7): event 0 spares low, 1 die read-only, 2 channel read-only. -/
def flashTrigger (ch d event : Nat) (s : State) : State := trigger 12 (w64 (d + ch * 2 ^ 8 + event * 2 ^ 16)) none ch s

def dieMod (k : Nat) (f : Die → Die) (s : State) : State := { s with rel := { s.rel with dies := mmod k f s.rel.dies } }

/-- Spare pool left, in percent of what training set. -/
def Die.percent (d : Die) : Nat := d.spare * 100 / max 1 d.pool

/-- The spare pool falls below SPARE_LOW: once for a die. -/
def spareLow (ch d : Nat) (s : State) : State :=
  let k := dieKey ch d
  match mget k s.rel.dies with
  | some x =>
    if x.percent < rfld s Reg.flashCfg 0 8 7 ∧ !s.rel.lowSpare.contains k then
      flashTrigger ch d 0 { s with rel := { s.rel with lowSpare := k :: s.rel.lowSpare } }
    else s
  | none => s

/-- A block fails program or erase: retired to a spare, or, without one, its die becomes read-only. -/
def blockFailed (ch d : Nat) (s : State) : State :=
  let k := dieKey ch d
  match mget k s.rel.dies with
  | none => s
  | some x =>
    if dieRo s ch d then s
    else if x.spare = 0 then
      let s := flashTrigger ch d 1 (dieMod k (fun x => { x with ro := true }) s)
      leaveRoDies (if channelRo s ch then flashTrigger ch d 2 s else s)
    else spareLow ch d (bump Reg.flcRetired ch (dieMod k (fun x => { x with spare := x.spare - 1 }) s))

/-- FLC_CTL (R488): FORCE_RO makes the channel read-only; clearing it makes it writable again but for dies set in FLC_DIE_RO. -/
def flcCtlSet (v : W32) (ch : Nat) (s : State) : State :=
  let was := channelRo s ch
  let s := cfgStore Reg.flcCtl ch v s
  leaveRoDies (if channelRo s ch && !was then flashTrigger ch 0 2 s else s)

end Sys2Proof.Machine
end

