-- ==== Sys2Proof/Machine/RegView.lean ====
section
/-! DEFINITION. What registers read (chapter 13 and the register tables): views of the state, slow copies, stored values. -/

namespace Sys2Proof.Machine

open Sys2Proof

/-- The instance an index field inside a block names (R458): ASID_IDX, APT_IDX and FN_IDX are single registers of the hub. -/
def indexed (s : State) (off i : Nat) : Nat :=
  if off = Reg.asidCfg ∨ off = Reg.asidPasid then rfld s Reg.asidIdx 0 0 12
  else if off = Reg.aptBaseLo ∨ off = Reg.aptBaseHi then rfld s Reg.aptIdx 0 0 9
  else if off = Reg.fnMap then rfld s Reg.fnIdx 0 0 9
  else i

/-- The number of a copy in a run of n registers st bytes apart from base. -/
def copyOf (off base st n : Nat) : Option Nat :=
  if base ≤ off ∧ (off - base) % st = 0 ∧ (off - base) / st < n then some ((off - base) / st) else none

/-- The slot and the register of slot 0 that an offset in the queue-slot area stands for. -/
def slotAt (off : Nat) : Option (Nat × Nat) :=
  if 0x101000 ≤ off ∧ off < 0x102000 then some ((off - 0x101000) / 64, 0x101000 + (off - 0x101000) % 64) else none

/-- A field of the image, 0 while none is loaded. -/
def imageNum (s : State) (f : Image → Nat) : Nat := match s.boot.image with | some im => f im | none => 0

/-! Views, by block: none for a register that is stored or copied -/

/-- Common block. -/
def viewCommon (s : State) (path : Path) (off i : Nat) : Option W32 :=
  if off = Reg.hubId then some (w32 (0x5F01 + b2n s.boot.variantE * 2 ^ 16 + fld s.boot.stepping 0 4 * 2 ^ 20 + fld s.boot.stepping 4 4 * 2 ^ 24))
  else if off = Reg.hubFeature then some (w32 ((if s.boot.variantE then 16 else 32) + 64 * 2 ^ 8 + 8 * 2 ^ 16 + 2 * 2 ^ 20 + 2 * 2 ^ 24))
  else if off = Reg.hubSerialLo then some (w32 s.boot.serial.toNat)
  else if off = Reg.hubSerialHi then some (w32 (s.boot.serial.toNat / 2 ^ 32))
  else if off = Reg.scriptId then some (w32 (imageNum s fun im => im.scriptId.toNat))
  else if off = Reg.fwVersion then some s.boot.fwVersion
  else if off = Reg.fnSelf then
    some (w32 (match path with
      | .pf p => p.val * 4 + (pathPart s path).getD 0 * 2 ^ 16
      | .vf p n => p.val * 4 + (n.val + 1) * 8 + (pathPart s path).getD 0 * 2 ^ 16
      | .mgmt => 1
      | .akist => 2))
  else if off = Reg.hubIntStatus then some (hubIntStatus s)
  else if off = Reg.lockkey then some (w32 (b2n (s.mgmt.unlocked.contains i)))
  else if off = Reg.partSel ∧ isVf path then some (w32 ((pathPart s path).getD 0))
  else if off = Reg.slowEdges then some (mgetD 0 (rkey off 0) s.copies)
  else none

/-- Store, engines, queues. -/
def viewEngines (s : State) (off i : Nat) : Option W32 :=
  if off = Reg.projMiss then some (w32 (cget s off i))
  else if off = Reg.projState then
    let n := rfld s off i 0 16
    some (w32 (n + 2 ^ 16 * b2n ((match allocOf s n with | some a => a.part == i | none => false) && projRunning s n)))
  else if off = Reg.wideCtl then
    let n := rfld s off i 0 16
    some (w32 (n + 2 ^ 16 * b2n ((match allocOf s n with | some a => a.part == i | none => false) && mgetD 0 (rkey Reg.wideCtl n) s.copies != 0)))
  else if off = Reg.tblStatus then
    match mget (rfld s Reg.tblCmd i 16 14) s.eng.tables with
    | some t => if t.part = i then some (w32 (2 ^ 31 + t.mode * 2 ^ 29 + b2n t.stale * 2 ^ 28)) else some 0
    | none => some 0
  else if off = Reg.idxStatus ∨ off = Reg.idxVisLo ∨ off = Reg.idxVisHi ∨ off = Reg.idxSideLive then
    let n := rfld s Reg.idxCmd i 16 6
    match mget n s.eng.idxs with
    | some x =>
      if x.part ≠ i then some 0
      else if off = Reg.idxStatus then some (w32 (2 ^ 31 + b2n (!ixGraph x.image) * 2 ^ 30 + b2n x.old.isSome * 2 ^ 29))
      else some (mgetD 0 (rkey off n) s.copies)
    | none => some 0
  else if off = Reg.embSort then some (w32 (imageNum s fun im => im.sortKib))
  else if off = Reg.embStaging then some (w32 (imageNum s fun im => im.stagingMib))
  else if off = Reg.embReplThresh then some (w32 (imageNum s fun im => im.replMib))
  else if off = Reg.srchBeam then some (w32 (imageNum s fun im => im.beamKib))
  else if off = Reg.codecQueue then some 256
  else match copyOf off Reg.ctblState 4 8 with
  | some j => let c := slotOf s j; some (w32 (c.gen % 256 + b2n c.valid * 256 + c.fmt % 16 * 512 + slotInUse s j % 65536 * 65536))
  | none =>
    if [Reg.ptTallyVal, Reg.ptWatchTarget, Reg.ptWatchCtl, Reg.ptWatchAddrLo, Reg.ptWatchAddrHi, Reg.ptWatchValLo, Reg.ptWatchValHi].contains off then
      some (tallyRead s off i)
    else match slotAt off with
    | some (k, r) =>
      if r = Reg.dqCtl then
        some (w32 (b2n (dqEnabled s i k) + 256 * b2n (match slotQueue s i k with | some q => queueIdle s q | none => true)))
      else if r = Reg.dqStatus then
        let v := rget s off i &&& 0xFFFF0CFF
        let waits := match slotQueue s i k with
          | some q => (queueOf s q).descs.any fun d => d.stage == DescStage.waiting && d.step == 1 && [0x05, 0x13].contains (d.bytes.getD 0 0).toNat
          | none => false
        some (w32 (v.toNat + 512 * b2n waits + 256 * b2n (cqFull s i k)))
      else none
    | none => none

/-- Coherence, fabric, DMA, partitions. -/
def viewUnits (s : State) (off i : Nat) : Option W32 :=
  if off = Reg.cohStatus then
    some (w32 (b2n (s.coh.walks.any fun w => w.running) + 2 * min 7 (s.coh.walks.filter fun w => !w.running).length))
  else if off = Reg.cohAgent then
    let n := rfld s Reg.cohAgentNum 0 0 8
    match cohSlot s n with
    | some x => some (w32 (2 ^ 31 + b2n x.lost * 2 ^ 30 + x.kind * 2 ^ 18 + x.ep))
    | none => some (rget s off 0 &&& 0x000FFFFF)
  else if off = Reg.csEpoch then some (w32 (s.fab.epoch + s.fab.prevEpoch * 2 ^ 16))
  else if off = Reg.csStatus then some (w32 (min (prevInflight s) 0xFFFFFF + b2n s.fab.prevLive * 2 ^ 31))
  else if off = Reg.poolData then some (w32 (mgetD 0 (rfld s Reg.poolIdx 0 0 10) s.fab.pools))
  else if off = Reg.portStatus then
    let p := portOf s i
    some (w32 (p.width + b2n (portUp s i) * 16 + p.laneFail % 256 * 256))
  else if off = Reg.portPeer then
    some (match (portOf s i).peer with | some e => w32 (e % 2 ^ 18 + 2 ^ 31 * b2n (portUp s i)) | none => 0)
  else if off = Reg.dmaEngStatus then
    let mine := s.host.chans.filter fun c => c.1 / 8 == i
    let run := mine.find? fun c => c.2.state == 2
    some (w32 ((match run with | some c => c.1 % 8 + 8 | none => 0) + ((mine.filter fun c => c.2.state == 1).map fun c => 2 ^ (8 + c.1 % 8)).sum))
  else if off = Reg.partId then some (w32 i)
  else if off = Reg.partStatus then some (setFld (rget s off i) 0 2 (partState s i))
  else if off = Reg.fnMap then
    let n := indexed s off i
    if !fnExists s n then some 0 else if n % 256 = 0 then some (rget s off n ||| 0x80000000) else some (rget s off n)
  else match copyOf off Reg.csData 4 8 with
  | some j => some (csDataGet s j)
  | none =>
    match copyOf off Reg.chCtl 64 8 with
    | some c =>
      let st := match chanOf s i c with | some x => x.state | none => 0
      some (w32 (rfld s off i 16 8 * 2 ^ 16 + st * 256))
    | none => none

/-- Word w of take n (R504): VALID is 0, as is the rest, for a take that is not kept. -/
def takeWord (s : State) (n w : Nat) : W32 := match mget n s.rel.takes with | some t => t.getD w 0 | none => 0

/-- Reliability, boot, life cycle. -/
def viewHub (s : State) (off i : Nat) : Option W32 :=
  if off = Reg.flcStatus then some (w32 (b2n (channelRo s i)))
  else if off = Reg.flcDieRo then some (w32 ((s.rel.dies.filter fun d => d.1 / 32 == i && d.2.ro).map fun d => 2 ^ (d.1 % 32)).sum)
  else if off = Reg.takeHeadLo then some (w32 s.rel.head)
  else if off = Reg.takeHeadHi then some (w32 (s.rel.head / 2 ^ 32 % 65536))
  else if off = Reg.imgWork then some (w32 (imageNum s fun im => im.workKib))
  else if off = Reg.imgReelOffLo then some (w32 (imageNum s fun im => im.reelOff.toNat))
  else if off = Reg.imgReelOffHi then some (w32 (imageNum s fun im => im.reelOff.toNat / 2 ^ 32))
  else if off = Reg.lcState then some (w32 (s.boot.lcState + b2n s.boot.debugOpen * 16 + b2n s.boot.fusePending.isSome * 32))
  else if off = Reg.fuseSvn then some (w32 (s.boot.fwSvn + s.boot.imgSvn * 256))
  else match copyOf off Reg.takeWin 4 21 with
  | some w => some (takeWord s s.rel.cursor w)
  | none =>
    match copyOf off Reg.lcNonce 4 16 with
    | some j => some (w32 (s.boot.nonce.toNat / 2 ^ (32 * j)))
    | none =>
      let win := fun (m : NMap Byte) (base : Nat) => some (w32 (leNat ((List.range 4).map fun j => mgetD 0 (base + j) m)))
      match copyOf off Reg.imgData 4 8192, copyOf off Reg.lcToken 4 4096 with
      | some w, _ => win s.boot.staging (rfld s Reg.imgOffset 0 0 11 * 32768 + 4 * w)
      | _, some w => win s.boot.token (4 * w)
      | _, _ => none

def viewOf (s : State) (path : Path) (off i : Nat) : Option W32 :=
  if off < 0x10000 then viewCommon s path off i
  else if off < 0x70000 ∨ 0x100400 ≤ off ∧ off < 0x100A00 ∨ 0x101000 ≤ off then viewEngines s off i
  else if off < 0xD0000 ∨ 0x100000 ≤ off then viewUnits s off i
  else viewHub s off i

/-- What a path reads at instance i of the register at an offset: a view, the slow copy of an RS register (R454), or its implemented bits. -/
def regValue (s : State) (path : Path) (off i : Nat) : W32 :=
  match regRow off with
  | none => 0
  | some row =>
    match viewOf s path off i with
    | some v => v
    | none =>
      if row.acc = .rs then mgetD row.rst (rkey off i) s.copies
      else if row.acc = .rm then rget s off i &&& 0xFFFF
      else
        let v := rget s off (indexed s off i)
        if row.acc = .rw ∨ row.acc = .rk then v &&& (row.rw ||| row.ro) else v

end Sys2Proof.Machine
end

