-- ==== Sys2Proof/Machine/Take.lean ====
section
/-! DEFINITION. The take log (chapter 14): capture, its window, its cursor and acknowledgement. -/

namespace Sys2Proof.Machine

open Sys2Proof

def relSet (f : Rel → Rel) (s : State) : State := { s with rel := f s.rel }

/-- A capture list entry names a register and an instance (R500); a set that does not exist reads 0. -/
def captureValue (s : State) (e : W32) : W32 :=
  let off := 4 * fld e 0 24
  let i := fld e 24 8
  match regRow off with
  | none => 0
  | some row =>
    match row.sel with
    | .none => regValue s .akist off 0
    | .fn => regValue s .akist off (pathCode .akist)
    | .part => if i < parts s then regValue s .akist off i else 0
    | .port => if portExists s i then regValue s .akist off i else 0
    | .flc => if i < 32 then regValue s .akist off i else 0
    | .dma => if i < 32 then regValue s .akist off i else 0
    | .reel => if i < 64 then regValue s .akist off i else 0
    | .tally => regValue s .akist off i
    | .codec => if i < 32 then regValue s .akist off i else 0
    | .dolly => if i < 16 then regValue s .akist off i else 0

/-- Entries of capture list l. -/
def listLen (s : State) (l : Nat) : Nat := min 16 (rfld s Reg.takeListLen 0 (8 * l) 5)

/-- The values of capture list l, in order. -/
def captureList (s : State) (l : Nat) : List W32 := (List.range (listLen s l)).map fun e => captureValue s (rget s (Reg.takeList + 64 * l + 4 * e) 0)

/-- The 21 words of a take (Table 14-8). -/
def takeWords (s : State) (t : Trigger) : List W32 :=
  let l := rfld s Reg.takeTrigList 0 (2 * t.code) 2
  let vs := captureList s l
  let n := s.rel.head
  [w32 n, w32 (n / 2 ^ 32 % 65536 + t.code * 2 ^ 16 + l * 2 ^ 24 + vs.length * 2 ^ 26 + 2 ^ 31),
    w32 t.detail.toNat, w32 (t.detail.toNat / 2 ^ 32),
    w32 (t.part.getD 0 % 256 + b2n t.part.isSome * 256 + t.inst % 65536 * 65536)] ++ vs ++ List.replicate (16 - vs.length) 0

/-- A waiting trigger is accepted: it takes the next number, or is dropped while STOP keeps 4,096 unread takes (R502). -/
def takeAccept (t : Trigger) (s : State) : State :=
  if rbit s Reg.takeCfg 0 1 && decide (s.rel.head - s.rel.ack = 4096) then bump Reg.takesLost 0 s
  else
    let n := s.rel.head
    let ws := takeWords s t
    relSet (fun r => { r with takes := mset n ws (mfilter (fun k _ => decide (n < k + 4096)) r.takes), head := n + 1 }) s

/-- The capture of one waiting trigger; which of those that wait is free (R503, log entry 6). -/
def captureGo (s : State) : State :=
  if s.rel.waiting.isEmpty then s
  else
    let (i, s) := drawBelow s.rel.waiting.length s
    match s.rel.waiting[i]? with
    | some t => takeAccept t (relSet (fun r => { r with waiting := r.waiting.eraseIdx i }) s)
    | none => s

/-- TAKE_SW: the value is kept and raises the SOFTWARE trigger. -/
def takeSwSet (v : W32) (s : State) : State := trigger 0 (w64 v.toNat) none 0 (cfgStore Reg.takeSw 0 v s)

/-- A low half written takes both halves of a 48-bit number. -/
def both (s : State) (hi : Nat) (v : W32) : Nat := v.toNat + rfld s hi 0 0 16 * 2 ^ 32

def takeCursorSet (v : W32) (s : State) : State :=
  let s := cfgStore Reg.takeCursorLo 0 v s
  relSet (fun r => { r with cursor := both s Reg.takeCursorHi v }) s

def takeAckSet (v : W32) (s : State) : State :=
  let s := cfgStore Reg.takeAckLo 0 v s
  relSet (fun r => { r with ack := both s Reg.takeAckHi v }) s

/-- The cursor advances, and its registers show it (log entry 57). -/
def cursorNext (s : State) : State :=
  let n := (s.rel.cursor + 1) % 2 ^ 48
  rset Reg.takeCursorLo 0 (w32 n) (rset Reg.takeCursorHi 0 (w32 (n / 2 ^ 32)) (relSet (fun r => { r with cursor := n }) s))

/-- What reading a register does beside answering: TAKE_WIN_20 with AUTO advances the cursor (R447), a tally of another partition is
counted (R302). -/
def readEffect (off i : Nat) (s : State) : State :=
  if off = Reg.takeWin + 80 ∧ rbit s Reg.takeCfg 0 3 then cursorNext s
  else if [Reg.ptTallyVal, Reg.ptWatchTarget, Reg.ptWatchCtl, Reg.ptWatchAddrLo, Reg.ptWatchAddrHi, Reg.ptWatchValLo, Reg.ptWatchValHi].contains off then
    onTally i (fun _ s => s) s
  else s

/-- A read of a register on a path: its value, none for Unsupported Request. -/
def regReadVia (path : Path) (off : Nat) (s : State) : Option W32 × State :=
  match regTarget s path off with
  | .ur => (none, s)
  | .bad => (some 0, bump Reg.regBadAccess 0 s)
  | .nothing => (some 0, s)
  | .at i => (some (regValue s path off i), readEffect off i s)

/-- A read of TAKE_WIN_20, answered on its path. -/
def takeWinReadGo (path : Path) (s : State) : State :=
  match regReadVia path (Reg.takeWin + 80) s with
  | (some v, s) => hostEmit path (.hostData path (leBytes 4 v.toNat) false) s
  | (none, s) => hostEmit path (.hostUr path) s

end Sys2Proof.Machine
end

