-- ==== Sys2Proof/Machine/RegCmd.lean ====
section
/-! DEFINITION. Writing registers (chapter 13): what a write of any register does at the instance it reaches, by its access type or its own behaviour,
LOCKKEY, the W1C registers, the interrupt mask. -/

namespace Sys2Proof.Machine

open Sys2Proof

/-! LOCKKEY (R459) -/

/-- The key unlocks the writing function for its next write; any other value locks it. -/
def lockkeySet (v : W32) (i : Nat) (s : State) : State :=
  let rest := s.mgmt.unlocked.filter (· ≠ i)
  { s with mgmt := { s.mgmt with unlocked := if v = 0xA51F then i :: rest else rest } }

/-! W1C registers (R453) -/

/-- FATAL_STATUS: DIR_LOST and CS_PARITY clear after a recovery reload, SECURITY after a hub reset (R475, R534). -/
def fatalW1c (v : W32) (s : State) : State :=
  let may := (if s.boot.recovered then (3 : W32) else 0) ||| (if s.boot.secReset then 4 else 0)
  rset Reg.fatalStatus 0 (rget s Reg.fatalStatus 0 &&& ~~~(v &&& may)) s

/-- SEC_VIOLATION: only after a hub reset has followed the violation. -/
def secW1c (v : W32) (s : State) : State :=
  if s.boot.secReset then rset Reg.secViolation 0 (rget s Reg.secViolation 0 &&& ~~~v) s else s

def lcW1c (v : W32) (s : State) : State := rset Reg.lcStatus 0 (rget s Reg.lcStatus 0 &&& ~~~v) s

/-- PARITY_FAULT (R466): each bit written 1 has its unit checked; CS clears only once the hub has been recovered (R467). -/
def parityW1c (v : W32) (s : State) : State :=
  (List.range 15).foldl (fun s u =>
    if !bit v u || !rbit s Reg.parityFault 0 u then s
    else if u = 9 then (if s.boot.recovered then rset Reg.parityFault 0 (rget s Reg.parityFault 0 &&& ~~~(w32 512)) s else s)
    else parityRecheck u s) s

/-- PARITY_INJECT (R468). -/
def parityInjectSet (v : W32) (s : State) : State := rset Reg.parityInject 0 (v &&& 0x11F) s

/-- HUB_INT_MASK (RM): bits 31:16 say which mask bits are written. -/
def hubIntMaskSet (v : W32) (s : State) : State :=
  let m := w32 (fld v 16 9)
  cfgStore Reg.hubIntMask 0 ((rget s Reg.hubIntMask 0 &&& ~~~m) ||| (v &&& m)) s

/-! Command registers -/

/-- A write of a command register at instance i: the command that OP names, issued; an OP that names none only stores, and nothing while BUSY. -/
def commandWrite (off : Nat) (v : W32) (i : Nat) (s : State) : Option State :=
  let op := if off = Reg.hostxCmd then fld v 0 2 else cmdOp v
  let v := if off = Reg.hostxCmd then v &&& 0xFFFFFFFB else v
  let at' := fun (u : Nat) (f : Nat → State → State) => some (issueAt off op u v f i (checkUse s))
  let go := fun (u : Nat) (f : State → State) => at' u fun _ => f
  let plain := some (if cmdBusy s off i then s else cfgStore off i v s)
  if off = Reg.allocCmd then
    match op with
    | 1 => at' 1 allocCreateRun | 2 => at' 1 allocDestroyRun | 3 => at' 1 setFlagsRun | 4 => at' 1 projRestartRun | 5 => at' 1 projStopRun | _ => plain
  else if off = Reg.hostxCmd then match op with | 1 => go 1 hostxLendRun | 2 => go noUnit hostxNoticeRun | _ => plain
  else if off = Reg.ctblCmd then match op with | 1 => go 5 ctblLoadRun | 2 => go 5 ctblRetireRun | _ => plain
  else if off = Reg.csCmd then match op with | 1 => go 8 commitRun | 2 => go 8 discardRun | _ => plain
  else if off = Reg.cohAgentCmd then match op with | 1 => go 7 slotSetRun | 2 => go 7 slotClearRun | 3 => go 7 slotClearLostRun | _ => plain
  else if off = Reg.regionCmd then
    match op with | 1 => at' 7 regionCreateRun | 2 => at' 7 regionDestroyRun | 3 => at' 7 regionOwnRun | 4 => at' 7 regionQueryRun | _ => plain
  else if off = Reg.tblCmd then match op with | 1 => at' 3 tblCreateRun | 2 => at' 3 tblDestroyRun | 3 => at' 3 tblClearRun | _ => plain
  else if off = Reg.idxCmd then match op with | 1 => at' 4 idxCreateRun | 2 => at' 4 idxDestroyRun | 3 => at' 4 idxSwapRun | _ => plain
  else if off = Reg.partCmd then match op with | 1 => go 0 partCreateRun | 2 => go 0 partDestroyRun | _ => plain
  else if off = Reg.mapCmd then match op with | 1 => at' 10 mapRun | 2 => at' 10 unmapRun | 3 => at' 10 mapQueryRun | 4 => at' 10 mapInvalRun | _ => plain
  else none

/-! Registers with a behaviour of their own -/

/-- A word of the image window is staged, but not while BOOT_CMD is busy; a word of the token window. -/
def windowWrite (off : Nat) (v : W32) (s : State) : Option State :=
  let put := fun (m : NMap Byte) (base : Nat) => (leBytes 4 v.toNat).zipIdx.foldl (fun m e => mput 0 (base + e.2) e.1 m) m
  match copyOf off Reg.imgData 4 8192, copyOf off Reg.lcToken 4 4096 with
  | some w, _ =>
    if cmdBusy s Reg.bootCmd 0 then some s
    else
      let c := rfld s Reg.imgOffset 0 0 11
      some (storeParity off c 14 (bootSet (fun b => { b with staging := put b.staging (c * 32768 + 4 * w) }) s))
  | _, some w => some (storeParity off 0 14 (bootSet (fun b => { b with token := put b.token (4 * w) }) s))
  | _, _ => none

/-- Partition set: quotas, widening, tallies, vectors, queue slots. -/
def partSetWrite (off : Nat) (v : W32) (i : Nat) (s : State) : Option State :=
  if off = Reg.wideCtl then some (wideCtlSet v i s)
  else if off = Reg.partCtl then some (partCtlSet v i s)
  else if off = Reg.ptTallyVal then some (tallyValSet v i s)
  else if off = Reg.ptWatchCtl then some (watchCtlSet v i s)
  else if [Reg.ptWatchTarget, Reg.ptWatchAddrLo, Reg.ptWatchAddrHi, Reg.ptWatchValLo, Reg.ptWatchValHi].contains off then some (watchPut off v i s)
  else match copyOf off Reg.tierQuota 4 6, copyOf off Reg.vecMask 4 4, copyOf off Reg.vecRouteLo 4 128 with
  | some t, _, _ => some (tierQuotaSet t v i s)
  | _, some q, _ => some (vecMaskSet q v i s)
  | _, _, some n => some (clearSeq (vecRoute i (n / 2)) (cfgStore off i v s))
  | _, _, _ =>
    match slotAt off with
    | some (k, r) =>
      if r = Reg.dqDoorbell then some (dqDoorbellSet i k v s)
      else if r = Reg.dqCtl then some (dqCtlSet i k v s)
      else if r = Reg.dqCqHead then some (cqHeadSet i k v s)
      else if r = Reg.dqMap then some (dqMapSet i k v s)
      else none
    | none => none

/-- The channel whose parameter register lies at an offset: sampled at START, and not to be written while the channel is not IDLE (R420). -/
def chanParam (off : Nat) : Option Nat :=
  [Reg.chSrcLo, Reg.chSrcHi, Reg.chDstLo, Reg.chDstHi, Reg.chLenLo, Reg.chLenHi, Reg.chCfg, Reg.chTally].findSome? fun r => copyOf off r 64 8

/-- Blocks of the hub. -/
def blockWrite (off : Nat) (v : W32) (i : Nat) (s : State) : Option State :=
  if off = Reg.lockkey then some (lockkeySet v i s)
  else if off = Reg.hubIntMask then some (hubIntMaskSet v s)
  else if off = Reg.hubIntRouteLo ∨ off = Reg.hubIntRouteHi then some (clearSeq (rkey Reg.hubIntRouteLo 0) (cfgStore off 0 v s))
  else if off = Reg.fatalStatus then some (fatalW1c v s)
  else if off = Reg.secViolation then some (secW1c v s)
  else if off = Reg.lcStatus then some (lcW1c v s)
  else if off = Reg.parityFault then some (parityW1c v s)
  else if off = Reg.tallyAssign then some (tallyAssignSet v i s)
  else if off = Reg.rtDataHi then some (rtDataHiSet v s)
  else if off = Reg.poolData then
    some (storeParity off (rfld s Reg.poolIdx 0 0 10) 8 { s with fab := { s.fab with pools := mput 0 (rfld s Reg.poolIdx 0 0 10) (fld v 0 2) s.fab.pools } })
  else if off = Reg.portCfg then some (portCfgSet i v s)
  else if off = Reg.asidCfg then some (asidCfgWrite v s)
  else if off = Reg.asidPasid ∨ off = Reg.aptBaseLo ∨ off = Reg.aptBaseHi then some (cfgStore off (indexed s off i) v s)
  else if off = Reg.dmaAssign then some (dmaAssignSet v i s)
  else if off = Reg.fnMap then some (fnMapSet v s)
  else if off = Reg.reelCtl then some (reelResetRun v i s)
  else if off = Reg.flcCtl then some (flcCtlSet v i s)
  else if off = Reg.takeSw then some (takeSwSet v s)
  else if off = Reg.takeCursorLo then some (takeCursorSet v s)
  else if off = Reg.takeAckLo then some (takeAckSet v s)
  else if (match chanParam off with | some c => (chanOf s i c).isSome | none => false) then some s
  else match copyOf off Reg.csData 4 8, copyOf off Reg.chCtl 64 8 with
  | some j, _ => some (csDataSet j v s)
  | _, some c => some (chCtlSet c v i s)
  | _, _ =>
    if (copyOf off Reg.fmEp 4 4).isSome then some (clearSeq (rkey off 0) (cfgStore off 0 v s)) else windowWrite off v s

/-- A guarded register of an unlocked function (R459). -/
def guardedWrite (off : Nat) (v : W32) (s : State) : State :=
  if off = Reg.parityInject then parityInjectSet v s
  else if off = Reg.hubReset then hubResetSet v s
  else if off = Reg.bootCmd then
    match cmdOp v with
    | 1 => bootCmdOp 1 4 v (loadRun v Config.spiImage) s
    | 2 => bootCmdOp 2 7 v (reloadRun v Config.spiImage) s
    | 3 => bootCmdOp 3 9 v (loadFwRun (Config.fwOf (imageBytes s 0 []))) s
    | _ => if cmdBusy s off 0 then s else cfgStore off 0 v s
  else if off = Reg.lcCmd then
    match cmdOp v with
    | 1 => lcCmdOp 1 v transitionRun s
    | 2 => lcCmdOp 2 v debugOpenRun s
    | 3 => lcCmdOp 3 v newNonceRun s
    | _ => cfgStore off 0 v s
  else cfgStore off 0 v s

/-- A write of v at instance i of the register at an offset, by a function that was unlocked or not: a command, a behaviour of its own, or
its access type (Table 13-5). -/
def regEffect (off : Nat) (v : W32) (i : Nat) (was : Bool) (s : State) : State :=
  match regRow off with
  | none => s
  | some row =>
    if row.acc = .rk then (if was then guardedWrite off v s else bump Reg.lockRefused 0 s)
    else
      match commandWrite off v i s with
      | some t => t
      | none =>
        match (if 0x100000 ≤ off then partSetWrite off v i s else blockWrite off v i s) with
        | some t => t
        | none => if row.acc = .rw then cfgStore off i v s else s

/-- One register access (R446). -/
def regWriteOne (path : Path) (off : Nat) (v : W32) (s : State) : State := regWriteVia path off v (fun i was s => regEffect off v i was s) s

/-- A write access of any size (R446): an aligned word, an aligned pair with the lower word first; any other is ignored and counted, and uses up
the unlock (R459). -/
def regWriteAny (path : Path) (off : Nat) (data : List Byte) (s : State) : State :=
  if data.length = 4 ∧ off % 4 = 0 then regWriteOne path off (w32 (leNat data)) s
  else if data.length = 8 ∧ off % 8 = 0 then
    regWriteOne path (off + 4) (w32 (leNat (data.drop 4))) (regWriteOne path off (w32 (leNat (data.take 4))) s)
  else
    let s := useUnlock path s
    if regTarget s path off = .ur then s else bump Reg.regBadAccess 0 s

end Sys2Proof.Machine
end

