-- ==== Sys2Proof/Machine/Act.lean ====
section
/-! DEFINITION. How a command meets the hub: its effect, then everything that the effect has set free, among it fabric doorbells (R155) and what waits at a
PCIe port (R295). -/

namespace Sys2Proof.Machine

open Sys2Proof

/-- Fabric doorbells are taken once no store of their source waits here, each source's in order (R155). -/
def bellDrain (s : State) : State :=
  s.ord.bells.foldl (fun s p =>
    if storeWaits s p.src.toNat || (s.ord.bells.find? fun q => q.src == p.src) != some p then s
    else doorbellTake p { s with ord := { s.ord with bells := s.ord.bells.erase p } }) s

/-- The port of what waits at one. -/
def PortWait.port : PortWait → Nat
  | .write path _ _ => pathPort path
  | .answer hp _ => hp

/-- The first thing that waits at a port of which every earlier posted write has been performed. -/
def portReady (s : State) : Option PortWait :=
  s.host.portQ.find? fun w => !postedPending s w.port && (s.host.portQ.find? fun x => x.port == w.port) == some w

/-- Take what waits at the ports, at most n: register writes take effect, answers leave. -/
def portDrain : Nat → State → State
  | 0, s => s
  | n + 1, s =>
    match portReady s with
    | none => s
    | some w =>
      let s := { s with host := { s.host with portQ := s.host.portQ.erase w } }
      portDrain n (match w with
        | .write path off v => settle (regWriteNow path off (fun i was s => regEffect off v i was s) s)
        | .answer _ e => emit e s)

/-- Bring up to date what an effect has set free. -/
def setFree (s : State) : State :=
  let s := settle s
  let s := if s.eng.bcasts.isEmpty then s else settle (bcastDrain s)
  let s := if s.eng.idxs.any fun x => x.2.making then settle (indexesMake s) else s
  let s := if s.ord.bells.isEmpty then s else settle (bellDrain s)
  if s.host.portQ.isEmpty then s else portDrain s.host.portQ.length s

/-- Run an effect on a hub that answers, and bring up to date what it set free. -/
def act (f : State → State) (s : State) : State := if alive s then setFree (f s) else s

/-- A fabric port that a parity fault has stopped (R465). -/
def portStopped (s : State) (port : Nat) : Bool := unitStopped s 8 (some (setInst port))

/-- A packet that asks its home for an answer: not an answer itself, and no event. -/
def asksAnswer (p : Packet) : Bool := !([tRSP, tACK, tRETRY, tEVENT, tDATA, tCMP, tGRANTACK, tRECALLACK].contains p.type.toNat)

/-- What f does to a packet on a stopped port: the fabric unit counts as stopped for it, so that its checks meet PARITY in their order (R465, R566). -/
def onStopped (f : State → State) (s : State) : State :=
  if unitStopped s 8 none then f s
  else
    let s := f { s with mgmt := { s.mgmt with stopped := s.mgmt.stopped ++ [(8, none)] } }
    { s with mgmt := { s.mgmt with stopped := s.mgmt.stopped.filter fun e => e != (8, none) } }

/-- A packet arrives on a port: this hub's own is delivered, every other is routed (R355). -/
def arrive (port : Nat) (p : Packet) (f : State → State) (s : State) : State :=
  act (fun s => if p.dst.toNat = selfEp s then (let s := if asksAnswer p then checkUse s else s; if portStopped s port && asksAnswer p then onStopped f s else f s) else forward p s) s

end Sys2Proof.Machine
end

