-- ==== Sys2Proof/Machine/EngineCmds.lean ====
section
/-! DEFINITION. The meanings of the commands of the descriptor queues, engines, tables, indexes, codec and tallies (chapters 4 to 8), one for each row: what the command does, then what that sets free. -/

namespace Sys2Proof.Machine

open Sys2Proof

/-! Queue -/

def execDqDoorbell (path : Path) (slot : Fin 64) (v : W32) (s : State) : Out :=
  done (act (regWriteVia path (slotReg Reg.dqDoorbell slot) v fun i _ s => dqDoorbellSet i slot v s) s)

def execDoorbell (port : Fin 64) (p : Packet) (s : State) : Out := done (arrive port p (homeDoorbell p) s)

def execDescriptorFetch (q : QueueNum) (s : State) : Out := done (act (fetchGo q.toNat) s)

def execDescriptorStart (q : QueueNum) (seq : W32) (s : State) : Out := done (act (startGo q.toNat seq.toNat) s)

def execCompletionRecordWrite (q : QueueNum) (s : State) : Out := done (act (recordWrite q.toNat) s)

def execDescriptorComplete (q : QueueNum) (seq : W32) (s : State) : Out := done (act (completeGo q.toNat seq.toNat) s)

def execDoneTallyAdd (q : QueueNum) (seq : W32) (s : State) : Out := done (act (doneTallyGo q.toNat seq.toNat) s)

def execDqCtlEnable (path : Path) (slot : Fin 64) (v : W32) (s : State) : Out :=
  done (act (regWriteVia path (slotReg Reg.dqCtl slot) v fun i _ s => dqCtlSet i slot v s) s)

def execDqCtlClear (path : Path) (slot : Fin 64) (v : W32) (s : State) : Out :=
  done (act (regWriteVia path (slotReg Reg.dqCtl slot) v fun i _ s => dqCtlSet i slot v s) s)

def execDqCtlAbort (path : Path) (slot : Fin 64) (v : W32) (s : State) : Out :=
  done (act (regWriteVia path (slotReg Reg.dqCtl slot) v fun i _ s => dqCtlSet i slot v s) s)

def execDqCqHeadWrite (path : Path) (slot : Fin 64) (v : W32) (s : State) : Out :=
  done (act (regWriteVia path (slotReg Reg.dqCqHead slot) v fun i _ s => cqHeadSet i slot v s) s)

def execDqMapWrite (path : Path) (slot : Fin 64) (v : W32) (s : State) : Out :=
  done (act (regWriteVia path (slotReg Reg.dqMap slot) v fun i _ s => dqMapSet i slot v s) s)

/-! OrderCmd -/

/-- A write to PT_TALLY_VAL sets the tally (R306). -/
def execPtTallyValWrite (path : Path) (v : W32) (s : State) : Out :=
  done (act (regWriteVia path Reg.ptTallyVal v fun i _ s => tallyValSet v i s) s)

def execPtWatchArm (path : Path) (v : W32) (s : State) : Out :=
  done (act (regWriteVia path Reg.ptWatchCtl v fun i _ s => watchCtlSet v i s) s)

def execTallyAssignWrite (path : Path) (v : W32) (s : State) : Out :=
  done (act (regWriteVia path Reg.tallyAssign v fun t _ s => tallyAssignSet v t s) s)

/-! Ctl -/

def execCopy (q : QueueNum) (seq : W32) (s : State) : Out :=
  done (act (opRun q seq 0x01 fun q seq d s => copyGo q seq ((unitPieces (d.w 1) (copyLen d)).drop d.step) s) s)

def execFill (q : QueueNum) (seq : W32) (s : State) : Out := done (act (opRun q seq 0x02 fillGo) s)

def execFence (q : QueueNum) (seq : W32) (s : State) : Out := done (act (opRun q seq 0x03 fun q seq _ s => opEnd q seq 0 s) s)

def execTallyWait (q : QueueNum) (seq : W32) (s : State) : Out := done (act (opRun q seq 0x05 tallyWaitRun) s)

def execTallyTargetReached (q : QueueNum) (seq : W32) (s : State) : Out := done (act (tallyReached q.toNat seq.toNat) s)

def execTallyWaitTimeout (q : QueueNum) (seq : W32) (s : State) : Out := done (act (tallyTimeout q.toNat seq.toNat) s)

def execTallyAdd (q : QueueNum) (seq : W32) (s : State) : Out := done (act (opRun q seq 0x06 tallyAddRun) s)

/-! Advice -/

def execPrefetch (q : QueueNum) (seq : W32) (s : State) : Out := done (act (opRun q seq 0x50 advRun) s)

def execAdvise (q : QueueNum) (seq : W32) (s : State) : Out := done (act (opRun q seq 0x51 advRun) s)

def execInvalAsid (q : QueueNum) (seq : W32) (s : State) : Out := done (act (opRun q seq 0x52 invalRun) s)

/-! Math -/

def execMatvec (q : QueueNum) (seq : W32) (s : State) : Out := done (act (opRun q seq 0x10 mmRun) s)

def execMatmul (q : QueueNum) (seq : W32) (s : State) : Out := done (act (opRun q seq 0x11 mmRun) s)

def execAttend (q : QueueNum) (seq : W32) (s : State) : Out := done (act (opRun q seq 0x12 atRun) s)

/-! Tensor -/

def execReduce (q : QueueNum) (seq : W32) (s : State) : Out := done (act (opRun q seq 0x13 rdRun) s)

def execQuant (q : QueueNum) (seq : W32) (s : State) : Out := done (act (opRun q seq 0x14 quRun) s)

def execEltwise (q : QueueNum) (seq : W32) (s : State) : Out := done (act (opRun q seq 0x16 elRun) s)

def execOptim (q : QueueNum) (seq : W32) (s : State) : Out := done (act (opRun q seq 0x17 ocRun) s)

/-! Cut -/

def execTblCreate (path : Path) (v : W32) (s : State) : Out := done (act (issue path Reg.tblCmd 1 3 v tblCreateRun) s)

def execTblDestroy (path : Path) (v : W32) (s : State) : Out := done (act (issue path Reg.tblCmd 2 3 v tblDestroyRun) s)

def execTblClearStale (path : Path) (v : W32) (s : State) : Out := done (act (issue path Reg.tblCmd 3 3 v tblClearRun) s)

def execSortuniq (q : QueueNum) (seq : W32) (s : State) : Out :=
  done (act (opRun q seq 0x22 fun q seq d s => withBytes q seq [(d.w 2, suN d * ixSize d)] (suGo q seq) s) s)

/-! Gather -/

def execGather (q : QueueNum) (seq : W32) (s : State) : Out := done (act (opRun q seq 0x20 gaRun) s)

/-! Scatter -/

def execScatterDirect (q : QueueNum) (seq : W32) (s : State) : Out := done (act (opRun q seq 0x21 directRun) s)

def execScatterRoute (q : QueueNum) (seq : W32) (s : State) : Out := done (act (opRun q seq 0x21 routeRun) s)

def execScatterApply (q : QueueNum) (seq : W32) (s : State) : Out := done (act (opRun q seq 0x21 applyRun) s)

/-! Bcast -/

def execKernelEnd (q : QueueNum) (seq : W32) (s : State) : Out := done (act (opRun q seq 0x04 kernelEndRun) s)

def execBroadcastCommit (src : Endpoint) (table : BitVec 14) (seqNo : W32) (rows : List (BitVec 40 × List Byte × List Nat)) (s : State) : Out :=
  done (act (bcastCommit src.toNat table.toNat seqNo (rows.map fun x => (x.1.toNat, x.2))) s)

/-! Index -/

def execIdxCreate (path : Path) (v : W32) (s : State) : Out := done (act (issue path Reg.idxCmd 1 4 v idxCreateRun) s)

def execIdxDestroy (path : Path) (v : W32) (s : State) : Out := done (act (issue path Reg.idxCmd 2 4 v idxDestroyRun) s)

def execIdxSwap (path : Path) (v : W32) (s : State) : Out := done (act (issue path Reg.idxCmd 3 4 v idxSwapRun) s)

def execSwapDrained (idx : BitVec 6) (s : State) : Out := done (act (swapDrained idx.toNat) s)

def execInsert (q : QueueNum) (seq : W32) (s : State) : Out := done (act (opRun q seq 0x31 insertRun) s)

def execInsertPublish (q : QueueNum) (seq : W32) (s : State) : Out := done (act (insertPublish q.toNat seq.toNat) s)

def execDelete (q : QueueNum) (seq : W32) (s : State) : Out :=
  done (act (opRun q seq 0x32 fun q seq d s => withBytes q seq [(d.w 2, 8 * deN d)] (deleteGo q seq) s) s)

/-! Search -/

def execSearch (q : QueueNum) (seq : W32) (s : State) : Out := done (act (opRun q seq 0x30 searchRun) s)

def execSearchQueryStart (q : QueueNum) (seq : W32) (n : BitVec 10) (s : State) : Out := done (act (queryGo q.toNat seq.toNat n.toNat) s)

/-! CodecCmd -/

def execLaneEncode (lane : Fin 32) (s : State) (m : Media := .good) : Out :=
  done (act (fun s => if unitStopped s 5 none || unitStopped s 5 (some (setInst lane)) then s else laneEncode lane m s) s)

def execSqueeze (q : QueueNum) (seq : W32) (s : State) : Out := done (act (opRun q seq 0x40 sqRun) s)

def execUnsqueeze (q : QueueNum) (seq : W32) (s : State) : Out := done (act (opRun q seq 0x41 sqRun) s)

def execCtblLoad (path : Path) (v : W32) (s : State) : Out := done (act (issue path Reg.ctblCmd 1 5 v fun _ => ctblLoadRun) s)

def execCtblRetire (path : Path) (v : W32) (s : State) : Out := done (act (issue path Reg.ctblCmd 2 5 v fun _ => ctblRetireRun) s)

/-! SnapOps -/

def execSnapshot (q : QueueNum) (seq : W32) (s : State) : Out := done (act (opRun q seq 0x60 fun q seq d s => snapGo q seq d.bytes s) s)

def execStepmark (q : QueueNum) (seq : W32) (s : State) : Out := done (act (opRun q seq 0x61 stepRun) s)

def execSnapshotPageStreamed (s : State) : Out := done (act snapPage s)

def execSnapshotStreamEnd (s : State) : Out := done (act snapLast s)

end Sys2Proof.Machine
end

