-- ==== Sys2Proof/Machine/FabricCmds.lean ====
section
/-! DEFINITION. The meanings of the commands of the packets, ports, coherence messages and commits (chapters 9 and 10), one for each row: what the command does, then what that sets free. -/

namespace Sys2Proof.Machine

open Sys2Proof

/-! Fabric -/

def execRd (port : Fin 64) (p : Packet) (m : Media) (s : State) (dir : Media := .good) : Out := done (arrive port p (fun s => homeRd port p m (accessChecked p dir s)) s)

def execWr (port : Fin 64) (p : Packet) (s : State) (dir : Media := .good) : Out := done (arrive port p (fun s => homeWr port p (accessChecked p dir s)) s)

def execAtomic (port : Fin 64) (p : Packet) (s : State) (dir : Media := .good) : Out := done (arrive port p (fun s => homeAtomic port p (accessChecked p dir s)) s)

def execCue (port : Fin 64) (p : Packet) (s : State) : Out := done (arrive port p (homeCue port p) s)

def execTallyWr (port : Fin 64) (p : Packet) (s : State) : Out := done (arrive port p (homeTally p) s)

def execOwn (port : Fin 64) (p : Packet) (s : State) : Out := done (arrive port p (homeOwn port p) s)

def execEvent (port : Fin 64) (p : Packet) (s : State) : Out := done (arrive port p (homeEvent p) s)

def execRsp (port : Fin 64) (p : Packet) (s : State) : Out := done (arrive port p (takeRsp p) s)

def execAck (port : Fin 64) (p : Packet) (s : State) : Out := done (arrive port p (takeAck p) s)

def execRetry (port : Fin 64) (p : Packet) (s : State) : Out := done (arrive port p (takeRetry p) s)

def execRetryResend (tag : BitVec 18) (s : State) : Out := done (act (resend tag.toNat) s)

def execRequestTimeout (tag : BitVec 18) (s : State) : Out := done (act (reqTimeout tag.toNat) s)

def execClaim (port : Fin 64) (p : Packet) (s : State) : Out := done (arrive port p (homeClaim p) s)

def execOffer (port : Fin 64) (p : Packet) (s : State) : Out := done (arrive port p (homeOffer port p) s)

def execAccept (port : Fin 64) (p : Packet) (s : State) : Out := done (arrive port p (homeAccept p) s)

def execCancel (port : Fin 64) (p : Packet) (s : State) : Out := done (arrive port p (homeCancel p) s)

def execLedgerRelease (port : Fin 64) (p : Packet) (s : State) : Out := done (arrive port p (homeLedgerRelease p) s)

def execLedgerQuery (port : Fin 64) (p : Packet) (s : State) : Out := done (arrive port p (homeLedgerQuery p) s)

def execLedgerRevert (id : W64) (s : State) : Out := done (act (ledgerRevert id.toNat) s)

def execLend (port : Fin 64) (p : Packet) (s : State) : Out := done (arrive port p (takeLend p) s)

def execNotice (port : Fin 64) (p : Packet) (s : State) : Out := done (arrive port p (takeNotice p) s)

def execRelease (port : Fin 64) (p : Packet) (s : State) : Out := done (arrive port p (takeRelease p) s)

def execLoanReleaseSend (n : Fin 1024) (s : State) : Out := done (act (sendRelease n) s)

def execLendNoticeExpire (borrower : Endpoint) (s : State) : Out := done (act (lentExpire borrower.toNat) s)

def execLost (port : Fin 64) (p : Packet) (s : State) : Out := done (arrive port p (takeLost p) s)

def execWalkReq (port : Fin 64) (p : Packet) (s : State) : Out := done (arrive port p (takeWalkReq port p) s)

def execPacketForward (_port : Fin 64) (p : Packet) (s : State) : Out :=
  done (act (fun s => if p.dst.toNat = selfEp s then s else forward p s) s)

def execPacketDwellExpire (n : Nat) (s : State) : Out := done (act (dwellExpire n) s)

def execPartnerAge (ep : Endpoint) (s : State) : Out := done (act (partnerAge ep.toNat) s)

def execCueExpire (src : Endpoint) (s : State) : Out := done (act (cueExpire src.toNat) s)

def execPortTrainDone (fit : PortFit) (s : State) : Out := done (act (portTrained fit) s)

def execPortDown (port : Fin 64) (s : State) : Out := done (act (portFall port) s)

def execLinkRetrain (port : Fin 64) (s : State) : Out :=
  done (act (fun s => if 16 ≤ (portOf s port).failedReplays then portRetrainNow port s else s) s)

def execFlitNak (port : Fin 64) (seq : BitVec 12) (s : State) : Out :=
  done (act (fun s => if portUp s port then portNak port seq.toNat s else s) s)

def execPortCfgEnable (path : Path) (v : W32) (s : State) : Out :=
  done (act (regWriteVia path Reg.portCfg v (fun i _ => portCfgSet i v)) s)

def execPortRetrain (path : Path) (v : W32) (s : State) : Out :=
  done (act (regWriteVia path Reg.portCfg v (fun i _ s => if bit v 1 then portCfgSet i v s else s)) s)

def execRtDataHiWrite (path : Path) (v : W32) (s : State) : Out :=
  done (act (regWriteVia path Reg.rtDataHi v (fun _ _ => rtDataHiSet v)) s)

def execSdsRefclkLoss (s : State) : Out := done (act sdsLost s)

/-- Its return lets the ports train again. -/
def execSdsRefclkReturn (s : State) : Out := done (act (rsetFld Reg.clkStatus 0 2 1 1) s)

/-! Commit -/

def execCsCommit (path : Path) (v : W32) (s : State) : Out :=
  done (act (issue path Reg.csCmd 1 8 v (fun _ s => commitRun s)) s)

def execCsDiscard (path : Path) (v : W32) (s : State) : Out :=
  done (act (issue path Reg.csCmd 2 8 v (fun _ s => discardRun s)) s)

def execCommitRequestsDrained (s : State) : Out := done (act commitDrained s)

def execCommitSwitch (s : State) : Out := done (act commitSwitch s)

def execPrevEpochRetire (s : State) : Out := done (act prevRetire s)

def execCohAgentSet (path : Path) (v : W32) (s : State) : Out :=
  done (act (issue path Reg.cohAgentCmd 1 7 v (fun _ s => slotSetRun s)) s)

def execCohAgentClear (path : Path) (v : W32) (s : State) : Out :=
  done (act (issue path Reg.cohAgentCmd 2 7 v (fun _ s => slotClearRun s)) s)

def execCohAgentClearLost (path : Path) (v : W32) (s : State) : Out :=
  done (act (issue path Reg.cohAgentCmd 3 7 v (fun _ s => slotClearLostRun s)) s)

def execRegionCreate (path : Path) (v : W32) (s : State) : Out :=
  done (act (issue path Reg.regionCmd 1 7 v regionCreateRun) s)

def execRegionDestroy (path : Path) (v : W32) (s : State) : Out :=
  done (act (issue path Reg.regionCmd 2 7 v regionDestroyRun) s)

def execRegionOwn (path : Path) (v : W32) (s : State) : Out :=
  done (act (issue path Reg.regionCmd 3 7 v regionOwnRun) s)

def execRegionQuery (path : Path) (v : W32) (s : State) : Out :=
  done (act (issue path Reg.regionCmd 4 7 v regionQueryRun) s)

def execRdShared (port : Fin 64) (p : Packet) (dir : Media) (s : State) : Out := done (arrive port p (fun s => homeRdShared port p (lineChecked p dir s)) s)

def execRdOwn (port : Fin 64) (p : Packet) (s : State) (dir : Media := .good) : Out := done (arrive port p (fun s => homeRdOwn port p (lineChecked p dir s)) s)

def execUpgrade (port : Fin 64) (p : Packet) (s : State) (dir : Media := .good) : Out := done (arrive port p (fun s => homeRdOwn port p (lineChecked p dir s)) s)

def execWrBack (port : Fin 64) (p : Packet) (s : State) (dir : Media := .good) : Out := done (arrive port p (fun s => homeWrBack port p (lineChecked p dir s)) s)

def execWrBackS (port : Fin 64) (p : Packet) (s : State) (dir : Media := .good) : Out := done (arrive port p (fun s => homeWrBack port p (lineChecked p dir s)) s)

def execEvict (port : Fin 64) (p : Packet) (s : State) (dir : Media := .good) : Out := done (arrive port p (fun s => homeEvict port p (lineChecked p dir s)) s)

def execGrantAck (port : Fin 64) (p : Packet) (s : State) : Out := done (arrive port p (homeGrantAck p) s)

def execRecallAck (port : Fin 64) (p : Packet) (s : State) : Out := done (arrive port p (homeRecallAck p) s)

def execRecallInv (port : Fin 64) (p : Packet) (s : State) : Out := done (arrive port p (hubSnooped p false) s)

def execRecallShare (port : Fin 64) (p : Packet) (s : State) : Out := done (arrive port p (hubSnooped p true) s)

def execData (port : Fin 64) (p : Packet) (s : State) : Out := done (arrive port p (takeData p) s)

def execCmp (port : Fin 64) (p : Packet) (s : State) : Out := done (arrive port p (takeCmp p) s)

def execRecallTimeout (line : BitVec 44) (slot : Byte) (s : State) : Out := done (act (recallExpire line.toNat slot.toNat) s)

def execWalkPassStart (s : State) : Out := done (act (fun s => if fatal s then s else walkStart s) s)

def execWalkPassEnd (s : State) (dir : Media := .good) : Out := done (act (fun s => if fatal s then s else walkEnd (walkChecked dir s)) s)

end Sys2Proof.Machine
end

