-- ==== Sys2Proof/Machine/HostCmds.lean ====
section
/-! DEFINITION. The meanings of the commands of the hosts, the DMA engines and the partitions (chapters 11 and 12), one for each row: what the command does, then what that sets free. -/

namespace Sys2Proof.Machine

open Sys2Proof

/-! HostCmd -/

def execBar2Access (path : Path) (off : W64) (op : HostOp) (s : State) : Out := done (act (barAccess path off.toNat op) s)

def execProxyBarAccess (path : Path) (off : W64) (op : HostOp) (s : State) : Out := done (act (barAccess path off.toNat op) s)

def execMemRd (hp : Fin 2) (hpa : W64) (mv : MetaValue) (tag : BitVec 16) (s : State) (dir : Media := .good) : Out :=
  done (act (fun s => cxlRequest hp 0 hpa.toNat mv [] 0 false tag.toNat (hostChecked hp hpa.toNat dir s)) s)

def execMemWr (hp : Fin 2) (hpa : W64) (mv : MetaValue) (data : List Byte) (be : W64) (tag : BitVec 16) (s : State) (bad : Bool := false) (dir : Media := .good) : Out :=
  done (act (fun s => cxlRequest hp 1 hpa.toNat mv data be bad tag.toNat (hostChecked hp hpa.toNat dir s)) s)

def execMemInv (hp : Fin 2) (hpa : W64) (mv : MetaValue) (tag : BitVec 16) (s : State) (dir : Media := .good) : Out :=
  done (act (fun s => cxlRequest hp 2 hpa.toNat mv [] 0 false tag.toNat (hostChecked hp hpa.toNat dir s)) s)

def execMemClnEvct (hp : Fin 2) (hpa : W64) (tag : BitVec 16) (s : State) (dir : Media := .good) : Out :=
  done (act (fun s => cxlEvict hp hpa.toNat tag.toNat (hostChecked hp hpa.toNat dir s)) s)

def execBiRsp (hp : Fin 2) (hpa : W64) (r : BiRsp) (s : State) : Out := done (act (biResponse hp hpa.toNat r) s)

def execBiConflict (hp : Fin 2) (hpa : W64) (s : State) : Out := done (act (conflictAck hp hpa.toNat) s)

def execHdmCommit (hp : Fin 2) (d : Fin 8) (base size : W64) (ways : Byte) (s : State) : Out :=
  done (act (hdmCommit hp d base.toNat size.toNat ways.toNat) s)

def execProxyFlr (path : Path) (s : State) : Out :=
  done (act (fun s => if isProxy s path then proxyReset (fnIdx path) s else s) s)

def execFlr (path : Path) (s : State) : Out := done (act (flrRun path) s)

def execPciePortReset (hp : Fin 2) (cause : PortResetCause) (s : State) : Out :=
  match cause with
  | .perst => done (act (portReset hp) s)
  | .hotReset => done (act (portReset hp) s)
  | .linkDown => done (act (portReset hp) s)

def execPcieLinkUp (fit : HostFit) (s : State) : Out := done (act (fun s => if mayLink s fit.port then linkUp fit s else s) s)

def execConfigRequest (path : Path) (op : ConfigOp) (s : State) : Out := done (act (configRun path op) s)

def execCxlMailboxCommand (hp : Fin 2) (op : MailboxOp) (s : State) : Out := done (act (mailboxRun hp op) s)

def execMap (path : Path) (v : W32) (s : State) : Out := done (act (issue path Reg.mapCmd 1 10 v mapRun) s)

def execUnmap (path : Path) (v : W32) (s : State) : Out := done (act (issue path Reg.mapCmd 2 10 v unmapRun) s)

def execMapQuery (path : Path) (v : W32) (s : State) : Out := done (act (issue path Reg.mapCmd 3 10 v mapQueryRun) s)

def execMapInval (path : Path) (v : W32) (s : State) : Out := done (act (issue path Reg.mapCmd 4 10 v mapInvalRun) s)

def execAsidCfgWrite (path : Path) (v : W32) (s : State) : Out :=
  done (act (regWriteVia path Reg.asidCfg v fun _ _ s => asidCfgWrite v s) s)

def execAtsInvalidate (hp : Fin 2) (fn : Byte) (pasid : BitVec 20) (addr : W64) (pages : Nat) (tag : BitVec 5) (s : State) : Out :=
  done (act (atsInvalidate hp fn.toNat pasid.toNat addr.toNat pages tag.toNat) s)

def execAtsInvalComplete (hp : Fin 2) (tag : BitVec 5) (s : State) : Out := done (act (atsInvalDone hp tag.toNat) s)

/-! Dma -/

def execDmaChannelRun (eng : Fin 32) (s : State) : Out := done (act (dmaRun eng) s)

def execDmaStart (path : Path) (ch : Fin 8) (v : W32) (s : State) : Out :=
  done (act (regWriteVia path (chReg Reg.chCtl ch) v fun e _ s => if bit v 0 then chCtlSet ch v e s else s) s)

def execDmaAbort (path : Path) (ch : Fin 8) (v : W32) (s : State) : Out :=
  done (act (regWriteVia path (chReg Reg.chCtl ch) v fun e _ s => if bit v 2 then chCtlSet ch v e s else s) s)

def execDmaResume (path : Path) (ch : Fin 8) (v : W32) (s : State) : Out :=
  done (act (regWriteVia path (chReg Reg.chCtl ch) v fun e _ s => if bit v 3 then chCtlSet ch v e s else s) s)

def execPrgResponse (eng : Fin 32) (ch : Fin 8) (code : PrgCode) (s : State) : Out := done (act (prgTake eng ch code) s)

def execPriTimeout (eng : Fin 32) (ch : Fin 8) (s : State) : Out := done (act (priExpire eng ch) s)

def execDmaComplete (eng : Fin 32) (ch : Fin 8) (s : State) : Out := done (act (dmaFinish eng ch) s)

def execDmaAssignWrite (path : Path) (v : W32) (s : State) : Out :=
  done (act (regWriteVia path Reg.dmaAssign v fun e _ s => dmaAssignSet v e s) s)

/-! Part -/

def execPartResetWorkEnded (part : PartNum) (s : State) : Out := done (act (partWorkEnded part.toNat) s)

def execPartResetTagsDrained (part : PartNum) (s : State) : Out := done (act (partTagsDrained part.toNat) s)

def execPartResetWalkEnded (part : PartNum) (s : State) : Out := done (act (partWalkEnded part.toNat) s)

def execPartCtlReset (path : Path) (v : W32) (s : State) : Out :=
  done (act (regWriteVia path Reg.partCtl v fun i _ s => partCtlSet v i s) s)

def execPartCreate (path : Path) (v : W32) (s : State) : Out :=
  done (act (issue path Reg.partCmd 1 0 v fun _ s => partCreateRun s) s)

def execPartDestroy (path : Path) (v : W32) (s : State) : Out :=
  done (act (issue path Reg.partCmd 2 0 v fun _ s => partDestroyRun s) s)

def execFnMapWrite (path : Path) (v : W32) (s : State) : Out :=
  done (act (regWriteVia path Reg.fnMap v fun _ _ s => fnMapSet v s) s)

def execVecMaskWrite (path : Path) (q : Fin 4) (v : W32) (s : State) : Out :=
  done (act (regWriteVia path (Reg.vecMask + 4 * q) v fun i _ s => vecMaskSet q v i s) s)

def execReelReset (path : Path) (v : W32) (s : State) : Out :=
  done (act (regWriteVia path Reg.reelCtl v fun r _ s => reelResetRun v r s) s)

def execReelResetEnd (reel : Fin 64) (s : State) : Out := done (act (reelResetDone reel) s)

end Sys2Proof.Machine
end

