-- ==== Sys2Proof/Machine/Place.lean ====
section
/-! DEFINITION. What the Blocking engine plans at a slow-tick edge (R74): forced moves, demotions to a lowered quota, placement moves, row moves and
replica requests. -/

namespace Sys2Proof.Machine

open Sys2Proof

/-- PLACE is stopped for a partition (R564). -/
def placeStopped (s : State) (part : Nat) : Bool := unitStopped s 1 (some part)

/-- Pages in order of heat, hottest or coldest first; among equals the order is free, drawn as v. -/
def byHeat (hot : Bool) (v : W64) (ps : List (Nat × Page)) : List Nat :=
  (sortBy (fun a b =>
    if a.2.heat = b.2.heat then decide ((Config.freeWord (v.toNat + a.1)).toNat ≤ (Config.freeWord (v.toNat + b.1)).toNat)
    else decide (b.2.heat < a.2.heat) == hot) ps).map (·.1)

/-! Forced moves (R74 step 1) -/

/-- Whether a page is in a forced move. -/
def inForced (s : State) (pg : Nat) : Bool := (mget pg s.store.moves).any fun m => m.kind.forced

/-- Every page still in a withdrawn extent goes to the fastest other tier its mask permits that has room (R50 step 4); quota is ignored (R95). -/
def evacuate (e : ExtId) (s : State) : State :=
  let (v, s) := draw s
  (byHeat true v (s.store.pages.filter fun p => p.2.loc == .ext e && !p.2.lost)).foldl (fun s pg =>
    match allocAtPage s pg with
    | some al =>
      if inForced s pg then s
      else match firstRoom s al false (tiersBySpeed.filter fun t => t ≠ extTier e) with | some t => startMove pg .evac t s | none => s
    | none => s) s

def evacuateAll (s : State) : State :=
  (s.store.extents.filter fun x => x.2.withdrawn && !x.2.released).foldl (fun s x => evacuate x.1 s) s

/-- The write-hot unpinned pages of a die past WEAR_PCT leave it (R96). -/
def wearMoves (ch d : Nat) (s : State) : State :=
  (s.store.pages.filter fun p => p.2.loc == .die ch d && !p.2.lost && decide (rfld s Reg.beWear 0 8 24 ≤ p.2.wheat)).foldl (fun s p =>
    match allocAtPage s p.1 with
    | some al =>
      if fPin al.flags || inForced s p.1 then s
      else match wornDest al p.2.loc s with | (some (t, l), s) => startMoveTo p.1 .wear t l s | (none, s) => s
    | none => s) s

def wearAll (s : State) : State :=
  (s.rel.dies.filter fun d => decide (rfld s Reg.beWear 0 0 7 < d.2.wear)).foldl (fun s d => wearMoves (d.1 / 32) (d.1 % 32) s) s

/-- Pages in a tier that their mask no longer permits (R38), pinned ones too. -/
def maskMoves (s : State) : State :=
  s.store.pages.foldl (fun s p =>
    match allocAtPage s p.1 with
    | some al =>
      if p.2.lost || homeMask s al p.2.tier || inForced s p.1 || al.draining then s
      else match forcedDest s al tiersBySpeed with | some t => startMove p.1 .mask t s | none => s
    | none => s) s

/-- Rows in a row area of a tier that their mask no longer permits go with its pages to another row area with room (R90, R38, log entry 146). -/
def maskRows (s : State) : State :=
  s.rows.slots.foldl (fun s e =>
    match mget (e.1 / 2 ^ 40) s.eng.tables with
    | none => s
    | some t =>
      match liveAlloc s (qf t.image 0 0 16) with
      | none => s
      | some al =>
        if homeMask s al e.2 || mhas e.1 s.rows.moves then s
        else
          let put := fun x : Nat => { s with rows := { s.rows with slots := mset e.1 x s.rows.slots } }
          match [0, 1].find? fun x => homeMask s al x && decide (tierUsed (put x) x ≤ tierCap s x) with
          | some x => put x
          | none => s) s

def forcedMoves (s : State) : State := maskRows (maskMoves (leaveRoDies (wearAll (evacuateAll s))))

/-! Demotions to a lowered quota (R74 step 2, R46) -/

/-- Pages by which a partition exceeds its quota of a tier once the moves under way have left it. -/
def overQuota (s : State) (part t : Nat) : Nat :=
  occ s part t - (s.store.moves.filter fun m => m.2.srcTier == t && m.2.dstTier != t && partAt s (m.1 * pageSize) == part).length - quota s part t

/-- The coldest unpinned pages of the partition go while it is over its quota (R46), for whatever reason it is: a quota that was lowered, or pages that an
evacuation or a mask change brought (DESIGN CHOICE, log entry 156). -/
def quotaDemote (part t : Nat) (s : State) : State :=
  if overQuota s part t = 0 then s
  else
    let (v, s) := draw s
    let mine := s.store.pages.filter fun p => p.2.tier == t && !p.2.lost && partAt s (p.1 * pageSize) == part && !fPin (flagsAt s (p.1 * pageSize))
    (byHeat false v mine).foldl (fun s pg =>
      if overQuota s part t = 0 || mhas pg s.store.moves then s
      else
        match allocAtPage s pg with
        | some al => (match demoteDest s al t with | some d => startMove pg .quota d s | none => s)
        | none => s) s

def quotaMoves (s : State) : State :=
  (List.range (parts s)).foldl (fun s p => if placeStopped s p then s else [0, 1, 2, 3, 4, 5].foldl (fun s t => quotaDemote p t s) s) s

/-! Placement moves (R74 step 3, R76 to R79) -/

/-- A page the engine may choose for a placement move (R76, R82, R564). -/
def placeable (s : State) (pg : Nat) (p : Page) (al : Alloc) : Bool :=
  !al.draining && !p.lost && !fPin al.flags && !fStream al.flags && !fProject al.flags && !mhas pg s.store.moves && decide (p.retryAt ≤ s.boot.tick)
    && !placeStopped s al.part && !(s.rows.moves.any fun m => m.2.toSlot && (rowHome s m.1).contains pg)

/-- A page that may be promoted to tier t. -/
def promotable (s : State) (t pg : Nat) : Bool :=
  match mget pg s.store.pages, allocAtPage s pg with
  | some p, some al => decide (tierRank t < tierRank p.tier) && homeMask s al t && placeable s pg p al
  | _, _ => false

/-- The fastest tier that an allocation's mask permits. -/
def fastest (s : State) (al : Alloc) : Option Nat := tiersBySpeed.find? (homeMask s al)

/-- Candidates for tier t: pages of PREFETCH ranges whose fastest tier it is (R102), then pages of heat PROMOTE_MIN and more, hottest first. -/
def candidates (t : Nat) (v : W64) (s : State) : List Nat :=
  let pf := ((s.store.prefetch.flatMap fun r => r.pages).filter fun pg =>
    promotable s t pg && (match allocAtPage s pg with | some al => fastest s al == some t | none => false)).dedup
  let hot := byHeat true v (s.store.pages.filter fun p => decide (rfld s Reg.beHeat 0 4 24 ≤ p.2.heat) && promotable s t p.1)
  pf ++ hot.filter fun pg => !pf.contains pg

/-- The coldest page of tier t that may move, of one partition or of any. -/
def coldest (t : Nat) (part : Option Nat) (v : W64) (s : State) : Option Nat :=
  (byHeat false v (s.store.pages.filter fun p =>
    p.2.tier == t && (match allocAtPage s p.1 with | some al => placeable s p.1 p.2 al && (part == none || part == some al.part) | none => false))).head?

/-- Where a page would be demoted to (R79). -/
def demotable (s : State) (t pg : Nat) : Option Nat := match allocAtPage s pg with | some al => demoteDest s al t | none => none

def pageHeat (s : State) (pg : Nat) : Nat := match mget pg s.store.pages with | some p => p.heat | none => 0

/-- One candidate for tier t, with the budget left: into free room, or in the place of a victim of its own partition at most half as hot. The two moves of
a swap start together and each goes on by itself: the promotion may switch before its victim's demotion, or without it (DESIGN CHOICE, log entry 119). -/
def placeOne (t : Nat) (v : W64) (acc : Nat × State) (pg : Nat) : Nat × State :=
  let (budget, s) := acc
  let part := partAt s (pg * pageSize)
  if budget = 0 ∨ moveSlots ≤ s.store.moves.length ∨ !promotable s t pg then acc
  else if 0 < homeRoom s t ∧ 0 < quotaRoom s part t then (budget - 1, startMove pg .placement t s)
  else
    let blocked := (budget, if quotaRoom s part t = 0 then bump Reg.quotaBlocked part s else s)
    match coldest t (some part) v s with
    | some x =>
      match demotable s t x, mget x s.store.pages with
      | some d, some y =>
        if 2 * y.heat ≤ pageHeat s pg ∧ 2 ≤ budget ∧ s.store.moves.length + 2 ≤ moveSlots then
          (budget - 2, startMoveTo pg .placement t y.loc (startMove x .placement d s))
        else blocked
      | _, _ => blocked
    | none => blocked

def placeTier (acc : Nat × State) (t : Nat) : Nat × State :=
  if acc.1 = 0 then acc
  else
    let (v, s) := draw acc.2
    (candidates t v s).foldl (placeOne t v) (acc.1, s)

/-- Pages on their way out of a tier. -/
def leaving (s : State) (t : Nat) : Nat := (s.store.moves.filter fun m => m.2.srcTier == t && m.2.dstTier != t).length

/-- The coldest pages of any partition leave a tier until a 32nd of it is free; a page that cannot be demoted ends it. -/
def drainTier (t : Nat) : Nat → Nat × State → Nat × State
  | 0, acc => acc
  | f + 1, (budget, s) =>
    if budget = 0 ∨ tierCap s t ≤ (tierFree s t + leaving s t) * 32 ∨ moveSlots ≤ s.store.moves.length then (budget, s)
    else
      let (v, s) := draw s
      match coldest t none v s with
      | some x =>
        match demotable s t x with
        | some d => drainTier t f (budget - 1, startMove x .placement d s)
        | none => (budget, s)
      | none => (budget, s)

def watermark (acc : Nat × State) (t : Nat) : Nat × State :=
  if tierFree acc.2 t * 64 < tierCap acc.2 t then drainTier t acc.1 acc else acc

/-- PREFETCH pages that are where they should be, or on their way there, leave their ranges; a range of which no page is left ends. -/
def pruneRanges (s : State) : State :=
  let there := fun pg : Nat =>
    match mget pg s.store.pages, allocAtPage s pg with
    | some p, some al => fastest s al == some p.tier || (match mget pg s.store.moves with | some m => fastest s al == some m.dstTier | none => false)
    | _, _ => true
  { s with store := { s.store with
    prefetch := (s.store.prefetch.map fun r => { r with pages := r.pages.filter fun pg => !there pg }).filter fun r => !r.pages.isEmpty } }

def placePages (s : State) : State :=
  let acc := [0, 1, 2, 5, 4].foldl placeTier (rfld s Reg.beCtl 0 8 8, s)
  pruneRanges (tiersBySpeed.foldl watermark acc).2

/-! Row moves and replicas (R74 step 4, R87, R91, R93) -/

def rowHot (s : State) : Nat := rfld s Reg.beRow 0 0 16

/-- ROW_COLD: at or above ROW_HOT it acts as ROW_HOT / 8 (Table 2-6). -/
def rowCold (s : State) : Nat := let c := rfld s Reg.beRow 0 16 16; if rowHot s ≤ c then rowHot s / 8 else c

/-- Rows of the heavy-hitter list by heat, hottest first; among equals the order is free. -/
def hotRows (v : W64) (s : State) : List Nat :=
  let l := (s.rows.heavy.map fun e => (e.1, e.2.1 + e.2.2)).filter fun e => decide (rowHot s ≤ e.2)
  (sortBy (fun a b =>
    if a.2 = b.2 then decide ((Config.freeWord (v.toNat + a.1)).toNat ≤ (Config.freeWord (v.toNat + b.1)).toNat) else decide (b.2 < a.2)) l).map (·.1)

def newRowMove (k : Nat) (toSlot : Bool) (tier : Nat) : RowMove :=
  { table := k / 2 ^ 40, row := k % 2 ^ 40, toSlot := toSlot, tier := tier, copies := 1, disturbed := false, ready := false }

def rowMoveSlots : Nat := 4096
def rowSlotLimit : Nat := 1048576
def replicaLimit : Nat := 131072

/-- Start a row move. -/
def startRow (k : Nat) (toSlot : Bool) (tier : Nat) (s : State) : State :=
  { s with rows := { s.rows with moves := mset k (newRowMove k toSlot tier) s.rows.moves } }

def rowMayTry (s : State) (k : Nat) : Bool := decide (mgetD 0 k s.rows.retryAt ≤ s.boot.tick)

/-- A promoted row that is cold goes back to its place. -/
def demoteRow (acc : Nat × State) (k : Nat) : Nat × State :=
  let (budget, s) := acc
  match mget k s.rows.slots with
  | some t =>
    if budget = 0 ∨ rowCold s ≤ heatOf s.rows.heavy k ∨ mhas k s.rows.moves ∨ rowMoveSlots ≤ s.rows.moves.length ∨ !rowMayTry s k
        ∨ placeStopped s (tablePart s (k / 2 ^ 40)) then acc
    else (budget - 1, startRow k false t s)
  | none => acc

/-- Tiers of row areas that have room for a row or a replica that f puts there, fastest first. -/
def rowTier (s : State) (part : Nat) (al : Alloc) (f : Nat → State) : Option Nat :=
  [0, 1].find? fun t => homeMask s al t && decide (occ (f t) part t ≤ quota s part t) && decide (tierUsed (f t) t ≤ tierCap s t)

/-- Promote a hot row that this hub owns (R87). -/
def promoteRow (k : Nat) (t : Table) (acc : Nat × State) : Nat × State :=
  let (budget, s) := acc
  match liveAlloc s (qf t.image 0 0 16) with
  | none => acc
  | some al =>
    if fPin al.flags || mhas k s.rows.slots || mhas k s.rows.moves || mhas k s.rows.old || !rowMayTry s k || decide (rowMoveSlots ≤ s.rows.moves.length)
        || decide (rowSlotLimit ≤ s.rows.slots.length + (s.rows.moves.filter fun m => m.2.toSlot).length)
        || (rowHome s k).any (fun pg => mhas pg s.store.moves || pageLost s (pg * pageSize)) then acc
    else
      match rowTier s t.part al (fun x => startRow k true x s) with
      | some x => (budget - 1, startRow k true x s)
      | none => acc

/-- Ask the owner for a replica of a hot remote row (R91): neither the request's packet nor its answer is the manual's. Whether the owner refuses it is free; a
refused request is not repeated for 16 ticks, one that was deferred (R94) may be repeated at the next. -/
def askReplica (k : Nat) (acc : Nat × State) : Nat × State :=
  let (budget, s) := acc
  if mhas k s.rows.replicas || decide (s.boot.tick < mgetD 0 k s.rows.refused) || decide (replicaLimit ≤ s.rows.replicas.length) then acc
  else
    let (no, s) := drawBit s
    (budget - 1, if no then { s with rows := { s.rows with refused := mset k (s.boot.tick + 16) s.rows.refused } } else s)

/-- One hot row: promoted by its owner, asked for by another hub of a sharded table. -/
def hotRow (acc : Nat × State) (k : Nat) : Nat × State :=
  let (budget, s) := acc
  match mget (k / 2 ^ 40) s.eng.tables with
  | none => acc
  | some t =>
    if budget = 0 ∨ t.ending ∨ placeStopped s t.part ∨ tblRows t.image ≤ k % 2 ^ 40 then acc
    else if tblMember t.image ∧ rowOwner t.image (k % 2 ^ 40) = tblSelf t.image then promoteRow k t acc
    else if t.mode = 2 then askReplica k acc
    else acc

/-- A replica that was cold for RETIRE_TICKS ticks retires. -/
def retireRow (acc : Nat × State) (k : Nat) : Nat × State :=
  let (budget, s) := acc
  match mget k s.rows.replicas with
  | some r =>
    if budget = 0 ∨ r.retiring ∨ r.coldTicks < max 1 (rfld s Reg.beRepl 0 8 8) ∨ placeStopped s r.part then acc
    else (budget - 1, { s with rows := { s.rows with replicas := mmod k (fun r => { r with retiring := true }) s.rows.replicas } })
  | none => acc

/-- The owner grants a replica: not beyond REPL_MAX, not to a receiver left out since a broadcast failed (R225); the request for a row in MOVING is
deferred to the next tick (R94). The row then goes to the receiver with the running kernel's broadcast, or at once (R92). -/
def grantOwner (ep k : Nat) (t : Table) (s : State) : State :=
  let n := (s.rows.granted.filter fun g => g.1 == k).length
  if s.rows.granted.contains (k, ep) || t.banned.contains ep || decide (s.rows.replMax ≤ n) || placeStopped s t.part || !s.rows.on then s
  else if mhas k s.rows.moves then
    if s.rows.deferred.contains (k, ep) then s else { s with rows := { s.rows with deferred := s.rows.deferred ++ [(k, ep)] } }
  else
    let s := { s with rows := { s.rows with granted := s.rows.granted ++ [(k, ep)] } }
    let num := k / 2 ^ 40
    let q := s.eng.queues.find? fun q => q.2.inKernel && ((q.2.bset.any fun b => b.1 == num)
      || q.2.descs.any fun d => d.opcode == 0x21 && d.f 1 0 14 == num && [DescStage.started, .waiting, .ran].contains d.stage)
    match q with
    | some q => queueSet q.1 (fun x => { x with bset := if x.bset.contains (num, k % 2 ^ 40) then x.bset else x.bset ++ [(num, k % 2 ^ 40)] }) s
    | none =>
      let (ps, s) := rowPackets t.part ep t (k % 2 ^ 40) s
      ps.foldl (fun s p => (sendReq (mkReq p none 1 t.part .hub) s).2) s

/-- Remove one of the grants of a row; which is free. -/
def dropGrant (k : Nat) (s : State) : State :=
  let mine := s.rows.granted.filter fun g => g.1 == k
  let (i, s) := drawBelow mine.length s
  { s with rows := { s.rows with granted := s.rows.granted.filter fun g => some g != mine[i]? } }

/-- The owner withdraws the replicas of a row beyond REPL_MAX (R93), a replica change each (R74 step 4). -/
def trimGrants (acc : Nat × State) (k : Nat) : Nat × State :=
  let (budget, s) := acc
  if placeStopped s (tablePart s (k / 2 ^ 40)) then acc
  else
    let n := min budget ((s.rows.granted.filter fun g => g.1 == k).length - s.rows.replMax)
    (budget - n, (List.range n).foldl (fun s _ => dropGrant k s) s)

/-- The requests deferred at an earlier tick are taken up (R94). -/
def takeDeferred (acc : Nat × State) : Nat × State :=
  let reqs := acc.2.rows.deferred
  reqs.foldl (fun acc g =>
    let (budget, s) := acc
    if budget = 0 then (0, { s with rows := { s.rows with deferred := s.rows.deferred ++ [g] } })
    else
      match mget (g.1 / 2 ^ 40) s.eng.tables with
      | some t => (budget - 1, grantOwner g.2 g.1 t s)
      | none => acc) (acc.1, { acc.2 with rows := { acc.2.rows with deferred := [] } })

def placeRows (s : State) : State :=
  let (v, s) := draw s
  let acc := (s.rows.slots.map (·.1)).foldl demoteRow (rfld s Reg.beCtl 0 16 16, s)
  let acc := (s.rows.replicas.map (·.1)).foldl retireRow acc
  let acc := ((acc.2.rows.granted.map (·.1)).dedup).foldl trimGrants acc
  ((hotRows v s).foldl hotRow (takeDeferred acc)).2

/-- The edge reads the registers that later commands of the tick follow (R74). -/
def readBe (s : State) : State := { s with rows := { s.rows with replMax := rfld s Reg.beRepl 0 0 8, on := rbit s Reg.beCtl 0 0 } }

/-- The plan of an edge (R74). A hub that is not in service plans nothing (R474, R521). -/
def plan (s : State) : State :=
  if fatal s || stage s != 7 then s
  else
    let s := quotaMoves (forcedMoves (readBe s))
    if s.rows.on then placeRows (placePages s) else s

/-- The commands' key of a row. -/
def keyOf (table : BitVec 14) (row : BitVec 40) : Nat := rowKey table.toNat row.toNat

/-- A grant arrives at the hub that asked: a slot in its row area, under its quota. -/
def grantHolder (k : Nat) (t : Table) (s : State) : State :=
  let put := fun x : Nat =>
    let r : Replica := { table := k / 2 ^ 40, row := k % 2 ^ 40, part := t.part, tier := x, data := List.replicate (rowWidth t.image) 0, pois := [], filled := false,
                         coldTicks := 0, retiring := false }
    { s with rows := { s.rows with replicas := mset k r s.rows.replicas } }
  if mhas k s.rows.replicas || decide (replicaLimit ≤ s.rows.replicas.length) then s
  else
    match [0, 1].find? fun x => decide (occ (put x) t.part x ≤ quota s t.part x) && decide (tierUsed (put x) x ≤ tierCap s x) with
    | some x => put x
    | none => s

/-- REPLICA_GRANT: `ep` is the hub that asks; this hub is the owner, or `ep` itself, whose request the owner has granted. -/
def replicaGranted (ep k : Nat) (s : State) : State :=
  match mget (k / 2 ^ 40) s.eng.tables with
  | none => s
  | some t =>
    let mine := tblMember t.image && rowOwner t.image (k % 2 ^ 40) == tblSelf t.image
    if t.mode ≠ 2 ∨ t.ending ∨ tblRows t.image ≤ k % 2 ^ 40 then s
    else if ep = selfEp s then (if mine then s else grantHolder k t s)
    else if mine then grantOwner ep k t s
    else s

def execReplicaGrant (from_ : Endpoint) (table : BitVec 14) (row : BitVec 40) (s : State) : Out :=
  done (act (replicaGranted from_.toNat (keyOf table row)) s)

/-- REPLICA_FILL: the row's bytes arrive, with its poisoned words; kernels that start from now on use them. -/
def replicaFilled (k : Nat) (data : List Byte) (ws : List Nat) (s : State) : State :=
  match mget k s.rows.replicas with
  | some r =>
    if r.filled then s
    else bump Reg.beReplCreated 0 { s with rows := { s.rows with replicas := mset k { r with data := splice r.data 0 data, pois := ws, filled := true } s.rows.replicas } }
  | none => s

def execReplicaFill (table : BitVec 14) (row : BitVec 40) (data : List Byte) (s : State) (poison : List Nat := []) : Out :=
  done (act (replicaFilled (keyOf table row) data poison) s)

/-- REPLICA_RETIRE: the replica is released, as one that retires, or as one its owner withdraws. -/
def replicaRetired (k : Nat) (s : State) : State :=
  if mhas k s.rows.replicas then bump Reg.beReplRetired 0 { s with rows := { s.rows with replicas := mdel k s.rows.replicas } } else s

def execReplicaRetire (table : BitVec 14) (row : BitVec 40) (s : State) : Out := done (act (replicaRetired (keyOf table row)) s)

/-- A PREFETCH range whose 16 ticks have passed is dropped and counted (R102). -/
def rangeExpired (s : State) : State :=
  match s.store.prefetch.find? fun r => decide (16 ≤ r.ticks) with
  | some r => { countDropped r.part 1 s with store := { s.store with prefetch := s.store.prefetch.erase r } }
  | none => s

def execPrefetchRangeExpire (s : State) : Out := done (act rangeExpired s)

end Sys2Proof.Machine
end

