-- ==== Sys2Proof/Machine/Tick.lean ====
section
/-! DEFINITION. The slow-tick edge: timers, heats, the checks of the tick, the Blocking engine's plan, and the refresh of every RS copy in one step
(R72, R74, R454). -/

namespace Sys2Proof.Machine

open Sys2Proof

/-! Timers -/

/-- Every count of slow-tick edges advances. -/
def edgeCounts (s : State) : State :=
  { s with
    boot := { s.boot with tick := s.boot.tick + 1, lcRan := none }
    store := { s.store with
      extents := s.store.extents.map fun x => (x.1, if x.2.withdrawn then { x.2 with edges := x.2.edges + 1 } else x.2)
      lentOut := s.store.lentOut.map fun l => if l.noticed then { l with edges := l.edges + 1 } else l
      prefetch := s.store.prefetch.map fun r => { r with ticks := r.ticks + 1 }
      allocs := mmapv (fun _ al => { al with fails := (0 :: al.fails).take 256 }) s.store.allocs }
    eng := { s.eng with queues := mmapv (fun _ q => { q with descs := q.descs.map fun d => if d.stage = .waiting then { d with waitEdges := d.waitEdges + 1 } else d }) s.eng.queues }
    ord := { s.ord with held := s.ord.held.map fun h => { h with edges := h.edges + 1 } }
    coh := { s.coh with txns := s.coh.txns.map fun t => { t with await := t.await.map fun a => (a.1, a.2 - 1) } }
    fab := { s.fab with
      reqs := s.fab.reqs.map fun r => { r with edges := r.edges + 1 }
      waiting := s.fab.waiting.map fun e => { e with edges := e.edges + 1 }
      commit := s.fab.commit.map fun c => { c with edges := c.edges + 1 }
      prevEdges := s.fab.prevEdges + 1
      ledger := mmapv (fun _ l => if l.inTransit then { l with edges := l.edges + 1 } else l) s.fab.ledger }
    host := { s.host with chans := mmapv (fun _ c => if c.waitPri then { c with waitEdges := c.waitEdges + 1 } else c) s.host.chans }
    rel := { s.rel with seen := [], ceTick := [], ceDone := [], ceThresh := rfld s Reg.ceThresh 0 0 16 } }

/-! HBM that this hub lends (R58, R61): whether, when, to whom and which, no rule says; all are free choices (log entry 89) -/

/-- Offer free HBM to an endpoint (Table 10-10). -/
def lendOffer (s : State) : State :=
  let (ep, s) := drawBelow (2 ^ 18) s
  let (base, s) := drawBelow (2 ^ 29) s
  let (n, s) := drawBelow (tierFree s 1) s
  let pages := n + 1
  let clash := s.store.lentOut.any fun l => l.borrower == ep || overlap (l.base / pageSize) l.pages base pages
  if ep = selfEp s ∨ clash ∨ 2 ^ 29 < base + pages then s
  else
    let l : LentOut := { borrower := ep, noticeMs := rfld s Reg.loanCfg 0 16 14, ext := none, base := base * pageSize, pages := pages, noticed := false, edges := 0 }
    let s := eraseRange (localEnd + l.base) (pages * pageSize) { s with store := { s.store with lentOut := s.store.lentOut ++ [l] } }
    let bs := leBytes 8 l.base ++ leBytes 4 pages ++ leBytes 2 l.noticeMs ++ [0, 0]
    match sendReq (mkReq (mkPacket s tLEND ep 0 0 bs) none 0 0 .lend) s with
    | (.gone, s) => s
    | (.failed _, s) => lendDrop ep s

/-- Take lent HBM back with the notice of LOAN_CFG.NOTICE_MS as LEND named it. -/
def lendNotice (b ext : Nat) (s : State) : State :=
  let s := { s with store := { s.store with lentOut := s.store.lentOut.map fun l => if l.borrower = b then { l with noticed := true, edges := 0 } else l } }
  (sendReq (mkReq (mkPacket s tNOTICE b 0 (w64 ext) []) none 0 0 .hub) s).2

/-- What the hub does at an edge with HBM it lends or may lend. -/
def lendTick (s : State) : State :=
  let (take, s) := drawBit s
  let s := if rbit s Reg.loanCfg 0 8 && take && decide (0 < tierFree s 1) then lendOffer s else s
  s.store.lentOut.foldl (fun s l =>
    match l.ext with
    | some e => if l.noticed then s else let (back, s) := drawBit s; if back then lendNotice l.borrower e s else s
    | none => s) s

/-! Heats (R72, R73) -/

/-- DECAY: 0 and 9 to 15 act as 3 (Table 2-6). -/
def decay (s : State) : Nat := let d := rfld s Reg.beHeat 0 0 4; if 1 ≤ d ∧ d ≤ 8 then d else 3

/-- The fold of R72, saturating at 24 bits. -/
def foldHeat (d heat count : Nat) : Nat := min (heat - heat / 2 ^ d + count) (2 ^ 24 - 1)

/-- A page's counters are folded; WILLNEED raises its heat to PROMOTE_MIN (Table 2-4). -/
def foldPage (d pmin : Nat) (p : Page) : Page :=
  let h := foldHeat d p.heat p.acc
  { p with heat := if p.willNeed then max h pmin else h, wheat := foldHeat d p.wheat p.wrc, acc := 0, wrc := 0, willNeed := false }

/-- The counters of the row sketch; those that reach 0 are not kept. -/
def foldSketch (d : Nat) (m : NMap (Nat × Nat)) : NMap (Nat × Nat) :=
  (mmapv (fun _ e => (foldHeat d e.1 e.2, 0)) m).filter fun e => e.2.1 != 0

/-- Ticks for which each replica's row has been below ROW_COLD here (R93). -/
def foldReplicas (s : State) : NMap Replica :=
  mmapv (fun k r => { r with coldTicks := if heatOf s.rows.heavy k < rowCold s then r.coldTicks + 1 else 0 }) s.rows.replicas

def foldHeats (s : State) : State :=
  let d := decay s
  let s := { s with
    store := { s.store with pages := mmapv (fun _ p => foldPage d (rfld s Reg.beHeat 0 4 24) p) s.store.pages }
    rows := { s.rows with sketch := foldSketch d s.rows.sketch, heavy := foldSketch d s.rows.heavy } }
  { s with rows := { s.rows with replicas := foldReplicas s } }

/-- The mean program/erase count of each die rises by an amount the manual does not give. -/
def ageDies (s : State) : State :=
  s.rel.dies.foldl (fun s d => let (n, s) := drawBelow 256 s; dieMod d.1 (fun x => { x with wear := x.wear + n }) s) s

/-- A tick in which a measure of R556 or R557 was in force is counted. -/
def throtTick (s : State) : State :=
  let active := s.boot.throttled || !s.boot.hbmHalf.isEmpty || !s.boot.hbmRefresh.isEmpty
  let s := if s.boot.throtSeen || active then bump Reg.throtTicks 0 s else s
  bootSet (fun b => { b with throtSeen := false }) s

/-! Slow copies (R454): the counters, and the figures that are measured at the edge -/

/-- Entries of one register: instance and value. -/
def gauge (r : Nat) (l : List (Nat × Nat)) : List (Nat × Nat) := l.map fun e => (rkey r e.1, e.2)

def gauge1 (r n : Nat) : List (Nat × Nat) := [(rkey r 0, n)]

/-- Store, Blocking engine and index figures. TIER_OCC_t carries OVER (Table 1-6). -/
def gaugeStore (s : State) : List (Nat × Nat) :=
  let ps := List.range (parts s)
  ([0, 1, 2, 3, 4, 5].flatMap fun t =>
    gauge (Reg.tierOcc + 4 * t) (ps.map fun p => (p, occ s p t % 2 ^ 31 + 2 ^ 31 * b2n (decide (quota s p t < occ s p t))))
      ++ gauge1 (Reg.tierCap + 4 * t) (tierCap s t) ++ gauge1 (Reg.tierFree + 4 * t) (tierFree s t))
    ++ gauge Reg.wideCtl (s.store.allocs.map fun a => (a.1, b2n a.2.widened))
    ++ gauge Reg.idxVisLo (s.eng.idxs.map fun x => (x.1, x.2.vis))
    ++ gauge Reg.idxVisHi (s.eng.idxs.map fun x => (x.1, x.2.vis / 2 ^ 32 % 16))
    ++ gauge Reg.idxSideLive (s.eng.idxs.map fun x => (x.1, (x.2.nextId - x.2.nvecEff) % 2 ^ 27))


/-- Search reads outstanding on a channel at an edge: at most the reads the channel admits (R247), and none while no search runs. How many is free, drawn as v
(log entry 72). -/
def scoutOut (v : W64) (s : State) (ch : Nat) : Nat :=
  if s.eng.searches.isEmpty then 0 else (Config.freeWord (v.toNat + 64 + ch)).toNat % (max 1 (rfld s Reg.srchCfg 0 0 8) + 1)

/-- Engines and queues. -/
def gaugeEngines (v : W64) (s : State) : List (Nat × Nat) :=
  gauge Reg.dollyOutst ((List.range 16).map fun n => (n, dollyOut s n))
    ++ gauge Reg.scoutOutst ((List.range 32).map fun n => (n, scoutOut v s n))
    ++ (List.range 8).flatMap (fun i => gauge1 (Reg.ctblRest + 4 * i) (slotAtRest s i))
    ++ gauge Reg.laneDepth (s.eng.lanes.map fun l => (l.1, l.2.length * blockSize))
    ++ gauge1 Reg.cueHeld s.ord.held.length

/-- Page requests outstanding on a PCIe port. -/
def priOut (s : State) (port : Nat) : Nat :=
  (s.host.chans.filter fun c => c.2.waitPri && decide (0 < c.2.priLimit) && asidFn s c.2.asid / 256 == port).length

def gaugeFabric (s : State) : List (Nat × Nat) :=
  gauge1 Reg.partnersLive s.fab.partners.length ++ gauge1 Reg.ledgerLive s.fab.ledger.length
    ++ gauge Reg.portTags ((List.range 64).map fun n => (n, (s.fab.reqs.filter fun r => decide (r.tag < unsentBase) && r.tag / 4096 == n).length))
    ++ gauge Reg.ptPages ((List.range (parts s)).map fun p => (p, ptPagesPart s p))
    ++ gauge1 Reg.ptFree (ptCap s - ptPagesAll s.host.ptes)
    ++ gauge1 Reg.priOutst (priOut s 0) ++ gauge1 (Reg.priOutst + 256) (priOut s 1)

/-- FLC_WEAR of a channel: the lowest spare pool and the highest wear of its dies. -/
def flcWear (s : State) (ch : Nat) : Nat :=
  let ds := s.rel.dies.filter fun d => d.1 / 32 == ch
  (ds.map fun d => d.2.percent).foldl min 255 + 256 * min 255 ((ds.map fun d => d.2.wear).foldl max 0)

def gaugeRel (s : State) : List (Nat × Nat) :=
  gauge Reg.flcWear (((s.rel.dies.map fun d => d.1 / 32).dedup).map fun ch => (ch, flcWear s ch))
    ++ gauge1 Reg.snapLeft (match s.rel.snap with | some sn => sn.left.length | none => 0)
    ++ gauge1 Reg.stepLastLo s.rel.stepLast.toNat ++ gauge1 Reg.stepLastHi (s.rel.stepLast.toNat / 2 ^ 32)
    ++ gauge1 Reg.slowEdges s.boot.tick

/-- What the sensors read is free, drawn as v; TEMP_MAX follows the studios. -/
def gaugeSensors (v : W64) (s : State) : List (Nat × W32) :=
  let read := fun (i n : Nat) => w32 ((Config.freeWord (v.toNat + i)).toNat % n)
  let studios := (List.range 4).map fun i => (rkey (Reg.tempStudio + 4 * i) 0, read i 256)
  studios ++ (List.range 8).map (fun i => (rkey (Reg.tempHbm + 4 * i) 0, read (4 + i) 256))
    ++ [(rkey Reg.vcoreAmps 0, read 12 1024),
        (rkey Reg.tempMax 0, w32 ((studios.map fun e => e.2.toNat).foldl max (mgetD 0 (rkey Reg.tempMax 0) s.copies).toNat))]

/-- The refresh. -/
def refresh (s : State) : State :=
  let (v, s) := draw s
  let m := (gaugeStore s ++ gaugeEngines v s ++ gaugeFabric s ++ gaugeRel s).foldl (fun m e => mput 0 e.1 (w32 e.2) m) s.live
  { s with copies := (gaugeSensors v s).foldl (fun m e => mset e.1 e.2 m) m }

/-- SLOW_TICK_EDGE. -/
def slowTick (s : State) : State := refresh (plan (throtTick (ageDies (foldHeats (paritySweep (lendTick (dropWaited (edgeCounts s))))))))

def execSlowTickEdge (s : State) : Out := done (act slowTick s)

end Sys2Proof.Machine
end

