-- ==== Sys2Proof/Machine/Mgmt.lean ====
section
/-! DEFINITION. Register access over the fabric and over JTAG, and flits: their check, their acknowledgements and credits, and the packets they carry
(R356, R357, R360, R362, R525). -/

namespace Sys2Proof.Machine

open Sys2Proof

/-! MGMT_RD and MGMT_WR (R362) -/

/-- A management read: the register of PF BAR0 at offset ADDR, for a fabric manager only. -/
def takeMgmtRd (p : Packet) (s : State) : State :=
  if isManager s p.src.toNat then
    let (v, s) := regReadVia .mgmt p.addr.toNat s
    reply (rspTo s p .ok 0 0 (leBytes 4 (v.getD 0).toNat)) s
  else reply (rspTo s p .ownership 0 0 []) (bump Reg.mgmtRefused 0 s)

def execMgmtRd (port : Fin 64) (p : Packet) (s : State) : Out := done (arrive port p (takeMgmtRd p) s)

/-- A management write. -/
def takeMgmtWr (p : Packet) (s : State) : State :=
  if isManager s p.src.toNat then
    let s := regWriteAny .mgmt p.addr.toNat p.payload s
    reply (ackTo s p .ok 0) s
  else reply (ackTo s p .ownership 0) (bump Reg.mgmtRefused 0 s)

def execMgmtWr (port : Fin 64) (p : Packet) (s : State) : Out := done (arrive port p (takeMgmtWr p) s)

/-! JTAG (R525) -/

/-- A refused access is counted and flagged. -/
def jtagRefused (s : State) : State := emit (.jtag none) (lcFlag 3 (bump Reg.dbgRefused 0 s))

/-- IDCODE, whose value the manual does not give, and BYPASS are always answered; the rest only while JTAG is open, which then reaches the registers by
the path of the Akist controller. -/
def jtagRun (op : JtagOp) (s : State) : State :=
  match op with
  | .idcode => let (v, s) := draw s; emit (.jtag (some (leBytes 4 v.toNat))) s
  | .bypass => emit (.jtag (some [])) s
  | .regRead off =>
    if jtagOpen s then
      let (v, s) := regReadVia .akist off.toNat s
      emit (.jtag (some (leBytes 4 (v.getD 0).toNat))) s
    else jtagRefused s
  | .regWrite off v => if jtagOpen s then emit (.jtag (some [])) (regWriteOne .akist off.toNat v s) else jtagRefused s
  | .other => if jtagOpen s then emit (.jtag (some [])) s else jtagRefused s

def execJtagAccess (op : JtagOp) (s : State) : Out := done (act (jtagRun op) s)

/-! Packets of a flit -/

/-- The size on the link of the packet whose header is given (R360, Table 10-4). -/
def wireSize (bs : List Byte) : Nat :=
  let q0 := leAt bs 0 8
  roundUp (32 + q0 / 2 ^ 51 + (if q0 / 2 ^ 50 % 2 = 1 then 8 else 0) + (if q0 / 2 ^ 12 % 2 = 1 then 4 else 0)) 4

/-- The packet of the bytes (Table 10-4). -/
def packetOf (bs : List Byte) : Packet :=
  let q0 := leAt bs 0 8
  let q1 := leAt bs 8 8
  let n := q0 / 2 ^ 51
  let f := fun (q lo w : Nat) => q / 2 ^ lo % 2 ^ w
  let b := fun (q lo : Nat) => q / 2 ^ lo % 2 == 1
  { type := BitVec.ofNat 8 (f q0 0 8), tc := BitVec.ofNat 3 (f q0 8 3), zip := b q0 11, e2e := b q0 12, tallyEn := b q0 13, tallyUnit := b q0 14,
    loan := b q0 15, epoch := BitVec.ofNat 16 (f q0 16 16), dst := BitVec.ofNat 18 (f q0 32 18), pmask := b q0 50, src := BitVec.ofNat 18 (f q1 0 18),
    tid := BitVec.ofNat 18 (f q1 18 18), key := BitVec.ofNat 16 (f q1 36 16), hops := BitVec.ofNat 5 (f q1 52 5), addr := w64 (leAt bs 16 8),
    arg := w64 (leAt bs 24 8), len := BitVec.ofNat 13 n, payload := slice bs 32 n, pois := if b q0 50 then w64 (leAt bs (32 + n) 8) else 0,
    crc := if b q0 12 then w32 (leAt bs (32 + n + if b q0 50 then 8 else 0) 4) else 0 }

/-- The whole packets at the front of a byte stream, and the bytes of one that is not yet whole; TYPE 0 stands for the filler behind the last packet
of a body (log entry 18). -/
def splitPackets : Nat → List Byte → List Packet × List Byte
  | 0, _ => ([], [])
  | f + 1, bs =>
    if bs.getD 0 0 = 0 then ([], [])
    else if bs.length < 32 ∨ bs.length < wireSize bs then ([], bs)
    else let (ps, r) := splitPackets f (bs.drop (wireSize bs)); (packetOf bs :: ps, r)

/-- A HANDOFF by its operation (Table 10-11); an operation that the table does not have is answered DECODE. -/
def takeHandoff (port : Nat) (p : Packet) (s : State) : State :=
  match fld p.arg 40 4 with
  | 1 => homeClaim p s
  | 2 => homeOffer port p s
  | 3 => homeAccept p s
  | 4 => homeCancel p s
  | 5 => homeLedgerRelease p s
  | 6 => homeLedgerQuery p s
  | _ => ledgerRsp p (leAt p.payload 0 8) .decode s

/-- What a packet for this hub does, by its type (Table 10-5); an unknown type is dropped and counted (R361). Memory is read without error here: the
RD and RD_SHARED commands say what a read found. -/
def takePacket (port : Nat) (p : Packet) (s : State) : State :=
  match p.type.toNat with
  | 0x01 => homeRd port p .good s
  | 0x02 => homeWr port p s
  | 0x03 => homeAtomic port p s
  | 0x04 => homeCue port p s
  | 0x05 => homeTally p s
  | 0x06 => homeDoorbell p s
  | 0x07 => homeOwn port p s
  | 0x08 => homeEvent p s
  | 0x09 => takeHandoff port p s
  | 0x10 => takeRsp p s
  | 0x11 => takeAck p s
  | 0x12 => takeRetry p s
  | 0x20 => homeRdShared port p s
  | 0x21 => homeRdOwn port p s
  | 0x22 => homeRdOwn port p s
  | 0x23 => homeWrBack port p s
  | 0x24 => homeWrBack port p s
  | 0x25 => homeEvict port p s
  | 0x28 => hubSnooped p false s
  | 0x29 => hubSnooped p true s
  | 0x2A => s
  | 0x2C => takeData p s
  | 0x2D => takeCmp p s
  | 0x2E => homeGrantAck p s
  | 0x2F => homeRecallAck p s
  | 0x30 => takeLend p s
  | 0x31 => takeNotice p s
  | 0x32 => takeRelease p s
  | 0x33 => takeLost p s
  | 0x34 => takeWalkReq port p s
  | 0x38 => takeMgmtRd p s
  | 0x39 => takeMgmtWr p s
  | _ => bump Reg.pktBad 0 s

/-- A packet received on a port: taken here, or routed on. Its receive buffer is free once it is taken or has left; one that waits at an egress fills it
until then (R358). -/
def packetIn (port : Nat) (s : State) (p : Packet) : State :=
  let out : Packet := { p with hops := p.hops + 1 }
  let s := arrive port p (takePacket port p) s
  if p.dst.toNat ≠ selfEp s ∧ s.fab.waiting.any fun e => e.p == out && e.from_ == none then
    { s with fab := { s.fab with waiting := replaceFirst (fun e => e.p == out && e.from_ == none) (fun e => { e with from_ := some port }) s.fab.waiting } }
  else creditBack port p s

/-! Flits (Table 10-2) -/

/-- The receiver asks for a replay with NAK, which names the last good flit (R357). -/
def sendNak (port : Nat) (s : State) : State :=
  emit (.flit port (idleFlit s port true 0 0)) (portSet port (fun q => { q with nakSent := true }) s)

/-- The later flits are discarded until the replay: they are not asked for again. -/
def askReplay (port : Nat) (s : State) : State := if (portOf s port).nakSent then s else sendNak port s

/-- Acknowledgement and credit return of a good flit. -/
def flitAck (port : Nat) (fl : List Byte) (s : State) : State :=
  let a := leAt fl 2 2
  let c := leAt fl 5 1 % 8
  let s := portSet port (fun q => { q with credits := q.credits.set c (q.credits.getD c 0 + leAt fl 6 2) }) s
  if a / 2 ^ 15 = 0 then pumpPort port s else if a / 2 ^ 14 % 2 = 1 then portNak port (a % 4096) s else portAcked port (a % 4096) s

/-- The body of a flit that carries packets: it goes on with the packet that is not yet whole, or starts where PKT_START says. -/
def flitBody (port : Nat) (fl : List Byte) (s : State) : State :=
  let rx := (portOf s port).rx
  let start := leAt fl 4 1
  let bs := if rx.isEmpty then (if start ≤ 58 then slice fl (16 + 4 * start) (236 - 4 * start) else []) else rx ++ slice fl 16 236
  let (ps, r) := splitPackets (bs.length + 1) bs
  ps.foldl (packetIn port) (portSet port (fun q => { q with rx := r }) s)

/-- A flit arrives: a failed CRC or a missing flit is discarded and asked for again; an idle flit repeats the last SEQ; a good one is acknowledged. -/
def flitIn (port : Nat) (fl : List Byte) (s : State) : State :=
  if !portUp s port || fl.length != 256 then s
  else if leAt fl 252 4 ≠ (crc32 (fl.take 252)).toNat then sendNak port (bump Reg.portCrcErr port s)
  else
    let seq := leAt fl 0 2 % 4096
    let q := portOf s port
    if seq = q.rxSeq ∧ leAt fl 4 1 = 0xFF then flitAck port fl s
    else if seq = (q.rxSeq + 1) % 4096 then
      let s := portSet port (fun q => { q with rxSeq := seq, nakSent := false }) (bump Reg.portRxFlits port s)
      flitBody port fl (flitAck port fl (emit (.flit port (idleFlit s port false 0 0)) s))
    else askReplay port s

def execFlitReceive (port : Fin 64) (flit : List Byte) (s : State) : Out := done (act (flitIn port flit) s)

end Sys2Proof.Machine
end

