-- ==== Sys2Proof/Machine/StoreCmds.lean ====
section
/-! DEFINITION. The meanings of the commands of allocations, extents, page moves and row moves (chapters 1 and 2), one for each row: what the command does, then what that sets free. -/

namespace Sys2Proof.Machine

open Sys2Proof

/-! Alloc -/

def execAllocCreate (path : Path) (v : W32) (s : State) : Out :=
  done (act (issue path Reg.allocCmd 1 1 v allocCreateRun) s)

def execAllocDestroy (path : Path) (v : W32) (s : State) : Out :=
  done (act (issue path Reg.allocCmd 2 1 v allocDestroyRun) s)

def execAllocPagesReturned (num : BitVec 16) (s : State) : Out := done (act (pagesReturned num.toNat) s)

def execSetFlags (path : Path) (v : W32) (s : State) : Out :=
  done (act (issue path Reg.allocCmd 3 1 v setFlagsRun) s)

def execProjRestart (path : Path) (v : W32) (s : State) : Out :=
  done (act (issue path Reg.allocCmd 4 1 v projRestartRun) s)

def execProjStop (path : Path) (v : W32) (s : State) : Out :=
  done (act (issue path Reg.allocCmd 5 1 v projStopRun) s)

def execProjFetchStart (num : BitVec 16) (s : State) : Out := done (act (projFetch num.toNat) s)

def execProjFetchDone (num : BitVec 16) (s : State) : Out := done (act (projFetched num.toNat) s)

def execTierQuotaWrite (path : Path) (t : Fin 6) (v : W32) (s : State) : Out :=
  done (act (regWriteVia path (Reg.tierQuota + 4 * t) v fun i _ s => tierQuotaSet t v i s) s)

def execWideCtlRevert (path : Path) (v : W32) (s : State) : Out :=
  done (act (regWriteVia path Reg.wideCtl v fun i _ s => wideCtlSet v i s) s)

def execWiden (alloc : BitVec 16) (s : State) : Out := done (act (widenRun alloc.toNat) s)

def execHostxLend (path : Path) (v : W32) (s : State) : Out :=
  done (act (issue path Reg.hostxCmd 1 1 (v &&& 0xFFFFFFFB) fun _ s => hostxLendRun s) s)

def execHostxNotice (path : Path) (v : W32) (s : State) : Out :=
  done (act (issue path Reg.hostxCmd 2 noUnit (v &&& 0xFFFFFFFB) fun _ s => hostxNoticeRun s) s)

def execExtentRelease (ext : ExtId) (s : State) : Out := done (act (extEarly ext) s)

def execNoticePeriodEnd (ext : ExtId) (s : State) : Out := done (act (noticeEnd ext) s)

/-! Moves -/

def execPageMovePassEnd (page : PageNum) (m : Media) (s : State) : Out := done (act (movePass page.toNat m) s)

def execPageSwitch (page : PageNum) (s : State) : Out := done (act (moveSwitch page.toNat) s)

def execOldLocationRelease (page : PageNum) (s : State) : Out := done (act (oldRelease page.toNat) s)

def execRowCopyEnd (table : BitVec 14) (row : BitVec 40) (s : State) : Out := done (act (rowCopied (rowKey table.toNat row.toNat)) s)

def execRowSwitch (table : BitVec 14) (row : BitVec 40) (s : State) : Out := done (act (rowSwitched (rowKey table.toNat row.toNat)) s)

def execRowOldRelease (table : BitVec 14) (row : BitVec 40) (s : State) : Out := done (act (rowReleased (rowKey table.toNat row.toNat)) s)

end Sys2Proof.Machine
end

