-- ==== Sys2Proof/Machine/SystemCmds.lean ====
section
/-! DEFINITION. The meanings of the commands of registers, the take log, boot, life cycle and thermal events (chapters 13 to 16), one for each row: what the command does, then what that sets free. -/

namespace Sys2Proof.Machine

open Sys2Proof

/-! RegCmd -/

def execLockkeyWrite (path : Path) (v : W32) (s : State) : Out := done (act (regWriteVia path Reg.lockkey v fun i _ s => lockkeySet v i s) s)

def execStatusW1cWrite (path : Path) (which : Fin 3) (v : W32) (s : State) : Out :=
  match which with
  | 0 => done (act (regWriteVia path Reg.fatalStatus v fun _ _ => fatalW1c v) s)
  | 1 => done (act (regWriteVia path Reg.secViolation v fun _ _ => secW1c v) s)
  | 2 => done (act (regWriteVia path Reg.lcStatus v fun _ _ => lcW1c v) s)

def execParityFaultWrite (path : Path) (v : W32) (s : State) : Out := done (act (regWriteVia path Reg.parityFault v fun _ _ => parityW1c v) s)

def execParityInjectWrite (path : Path) (v : W32) (s : State) : Out := done (act (guarded path Reg.parityInject v (parityInjectSet v)) s)

def execHubIntMaskWrite (path : Path) (v : W32) (s : State) : Out := done (act (regWriteVia path Reg.hubIntMask v fun _ _ => hubIntMaskSet v) s)

def execRegisterWrite (path : Path) (off : BitVec 26) (data : List Byte) (s : State) : Out := done (act (regWriteAny path (pfOffset path off.toNat) data) s)

/-! Take -/

def execTakeCapture (s : State) : Out := done (act captureGo s)

def execTakeSwWrite (path : Path) (v : W32) (s : State) : Out := done (act (regWriteVia path Reg.takeSw v fun _ _ => takeSwSet v) s)

def execTakeCursorWrite (path : Path) (v : W32) (s : State) : Out := done (act (regWriteVia path Reg.takeCursorLo v fun _ _ => takeCursorSet v) s)

def execTakeAckWrite (path : Path) (v : W32) (s : State) : Out := done (act (regWriteVia path Reg.takeAckLo v fun _ _ => takeAckSet v) s)

def execTakeWinRead (path : Path) (s : State) : Out := done (act (takeWinReadGo path) s)

/-! Boot -/

def execPwrokRise (s : State) : Out := done (pwrokUp s)

def execPwrokFall (s : State) : Out := done (pwrokDown s)

def execSupplyRailsGood (s : State) : Out := done (railsUp s)

def execPowerLoss (s : State) : Out := done (railsLost s)

/-- RESET_N: after a thermal trip only PWROK helps (R558). -/
def execResetN (s : State) : Out := done (if alive s then warmReset s else s)

def execHubResetGo (path : Path) (v : W32) (s : State) : Out := done (act (guarded path Reg.hubReset v (hubResetSet v)) s)

def execFwSelfCheck (ok : Bool) (s : State) : Out := done (act (fun s => if ok then s else secViolate 4 s) s)

def execGlitchTrip (s : State) : Out := done (act (secViolate 0) s)

def execClockLoss (s : State) : Out := done (act clockLost s)

def execFwVerified (a b : FwImage) (s : State) : Out := done (act (fwCheck a b) s)

def execLoadFw (path : Path) (v : W32) (img : FwImage) (s : State) : Out :=
  done (act (guarded path Reg.bootCmd v (bootCmdOp 3 stRecovery v (loadFwRun img))) s)

def execClocksLocked (ok : Bool) (s : State) : Out := done (act (clocksUp ok) s)

def execMemoryTrained (hbm : Byte) (ddrGiB : List Nat) (flashTib : Nat) (dies : List DieFit) (s : State) : Out :=
  done (act (memoryUp hbm ddrGiB flashTib dies) s)

def execLinksTrained (fab : List PortFit) (pcie : List HostFit) (s : State) : Out := done (act (linksEnd fab pcie) s)

def execHubJoin (s : State) : Out := done (act joinGo s)

/-! Image -/

/-- The boot firmware's own load from SPI needs no unlock (log entry 56). -/
def execImageLoad (path : Path) (v : W32) (spi : List Byte) (s : State) : Out :=
  let run := bootCmdOp 1 4 v (loadRun v spi)
  done (act (fun s => if path = .akist ∧ bit v 3 then run s else guarded path Reg.bootCmd v run s) s)

def execImageApplied (s : State) : Out := done (act imageApplyRun s)

def execReload (path : Path) (v : W32) (spi : List Byte) (s : State) : Out :=
  done (act (guarded path Reg.bootCmd v (bootCmdOp 2 7 v (reloadRun v spi))) s)

def execReloadDrainExpire (s : State) : Out := done (act reloadExpire s)

def execReloadDrained (s : State) : Out := done (act reloadDrained s)

def execReloadWalkEnd (s : State) : Out := done (act reloadMove s)

def execReloadPagesMoved (s : State) : Out := done (act reloadApply s)

def execReloadPortsUp (s : State) : Out := done (act reloadEnd s)

/-! Life -/

def execLcTransition (path : Path) (v : W32) (s : State) : Out := done (act (guarded path Reg.lcCmd v (lcCmdOp 1 v transitionRun)) s)

def execLcDebugOpen (path : Path) (v : W32) (s : State) : Out := done (act (guarded path Reg.lcCmd v (lcCmdOp 2 v debugOpenRun)) s)

def execLcNewNonce (path : Path) (v : W32) (s : State) : Out := done (act (guarded path Reg.lcCmd v (lcCmdOp 3 v newNonceRun)) s)

def execGetCert (via : Fin 3) (s : State) : Out := done (act (mctpRun via certOf) s)

def execGetReport (via : Fin 3) (nonce : BitVec 512) (s : State) : Out := done (act (mctpRun via (reportOf nonce)) s)

/-! Thermal -/

def execThrottleStart (die power vrhot : Bool) (s : State) : Out := done (act (throttleOn die power vrhot) s)

def execThrottleEnd (s : State) : Out := done (act throttleOff s)

def execHbmHot (k : Fin 8) (temp : Byte) (s : State) : Out := done (act (hbmHotter k temp.toNat) s)

def execHbmCool (k : Fin 8) (temp : Byte) (s : State) : Out := done (act (hbmCooler k temp.toNat) s)

/-- The trip (R558): every clock but standby stops, and the hub answers nothing until PWROK goes low. -/
def execThermalTrip (s : State) : Out := done (thermalTrip s)

/-! Flash -/

def execCeTrigger (medium : BitVec 4) (unit : BitVec 16) (s : State) : Out := done (act (ceReached medium.toNat unit.toNat) s)

def execScrubRead (off : BitVec 50) (m : Media) (s : State) : Out := done (act (scrubGo (off.toNat / 64 * 64) m) s)

def execFlashProgramFail (ch die : Fin 32) (s : State) : Out := done (act (blockFailed ch die) s)

def execFlcCtlWrite (path : Path) (v : W32) (s : State) : Out :=
  done (act (regWriteVia path Reg.flcCtl v fun i _ s => flcCtlSet v i s) s)

end Sys2Proof.Machine
end

