-- ==== Sys2Proof/Machine/Dispatch.lean ====
section
/-! DEFINITION. The dispatch of a command to its meaning: one arm per row of spec/opcode_table.json, in its order. -/

namespace Sys2Proof.Machine

open Sys2Proof

def exec (i : Instr) (s : State) : Host.Outcome State Fault Refusal :=
  match i with
  | .slowTickEdge => Sys2Proof.Machine.execSlowTickEdge s
  | .ceTrigger medium unit => Sys2Proof.Machine.execCeTrigger medium unit s
  | .replicaRetire table row => Sys2Proof.Machine.execReplicaRetire table row s
  | .widen alloc => Sys2Proof.Machine.execWiden alloc s
  | .prefetchRangeExpire => Sys2Proof.Machine.execPrefetchRangeExpire s
  | .tallyWaitTimeout q seq => Sys2Proof.Machine.execTallyWaitTimeout q seq s
  | .requestTimeout tag => Sys2Proof.Machine.execRequestTimeout tag s
  | .recallTimeout line slot => Sys2Proof.Machine.execRecallTimeout line slot s
  | .cueExpire src => Sys2Proof.Machine.execCueExpire src s
  | .ledgerRevert id => Sys2Proof.Machine.execLedgerRevert id s
  | .prevEpochRetire => Sys2Proof.Machine.execPrevEpochRetire s
  | .priTimeout eng ch => Sys2Proof.Machine.execPriTimeout eng ch s
  | .partnerAge ep => Sys2Proof.Machine.execPartnerAge ep s
  | .noticePeriodEnd ext => Sys2Proof.Machine.execNoticePeriodEnd ext s
  | .packetDwellExpire n => Sys2Proof.Machine.execPacketDwellExpire n s
  | .scrubRead off m => Sys2Proof.Machine.execScrubRead off m s
  | .fwSelfCheck ok => Sys2Proof.Machine.execFwSelfCheck ok s
  | .allocCreate path v => Sys2Proof.Machine.execAllocCreate path v s
  | .allocDestroy path v => Sys2Proof.Machine.execAllocDestroy path v s
  | .allocPagesReturned num => Sys2Proof.Machine.execAllocPagesReturned num s
  | .setFlags path v => Sys2Proof.Machine.execSetFlags path v s
  | .projRestart path v => Sys2Proof.Machine.execProjRestart path v s
  | .projStop path v => Sys2Proof.Machine.execProjStop path v s
  | .projFetchStart num => Sys2Proof.Machine.execProjFetchStart num s
  | .projFetchDone num => Sys2Proof.Machine.execProjFetchDone num s
  | .tierQuotaWrite path t v => Sys2Proof.Machine.execTierQuotaWrite path t v s
  | .hostxLend path v => Sys2Proof.Machine.execHostxLend path v s
  | .hostxNotice path v => Sys2Proof.Machine.execHostxNotice path v s
  | .extentRelease ext => Sys2Proof.Machine.execExtentRelease ext s
  | .pageMovePassEnd page m => Sys2Proof.Machine.execPageMovePassEnd page m s
  | .pageSwitch page => Sys2Proof.Machine.execPageSwitch page s
  | .oldLocationRelease page => Sys2Proof.Machine.execOldLocationRelease page s
  | .rowCopyEnd table row => Sys2Proof.Machine.execRowCopyEnd table row s
  | .rowSwitch table row => Sys2Proof.Machine.execRowSwitch table row s
  | .rowOldRelease table row => Sys2Proof.Machine.execRowOldRelease table row s
  | .replicaGrant from_ table row => Sys2Proof.Machine.execReplicaGrant from_ table row s
  | .replicaFill table row data poison => Sys2Proof.Machine.execReplicaFill table row data s poison
  | .wideCtlRevert path v => Sys2Proof.Machine.execWideCtlRevert path v s
  | .dqDoorbell path slot v => Sys2Proof.Machine.execDqDoorbell path slot v s
  | .doorbell port p => Sys2Proof.Machine.execDoorbell port p s
  | .descriptorFetch q => Sys2Proof.Machine.execDescriptorFetch q s
  | .descriptorStart q seq => Sys2Proof.Machine.execDescriptorStart q seq s
  | .copy q seq => Sys2Proof.Machine.execCopy q seq s
  | .fill q seq => Sys2Proof.Machine.execFill q seq s
  | .fence q seq => Sys2Proof.Machine.execFence q seq s
  | .kernelEnd q seq => Sys2Proof.Machine.execKernelEnd q seq s
  | .tallyWait q seq => Sys2Proof.Machine.execTallyWait q seq s
  | .tallyAdd q seq => Sys2Proof.Machine.execTallyAdd q seq s
  | .tallyTargetReached q seq => Sys2Proof.Machine.execTallyTargetReached q seq s
  | .matvec q seq => Sys2Proof.Machine.execMatvec q seq s
  | .matmul q seq => Sys2Proof.Machine.execMatmul q seq s
  | .attend q seq => Sys2Proof.Machine.execAttend q seq s
  | .reduce q seq => Sys2Proof.Machine.execReduce q seq s
  | .quant q seq => Sys2Proof.Machine.execQuant q seq s
  | .eltwise q seq => Sys2Proof.Machine.execEltwise q seq s
  | .optim q seq => Sys2Proof.Machine.execOptim q seq s
  | .gather q seq => Sys2Proof.Machine.execGather q seq s
  | .scatterDirect q seq => Sys2Proof.Machine.execScatterDirect q seq s
  | .scatterRoute q seq => Sys2Proof.Machine.execScatterRoute q seq s
  | .scatterApply q seq => Sys2Proof.Machine.execScatterApply q seq s
  | .sortuniq q seq => Sys2Proof.Machine.execSortuniq q seq s
  | .search q seq => Sys2Proof.Machine.execSearch q seq s
  | .searchQueryStart q seq n => Sys2Proof.Machine.execSearchQueryStart q seq n s
  | .insert q seq => Sys2Proof.Machine.execInsert q seq s
  | .insertPublish q seq => Sys2Proof.Machine.execInsertPublish q seq s
  | .delete q seq => Sys2Proof.Machine.execDelete q seq s
  | .squeeze q seq => Sys2Proof.Machine.execSqueeze q seq s
  | .unsqueeze q seq => Sys2Proof.Machine.execUnsqueeze q seq s
  | .prefetch q seq => Sys2Proof.Machine.execPrefetch q seq s
  | .advise q seq => Sys2Proof.Machine.execAdvise q seq s
  | .invalAsid q seq => Sys2Proof.Machine.execInvalAsid q seq s
  | .snapshot q seq => Sys2Proof.Machine.execSnapshot q seq s
  | .stepmark q seq => Sys2Proof.Machine.execStepmark q seq s
  | .descriptorComplete q seq => Sys2Proof.Machine.execDescriptorComplete q seq s
  | .doneTallyAdd q seq => Sys2Proof.Machine.execDoneTallyAdd q seq s
  | .completionRecordWrite q => Sys2Proof.Machine.execCompletionRecordWrite q s
  | .dqCtlEnable path slot v => Sys2Proof.Machine.execDqCtlEnable path slot v s
  | .dqCtlClear path slot v => Sys2Proof.Machine.execDqCtlClear path slot v s
  | .dqCtlAbort path slot v => Sys2Proof.Machine.execDqCtlAbort path slot v s
  | .dqCqHeadWrite path slot v => Sys2Proof.Machine.execDqCqHeadWrite path slot v s
  | .dqMapWrite path slot v => Sys2Proof.Machine.execDqMapWrite path slot v s
  | .tblCreate path v => Sys2Proof.Machine.execTblCreate path v s
  | .tblDestroy path v => Sys2Proof.Machine.execTblDestroy path v s
  | .tblClearStale path v => Sys2Proof.Machine.execTblClearStale path v s
  | .broadcastCommit src table seqNo rows => Sys2Proof.Machine.execBroadcastCommit src table seqNo rows s
  | .idxCreate path v => Sys2Proof.Machine.execIdxCreate path v s
  | .idxDestroy path v => Sys2Proof.Machine.execIdxDestroy path v s
  | .idxSwap path v => Sys2Proof.Machine.execIdxSwap path v s
  | .swapDrained idx => Sys2Proof.Machine.execSwapDrained idx s
  | .ctblLoad path v => Sys2Proof.Machine.execCtblLoad path v s
  | .ctblRetire path v => Sys2Proof.Machine.execCtblRetire path v s
  | .laneEncode lane m => Sys2Proof.Machine.execLaneEncode lane s m
  | .ptTallyValWrite path v => Sys2Proof.Machine.execPtTallyValWrite path v s
  | .ptWatchArm path v => Sys2Proof.Machine.execPtWatchArm path v s
  | .tallyAssignWrite path v => Sys2Proof.Machine.execTallyAssignWrite path v s
  | .rd port p m dir => Sys2Proof.Machine.execRd port p m s dir
  | .wr port p dir => Sys2Proof.Machine.execWr port p s dir
  | .atomic port p dir => Sys2Proof.Machine.execAtomic port p s dir
  | .cue port p => Sys2Proof.Machine.execCue port p s
  | .tallyWr port p => Sys2Proof.Machine.execTallyWr port p s
  | .own port p => Sys2Proof.Machine.execOwn port p s
  | .event port p => Sys2Proof.Machine.execEvent port p s
  | .rsp port p => Sys2Proof.Machine.execRsp port p s
  | .ack port p => Sys2Proof.Machine.execAck port p s
  | .retry port p => Sys2Proof.Machine.execRetry port p s
  | .retryResend tag => Sys2Proof.Machine.execRetryResend tag s
  | .lend port p => Sys2Proof.Machine.execLend port p s
  | .notice port p => Sys2Proof.Machine.execNotice port p s
  | .release port p => Sys2Proof.Machine.execRelease port p s
  | .loanReleaseSend n => Sys2Proof.Machine.execLoanReleaseSend n s
  | .lost port p => Sys2Proof.Machine.execLost port p s
  | .walkReq port p => Sys2Proof.Machine.execWalkReq port p s
  | .mgmtRd port p => Sys2Proof.Machine.execMgmtRd port p s
  | .mgmtWr port p => Sys2Proof.Machine.execMgmtWr port p s
  | .packetForward port p => Sys2Proof.Machine.execPacketForward port p s
  | .flitReceive port flit => Sys2Proof.Machine.execFlitReceive port flit s
  | .flitNak port seq => Sys2Proof.Machine.execFlitNak port seq s
  | .linkRetrain port => Sys2Proof.Machine.execLinkRetrain port s
  | .portTrainDone fit => Sys2Proof.Machine.execPortTrainDone fit s
  | .portDown port => Sys2Proof.Machine.execPortDown port s
  | .portCfgEnable path v => Sys2Proof.Machine.execPortCfgEnable path v s
  | .portRetrain path v => Sys2Proof.Machine.execPortRetrain path v s
  | .rdShared port p dir => Sys2Proof.Machine.execRdShared port p dir s
  | .rdOwn port p dir => Sys2Proof.Machine.execRdOwn port p s dir
  | .upgrade port p dir => Sys2Proof.Machine.execUpgrade port p s dir
  | .wrBack port p dir => Sys2Proof.Machine.execWrBack port p s dir
  | .wrBackS port p dir => Sys2Proof.Machine.execWrBackS port p s dir
  | .evict port p dir => Sys2Proof.Machine.execEvict port p s dir
  | .grantAck port p => Sys2Proof.Machine.execGrantAck port p s
  | .recallAck port p => Sys2Proof.Machine.execRecallAck port p s
  | .memRd hp hpa mv tag dir => Sys2Proof.Machine.execMemRd hp hpa mv tag s dir
  | .memWr hp hpa mv data be tag bad dir => Sys2Proof.Machine.execMemWr hp hpa mv data be tag s bad dir
  | .memInv hp hpa mv tag dir => Sys2Proof.Machine.execMemInv hp hpa mv tag s dir
  | .memClnEvct hp hpa tag dir => Sys2Proof.Machine.execMemClnEvct hp hpa tag s dir
  | .biRsp hp hpa r => Sys2Proof.Machine.execBiRsp hp hpa r s
  | .biConflict hp hpa => Sys2Proof.Machine.execBiConflict hp hpa s
  | .walkPassStart => Sys2Proof.Machine.execWalkPassStart s
  | .walkPassEnd dir => Sys2Proof.Machine.execWalkPassEnd s dir
  | .cohAgentSet path v => Sys2Proof.Machine.execCohAgentSet path v s
  | .cohAgentClear path v => Sys2Proof.Machine.execCohAgentClear path v s
  | .cohAgentClearLost path v => Sys2Proof.Machine.execCohAgentClearLost path v s
  | .regionCreate path v => Sys2Proof.Machine.execRegionCreate path v s
  | .regionDestroy path v => Sys2Proof.Machine.execRegionDestroy path v s
  | .regionOwn path v => Sys2Proof.Machine.execRegionOwn path v s
  | .regionQuery path v => Sys2Proof.Machine.execRegionQuery path v s
  | .csCommit path v => Sys2Proof.Machine.execCsCommit path v s
  | .csDiscard path v => Sys2Proof.Machine.execCsDiscard path v s
  | .commitRequestsDrained => Sys2Proof.Machine.execCommitRequestsDrained s
  | .commitSwitch => Sys2Proof.Machine.execCommitSwitch s
  | .rtDataHiWrite path v => Sys2Proof.Machine.execRtDataHiWrite path v s
  | .claim port p => Sys2Proof.Machine.execClaim port p s
  | .offer port p => Sys2Proof.Machine.execOffer port p s
  | .accept port p => Sys2Proof.Machine.execAccept port p s
  | .cancel port p => Sys2Proof.Machine.execCancel port p s
  | .ledgerRelease port p => Sys2Proof.Machine.execLedgerRelease port p s
  | .ledgerQuery port p => Sys2Proof.Machine.execLedgerQuery port p s
  | .bar2Access path off op => Sys2Proof.Machine.execBar2Access path off op s
  | .proxyBarAccess path off op => Sys2Proof.Machine.execProxyBarAccess path off op s
  | .hdmCommit hp d base size ways => Sys2Proof.Machine.execHdmCommit hp d base size ways s
  | .proxyFlr path => Sys2Proof.Machine.execProxyFlr path s
  | .flr path => Sys2Proof.Machine.execFlr path s
  | .pciePortReset hp cause => Sys2Proof.Machine.execPciePortReset hp cause s
  | .map path v => Sys2Proof.Machine.execMap path v s
  | .unmap path v => Sys2Proof.Machine.execUnmap path v s
  | .mapQuery path v => Sys2Proof.Machine.execMapQuery path v s
  | .mapInval path v => Sys2Proof.Machine.execMapInval path v s
  | .asidCfgWrite path v => Sys2Proof.Machine.execAsidCfgWrite path v s
  | .atsInvalidate hp fn pasid addr pages tag => Sys2Proof.Machine.execAtsInvalidate hp fn pasid addr pages tag s
  | .atsInvalComplete hp tag => Sys2Proof.Machine.execAtsInvalComplete hp tag s
  | .dmaStart path ch v => Sys2Proof.Machine.execDmaStart path ch v s
  | .dmaChannelRun eng => Sys2Proof.Machine.execDmaChannelRun eng s
  | .prgResponse eng ch code => Sys2Proof.Machine.execPrgResponse eng ch code s
  | .dmaComplete eng ch => Sys2Proof.Machine.execDmaComplete eng ch s
  | .dmaAbort path ch v => Sys2Proof.Machine.execDmaAbort path ch v s
  | .dmaResume path ch v => Sys2Proof.Machine.execDmaResume path ch v s
  | .dmaAssignWrite path v => Sys2Proof.Machine.execDmaAssignWrite path v s
  | .partCreate path v => Sys2Proof.Machine.execPartCreate path v s
  | .partDestroy path v => Sys2Proof.Machine.execPartDestroy path v s
  | .partCtlReset path v => Sys2Proof.Machine.execPartCtlReset path v s
  | .partResetWorkEnded part => Sys2Proof.Machine.execPartResetWorkEnded part s
  | .partResetTagsDrained part => Sys2Proof.Machine.execPartResetTagsDrained part s
  | .partResetWalkEnded part => Sys2Proof.Machine.execPartResetWalkEnded part s
  | .fnMapWrite path v => Sys2Proof.Machine.execFnMapWrite path v s
  | .vecMaskWrite path q v => Sys2Proof.Machine.execVecMaskWrite path q v s
  | .reelReset path v => Sys2Proof.Machine.execReelReset path v s
  | .reelResetEnd reel => Sys2Proof.Machine.execReelResetEnd reel s
  | .registerWrite path off data => Sys2Proof.Machine.execRegisterWrite path off data s
  | .lockkeyWrite path v => Sys2Proof.Machine.execLockkeyWrite path v s
  | .statusW1cWrite path which v => Sys2Proof.Machine.execStatusW1cWrite path which v s
  | .parityFaultWrite path v => Sys2Proof.Machine.execParityFaultWrite path v s
  | .parityInjectWrite path v => Sys2Proof.Machine.execParityInjectWrite path v s
  | .hubIntMaskWrite path v => Sys2Proof.Machine.execHubIntMaskWrite path v s
  | .takeWinRead path => Sys2Proof.Machine.execTakeWinRead path s
  | .takeCapture => Sys2Proof.Machine.execTakeCapture s
  | .takeSwWrite path v => Sys2Proof.Machine.execTakeSwWrite path v s
  | .takeCursorWrite path v => Sys2Proof.Machine.execTakeCursorWrite path v s
  | .takeAckWrite path v => Sys2Proof.Machine.execTakeAckWrite path v s
  | .flashProgramFail ch die => Sys2Proof.Machine.execFlashProgramFail ch die s
  | .flcCtlWrite path v => Sys2Proof.Machine.execFlcCtlWrite path v s
  | .snapshotStreamEnd => Sys2Proof.Machine.execSnapshotStreamEnd s
  | .pwrokRise => Sys2Proof.Machine.execPwrokRise s
  | .pwrokFall => Sys2Proof.Machine.execPwrokFall s
  | .resetN => Sys2Proof.Machine.execResetN s
  | .hubResetGo path v => Sys2Proof.Machine.execHubResetGo path v s
  | .fwVerified a b => Sys2Proof.Machine.execFwVerified a b s
  | .clocksLocked ok => Sys2Proof.Machine.execClocksLocked ok s
  | .memoryTrained hbm ddrGiB flashTib dies => Sys2Proof.Machine.execMemoryTrained hbm ddrGiB flashTib dies s
  | .imageLoad path v spi => Sys2Proof.Machine.execImageLoad path v spi s
  | .imageApplied => Sys2Proof.Machine.execImageApplied s
  | .linksTrained fab pcie => Sys2Proof.Machine.execLinksTrained fab pcie s
  | .hubJoin => Sys2Proof.Machine.execHubJoin s
  | .loadFw path v img => Sys2Proof.Machine.execLoadFw path v img s
  | .reload path v spi => Sys2Proof.Machine.execReload path v spi s
  | .reloadDrainExpire => Sys2Proof.Machine.execReloadDrainExpire s
  | .reloadDrained => Sys2Proof.Machine.execReloadDrained s
  | .reloadWalkEnd => Sys2Proof.Machine.execReloadWalkEnd s
  | .reloadPagesMoved => Sys2Proof.Machine.execReloadPagesMoved s
  | .reloadPortsUp => Sys2Proof.Machine.execReloadPortsUp s
  | .lcTransition path v => Sys2Proof.Machine.execLcTransition path v s
  | .lcDebugOpen path v => Sys2Proof.Machine.execLcDebugOpen path v s
  | .lcNewNonce path v => Sys2Proof.Machine.execLcNewNonce path v s
  | .jtagAccess op => Sys2Proof.Machine.execJtagAccess op s
  | .getCert via => Sys2Proof.Machine.execGetCert via s
  | .getReport via nonce => Sys2Proof.Machine.execGetReport via nonce s
  | .glitchTrip => Sys2Proof.Machine.execGlitchTrip s
  | .clockLoss => Sys2Proof.Machine.execClockLoss s
  | .sdsRefclkLoss => Sys2Proof.Machine.execSdsRefclkLoss s
  | .throttleStart die power vrhot => Sys2Proof.Machine.execThrottleStart die power vrhot s
  | .throttleEnd => Sys2Proof.Machine.execThrottleEnd s
  | .hbmHot k temp => Sys2Proof.Machine.execHbmHot k temp s
  | .thermalTrip => Sys2Proof.Machine.execThermalTrip s
  | .lendNoticeExpire borrower => Sys2Proof.Machine.execLendNoticeExpire borrower s
  | .recallInv port p => Sys2Proof.Machine.execRecallInv port p s
  | .recallShare port p => Sys2Proof.Machine.execRecallShare port p s
  | .data port p => Sys2Proof.Machine.execData port p s
  | .cmp port p => Sys2Proof.Machine.execCmp port p s
  | .pcieLinkUp fit => Sys2Proof.Machine.execPcieLinkUp fit s
  | .configRequest path op => Sys2Proof.Machine.execConfigRequest path op s
  | .cxlMailboxCommand hp op => Sys2Proof.Machine.execCxlMailboxCommand hp op s
  | .snapshotPageStreamed => Sys2Proof.Machine.execSnapshotPageStreamed s
  | .hbmCool k temp => Sys2Proof.Machine.execHbmCool k temp s
  | .sdsRefclkReturn => Sys2Proof.Machine.execSdsRefclkReturn s
  | .supplyRailsGood => Sys2Proof.Machine.execSupplyRailsGood s
  | .powerLoss => Sys2Proof.Machine.execPowerLoss s

end Sys2Proof.Machine
end

