-- ==== Sys2Proof/Safety.lean ====
section
/-! DEFINITION. What claims call a safe state (store memory in its canonical form, the hub's interrupts told), and the words in which they
say when a command is taken and how it ends. -/

namespace Sys2Proof.Machine

open Sys2Proof

/-- Store memory in its one canonical form: offsets strictly rising, no byte listed that reads as an unlisted one (log entry 23). -/
def Memory.wf (m : NMap Byte) : Bool := sorted m && m.all fun c => c.2 != 0

/-- The hub has told its unmasked conditions (R469): the set it last sent for is the unmasked set that stands. -/
def intsTold (s : State) : Bool := !alive s || s.mgmt.intSent == hubIntStatus s &&& ~~~(rget s Reg.hubIntMask 0)

/-- The hub's interrupts are brought up to date as a command ends (R469); a hub that does not run tells nothing. -/
def told (s : State) : State := if alive s then hubInt s else s

/-- How every command of a hub that runs ends: what it set free goes on, then the hub interrupts are brought up to date (R155, R295, R310, R334, R469). -/
def finish (s : State) : State := told (setFree s)

/-- Nothing waits behind a line of the directory or at a PCIe port, no cue store and no fabric doorbell is held, no broadcast is staged and no index waits
to be made: no command sets anything else free. -/
def Quiet (s : State) : Prop :=
  s.coh.waiting = [] ∧ s.ord.held = [] ∧ s.ord.bells = [] ∧ s.host.portQ = [] ∧ s.eng.bcasts = [] ∧ (s.eng.idxs.any fun x => x.2.making) = false

/-- A write on a path to the register at an offset reaches instance i of it, and may change it (R445 to R450): every earlier posted write of its port has
been performed (R295). -/
def Reaches (s : State) (path : Path) (off i : Nat) : Prop :=
  alive s = true ∧ regTarget s path off = .at i ∧
    (isVf path && (match regRow off with | some row => row.vfIgn || off == Reg.partSel | none => true)) = false ∧ portBlocked s path = false

/-- A command register of unit u takes the operation op that a value names (R39, R429, R463, R465): the write reaches it, it is not BUSY, its
partition's intake runs, registers pass their parity check and its unit is in service. -/
def Accepts (s : State) (path : Path) (r op u : Nat) (v : W32) (i : Nat) : Prop :=
  Reaches s path r i ∧ parityGood s = true ∧ cmdBusy s r i = false ∧ cmdOp v = op ∧ (0x100000 ≤ r → intakeStopped s i = false) ∧
    unitStopped s u (if 0x100000 ≤ r then some i else none) = false

/-- The state as a command finds it once its register holds the written value and the unlock of the path is used up (R40, R459). -/
def taken (path : Path) (r i : Nat) (v : W32) (s : State) : State := cfgStore r i v (useUnlock path s)

/-- A packet that this hub itself is to serve or to take arrives on a port in service while the hub runs and registers pass their parity check
(R355, R463, R465). -/
def Arrives (s : State) (port : Nat) (p : Packet) : Prop := alive s = true ∧ p.dst.toNat = selfEp s ∧ parityGood s = true ∧ portStopped s port = false

/-- Descriptor seq of a queue stands started with opcode op: its operation may run (R165, R173). -/
def Runs (s : State) (q : QueueNum) (seq : W32) (op : Nat) (d : Desc) : Prop :=
  alive s = true ∧ descOf s q.toNat seq.toNat = some d ∧ d.stage = .started ∧ (d.bytes.getD 0 0).toNat = op

/-- Every byte of some ranges stands beside a running descriptor: it goes on as d1 in state s1 (R161, R165). -/
def Reads (q : QueueNum) (seq : W32) (rs : List (Nat × Nat)) (s : State) (d1 : Desc) (s1 : State) : Prop :=
  opFetch q.toNat seq.toNat rs s = (true, s1) ∧ descOf s1 q.toNat seq.toNat = some d1

/-- A descriptor whose operation has run to its end with a COUNT: its stage and COUNT move on, unless it had ended before; it keeps its number, bytes
and statuses (R173). -/
def Ended (u : State) (q : QueueNum) (seq : W32) (d : Desc) (n : Nat) : Prop :=
  descOf u q.toNat seq.toNat = some (if d.stage = .started ∨ d.stage = .waiting then { d with count := n, stage := .ran } else d)

end Sys2Proof.Machine
end

