-- ==== Sys2Proof/Certificates/Slice0/Obligations.lean ====
section
/-! DEFINITION. The statements for the provers. -/

open Sys2Proof Sys2Proof.Machine

/-- O1. For every command c and state s with c at the front of its queue, step of s is exec of c on s with the queue's rest. Rests on choices of the
model (log entries 1 and 12), besides the spec. -/
def Obligations.StepRunsFrontCommand : Prop :=
  ∀ (c : Instr) (rest : List Instr) (s : State), s.pending = c :: rest → step s = exec c { s with pending := rest }

/-- O2. ALLOC_CREATE of a free range with allowed flags enters an allocation with the flags and sizes of its operand registers, reads back its number
with STATUS OK, and every byte of its range then reads 0 while every other byte reads as before; ALLOC_DESTROY drops the named allocation with its
projector and stays BUSY, and where no write is held for a moving page it leaves the allocation draining and changes no byte; ALLOC_PAGES_RETURNED
removes a destroyed allocation that nothing uses, with its pages, and ends the command that named it with OK; SET_FLAGS of allowed flags ends with OK,
and where no write is held for a moving page it stores the flags and the wider copy of the operand registers, reverts the widening where WIDEN_OK
goes, keeps the allocation's range and owner and changes no byte. Rests on choices of the model (log entries 23, 34, 154 and 155), besides the spec.
-/
def Obligations.AllocationCommands : Prop :=
  (∀ (s : State) (path : Path) (v : W32) (i : Nat), Accepts s path Reg.allocCmd 1 1 v i →
    let s1 := taken path Reg.allocCmd i v s
    let base := allocBase s1 i
    let n := rfld s1 Reg.allocSize i 0 29
    let f := clearMask s1 (rget s1 Reg.allocFlags i)
    ∀ (ls : List (Nat × Nat)) (s2 : State),
      rangeOk s1 base n = true → flagsBad f (wideNum s1 i).isSome = false → wideBad s1 i f = false →
      (if fProject f then readLayers i ((rget s1 Reg.projLayersLo i).toNat + rfld s1 Reg.projLayersHi i 0 18 * 2 ^ 32) (rfld s1 Reg.projNlayers i 0 13) s1
        else (some [], s1)) = (some ls, s2) →
      (fProject f && (layersBad ls n || decide (4096 < rfld s1 Reg.projNlayers i 0 13) || rfld s1 Reg.projCfg i 0 8 == 0)) = false →
      s2.store.allocs.length < 65536 → n ≤ (pageTiers s2 i f n).length →
      (if fProject f then windowTier s2 i f (rfld s1 Reg.projCfg i 0 8 * slotPagesOf ls) else some 0).isSome →
      ∃ u, exec (.allocCreate path v) s = .next (finish u) ∧
        allocOf u (freeKeyFrom 0 s2.store.allocs) = some { part := i, base := base, pages := n, flags := f, wide := wideNum s2 i, wideFmt := wideFmt s2 i, wideSoff := wideSoff s2 i, widened := false, reverting := false, fails := [0], draining := false } ∧
        fld (rget u Reg.allocCmd i) 4 1 = 0 ∧ fld (rget u Reg.allocCmd i) 8 8 = Status.ok.code ∧
        fld (rget u Reg.allocCmd i) 16 16 = freeKeyFrom 0 s2.store.allocs % 2 ^ 16 ∧
        ∀ a, byteAt u a = if base * pageSize ≤ a ∧ a < base * pageSize + n * pageSize then 0 else byteAt s2 a) ∧
  (∀ (s : State) (path : Path) (v : W32) (i num : Nat) (al : Alloc), Accepts s path Reg.allocCmd 2 1 v i →
    let s1 := taken path Reg.allocCmd i v s
    rfld s1 Reg.allocCmd i 16 16 = num → allocOf s num = some al → al.draining = false → al.part = i →
      ∃ u, exec (.allocDestroy path v) s = .next (finish u) ∧ u = setBusy Reg.allocCmd i true (allocDrop num s1) ∧
        fld (rget u Reg.allocCmd i) 4 1 = 1 ∧ mget num u.store.projs = none ∧
        ((∀ m ∈ s.store.moves, m.2.held = []) → allocOf u num = some { al with draining := true } ∧ ∀ a, byteAt u a = byteAt s a)) ∧
  (∀ (s : State) (num : BitVec 16) (al : Alloc), alive s = true → allocOf s num.toNat = some al → al.draining = true → allocInUse s al = false →
    ∃ u, exec (.allocPagesReturned num) s = .next (finish u) ∧ allocOf u num.toNat = none ∧ (∀ pg ∈ u.store.pages, pg.2.alloc ≠ num.toNat) ∧
      (cmdBusy s Reg.allocCmd al.part = true → rfld s Reg.allocCmd al.part 16 16 = num.toNat →
        fld (rget u Reg.allocCmd al.part) 4 1 = 0 ∧ fld (rget u Reg.allocCmd al.part) 8 8 = Status.ok.code)) ∧
  (∀ (s : State) (path : Path) (v : W32) (i num : Nat) (al : Alloc), Accepts s path Reg.allocCmd 3 1 v i →
    let s1 := taken path Reg.allocCmd i v s
    let f := clearMask s1 (rget s1 Reg.allocFlags i)
    rfld s1 Reg.allocCmd i 16 16 = num → allocOf s num = some al → al.draining = false → al.part = i →
    (f ^^^ al.flags) &&& ~~~setFlagsMay = 0 → flagsBad f (wideNum s1 i).isSome = false → wideBad s1 i f = false →
      ∃ u, exec (.setFlags path v) s = .next (finish u) ∧
        fld (rget u Reg.allocCmd i) 4 1 = 0 ∧ fld (rget u Reg.allocCmd i) 8 8 = Status.ok.code ∧
        ((∀ m ∈ s.store.moves, m.2.held = []) →
          allocOf u num = some { (if fWidenOk al.flags && !fWidenOk f then revertWide al else al) with flags := f, wide := wideNum s1 i, wideFmt := wideFmt s1 i, wideSoff := wideSoff s1 i } ∧
            ∀ a, byteAt u a = byteAt s a))

/-- O3. PROJ_STOP stops the named projector and drops its copies, its window staying reserved; PROJ_RESTART, once the layer table is read and fits and
its window is reserved or has room, starts it again from fetch 0 with the operand registers; PROJ_FETCH_START of a projector with a free slot begins
the copy and drops what the slot held; PROJ_FETCH_DONE makes the layer resident in its slot, advances the fetch number and adds 1 to the READY tally;
none of them changes a byte of store memory, but for what a watch of that tally does. Rests on choices of the model (log entry 155), besides the spec.
-/
def Obligations.ProjectorCommands : Prop :=
  (∀ (s : State) (path : Path) (v : W32) (i num : Nat) (al : Alloc) (pr : Proj), Accepts s path Reg.allocCmd 5 1 v i →
    let s1 := taken path Reg.allocCmd i v s
    rfld s1 Reg.allocCmd i 16 16 = num → allocOf s num = some al → al.draining = false → al.part = i → mget num s.store.projs = some pr →
      ∃ u, exec (.projStop path v) s = .next (finish u) ∧ mget num u.store.projs = some { pr with running := false, copying := false, resident := [] } ∧
        fld (rget u Reg.allocCmd i) 8 8 = Status.ok.code ∧ fld (rget u Reg.allocCmd i) 4 1 = 0 ∧ ∀ a, byteAt u a = byteAt s a) ∧
  (∀ (s : State) (path : Path) (v : W32) (i num : Nat) (al : Alloc) (pr : Proj) (ls : List (Nat × Nat)) (s2 : State), Accepts s path Reg.allocCmd 4 1 v i →
    let s1 := taken path Reg.allocCmd i v s
    rfld s1 Reg.allocCmd i 16 16 = num → allocOf s num = some al → al.draining = false → al.part = i → mget num s.store.projs = some pr →
    readLayers i pr.tableOff pr.layers.length (projNamed i num s1) = (some ls, s2) → layersBad ls al.pages = false → slotPagesOf ls ≤ pr.slotPages →
    (pr.reserved = true ∨ pr.window * pr.slotPages ≤ min (quotaFree s2 al.part pr.winTier) (tierFree s2 pr.winTier)) →
      ∃ u, exec (.projRestart path v) s = .next (finish u) ∧
        mget num u.store.projs = (mget num s2.store.projs).map (fun p => { p with
          layers := ls, consumers := rfld s2 Reg.projCfg i 8 16, readyTally := rfld s2 Reg.projTally i 0 16, doneTally := rfld s2 Reg.projTally i 16 16,
          k := 0, copying := false, running := true, reserved := true, resident := [] }) ∧
        fld (rget u Reg.allocCmd i) 8 8 = Status.ok.code ∧ fld (rget u Reg.allocCmd i) 4 1 = 0 ∧ ∀ a, byteAt u a = byteAt s2 a) ∧
  (∀ (s : State) (num : BitVec 16) (al : Alloc) (pr : Proj), alive s = true → mget num.toNat s.store.projs = some pr → allocOf s num.toNat = some al →
    pr.running = true → pr.copying = false →
    (pr.window ≤ pr.k → tallyPart s pr.doneTally = some al.part ∧ reached (tallyVal s pr.doneTally) (w32 (pr.consumers * (pr.k - pr.window + 1))) = true) →
      ∃ u, exec (.projFetchStart num) s = .next (finish u) ∧
        mget num.toNat u.store.projs = some { pr with copying := true, resident := pr.resident.filter fun r => r.1 ≠ pr.k % pr.window } ∧
        u.regs = s.regs ∧ ∀ a, byteAt u a = byteAt s a) ∧
  (∀ (s : State) (num : BitVec 16) (al : Alloc) (pr : Proj), alive s = true → mget num.toNat s.store.projs = some pr → allocOf s num.toNat = some al →
    pr.running = true → pr.copying = true → tallyPart s pr.readyTally = some al.part →
      ∃ t, exec (.projFetchDone num) s = .next (finish (tallyAddTo pr.readyTally 1 t)) ∧
        mget num.toNat t.store.projs = some { pr with copying := false, k := pr.k + 1, resident := pr.resident ++ [(pr.k % pr.window, pr.k % pr.layers.length)] } ∧
        t.regs = s.regs ∧ t.ord = s.ord ∧ ∀ a, byteAt t a = byteAt s a)

/-- O4. A write of a TIER_QUOTA register that reaches it stores the value, and then each replica of the partition in the tier starts to retire while
the partition is still over its quota; WIDE_CTL with REVERT marks a widened allocation of the partition for reversal and changes no other allocation
and no byte; WIDEN marks an allocation as widened, counts it and raises the trigger once the failures of the ended ticks of its window reach the
threshold. Rests on choices of the model (log entries 107, 108, 156 and 157), besides the spec. -/
def Obligations.QuotaAndWidening : Prop :=
  (∀ (s : State) (path : Path) (t : Fin 6) (v : W32) (i : Nat), Reaches s path (Reg.tierQuota + 4 * t) i →
    let s1 := taken path (Reg.tierQuota + 4 * t) i v s
    exec (.tierQuotaWrite path t v) s = .next (finish (s1.rows.replicas.foldl (fun s r =>
      if r.2.part = i ∧ r.2.tier = t.val ∧ r.2.retiring = false ∧ quota s i t < occKept s i t then
        { s with rows := { s.rows with replicas := mmod r.1 (fun x => { x with retiring := true }) s.rows.replicas } } else s) s1))) ∧
  (∀ (s : State) (path : Path) (v : W32) (i : Nat), Reaches s path Reg.wideCtl i →
    ∃ u, exec (.wideCtlRevert path v) s = .next (finish u) ∧
      (∀ num al, allocOf s num = some al →
        allocOf u num = some (if bit v 17 = true ∧ num = fld v 0 16 ∧ al.part = i ∧ al.widened = true then { al with reverting := true } else al)) ∧
      ∀ a, byteAt u a = byteAt s a) ∧
  (∀ (s : State) (num : BitVec 16) (al : Alloc), alive s = true → allocOf s num.toNat = some al → al.draining = false → fWidenOk al.flags = true →
    al.widened = false → rfld s Reg.beWiden 0 0 16 ≠ 0 → unitStopped s 1 (some al.part) = false →
    rfld s Reg.beWiden 0 0 16 ≤ ((al.fails.drop 1).take (max 1 (rfld s Reg.beWiden 0 16 8))).sum →
      ∃ u, exec (.widen num) s = .next (finish (trigger 9 (w64 num.toNat) (some al.part) 0 u)) ∧
        allocOf u num.toNat = some { al with widened := true, reverting := false } ∧
        cget u Reg.widenCount al.part = min (cget s Reg.widenCount al.part + 1) 0xFFFFFFFF ∧ ∀ a, byteAt u a = byteAt s a)

/-- O5. HOSTX_LEND of an extent number that is free, with the host tier enabled, at least one page and a notice of at most 10,000 ms, enters the
extent of the operand registers with STATUS OK and changes no byte; HOSTX_NOTICE on a lent extent sets BUSY and withdraws it; EXTENT_RELEASE of a
withdrawn extent in which no page and no old place of one lies, and NOTICE_PERIOD_END of one whose notice has run out, release it, and a host extent
is then no longer held. Rests on choices of the model (log entries 94 and 147), besides the spec. -/
def Obligations.LentExtentCommands : Prop :=
  (∀ (s : State) (path : Path) (v : W32) (i : Nat), Accepts s path Reg.hostxCmd 1 1 (v &&& 0xFFFFFFFB) i →
    let s1 := taken path Reg.hostxCmd i (v &&& 0xFFFFFFFB) s
    tierDisabled s1 4 = false → rfld s1 Reg.hostxSize 0 0 28 ≠ 0 → rfld s1 Reg.hostxNotice 0 0 14 ≤ 10000 → extOf s1 (hostxExt s1) = none →
      ∃ u, exec (.hostxLend path v) s = .next (finish u) ∧
        u.store.extents = s.store.extents ++ [(hostxExt s1,
          { lender := match hostxExt s1 with | .host p _ => p.val | .loan _ => 0
            addr := (rget s1 Reg.hostxAddrLo 0).toNat + (rget s1 Reg.hostxAddrHi 0).toNat * 2 ^ 32, pages := rfld s1 Reg.hostxSize 0 0 28
            noticeMs := rfld s1 Reg.hostxNotice 0 0 14, withdrawn := false, edges := 0, released := false })] ∧
        fld (rget u Reg.hostxCmd 0) 8 8 = Status.ok.code ∧ fld (rget u Reg.hostxCmd 0) 4 1 = 0 ∧ ∀ a, byteAt u a = byteAt s a) ∧
  (∀ (s : State) (path : Path) (v : W32) (i : Nat) (x : Extent), Accepts s path Reg.hostxCmd 2 noUnit (v &&& 0xFFFFFFFB) i →
    let s1 := taken path Reg.hostxCmd i (v &&& 0xFFFFFFFB) s
    extOf s1 (hostxExt s1) = some x →
      exec (.hostxNotice path v) s = .next (finish (withdraw (hostxExt s1) (setBusy Reg.hostxCmd 0 true s1)))) ∧
  (∀ (s : State) (e : ExtId) (x : Extent), alive s = true → extOf s e = some x → x.withdrawn = true → x.released = false →
    (extPages s e).isEmpty = true → (s.store.oldLocs.any fun o => o.loc == .ext e) = false →
      exec (.extentRelease e) s = .next (finish (extRelease e s))) ∧
  (∀ (s : State) (e : ExtId) (x : Extent), alive s = true → extOf s e = some x → x.withdrawn = true → x.released = false →
    noticeOver s e x = true → exec (.noticePeriodEnd e) s = .next (finish (extRelease e s))) ∧
  (∀ (s : State) (p : Fin 2) (n : Fin 64), extOf (extRelease (.host p n) s) (.host p n) = none)

/-- O6. A pass that ends with nothing dirtied makes the page's move ready; a disturbed pass before the third starts another; the third disturbed pass
of a forced move makes the next one hold writes, and that of a placement move, where no write is held, is abandoned, counted, and the page is left
alone for 16 ticks; a pass that met a failed write takes the failure's path; PAGE_SWITCH of a page whose move is ready gives the page its new place,
keeps the old one until released, ends the move, counts it and applies the held writes; OLD_LOCATION_RELEASE frees every old place of the page and
changes no byte. Rests on choices of the model (log entries 99, 115 and 148), besides the spec. -/
def Obligations.PageMoveEvents : Prop :=
  (∀ (s : State) (page : PageNum) (found : Media) (m : Move), alive s = true → mget page.toNat s.store.moves = some m → m.ready = false →
    found = .good ∨ found = .corrected →
      ((m.heldPass = true ∨ m.dirty = []) → ∃ u, exec (.pageMovePassEnd page found) s = .next (finish u) ∧
        mget page.toNat u.store.moves = some { m with ready := true, dirty := [] } ∧ u.regs = s.regs ∧ ∀ a, byteAt u a = byteAt s a) ∧
      (m.heldPass = false → m.dirty ≠ [] → m.pass < 3 → ∃ u, exec (.pageMovePassEnd page found) s = .next (finish u) ∧
        mget page.toNat u.store.moves = some { m with pass := m.pass + 1, dirty := [] } ∧ u.regs = s.regs ∧ ∀ a, byteAt u a = byteAt s a) ∧
      (m.heldPass = false → m.dirty ≠ [] → 3 ≤ m.pass → m.kind.forced = true → ∃ u, exec (.pageMovePassEnd page found) s = .next (finish u) ∧
        mget page.toNat u.store.moves = some { m with heldPass := true } ∧ u.regs = s.regs ∧ ∀ a, byteAt u a = byteAt s a) ∧
      (m.heldPass = false → m.dirty ≠ [] → 3 ≤ m.pass → m.kind.forced = false → (∀ x ∈ s.store.moves, x.2.held = []) →
        ∃ u, exec (.pageMovePassEnd page found) s = .next (finish u) ∧ mget page.toNat u.store.moves = none ∧
          mget page.toNat u.store.pages = (mget page.toNat s.store.pages).map (fun p => { p with retryAt := s.boot.tick + 16 }) ∧
          cget u Reg.migAbandoned (partAt s (page.toNat * pageSize)) = min (cget s Reg.migAbandoned (partAt s (page.toNat * pageSize)) + 1) 0xFFFFFFFF ∧
          ∀ a, byteAt u a = byteAt s a)) ∧
  (∀ (s : State) (page : PageNum) (found : Media) (m : Move), alive s = true → mget page.toNat s.store.moves = some m → m.ready = false →
    found = .failed ∨ found = .crcFailed → exec (.pageMovePassEnd page found) s = .next (finish (moveFailed page.toNat m s))) ∧
  (∀ (s : State) (page : PageNum) (m : Move), alive s = true → mget page.toNat s.store.moves = some m → m.ready = true →
    ∃ t, exec (.pageSwitch page) s = .next (finish (runHeldAll m.held (moveCounts m t))) ∧ mget page.toNat t.store.moves = none ∧
      (⟨page.toNat, partAt (if codecTier m.dstTier then s else rawPage page.toNat s) (page.toNat * pageSize), m.srcTier, m.srcLoc⟩ : OldLoc) ∈ t.store.oldLocs ∧
      mget page.toNat t.store.pages =
        (mget page.toNat (if codecTier m.dstTier then s else rawPage page.toNat s).store.pages).map (fun p => { p with tier := m.dstTier, loc := m.dstLoc })) ∧
  (∀ (s : State) (page : PageNum), alive s = true →
    ∃ u, exec (.oldLocationRelease page) s = .next (finish u) ∧ (∀ o, o ∈ u.store.oldLocs ↔ o ∈ s.store.oldLocs ∧ o.page ≠ page.toNat) ∧
      u.regs = s.regs ∧ ∀ a, byteAt u a = byteAt s a)

/-- O7. A row copy that nothing disturbed lets the row switch, a disturbed one before the third is repeated, and the third is abandoned, counted for
the table's partition, and the row is left alone for 16 ticks; ROW_SWITCH of a ready row changes the row map in one step and counts it;
ROW_OLD_RELEASE frees the slot left behind; none of them changes a byte of store memory. Rests on choices of the model (log entries 115 and 146),
besides the spec. -/
def Obligations.RowMoveEvents : Prop :=
  (∀ (s : State) (table : BitVec 14) (row : BitVec 40) (m : RowMove), alive s = true → mget (rowKey table.toNat row.toNat) s.rows.moves = some m → m.ready = false →
    (m.disturbed = false → ∃ u, exec (.rowCopyEnd table row) s = .next (finish u) ∧
      mget (rowKey table.toNat row.toNat) u.rows.moves = some { m with ready := true } ∧ u.store = s.store ∧ u.regs = s.regs) ∧
    (m.disturbed = true → m.copies < 3 → ∃ u, exec (.rowCopyEnd table row) s = .next (finish u) ∧
      mget (rowKey table.toNat row.toNat) u.rows.moves = some { m with copies := m.copies + 1, disturbed := false } ∧ u.store = s.store ∧ u.regs = s.regs) ∧
    (m.disturbed = true → 3 ≤ m.copies → ∃ u, exec (.rowCopyEnd table row) s = .next (finish u) ∧
      mget (rowKey table.toNat row.toNat) u.rows.moves = none ∧ mget (rowKey table.toNat row.toNat) u.rows.retryAt = some (s.boot.tick + 16) ∧
      cget u Reg.rowAbandoned (tablePart s m.table) = min (cget s Reg.rowAbandoned (tablePart s m.table) + 1) 0xFFFFFFFF ∧ u.store = s.store ∧ u.regs = s.regs)) ∧
  (∀ (s : State) (table : BitVec 14) (row : BitVec 40) (m : RowMove), alive s = true → mget (rowKey table.toNat row.toNat) s.rows.moves = some m → m.ready = true →
    ∃ u, exec (.rowSwitch table row) s = .next (finish u) ∧ mget (rowKey table.toNat row.toNat) u.rows.moves = none ∧
      mget (rowKey table.toNat row.toNat) u.rows.slots = (if m.toSlot then some m.tier else none) ∧
      (m.toSlot = false → mget (rowKey table.toNat row.toNat) u.rows.old = some m.tier) ∧
      cget u Reg.beRowMoved 0 = min (cget s Reg.beRowMoved 0 + 1) 0xFFFFFFFF ∧ u.store = s.store ∧ u.regs = s.regs) ∧
  (∀ (s : State) (table : BitVec 14) (row : BitVec 40), alive s = true →
    ∃ u, exec (.rowOldRelease table row) s = .next (finish u) ∧ mget (rowKey table.toNat row.toNat) u.rows.old = none ∧
      (∀ k, k ≠ rowKey table.toNat row.toNat → mget k u.rows.old = mget k s.rows.old) ∧ u.store = s.store ∧ u.regs = s.regs)

/-- O8. The grant that its owner sends to this hub takes a replica slot of the first of the stage and HBM tiers that has quota and capacity; a grant
that this hub, the row's owner, may make is noted, and the row is sent with the running kernel's broadcast of its table or, without one, at once,
while one for a row that is moving is deferred; REPLICA_FILL stores the row's bytes and poison and counts it; REPLICA_RETIRE releases the replica, and
no other, and counts it; an expired PREFETCH range is dropped and counted for its partition. None but the grants to other hubs changes store memory.
Rests on choices of the model (log entries 124 and 157), besides the spec. -/
def Obligations.ReplicaEvents : Prop :=
  (∀ (s : State) (ep : Endpoint) (table : BitVec 14) (row : BitVec 40) (t : Table) (x : Nat), alive s = true → mget (keyOf table row / 2 ^ 40) s.eng.tables = some t →
    t.mode = 2 → t.ending = false → keyOf table row % 2 ^ 40 < tblRows t.image → ep.toNat = selfEp s →
    (tblMember t.image && rowOwner t.image (keyOf table row % 2 ^ 40) == tblSelf t.image) = false →
    mhas (keyOf table row) s.rows.replicas = false → s.rows.replicas.length < replicaLimit →
    let slot := fun x : Nat => ({ table := keyOf table row / 2 ^ 40, row := keyOf table row % 2 ^ 40, part := t.part, tier := x
                                  data := List.replicate (rowWidth t.image) 0, pois := [], filled := false, coldTicks := 0, retiring := false } : Replica)
    let put := fun x : Nat => { s with rows := { s.rows with replicas := mset (keyOf table row) (slot x) s.rows.replicas } }
    let fits := fun x : Nat => occ (put x) t.part x ≤ quota s t.part x ∧ tierUsed (put x) x ≤ tierCap s x
    x = 0 ∨ x = 1 → fits x → (x = 1 → ¬fits 0) → exec (.replicaGrant ep table row) s = .next (finish (put x))) ∧
  (∀ (s : State) (ep : Endpoint) (table : BitVec 14) (row : BitVec 40) (t : Table), alive s = true → mget (keyOf table row / 2 ^ 40) s.eng.tables = some t →
    t.mode = 2 → t.ending = false → keyOf table row % 2 ^ 40 < tblRows t.image → ep.toNat ≠ selfEp s →
    (tblMember t.image && rowOwner t.image (keyOf table row % 2 ^ 40) == tblSelf t.image) = true →
    let k := keyOf table row
    s.rows.granted.contains (k, ep.toNat) = false → t.banned.contains ep.toNat = false → (s.rows.granted.filter fun g => g.1 == k).length < s.rows.replMax →
    placeStopped s t.part = false → s.rows.on = true →
    let s1 := { s with rows := { s.rows with granted := s.rows.granted ++ [(k, ep.toNat)] } }
    let kernel := s.eng.queues.find? fun q => q.2.inKernel && ((q.2.bset.any fun b => b.1 == k / 2 ^ 40)
      || q.2.descs.any fun d => d.opcode == 0x21 && d.f 1 0 14 == k / 2 ^ 40 && [DescStage.started, .waiting, .ran].contains d.stage)
    let sent := rowPackets t.part ep.toNat t (k % 2 ^ 40) s1
    (mhas k s.rows.moves = true → s.rows.deferred.contains (k, ep.toNat) = false →
      exec (.replicaGrant ep table row) s = .next (finish { s with rows := { s.rows with deferred := s.rows.deferred ++ [(k, ep.toNat)] } })) ∧
    (mhas k s.rows.moves = false → ∀ q, kernel = some q → exec (.replicaGrant ep table row) s = .next (finish
      (queueSet q.1 (fun x => { x with bset := if x.bset.contains (k / 2 ^ 40, k % 2 ^ 40) then x.bset else x.bset ++ [(k / 2 ^ 40, k % 2 ^ 40)] }) s1))) ∧
    (mhas k s.rows.moves = false → kernel = none → exec (.replicaGrant ep table row) s = .next (finish
      (sent.1.foldl (fun s p => (sendReq (mkReq p none 1 t.part .hub) s).2) sent.2)))) ∧
  (∀ (s : State) (table : BitVec 14) (row : BitVec 40) (data : List Byte) (poison : List Nat) (r : Replica), alive s = true →
    mget (keyOf table row) s.rows.replicas = some r → r.filled = false → ∃ u, exec (.replicaFill table row data poison) s = .next (finish u) ∧
      mget (keyOf table row) u.rows.replicas = some { r with data := splice r.data 0 data, pois := poison, filled := true } ∧
      cget u Reg.beReplCreated 0 = min (cget s Reg.beReplCreated 0 + 1) 0xFFFFFFFF ∧ u.store = s.store ∧ u.regs = s.regs) ∧
  (∀ (s : State) (table : BitVec 14) (row : BitVec 40), alive s = true → mhas (keyOf table row) s.rows.replicas = true →
    ∃ u, exec (.replicaRetire table row) s = .next (finish u) ∧ mget (keyOf table row) u.rows.replicas = none ∧
      (∀ k, k ≠ keyOf table row → mget k u.rows.replicas = mget k s.rows.replicas) ∧
      cget u Reg.beReplRetired 0 = min (cget s Reg.beReplRetired 0 + 1) 0xFFFFFFFF ∧ u.store = s.store ∧ u.regs = s.regs) ∧
  (∀ (s : State) (r : PfRange), alive s = true → s.store.prefetch.find? (fun r => decide (16 ≤ r.ticks)) = some r →
    ∃ u, exec .prefetchRangeExpire s = .next (finish u) ∧ u.store = { s.store with prefetch := s.store.prefetch.erase r } ∧ u.regs = s.regs ∧
      cget u Reg.adviceDropped r.part = min (cget s Reg.adviceDropped r.part + 1) 0xFFFFFFFF)

/-- O9. SLOW_TICK_EDGE runs the counts of the edge, drops the packets that have waited too long, does what the hub does with memory it lends, checks
registers' parity, folds the heats, ages the dies, counts throttling and plans, in that order, and then refreshes the copies: SLOW_EDGES reads the
tick, the copy of every counter that the edge does not measure afresh reads its live count, and the refresh changes neither the registers nor the
store. Rests on choices of the model (log entries 10, 72 and 89), besides the spec. -/
def Obligations.SlowTickRefreshesCopies : Prop :=
  (∀ s : State, alive s = true →
    exec .slowTickEdge s = .next (finish (refresh (plan (throtTick (ageDies (foldHeats (paritySweep (lendTick (dropWaited (edgeCounts s))))))))))) ∧
  (∀ s : State, mgetD 0 (rkey Reg.slowEdges 0) (refresh s).copies = w32 s.boot.tick ∧ (refresh s).store = s.store ∧ (refresh s).regs = s.regs ∧
    ∀ k, k ∉ (gaugeStore s ++ gaugeEngines (draw s).1 s ++ gaugeFabric s ++ gaugeRel s).map Prod.fst → k ∉ (gaugeSensors (draw s).1 s).map Prod.fst →
      mgetD 0 k (refresh s).copies = mgetD 0 k s.live)

/-- O10. A doorbell not farther ahead of HEAD than the ring is deep sets TAIL, any other is dropped and counted; DQ_CTL sets ENABLE; ABORT clears
ENABLE and ends every fetched or running descriptor with RESET; CLEAR of a disabled idle queue sets HEAD, TAIL and both completion counts to 0;
CQ_HEAD takes a value that is neither ahead of CQ_TAIL nor more than the depth behind it; DQ_MAP takes a value while the slot is disabled, the queue
free and its reel on. A fabric doorbell does the same for the queue it names and is answered, but waits while a store or a doorbell of its source
waits here. Rests on choices of the model (log entries 36, 53 and 54), besides the spec. -/
def Obligations.QueueRegisterCommands : Prop :=
  (∀ (s : State) (path : Path) (slot : Fin 64) (v : W32) (i : Nat), Reaches s path (slotReg Reg.dqDoorbell slot) i →
    let s1 := storeParity (slotReg Reg.dqDoorbell slot) i 2 (useUnlock path s)
    (intakeStopped s1 i = false → doorbellBad s1 i slot v = false →
      ∃ u, exec (.dqDoorbell path slot v) s = .next (finish u) ∧ dqTail u i slot = v ∧ u.store = s.store ∧ u.eng = s.eng) ∧
    (intakeStopped s1 i = true ∨ doorbellBad s1 i slot v = true → exec (.dqDoorbell path slot v) s = .next (finish (badDoorbell i slot s1)))) ∧
  (∀ (s : State) (port : Fin 64) (p : Packet), Arrives s port p →
    storeWaits s p.src.toNat = true ∨ (s.ord.bells.any fun q => q.src == p.src) = true →
      exec (.doorbell port p) s = .next (finish { s with ord := { s.ord with bells := s.ord.bells ++ [p] } })) ∧
  (∀ (s : State) (port : Fin 64) (p : Packet) (part k : Nat), Arrives s port p → storeWaits s p.src.toNat = false →
    (s.ord.bells.any fun q => q.src == p.src) = false → fatal s = false → queueSlot s (fld p.arg 0 12) = some (part, k) →
    fkey s part = p.key → unitStopped s 8 (some part) = false → intakeStopped s part = false →
    (doorbellBad s part k (w32 (fld p.arg 32 32)) = false → exec (.doorbell port p) s =
      .next (finish (reply (ackTo s p .ok 0) (rset (slotReg Reg.dqDoorbell k) part (w32 (fld p.arg 32 32)) s)))) ∧
    (doorbellBad s part k (w32 (fld p.arg 32 32)) = true → exec (.doorbell port p) s =
      .next (finish (reply (ackTo s p .decode 0) (badDoorbell part k s))))) ∧
  (∀ (s : State) (path : Path) (slot : Fin 64) (v : W32) (i : Nat), Reaches s path (slotReg Reg.dqCtl slot) i → bit v 1 = false → bit v 2 = false →
    exec (.dqCtlEnable path slot v) s = .next (finish (taken path (slotReg Reg.dqCtl slot) i (w32 (b2n (bit v 0))) s))) ∧
  (∀ (s : State) (path : Path) (slot : Fin 64) (v : W32) (i q : Nat), Reaches s path (slotReg Reg.dqCtl slot) i → bit v 1 = true → bit v 2 = false →
    slotQueue s i slot = some q →
      ∃ u, exec (.dqCtlAbort path slot v) s = .next (finish u) ∧ u.store = s.store ∧ dqEnabled u i slot = false ∧
        ∀ d ∈ (queueOf u q).descs, d.stage = .completed ∨ (d.stage = .ran ∧ Status.reset ∈ d.statuses)) ∧
  (∀ (s : State) (path : Path) (slot : Fin 64) (v : W32) (i q : Nat), Reaches s path (slotReg Reg.dqCtl slot) i → bit v 1 = false → bit v 2 = true →
    slotQueue s i slot = some q → dqEnabled s i slot = false → queueIdle s q = true →
      ∃ u, exec (.dqCtlClear path slot v) s = .next (finish u) ∧ dqHead u i slot = 0 ∧ dqTail u i slot = 0 ∧ cqHead u i slot = 0 ∧ cqTail u i slot = 0 ∧
        u.store = s.store) ∧
  (∀ (s : State) (path : Path) (slot : Fin 64) (v : W32) (i : Nat), Reaches s path (slotReg Reg.dqCqHead slot) i →
    (cqTail s i slot - v).toNat ≤ ringDepth s i slot →
      exec (.dqCqHeadWrite path slot v) s = .next (finish (taken path (slotReg Reg.dqCqHead slot) i v s))) ∧
  (∀ (s : State) (path : Path) (slot : Fin 64) (v : W32) (i : Nat), Reaches s path (slotReg Reg.dqMap slot) i → dqEnabled s i slot = false →
    (queueSlot s (fld v 0 12) = none ∨ queueSlot s (fld v 0 12) = some (i, slot.val) ∨ bit v 31 = false) → reelOff s (fld v 0 12 / 64) = false →
      exec (.dqMapWrite path slot v) s = .next (finish (taken path (slotReg Reg.dqMap slot) i v s)))

/-- O11. The queue that a reel's sequencer picks among those with a descriptor to fetch and room, the only one if it is alone, reads its next ring
entry and is charged; an entry that has been read whole and clean becomes a fetched descriptor and HEAD advances by 1; a fetched descriptor of the
queue picked that may start is charged and starts with what it samples where its units are in service and its checks pass, and has run with OWNERSHIP
or DECODE where they do not; a descriptor that has run, whose writes were answered where its COUNT or its end needs them, and before which no
KERNEL_END is open, completes; DONE_TALLY counts 1 once the writes are performed and the descriptor goes; a record that the ring takes advances
CQ_TAIL by 1 and raises its vector. Rests on choices of the model (log entries 37 and 101), besides the spec. -/
def Obligations.DescriptorLife : Prop :=
  (∀ (s : State) (q : QueueNum) (part k : Nat), alive s = true → queueSlot s q.toNat = some (part, k) →
    ((queueOf s q.toNat).descs.find? fun d => d.stage == DescStage.fetching) = none →
    ∀ p a, fetchPick s (q.toNat / 64) = (some (p, q.toNat), a) →
      exec (.descriptorFetch q) s = .next (finish (fetchBegin q.toNat part k (arbSet (fetchArb (q.toNat / 64)) ((a.charge p 1).took p q.toNat) s)))) ∧
  (∀ (s : State) (r p x : Nat), (reelQueues s r (mayFetch s) = [(p, x)] → (fetchPick s r).1 = some (p, x)) ∧
    (reelQueues s r (hasStart s) = [(p, x)] → (startPick s r).1 = some (p, x))) ∧
  (∀ (s : State) (q : QueueNum) (part k : Nat) (d : Desc), alive s = true → queueSlot s q.toNat = some (part, k) →
    ((queueOf s q.toNat).descs.find? fun d => d.stage == DescStage.fetching) = some d → descOf s q.toNat d.seq = some d →
    descReading s q.toNat d.seq = false → d.statuses = [] → d.remotePoison = [] →
      ∃ u, exec (.descriptorFetch q) s = .next (finish u) ∧
        descOf u q.toNat d.seq = some { d with bytes := d.at (ringBase s Reg.dqBaseLo Reg.dqBaseHi part k + 64 * (d.seq % ringDepth s part k)) 64, remote := [], stage := .fetched } ∧
        dqHead u part k = dqHead s part k + 1 ∧ u.store = s.store) ∧
  (∀ (s : State) (q : QueueNum) (seq : W32) (part k : Nat) (d : Desc), alive s = true → queueSlot s q.toNat = some (part, k) →
    descOf s q.toNat seq.toNat = some d → d.stage = .fetched → mayStart s q.toNat part k d = true →
    ∀ p a, startPick s (q.toNat / 64) = (some (p, q.toNat), a) →
      exec (.descriptorStart q seq) s = .next (finish (startNow q.toNat seq.toNat part k (paritySweep (served q.toNat part k d a s))))) ∧
  (∀ (s : State) (q seq part k : Nat) (d : Desc), descOf s q seq = some d → (queueOf s q).inKernel = true → s.mgmt.stopped = [] →
    let c := rget s (slotReg Reg.dqCfg k) part
    let d1 := { d with asid := fld c 20 12, span := fld c 8 2, auditCfg := rget s Reg.auditCfg part, auditTol := rget s Reg.auditTol part,
                       auditRange := rget s Reg.auditRange part }
    let d2 := { d1 with reads := (opRanges s d1).reads, writes := (opRanges s d1).writes }
    let s1 := descMod q seq (fun d =>
      let d := { d with asid := fld c 20 12, span := fld c 8 2, auditCfg := rget s Reg.auditCfg part, auditTol := rget s Reg.auditTol part,
                        auditRange := rget s Reg.auditRange part }
      { d with reads := (opRanges s d).reads, writes := (opRanges s d).writes }) s
    ((startCheck s1 d2).bad = [] → (startCheck s1 d2).own = false →
      startNow q seq part k s = startHook q seq d2 (descMod q seq (fun d => { d with stage := .started }) s1)) ∧
    ((startCheck s1 d2).bad ≠ [] ∨ (startCheck s1 d2).own = true →
      ∃ d3, descOf (startNow q seq part k s) q seq = some d3 ∧ d3.stage = .ran ∧ d3.step = 99 ∧
        (Status.ownership ∈ d3.statuses ↔ (startCheck s1 d2).own = true) ∧ (Status.decode ∈ d3.statuses ↔ (startCheck s1 d2).bad ≠ []))) ∧
  (∀ (s : State) (q : QueueNum) (seq : W32) (part k : Nat) (d : Desc), alive s = true → queueSlot s q.toNat = some (part, k) →
    descOf s q.toNat seq.toNat = some d → d.stage = .ran → (awaitsWrites d = true → descWriting s q.toNat seq.toNat = false) →
    (∀ e ∈ (queueOf s q.toNat).descs.takeWhile (fun e => e.seq != seq.toNat), e.stage = .completed ∨ e.opcode ≠ 0x04) →
      exec (.descriptorComplete q seq) s = .next (finish (completeNow q.toNat seq.toNat part k d s))) ∧
  (∀ (s : State) (q : QueueNum) (seq : W32) (d : Desc), alive s = true →
    ((queueOf s q.toNat).descs.find? fun d => d.stage == DescStage.completed && d.seq % 2 ^ 32 == seq.toNat && d.doneEn && !descWriting s q.toNat d.seq) = some d →
    notOurs s d.part d.doneTally = false →
      exec (.doneTallyAdd q seq) s = .next (finish (dropDesc q.toNat d.seq (tallyAddTo d.doneTally 1 s)))) ∧
  (∀ (s : State) (q : QueueNum) (part k : Nat) (r : Record) (rest : List Record) (s2 : State), alive s = true → queueSlot s q.toNat = some (part, k) →
    (queueOf s q.toNat).owed = r :: rest → recordSent s q.toNat = false → cqFull s part k = false → asidPart s (ringAsid s part k) = some part →
    vaHeld s (ringAsid s part k) (ringBase s Reg.dqCqLo Reg.dqCqHi part k + 32 * ((cqTail s part k).toNat % ringDepth s part k)) 32 = false →
    putPiece (.ring q.toNat r.notify) part (ringAsid s part k) (ringBase s Reg.dqCqLo Reg.dqCqHi part k + 32 * ((cqTail s part k).toNat % ringDepth s part k))
      { bs := recordBytes q.toNat ((cqTail s part k).toNat / ringDepth s part k % 2 == 0) r, pois := [], tally := none, e2e := false } s = (.done .ok, s2) →
    queueSlot s2 q.toNat = some (part, k) →
      ∃ t, exec (.completionRecordWrite q) s = .next (finish (raiseOpt part r.notify t)) ∧ cqTail t part k = cqTail s2 part k + 1 ∧
        (queueOf t q.toNat).owed = (queueOf s2 q.toNat).owed.drop 1 ∧ t.store = s2.store)

/-- O12. A started COPY whose ranges no commit or migration holds, and that is one piece long, writes the bytes it read to its destination with the
words' poison and its tally, counts them and has run; COPY of no bytes left has run; FILL writes its pattern piece after piece and has run; FENCE has
run at once; a KERNEL_END whose kernel updated no row has run once its writes are performed; TALLY_ADD of a local tally adds its value and has run,
and one of another hub sends a TALLY packet with the partition's KEY. Rests on choices of the model (log entry 6), besides the spec. -/
def Obligations.ControlOperations : Prop :=
  (∀ (s s1 : State) (q : QueueNum) (seq : W32) (d d1 : Desc) (u o n : Nat), Runs s q seq 0x01 d → (unitPieces (d.w 1) (copyLen d)).drop d.step = [(u, o, n)] →
    vaHeld s d.asid (d.w 2 + o) n = false → Reads q seq [(d.w 1 + o, n)] s d1 s1 →
    let w : Put := { bs := d1.at (d.w 1 + o) n, pois := movedWords (d.w 1 + o) (d.w 2 + o) n d1.remotePoison, tally := if d1.f 4 16 1 = 1 then some (d1.f 4 0 16) else none, e2e := d1.f 4 17 1 == 1 }
    let s2 := descMod q.toNat seq.toNat (fun d => if d.stage = .started then { d with step := d.step + 1, count := o + n } else d)
      (dropBytes q.toNat seq.toNat (d.w 1 + o) n (opPut q.toNat seq.toNat u (d.w 2 + o) w s1))
    ∃ t, exec (.copy q seq) s = .next (finish t) ∧
      t = (if (descOf s2 q.toNat seq.toNat).any (fun d => d.stage == .started) then
        descMod q.toNat seq.toNat (fun d => if d.stage = .started then { d with stage := .ran } else d) s2 else s2)) ∧
  (∀ (s : State) (q : QueueNum) (seq : W32) (d : Desc), Runs s q seq 0x01 d → (unitPieces (d.w 1) (copyLen d)).drop d.step = [] →
    ∃ u, exec (.copy q seq) s = .next (finish u) ∧ descOf u q.toNat seq.toNat = some { d with stage := .ran } ∧ u.store = s.store ∧ u.regs = s.regs) ∧
  (∀ (s : State) (q : QueueNum) (seq : W32) (d : Desc), Runs s q seq 0x02 d → vaHeld s d.asid (d.w 1) (fillLen d) = false →
    exec (.fill q seq) s = .next (finish (descMod q.toNat seq.toNat (fun d => if d.stage = .started then { d with stage := .ran } else d)
      ((unitPieces (d.w 1) (fillLen d)).foldl (fun s x =>
        descMod q.toNat seq.toNat (fun d => if d.stage = .started then { d with count := x.2.1 + x.2.2 } else d)
          (opPut q.toNat seq.toNat x.1 (d.w 1 + x.2.1) { bs := fillBytes d x.2.1 x.2.2, pois := [], tally := none, e2e := false } s)) s)))) ∧
  (∀ (s : State) (q : QueueNum) (seq : W32) (d : Desc), Runs s q seq 0x03 d →
    ∃ u, exec (.fence q seq) s = .next (finish u) ∧ descOf u q.toNat seq.toNat = some { d with count := 0, stage := .ran } ∧ u.store = s.store ∧
      u.regs = s.regs ∧ u.ord = s.ord) ∧
  (∀ (s : State) (q : QueueNum) (seq : W32) (d : Desc), Runs s q seq 0x04 d → (queueOf s q.toNat).bset = [] →
    descWriting s q.toNat seq.toNat = false →
      ∃ u, exec (.kernelEnd q seq) s = .next (finish u) ∧ Ended u q seq (if d.step = 0 then { d with step := 1 } else d) 0 ∧ u.store = s.store ∧ u.regs = s.regs) ∧
  (∀ (s : State) (q : QueueNum) (seq : W32) (d : Desc), Runs s q seq 0x06 d →
    (d.f 1 16 1 = 0 → exec (.tallyAdd q seq) s = .next (finish (opEnd q.toNat seq.toNat 0 (tallyAddFor d.part (d.f 1 0 16) (w32 (d.f 2 0 32)) s)))) ∧
    (d.f 1 16 1 ≠ 0 → ∀ s1, sendReq (mkReq { mkPacket s tTALLY (d.f 1 32 18) 0 (w64 (d.f 1 0 16 + d.f 2 0 32 * 65536)) [] with key := fkey s d.part } none 0 d.part
        (.descWrite q.toNat seq.toNat 0 none)) s = (.gone, s1) →
      exec (.tallyAdd q seq) s = .next (finish (opEnd q.toNat seq.toNat 0 s1))))

/-- O13. TALLY_WAIT of a tally that has reached its target has run at once, otherwise the descriptor waits with the limit DQ_WAIT gives; when the
tally has reached the target, a waiting TALLY_WAIT has run and a waiting REDUCE or APPLY goes on; a waiting descriptor whose limit has passed ends
with TIMEOUT. None of them changes the store, a tally, a watch or a register. -/
def Obligations.TallyWaits : Prop :=
  (∀ (s : State) (q : QueueNum) (seq : W32) (d : Desc), Runs s q seq 0x05 d →
    (reached (tallyVal s (d.f 1 0 16)) (w32 (d.f 1 32 32)) = true → ∃ u, exec (.tallyWait q seq) s = .next (finish u) ∧
      Ended u q seq { d with step := 2 } 0 ∧ u.store = s.store ∧ u.ord = s.ord ∧ u.regs = s.regs) ∧
    (reached (tallyVal s (d.f 1 0 16)) (w32 (d.f 1 32 32)) = false → ∃ u, exec (.tallyWait q seq) s = .next (finish u) ∧
      descOf u q.toNat seq.toNat = some { d with stage := .waiting, step := 1, waitEdges := 0, waitLimit := waitTicks s q.toNat } ∧ u.store = s.store ∧
      u.ord = s.ord ∧ u.regs = s.regs)) ∧
  (∀ (s : State) (q : QueueNum) (seq : W32) (d : Desc) (t : Nat) (v : W32), alive s = true → descOf s q.toNat seq.toNat = some d →
    descTally s d = some (t, v) → d.stage = .waiting → d.step = 1 → reached (tallyVal s t) v = true →
    (d.opcode = 0x05 → ∃ u, exec (.tallyTargetReached q seq) s = .next (finish u) ∧ Ended u q seq d 0 ∧ u.store = s.store ∧ u.ord = s.ord ∧ u.regs = s.regs) ∧
    (d.opcode ≠ 0x05 → ∃ u, exec (.tallyTargetReached q seq) s = .next (finish u) ∧
      descOf u q.toNat seq.toNat = some { d with stage := .started, step := 2 } ∧ u.store = s.store ∧ u.ord = s.ord ∧ u.regs = s.regs)) ∧
  (∀ (s : State) (q : QueueNum) (seq : W32) (d : Desc), alive s = true → descOf s q.toNat seq.toNat = some d →
    (descTally s d).isSome = true → d.stage = .waiting → d.step = 1 → d.waitLimit ≠ 0 → d.waitLimit ≤ d.waitEdges →
    ∃ u, exec (.tallyWaitTimeout q seq) s = .next (finish u) ∧ Ended u q seq { d with statuses := .timeout :: d.statuses } 0 ∧ u.store = s.store ∧
      u.ord = s.ord ∧ u.regs = s.regs)

/-- O14. A started MATVEC or MATMUL whose operands are read, those that are redirected from their wider copies apart, is computed. Where none is
redirected and the partition audits nothing, that counts its non-finite blocks, ends with POISON where a row or a held vector was poisoned, writes and
counts for each of its N held vectors the M results (each the FP32 sum of the dot product's terms and the old output) in tiles of 256 rows, and has
run. Rests on choices of the model (log entries 6, 46 and 107), besides the spec. -/
def Obligations.MatrixProducts : Prop :=
  (∀ (s s1 : State) (q : QueueNum) (seq : W32) (op : Nat) (d d1 : Desc), op = 0x10 ∨ op = 0x11 → Runs s q seq op d →
    let ref := fun t : Tensor => if redirects s q.toNat d t.va t.fmt then wideRef s q.toNat d t.va t.fmt t.span else none
    let misfit := fun t : Tensor => redirects s q.toNat d t.va t.fmt && (ref t).isNone
    let xs := (List.range (mmN d)).map (mmX d)
    Reads q seq ((if (ref (mmA d)).isSome then [] else (mmA d).ranges ++ (if arExtras d.arith = 0 then [] else [(d.w 4, mmAxLen d)]))
      ++ (xs.filter fun t => (ref t).isNone).flatMap (·.ranges) ++ (if mmAcc d then (List.range (mmN d)).flatMap fun n => (mmY d n).ranges else [])) s d1 s1 →
      exec (if op = 0x10 then .matvec q seq else .matmul q seq) s = .next (finish
        (mmCompute q.toNat seq.toNat (ref (mmA d)) (xs.map ref) (b2n (misfit (mmA d)) + b2n (xs.any misfit)) d1 s1))) ∧
  (∀ (s : State) (q seq : Nat) (d : Desc), auditK d.auditCfg = 0 →
    let row := fun r => narrowRow (mmA d) d (arNfz d.arith) (arExtras d.arith) (d.w 4) r
    let xs := (List.range (mmN d)).map fun n => heldRow (mmX d n) d 0
    let v := (draw s).1
    let rows := (List.range (mmM d)).map row
    let none_ : Row := { els := [], xs := [], nf := 0, zeroed := 0, p := false }
    let s2 := countNf q seq d.part ((rows.map (·.nf)).sum + (xs.map (·.nf)).sum) ((rows.map (·.zeroed)).sum + (xs.map (·.zeroed)).sum) (draw s).2
    let s3 := if rows.any (·.p) = true ∨ xs.any (·.p) = true then descMeet q seq .poison s2 else s2
    mmCompute q seq none ((List.range (mmN d)).map fun _ => none) 0 d s = opDone q seq
      ((mmResults d v row xs (List.range (mmM d))).zipIdx.foldl (fun s y =>
        (List.range (ceilDiv (mmM d) 256)).foldl (fun s k =>
          let t := mmY d y.2
          let ws := (y.1.drop (256 * k)).take 256
          opPutCount q seq (t.va + 256 * k * elemBytes t.fmt) (elemBytes t.fmt) ws.length
            (putF32s q seq k (t.va + 256 * k * elemBytes t.fmt) t.fmt d.arith ((draw s3).1 + w64 (y.2 * mmM d + 256 * k)) ws
              (fun r => (xs.getD y.2 none_).p || (rows.getD (256 * k + r) none_).p || (mmAcc d && d.bad (t.va + 4 * (256 * k + r)) 4))) s) s)
        (draw s3).2))

/-- O15. Once their operands are read, ATTEND computes sequence after sequence; REDUCE of a tally that has reached its target emits and counts the
scaled sums, and with CLEAR then clears its accumulators and takes the target off the tally, while one of another tally waits; QUANT writes and counts
its rows under the format's rules, and without extras and accounting writes nothing else; ELTWISE writes and counts for every row the values of its
operation; OPTIM visits its rows one after the other, or ends with DECODE at STEP when Adam's step is 0. Each has then run. Rests on choices of the
model (log entries 43 and 40), besides the spec. -/
def Obligations.TensorOperations : Prop :=
  (∀ (s s1 s2 s3 : State) (q : QueueNum) (seq : W32) (d d1 d2 d3 : Desc), Runs s q seq 0x12 d → Reads q seq [(d.w 2, 16 * atS d)] s d1 s1 →
    Reads q seq ((List.range (atS d1)).flatMap fun i => if atLenOk d1 (atSeq d1 i).2 then (atPages d1 (atSeq d1 i).2).map fun p => ((atSeq d1 i).1 + 8 * p, 8) else []) s1 d2 s2 →
    Reads q seq ((atQry d2).ranges ++ atKvRanges s2 q.toNat d2) s2 d3 s3 →
      exec (.attend q seq) s = .next (finish (opDone q.toNat seq.toNat ((List.range (atS d3)).foldl (atSequence q.toNat seq.toNat d3) s3)))) ∧
  (∀ (s : State) (q : QueueNum) (seq : W32) (d : Desc), Runs s q seq 0x13 d → d.step = 0 →
    (reached (tallyVal s (rdTally d)) (rdExpect d) = false → ∃ u, exec (.reduce q seq) s = .next (finish u) ∧
      descOf u q.toNat seq.toNat = some { d with stage := .waiting, step := 1, waitEdges := 0, waitLimit := waitTicks s q.toNat } ∧ u.store = s.store ∧
      u.ord = s.ord ∧ u.regs = s.regs) ∧
    (reached (tallyVal s (rdTally d)) (rdExpect d) = true → ∀ d1 s1,
      Reads q seq ((rdParts d).map fun t => (t.va, t.len)) (descMod q.toNat seq.toNat (fun d => { d with step := 2 }) s) d1 s1 →
      let parts := (rdParts d1).map fun t => (t.row d1 false 0).els
      let v := (draw s1).1
      let u := (draw (draw s1).2).1
      let s2 := opPutCount q.toNat seq.toNat (rdOut d1).va (elemBytes (rdOut d1).fmt) (rdNe d1) (putVals q.toNat seq.toNat (rdOut d1) d1.arith u
        [(List.range (rdNe d1)).map fun i => f32Val (f32Mul (factorOr1 (w32 (d1.f 4 32 32)))
          (f32Sum (fun k => freeSeq v (i * 1024 + k)) (parts.map fun p => match p[i]? with | some e => f32OfVal e.full | none => 0)))]
        (fun _ i => parts.any fun p => match p[i]? with | some e => e.p | none => false)) (draw (draw s1).2).2
      let s3 := (rdParts d1).foldl (fun s t => opPut q.toNat seq.toNat 0 t.va { bs := List.replicate t.len 0, pois := [], tally := none, e2e := false } s) s2
      exec (.reduce q seq) s = .next (finish (opDone q.toNat seq.toNat (if rdClear d1 = true then
        (if (descOf s3 q.toNat seq.toNat).any (fun d => d.stage == .started) = true then tallyAddTo (rdTally d1) (0 - rdExpect d1) s3 else s3) else s2))))) ∧
  (∀ (s s1 : State) (q : QueueNum) (seq : W32) (d d1 : Desc), Runs s q seq 0x14 d →
    Reads q seq ((quSrc d).ranges ++ (if quSe d = 0 then [] else [(d.w 3, quSxLen d)])) s d1 s1 →
    exec (.quant q seq) s = .next (finish (quGo q.toNat seq.toNat d1 s1))) ∧
  (∀ (s : State) (q seq : Nat) (d : Desc), arExtras d.arith = 0 → d.w 5 = 0 →
    quGo q seq d s = opDone q seq ((List.range (quRows d)).foldl (fun s r =>
      opPutCount q seq ((quDst d).va + r * (quDst d).cols * elemBytes (quDst d).fmt) (elemBytes (quDst d).fmt) (quDst d).cols
        (putRow q seq r (quDst d) r (encodeVals (quDst d).fmt d.arith (fun i => rnd16 (draw s).1 (r * quCols d + i)) (quRow d r).1) (quRow d r).2.2)
        (whileStarted q seq (bumpN Reg.nfZeroed d.part (quRow d r).2.1) s)) (draw s).2)) ∧
  (∀ (s s1 : State) (q : QueueNum) (seq : W32) (d d1 : Desc), Runs s q seq 0x16 d → Reads q seq ((elInputs d).flatMap fun i => (elTensor d i).ranges) s d1 s1 →
    let v := (draw s1).1
    let u := (draw (draw s1).2).1
    let out := elTensor d1 3
    exec (.eltwise q seq) s = .next (finish (opDone q.toNat seq.toNat ((List.range out.rows).foldl (fun s r =>
      opPutCount q.toNat seq.toNat (out.va + r * out.cols * elemBytes out.fmt) (elemBytes out.fmt) out.cols
        (putRow q.toNat seq.toNat r out r (encodeVals out.fmt d1.arith (fun i => rnd16 u (r * out.cols + i)) (elRow d1 v r).1) (elRow d1 v r).2.1)
        (whileStarted q.toNat seq.toNat (bumpN Reg.nfZeroed d1.part (elRow d1 v r).2.2) s)) (draw (draw s1).2).2)))) ∧
  (∀ (s s1 : State) (q : QueueNum) (seq : W32) (d d1 : Desc), Runs s q seq 0x17 d →
    Reads q seq ((d.w 6, 64) :: if ocList d = 0 then [] else [(ocList d, ocN d * ocIdx d)]) s d1 s1 →
    (ocAlgo d1 = 2 → (hyperAt d1 (d1.w 6)).step = 0 →
      exec (.optim q seq) s = .next (finish (opEnd q.toNat seq.toNat 0 (descDecode q.toNat seq.toNat (d1.w 6 + 24) s1)))) ∧
    (¬(ocAlgo d1 = 2 ∧ (hyperAt d1 (d1.w 6)).step = 0) → ∀ d2 s2, Reads q seq (ocNeeds d1) s1 d2 s2 →
      exec (.optim q seq) s = .next (finish (opDone q.toNat seq.toNat ((List.range (ocN d2)).foldl (ocVisit q.toNat seq.toNat) s2)))))

/-- O16. TBL_CREATE of a free table number whose image is good enters the table with the image and its mode, STATUS OK; TBL_DESTROY of a table nothing
uses removes it and ends with OK, and of a table in use marks it ending and stays BUSY; CLEAR_STALE clears the stale mark and readmits every receiver;
DESTROY and CLEAR_STALE change nothing of the store and leave every other table as it was, and CREATE changes nothing of the store beside what reading
its image does. Rests on choices of the model (log entries 34 and 45), besides the spec. -/
def Obligations.TableCommands : Prop :=
  (∀ (s s2 : State) (path : Path) (v : W32) (i : Nat) (a : Nat) (g : Got) (m : Nat), Accepts s path Reg.tblCmd 1 3 v i →
    let s1 := taken path Reg.tblCmd i v s
    mget (tblNum s1 i) s1.eng.tables = none → addrOf s1 (tblImageOff s1 i) 64 = .store a → addrPart s1 (.store a) = i →
    memRead (tblImageOff s1 i) 64 s1 = (g, s2) → g.pois = [] → tblFieldsBad g.bytes = false → tblMode s2 g.bytes (liveAlloc s2 (qf g.bytes 0 0 16)) = some m →
    tblAllocsBad s2 g.bytes m = false → tblForeign s2 i g.bytes = false →
      ∃ u, exec (.tblCreate path v) s = .next (finish u) ∧
        mget (tblNum s1 i) u.eng.tables = some { part := i, image := g.bytes, mode := m, stale := false, banned := [], ending := false, users := [] } ∧
        fld (rget u Reg.tblCmd i) 4 1 = 0 ∧ fld (rget u Reg.tblCmd i) 8 8 = Status.ok.code ∧ u.store = s2.store ∧ u.rows = s2.rows) ∧
  (∀ (s : State) (path : Path) (v : W32) (i num : Nat) (t : Table), Accepts s path Reg.tblCmd 2 3 v i →
    let s1 := taken path Reg.tblCmd i v s
    tblNum s1 i = num → mget num s.eng.tables = some t → t.part = i → t.ending = false →
    let us := runningDescs s (usesTable num)
    (us = [] → ∃ u, exec (.tblDestroy path v) s = .next (finish u) ∧ mget num u.eng.tables = none ∧
      (∀ k, k ≠ num → mget k u.eng.tables = mget k s.eng.tables) ∧
      fld (rget u Reg.tblCmd i) 4 1 = 0 ∧ fld (rget u Reg.tblCmd i) 8 8 = Status.ok.code ∧ u.store = s.store) ∧
    (stillRunning s us = true → ∃ u, exec (.tblDestroy path v) s = .next (finish u) ∧ mget num u.eng.tables = some { t with ending := true, users := us } ∧
      (∀ k, k ≠ num → mget k u.eng.tables = mget k s.eng.tables) ∧ fld (rget u Reg.tblCmd i) 4 1 = 1 ∧ u.store = s.store)) ∧
  (∀ (s : State) (path : Path) (v : W32) (i num : Nat) (t : Table), Accepts s path Reg.tblCmd 3 3 v i →
    let s1 := taken path Reg.tblCmd i v s
    tblNum s1 i = num → mget num s.eng.tables = some t → t.part = i → t.ending = false →
      ∃ u, exec (.tblClearStale path v) s = .next (finish u) ∧ mget num u.eng.tables = some { t with stale := false, banned := [] } ∧
        (∀ k, k ≠ num → mget k u.eng.tables = mget k s.eng.tables) ∧
        fld (rget u Reg.tblCmd i) 4 1 = 0 ∧ fld (rget u Reg.tblCmd i) 8 8 = Status.ok.code ∧ u.store = s.store ∧ u.rows = s.rows)

/-- O17. A GATHER whose lists are read counts their windows once, issues what the dollies have room for of its unique rows, and, once every row has
been read, pools and writes every vector; SORTUNIQ writes the unique indices of its window in ascending order with, where asked, counts and positions,
counts the window and has run with COUNT their number; a broadcast that is not older than the last committed, finds room and nothing staged before it,
and whose rows need not wait, switches every row, advances the number expected from that owner, and adds 1 to the table's tally where it has one.
Rests on choices of the model (log entries 109, 110 and 150), besides the spec. -/
def Obligations.EmbeddingOperations : Prop :=
  (∀ (s s1 s2 : State) (q : QueueNum) (seq : W32) (d d1 d2 : Desc) (t : Table), Runs s q seq 0x20 d → tableOf s d = some t →
    Reads q seq (gaLists d (gaPool d != 0) (gaPool d == 4)) s d1 s1 →
    let s1' := if d1.step = 0 then gaFetch q.toNat seq.toNat d1 t s1 else s1
    Reads q seq [] (issueRows q.toNat seq.toNat (gaTable d1) t (match descOf s1' q.toNat seq.toNat with | some d => d.unread | none => []) [] s1') d2 s2 →
      exec (.gather q seq) s = .next (finish (if d2.unread.isEmpty = true then gaPoolAll q.toNat seq.toNat t d2 s2 else s2))) ∧
  (∀ (s s1 : State) (q : QueueNum) (seq : W32) (d d1 : Desc), Runs s q seq 0x22 d → Reads q seq [(d.w 2, suN d * ixSize d)] s d1 s1 →
    let idx := (List.range (suN d1)).map (ixAt d1 (d1.w 2))
    let uniq := cutWindow (idx.zipIdx.filter fun e => e.1 != ixNull d1)
    let s2 := cutCount d1.part (q.toNat / 64 / 16 * 2 + b2n (drawBit s1).1) (suN d1) uniq (drawBit s1).2
    let put := fun (va : Nat) (bs : List Byte) (s : State) =>
      opWrite q.toNat seq.toNat va bs (if d1.bad (d1.w 2) (suN d1 * ixSize d1) then wordsOf va bs.length else []) s
    let s3 := put (d1.w 4) (uniq.flatMap fun x => leBytes (ixSize d1) x.1) s2
    let s4 := if d1.w 5 = 0 then s3 else put (d1.w 5) (uniq.flatMap fun x => leBytes 4 x.2.length) s3
    let s5 := if d1.w 6 = 0 then s4
      else put (d1.w 6) (idx.flatMap fun x => leBytes 4 (if x = ixNull d1 then 0xFFFFFFFF else uniq.findIdx fun y => y.1 == x)) s4
    exec (.sortuniq q seq) s = .next (finish (opEnd q.toNat seq.toNat uniq.length s5))) ∧
  (∀ (s : State) (src : Endpoint) (table : BitVec 14) (no : W32) (rows : List (BitVec 40 × List Byte × List Nat)) (t : Table), alive s = true →
    mget table.toNat s.eng.tables = some t → t.ending = false → reached no (w32 (mgetD 0 (bcastKey src.toNat table.toNat) s.eng.nextBcast)) = true →
    s.eng.bcasts = [] → (rows.map fun r => r.2.1.length).sum ≤ (match s.boot.image with | some im => im.stagingMib | none => 0) * 2 ^ 20 →
    let b : Bcast := { src := src.toNat, table := table.toNat, no := no, rows := rows.map fun x => (x.1.toNat, x.2) }
    let s0 := { s with eng := { s.eng with bcasts := [b] } }
    (switchPlaces s0 t b.rows).find? (placeWaits s0) = none →
    let s1 := b.rows.foldl (switchRow table.toNat t) s0
    let s2 := { s1 with eng := { s1.eng with bcasts := s1.eng.bcasts.erase b, nextBcast := mput 0 (bcastKey src.toNat table.toNat) (no + 1).toNat s1.eng.nextBcast } }
    exec (.broadcastCommit src table no rows) s = .next (finish (if qf t.image 5 48 1 = 1 then tallyAddFor t.part (qf t.image 5 32 16) 1 s2 else s2)))

/-- O18. DIRECT, once its lists, gradients and hyperparameters are read and no place of a row must wait, counts its windows and applies one optimiser
step per unique row of each window, window after window, or ends with DECODE at STEP when Adam's step is 0. ROUTE counts and reserves records, waits
for the cursors, writes the records, adds to the tallies once they are performed, and ends once nothing it wrote is outstanding. APPLY whose tally has
not reached its count waits for it; once it has, it applies the landed records in windows, counts the bad ones, sets the zone's cursor to 0, takes the
count off the tally and ends, or ends with DECODE at STEP. Rests on choices of the model (log entries 111 and 112), besides the spec. -/
def Obligations.ScatterUpdates : Prop :=
  (∀ (s s1 : State) (q : QueueNum) (seq : W32) (d d1 : Desc) (t : Table), Runs s q seq 0x21 d → tableOf s d = some t → scMode d = 0 →
    Reads q seq (scNeeds d t true) s d1 s1 →
    let s2 := if d1.step = 0 then descMod q.toNat seq.toNat (fun d => { d with step := 1 }) (scCount q.toNat seq.toNat d1 t s1) else s1
    (stepBad d1 (hyperAt d1 (d1.w 7)) = true →
      exec (.scatterDirect q seq) s = .next (finish (opEnd q.toNat seq.toNat 0 (descDecode q.toNat seq.toNat (d1.w 7 + 24) s1)))) ∧
    (stepBad d1 (hyperAt d1 (d1.w 7)) = false → ∀ s3,
      scApply q.toNat seq.toNat t (hyperAt d1 (d1.w 7)) (scCombined d1 t (draw s2).1) (draw s2).2 = (true, s3) →
      exec (.scatterDirect q seq) s = .next (finish (opEnd q.toNat seq.toNat 0 (reportFan q.toNat seq.toNat (scWindows d1 t) s3))))) ∧
  (∀ (s : State) (q seq : Nat) (t : Table) (h : Hyper) (ws : List (List Combined)) (d : Desc), descOf s q seq = some d →
    (ws.flatten.flatMap fun c => scPlaces s t (scAlgo d) c.row).find? (placeWaits s) = none →
      scApply q seq t h ws s = (true, ws.zipIdx.foldl (fun s w => w.1.foldl (scStep q seq t h w.2) s) s)) ∧
  (∀ (s s1 : State) (q : QueueNum) (seq : W32) (d d1 : Desc) (t : Table), Runs s q seq 0x21 d → tableOf s d = some t → scMode d = 1 →
    Reads q seq (scNeeds d t false) s d1 s1 →
    let ms := List.range (tblN t.image)
    let s2 := atStep q.toNat seq.toNat 0 (fun s => ms.foldl (fun s m => if (recordsFor t (scCombined d1 t 0) m).length = 0 then s
      else reserve q.toNat seq.toNat t m (recordsFor t (scCombined d1 t 0) m).length s) (scCount q.toNat seq.toNat d1 t s)) s1
    (∀ s3, opFetch q.toNat seq.toNat [] s2 = (false, s3) → exec (.scatterRoute q seq) s = .next (finish s3)) ∧
    (∀ d3 s3, Reads q seq [] s2 d3 s3 →
      let s4 := atStep q.toNat seq.toNat 1 (fun s => ms.foldl (landMember q.toNat seq.toNat t (scCombined d3 t (draw s3).1)) s) (draw s3).2
      let s5 := atStep q.toNat seq.toNat 2 (fun s => ms.foldl (landTally q.toNat seq.toNat t) s) s4
      (descWriting s4 q.toNat seq.toNat = true → exec (.scatterRoute q seq) s = .next (finish s4)) ∧
      (descWriting s4 q.toNat seq.toNat = false → descWriting s5 q.toNat seq.toNat = true → exec (.scatterRoute q seq) s = .next (finish s5)) ∧
      (descWriting s4 q.toNat seq.toNat = false → descWriting s5 q.toNat seq.toNat = false →
        exec (.scatterRoute q seq) s = .next (finish (opEnd q.toNat seq.toNat 0 (reportFan q.toNat seq.toNat (scWindows d3 t) s5)))))) ∧
  (∀ (s : State) (q : QueueNum) (seq : W32) (d : Desc) (t : Table), Runs s q seq 0x21 d → tableOf s d = some t → scMode d = 2 → d.step = 0 →
    reached (tallyVal s (tblLandTally t.image)) (w32 (d.f 3 32 32)) = false → ∃ u, exec (.scatterApply q seq) s = .next (finish u) ∧
      descOf u q.toNat seq.toNat = some { d with stage := .waiting, step := 1, waitEdges := 0, waitLimit := waitTicks s q.toNat } ∧ u.store = s.store ∧
      u.ord = s.ord ∧ u.regs = s.regs) ∧
  (∀ (s s1 : State) (q : QueueNum) (seq : W32) (d d1 : Desc) (t : Table), Runs s q seq 0x21 d → tableOf s d = some t → scMode d = 2 →
    (d.step = 0 → reached (tallyVal s (tblLandTally t.image)) (w32 (d.f 3 32 32)) = true) →
    Reads q seq [(d.w 7, 64)] (if d.step = 0 then descMod q.toNat seq.toNat (fun d => { d with step := 2 }) s else s) d1 s1 →
    let h := hyperAt d1 (d1.w 7)
    let base := match allocOf s1 (qf t.image 0 48 16) with | some al => al.base * pageSize | none => 0
    let c := leNat (memRead base 8 s1).1.bytes
    let cap := landCap t.image
    let rr := readRecords q.toNat seq.toNat d1.part base t.image (min c cap) s1
    let good := fun r : Combined => decide (r.row < tblRows t.image) && rowOwner t.image r.row == tblSelf t.image
    let ws := recordWindows d1 rr.1 good
    let cs := ws.zipIdx.map fun w => w.1.map fun x =>
      combine (fun i => freeSeq (draw rr.2).1 ((w.2 * 2 ^ 40 + x.1) * 2 ^ 48 + i)) (tblDim t.image) x.1 (x.2.map fun j => match rr.1[j]? with | some r => (r.g, r.p) | none => ([], true))
    let bad := (rr.1.zipIdx.filter fun r => !good r.1).map (·.2)
    (stepBad d1 h = true → exec (.scatterApply q seq) s = .next (finish (opEnd q.toNat seq.toNat 0 (descDecode q.toNat seq.toNat (d1.w 7 + 24) s1)))) ∧
    (stepBad d1 h = false → placeWaits s1 (base, 8) = false → ∀ s3, scApply q.toNat seq.toNat t h cs (draw rr.2).2 = (true, s3) →
      let s4 := bumpN Reg.badIndex d1.part bad.length s3
      let s5 := match bad with | j :: _ => descDecode q.toNat seq.toNat (base + 64 + j * landRb t.image) s4 | [] => s4
      let s6 := ws.zipIdx.foldl (fun s w => cutCount d1.part ((cutUnits q.toNat d1.span).1 + w.2 % (cutUnits q.toNat d1.span).2)
        (min (2 ^ gaWin d1) (min c cap - w.2 * 2 ^ gaWin d1)) w.1 s) s5
      let s7 := if cap < c then descMeet q.toNat seq.toNat .quota s6 else s6
      let s8 := (localPut (.desc q.toNat seq.toNat 0) d1.part base none false base { bs := leBytes 8 0, pois := [], tally := none, e2e := false } s7).2
      exec (.scatterApply q seq) s = .next (finish (opEnd q.toNat seq.toNat 0 (reportFan q.toNat seq.toNat ws
        (tallyAddTo (tblLandTally t.image) (0 - w32 (d1.f 3 32 32)) s8))))))

/-- O19. IDX_CREATE of a free index number with a good image enters the index with NVEC as its next ID, its VIS and its effective NVEC, and clears the
tombstone bits of the side list's first IDs and ends once no agent holds a line of them and no write to them is held, before which it only recalls and
stays BUSY; IDX_DESTROY of an index nothing uses removes it, of one in use marks it ending and stays BUSY; IDX_SWAP to a good image makes the new
image current, keeps the old one for the searches under way and stays BUSY; once the last of them has completed and the bits it clears are free in the
same sense, the old image goes and the command ends. Rests on choices of the model (log entries 34 and 45), besides the spec. -/
def Obligations.IndexCommands : Prop :=
  (∀ (s s2 : State) (path : Path) (v : W32) (i : Nat) (im : List Byte), Accepts s path Reg.idxCmd 1 4 v i →
    let s1 := taken path Reg.idxCmd i v s
    mget (ixNum s1 i) s1.eng.idxs = none → ixImage i s1 = ((.ok, im), s2) → ixFieldsBad im = false → ixAllocsBad s2 im = false → ixForeign s2 i im = false →
    let x : Index := { part := i, image := im, old := none, nextId := ixNvec im, vis := ixNvec im, nvecEff := ixNvec im, ending := false, users := [], making := true }
    let s3 := setBusy Reg.idxCmd i true { s2 with eng := { s2.eng with idxs := mset (ixNum s1 i) x s2.eng.idxs } }
    let p := tombPlace s3 im (ixNvec im) (ixNvec im + ixSideCap im)
    (p.2 = 0 ∨ placeWaits s3 p = false →
      ∃ t, exec (.idxCreate path v) s = .next (finish (cmdFinish Reg.idxCmd i (ixNum t i == ixNum s1 i) (clearTombs im (ixNvec im) (ixNvec im + ixSideCap im) t))) ∧
        mget (ixNum s1 i) t.eng.idxs = some { x with making := false } ∧ t.store = s2.store ∧ t.regs = s3.regs) ∧
    (p.2 ≠ 0 → placeWaits s3 p = true → exec (.idxCreate path v) s = .next (finish (startRecalls p.1 p.2 true none s3)))) ∧
  (∀ (s : State) (path : Path) (v : W32) (i num : Nat) (x : Index), Accepts s path Reg.idxCmd 2 4 v i →
    let s1 := taken path Reg.idxCmd i v s
    ixNum s1 i = num → mget num s.eng.idxs = some x → x.part = i → x.ending = false → x.making = false →
    let us := runningDescs s (usesIndex num)
    (us = [] → ∃ u, exec (.idxDestroy path v) s = .next (finish u) ∧ mget num u.eng.idxs = none ∧
      fld (rget u Reg.idxCmd i) 4 1 = 0 ∧ fld (rget u Reg.idxCmd i) 8 8 = Status.ok.code ∧ u.store = s.store) ∧
    (stillRunning s us = true → ∃ u, exec (.idxDestroy path v) s = .next (finish u) ∧ mget num u.eng.idxs = some { x with ending := true, users := us } ∧
      fld (rget u Reg.idxCmd i) 4 1 = 1 ∧ u.store = s.store)) ∧
  (∀ (s s2 : State) (path : Path) (v : W32) (i num : Nat) (x : Index) (im : List Byte), Accepts s path Reg.idxCmd 3 4 v i →
    let s1 := taken path Reg.idxCmd i v s
    ixNum s1 i = num → mget num s.eng.idxs = some x → x.part = i → x.ending = false → x.making = false → ixImage i s1 = ((.ok, im), s2) → swapBad s2 x im = false →
    ixForeign s2 i im = false →
      ∃ u, exec (.idxSwap path v) s = .next (finish u) ∧ mget num u.eng.idxs = some { x with image := im, old := some x.image } ∧
        (∀ r ∈ u.eng.searches, r.idx = num → r.old = true) ∧ fld (rget u Reg.idxCmd i) 4 1 = 1 ∧ u.store = s2.store) ∧
  (∀ (s : State) (idx : BitVec 6) (x : Index) (o : List Byte), alive s = true → mget idx.toNat s.eng.idxs = some x → x.old = some o →
    (∀ r ∈ s.eng.searches, r.idx = idx.toNat → r.old = false) →
    let p := tombPlace s x.image (ixNvec o + ixSideCap x.image) (ixNvec x.image + ixSideCap x.image)
    p.2 = 0 ∨ placeWaits s p = false →
      ∃ t, exec (.swapDrained idx) s = .next (finish (cmdFinish Reg.idxCmd x.part (ixNum s x.part == idx.toNat)
          (clearTombs x.image (ixNvec o + ixSideCap x.image) (ixNvec x.image + ixSideCap x.image) t))) ∧
        mget idx.toNat t.eng.idxs = some { x with old := none, nvecEff := ixNvec x.image } ∧ t.store = s.store ∧ t.regs = s.regs)

/-- O20. A SEARCH whose parameters and lists are read sets up its queries once and goes on with those that have started, and a query that waited
starts, and runs, when its reel has room; INSERT, once no place it writes must wait, writes the reserved vectors and attribute words, reports the
first ID for DETAIL and their number in COUNT, with QUOTA where the side list could not take them all and POISON where its source was poisoned; an
INSERT that has completed, whose writes are performed and that no INSERT with lower IDs precedes publishes its IDs, VIS never going back; DELETE goes
through its list, entry by entry, once no byte of the bitmap it changes must wait, and has run with COUNT the tombstones it set. Rests on choices of
the model (log entries 49, 50, 78 and 79), besides the spec. -/
def Obligations.SearchOperations : Prop :=
  (∀ (s s1 : State) (q : QueueNum) (seq : W32) (d d1 : Desc) (r : SearchRun), Runs s q seq 0x30 d →
    (s.eng.searches.find? fun r => r.q == q.toNat && r.seq == seq.toNat) = some r → Reads q seq ([(d.w 4, 64)] ++ srList d) s d1 s1 →
    d1.step ≠ 0 → d1.stage = .started → exec (.search q seq) s = .next (finish (searchGo q.toNat seq.toNat r d1 s1))) ∧
  (∀ (s s1 : State) (q : QueueNum) (seq : W32) (d d1 d2 : Desc) (r : SearchRun), Runs s q seq 0x30 d →
    (s.eng.searches.find? fun r => r.q == q.toNat && r.seq == seq.toNat) = some r → Reads q seq ([(d.w 4, 64)] ++ srList d) s d1 s1 → d1.step = 0 →
    descOf (searchSetup q.toNat seq.toNat r d1 s1) q.toNat seq.toNat = some d2 → d2.stage = .started →
      exec (.search q seq) s = .next (finish (searchGo q.toNat seq.toNat r d2 (searchSetup q.toNat seq.toNat r d1 s1)))) ∧
  (∀ (s : State) (q : QueueNum) (seq : W32) (n : BitVec 10) (x : Query) (d : Desc), alive s = true →
    (s.eng.queries.find? fun x => x.q == q.toNat && x.seq == seq.toNat && x.n == n.toNat && !x.started) = some x → queryMayStart s x = true →
    descOf s q.toNat seq.toNat = some d → d.stage = .started →
      exec (.searchQueryStart q seq n) s = .next (finish (searchRun q.toNat seq.toNat d (queryStart x s)))) ∧
  (∀ (s s1 : State) (q : QueueNum) (seq : W32) (d d1 : Desc) (x : Index) (e : Insertion), Runs s q seq 0x31 d → indexOf s d = some x →
    (s.eng.inserts.find? fun e => e.q == q.toNat && e.seq == seq.toNat) = some e →
    Reads q seq (((List.range e.n).flatMap fun j => (fullRow x.image (inNv d) j).map fun p => (d.w 2 + p.1, p.2)) ++ (if d.w 3 = 0 then [] else [(d.w 3, 8 * e.n)])) s d1 s1 →
    (inPlaces s1 x.image d1 e).find? (placeWaits s1) = none →
    let s2 := (List.range e.n).foldl (insertRow q.toNat seq.toNat x.image d1 e) (if d1.remotePoison.isEmpty = true then s1 else descMeet q.toNat seq.toNat .poison s1)
    let s3 := { s2 with eng := { s2.eng with inserts := s2.eng.inserts.map fun x => if x.q = q.toNat ∧ x.seq = seq.toNat then { x with written := e.n } else x } }
    let s4 := if e.n < inNv d1 then descMeet q.toNat seq.toNat .quota s3 else s3
    exec (.insert q seq) s = .next (finish (opEnd q.toNat seq.toNat e.n (descMod q.toNat seq.toNat (Desc.report e.first) s4)))) ∧
  (∀ (s : State) (q : QueueNum) (seq : W32) (e : Insertion) (x : Index), alive s = true →
    (s.eng.inserts.find? fun e => e.q == q.toNat && e.seq == seq.toNat) = some e → e.done = true → descWriting s q.toNat seq.toNat = false →
    (∀ o ∈ s.eng.inserts, o.idx = e.idx → e.first ≤ o.first) → mget e.idx s.eng.idxs = some x →
    let p := tombPlace s x.image (e.first + e.written) (e.first + e.n)
    p.2 = 0 ∨ placeWaits s p = false →
      ∃ u, exec (.insertPublish q seq) s = .next (finish u) ∧ mget e.idx u.eng.idxs = some { x with vis := max x.vis (e.first + e.n) } ∧
        u.eng.inserts = s.eng.inserts.erase e ∧ (e.written = e.n → u.store = s.store)) ∧
  (∀ (s s1 : State) (q : QueueNum) (seq : W32) (d d1 : Desc) (x : Index), Runs s q seq 0x32 d → Reads q seq [(d.w 2, 8 * deN d)] s d1 s1 → indexOf s1 d1 = some x →
    ((match allocOf s1 (ixTomb x.image) with
      | some al => ((List.range (deN d1)).filter fun i => decide (deId d1 i < x.nextId)).map fun i => (al.base * pageSize + deId d1 i / 8, 1)
      | none => []).find? (placeWaits s1)) = none →
    exec (.delete q seq) s = .next (finish (opDone q.toNat seq.toNat ((List.range (deN d1)).foldl (deleteEntry q.toNat seq.toNat x d1) s1)))) ∧
  (∀ (s : State) (q seq part id : Nat) (im : List Byte) (al : Alloc), allocOf s (ixTomb im) = some al →
    let r := ixRead q seq part (ixTomb im) (id / 8) 1 true s
    let o := al.base * pageSize + id / 8
    let s2 := sidePut q seq part 0 o [(r.1.1.getD 0 0) ||| BitVec.ofNat 8 (2 ^ (id % 8))] [] r.2
    (r.1.2 = true ∨ (r.1.1.getD 0 0).getLsbD (id % 8) = true → deleteOne q seq part im id s = r.2) ∧
    (r.1.2 = false → (r.1.1.getD 0 0).getLsbD (id % 8) = false → allocOf r.2 (ixTomb im) = some al →
      deleteOne q seq part im id s = if (byteAt s2 o).getLsbD (id % 8) = true then descMod q seq (fun d => { d with count := d.count + 1 }) s2 else s2))

/-- O21. For every list of entries of a window, the unique rows that the cut unit yields ascend strictly, are exactly the rows of the entries, and
each carries the list positions of its own entries in list order. -/
def Obligations.WindowUniqueRows : Prop :=
  ∀ es : List (Nat × Nat), ((cutWindow es).map (·.1)).Pairwise (· < ·) ∧ (∀ r, r ∈ (cutWindow es).map (·.1) ↔ r ∈ es.map (·.1)) ∧
    ∀ x ∈ cutWindow es, x.2 = (es.filter fun e => e.1 == x.1).map (·.2)

/-- O22. A lane takes the first block of its queue and, where it may still be compressed and the check of the queue finds nothing lost, encodes it and
stores the stream; a disturbed encode is only counted, and a block whose queued copy is lost stays as it is. SQUEEZE and UNSQUEEZE of a range that is
done have run with their COUNT, and of one with a block left go on behind it; a decode table slot nothing in a queue names takes a good image with its
generation advanced, and is retired by clearing its VALID alone. Rests on choices of the model (log entries 51, 80, 152 and 172), besides the spec. -/
def Obligations.CodecCommands : Prop :=
  (∀ (s : State) (lane : Fin 32) (m : Media) (j : LaneJob) (rest : List LaneJob), alive s = true → unitStopped s 5 none = false → unitStopped s 5 (some (setInst lane)) = false →
    laneJobs s lane = j :: rest →
    (j.disturbed = true → ∃ u, exec (.laneEncode lane m) s = .next (finish u) ∧ u.store = s.store ∧
      cget u Reg.codecDisturbed j.part = min (cget s Reg.codecDisturbed j.part + 1) 0xFFFFFFFF) ∧
    (j.disturbed = false → let s1 := setJobs lane rest s
      squeezable s1 j.block = true → blockCoded (blockMeta s1 j.block) = false → writeGate s1 (j.block * blockSize) ≠ .hold →
      writeGate s1 (j.block * blockSize) ≠ .roDropped → (readBlock j.block s1).1.codec = false → (readBlock j.block s1).1.pois = [] →
        (m = .good → exec (.laneEncode lane m) s = .next (finish (encodeStore lane j.block j.part j.codec j.slot j.fmt (readBlock j.block s1).1.bytes (readBlock j.block s1).2).2)) ∧
        (m = .failed → exec (.laneEncode lane m) s = .next (finish (trigger 2 (w64 (j.block * blockSize)) (some (partAt (readBlock j.block s1).2 (j.block * blockSize))) 0
          (bump Reg.stageUe 0 (readBlock j.block s1).2)))))) ∧
  (∀ (s : State) (q : QueueNum) (seq : W32) (d : Desc) (un : Bool), Runs s q seq (if un then 0x41 else 0x40) d →
    let c : Instr := if un then .unsqueeze q seq else .squeeze q seq
    (sqLen d ≤ d.step * blockSize → ∃ u, exec c s = .next (finish u) ∧ Ended u q seq d d.count ∧ u.store = s.store ∧ u.regs = s.regs) ∧
    (d.step * blockSize < sqLen d → vaHeld s d.asid (d.w 1 + d.step * blockSize) blockSize = false →
      ∀ s1, sqBlock q.toNat seq.toNat d (d.w 1 + d.step * blockSize) s = (true, s1) →
        exec c s = .next (finish (sqGo q.toNat seq.toNat (sqLen d / blockSize) (descMod q.toNat seq.toNat (fun d => { d with step := d.step + 1 }) s1))))) ∧
  (∀ (s s2 : State) (path : Path) (v : W32) (i a : Nat) (g : Got), Accepts s path Reg.ctblCmd 1 5 v i →
    let s1 := taken path Reg.ctblCmd i v s
    addrOf s1 (ctblOff s1) 133 = .store a → memRead (ctblOff s1) 133 s1 = (g, s2) → g.pois = [] → imageBad g.bytes = false →
    slotInUse s2 (ctblSlot s1) = 0 → ((slotOf s2 (ctblSlot s1)).gen = 255 → slotAtRest s2 (ctblSlot s1) = 0) →
      ∃ u, exec (.ctblLoad path v) s = .next (finish u) ∧
        mget (ctblSlot s1) u.eng.ctbl = some { valid := true, fmt := (g.bytes.getD 0 0).toNat % 16, gen := ((slotOf s2 (ctblSlot s1)).gen + 1) % 256, lens := imageLens g.bytes } ∧
        fld (rget u Reg.ctblCmd 0) 4 1 = 0 ∧ fld (rget u Reg.ctblCmd 0) 8 8 = Status.ok.code ∧ u.store = s2.store) ∧
  (∀ (s : State) (path : Path) (v : W32) (i : Nat), Accepts s path Reg.ctblCmd 2 5 v i →
    let s1 := taken path Reg.ctblCmd i v s
    slotInUse s1 (ctblSlot s1) = 0 →
      ∃ u, exec (.ctblRetire path v) s = .next (finish u) ∧ mget (ctblSlot s1) u.eng.ctbl = (mget (ctblSlot s1) s.eng.ctbl).map (fun x => { x with valid := false }) ∧
        (∀ k, k ≠ ctblSlot s1 → mget k u.eng.ctbl = mget k s.eng.ctbl) ∧
        fld (rget u Reg.ctblCmd 0) 4 1 = 0 ∧ fld (rget u Reg.ctblCmd 0) 8 8 = Status.ok.code ∧ u.store = s.store)

/-- O23. A started PREFETCH or ADVISE first records the store pages of its range and then goes through its entries, and one all of whose entries are
passed has run with COUNT 0; PREFETCH records its pages as the newest range where fewer than 1,024 are pending; ADVISE sets or clears a page's advice
as its code says and drops advice on pinned or projected pages; INVAL_ASID drops the translations of its ASID and has run once no access of the ASID
is outstanding. Rests on choices of the model (log entries 105 and 159), besides the spec. -/
def Obligations.AdviceOperations : Prop :=
  (∀ (s : State) (q : QueueNum) (seq : W32) (d : Desc) (adv : Bool), Runs s q seq (if adv then 0x51 else 0x50) d →
    let c : Instr := if adv then .advise q seq else .prefetch q seq
    (d.count = 0 → exec c s = .next (finish (advGo q.toNat seq.toNat ((advPages d).length + 1)
      (advStore d (descMod q.toNat seq.toNat (fun d => { d with count := 1 }) s))))) ∧
    (d.count ≠ 0 → (advPages d).length ≤ d.step → ∃ u, exec c s = .next (finish u) ∧ Ended u q seq d 0 ∧ u.store = s.store ∧ u.host = s.host ∧ u.regs = s.regs)) ∧
  (∀ (s : State) (part : Nat) (pages : List Nat), s.store.prefetch.length < 1024 →
    (pushRange part pages s).store.prefetch = s.store.prefetch ++ [{ part := part, pages := pages, ticks := 0 }]) ∧
  (∀ (s : State) (code pg : Nat) (p : Page), mget pg s.store.pages = some p → fPin (flagsAt s (pg * pageSize)) = false → fProject (flagsAt s (pg * pageSize)) = false →
    mget pg (advisePage code pg s).store.pages = some (match code with
      | 0 => { p with seqAdvice := false, willNeed := false }
      | 1 => { p with willNeed := true }
      | 2 => { p with heat := 0 }
      | _ => { p with seqAdvice := true })) ∧
  (∀ (s : State) (code pg : Nat), fPin (flagsAt s (pg * pageSize)) = true ∨ fProject (flagsAt s (pg * pageSize)) = true →
    (advisePage code pg s).store = s.store) ∧
  (∀ (s : State) (q : QueueNum) (seq : W32) (d : Desc), Runs s q seq 0x52 d →
    let s1 := if d.step = 0 then invalAsid (d.f 1 0 12) (descMod q.toNat seq.toNat (fun d => { d with step := 1 }) s) else s
    exec (.invalAsid q seq) s = .next (finish (if asidBusy s1 (d.f 1 0 12) then s1 else opEnd q.toNat seq.toNat 0 s1)))

/-- O24. A SNAPSHOT while a stream runs ends with QUOTA, is counted and raises the SNAP trigger; one whose good list is read and whose destination is
long enough captures its pages, dirty bits cleared, and has run with COUNT their number; a STEPMARK that is not due only notes its step, and one that
is due performs its template; the stream takes its next page once nothing of it is outstanding or held, writing its bytes and its entry and letting go
on what waited for it, and once no page is left it writes its header and ends when that is performed. Rests on choices of the model (log entries 74,
75 and 168), besides the spec. -/
def Obligations.SnapshotOperations : Prop :=
  (∀ (s : State) (q : QueueNum) (seq : W32) (d : Desc), Runs s q seq 0x60 d → s.rel.snap.isSome = true →
    exec (.snapshot q seq) s = .next (finish (opEnd q.toNat seq.toNat 0 (descMeet q.toNat seq.toNat .quota (snRefused s d))))) ∧
  (∀ (s s1 : State) (q : QueueNum) (seq : W32) (d d1 : Desc), Runs s q seq 0x60 d → s.rel.snap = none → Reads q seq [(snList d, 16 * snN d)] s d1 s1 → d1.bytes = d.bytes →
    d1.statuses = [] → d1.bad (snList d1) (16 * snN d1) = false → (List.range (snN d1)).find? (snBad s1 d1) = none → (List.range (snN d1)).any (snForeign s1 d1) = false →
    let ps := (snPages s1 d1).filter fun p => !snIncr d1 || pageDirty s1 p.1
    snImage ps.length ≤ snLen d1 →
      exec (.snapshot q seq) s = .next (finish (opEnd q.toNat seq.toNat ps.length (snCapture q.toNat d1 ps s1)))) ∧
  (∀ (s : State) (q : Nat) (d : Desc) (ps : List (Nat × Nat)), ∃ sn, (snCapture q d ps s).rel.snap = some sn ∧ sn.pages = ps ∧ sn.left = ps.map (·.1) ∧ sn.copies = [] ∧
    sn.dest = snDest d ∧ sn.id = snId d ∧ ∀ pg ∈ ps.map (·.1), ∀ p, mget pg (snCapture q d ps s).store.pages = some p → p.dirty = false) ∧
  (∀ (s : State) (q : QueueNum) (seq : W32) (d : Desc), Runs s q seq 0x61 d → d.w 2 = 0 ∨ d.f 3 0 16 = 0 ∨ d.w 1 % d.f 3 0 16 ≠ 0 →
    ∃ u, exec (.stepmark q seq) s = .next (finish u) ∧ Ended u q seq d 0 ∧ u.rel = { s.rel with stepLast := w64 (d.w 1) } ∧ u.store = s.store ∧ u.regs = s.regs) ∧
  (∀ (s s1 : State) (q : QueueNum) (seq : W32) (d d1 : Desc), Runs s q seq 0x61 d → d.w 2 ≠ 0 → d.f 3 0 16 ≠ 0 → d.w 1 % d.f 3 0 16 = 0 →
    Reads q seq [(d.w 2, 64)] { s with rel := { s.rel with stepLast := w64 (d.w 1) } } d1 s1 →
      exec (.stepmark q seq) s = .next (finish (stepGo q.toNat seq.toNat d1 s1))) ∧
  (∀ (s : State) (sn : Snap) (pg : Nat), alive s = true → s.rel.snap = some sn → snNext sn = some pg → snapWriting s = false →
    let i := (sn.pages.map (·.1)).idxOf pg
    let at_ := sn.dest + snManifest sn.pages.length + i * pageSize
    snapHeld s sn at_ pageSize = false → snapHeld s sn (sn.dest + 64 + 16 * i) 16 = false →
    let s0 := if sn.copies.any (fun c => c.page == pg) = true then s else settlePage pg s
    let s1 := snapMod (fun x => { x with left := x.left.filter fun y => y != pg, copies := x.copies.filter fun c => c.page != pg, waiting := x.waiting.filter fun h => heldPage h != pg, cur := some pg }) s0
    exec .snapshotPageStreamed s = .next (finish (runHeldAll (sn.waiting.filter fun h => heldPage h == pg)
      (snapPut sn (sn.dest + 64 + 16 * i) (snManifestEntry pg (((sn.pages.find? fun p => p.1 == pg).map (·.2)).getD 0) (snContent s0 sn pg).1 (snContent s0 sn pg).2) []
        (snapPut sn at_ (snBytes pg (snContent s0 sn pg).1 []) (toVaWords (pg * pageSize) at_ (snContent s0 sn pg).2) s1))))) ∧
  (∀ (s : State) (sn : Snap), alive s = true → s.rel.snap = some sn → sn.left = [] → snapWriting s = false →
    (sn.header = true → exec .snapshotStreamEnd s = .next (finish (snapEnd sn.status s))) ∧
    (sn.header = false → snapHeld s sn sn.dest 64 = false → let s1 := snapPut sn sn.dest (snHeader s sn) [] (snapMod (fun x => { x with header := true }) s)
      exec .snapshotStreamEnd s = .next (finish (if snapWriting s1 = true then s1 else snapEnd ((s1.rel.snap.map (·.status)).getD .ok) s1))))

/-- O25. A write of PT_TALLY_VAL sets the tally that PT_TALLY_NUM names where it is the partition's own, and its watch is looked at; a write of
PT_WATCH_CTL arms or disarms its watch, which fires at once where its target is reached; either on a tally that is not the partition's is refused and
counted and changes no tally and no watch; a write of TALLY_ASSIGN that changes PART or VALID disarms the tally's watch and clears FIRED; a watch that
fires disarms itself, sets FIRED, stores its value and raises its vector. Rests on choices of the model (log entry 131), besides the spec. -/
def Obligations.TallyRegisterCommands : Prop :=
  (∀ (s : State) (path : Path) (v : W32) (i : Nat), Reaches s path Reg.ptTallyVal i →
    let s1 := storeParity Reg.ptTallyVal i 6 (useUnlock path s)
    (tallyPart s1 (ptTally s1 i) = some i → exec (.ptTallyValWrite path v) s = .next (finish (tallySet (ptTally s1 i) v s1))) ∧
    (tallyPart s1 (ptTally s1 i) ≠ some i → ∃ u, exec (.ptTallyValWrite path v) s = .next (finish u) ∧ u.ord = s.ord ∧ u.store = s.store ∧
      cget u Reg.tallyRefused i = min (cget s Reg.tallyRefused i + 1) 0xFFFFFFFF)) ∧
  (∀ (s : State) (path : Path) (v : W32) (i : Nat), Reaches s path Reg.ptWatchCtl i →
    let s1 := storeParity Reg.ptWatchCtl i 6 (useUnlock path s)
    (tallyPart s1 (ptTally s1 i) = some i → exec (.ptWatchArm path v) s = .next (finish (fireWatch (ptTally s1 i)
      (watchSet (ptTally s1 i) { watchOf s1 (ptTally s1 i) with vector := fld v 8 6, vecEn := bit v 2, arm := bit v 0, fired := (watchOf s1 (ptTally s1 i)).fired && !bit v 0 } s1)))) ∧
    (tallyPart s1 (ptTally s1 i) ≠ some i → ∃ u, exec (.ptWatchArm path v) s = .next (finish u) ∧ u.ord = s.ord ∧ u.store = s.store ∧
      cget u Reg.tallyRefused i = min (cget s Reg.tallyRefused i + 1) 0xFFFFFFFF)) ∧
  (∀ (s : State) (t part : Nat), tallyPart s t = some part → (watchOf s t).arm = true → reached (tallyVal s t) (watchOf s t).target = true →
    let w := watchOf s t
    let s1 := watchSet t { w with arm := false, fired := true } s
    let s2 := if w.addr = 0 then s1 else hubStore part w.addr.toNat (leBytes 8 w.val.toNat) s1
    fireWatch t s = (if w.vecEn = true then raiseVec part w.vector s2 else s2) ∧
    (w.addr = 0 → (watchOf (fireWatch t s) t).arm = false ∧ (watchOf (fireWatch t s) t).fired = true ∧ (fireWatch t s).store = s.store ∧ (fireWatch t s).ord.tallies = s.ord.tallies)) ∧
  (∀ (s : State) (t : Nat), (watchOf s t).arm = false ∨ reached (tallyVal s t) (watchOf s t).target = false → fireWatch t s = s) ∧
  (∀ (s : State) (path : Path) (v : W32) (t : Nat), Reaches s path Reg.tallyAssign t →
    ∃ u, exec (.tallyAssignWrite path v) s = .next (finish u) ∧ u.store = s.store ∧ u.ord.tallies = s.ord.tallies ∧
      (fld (rget s Reg.tallyAssign t) 0 8 ≠ fld v 0 8 ∨ bit (rget s Reg.tallyAssign t) 31 ≠ bit v 31 → (watchOf u t).arm = false ∧ (watchOf u t).fired = false) ∧
      (fld (rget s Reg.tallyAssign t) 0 8 = fld v 0 8 → bit (rget s Reg.tallyAssign t) 31 = bit v 31 → watchOf u t = watchOf s t))

/-- O26. An RD or an aligned ATOMIC that passes the home's ordered checks, and a WR that passes them, its guards and its page's gate, is served by its
home under coherence; a LOAN RD or WR whose range is lent to its SRC and needs no stopped unit is served at once. Where nothing waits, no transaction
is open and the directory is empty, coherence serves at once, after the lookups of the lines of a COHERENT allocation. Served, a good RD whose class
is not compressed is answered by RSP with the bytes read; a WR without a mask that is stored adds its bytes or one to its tally, if it names one,
counts toward its source and is answered by ACK; an ATOMIC on good data stores its new value, if there is one, counts toward its source and is
answered with the old value. Rests on choices of the model (log entries 84 and 90), besides the spec. -/
def Obligations.FabricReadsAndWrites : Prop :=
  (∀ (s s1 : State) (port : Fin 64) (p : Packet) (m dir : Media), Arrives s port p → p.loan = false → homeChecks p (pktLen p) none (accessChecked p dir s) = (none, s1) →
    exec (.rd port p m dir) s = .next (finish (coherent p.addr.toNat (pktLen p) false false (.packet port p) (serveRd p) (mediaFound p.addr.toNat m s1)))) ∧
  (∀ (s : State) (port : Fin 64) (p : Packet) (m dir : Media), Arrives s port p → p.loan = true → fatal s = false → loanOk s p (pktLen p) = true → loanStopped s (packetOff p) (pktLen p) = false →
    exec (.rd port p m dir) s = .next (finish (serveRd p s))) ∧
  (∀ (s s1 s2 s3 : State) (port : Fin 64) (p : Packet) (dir : Media) (bs : List Byte), Arrives s port p → p.loan = false → partnerRefused p (accessChecked p dir s) = (false, s1) →
    homeChecks p (if p.zip then blockSize else p.payload.length) (wrTally p) s1 = (none, s2) → rawPayload s2 p = some bs → (p.e2e = true → crc32c bs = p.crc) →
    writeGuards p.addr.toNat (.fabric p.src.toNat) s2 = (true, s3) → writeGate s3 p.addr.toNat = .go →
      exec (.wr port p dir) s = .next (finish (coherent p.addr.toNat ((rawPayload s3 p).getD []).length true false (.packet port p) (serveWr p) s3))) ∧
  (∀ (s : State) (port : Fin 64) (p : Packet) (dir : Media) (bs : List Byte), Arrives s port p → p.loan = true → fatal s = false → loanOk s p p.payload.length = true →
    loanStopped s (packetOff p) p.payload.length = false → rawPayload s p = some bs → (p.e2e = true → crc32c bs = p.crc) → exec (.wr port p dir) s = .next (finish (serveWr p s))) ∧
  (∀ (s s1 s2 s3 : State) (port : Fin 64) (p : Packet) (dir : Media), Arrives s port p → p.loan = false → partnerRefused p (accessChecked p dir s) = (false, s1) →
    homeChecks p (atomicSize p) none s1 = (none, s2) → p.addr.toNat % atomicSize p = 0 → fld p.arg 0 4 ≤ 7 → (fld p.arg 0 4 ≤ 4 ∨ atomicSize p = 4) →
    writeGuards p.addr.toNat (.fabric p.src.toNat) s2 = (true, s3) → writeGate s3 p.addr.toNat = .go →
      exec (.atomic port p dir) s = .next (finish (coherent p.addr.toNat (atomicSize p) true false (.packet port p) (serveAtomic p) s3))) ∧
  (∀ (s : State) (off n : Nat) (w q : Bool) (r : CohReq) (f : State → State), s.coh.waiting = [] → s.coh.txns = [] → s.coh.dir = [] →
    coherent off n w q r f s = f (if q then s else lookups off n s)) ∧
  (∀ (s s1 : State) (p : Packet) (g : Got), memRead (packetOff p) (pktLen p) (countRead (packetOff p) (pktLen p) s) = (g, s1) → g.pois = [] → g.codec = false →
    rbit s1 Reg.codecCfg 0 9 = false → serveRd p s = reply (rspTo s1 p .ok 0 0 g.bytes) s1) ∧
  (∀ (s s1 : State) (p : Packet), storeCells (packetOff p) (((rawPayload s p).getD []).map some) s = (true, s1) → p.pmask = false →
    serveWr p s = (let s2 := match wrTally p with
        | some t => tallyAddTo t (if p.tallyUnit then 1 else w32 ((rawPayload s p).getD []).length) s1
        | none => s1
      reply (ackTo s2 p .ok 0) (countApplied p s2))) ∧
  (∀ (s s1 : State) (p : Packet) (g : Got), memRead p.addr.toNat (atomicSize p) s = (g, s1) → g.pois = [] → p.loan = false →
    let off := p.addr.toNat
    let n := atomicSize p
    let s2 := match atomicNew (fld p.arg 0 4) (bit p.arg 5) n (leNat g.bytes) (leAt p.payload 0 n) (leAt p.payload n n) with
      | some v => (storeCells off ((leBytes n v).map some) s1).2
      | none => rawBlock (off / blockSize) (countAccess off n true s1)
    serveAtomic p s = reply (rspTo s2 p .ok 0 0 (leBytes n (leNat g.bytes))) (countApplied p s2))

/-- O27. A request at its home is answered RESET under the fatal response before anything else; then DECODE for an address that reaches no allocation;
then OWNERSHIP, counted in FAB_REFUSED, for a KEY that is not the partition's; then, where it names a tally, OWNERSHIP, counted in TALLY_REFUSED, for
a tally of no partition or of one with another KEY; then STALE_EPOCH; then PARITY for a stopped unit; a request that passes leaves the state as it
was. Rests on choices of the model (log entry 133), besides the spec. -/
def Obligations.HomeChecksInOrder : Prop :=
  ∀ (s : State) (p : Packet) (n : Nat) (tally : Option Nat),
    (fatal s = true → homeChecks p n tally s = (some .reset, s)) ∧
    (fatal s = false → addrOf s p.addr.toNat n = .decode → homeChecks p n tally s = (some .decode, s)) ∧
    (∀ a, fatal s = false → addrOf s p.addr.toNat n = .store a → fkey s (addrPart s (.store a)) ≠ p.key →
      homeChecks p n tally s = (some .ownership, bump Reg.fabRefused (addrPart s (.store a)) s)) ∧
    (∀ a t, fatal s = false → addrOf s p.addr.toNat n = .store a → fkey s (addrPart s (.store a)) = p.key → tally = some t → tallyPart s t = none →
      homeChecks p n tally s = (some .ownership, bump Reg.tallyRefused (addrPart s (.store a)) s)) ∧
    (∀ a t o, fatal s = false → addrOf s p.addr.toNat n = .store a → fkey s (addrPart s (.store a)) = p.key → tally = some t → tallyPart s t = some o → fkey s o ≠ p.key →
      homeChecks p n tally s = (some .ownership, bump Reg.tallyRefused o (bump Reg.fabRefused o s))) ∧
    (∀ a, fatal s = false → addrOf s p.addr.toNat n = .store a → fkey s (addrPart s (.store a)) = p.key →
      (∀ t, tally = some t → ∃ o, tallyPart s t = some o ∧ fkey s o = p.key) →
      homeChecks p n tally s = (if epochOk s p.epoch = false then (some .staleEpoch, s) else if homeStopped s (.store a) p.addr.toNat n tally then (some .parity, s) else (none, s))) ∧
    ((homeChecks p n tally s).1 = none → (homeChecks p n tally s).2 = s)

/-- O28. A CUE or OWN that passes its checks meets the rule of counts and generations: one of an older generation is answered TIMEOUT and applies
nothing, one of the current generation, while no other is held, is applied where its count is reached and no cue of its source is still being applied,
else it is held. A tally write of the right KEY adds its value and is answered OK; an EVENT of a vector below 64 raises it at every proxy of its SRC,
and one of no proxy or of a higher vector is dropped and counted; a held cue that has waited CUE_CFG.HOLD edges expires. Rests on choices of the model
(log entry 88), besides the spec. -/
def Obligations.CuesTalliesEvents : Prop :=
  (∀ (s s1 : State) (port : Fin 64) (p : Packet), Arrives s port p → homeChecks p 8 none s = (none, s1) → p.addr.toNat % 8 = 0 →
    exec (.cue port p) s = .next (finish (takeCue port p s1))) ∧
  (∀ (s : State) (port : Fin 64) (p : Packet) (r : Region), Arrives s port p → fatal s = false → mget (fld p.arg 40 12) s.coh.regions = some r → fkey s r.part = p.key →
    unitStopped s 7 (some r.part) = false → unitStopped s 8 (some r.part) = false → r.ep = p.src.toNat → exec (.own port p) s = .next (finish (takeCue port p s))) ∧
  (∀ (s s1 : State) (port : Nat) (p : Packet) (e : Partner), partnerFor p.src.toNat s = (some e, s1) →
    (∀ g, e.peerGen = some g → newer (cueGen p) g = false → cueGen p ≠ g → takeCue port p s = cueFail p .timeout s1) ∧
    (e.peerGen = some (cueGen p) → s1.ord.held = [] →
      takeCue port p s = (let s2 := partnerSet p.src.toNat e s1
        if srcReached s2 p && !cueWaits s2 p.src.toNat then applyHeld port p s2 else { s2 with ord := { s2.ord with held := [{ port := port, p := p, edges := 0 }] } }))) ∧
  (∀ (s : State) (port : Fin 64) (p : Packet) (part : Nat), Arrives s port p → fatal s = false → tallyPart s (fld p.arg 0 16) = some part → fkey s part = p.key →
    unitStopped s 6 (some (setInst (fld p.arg 0 16))) = false → unitStopped s 6 (some part) = false → unitStopped s 8 (some part) = false →
    let s1 := tallyAddTo (fld p.arg 0 16) (w32 (fld p.arg 16 32)) s
    exec (.tallyWr port p) s = .next (finish (reply (ackTo s1 p .ok 0) s1))) ∧
  (∀ (s : State) (port : Fin 64) (p : Packet), Arrives s port p →
    let hits := s.fab.current.proxies.filter fun e => bit (e.2.getD 0 0) 0 && quad e.2 1 % 2 ^ 18 == p.src.toNat
    (hits = [] ∨ 64 ≤ leAt p.payload 0 1 → ∃ u, exec (.event port p) s = .next (finish u) ∧ u.store = s.store ∧ u.regs = s.regs ∧
      cget u Reg.proxyDropped 0 = min (cget s Reg.proxyDropped 0 + 1) 0xFFFFFFFF) ∧
    (hits ≠ [] → leAt p.payload 0 1 < 64 → exec (.event port p) s = .next (finish (hits.foldl (fun s e =>
      msixSend (fld (e.2.getD 0 0) 1 1 * 256 + fld (e.2.getD 0 0) 2 7 + 1) (leAt p.payload 0 1) s) s)))) ∧
  (∀ (s : State) (src : Endpoint) (h : HeldCue), alive s = true →
    (s.ord.held.find? fun h => h.p.src.toNat == src.toNat && decide (max 1 (rfld s Reg.cueCfg 0 0 8) ≤ h.edges)) = some h →
      exec (.cueExpire src) s = .next (finish (expireHeld h s)))

/-- O29. RSP and ACK end the request their TID names with the status they carry, but for STALE_EPOCH, on which the request meets the current sheet
once more or, at its second attempt, ends with it; a RSP whose payload does not decode ends it with CODEC; a RSP of OK to a LEND tells the number of
the extent; an answer of no request ends nothing and shows that the old one was met. RETRY marks the request, which is sent again with the same count
on its own port, or to the hub itself; a request whose limit has passed ends with TIMEOUT, counted toward its partition and the endpoint, which is
lost after enough of them in a row. Rests on choices of the model (log entry 52), besides the spec. -/
def Obligations.AnswersAndRetries : Prop :=
  (∀ (s : State) (port : Fin 64) (p : Packet) (r : Req) (bs : List Byte), Arrives s port p → reqOf (heardFrom p.src.toNat s) p.tid = some r → Status.ofCode (fld p.arg 0 8) ≠ .staleEpoch →
    (r.owner ≠ .lend ∨ Status.ofCode (fld p.arg 0 8) ≠ .ok) → rawPayload (heardFrom p.src.toNat s) p = some bs →
      exec (.rsp port p) s = .next (finish (endWith r (Status.ofCode (fld p.arg 0 8)) p.addr bs (heardFrom p.src.toNat s)))) ∧
  (∀ (s : State) (port : Fin 64) (p : Packet) (r : Req), Arrives s port p → reqOf (heardFrom p.src.toNat s) p.tid = some r → Status.ofCode (fld p.arg 0 8) ≠ .staleEpoch →
      exec (.ack port p) s = .next (finish (endWith r (Status.ofCode (fld p.arg 0 8)) p.addr [] (heardFrom p.src.toNat s)))) ∧
  (∀ (s : State) (port : Fin 64) (p : Packet) (r : Req), Arrives s port p → reqOf (heardFrom p.src.toNat s) p.tid = some r → Status.ofCode (fld p.arg 0 8) ≠ .staleEpoch →
    ((r.owner ≠ .lend ∨ Status.ofCode (fld p.arg 0 8) ≠ .ok) → rawPayload (heardFrom p.src.toNat s) p = none →
      exec (.rsp port p) s = .next (finish (endWith r .codec (BitVec.allOnes 64) (List.replicate (pktLen r.p) 0) (heardFrom p.src.toNat s)))) ∧
    (r.owner = .lend → Status.ofCode (fld p.arg 0 8) = .ok →
      exec (.rsp port p) s = .next (finish (endWith r .ok p.addr [] (lendTaken p.src.toNat (fld p.arg 16 10) (heardFrom p.src.toNat s)))))) ∧
  (∀ (s : State) (port : Fin 64) (p : Packet) (r : Req), Arrives s port p → reqOf (heardFrom p.src.toNat s) p.tid = some r → Status.ofCode (fld p.arg 0 8) = .staleEpoch →
    exec (.rsp port p) s = .next (finish (staleAnswer r (heardFrom p.src.toNat s))) ∧ exec (.ack port p) s = .next (finish (staleAnswer r (heardFrom p.src.toNat s)))) ∧
  (∀ (s : State) (r : Req) (fa : Nat), r.fa = some fa → 2 ≤ r.attempts → staleAnswer r s = endWith r .staleEpoch 0 [] (bump Reg.fabStale r.part s)) ∧
  (∀ (s : State) (port : Fin 64) (p : Packet), Arrives s port p → reqOf s p.tid = none →
    exec (.rsp port p) s = .next (finish (lateAnswer p (heardFrom p.src.toNat s))) ∧ exec (.ack port p) s = .next (finish (lateAnswer p (heardFrom p.src.toNat s)))) ∧
  (∀ (s : State) (port : Fin 64) (p : Packet), Arrives s port p → ∃ u, exec (.retry port p) s = .next (finish u) ∧ u.store = s.store ∧ u.regs = s.regs ∧
    u.fab.reqs = s.fab.reqs.map fun r => if r.tag = p.tid.toNat then { r with retrying := true } else r) ∧
  (∀ (s : State) (tag : BitVec 18) (r : Req), alive s = true → (s.fab.reqs.find? fun r => r.tag == tag.toNat && r.retrying && decide (tag.toNat < unsentBase)) = some r →
    let s1 := { s with fab := { s.fab with reqs := s.fab.reqs.map fun x => if x.tag = tag.toNat then { x with retrying := false } else x } }
    exec (.retryResend tag) s = .next (finish (if r.p.dst.toNat = selfEp s then emit (.packet loopback r.p) s1 else egress (tag.toNat / 4096) r.p s1))) ∧
  (∀ (s : State) (tag : BitVec 18) (r : Req), alive s = true →
    (s.fab.reqs.find? fun r => r.tag == tag.toNat && decide (r.limit ≤ r.edges) && decide (tag.toNat < unsentBase)) = some r →
    let n := mgetD 0 r.p.dst.toNat s.fab.timeouts + 1
    let s1 := { s with fab := { s.fab with timeouts := mset r.p.dst.toNat n s.fab.timeouts } }
    let s2 := endWith r .timeout 0 [] (forgetReq r (bump Reg.fabTimeouts r.part s1))
    exec (.requestTimeout tag) s = .next (finish (if lostTmos s2 ≤ n then endpointLost r.p.dst.toNat s2 else s2)))

/-- O30. A LEND of a hub that lends nothing yet, of some aligned pages and a notice of at most 10,000 ms while the Loan tier is enabled, takes the
lowest free loan number and is answered with it; QUOTA from one that lends already or with the table full; DECODE while the tier is disabled. NOTICE
withdraws the extent it names; RELEASE of memory lent to its SRC under its number gives it back to this hub; a released loan extent nothing of which
is outstanding sends its RELEASE and is free; notice on lent HBM that has run out takes the pages back; LOST from a manager loses the endpoint, from
anyone else is refused and counted; WALK_REQ from a manager, or from an endpoint for its own host, starts a range walk for the slot it names or, where
no slot has that identity, is answered OK; any other is refused and counted. Rests on choices of the model (log entries 34, 89, 95 and 147), besides
the spec. -/
def Obligations.LoanAndManagerMessages : Prop :=
  (∀ (s : State) (port : Fin 64) (p : Packet) (n : Fin 1024), Arrives s port p → unitStopped s 1 none = false → tierDisabled s 5 = false → leAt p.payload 0 8 % pageSize = 0 →
    leAt p.payload 8 4 ≠ 0 → leAt p.payload 12 2 ≤ 10000 →
    (s.store.extents.any fun x => match x.1 with | .loan _ => x.2.lender == p.src.toNat | _ => false) = false →
    ((List.finRange 1024).find? fun n => (extOf s (.loan n)).isNone) = some n →
    let x : Extent := { lender := p.src.toNat, addr := leAt p.payload 0 8, pages := leAt p.payload 8 4, noticeMs := leAt p.payload 12 2, withdrawn := false, edges := 0, released := false }
    let s1 := { s with store := { s.store with extents := s.store.extents ++ [(.loan n, x)] } }
    exec (.lend port p) s = .next (finish (reply (rspTo s1 p .ok n.val 0 []) s1))) ∧
  (∀ (s : State) (port : Fin 64) (p : Packet), Arrives s port p → unitStopped s 1 none = false →
    (tierDisabled s 5 = true → exec (.lend port p) s = .next (finish (reply (rspTo s p .decode 0 0 []) s))) ∧
    (tierDisabled s 5 = false → leAt p.payload 0 8 % pageSize = 0 → leAt p.payload 8 4 ≠ 0 → leAt p.payload 12 2 ≤ 10000 →
      ((s.store.extents.any fun x => match x.1 with | .loan _ => x.2.lender == p.src.toNat | _ => false) = true ∨ ∀ n : Fin 1024, extOf s (.loan n) ≠ none) →
      exec (.lend port p) s = .next (finish (reply (rspTo s p .quota 0 0 []) s)))) ∧
  (∀ (s : State) (port : Fin 64) (p : Packet) (e : ExtId), Arrives s port p → msgExt s p = some e →
    exec (.notice port p) s = .next (finish (reply (ackTo (withdraw e s) p .ok 0) (withdraw e s)))) ∧
  (∀ (s : State) (port : Fin 64) (p : Packet), Arrives s port p →
    let mine := fun l : LentOut => l.borrower == p.src.toNat && l.ext == some (fld p.arg 0 10)
    s.store.lentOut.any mine = true →
    let s1 := { s with store := { s.store with lentOut := s.store.lentOut.filter fun l => !mine l } }
    exec (.release port p) s = .next (finish (reply (ackTo s1 p .ok 0) s1))) ∧
  (∀ (s : State) (n : Fin 1024) (x : Extent), alive s = true → extOf s (.loan n) = some x → x.released = true → (s.store.oldLocs.any fun o => o.loc == .ext (.loan n)) = false →
    exec (.loanReleaseSend n) s = .next (finish (sendReq (mkReq (mkPacket s tRELEASE x.lender 0 (w64 n.val) []) none 0 0 .hub) (extDel (.loan n) s)).2)) ∧
  (∀ (s : State) (b : Endpoint), alive s = true → ∃ u, exec (.lendNoticeExpire b) s = .next (finish u) ∧ u.regs = s.regs ∧ u.store.mem = s.store.mem ∧
    ∀ l, l ∈ u.store.lentOut ↔ l ∈ s.store.lentOut ∧ ¬(l.borrower = b.toNat ∧ l.noticed = true ∧ l.noticeMs * 3 ≤ 2 * l.edges)) ∧
  (∀ (s : State) (port : Fin 64) (p : Packet), Arrives s port p →
    (isManager s p.src.toNat = true → let s1 := endpointLost (fld p.arg 0 18) s
      exec (.lost port p) s = .next (finish (reply (ackTo s1 p .ok 0) s1))) ∧
    (isManager s p.src.toNat = false → exec (.lost port p) s = .next (finish (reply (ackTo s p .ownership 0) (bump Reg.mgmtRefused 0 s))))) ∧
  (∀ (s : State) (port : Fin 64) (p : Packet), Arrives s port p →
    let kind := leAt p.payload 0 8 / 2 ^ 50 % 4
    let ep := leAt p.payload 0 8 / 2 ^ 32 % 2 ^ 18
    let may := isManager s p.src.toNat = true ∨ ((kind = 1 ∨ kind = 2) ∧ ep = p.src.toNat)
    (¬may → exec (.walkReq port p) s = .next (finish (reply (ackTo s p .ownership 0) (bump Reg.mgmtRefused 0 s)))) ∧
    (may → slotOfId s kind ep = none → exec (.walkReq port p) s = .next (finish (reply (ackTo s p .ok 0) s))) ∧
    ∀ n, may → slotOfId s kind ep = some n →
      exec (.walkReq port p) s = .next (finish (addWalk { lo := p.addr.toNat, hi := p.addr.toNat + leAt p.payload 0 8 % 2 ^ 28 * pageSize, slot := some n, why := .request port p, running := false } s)))

/-- O31. For an operation that passes its checks (KEY, FAB unit, pool mode): CLAIM of a free range by a pool member enters it as held; OFFER meets the
rule of counts; ACCEPT by another pool of an entry in transit gives it to that pool; CANCEL by the sender's pool takes it back; RELEASE by the owner's
pool removes the entry; QUERY answers; the answer changes no entry; an entry in transit for the ledger's timeout reverts to its sender and is counted.
An operation of an older generation than its sender's entry applies nothing and is answered TIMEOUT, and one of a newer generation restarts the
applied number. Each is answered by RSP with the entry's state. Rests on choices of the model (log entry 126), besides the spec. -/
def Obligations.HandoffLedger : Prop :=
  (∀ (s0 s : State) (port : Fin 64) (p : Packet), Arrives s0 port p → handoffCheck p s0 = (none, s0) → takeGen p s0 = (true, s) → poolOf s p.src.toNat ≠ 0 →
    mhas (leAt p.payload 0 8) s.fab.ledger = false → claimOk s (leAt p.payload 8 8) (leAt p.payload 16 4) = true → s.fab.ledger.length < ledgerCap →
      exec (.claim port p) s0 = .next (finish (ledgerRsp p (leAt p.payload 0 8) .ok (ledgerSet (leAt p.payload 0 8)
        (some { inTransit := false, pool := poolOf s p.src.toNat, base := leAt p.payload 8 8, pages := leAt p.payload 16 4, edges := 0 }) s)))) ∧
  (∀ (s : State) (port : Fin 64) (p : Packet), Arrives s port p → handoffCheck p s = (none, s) → exec (.offer port p) s = .next (finish (takeCue port p s))) ∧
  (∀ (s : State) (p : Packet) (l : Ledger), mget (leAt p.payload 0 8) s.fab.ledger = some l → l.inTransit = false → poolOf s p.src.toNat = l.pool → l.pool ≠ 0 →
    applyOffer p s = ledgerRsp p (leAt p.payload 0 8) .ok (ledgerSet (leAt p.payload 0 8) (some { l with inTransit := true, edges := 0 }) s)) ∧
  (∀ (s0 s : State) (port : Fin 64) (p : Packet) (l : Ledger), Arrives s0 port p → handoffCheck p s0 = (none, s0) → takeGen p s0 = (true, s) → mget (leAt p.payload 0 8) s.fab.ledger = some l → poolOf s p.src.toNat ≠ 0 →
    let id := leAt p.payload 0 8
    (l.inTransit = true → poolOf s p.src.toNat ≠ l.pool → exec (.accept port p) s0 = .next (finish (ledgerRsp p id .ok (ledgerSet id (some { l with inTransit := false, pool := poolOf s p.src.toNat, edges := 0 }) s)))) ∧
    (l.inTransit = true → poolOf s p.src.toNat = l.pool → exec (.cancel port p) s0 = .next (finish (ledgerRsp p id .ok (ledgerSet id (some { l with inTransit := false, edges := 0 }) s)))) ∧
    (l.inTransit = false → poolOf s p.src.toNat = l.pool → exec (.ledgerRelease port p) s0 = .next (finish (ledgerRsp p id .ok (ledgerSet id none s))))) ∧
  (∀ (s0 s : State) (port : Fin 64) (p : Packet), Arrives s0 port p → handoffCheck p s0 = (none, s0) → takeGen p s0 = (false, s) →
    exec (.claim port p) s0 = .next (finish s) ∧ exec (.offer port p) s0 = .next (finish s) ∧ exec (.accept port p) s0 = .next (finish s) ∧
    exec (.cancel port p) s0 = .next (finish s) ∧ exec (.ledgerRelease port p) s0 = .next (finish s) ∧ exec (.ledgerQuery port p) s0 = .next (finish s)) ∧
  (∀ (s s1 : State) (p : Packet) (e : Partner), partnerFor p.src.toNat s = (some e, s1) →
    (∀ g, e.peerGen = some g → newer (cueGen p) g = false → cueGen p ≠ g → takeGen p s = (false, cueFail p .timeout s1)) ∧
    ((∀ g, e.peerGen = some g → newer (cueGen p) g = true) → takeGen p s = (true, partnerSet p.src.toNat { e with peerGen := some (cueGen p), applied := 0 } s1))) ∧
  (∀ (s0 s : State) (port : Fin 64) (p : Packet), Arrives s0 port p → handoffCheck p s0 = (none, s0) → takeGen p s0 = (true, s) → exec (.ledgerQuery port p) s0 = .next (finish (ledgerRsp p (leAt p.payload 0 8) .ok s))) ∧
  (∀ (s : State) (id : W64) (l : Ledger), alive s = true → mget id.toNat s.fab.ledger = some l → l.inTransit = true → ledgerTmo s ≤ l.edges →
    ∃ u, exec (.ledgerRevert id) s = .next (finish u) ∧ mget id.toNat u.fab.ledger = some { l with inTransit := false, edges := 0 } ∧
      cget u Reg.ledgerReverts 0 = min (cget s Reg.ledgerReverts 0 + 1) 0xFFFFFFFF ∧ u.store = s.store ∧ u.regs = s.regs) ∧
  (∀ (s : State) (p : Packet) (id : Nat) (st : Status), (ledgerRsp p id st s).fab.ledger = s.fab.ledger)

/-- O32. A packet of a known class for another endpoint goes on with one hop more, or is dropped and counted where that is too many; a packet of an
unknown type is dropped and counted as bad; a packet that waited too long is dropped and counted; a partner entry that is old enough goes; MGMT_RD of
a register that is there answers a fabric manager with its value, MGMT_WR writes registers for one, and both are refused and counted for anyone else.
Rests on choices of the model (log entry 129), besides the spec. -/
def Obligations.RoutingAndManagement : Prop :=
  (∀ (s : State) (port : Fin 64) (p : Packet), alive s = true → p.dst.toNat ≠ selfEp s →
    (typeClass p.type.toNat = none → exec (.packetForward port p) s = .next (finish (bump Reg.pktBad 0 s))) ∧
    (typeClass p.type.toNat ≠ none → max 1 (rfld s Reg.fabCfg 0 16 5) ≤ p.hops.toNat → exec (.packetForward port p) s = .next (finish (bump Reg.pktDropped 0 s))) ∧
    (typeClass p.type.toNat ≠ none → p.hops.toNat < max 1 (rfld s Reg.fabCfg 0 16 5) →
      exec (.packetForward port p) s = .next (finish (send { p with hops := p.hops + 1 } s)))) ∧
  (∀ (s : State) (n : Nat), alive s = true → n < s.fab.waiting.length → ∃ u, exec (.packetDwellExpire n) s = .next (finish u) ∧
    u.fab.waiting = s.fab.waiting.eraseIdx n ∧ u.store = s.store ∧ u.regs = s.regs ∧ cget u Reg.pktDropped 0 = min (cget s Reg.pktDropped 0 + 1) 0xFFFFFFFF) ∧
  (∀ (s : State) (ep : Endpoint) (e : Partner), alive s = true → mget ep.toNat s.fab.partners = some e → partnerOld s ep.toNat e = true →
    exec (.partnerAge ep) s = .next (finish (pumpReqs { s with fab := { s.fab with partners := mdel ep.toNat s.fab.partners } }))) ∧
  (∀ (s : State) (port : Fin 64) (p : Packet) (i : Nat), Arrives s port p → isManager s p.src.toNat = true → regTarget s .mgmt p.addr.toNat = .at i →
    let s1 := readEffect p.addr.toNat i s
    exec (.mgmtRd port p) s = .next (finish (reply (rspTo s1 p .ok 0 0 (leBytes 4 (regValue s .mgmt p.addr.toNat i).toNat)) s1))) ∧
  (∀ (s : State) (port : Fin 64) (p : Packet), Arrives s port p → isManager s p.src.toNat = true →
    let s1 := regWriteAny .mgmt p.addr.toNat p.payload s
    exec (.mgmtWr port p) s = .next (finish (reply (ackTo s1 p .ok 0) s1))) ∧
  (∀ (s : State) (port : Fin 64) (p : Packet), Arrives s port p → isManager s p.src.toNat = false →
    exec (.mgmtRd port p) s = .next (finish (reply (rspTo s p .ownership 0 0 []) (bump Reg.mgmtRefused 0 s))) ∧
    exec (.mgmtWr port p) s = .next (finish (reply (ackTo s p .ownership 0) (bump Reg.mgmtRefused 0 s))))

/-- O33. A flit of 256 bytes whose CRC fails is discarded, counted and asked for again by a NAK; a good flit with the next number is counted and
acknowledged, its acknowledgement and credits taken and its packets delivered; an idle flit that repeats the last number brings only its
acknowledgement and credits; any other good flit is discarded, and a NAK sent unless one has been since the last good flit; a NAK sends the flits
after the number it names again and is counted; after 16 failed replays a port retrains; training that finds a whole lane group brings an enabled port
up at that width, none takes it down with its flits lost; a port that falls loses its flits and raises the LINK trigger, and its peer is lost where no
port to it is up or retraining; a port whose retraining ends without lanes loses the flits it kept. A write of PORT_CFG that clears ENABLE takes the
port down with its flits lost; one that keeps ENABLE and sets RETRAIN takes a port that is up down until it has trained, its flits kept; a write of
RT_DATA_HI puts both halves into the routing entry RT_IDX names, of the table it names; loss of SDS_REFCLK takes every port down, and its return shows
in CLK_STATUS. Rests on choices of the model (log entries 130, 138, 143 and 161), besides the spec. -/
def Obligations.LinksAndPorts : Prop :=
  (∀ (s : State) (port : Fin 64) (fl : List Byte), alive s = true → portUp s port = true → fl.length = 256 →
    (leAt fl 252 4 ≠ (crc32 (fl.take 252)).toNat → exec (.flitReceive port fl) s = .next (finish (sendNak port (bump Reg.portCrcErr port s)))) ∧
    (leAt fl 252 4 = (crc32 (fl.take 252)).toNat → leAt fl 0 2 % 4096 = (portOf s port).rxSeq → leAt fl 4 1 = 0xFF →
      exec (.flitReceive port fl) s = .next (finish (flitAck port fl s))) ∧
    (leAt fl 252 4 = (crc32 (fl.take 252)).toNat → (portOf s port).rxSeq < 4096 → leAt fl 0 2 % 4096 = ((portOf s port).rxSeq + 1) % 4096 →
      let s1 := portSet port (fun q => { q with rxSeq := leAt fl 0 2 % 4096, nakSent := false }) (bump Reg.portRxFlits port s)
      exec (.flitReceive port fl) s = .next (finish (flitBody port fl (flitAck port fl (emit (.flit port (idleFlit s1 port false 0 0)) s1))))) ∧
    (leAt fl 252 4 = (crc32 (fl.take 252)).toNat → leAt fl 0 2 % 4096 ≠ (portOf s port).rxSeq → leAt fl 0 2 % 4096 ≠ ((portOf s port).rxSeq + 1) % 4096 →
      exec (.flitReceive port fl) s = .next (finish (if (portOf s port).nakSent then s else sendNak port s)))) ∧
  (∀ (s : State) (port : Fin 64) (seq : BitVec 12), alive s = true → portUp s port = true →
    let s1 := portAcked port seq.toNat s
    ((portOf s1 port).retry = [] → exec (.flitNak port seq) s = .next (finish s1)) ∧
    ((portOf s1 port).retry ≠ [] → exec (.flitNak port seq) s = .next (finish (replayPort port (bump Reg.portReplays port
      (portSet port (fun q => { q with failedReplays := q.failedReplays + 1 }) s1)))))) ∧
  (∀ (s : State) (port : Fin 64), alive s = true → 16 ≤ (portOf s port).failedReplays → (portOf s port).up = true →
    exec (.linkRetrain port) s = .next (finish (trigger 7 (w64 port) none port (portSet port (fun q =>
      { q with up := false, retraining := true, width := 0, rx := [], failedReplays := 0 }) (bump Reg.portRetrains port s))))) ∧
  (∀ (s : State) (fit : PortFit), alive s = true → portExists s fit.port = true → rbit s Reg.portCfg fit.port 0 = true → rbit s Reg.clkStatus 0 2 = true →
    let w := trainedWidth (if portSplit s fit.port then 4 else 8) fit.laneFail
    (w = 0 → exec (.portTrainDone fit) s = .next (finish (portSet fit.port (fun q => { q with laneFail := fit.laneFail.toNat, retry := [] }) (portFall fit.port s)))) ∧
    (w ≠ 0 → exec (.portTrainDone fit) s = .next (finish (pumpReqs (pumpPort fit.port (replayPort fit.port (portSet fit.port (fun q =>
      { q with up := true, retraining := false, width := w, laneFail := fit.laneFail.toNat, peer := some fit.peer.toNat, failedReplays := 0, nakSent := false }) s))))))) ∧
  (∀ (s : State) (port : Fin 64), alive s = true → (portOf s port).up = true →
    exec (.portDown port) s = .next (finish (peerGone port (trigger 7 (w64 port) none port (portSet port (fun q =>
      { q with up := false, retraining := false, width := 0, rx := [], retry := [] }) s))))) ∧
  (∀ (s : State) (port : Nat), (portOf s port).peer = none → peerGone port s = s) ∧
  (∀ (s : State) (port : Nat), (portOf s port).up = false → (portOf s port).retraining = true → portFall port s = peerGone port (portSet port (fun q =>
      { q with up := false, retraining := false, width := 0, rx := [], retry := [] }) s)) ∧
  (∀ (s : State) (port ep : Nat), (portOf s port).peer = some ep → peerGone port s =
      if ∃ e ∈ s.fab.ports, (e.2.up = true ∨ e.2.retraining = true) ∧ e.2.peer = some ep then s else endpointLost ep s) ∧
  (∀ (s : State) (path : Path) (v : W32) (i : Nat), Reaches s path Reg.portCfg i → let s1 := taken path Reg.portCfg i v s
    (bit v 0 = false → exec (.portCfgEnable path v) s = .next (finish (portSet i (fun q => { q with retry := [] }) (portFall i s1)))) ∧
    (bit v 0 = true → bit v 1 = false → exec (.portCfgEnable path v) s = .next (finish s1)) ∧
    (bit v 0 = true → bit v 1 = true → (portOf s1 i).up = false → exec (.portRetrain path v) s = .next (finish s1)) ∧
    (bit v 0 = true → bit v 1 = true → (portOf s1 i).up = true →
      exec (.portRetrain path v) s = .next (finish (trigger 7 (w64 i) none i (portSet i (fun q =>
        { q with up := false, retraining := true, width := 0, rx := [], failedReplays := 0 }) (bump Reg.portRetrains i s1)))))) ∧
  (∀ (s : State) (path : Path) (v : W32), Reaches s path Reg.rtDataHi 0 →
    let s1 := taken path Reg.rtDataHi 0 v s
    let e := (rget s1 Reg.rtDataLo 0, rget s1 Reg.rtDataHi 0)
    (rbit s1 Reg.rtIdx 0 16 = true → exec (.rtDataHiWrite path v) s = .next (finish (pumpReqs
      { s1 with fab := { s1.fab with member := mput (0, 0) (rfld s1 Reg.rtIdx 0 0 10 % 256) e s1.fab.member } }))) ∧
    (rbit s1 Reg.rtIdx 0 16 = false → exec (.rtDataHiWrite path v) s = .next (finish (pumpReqs
      { s1 with fab := { s1.fab with group := mput (0, 0) (rfld s1 Reg.rtIdx 0 0 10) e s1.fab.group } })))) ∧
  (∀ (s : State), alive s = true →
    exec .sdsRefclkLoss s = .next (finish ((s.fab.ports.map (·.1)).foldl (fun s p => portFall p s) (rsetFld Reg.clkStatus 0 2 1 0 s))) ∧
    exec .sdsRefclkReturn s = .next (finish (rsetFld Reg.clkStatus 0 2 1 1 s))) ∧
  (∀ (s : State) (port : Nat), (portOf s port).up = false → (portOf s port).retraining = false → portFall port s = s)

/-- O34. A request about a line homed here is checked by R566, RdOwn and Upgrade then by the write guards. One of an agent with a slot that may cache
the line runs the transaction of Table 9-5 where its line is free, the home has room for a transaction and the set for an entry; one that may not is
served uncached and counted, which where nothing waits, no transaction is open and the directory is empty is Data with grant I. A write-back of the
recorded owner writes the line and leaves the entry I, or for WrBackS shared by it, any other is stale and counted; Evict removes the sender; each is
answered by Cmp. Rests on choices of the model (log entries 24, 27 and 145), besides the spec. -/
def Obligations.CoherenceRequests : Prop :=
  (∀ (s s1 s2 : State) (port : Fin 64) (p : Packet) (dir : Media) (x : Nat), Arrives s port p → agentChecks p (lineChecked p dir s) = (none, s1) →
    let line := lineOf (msgOff p)
    let runs := fun u : State => cacheable u (msgOff p) (some x) = true ∧ lineBusy u line = false ∧ txnRoom u = true ∧ ((dirEntry u line).isSome = true ∨ setUsed u line < dirWays)
    (senderSlot p.src.toNat s1 = (some x, s2) → runs s2 → exec (.rdShared port p dir) s = .next (finish (agentCached port p x (dirLookup line s2)))) ∧
    (∀ s3, writeGuards (msgOff p) (.agent p.src.toNat) s1 = (true, s3) → senderSlot p.src.toNat s3 = (some x, s2) → runs s2 →
      exec (.rdOwn port p dir) s = .next (finish (agentCached port p x (dirLookup line s2))) ∧
      exec (.upgrade port p dir) s = .next (finish (agentCached port p x (dirLookup line s2))))) ∧
  (∀ (s s1 s2 : State) (port : Fin 64) (p : Packet) (dir : Media) (x : Option Nat), Arrives s port p → agentChecks p (lineChecked p dir s) = (none, s1) → cacheable s2 (msgOff p) x = false →
    let u := agentUncached port p x false (bump Reg.cohUncached (partAt s2 (msgOff p)) s2)
    (senderSlot p.src.toNat s1 = (x, s2) → exec (.rdShared port p dir) s = .next (finish u)) ∧
    (∀ s3, writeGuards (msgOff p) (.agent p.src.toNat) s1 = (true, s3) → senderSlot p.src.toNat s3 = (x, s2) →
      exec (.rdOwn port p dir) s = .next (finish u) ∧ exec (.upgrade port p dir) s = .next (finish u))) ∧
  (∀ (s : State) (port : Nat) (p : Packet) (x : Option Nat) (q : Bool), s.coh.waiting = [] → s.coh.txns = [] → s.coh.dir = [] →
    let (bs, bad, s1) := lineData (lineOf (msgOff p)) (countRead (msgOff p) 64 (if q then s else lookups (msgOff p) 64 s))
    agentUncached port p x q s = send { answer s1 p tDATA (w64 (msgOff p)) (w64 gI) bs with pois := w64 (b2n bad) } s1) ∧
  (∀ (port : Nat) (p : Packet) (x : Nat) (s : State),
    agentCached port p x s = if p.type.toNat = tRDSHARED then sharedRead (lineOf (msgOff p)) x (slotKind s x != 0) (.agent port p (some x)) (countRead (msgOff p) 64 s)
      else ownRead (lineOf (msgOff p)) x (p.type.toNat == tUPGRADE) (.agent port p (some x)) (countAccess (msgOff p) 64 true s)) ∧
  (∀ (s s1 s2 : State) (port : Fin 64) (p : Packet) (dir : Media) (x : Nat), Arrives s port p → agentChecks p (lineChecked p dir s) = (none, s1) →
    let line := lineOf (msgOff p)
    lineBusy s1 line = false → holderSlot line p (dirLookup line s1) = (some x, s2) →
    let s3 := (storeCells (line * 64) ((slice p.payload 0 64).map some) s2).2
    let took := fun next : Option DirEntry => agentCmp p (hurtLine line (p.pois.getLsbD 0) (setEntry line next s3))
    let stale := agentCmp p (bump Reg.cohStaleWb 0 s2)
    (writeGate s2 (msgOff p) = .go →
      (ownerOf s2 line = some x → slotLost s2 x = false →
        (p.type.toNat = tWRBACK → exec (.wrBack port p dir) s = .next (finish (took none))) ∧
        (p.type.toNat = tWRBACKS → exec (.wrBackS port p dir) s = .next (finish (took (some (if slotKind s3 x = 0 then lead x [x] else shared [x])))))) ∧
      (ownerOf s2 line ≠ some x ∨ slotLost s2 x = true → exec (.wrBack port p dir) s = .next (finish stale) ∧ exec (.wrBackS port p dir) s = .next (finish stale))) ∧
    exec (.evict port p dir) s = .next (finish (agentCmp p (evictNotice line x s2))))

/-- O35. GrantAck of the requester closes its transaction, the entry taking its next state, or is remembered where the lead has not answered;
RecallAck of an awaited holder brings its data back into memory, counts NOT_HELD, and is awaited no more, the holder's bit going where it no longer
holds the line; one nobody waits for changes nothing. A recall whose time is out makes the holder's slot LOST. RecallInv and RecallShare are passed to
every host that runs CXL.mem and whose decoders cover the line, or are answered NOT_HELD where there is none; Data and Cmp for a host's request bring
it its grant, which is acknowledged unless it is I. Rests on choices of the model (log entry 127), besides the spec. -/
def Obligations.CoherenceAnswers : Prop :=
  (∀ (s : State) (port : Fin 64) (p : Packet) (t : Txn) (q : Packet) (k : Nat) (y : Option Nat), Arrives s port p → txnOf s (lineOf (msgOff p)) = some t →
    t.req = some (.agent k q y) → q.src = p.src →
    (t.grantAck = true → exec (.grantAck port p) s = .next (finish (setEntry (lineOf (msgOff p)) t.next (closeTxn (lineOf (msgOff p)) s)))) ∧
    (t.grantAck = false → t.forward = true → exec (.grantAck port p) s = .next (finish (txnMod (lineOf (msgOff p)) (fun t => { t with early := true }) s)))) ∧
  (∀ (s : State) (port : Fin 64) (p : Packet), Arrives s port p → txnOf s (lineOf (msgOff p)) = none →
    exec (.grantAck port p) s = .next (finish s) ∧ exec (.recallAck port p) s = .next (finish s)) ∧
  (∀ (s : State) (port : Fin 64) (p : Packet) (t : Txn) (n : Nat), Arrives s port p → txnOf s (lineOf (msgOff p)) = some t → awaitedSlot s t p = some n →
    let line := lineOf (msgOff p)
    let result := fld p.arg 2 2
    let drop := result == 2 || t.row == TxnRow.ow || t.row == TxnRow.iw || t.row == TxnRow.de
    exec (.recallAck port p) s = .next (finish (graced t.grace (line * 64) 64 (fun u =>
      let u1 := if result = 1 then hurtLine line (p.pois.getLsbD 0) (memPut (line * 64) (slice p.payload 0 64) (copyOnWrite (line * 64 / pageSize) u)).2 else u
      let u2 := if result = 2 then bump Reg.cohNotHeld 0 u1 else u1
      resolveTxn line (txnMod line (fun t => { t with await := t.await.filter fun a => a.1 ≠ n, gone := if drop then n :: t.gone else t.gone }) u2)) s))) ∧
  (∀ (s : State) (line : BitVec 44) (slot : Byte) (t : Txn), alive s = true → txnOf s line.toNat = some t → (slot.toNat, 0) ∈ t.await →
    exec (.recallTimeout line slot) s = .next (finish (graced t.grace (line.toNat * 64) 64 (fun u => resolveTxn line.toNat (holderLost line.toNat slot.toNat
      (txnMod line.toNat (fun t => { t with await := t.await.filter fun a => a.1 ≠ slot.toNat }) u))) (slotMod slot.toNat (fun x => { x with lost := true }) s)))) ∧
  (∀ (s : State) (port : Fin 64) (p : Packet) (share : Bool), Arrives s port p →
    let ports := snoopPorts s p.src.toNat (msgOff p)
    let n : Snoop := { ports := ports, home := p.src.toNat, off := msgOff p, tid := p.tid.toNat, share := share, held := false, dirty := none }
    let s1 := ownedSet 0 p.src.toNat (msgOff p) false (ownedSet 1 p.src.toNat (msgOff p) false s)
    let u := if ports = [] then send { mkPacket s1 tRECALLACK p.src.toNat (w64 (msgOff p)) (w64 (inFld 2 2 2)) [] with tid := BitVec.ofNat 18 p.tid.toNat, pois := w64 0 } s1
      else ports.foldl (fun s q => emit (.cxlSnoop q.1 q.2 share) s) { s1 with host := { s1.host with snoops := s1.host.snoops ++ [n] } }
    (share = true → exec (.recallShare port p) s = .next (finish u)) ∧ (share = false → exec (.recallInv port p) s = .next (finish u))) ∧
  (∀ (s : State) (port : Fin 64) (p : Packet) (r : Req) (hp tag op : Nat), Arrives s port p → reqOf (heardFrom p.src.toNat s) p.tid = some r → r.owner = .cxl hp tag op →
    let g := fld p.arg 0 2
    let s1 := hostGranted hp r g (endReq r.tag (heardFrom p.src.toNat s))
    let ack := fun u : State => if g = gI then u else send (answer u p tGRANTACK p.addr 0 []) u
    exec (.data port p) s = .next (finish (ack (emit (.cxlData hp tag (slice p.payload 0 64) (p.pois != 0) (hostGrant g)) s1))) ∧
    exec (.cmp port p) s = .next (finish (ack (emit (.cxlCmp hp tag (hostGrant g)) s1))))

/-- O36. With every answer in, nothing lost and no GrantAck awaited: an ownership request of a host leaves it the one owner in M, an invalidating
write leaves no entry, and a shared read of a host of a line nobody holds leaves it the one sharer; a fabric agent's ownership request is granted M
and closes at its GrantAck; while an answer is awaited nothing changes. An Evict of a sharer takes only it out of the entry, and the last sharer's
Evict frees the entry; every other line keeps its state, lead and sharers. -/
def Obligations.DirectoryTransitions : Prop :=
  (∀ (s : State) (line x hp op tag l : Nat) (mv : MetaValue) (data : List Byte) (be : W64) (bad : Bool), txnOf s line = none → dirEntry s line = none →
    (dirEntry (sharedRead line x true (.host hp op l mv tag data be bad) s) line).map (fun e => (e.st, e.sharers)) = some (.s, [x])) ∧
  ∀ (s : State) (line : Nat) (t : Txn), txnOf s line = some t →
    (t.await ≠ [] → resolveTxn line s = s) ∧
    (t.await = [] → t.grantAck = false → t.lost = false →
      (t.row = .iw → t.next = none → mget line (resolveTxn line s).coh.dir = none ∧ txnOf (resolveTxn line s) line = none) ∧
      (∀ x hp op l mv tag data be bad, t.req = some (.host hp op l mv tag data be bad) → t.slot = some x → t.withData = false →
        (t.row = .ow → (mget line (resolveTxn line s).coh.dir).map (fun e => (e.st, e.sharers)) = some (.m, [x]) ∧ txnOf (resolveTxn line s) line = none)) ∧
      (∀ x k p y, t.req = some (.agent k p y) → t.slot = some x → t.row = .ow → t.withData = false →
        (txnOf (resolveTxn line s) line).map (fun u => (u.grantAck, u.next)) = some (true, some (modif x)) ∧ (resolveTxn line s).coh.dir = s.coh.dir)) ∧
    (∀ x e, dirEntry s line = some e → owned e = false →
      (e.sharers.filter (· ≠ x) = [] → dirEntry (evictNotice line x s) line = none) ∧
      (e.sharers.filter (· ≠ x) ≠ [] → (dirEntry (evictNotice line x s) line).map (·.sharers) = some (e.sharers.filter (· ≠ x))) ∧
      ∀ l, l ≠ line → (dirEntry (evictNotice line x s) l).map (fun e => (e.st, e.lead, e.sharers)) = (dirEntry s l).map fun e => (e.st, e.lead, e.sharers))

/-- O37. MemRd, MemWr and MemInv run as requests, once the directory's memory has been checked: nothing where CXL.mem does not run; not served where
no committed decoder covers the address, which is counted; served here where the address resolves to this hub; sent to its home as its message where
it resolves to another, a MemWr of a whole line that its host owns as the write-back. MemClnEvct takes the same way as an Evict. A BIRsp answers the
snoop it belongs to, the last one towards the remote home, or this home's own transaction; BIConflict is completed by BIConflictAck. Here, a request
that passes the address, KEY and unit checks is a read, an ownership request that the guards may refuse, or a write of the line; a read with MetaValue
I, and one of a host that may not cache the line, is uncached; any other runs its transaction where the line is free and there is room. A MemWr of a
line being recalled from its owner brings the data; to a page that holds writes it waits there; of the recorded owner it is a write-back; any other
meets the guards and invalidates every copy before it is written and completed. Rests on choices of the model (log entries 92 and 160), besides the
spec. -/
def Obligations.CxlMemRequests : Prop :=
  (∀ (s : State) (hp : Fin 2) (hpa : W64) (mv : MetaValue) (data : List Byte) (be : W64) (bad : Bool) (tag : BitVec 16) (dir : Media), alive s = true →
    let s0 := hostChecked hp hpa.toNat dir s
    exec (.memRd hp hpa mv tag dir) s = .next (finish (cxlRequest hp 0 hpa.toNat mv [] 0 false tag.toNat s0)) ∧
    exec (.memWr hp hpa mv data be tag bad dir) s = .next (finish (cxlRequest hp 1 hpa.toNat mv data be bad tag.toNat s0)) ∧
    exec (.memInv hp hpa mv tag dir) s = .next (finish (cxlRequest hp 2 hpa.toNat mv [] 0 false tag.toNat s0)) ∧
    exec (.memClnEvct hp hpa tag dir) s = .next (finish (cxlEvict hp hpa.toNat tag.toNat s0))) ∧
  (∀ (s : State) (hp op hpa tag : Nat) (mv : MetaValue) (data : List Byte) (be : W64) (bad : Bool),
    let run := cxlRequest hp op hpa mv data be bad tag s
    (cxlRuns s hp = false → run = s ∧ cxlEvict hp hpa tag s = s) ∧
    (cxlRuns s hp = true → fatal s = false →
      (hdmFind s hp hpa = none → run = cxlFail hp op tag (dropHost hp s) ∧ cxlEvict hp hpa tag s = emit (.cxlCmp hp tag gI) (dropHost hp s)) ∧
      ∀ fa part, hdmFind s hp hpa = some (fa, part) → let fa := fa / 64 * 64
        (intakeStopped s part = false → commitHolds s fa = false → unitStopped s 8 (some part) = false →
          ∀ (ep off : Nat) (s1 : State), let right := if op = 1 ∨ mv = .a then 1 else 0
            resolve fa part right s = (.home ep off, s1) →
            (ep = selfEp s1 → run = cxlLocal hp op off part mv data be bad tag s1) ∧
            (ep ≠ selfEp s1 → op = 1 → run = cxlSendWrite hp ep off fa part mv data be bad tag s1) ∧
            (ep ≠ selfEp s1 → op ≠ 1 → ∀ s2, sendReq (mkReq (stampKey s1 part (cxlPacket s1 op ep off mv)) (some fa) right part (.cxl hp tag op)) s1 = (.gone, s2) → run = s2)) ∧
        (∀ (ep off : Nat) (s1 : State), resolve fa part 0 s = (.home ep off, s1) →
          (ep = selfEp s1 → cxlEvict hp hpa tag s = cxlClean hp (lineOf off) .i tag false s1) ∧
          (ep ≠ selfEp s1 → ∀ s2, sendReq (mkReq (stampKey s1 part (cxlPacket s1 3 ep off .i)) (some fa) 0 part (.cxl hp tag 3)) (ownedSet hp ep off false s1) = (.gone, s2) →
            cxlEvict hp hpa tag s = s2)))) ∧
  (∀ (s s2 : State) (hp ep off fa part tag : Nat) (mv : MetaValue) (data : List Byte) (bad : Bool), hostOwns s hp ep off = true →
    (s.host.snoops.any fun n => n.ports.any (fun q => q.1 == hp) && n.home == ep && n.off == off) = false →
    let s1 := ownedSet hp ep off false s
    let p : Packet := { mkPacket s (if mv = .s then tWRBACKS else tWRBACK) ep (w64 off) 0 (slice data 0 64) with pois := w64 (b2n bad) }
    sendReq (mkReq (stampKey s1 part p) (some (fa + ((w64 off).toNat - off))) 1 part (.cxl hp tag 1)) s1 = (.gone, s2) →
      cxlSendWrite hp ep off fa part mv data (BitVec.allOnes 64) bad tag s = s2) ∧
  (∀ (s : State) (hp line x tag : Nat) (mv : MetaValue), slotOfHost s hp = some x → lineBusy s line = false →
    cxlClean hp line mv tag false s = emit (.cxlCmp hp tag gI) (evictNotice line x (dirLookup line s))) ∧
  (∀ (s : State) (hp : Fin 2) (hpa : W64) (r : BiRsp), alive s = true → cxlRuns s hp = true →
    (∀ n, (s.host.snoops.find? fun n => n.ports.contains (hp.val, hpa.toNat)) = some n →
      let m : Snoop := { n with ports := n.ports.filter fun q => q.1 ≠ hp, held := n.held || r != .i }
      exec (.biRsp hp hpa r) s = .next (finish (if m.ports = [] then snoopAck m { s with host := { s.host with snoops := s.host.snoops.erase n } }
        else { s with host := { s.host with snoops := replaceFirst (· == n) (fun _ => m) s.host.snoops } }))) ∧
    ((s.host.snoops.find? fun n => n.ports.contains (hp.val, hpa.toNat)) = none → ∀ fa part off x t, hdmFind s hp hpa.toNat = some (fa, part) →
      resolveIn s.fab.current (fa / 64 * 64) (fkey s part) 0 = .home (selfEp s) off → slotOfHost s hp = some x → txnOf s (lineOf off) = some t →
      exec (.biRsp hp hpa r) s = .next (finish (recallAnswer (lineOf off) x (r == .i && !t.wrote) none
        (if r = .i then txnMod (lineOf off) (fun t => { t with gone := x :: t.gone }) s else s))))) ∧
  (∀ (s : State) (hp : Fin 2) (hpa : W64), alive s = true →
    (cxlRuns s hp = true → exec (.biConflict hp hpa) s = .next (finish (emit (.cxlConflictAck hp hpa.toNat) s))) ∧
    (cxlRuns s hp = false → exec (.biConflict hp hpa) s = .next (finish s))) ∧
  (∀ (s : State) (hp op off part : Nat) (mv : MetaValue) (data : List Byte) (be : W64) (bad : Bool) (tag : Nat) (a : Nat),
    addrOf s off 64 = .store a → fkey s (addrPart s (.store a)) = fkey s part → homeStopped s (.store a) off 64 none = false →
      let run := cxlLocal hp op off part mv data be bad tag s
      (op = 1 → run = cxlWrite hp (lineOf off) mv data be bad tag false s) ∧
      (op ≠ 1 → mv ≠ .a → run = cxlRead hp (lineOf off) mv tag (op == 2) false s) ∧
      (∀ s1, op ≠ 1 → mv = .a → writeGuards off (.host hp) s = (true, s1) → run = cxlRead hp (lineOf off) mv tag (op == 2) false s1) ∧
      (∀ s1, op ≠ 1 → mv = .a → writeGuards off (.host hp) s = (false, s1) → run = cxlFail hp op tag s1)) ∧
  (∀ (s u : State) (hp line tag : Nat) (mv : MetaValue) (inv q : Bool),
    (mv = .i ∧ u = s) ∨ (mv ≠ .i ∧ cacheable s (line * 64) (slotOfHost s hp) = false ∧ u = bump Reg.cohUncached (partAt s (line * 64)) s) →
    cxlRead hp line mv tag inv q s = coherent (line * 64) 64 false q (.host hp (if inv then 2 else 0) line mv tag [] 0 false) (fun s =>
      if inv then emit (.cxlCmp hp tag gI) s
      else let (bs, bad, s) := lineData line (countRead (line * 64) 64 s); emit (.cxlData hp tag bs bad gI) s) u) ∧
  (∀ (s : State) (hp line x tag : Nat) (mv : MetaValue) (inv : Bool), slotOfHost s hp = some x → mv ≠ .i → cacheable s (line * 64) (some x) = true →
    lineBusy s line = false → txnRoom s = true → ((dirEntry s line).isSome = true ∨ setUsed s line < dirWays) →
    let s1 := dirLookup line s
    let r := CohReq.host hp (if inv then 2 else 0) line mv tag [] 0 false
    cxlRead hp line mv tag inv false s =
      if mv = .a then ownRead line x inv r (countAccess (line * 64) 64 true s1) else sharedRead line x true r (countRead (line * 64) 64 s1)) ∧
  (∀ (s : State) (hp line : Nat) (mv : MetaValue) (data : List Byte) (be : W64) (bad : Bool) (tag : Nat),
    let run := cxlWrite hp line mv data be bad tag false s
    (∀ x t, slotOfHost s hp = some x → txnOf s line = some t → t.await.any (fun a => a.1 = x) = true → ownerOf s line = some x →
      run = emit (.cxlCmp hp tag gI) (txnMod line (fun t => { t with wrote := true }) (hurtLine line bad (storeCells (line * 64) (beCells data be) s).2))) ∧
    (lineBusy s line = false →
      (writeGate s (line * 64) = .hold ∨ writeGate s (line * 64) = .snapWait → run = holdAt (line * 64) (writeGate s (line * 64)) (.cxl hp line mv tag data be bad) s) ∧
      (writeGate s (line * 64) = .go →
        (∀ x, hostOwner s hp line = some x → run = emit (.cxlCmp hp tag gI) (hurtLine line bad (writeBack line x (mv == .s) (beCells data be) (dirLookup line s)).2)) ∧
        (∀ s1, hostOwner s hp line = none → writeGuards (line * 64) (.host hp) s = (false, s1) → run = emit (.cxlCmp hp tag gI) s1) ∧
        (∀ s1, hostOwner s hp line = none → writeGuards (line * 64) (.host hp) s = (true, s1) →
          run = coherent (line * 64) 64 true true (.host hp 1 line mv tag data be bad)
            (fun s => emit (.cxlCmp hp tag gI) (hurtLine line bad (storeCells (line * 64) (beCells data be) s).2)) s1))))

/-- O38. A pass begins with up to eight waiting walks when none runs, and recalls what they match; it ends, once the entries read have been checked,
when nothing of what they matched is recorded and no open transaction leaves a copy of it, doing then what each walk was for, or recalls again; a
fatal hub walks nothing. SET gives a free slot its identity, CLEAR frees a slot at once where it is free and by a walk of every line where it is not,
CLEAR_LOST makes a LOST slot usable. Rests on choices of the model (log entries 30, 86 and 144), besides the spec. -/
def Obligations.WalksAndSlots : Prop :=
  (∀ (s : State), alive s = true → fatal s = false →
    ((s.coh.walks.any (·.running)) = false → s.coh.walks ≠ [] → exec .walkPassStart s = .next (finish (walkRecall { s with coh := { s.coh with
      walks := s.coh.walks.zipIdx.map fun e => if e.2 < 8 then { e.1 with running := true } else e.1 } }))) ∧
    ∀ dir : Media, let s1 := walkChecked dir s
      (s1.coh.walks.any (·.running) = false → exec (.walkPassEnd dir) s = .next (finish s1)) ∧
      (s1.coh.walks.any (·.running) = true → walkClear s1 = true → exec (.walkPassEnd dir) s = .next (finish
        ((s1.coh.walks.filter (·.running)).foldl (fun s w => walkDone w s) { s1 with coh := { s1.coh with walks := s1.coh.walks.filter fun w => !w.running } }))) ∧
      (s1.coh.walks.any (·.running) = true → walkClear s1 = false → exec (.walkPassEnd dir) s = .next (finish (walkRecall s1)))) ∧
  (∀ (s : State) (dir : Media), alive s = true → fatal s = true → exec .walkPassStart s = .next (finish s) ∧ exec (.walkPassEnd dir) s = .next (finish s)) ∧
  (∀ (s : State) (path : Path) (v : W32) (i : Nat), Accepts s path Reg.cohAgentCmd 1 7 v i → let s1 := taken path Reg.cohAgentCmd i v s
    let n := rfld s1 Reg.cohAgentNum 0 0 8
    let kind := rfld s1 Reg.cohAgent 0 18 2
    let ep := rfld s1 Reg.cohAgent 0 0 18
    (cohSlot s n = none → kind ≠ 3 → slotOfId s kind ep = none → ∃ u, exec (.cohAgentSet path v) s = .next (finish u) ∧
      cohSlot u n = some { kind := kind, ep := ep, lost := false } ∧ u.store = s.store ∧ fld (rget u Reg.cohAgentCmd 0) 8 8 = Status.ok.code)) ∧
  (∀ (s : State) (path : Path) (v : W32) (i : Nat), Accepts s path Reg.cohAgentCmd 2 7 v i → let s1 := taken path Reg.cohAgentCmd i v s
    let n := rfld s1 Reg.cohAgentNum 0 0 8
    (cohSlot s n = none → exec (.cohAgentClear path v) s = .next (finish (cmdEnd Reg.cohAgentCmd 0 .ok s1))) ∧
    (cohSlot s n ≠ none → exec (.cohAgentClear path v) s = .next (finish (addWalk { lo := 0, hi := stageBase, slot := some n, why := .clearSlot n, running := false }
      (setBusy Reg.cohAgentCmd 0 true s1))))) ∧
  (∀ (s : State) (path : Path) (v : W32) (i : Nat) (x : Slot), Accepts s path Reg.cohAgentCmd 3 7 v i → let s1 := taken path Reg.cohAgentCmd i v s
    let n := rfld s1 Reg.cohAgentNum 0 0 8
    cohSlot s n = some x → (x.lost = true → ∃ u, exec (.cohAgentClearLost path v) s = .next (finish u) ∧ cohSlot u n = some { x with lost := false } ∧ u.store = s.store) ∧
      (x.lost = false → exec (.cohAgentClearLost path v) s = .next (finish (cmdEnd Reg.cohAgentCmd 0 .decode s1))))

/-- O39. CREATE of an aligned range inside one allocation of the partition, apart from every region, makes the lowest free region; DESTROY removes
one; OWN of a region whose owner has no slot switches at once, else it walks the owner's lines first; QUERY shows the region. A command on another
partition's region is OWNERSHIP. Rests on choices of the model (log entries 34 and 30), besides the spec. -/
def Obligations.RegionCommands : Prop :=
  (∀ (s : State) (path : Path) (v : W32) (i a : Nat) (al : Alloc), Accepts s path Reg.regionCmd 1 7 v i → let s1 := taken path Reg.regionCmd i v s
    let base := regionBase s1 i
    let pages := rfld s1 Reg.regionSize i 0 28
    let o := rget s1 Reg.regionOwner i
    let n := freeKeyFrom 0 s.coh.regions
    allocAt s (base * pageSize) = some a → allocOf s a = some al → al.part = i → 0 < pages → base + pages ≤ al.base + al.pages →
    (s.coh.regions.any fun r => overlap r.2.base r.2.pages base pages) = false → fld o 18 2 ≠ 3 → n < 4096 →
      ∃ u, exec (.regionCreate path v) s = .next (finish u) ∧ u.store = s.store ∧
        mget n u.coh.regions = some { part := i, base := base, pages := pages, kind := fld o 18 2, ep := fld o 0 18 } ∧ rfld u Reg.regionCmd i 20 12 = n) ∧
  (∀ (s : State) (path : Path) (v : W32) (i : Nat) (r : Region), let n := regionNum (taken path Reg.regionCmd i v s) i
    mget n s.coh.regions = some r → r.part = i →
    let s1 := taken path Reg.regionCmd i v s
    (Accepts s path Reg.regionCmd 2 7 v i → ∃ u, exec (.regionDestroy path v) s = .next (finish u) ∧ mget n u.coh.regions = none ∧
      (∀ k, k ≠ n → mget k u.coh.regions = mget k s.coh.regions) ∧ u.store = s.store) ∧
    (Accepts s path Reg.regionCmd 3 7 v i → let o := rget s1 Reg.regionOwner i
      fld o 18 2 ≠ 3 →
      (slotOfId s r.kind r.ep = none → exec (.regionOwn path v) s = .next (finish (cmdEnd Reg.regionCmd i .ok (regionGive n (fld o 18 2) (fld o 0 18) s1)))) ∧
      (∀ x, slotOfId s r.kind r.ep = some x → exec (.regionOwn path v) s = .next (finish (addWalk
        { lo := r.base * pageSize, hi := (r.base + r.pages) * pageSize, slot := some x, why := .ownReg n (fld o 18 2) (fld o 0 18), running := false } (setBusy Reg.regionCmd i true s1))))) ∧
    (Accepts s path Reg.regionCmd 4 7 v i → exec (.regionQuery path v) s = .next (finish (cmdEnd Reg.regionCmd i .ok
      (rset Reg.regionSize i (w32 r.pages) (rset Reg.regionOwner i (w32 (r.kind * 2 ^ 18 + r.ep))
        (rset Reg.regionBaseLo i (w32 (r.base * pageSize)) (rset Reg.regionBaseHi i (w32 (r.base * pageSize / 2 ^ 32)) s1)))))))) ∧
  (∀ (s : State) (i : Nat) (r : Region) (f : Nat → Region → State → State), mget (regionNum s i) s.coh.regions = some r → r.part ≠ i →
    regionFor i f s = cmdEnd Reg.regionCmd i .ownership s)

/-- O40. COMMIT of a good staged sheet with the next epoch, while no previous sheet is live, starts step 1 with the entries it changes; an epoch or
fields that are wrong give DECODE and a live previous sheet QUOTA; DISCARD copies the current sheet into the staged one; once no request in a changed
entry is outstanding the walks begin; once they have answered the sheets switch, the old one live as previous under its epoch, and the requests held
meanwhile run; the previous sheet retires when nothing is in flight under it or its time is out. Rests on choices of the model (log entry 96), besides
the spec. -/
def Obligations.CallSheetCommands : Prop :=
  (∀ (s : State) (path : Path) (v : W32) (i : Nat), Accepts s path Reg.csCmd 1 8 v i → let s1 := taken path Reg.csCmd i v s
    let e := rfld s1 Reg.csCmd 0 16 16
    s1.mgmt.csBad = s.mgmt.csBad → s.mgmt.csBad.contains 0 = false →
    (e = (s.fab.epoch + 1) % 65536 → stagedBad s1 = false → s.fab.prevLive = false → exec (.csCommit path v) s = .next (finish (setBusy Reg.csCmd 0 true { s1 with fab := { s1.fab with
      commit := some { epoch := e, step := 2, changed := (changedEntries s1).map fun x => (csBase x.2, csEnd x.2), held := [], ownWalk := false, edges := 0 } } }))) ∧
    (e ≠ (s.fab.epoch + 1) % 65536 ∨ stagedBad s1 = true → exec (.csCommit path v) s = .next (finish (cmdEnd Reg.csCmd 0 .decode s1))) ∧
    (e = (s.fab.epoch + 1) % 65536 → stagedBad s1 = false → s.fab.prevLive = true → exec (.csCommit path v) s = .next (finish (cmdEnd Reg.csCmd 0 .quota s1)))) ∧
  (∀ (s : State) (path : Path) (v : W32) (i : Nat), Accepts s path Reg.csCmd 2 8 v i → ∃ u, exec (.csDiscard path v) s = .next (finish u) ∧
    u.fab.staged = s.fab.current ∧ u.fab.current = s.fab.current ∧ u.fab.epoch = s.fab.epoch ∧ u.store = s.store) ∧
  (∀ (s : State) (c : Commit), alive s = true → s.fab.commit = some c →
    (c.step = 2 → commitBusy s c = false → exec .commitRequestsDrained s = .next (finish (commitWalks 1 (commitWalks 0 { s with fab := { s.fab with commit := some { c with step := 4, edges := 0 } } })))) ∧
    (c.step = 4 → commitAnswered s c = true → exec .commitSwitch s = .next (finish (commitSwitch s))) ∧
    (c.step = 4 → commitAnswered s c = true → c.held = [] → s.host.fns = [] →
      (commitSwitch s).fab.current = s.fab.staged ∧ (commitSwitch s).fab.previous = s.fab.current ∧ (commitSwitch s).fab.epoch = c.epoch ∧
      (commitSwitch s).fab.prevEpoch = s.fab.epoch ∧ (commitSwitch s).fab.prevLive = true ∧ (commitSwitch s).fab.commit = none ∧ (commitSwitch s).store.mem = s.store.mem)) ∧
  (∀ (s : State), alive s = true → s.fab.prevLive = true → prevInflight s = 0 ∨ csDrain s ≤ s.fab.prevEdges →
    exec .prevEpochRetire s = .next (finish { s with fab := { s.fab with prevLive := false } }))

/-- O41. Under a function that is not being reset, of a hub with an image and without a fatal condition, with the partition's intake running: an
access of a partition function at its aperture is held while a commit changes its entry, is served at this hub where its fabric address resolves to
it, and goes out as RD, WR or ATOMIC where it resolves to another hub. A function without a partition, or a 128-bit CAS, is answered as one without
the right, which is Unsupported Request for a read and a drop for a posted write; so is any access of a function being reset or of a hub without an
image; under a fatal condition an access ends as RESET, and with the intake stopped as POISON. An answer leaves at once, or waits at its port behind
posted writes that are not yet performed. Rests on choices of the model (log entries 28, 98, 162 and 171), besides the spec. -/
def Obligations.HostApertureAccesses : Prop :=
  (∀ (s : State) (path : Path) (off : W64) (op : HostOp) (c : Instr), alive s = true → c = .bar2Access path off op ∨ c = .proxyBarAccess path off op →
    (fnResetting s path = true ∨ s.boot.image = none → exec c s = .next (finish (hostAnswer path (opPosted op) true (opLen op) .ownership [] s))) ∧
    (fnResetting s path = false → s.boot.image ≠ none →
      (fatal s = true → exec c s = .next (finish (hostAnswer path (opPosted op) false (opLen op) .reset [] s))) ∧
      (∀ part, fatal s = false → pathPart s path = some part → intakeStopped s part = true →
        exec c s = .next (finish (hostAnswer path (opPosted op) false (opLen op) .poison [] s))))) ∧
  (∀ (s : State) (path : Path) (n : Nat) (data : List Byte) (e : Emit),
    hostAnswer path true true n .ownership data s = dropHost (pathPort path) s ∧
    hostAnswer path false true n .ownership data s = hostEmit path (.hostUr path) (bump (Reg.hostUr + 256 * pathPort path) 0 s) ∧
    hostEmit path e s = if portBlocked s path then { s with host := { s.host with portQ := s.host.portQ ++ [.answer (pathPort path) e] } } else emit e s) ∧
  (∀ (s : State) (path : Path) (off : W64) (op : HostOp), alive s = true → fnResetting s path = false → s.boot.image ≠ none → fatal s = false →
    pathPart s path = none → isProxy s path = false → exec (.bar2Access path off op) s = .next (finish (hostAnswer path (opPosted op) true (opLen op) .ownership [] s))) ∧
  (∀ (s : State) (path : Path) (off : W64) (op : HostOp) (part : Nat), alive s = true → fnResetting s path = false → s.boot.image ≠ none → fatal s = false →
    pathPart s path = some part → intakeStopped s part = false → isProxy s path = false →
    let fa := aptBase s (fnIdx path) + off.toNat
    (op = .cas128 → exec (.bar2Access path off op) s = .next (finish (hostAnswer path false true 16 .ownership [] s))) ∧
    (op ≠ .cas128 → commitHolds s fa = true → exec (.bar2Access path off op) s = .next (finish (holdReq (.bar2 path off.toNat op) s))) ∧
    (op ≠ .cas128 → commitHolds s fa = false → unitStopped s 8 (some part) = false → ∀ (ep o : Nat) (s1 : State), resolve fa part (opRight op) s = (.home ep o, s1) →
      (ep = selfEp s1 → exec (.bar2Access path off op) s = .next (finish (bar2Local path part o op s1))) ∧
      (∀ s2, ep ≠ selfEp s1 → sendReq (mkReq (stampKey s1 part (opPacket s1 ep o op)) (some fa) (opRight op) part (.bar2 path (opPosted op))) s1 = (.gone, s2) →
        exec (.bar2Access path off op) s = .next (finish s2)))) ∧
  (∀ (s : State) (path : Path) (part off a : Nat) (op : HostOp), fatal s = false → addrOf s off (opLen op) = .store a → fkey s (addrPart s (.store a)) = fkey s part →
    homeStopped s (.store a) off (opLen op) none = false →
      (opRight op = 0 → bar2Local path part off op s = coherent off (opLen op) false false (.bar2 path off op) (bar2Serve path off op) s) ∧
      (∀ s1, opRight op ≠ 0 → (opRight op = 2 → off % opLen op = 0) → writeGuards off (.host (pathPort path)) s = (true, s1) → writeGate s1 off = .go →
        bar2Local path part off op s = coherent off (opLen op) true false (.bar2 path off op) (bar2Serve path off op) s1))

/-- O42. On a hub with an image, a read or write inside the window of a proxy function takes its place in that function's queue and is forwarded when
it is first; one outside, or an atomic, is answered as one without the right; FLR of a proxy function drops what waits and masks its vectors; FLR of a
partition function resets the function and locks it, and is a cause of reset for its partition, if it has one; FLR of a PF also loses the port's host;
a decoder commits with the range its registers give, and a ways field or a base or size that is not allowed leaves it uncommitted; a port reset takes
the link and the decoders down, loses its host and resets the bound partitions. Rests on choices of the model (log entry 103), besides the spec. -/
def Obligations.ProxyAndFunctionResets : Prop :=
  (∀ (s : State) (p : Fin 2) (n : Fin 128) (off : W64) (op : HostOp) (ws : List W32), alive s = true → fnResetting s (.vf p n) = false → s.boot.image ≠ none → fatal s = false →
    (∀ k, pathPart s (.vf p n) = some k → intakeStopped s k = false) → isProxy s (.vf p n) = true → proxyOf s p.val n.val = some ws →
    (off.toNat < 2 ^ (quad ws 1 / 2 ^ 18 % 64) → opRight op ≠ 2 → exec (.proxyBarAccess (.vf p n) off op) s = .next (finish (proxyPump (.vf p n)
      (fnSet (fnIdx (.vf p n)) (fun f => { f with proxyQ := f.proxyQ ++ [(off.toNat, op)] }) s)))) ∧
    (2 ^ (quad ws 1 / 2 ^ 18 % 64) ≤ off.toNat ∨ opRight op = 2 →
      exec (.proxyBarAccess (.vf p n) off op) s = .next (finish (hostAnswer (.vf p n) (opPosted op) true (opLen op) .ownership [] s)))) ∧
  (∀ (s : State) (path : Path), alive s = true → isProxy s path = true → ∃ u, exec (.proxyFlr path) s = .next (finish u) ∧
    (fnOf u (fnIdx path)).proxyQ = [] ∧ (fnOf u (fnIdx path)).msixMasked = List.range 128 ∧ u.store = s.store ∧ u.regs = s.regs) ∧
  (∀ (s : State) (p : Fin 2) (n : Fin 128) (part : Nat), alive s = true → isProxy s (.vf p n) = false →
    let i := fnIdx (.vf p n)
    let s1 := fnReset i (useUnlock (.vf p n) s)
    (fnPart s1 i = none → exec (.flr (.vf p n)) s = .next (finish s1)) ∧
    (fnPart s1 i = some part → let s2 := partCause part 2 s1
      exec (.flr (.vf p n)) s = .next (finish (if partBusy s2 part then fnSet i (fun f => { f with resetting := true }) s2 else s2)))) ∧
  (∀ (s : State) (p : Fin 2) (part : Nat), alive s = true →
    let i := fnIdx (.pf p)
    let s1 := hostLost p (fnReset i (useUnlock (.pf p) s))
    (fnPart s1 i = none → exec (.flr (.pf p)) s = .next (finish s1)) ∧
    (fnPart s1 i = some part → let s2 := partCause part 3 s1
      exec (.flr (.pf p)) s = .next (finish (if partBusy s2 part then fnSet i (fun f => { f with resetting := true }) s2 else s2)))) ∧
  (∀ (s : State) (hp : Fin 2) (d : Fin 8) (base size : W64) (ways : Byte), alive s = true → ∃ u, exec (.hdmCommit hp d base size ways) s = .next (finish u) ∧
    u.store = s.store ∧ u.regs = s.regs ∧ (∀ k, k ≠ hp.val * 8 + d.val → mget k u.host.hdm = mget k s.host.hdm) ∧
    (mget (hp.val * 8 + d.val) u.host.hdm).map (fun h => (h.base, h.size, h.committed)) =
      some (base.toNat, size.toNat, ways == 0 && decide (base.toNat % 2 ^ 28 = 0) && decide (size.toNat % 2 ^ 28 = 0))) ∧
  (∀ (s : State) (hp : Fin 2) (cause : PortResetCause), alive s = true → exec (.pciePortReset hp cause) s = .next (finish (portReset hp s))) ∧
  (∀ (s : State) (hp : Nat), hp < 2 → (∀ k ∈ boundParts s hp, partBusy s k = true) → slotOfHost s hp = none →
    rget (portReset hp s) (Reg.hostpStatus + 256 * hp) 0 = 0 ∧ (portReset hp s).host.cxlMem = s.host.cxlMem.set hp false ∧
    (∀ d ∈ (portReset hp s).host.hdm, d.1 / 8 ≠ hp) ∧ (s.store.extents = [] → (portReset hp s).store = s.store))

/-- O43. A port's link that may train shows its speed, width, FLIT mode and LINK_UP; CXL.mem runs where the link is up in FLIT mode, the host enabled
it and the image allows it; a configuration request of a resetting function is answered with Request Retry Status, any other takes effect and is
answered; the mailbox answers the commands of Table 11-1, Get Event Records with no record, and refuses any other. Rests on choices of the model (log
entries 103, 104 and 170), besides the spec. -/
def Obligations.HostLinksAndConfiguration : Prop :=
  (∀ (s : State) (fit : HostFit), alive s = true → mayLink s fit.port = true → ∃ u, exec (.pcieLinkUp fit) s = .next (finish u) ∧ u.store = s.store ∧ u.host = s.host ∧
    let v := rget u (Reg.hostpStatus + 256 * fit.port.val) 0
    fld v 0 4 = fit.speed.toNat ∧ fld v 4 5 = fit.width.toNat ∧ bit v 9 = fit.flit ∧ bit v 11 = true ∧
    bit v 10 = (fit.flit && s.host.cxlMem.getD fit.port.val false && (match s.boot.image with | some im => im.cxlEn.getD fit.port.val false | none => false))) ∧
  (∀ (s : State) (path : Path) (op : ConfigOp), alive s = true → path ≠ .mgmt → path ≠ .akist →
    (fnResetting s path = true → exec (.configRequest path op) s = .next (finish (configAnswer path op true s))) ∧
    (fnResetting s path = false → exec (.configRequest path op) s = .next (finish (configAnswer path op false (configWrite path op s)))) ∧
    ∀ retry, portBlocked s path = false ∨ configReads op = false → configAnswer path op retry s = emit (.config path retry) s) ∧
  (∀ (s : State) (path : Path) (on : Bool), let i := fnIdx path
    configWrite path (.pasidEnable on) s = fnSet i (fun f => { f with pasid := on }) s ∧
    configWrite path .priReset s = fnSet i (fun f => { f with priStopped := false }) s ∧
    configWrite path .capRead s = (let (kind, ep, log) := fnCap s path; hostEmit path (.capability path kind ep log) s) ∧
    (∀ n : Fin 513, configWrite path (.priAllocation n) s = priPump i (fnSet i (fun f => { f with priAlloc := n }) s)) ∧
    (∀ (e : Fin 128), e.val < msixEntries i → (fnOf (configWrite path (.msixMask e true) s) i).msixMasked.contains e.val = true) ∧
    configWrite path (.atsEnable true) s = fnSet i (fun f => { f with ats := true }) s) ∧
  (∀ (s : State) (hp : Fin 2), alive s = true →
    exec (.cxlMailboxCommand hp .other) s = .next (finish (emit (.mailbox hp false []) s)) ∧
    exec (.cxlMailboxCommand hp .getEventRecords) s = .next (finish (emit (.mailbox hp true []) s)) ∧
    exec (.cxlMailboxCommand hp .clearEventRecords) s = .next (finish (emit (.mailbox hp true []) s)) ∧
    ∃ bs u, exec (.cxlMailboxCommand hp .identifyMemoryDevice) s = .next (finish (emit (.mailbox hp true bs) u)) ∧ u.store = s.store ∧ u.regs = s.regs)

/-- O44. MAP and UNMAP of the partition's ASID with good fields, no copy moving them and room in the tables replace the entries of their range, and
leave the old ones to the caches; of a MAP bad fields are DECODE, another partition's ASID OWNERSHIP, full tables QUOTA, and one of pages that a copy
moves holds BUSY; QUERY shows the entry that translates MAP_VA, or clears V and MIGRATED of MAP_ATTR where none does; INVAL drops every cached
translation of the ASID; clearing ASID_CFG.VALID empties and invalidates the ASID, any other write stores it, PART staying as it was while VALID; an
Invalidate Request drops what it covers and is completed and counted. Rests on choices of the model (log entry 29), besides the spec. -/
def Obligations.PageTableCommands : Prop :=
  (∀ (s : State) (path : Path) (v : W32) (i : Nat), Accepts s path Reg.mapCmd 1 10 v i → let s1 := taken path Reg.mapCmd i v s
    let asid := rfld s1 Reg.mapAsid i 0 12
    (mapBad s1 i = true → exec (.map path v) s = .next (finish (cmdEnd Reg.mapCmd i .decode s1))) ∧
    (mapBad s1 i = false → asidPart s1 asid ≠ some i → exec (.map path v) s = .next (finish (cmdEnd Reg.mapCmd i .ownership s1))) ∧
    (mapBad s1 i = false → asidPart s1 asid = some i → mapHeld s1 i = true → exec (.map path v) s = .next (finish (setBusy Reg.mapCmd i true s1))) ∧
    (mapBad s1 i = false → asidPart s1 asid = some i → mapHeld s1 i = false →
      let a := rget s1 Reg.mapAttr i
      let n := sizePages (fld a 0 2)
      let vp := mapVa s1 i / 4096
      let es := (List.range (fld a 8 20)).foldl (fun m j => mset (pteKey asid (vp + j * n))
        { size := fld a 0 2, kind := fld a 2 2, r := bit a 4, w := bit a 5, pin := bit a 6, sh := bit a 7, migrated := false,
          tgt := mapTgt s1 i + j * n * 4096, shd := if bit a 7 then mapShd s1 i + j * n * 4096 else 0, hostTgt := 0 } m) (clearRange asid vp (vp + fld a 8 20 * n) s.host.ptes)
      (ptCap s1 < ptPagesAll es → exec (.map path v) s = .next (finish (cmdEnd Reg.mapCmd i .quota s1))) ∧
      (ptPagesAll es ≤ ptCap s1 → ∃ u, exec (.map path v) s = .next (finish u) ∧ u.host.ptes = es ∧ u.host.stale = (keepStale asid vp (vp + fld a 8 20 * n) s1).host.stale ∧ u.store = s.store ∧ fld (rget u Reg.mapCmd i) 8 8 = Status.ok.code))) ∧
  (∀ (s : State) (path : Path) (v : W32) (i : Nat), Accepts s path Reg.mapCmd 2 10 v i → let s1 := taken path Reg.mapCmd i v s
    let a := rget s1 Reg.mapAttr i
    let bytes := sizePages (fld a 0 2) * 4096
    let lo := mapVa s1 i / 4096
    let hi := lo + fld a 8 20 * sizePages (fld a 0 2)
    let es := clearRange (rfld s1 Reg.mapAsid i 0 12) lo hi s.host.ptes
    fld a 0 2 ≠ 3 → fld a 8 20 ≠ 0 → mapVa s1 i % bytes = 0 → mapVa s1 i + fld a 8 20 * bytes ≤ 2 ^ 48 → asidPart s1 (rfld s1 Reg.mapAsid i 0 12) = some i → mapHeld s1 i = false → ptPagesAll es ≤ ptCap s1 →
      ∃ u, exec (.unmap path v) s = .next (finish u) ∧ u.host.ptes = es ∧ u.host.stale = (keepStale (rfld s1 Reg.mapAsid i 0 12) lo hi s1).host.stale ∧ u.store = s.store ∧ fld (rget u Reg.mapCmd i) 8 8 = Status.ok.code) ∧
  (∀ (s : State) (path : Path) (v : W32) (i b : Nat) (e : Pte), Accepts s path Reg.mapCmd 3 10 v i → let s1 := taken path Reg.mapCmd i v s
    asidPart s1 (rfld s1 Reg.mapAsid i 0 12) = some i → pteAt s1 (rfld s1 Reg.mapAsid i 0 12) (mapVa s1 i / 4096) = some (b, e) →
      ∃ u, exec (.mapQuery path v) s = .next (finish u) ∧ u.store = s.store ∧ u.host = s.host ∧
        rget u Reg.mapTgtLo i = w32 e.tgt ∧ rget u Reg.mapTgtHi i = w32 (e.tgt / 2 ^ 32) ∧ rget u Reg.mapVaLo i = w32 (b * 4096)) ∧
  (∀ (s : State) (path : Path) (v : W32) (i : Nat), Accepts s path Reg.mapCmd 3 10 v i → let s1 := taken path Reg.mapCmd i v s
    asidPart s1 (rfld s1 Reg.mapAsid i 0 12) = some i → pteAt s1 (rfld s1 Reg.mapAsid i 0 12) (mapVa s1 i / 4096) = none →
      exec (.mapQuery path v) s = .next (finish (cmdEnd Reg.mapCmd i .ok (rset Reg.mapAttr i (rget s1 Reg.mapAttr i &&& 0x3FFFFFFF) s1)))) ∧
  (∀ (s : State) (path : Path) (v : W32) (i : Nat), Accepts s path Reg.mapCmd 4 10 v i → let s1 := taken path Reg.mapCmd i v s
    let asid := rfld s1 Reg.mapAsid i 0 12
    asidPart s1 asid = some i → rangeMoves s1 asid 0 (2 ^ 36) = false → exec (.mapInval path v) s = .next (finish (cmdEnd Reg.mapCmd i .ok (invalAsid asid s1)))) ∧
  (∀ (s : State) (path : Path) (v : W32) (i : Nat), Reaches s path Reg.asidCfg i → let s1 := useUnlock path s
    let asid := rfld s1 Reg.asidIdx 0 0 12
    let old := rget s1 Reg.asidCfg asid
    (bit old 31 = true → bit v 31 = false → ∃ u, exec (.asidCfgWrite path v) s = .next (finish u) ∧ u.store = s.store ∧
      (∀ e ∈ u.host.ptes, e.1 / 2 ^ 36 ≠ asid) ∧ (∀ e ∈ u.host.stale, e.1 / 2 ^ 36 ≠ asid) ∧ rbit u Reg.asidCfg asid 31 = false) ∧
    (bit old 31 = false ∨ bit v 31 = true →
      exec (.asidCfgWrite path v) s = .next (finish (cfgStore Reg.asidCfg asid (if bit old 31 then setFld v 0 8 (fld old 0 8) else v) s1)))) ∧
  (∀ (s : State) (hp : Fin 2) (fn : Byte) (pasid : BitVec 20) (addr : W64) (pages : Nat) (tag : BitVec 5), alive s = true →
    ∃ u, exec (.atsInvalidate hp fn pasid addr pages tag) s = .next (finish u) ∧ u.regs = s.regs ∧ u.store = s.store ∧ u.host.invals = s.host.invals ++ [(hp.val, tag.toNat)] ∧
      ∀ e, e ∈ u.host.atc ↔ e ∈ s.host.atc ∧ ¬(e.1 / 2 ^ 52 = (hp.val * 256 + fn.toNat) * 2 ^ 20 + pasid.toNat ∧
        addr.toNat / 4096 ≤ e.1 % 2 ^ 52 ∧ e.1 % 2 ^ 52 < addr.toNat / 4096 + pages)) ∧
  (∀ (s : State) (hp : Fin 2) (tag : BitVec 5), alive s = true → (s.host.invals.take 32).contains (hp.val, tag.toNat) = true →
    exec (.atsInvalComplete hp tag) s = .next (finish (emit (.atsComplete hp tag.toNat) (bump Reg.atsInvals 0
      { s with host := { s.host with invals := s.host.invals.erase (hp.val, tag.toNat) } }))))

/-- O45. START of an IDLE channel samples its registers and queues it, ABORT ends its issuing with RESET, RESUME restarts a PAUSED one; the engine's
next channel that fails its check ends with that status and moves nothing, one that passes moves; a PRG Response retries or pauses the channel that
waits for it, or ends it with FAULT, stops its function's page requests and pauses the channels whose requests were not sent, and no response in time
pauses it; a channel whose requests have ended leaves the table with its STATUS and the bytes it moved, a FAULT counted, its tally counted up and its
vector raised; DMA_ASSIGN is ignored while a channel of its engine is not IDLE. Rests on choices of the model (log entry 31), besides the spec. -/
def Obligations.DmaChannels : Prop :=
  (∀ (s : State) (path : Path) (ch : Fin 8) (v : W32) (e : Nat), Reaches s path (chReg Reg.chCtl ch) e →
    let s1 := storeParity (chReg Reg.chCtl ch) e 12 (useUnlock path s)
    (bit v 0 = true → bit v 2 = false → bit v 3 = false → exec (.dmaStart path ch v) s = .next (finish (chanStart e ch s1))) ∧
    (bit v 0 = false → bit v 2 = true → bit v 3 = false → exec (.dmaAbort path ch v) s = .next (finish (chanMod e ch (fun c => { c with statuses := .reset :: c.statuses, ended := true, waitPri := false }) s1))) ∧
    (bit v 0 = false → bit v 2 = false → bit v 3 = true → exec (.dmaResume path ch v) s = .next (finish (chanMod e ch (fun c => if c.state = 3 ∧ !c.ended then { c with state := 2, retried := false } else c) s1)))) ∧
  (∀ (s : State) (e c : Nat), chanOf s e c = none → (∀ p, dmaPart s e = some p → intakeStopped s p = false) → (dmaPart s e = none → fatal s = false) → ∃ ch, chanOf (chanStart e c s) e c = some ch ∧ ch.state = 1 ∧
    ch.src = (rget s (chReg Reg.chSrcLo c) e).toNat + fld (rget s (chReg Reg.chSrcHi c) e) 0 16 * 2 ^ 32 ∧
    ch.dst = (rget s (chReg Reg.chDstLo c) e).toNat + fld (rget s (chReg Reg.chDstHi c) e) 0 16 * 2 ^ 32 ∧
    ch.len = (rget s (chReg Reg.chLenLo c) e).toNat + fld (rget s (chReg Reg.chLenHi c) e) 0 8 * 2 ^ 32 ∧ ch.asid = fld (rget s (chReg Reg.chCfg c) e) 20 12) ∧
  (∀ (s0 : State) (eng : Fin 32) (c : Nat) (t : List Nat) (ch : Chan), alive s0 = true → let s := checkUse s0
    chanOrder s eng = c :: t → chanOf s eng c = some ch → ch.ended = false → ch.waitPri = false → chanReading s eng c = false →
    (∀ st, ch.state = 1 → chanCheck s eng ch = some st →
      exec (.dmaChannelRun eng) s0 = .next (finish (chanMod eng c (fun ch => { ch with state := 2, statuses := if st = .ok then ch.statuses else st :: ch.statuses, ended := true }) s))) ∧
    (ch.state = 1 → chanCheck s eng ch = none → exec (.dmaChannelRun eng) s0 = .next (finish (chanGo eng c (chanMod eng c (fun ch => { ch with state := 2 }) s)))) ∧
    (ch.state ≠ 1 → exec (.dmaChannelRun eng) s0 = .next (finish (chanGo eng c s)))) ∧
  (∀ (s : State) (eng : Fin 32) (c : Fin 8) (ch : Chan), alive s = true → chanOf s eng c = some ch → ch.waitPri = true →
    let s1 := chanMod eng c (fun ch => { ch with waitPri := false }) s
    (ch.priLimit ≠ 0 → exec (.prgResponse eng c .invalidRequest) s = .next (finish (priPump (asidFn s ch.asid) (chanPause eng c s1)))) ∧
    (ch.priLimit ≠ 0 → let s2 := fnSet (asidFn s ch.asid) (fun f => { f with priStopped := true }) (chanMod eng c (Chan.stop .fault) s1)
      exec (.prgResponse eng c .responseFailure) s = .next (finish ((priWaiting s2 (asidFn s ch.asid) false).foldl (fun s x => chanPause (x.1 / 8) (x.1 % 8) s) s2))) ∧
    (ch.priLimit ≠ 0 → exec (.prgResponse eng c .success) s = .next (finish (priPump (asidFn s ch.asid) (chanGo eng c (chanMod eng c (fun ch => { ch with retried := true }) s1))))) ∧
    (0 < ch.priLimit → ch.priLimit ≤ ch.waitEdges → exec (.priTimeout eng c) s = .next (finish (priPump (asidFn s ch.asid) (chanPause eng c s))))) ∧
  (∀ (s : State) (eng : Fin 32) (c : Fin 8) (ch : Chan), alive s = true → chanOf s eng c = some ch → ch.ended = true → chanReading s eng c = false → chanWriting s eng c = false →
    let st := worstOf ch.statuses
    let n := ch.done - ch.bad
    let s1 := setOrder eng ((chanOrder s eng).filter (· ≠ c)) { s with host := { s.host with chans := mdel (chanKey eng c) s.host.chans } }
    let s2 := rset (chReg Reg.chDoneHi c) eng (w32 (n / 2 ^ 32)) (rset (chReg Reg.chDoneLo c) eng (w32 n) (rset (chReg Reg.chCtl c) eng (w32 (st.code * 2 ^ 16)) s1))
    chanOf s2 eng c = none ∧ rget s2 (chReg Reg.chDoneLo c) eng = w32 n ∧
    (dmaPart s2 eng = none → exec (.dmaComplete eng c) s = .next (finish s2)) ∧
    ∀ p, dmaPart s2 eng = some p →
      let s3 := if st = .fault then bump Reg.xlateFaults p s2 else s2
      exec (.dmaComplete eng c) s = .next (finish (raiseOpt p ch.vector (match ch.tally with | some t => tallyAddFor p t 1 s3 | none => s3)))) ∧
  (∀ (s : State) (path : Path) (v : W32) (e : Nat), Reaches s path Reg.dmaAssign e → let s1 := useUnlock path s
    (s.host.chans.any (fun c => c.1 / 8 == e) = true → exec (.dmaAssignWrite path v) s = .next (finish s1)) ∧
    (s.host.chans.any (fun c => c.1 / 8 == e) = false → exec (.dmaAssignWrite path v) s = .next (finish (cfgStore Reg.dmaAssign e v s1))))

/-- O46. CREATE of a free partition other than 0 makes it active with its register set at reset; DESTROY of one that is not free starts its last
reset, or lets it follow the reset that runs; PART_CTL.RESET is a cause of reset, which starts one where the partition is not free and none runs; each
step of a reset begins once what it waits for has ended, the walks over the partition's coherent allocations between the last two; FN_MAP of an
existing function takes the written partition; a VEC_MASK write sets the mask bits it names; REEL_CTL.RESET holds BUSY, which its end clears, the reel
then in service again. Rests on choices of the model (log entries 135 and 140), besides the spec. -/
def Obligations.PartitionCommands : Prop :=
  (∀ (s : State) (path : Path) (v : W32) (i : Nat), Accepts s path Reg.partCmd 1 0 v i → let s1 := taken path Reg.partCmd i v s
    let n := partNum s1
    n ≠ 0 → n < parts s1 → partState s1 n = 0 → exec (.partCreate path v) s = .next (finish (cmdEnd Reg.partCmd 0 .ok (rsetFld Reg.partStatus n 0 2 1 (partSetReset n s1))))) ∧
  (∀ (s : State) (path : Path) (v : W32) (i : Nat), Accepts s path Reg.partCmd 2 0 v i → let s1 := taken path Reg.partCmd i v s
    let n := partNum s1
    n ≠ 0 → n < parts s1 → partState s1 n ≠ 0 → let s2 := setBusy Reg.partCmd 0 true (rsetFld Reg.partCmd 0 8 8 0 s1)
    (partRun s2 n = none → exec (.partDestroy path v) s = .next (finish (partResetStart n true (rsetFld Reg.partStatus n 8 4 4 s2)))) ∧
    ∀ r, partRun s2 n = some r → exec (.partDestroy path v) s = .next (finish (rsetFld Reg.partStatus n 8 4 4 (runSet n { r with destroyWaits := true } s2)))) ∧
  (∀ (s : State) (path : Path) (v : W32) (i : Nat), Reaches s path Reg.partCtl i → bit v 0 = true →
    exec (.partCtlReset path v) s = .next (finish (partCause i 1 (storeParity Reg.partCtl i 0 (useUnlock path s))))) ∧
  (∀ (s : State) (part cause : Nat), let s1 := rsetFld Reg.partStatus part 8 4 cause s
    (partState s part = 0 ∨ parts s ≤ part → partCause part cause s = s) ∧
    (partState s part ≠ 0 → part < parts s → partCause part cause s = if partBusy s1 part then s1 else partResetStart part false s1)) ∧
  (∀ (s : State) (part : PartNum) (r : PartRun), alive s = true → partRun s part.toNat = some r →
    (r.step = 1 → partWorkDone s part.toNat = true → exec (.partResetWorkEnded part) s = .next (finish (rsetFld Reg.partStatus part.toNat 4 3 2 (runSet part.toNat { r with step := 2 } s)))) ∧
    (r.step = 2 → (s.fab.reqs.any fun x => x.part == part.toNat && x.owner != ReqOwner.commitWalk) = false →
      let coh := s.store.allocs.filter fun a => a.2.part == part.toNat && fCoherent a.2.flags
      let s1 := rsetFld Reg.partStatus part.toNat 4 3 3 (runSet part.toNat { r with step := 3 } s)
      let reached := r.destroy && s1.store.allocs.any fun a => a.2.part == part.toNat && allocInUse s1 a.2
      exec (.partResetTagsDrained part) s = .next (finish (if coh.isEmpty && !reached then partFinish part.toNat r s1
        else coh.foldl (fun s a => addWalk { lo := a.2.base * pageSize, hi := (a.2.base + a.2.pages) * pageSize, slot := none, why := .partReset part.toNat, running := false } s) s1))) ∧
    (r.step = 3 → s.coh.walks.any (fun w => w.why == WalkFor.partReset part.toNat) = false →
      (r.destroy && s.store.allocs.any fun a => a.2.part == part.toNat && allocInUse s a.2) = false →
      exec (.partResetWalkEnded part) s = .next (finish (partFinish part.toNat r s)))) ∧
  (∀ (s : State) (path : Path) (v : W32) (i : Nat), Reaches s path Reg.fnMap i → let s1 := useUnlock path s
    let k := rfld s1 Reg.fnIdx 0 0 9
    (fnExists s1 k = false → exec (.fnMapWrite path v) s = .next (finish s1)) ∧
    (fnExists s1 k = true → exec (.fnMapWrite path v) s = .next (finish (cfgStore Reg.fnMap k (if k % 256 = 0 then setFld v 31 1 0 else v) s1)))) ∧
  (∀ (s : State) (path : Path) (q : Fin 4) (v : W32) (i : Nat), Reaches s path (Reg.vecMask + 4 * q) i →
    exec (.vecMaskWrite path q v) s = .next (finish (vecMaskSet q v i (useUnlock path s)))) ∧
  (∀ (s : State) (path : Path) (q : Fin 4) (v : W32) (i : Nat), Reaches s path (Reg.vecMask + 4 * q) i →
    rget s (Reg.vecPend + 4 * q) i = 0 → let u := vecMaskSet q v i (useUnlock path s)
      u.store = s.store ∧ ∀ b, b < 16 → rbit u (Reg.vecMask + 4 * q) i b = (if bit v (16 + b) then bit v b else rbit s (Reg.vecMask + 4 * q) i b)) ∧
  (∀ (s : State) (path : Path) (v : W32) (r : Nat), Reaches s path Reg.reelCtl r → cmdBusy s Reg.reelCtl r = true → exec (.reelReset path v) s = .next (finish (useUnlock path s))) ∧
  (∀ (s : State) (path : Path) (v : W32) (r : Nat), Reaches s path Reg.reelCtl r → cmdBusy s Reg.reelCtl r = false → bit v 0 = false →
    exec (.reelReset path v) s = .next (finish (storeParity Reg.reelCtl r 2 (useUnlock path s)))) ∧
  (∀ (s : State) (path : Path) (v : W32) (r : Nat), Reaches s path Reg.reelCtl r → cmdBusy s Reg.reelCtl r = false → bit v 0 = true →
    ∃ u, exec (.reelReset path v) s = .next (finish u) ∧ rbit u Reg.reelCtl r 4 = true ∧ u.store = s.store) ∧
  (∀ (s : State) (reel : Fin 64), alive s = true → cmdBusy s Reg.reelCtl reel = true → s.mgmt.badParity = [] → ∃ u, exec (.reelResetEnd reel) s = .next (finish u) ∧
    rget u Reg.reelCtl reel = 0 ∧ (2, some (setInst reel)) ∉ u.mgmt.stopped ∧ u.store = s.store)

/-- O47. An aligned word write that reaches a register has its effect there with the function's unlock used up, an aligned write of two words writes
the lower one first, one of a wrong size or alignment is ignored and counted; a guarded register written by a locked function is ignored and counted;
LOCKKEY's key unlocks the function it is written by and any other value locks it; FATAL_STATUS, SEC_VIOLATION and LC_STATUS lose the bits written 1
that may clear; PARITY_FAULT bits that are 0 change nothing; PARITY_INJECT takes its fields; HUB_INT_MASK takes the mask bits that the upper half
names. Rests on choices of the model (log entries 58 and 139), besides the spec. -/
def Obligations.RegisterWriteCommands : Prop :=
  (∀ (s : State) (path : Path) (off : BitVec 26) (data : List Byte), let o := pfOffset path off.toNat
    (∀ i, Reaches s path o i → data.length = 4 → o % 4 = 0 → exec (.registerWrite path off data) s = .next (finish (regEffect o (w32 (leNat data)) i (unlocked s path) (useUnlock path s)))) ∧
    (alive s = true → data.length = 8 → o % 8 = 0 →
      exec (.registerWrite path off data) s = .next (finish (regWriteOne path (o + 4) (w32 (leNat (data.drop 4))) (regWriteOne path o (w32 (leNat (data.take 4))) s)))) ∧
    (alive s = true → ¬(data.length = 4 ∧ o % 4 = 0) → ¬(data.length = 8 ∧ o % 8 = 0) → regTarget (useUnlock path s) path o ≠ .ur →
      exec (.registerWrite path off data) s = .next (finish (bump Reg.regBadAccess 0 (useUnlock path s))))) ∧
  (∀ (s : State) (off i : Nat) (v : W32) (row : RegRow), regRow off = some row →
    (row.acc = .rk → regEffect off v i false s = bump Reg.lockRefused 0 s) ∧
    (row.acc = .rw → commandWrite off v i s = none → (if 0x100000 ≤ off then partSetWrite off v i s else blockWrite off v i s) = none → ∀ was, regEffect off v i was s = cfgStore off i v s)) ∧
  (∀ (s : State) (path : Path) (v : W32) (i : Nat), Reaches s path Reg.lockkey i → ∃ u, exec (.lockkeyWrite path v) s = .next (finish u) ∧ u.store = s.store ∧ u.regs = s.regs ∧
    (v = 0xA51F → i ∈ u.mgmt.unlocked) ∧ (v ≠ 0xA51F → i ∉ u.mgmt.unlocked) ∧ ∀ k, k ≠ i → k ≠ pathCode path → (k ∈ u.mgmt.unlocked ↔ k ∈ s.mgmt.unlocked)) ∧
  (∀ (s : State) (path : Path) (v : W32) (i : Nat),
    (Reaches s path Reg.fatalStatus i → ∃ u, exec (.statusW1cWrite path 0 v) s = .next (finish u) ∧ u.store = s.store ∧
      rget u Reg.fatalStatus 0 = rget s Reg.fatalStatus 0 &&& ~~~(v &&& ((if s.boot.recovered then 3 else 0) ||| (if s.boot.secReset then 4 else 0)))) ∧
    (Reaches s path Reg.secViolation i → ∃ u, exec (.statusW1cWrite path 1 v) s = .next (finish u) ∧ u.store = s.store ∧
      rget u Reg.secViolation 0 = (if s.boot.secReset then rget s Reg.secViolation 0 &&& ~~~v else rget s Reg.secViolation 0)) ∧
    (Reaches s path Reg.lcStatus i → ∃ u, exec (.statusW1cWrite path 2 v) s = .next (finish u) ∧ u.store = s.store ∧ rget u Reg.lcStatus 0 = rget s Reg.lcStatus 0 &&& ~~~v)) ∧
  (∀ (s : State) (path : Path) (v : W32) (i : Nat), Reaches s path Reg.parityFault i →
    exec (.parityFaultWrite path v) s = .next (finish (parityW1c v (useUnlock path s))) ∧
    ((∀ u, u < 15 → bit v u = true → rbit s Reg.parityFault 0 u = false) → parityW1c v (useUnlock path s) = useUnlock path s)) ∧
  (∀ (s : State) (path : Path) (v : W32) (i : Nat), Reaches s path Reg.parityInject i →
    (unlocked s path = true → exec (.parityInjectWrite path v) s = .next (finish (rset Reg.parityInject 0 (v &&& 0x11F) (useUnlock path s)))) ∧
    (unlocked s path = false → exec (.parityInjectWrite path v) s = .next (finish (bump Reg.lockRefused 0 (useUnlock path s))))) ∧
  (∀ (s : State) (path : Path) (v : W32) (i : Nat), Reaches s path Reg.hubIntMask i → ∃ u, exec (.hubIntMaskWrite path v) s = .next (finish u) ∧ u.store = s.store ∧
    ∀ b, b < 9 → rbit u Reg.hubIntMask 0 b = (if bit v (16 + b) then bit v b else rbit s Reg.hubIntMask 0 b))

/-- O48. A read of TAKE_WIN_20 answers its value, behind earlier posted writes of its port, and, with AUTO, advances the cursor; a capture takes a
waiting trigger as the next take with the words of Table 14-8, or drops and counts it while STOP keeps 4,096 unread; TAKE_SW is kept and raises the
SOFTWARE trigger; TAKE_CURSOR and TAKE_ACK take both halves when the low half is written. Rests on choices of the model (log entry 57), besides the
spec. -/
def Obligations.TakeLogCommands : Prop :=
  (∀ (s : State) (path : Path) (i : Nat), alive s = true → regTarget s path (Reg.takeWin + 80) = .at i →
    exec (.takeWinRead path) s = .next (finish (hostEmit path (.hostData path (leBytes 4 (regValue s path (Reg.takeWin + 80) i).toNat) false) (readEffect (Reg.takeWin + 80) i s)))) ∧
  (∀ (s : State) (i : Nat), (rbit s Reg.takeCfg 0 3 = true → (readEffect (Reg.takeWin + 80) i s).rel.cursor = (s.rel.cursor + 1) % 2 ^ 48) ∧
    (rbit s Reg.takeCfg 0 3 = false → readEffect (Reg.takeWin + 80) i s = s)) ∧
  (∀ (s s0 : State) (i : Nat) (t : Trigger), alive s = true → drawBelow s.rel.waiting.length s = (i, s0) → s.rel.waiting[i]? = some t →
    let s1 := relSet (fun r => { r with waiting := r.waiting.eraseIdx i }) s0
    (¬(rbit s1 Reg.takeCfg 0 1 = true ∧ s.rel.head - s.rel.ack = 4096) → ∃ u, exec .takeCapture s = .next (finish u) ∧ u.rel.waiting = s.rel.waiting.eraseIdx i ∧ u.rel.head = s.rel.head + 1 ∧
      mget s.rel.head u.rel.takes = some (takeWords s1 t) ∧ u.store = s.store ∧ u.regs = s.regs) ∧
    (rbit s1 Reg.takeCfg 0 1 = true → s.rel.head - s.rel.ack = 4096 → exec .takeCapture s = .next (finish (bump Reg.takesLost 0 s1)))) ∧
  (∀ (s : State) (path : Path) (v : W32) (i : Nat), Reaches s path Reg.takeSw i → exec (.takeSwWrite path v) s = .next (finish (trigger 0 (w64 v.toNat) none 0 (cfgStore Reg.takeSw 0 v (useUnlock path s))))) ∧
  (∀ (s : State) (path : Path) (v : W32) (i : Nat), Reaches s path Reg.takeCursorLo i → ∃ u, exec (.takeCursorWrite path v) s = .next (finish u) ∧ u.store = s.store ∧
    u.rel.cursor = v.toNat + rfld s Reg.takeCursorHi 0 0 16 * 2 ^ 32 ∧ u.rel.ack = s.rel.ack) ∧
  (∀ (s : State) (path : Path) (v : W32) (i : Nat), Reaches s path Reg.takeAckLo i → ∃ u, exec (.takeAckWrite path v) s = .next (finish u) ∧ u.store = s.store ∧
    u.rel.ack = v.toNat + rfld s Reg.takeAckHi 0 0 16 * 2 ^ 32 ∧ u.rel.cursor = s.rel.cursor)

/-- O49. Corrected errors of a unit that reach CE_THRESH, as the last slow-tick edge read it, raise one trigger in a tick, fewer none; the scrub takes
what its read of a line found, of HBM or DDR while HOURS is not 0, of stage while STAGE_EN is 1; a block that fails to program is retired to a spare
and counted, or, without a spare, makes its die read-only, raises the FLASH trigger and moves the pages away; a write of FLC_CTL is kept and, where it
makes the channel read-only, raises the trigger and moves the pages away. Rests on choices of the model (log entry 16), besides the spec. -/
def Obligations.MemoryErrorsAndFlash : Prop :=
  (∀ (s : State) (medium : BitVec 4) (unit : BitVec 16), alive s = true → let k := medium.toNat * 65536 + unit.toNat
    (s.rel.ceThresh ≠ 0 → s.rel.ceThresh ≤ mgetD 0 k s.rel.ceTick → s.rel.ceDone.contains k = false → exec (.ceTrigger medium unit) s = .next (finish
      (trigger 1 (w64 (mgetD 0 k s.rel.ceTick % 2 ^ 32 + medium.toNat * 2 ^ 60)) none unit.toNat { s with rel := { s.rel with ceDone := k :: s.rel.ceDone } }))) ∧
    (s.rel.ceDone.contains k = true ∨ s.rel.ceThresh = 0 ∨ mgetD 0 k s.rel.ceTick < s.rel.ceThresh → exec (.ceTrigger medium unit) s = .next (finish s))) ∧
  (∀ (s : State) (off : BitVec 50) (m : Media) (a : Nat), alive s = true → let o := off.toNat / 64 * 64
    addrOf s o 1 = .store a → pageLost s o = false → (tierAt s o = 1 ∨ tierAt s o = 2) → rfld s Reg.scrubCfg 0 0 8 ≠ 0 →
      exec (.scrubRead off m) s = .next (finish (mediaFound o m { s with rel := { s.rel with scrubPos := o } }))) ∧
  (∀ (s : State) (off : BitVec 50) (m : Media) (a : Nat), alive s = true → let o := off.toNat / 64 * 64
    addrOf s o 1 = .store a → pageLost s o = false → tierAt s o = 0 → rbit s Reg.scrubCfg 0 16 = true → exec (.scrubRead off m) s = .next (finish (mediaFound o m s))) ∧
  (∀ (s : State) (off : Nat), mediaFound off .good s = s) ∧
  (∀ (s : State) (ch die : Fin 32) (x : Die), alive s = true → mget (dieKey ch die) s.rel.dies = some x → dieRo s ch die = false →
    (x.spare ≠ 0 → exec (.flashProgramFail ch die) s = .next (finish (spareLow ch die (bump Reg.flcRetired ch (dieMod (dieKey ch die) (fun x => { x with spare := x.spare - 1 }) s))))) ∧
    (x.spare = 0 → let s1 := flashTrigger ch die 1 (dieMod (dieKey ch die) (fun x => { x with ro := true }) s)
      exec (.flashProgramFail ch die) s = .next (finish (leaveRoDies (if channelRo s1 ch then flashTrigger ch die 2 s1 else s1))))) ∧
  (∀ (s : State) (path : Path) (v : W32) (ch : Nat), Reaches s path Reg.flcCtl ch → let s1 := cfgStore Reg.flcCtl ch v (useUnlock path s)
    exec (.flcCtlWrite path v) s = .next (finish (leaveRoDies (if channelRo s1 ch && !channelRo (useUnlock path s) ch then flashTrigger ch 0 2 s1 else s1)))) ∧
  (∀ (s : State), (s.store.pages.filter fun p => !p.2.lost && (match p.2.loc with | .die c d => dieRo s c d | _ => false)) = [] → s.store.moves = [] → leaveRoDies s = s)

/-- O50. PWROK rising with the rails good, or the last rail arriving with PWROK high, starts boot at stage 0, but not after a thermal trip; PWROK
falling and power loss reset the hub, the latter with nothing held by standby power, and a transition of the same tick may be cut short; RESET_N and
HUB_RESET.GO warm-reset a running hub; at stage 0 the first good copy of the firmware runs, and with none the hub enters RECOVERY, in END the ROM
stops; clocks that lock bring stage 3, and clocks that do not halt it; training with an HBM stack brings stage 4 with the capacity found, and without
one halts. Throttling shows its causes, VR_HOT_N only while it is enabled, and ends with none; a hot stack has its refresh doubled at 85 degrees and
its bandwidth halved at HBM_LIMIT, and a cooler one back below 85 and at HBM_LIMIT less the hysteresis; the trip stops a hub with its rails good,
PWROK or not, and drives THERMTRIP_N low until PWROK goes low; FATAL_N is low while FATAL_STATUS is not 0, from PWROK on. Rests on choices of the
model (log entries 60, 61 and 153), besides the spec. -/
def Obligations.ResetsPowerAndHeat : Prop :=
  (∀ (s : State), s.boot.pwrok = false →
    (s.boot.railsGood = true → s.boot.tripped = false → exec .pwrokRise s = .next (told (bootStart (bootSet (fun b => { b with pwrok := true }) s)))) ∧
    (s.boot.railsGood = false ∨ s.boot.tripped = true → exec .pwrokRise s = .next (bootSet (fun b => { b with pwrok := true }) s))) ∧
  (∀ (s : State), s.boot.railsGood = false →
    (s.boot.pwrok = true → s.boot.tripped = false → exec .supplyRailsGood s = .next (told (bootStart (bootSet (fun b => { b with railsGood := true }) s)))) ∧
    (s.boot.pwrok = false ∨ s.boot.tripped = true → exec .supplyRailsGood s = .next (bootSet (fun b => { b with railsGood := true }) s))) ∧
  (∀ (s : State), exec .pwrokFall s = .next (bootSet (fun b => { b with pwrok := false }) (hubReset true (interrupt s))) ∧
    exec .powerLoss s = .next (bootSet (fun b => { b with pwrok := false, railsGood := false }) (hubReset false (interrupt s)))) ∧
  (∀ (s : State), alive s = true → exec .resetN s = .next (told (bootStart (hubReset true (interrupt s))))) ∧
  (∀ (s : State), (s.boot.lcRan = none → interrupt s = s) ∧ (∀ f t, s.boot.lcRan = some (f, t) →
    (interrupt s).boot.lcRan = none ∧ (((interrupt s).boot.lcState = f ∧ (interrupt s).boot.fusePending = some t) ∨
      ((interrupt s).boot.lcState = s.boot.lcState ∧ (interrupt s).boot.fusePending = s.boot.fusePending)))) ∧
  (∀ (s : State) (path : Path) (v : W32) (i : Nat), Reaches s path Reg.hubReset i →
    (unlocked s path = true → bit v 0 = true → exec (.hubResetGo path v) s = .next (finish (bootStart (hubReset true (interrupt (useUnlock path s)))))) ∧
    (unlocked s path = true → bit v 0 = false → exec (.hubResetGo path v) s = .next (finish (useUnlock path s))) ∧
    (unlocked s path = false → exec (.hubResetGo path v) s = .next (finish (bump Reg.lockRefused 0 (useUnlock path s))))) ∧
  (∀ (s : State) (a b : FwImage), alive s = true → stage s = 0 → s.boot.lcState = 4 → exec (.fwVerified a b) s = .next (finish (setStage 1 s))) ∧
  (∀ (s : State) (a b : FwImage), alive s = true → stage s = 0 → s.boot.lcState ≠ 4 →
    (fwGood s a = true → exec (.fwVerified a b) s = .next (finish (fwRun a s))) ∧
    (fwGood s a = false → fwGood s b = true → exec (.fwVerified a b) s = .next (finish (fwRun b s))) ∧
    (fwGood s a = false → fwGood s b = false → exec (.fwVerified a b) s = .next (finish (bootErr 9 2 s)))) ∧
  (∀ (s : State), alive s = true → stage s = 2 →
    exec (.clocksLocked true) s = .next (finish (setStage 3 (rset Reg.clkStatus 0 7 s))) ∧ exec (.clocksLocked false) s = .next (finish (bootErr 15 3 s))) ∧
  (∀ (s : State) (hbm : Byte) (ddrGiB : List Nat) (flashTib : Nat) (dies : List DieFit), alive s = true → stage s = 3 →
    (hbm = 0 → exec (.memoryTrained hbm ddrGiB flashTib dies) s = .next (finish (bootErr 15 1 s))) ∧
    (hbm ≠ 0 → ∃ u, exec (.memoryTrained hbm ddrGiB flashTib dies) s = .next (finish u) ∧ stage u = 4 ∧ u.store.caps = trainedCaps hbm (ddrGiB.take 12) flashTib ∧ u.store.mem = s.store.mem)) ∧
  (∀ (s : State) (die power vrhot : Bool), alive s = true → ∃ u, exec (.throttleStart die power vrhot) s = .next (finish u) ∧ u.store = s.store ∧
    rbit u Reg.throtStatus 0 0 = die ∧ rbit u Reg.throtStatus 0 1 = power ∧ rbit u Reg.throtStatus 0 2 = (vrhot && rbit s Reg.pwrCfg 0 16)) ∧
  (∀ (s : State), alive s = true → ∃ u, exec .throttleEnd s = .next (finish u) ∧ u.store = s.store ∧ rfld u Reg.throtStatus 0 0 3 = 0 ∧ u.boot.throttled = false) ∧
  (∀ (s : State) (k : Fin 8) (temp : Byte), alive s = true → ∃ u, exec (.hbmHot k temp) s = .next (finish u) ∧ u.store = s.store ∧
    (85 ≤ temp.toNat → k.val ∈ u.boot.hbmRefresh) ∧ (hbmLimit s ≤ temp.toNat → k.val ∈ u.boot.hbmHalf) ∧
    (temp.toNat < 85 → u.boot.hbmRefresh = s.boot.hbmRefresh) ∧ (temp.toNat < hbmLimit s → u.boot.hbmHalf = s.boot.hbmHalf)) ∧
  (∀ (s : State) (k : Fin 8) (temp : Byte), alive s = true → ∃ u, exec (.hbmCool k temp) s = .next (finish u) ∧ u.store = s.store ∧
    (temp.toNat < 85 → k.val ∉ u.boot.hbmRefresh) ∧ (temp.toNat ≤ hbmLimit s - thermHyst s → k.val ∉ u.boot.hbmHalf) ∧
    (85 ≤ temp.toNat → u.boot.hbmRefresh = s.boot.hbmRefresh) ∧ (hbmLimit s - thermHyst s < temp.toNat → u.boot.hbmHalf = s.boot.hbmHalf)) ∧
  (∀ (s : State), s.boot.railsGood = true → let u := bootSet (fun b => { b with tripped := true }) s
    exec .thermalTrip s = .next u ∧ alive u = false ∧ thermtripN u = .low ∧ u.store = s.store ∧ u.regs = s.regs) ∧
  (∀ (s : State), (s.boot.railsGood = false → exec .thermalTrip s = .next s ∧ thermtripN s = .highZ) ∧ thermtripN (pwrokDown s) = .highZ ∧
    (fatalN s = .low ↔ s.boot.railsGood = true ∧ s.boot.pwrok = true ∧ rget s Reg.fatalStatus 0 ≠ 0))

/-- O51. LOAD by an unlocked function at WAIT_IMAGE, not busy, samples BOOT_EP and checks the image; the first check that fails is STATUS and leaves
the stage, an image that passes opens stage 5; its application takes its items to the registers and opens stage 6, an image that came over PCIe
resetting port 0; links trained at stage 6 bring their ports up; with them up and a route to each manager the hub joins and is READY; LOAD_FW in
RECOVERY runs a firmware that verifies, and refuses any other with its STATUS. The boot firmware's own load from SPI needs no unlock (the model's
choice, log entry 56). Rests on choices of the model (log entries 66 and 55), besides the spec. -/
def Obligations.ImageCommands : Prop :=
  (∀ (s : State) (path : Path) (v : W32) (spi : List Byte) (i : Nat), Reaches s path Reg.bootCmd i → unlocked s path = true → cmdBusy s Reg.bootCmd 0 = false → cmdOp v = 1 → (path ≠ .akist ∨ bit v 3 = false) →
    let s1 := cfgStore Reg.bootCmd 0 v (useUnlock path s)
    (stage s1 = 4 → exec (.imageLoad path v spi) s = .next (finish (imageTake false v spi (fun im s => setStage 5 (bootSet (fun b => { b with pending := some im }) s))
      (bootSet (fun b => { b with bootEp := rget s1 Reg.bootEp 0 }) s1)))) ∧
    (stage s1 ≠ 4 → exec (.imageLoad path v spi) s = .next (finish s1))) ∧
  (∀ (s : State) (v : W32) (spi : List Byte), alive s = true → cmdBusy s Reg.bootCmd 0 = false → cmdOp v = 1 → bit v 3 = true →
    let s1 := cfgStore Reg.bootCmd 0 v s
    exec (.imageLoad .akist v spi) s = .next (finish (if stage s1 = 4 then loadRun v spi s1 else s1))) ∧
  (∀ (s : State) (v : W32) (spi : List Byte) (re : Bool) (f : Image → State → State), let bs := imageBytes s v spi
    let note := fun (c : Nat) (s : State) => rsetFld Reg.bootCmd 0 8 8 c (rsetFld Reg.bootStatus 0 8 4 c s)
    (imageParse s (!bit v 3) bs = none → imageTake re v spi f s = lcFlag 4 (note 1 s)) ∧
    (∀ im, imageParse s (!bit v 3) bs = some im → imageCode s re bs im ≠ 0 → imageTake re v spi f s = lcFlag 4 (note (imageCode s re bs im) s)) ∧
    (∀ im, imageParse s (!bit v 3) bs = some im → imageCode s re bs im = 0 → imageTake re v spi f s = f im (note 0 s))) ∧
  (∀ (s : State) (im : Image), alive s = true → stage s = 5 → s.boot.pending = some im →
    let s1 := setStage 6 (imageApply true im s)
    exec .imageApplied s = .next (finish (if im.fromStaged then portReset 0 s1 else s1))) ∧
  (∀ (s : State) (im : Image), im.fmEps = [] → im.routes = [] →
    let u := setStage 6 (imageApply true im s)
    stage u = 6 ∧ u.boot.image = some im ∧ u.boot.pending = none ∧ rget u Reg.fabId 0 = w32 im.endpoint ∧
      rget u Reg.partCfg 0 = w32 im.parts ∧ rget u Reg.ptArea 0 = w32 im.ptMib ∧ u.store.mem = s.store.mem) ∧
  (∀ (s : State) (fab : List PortFit) (pcie : List HostFit), alive s = true → stage s = 6 → exec (.linksTrained fab pcie) s = .next (finish
    (bootSet (fun b => { b with linksDone := true }) (pcie.foldl (fun s f => linkUp f s) (fab.foldl (fun s f => portTrained f s) s))))) ∧
  (∀ (s : State), alive s = true → stage s = 6 → s.boot.linksDone = true →
    ((∀ m ∈ managers s, hasRoute s m.2 = true) → exec .hubJoin s = .next (finish (setStage 7 (sendJoin s)))) ∧
    ((∃ m ∈ managers s, hasRoute s m.2 = false) → exec .hubJoin s = .next (finish s))) ∧
  (∀ (s : State) (path : Path) (v : W32) (img : FwImage) (i : Nat), Reaches s path Reg.bootCmd i → unlocked s path = true → cmdBusy s Reg.bootCmd 0 = false → cmdOp v = 3 →
    let s1 := cfgStore Reg.bootCmd 0 v (useUnlock path s)
    stage s1 = 9 →
    (fwSigned img = true → s1.boot.fwSvn ≤ img.svn.toNat → exec (.loadFw path v img) s = .next (finish (fwRun img (rsetFld Reg.bootCmd 0 8 8 0 s1)))) ∧
    (fwSigned img = false → exec (.loadFw path v img) s = .next (finish (rsetFld Reg.bootCmd 0 8 8 2 s1))) ∧
    (fwSigned img = true → img.svn.toNat < s1.boot.fwSvn → exec (.loadFw path v img) s = .next (finish (rsetFld Reg.bootCmd 0 8 8 4 s1))))

/-- O52. RELOAD of a READY hub that no security violation holds checks the image and, if it passes, stops intake with the drain limit sampled; once
the limit has passed, no commit or partition reset runs, remaining work ends with RESET; with work and tags drained the walk of step 3 starts, which a
recovery skips; with it answered no promoted row and no replica is left; then the items apply and the directory is empty; last the hub joins again and
is READY, BUSY 0. Rests on choices of the model (log entry 64), besides the spec. -/
def Obligations.ReloadCommands : Prop :=
  (∀ (s : State) (path : Path) (v : W32) (spi : List Byte) (i : Nat), Reaches s path Reg.bootCmd i → unlocked s path = true → cmdBusy s Reg.bootCmd 0 = false → cmdOp v = 2 →
    let s1 := cfgStore Reg.bootCmd 0 v (useUnlock path s)
    stage s1 = 7 → secStopped s1 = false → exec (.reload path v spi) s = .next (finish (imageTake true v spi (fun im s => setStage 8 (setBusy Reg.bootCmd 0 true
      (bootSet (fun b => { b with pending := some im, reloadStep := 2, recovery := decide (rget s Reg.fatalStatus 0 ≠ 0), reloadMs := max 1 (rfld s Reg.reloadDrain 0 0 14), reloadFrom := b.tick }) s))) s1))) ∧
  (∀ (s : State), alive s = true → secStopped s = false →
    (s.boot.reloadStep = 2 → reloadMayStop s = true → s.boot.reloadMs * 3 ≤ (s.boot.tick - s.boot.reloadFrom) * 2 →
      exec .reloadDrainExpire s = .next (finish (stopChans (fun _ => true) .reset (s.eng.queues.foldl (fun s e => abortQueue e.1 s) s)))) ∧
    (s.boot.reloadStep = 2 → reloadMayStop s = true → workEnded s = true → (reloadStop (queuesOff s)).fab.reqs = [] →
      let s1 := bootSet (fun b => { b with reloadStep := 3 }) (reloadStop (queuesOff s))
      exec .reloadDrained s = .next (finish (if s1.boot.recovery then s1 else addWalk { lo := 0, hi := localEnd, slot := none, why := .reload, running := false } s1))) ∧
    (s.boot.reloadStep = 3 → (s.coh.walks.any fun w => w.why == WalkFor.reload) = false → ∃ u, exec .reloadWalkEnd s = .next (finish u) ∧
      u.boot.reloadStep = 4 ∧ u.rows.slots = [] ∧ u.rows.replicas = []) ∧
    (∀ im r, s.boot.reloadStep = 4 → s.boot.pending = some im → s.boot.image = some r → ∃ u, exec .reloadPagesMoved s = .next (finish u) ∧
      u.boot.reloadStep = 6 ∧ u.coh.dir = [] ∧ u.boot.image = some im ∧ u.boot.pending = none) ∧
    (s.boot.reloadStep = 6 → exec .reloadPortsUp s = .next (finish (bootSet (fun b => { b with reloadStep := 0, recovery := false, recovered := b.recovered || b.recovery })
      (setBusy Reg.bootCmd 0 false (setStage 7 (sendJoin s))))))) ∧
  (∀ (s : State), alive s = true → s.boot.reloadStep = 0 → exec .reloadDrained s = .next (finish s) ∧ exec .reloadPortsUp s = .next (finish s))

/-- O53. A token command by an unlocked function checks its token in a stage that runs it; accepted it has its effect, refused it sets REFUSED, and
either way the nonce is new; NEW_NONCE draws one; JTAG answers IDCODE and BYPASS always, register accesses while it is open, and refuses and counts
them while it is closed; GET_CERT and GET_REPORT answer from stage 3 to 8, at most twenty a second; a firmware self check that fails, a glitch trip
and a lost clock are security violations. Rests on choices of the model (log entries 70, 128, 153 and 169), besides the spec. -/
def Obligations.LifeCycleCommands : Prop :=
  (∀ (s : State) (path : Path) (v : W32) (i : Nat), Reaches s path Reg.lcCmd i → unlocked s path = true → let s1 := cfgStore Reg.lcCmd 0 v (useUnlock path s)
    (cmdOp v = 1 → exec (.lcTransition path v) s = .next (finish (transitionRun s1))) ∧
    (cmdOp v = 2 → exec (.lcDebugOpen path v) s = .next (finish (debugOpenRun s1))) ∧
    (cmdOp v = 3 → lcReady s1 = true → exec (.lcNewNonce path v) s = .next (finish (newNonce (lcStatusSet 0 s1)))) ∧
    (cmdOp v = 3 → lcReady s1 = false → exec (.lcNewNonce path v) s = .next (finish (lcStatusSet 6 s1)))) ∧
  (∀ (s : State) (kind : Nat) (signed : Option Bool) (f : State → State),
    (lcReady s = true → tokenStatus s kind signed = 0 → tokenRun kind signed f s = newNonce (lcStatusSet 0 (f s))) ∧
    (lcReady s = true → tokenStatus s kind signed ≠ 0 → tokenRun kind signed f s = newNonce (lcStatusSet (tokenStatus s kind signed) (lcFlag 1 s))) ∧
    (lcReady s = false → tokenRun kind signed f s = newNonce (lcStatusSet 6 (lcFlag 1 s)))) ∧
  (∀ (s : State) (off : BitVec 26) (v : W32), alive s = true →
    exec (.jtagAccess .bypass) s = .next (finish (emit (.jtag (some [])) s)) ∧
    exec (.jtagAccess .idcode) s = .next (finish (emit (.jtag (some (leBytes 4 (draw s).1.toNat))) (draw s).2)) ∧
    (jtagOpen s = true → ∀ i, regTarget s .akist off.toNat = .at i →
      exec (.jtagAccess (.regRead off)) s = .next (finish (emit (.jtag (some (leBytes 4 (regValue s .akist off.toNat i).toNat))) (readEffect off.toNat i s)))) ∧
    (jtagOpen s = true → exec (.jtagAccess (.regWrite off v)) s = .next (finish (emit (.jtag (some [])) (regWriteOne .akist off.toNat v s)))) ∧
    (jtagOpen s = false → exec (.jtagAccess (.regWrite off v)) s = .next (finish (jtagRefused s)) ∧ exec (.jtagAccess (.regRead off)) s = .next (finish (jtagRefused s)))) ∧
  (∀ (s : State) (via : Fin 3) (nonce : BitVec 512), alive s = true → 3 ≤ stage s → stage s ≤ 8 →
    let last := s.boot.mctp.filter fun t => decide (s.boot.tick < t + 1500)
    let s1 := bootSet (fun b => { b with mctp := b.tick :: last }) s
    (last.length < 20 → exec (.getCert via) s = .next (finish (emit (.mctp via false (certOf s)) s1)) ∧
      exec (.getReport via nonce) s = .next (finish (emit (.mctp via false (reportOf nonce s)) s1))) ∧
    (20 ≤ last.length → exec (.getCert via) s = .next (finish (emit (.mctp via true []) s)) ∧ exec (.getReport via nonce) s = .next (finish (emit (.mctp via true []) s)))) ∧
  (∀ (s : State), alive s = true → exec .glitchTrip s = .next (finish (secViolate 0 s)) ∧ exec (.fwSelfCheck false) s = .next (finish (secViolate 4 s)) ∧
    exec (.fwSelfCheck true) s = .next (finish s) ∧ ∃ u, exec .clockLoss s = .next (finish (secViolate 1 u)) ∧ u.store = s.store ∧ u.boot = s.boot ∧ u.rel = s.rel)

/-- O54. SET of a slot that is VALID, with KIND 3, or with an identity another slot holds, completes with DECODE and changes no slot. CLEAR of a VALID
slot holds BUSY with its walk waiting; a walk that goes on keeps BUSY, and its completion clears it. CLEAR_LOST of a slot that is not LOST completes
with DECODE and changes no slot. -/
def Obligations.SlotCommandStatuses : Prop :=
  (∀ (s : State) (path : Path) (v : W32) (i : Nat), Accepts s path Reg.cohAgentCmd 1 7 v i → let s1 := taken path Reg.cohAgentCmd i v s
    cohSlot s (rfld s1 Reg.cohAgentNum 0 0 8) ≠ none ∨ rfld s1 Reg.cohAgent 0 18 2 = 3 ∨ (slotOfId s (rfld s1 Reg.cohAgent 0 18 2) (rfld s1 Reg.cohAgent 0 0 18)).isSome = true →
      ∃ u, exec (.cohAgentSet path v) s = .next (finish u) ∧ fld (rget u Reg.cohAgentCmd 0) 8 8 = Status.decode.code ∧ fld (rget u Reg.cohAgentCmd 0) 4 1 = 0 ∧ u.coh = s.coh) ∧
  (∀ (s : State) (path : Path) (v : W32) (i : Nat), Accepts s path Reg.cohAgentCmd 2 7 v i → let n := rfld (taken path Reg.cohAgentCmd i v s) Reg.cohAgentNum 0 0 8
    cohSlot s n ≠ none → ∃ u, exec (.cohAgentClear path v) s = .next (finish u) ∧ fld (rget u Reg.cohAgentCmd 0) 4 1 = 1 ∧ u.coh.slots = s.coh.slots ∧
      u.coh.walks = s.coh.walks ++ [{ lo := 0, hi := stageBase, slot := some n, why := .clearSlot n, running := false }]) ∧
  (∀ (s : State), rget (walkRecall s) Reg.cohAgentCmd 0 = rget s Reg.cohAgentCmd 0) ∧
  (∀ (s : State) (w : Walk) (n : Nat), w.why = .clearSlot n → fld (rget (walkDone w s) Reg.cohAgentCmd 0) 4 1 = 0 ∧ cohSlot (walkDone w s) n = none) ∧
  (∀ (s : State) (path : Path) (v : W32) (i : Nat), Accepts s path Reg.cohAgentCmd 3 7 v i →
    (∀ x, cohSlot s (rfld (taken path Reg.cohAgentCmd i v s) Reg.cohAgentNum 0 0 8) = some x → x.lost = false) →
      ∃ u, exec (.cohAgentClearLost path v) s = .next (finish u) ∧ fld (rget u Reg.cohAgentCmd 0) 8 8 = Status.decode.code ∧ u.coh = s.coh)

/-- O55. A life-cycle command taken from an unlocked function at a stage other than READY, RECOVERY or WAIT_IMAGE, or while BOOT_CMD.BUSY is 1, leaves
STATUS BUSY_HUB and the life-cycle state as it was; one taken at such a stage while BOOT_CMD.BUSY is 0 does not read BUSY_HUB. -/
def Obligations.LifeCycleBusyHub : Prop :=
  ∀ (s : State) (path : Path) (v : W32) (i : Nat) (op : Fin 3), Reaches s path Reg.lcCmd i → unlocked s path = true → cmdOp v = op.val + 1 →
    let c := match op with | 0 => Instr.lcTransition path v | 1 => .lcDebugOpen path v | 2 => .lcNewNonce path v
    let may := (stage s = 7 ∨ stage s = 9 ∨ stage s = 4) ∧ rbit s Reg.bootCmd 0 4 = false
    (¬may → ∃ u, exec c s = .next (finish u) ∧ rfld u Reg.lcCmd 0 8 8 = 6 ∧ u.boot.lcState = s.boot.lcState ∧ u.boot.debugOpen = s.boot.debugOpen ∧ u.store = s.store) ∧
    (may → ∃ u, exec c s = .next (finish u) ∧ rfld u Reg.lcCmd 0 8 8 ≠ 6)

/-- O56. An add to a tally wraps at 32 bits; a tally has reached a target when their signed difference is not negative; a TALLY_WAIT whose tally has
reached its target completes at once, another waits with the DQ_WAIT.TICKS it finds as its limit and completes when the target is reached; each
slow-tick edge counts toward the limit, and once a limit other than 0 has passed the descriptor completes with TIMEOUT, while a limit of 0 never does.
-/
def Obligations.TallyTargets : Prop :=
  (∀ (s : State) (t : Nat) (n : W32), tallyVal (tallyAddTo t n s) t = tallyVal s t + n) ∧
  (∀ v t : W32, reached v t = true ↔ 0 ≤ (v - t).toInt) ∧
  (∀ (s : State) (q : QueueNum) (seq : W32) (d : Desc), Runs s q seq 0x05 d →
    (reached (tallyVal s (d.f 1 0 16)) (w32 (d.f 1 32 32)) = true → ∃ u, exec (.tallyWait q seq) s = .next (finish u) ∧ Ended u q seq { d with step := 2 } 0) ∧
    (reached (tallyVal s (d.f 1 0 16)) (w32 (d.f 1 32 32)) = false → ∃ u, exec (.tallyWait q seq) s = .next (finish u) ∧
      descOf u q.toNat seq.toNat = some { d with stage := .waiting, step := 1, waitEdges := 0, waitLimit := waitTicks s q.toNat })) ∧
  (∀ (s : State) (q p k : Nat), queueSlot s q = some (p, k) → waitTicks s q = rfld s (slotReg Reg.dqWait k) p 0 16) ∧
  (∀ (s : State) (q : QueueNum) (seq : W32) (d : Desc) (t : Nat) (v : W32), alive s = true → descOf s q.toNat seq.toNat = some d → d.opcode = 0x05 →
    descTally s d = some (t, v) → d.stage = .waiting → d.step = 1 →
    (reached (tallyVal s t) v = true → ∃ u, exec (.tallyTargetReached q seq) s = .next (finish u) ∧ Ended u q seq d 0) ∧
    (d.waitLimit ≠ 0 → d.waitLimit ≤ d.waitEdges → ∃ u, exec (.tallyWaitTimeout q seq) s = .next (finish u) ∧ Ended u q seq { d with statuses := .timeout :: d.statuses } 0) ∧
    (d.waitLimit = 0 ∨ d.waitEdges < d.waitLimit → exec (.tallyWaitTimeout q seq) s = .next (finish s))) ∧
  (∀ (s : State) (q seq : Nat) (d : Desc), descOf s q seq = some d → d.stage = .waiting → descOf (edgeCounts s) q seq = some { d with waitEdges := d.waitEdges + 1 })

/-- O57. No command waits; every register reads as its table's reset value and every counter 0; no memory byte is listed and memory is canonical; no
allocation, queue, table, index, slot, region, commit, ledger entry, channel, translation, take or snapshot exists; partition 0 is ACTIVE and every
other FREE; the fabric epoch is 0 with no previous sheet; the hub is at stage 0, without power, and has no interrupt to tell. Register values that the
spec does not give are the model's (log entry 3), as is the off state (log entry 4). -/
def Obligations.ResetState : Prop :=
  State.reset.pending = [] ∧ (∀ r i, rget State.reset r i = regReset r) ∧ (∀ r i, cget State.reset r i = 0) ∧
  State.reset.store.mem = [] ∧ Memory.wf State.reset.store.mem = true ∧ (∀ a, byteAt State.reset a = 0) ∧
  State.reset.store.allocs = [] ∧ State.reset.eng.queues = [] ∧ State.reset.eng.tables = [] ∧ State.reset.eng.idxs = [] ∧
  State.reset.coh.slots = [] ∧ State.reset.coh.dir = [] ∧ State.reset.coh.regions = [] ∧ State.reset.fab.commit = none ∧ State.reset.fab.ledger = [] ∧
  State.reset.host.chans = [] ∧ State.reset.host.ptes = [] ∧ State.reset.rel.takes = [] ∧ State.reset.rel.snap = none ∧
  (∀ p, p < 65536 → partState State.reset p = if p = 0 then 1 else 0) ∧ State.reset.fab.epoch = 0 ∧ State.reset.fab.prevLive = false ∧
  stage State.reset = 0 ∧ alive State.reset = false ∧ intsTold State.reset = true ∧ exec .pwrokRise State.reset = .next (told (bootStart (bootSet (fun b => { b with pwrok := true }) State.reset)))

/-- O58. In every state whose hub has told its unmasked interrupt conditions, a step, whatever command it takes, answers a state whose hub has told
them: the set it last sent a message for is the unmasked set that stands. -/
def Obligations.StepKeepsInterruptsTold : Prop :=
  ∀ s t : State, intsTold s = true → step s = .next t → intsTold t = true

/-- O59. Every operation that writes store memory keeps its canonical form: bytes, cells, an erased range, a write through the codec, a store behind
copy-on-write. Cells that are stored read back and no other byte changes; so does a write into one block that is not compressed on a page that is not
lost, and a write to a lost page stores nothing. Rests on choices of the model (log entry 23), besides the spec. -/
def Obligations.MemoryOperations : Prop :=
  (∀ (s : State) (off n : Nat) (bs : List Byte) (cs : List (Option Byte)), Memory.wf s.store.mem = true →
    Memory.wf (rawWrite off bs s).store.mem = true ∧ Memory.wf (rawCells off cs s).store.mem = true ∧ Memory.wf (eraseRange off n s).store.mem = true ∧
    Memory.wf (memWrite off cs s).2.store.mem = true ∧ Memory.wf (storeCells off cs s).2.store.mem = true) ∧
  (∀ (s : State) (off a : Nat) (cs : List (Option Byte)), byteAt (rawCells off cs s) a =
    if off ≤ a ∧ a < off + cs.length then ((cs.getD (a - off) none).getD (byteAt s a)) else byteAt s a) ∧
  (∀ (s : State) (off a : Nat) (cs : List (Option Byte)), cs.length ≤ blockSize →
    (pageLost s off = true → byteAt (writeIn off cs s).2 a = byteAt s a) ∧
    (pageLost s off = false → blockCoded (blockMeta s (off / blockSize)) = false →
      (writeIn off cs s).1 = true ∧ byteAt (writeIn off cs s).2 a = if off ≤ a ∧ a < off + cs.length then ((cs.getD (a - off) none).getD (byteAt s a)) else byteAt s a))

/-- O60. No command faults or is refused (R472 gives every detected error an outcome that the machine goes on from); a hub without power, rails or
after a thermal trip answers no command but those of power, PWROK and the trip itself; where nothing waits behind a line or at a port, no cue or
doorbell is held, no broadcast is staged and no index waits to be made, the end of a command changes nothing but the interrupt message and what
sending it uses. Rests on choices of the model (log entry 11), besides the spec. -/
def Obligations.EveryCommandEnds : Prop :=
  (∀ (c : Instr) (s : State), ∃ t, exec c s = .next t) ∧
  (∀ (c : Instr) (s : State), alive s = false → c ≠ .pwrokRise → c ≠ .pwrokFall → c ≠ .supplyRailsGood → c ≠ .powerLoss → c ≠ .thermalTrip → exec c s = .next s) ∧
  (∀ s : State, Quiet s → (finish s).pending = s.pending ∧ (finish s).regs = s.regs ∧ (finish s).store = s.store ∧ (finish s).rows = s.rows ∧ (finish s).eng = s.eng ∧
    (finish s).ord = s.ord ∧ (finish s).coh = s.coh ∧ (finish s).rel = s.rel ∧ (finish s).boot = s.boot ∧
    (intsTold s = true → finish s = s))
end

