-- ==== Sys2Proof/Laws/State.lean ====
section
/-! SUPPORT. What the named updates of the state leave as it was: one lemma for each field of State that an update does not touch. -/

namespace Sys2Proof.Machine

open Sys2Proof

/-! rset -/

@[simp] theorem rset_pending (r i : Nat) (v : W32) (s : State) : (rset r i v s).pending = s.pending := rfl
@[simp] theorem rset_fresh (r i : Nat) (v : W32) (s : State) : (rset r i v s).fresh = s.fresh := rfl
@[simp] theorem rset_live (r i : Nat) (v : W32) (s : State) : (rset r i v s).live = s.live := rfl
@[simp] theorem rset_copies (r i : Nat) (v : W32) (s : State) : (rset r i v s).copies = s.copies := rfl
@[simp] theorem rset_store (r i : Nat) (v : W32) (s : State) : (rset r i v s).store = s.store := rfl
@[simp] theorem rset_rows (r i : Nat) (v : W32) (s : State) : (rset r i v s).rows = s.rows := rfl
@[simp] theorem rset_eng (r i : Nat) (v : W32) (s : State) : (rset r i v s).eng = s.eng := rfl
@[simp] theorem rset_ord (r i : Nat) (v : W32) (s : State) : (rset r i v s).ord = s.ord := rfl
@[simp] theorem rset_coh (r i : Nat) (v : W32) (s : State) : (rset r i v s).coh = s.coh := rfl
@[simp] theorem rset_fab (r i : Nat) (v : W32) (s : State) : (rset r i v s).fab = s.fab := rfl
@[simp] theorem rset_host (r i : Nat) (v : W32) (s : State) : (rset r i v s).host = s.host := rfl
@[simp] theorem rset_mgmt (r i : Nat) (v : W32) (s : State) : (rset r i v s).mgmt = s.mgmt := rfl
@[simp] theorem rset_rel (r i : Nat) (v : W32) (s : State) : (rset r i v s).rel = s.rel := rfl
@[simp] theorem rset_boot (r i : Nat) (v : W32) (s : State) : (rset r i v s).boot = s.boot := rfl
@[simp] theorem rset_out (r i : Nat) (v : W32) (s : State) : (rset r i v s).out = s.out := rfl

/-! rsetFld -/

@[simp] theorem rsetFld_pending (r i lo n x : Nat) (s : State) : (rsetFld r i lo n x s).pending = s.pending := rfl
@[simp] theorem rsetFld_fresh (r i lo n x : Nat) (s : State) : (rsetFld r i lo n x s).fresh = s.fresh := rfl
@[simp] theorem rsetFld_live (r i lo n x : Nat) (s : State) : (rsetFld r i lo n x s).live = s.live := rfl
@[simp] theorem rsetFld_copies (r i lo n x : Nat) (s : State) : (rsetFld r i lo n x s).copies = s.copies := rfl
@[simp] theorem rsetFld_store (r i lo n x : Nat) (s : State) : (rsetFld r i lo n x s).store = s.store := rfl
@[simp] theorem rsetFld_rows (r i lo n x : Nat) (s : State) : (rsetFld r i lo n x s).rows = s.rows := rfl
@[simp] theorem rsetFld_eng (r i lo n x : Nat) (s : State) : (rsetFld r i lo n x s).eng = s.eng := rfl
@[simp] theorem rsetFld_ord (r i lo n x : Nat) (s : State) : (rsetFld r i lo n x s).ord = s.ord := rfl
@[simp] theorem rsetFld_coh (r i lo n x : Nat) (s : State) : (rsetFld r i lo n x s).coh = s.coh := rfl
@[simp] theorem rsetFld_fab (r i lo n x : Nat) (s : State) : (rsetFld r i lo n x s).fab = s.fab := rfl
@[simp] theorem rsetFld_host (r i lo n x : Nat) (s : State) : (rsetFld r i lo n x s).host = s.host := rfl
@[simp] theorem rsetFld_mgmt (r i lo n x : Nat) (s : State) : (rsetFld r i lo n x s).mgmt = s.mgmt := rfl
@[simp] theorem rsetFld_rel (r i lo n x : Nat) (s : State) : (rsetFld r i lo n x s).rel = s.rel := rfl
@[simp] theorem rsetFld_boot (r i lo n x : Nat) (s : State) : (rsetFld r i lo n x s).boot = s.boot := rfl
@[simp] theorem rsetFld_out (r i lo n x : Nat) (s : State) : (rsetFld r i lo n x s).out = s.out := rfl

/-! cset -/

@[simp] theorem cset_pending (r i n : Nat) (s : State) : (cset r i n s).pending = s.pending := rfl
@[simp] theorem cset_fresh (r i n : Nat) (s : State) : (cset r i n s).fresh = s.fresh := rfl
@[simp] theorem cset_regs (r i n : Nat) (s : State) : (cset r i n s).regs = s.regs := rfl
@[simp] theorem cset_copies (r i n : Nat) (s : State) : (cset r i n s).copies = s.copies := rfl
@[simp] theorem cset_store (r i n : Nat) (s : State) : (cset r i n s).store = s.store := rfl
@[simp] theorem cset_rows (r i n : Nat) (s : State) : (cset r i n s).rows = s.rows := rfl
@[simp] theorem cset_eng (r i n : Nat) (s : State) : (cset r i n s).eng = s.eng := rfl
@[simp] theorem cset_ord (r i n : Nat) (s : State) : (cset r i n s).ord = s.ord := rfl
@[simp] theorem cset_coh (r i n : Nat) (s : State) : (cset r i n s).coh = s.coh := rfl
@[simp] theorem cset_fab (r i n : Nat) (s : State) : (cset r i n s).fab = s.fab := rfl
@[simp] theorem cset_host (r i n : Nat) (s : State) : (cset r i n s).host = s.host := rfl
@[simp] theorem cset_mgmt (r i n : Nat) (s : State) : (cset r i n s).mgmt = s.mgmt := rfl
@[simp] theorem cset_rel (r i n : Nat) (s : State) : (cset r i n s).rel = s.rel := rfl
@[simp] theorem cset_boot (r i n : Nat) (s : State) : (cset r i n s).boot = s.boot := rfl
@[simp] theorem cset_out (r i n : Nat) (s : State) : (cset r i n s).out = s.out := rfl

/-! bumpN -/

@[simp] theorem bumpN_pending (r i n : Nat) (s : State) : (bumpN r i n s).pending = s.pending := rfl
@[simp] theorem bumpN_fresh (r i n : Nat) (s : State) : (bumpN r i n s).fresh = s.fresh := rfl
@[simp] theorem bumpN_regs (r i n : Nat) (s : State) : (bumpN r i n s).regs = s.regs := rfl
@[simp] theorem bumpN_copies (r i n : Nat) (s : State) : (bumpN r i n s).copies = s.copies := rfl
@[simp] theorem bumpN_store (r i n : Nat) (s : State) : (bumpN r i n s).store = s.store := rfl
@[simp] theorem bumpN_rows (r i n : Nat) (s : State) : (bumpN r i n s).rows = s.rows := rfl
@[simp] theorem bumpN_eng (r i n : Nat) (s : State) : (bumpN r i n s).eng = s.eng := rfl
@[simp] theorem bumpN_ord (r i n : Nat) (s : State) : (bumpN r i n s).ord = s.ord := rfl
@[simp] theorem bumpN_coh (r i n : Nat) (s : State) : (bumpN r i n s).coh = s.coh := rfl
@[simp] theorem bumpN_fab (r i n : Nat) (s : State) : (bumpN r i n s).fab = s.fab := rfl
@[simp] theorem bumpN_host (r i n : Nat) (s : State) : (bumpN r i n s).host = s.host := rfl
@[simp] theorem bumpN_mgmt (r i n : Nat) (s : State) : (bumpN r i n s).mgmt = s.mgmt := rfl
@[simp] theorem bumpN_rel (r i n : Nat) (s : State) : (bumpN r i n s).rel = s.rel := rfl
@[simp] theorem bumpN_boot (r i n : Nat) (s : State) : (bumpN r i n s).boot = s.boot := rfl
@[simp] theorem bumpN_out (r i n : Nat) (s : State) : (bumpN r i n s).out = s.out := rfl

/-! bump -/

@[simp] theorem bump_pending (r i : Nat) (s : State) : (bump r i s).pending = s.pending := rfl
@[simp] theorem bump_fresh (r i : Nat) (s : State) : (bump r i s).fresh = s.fresh := rfl
@[simp] theorem bump_regs (r i : Nat) (s : State) : (bump r i s).regs = s.regs := rfl
@[simp] theorem bump_copies (r i : Nat) (s : State) : (bump r i s).copies = s.copies := rfl
@[simp] theorem bump_store (r i : Nat) (s : State) : (bump r i s).store = s.store := rfl
@[simp] theorem bump_rows (r i : Nat) (s : State) : (bump r i s).rows = s.rows := rfl
@[simp] theorem bump_eng (r i : Nat) (s : State) : (bump r i s).eng = s.eng := rfl
@[simp] theorem bump_ord (r i : Nat) (s : State) : (bump r i s).ord = s.ord := rfl
@[simp] theorem bump_coh (r i : Nat) (s : State) : (bump r i s).coh = s.coh := rfl
@[simp] theorem bump_fab (r i : Nat) (s : State) : (bump r i s).fab = s.fab := rfl
@[simp] theorem bump_host (r i : Nat) (s : State) : (bump r i s).host = s.host := rfl
@[simp] theorem bump_mgmt (r i : Nat) (s : State) : (bump r i s).mgmt = s.mgmt := rfl
@[simp] theorem bump_rel (r i : Nat) (s : State) : (bump r i s).rel = s.rel := rfl
@[simp] theorem bump_boot (r i : Nat) (s : State) : (bump r i s).boot = s.boot := rfl
@[simp] theorem bump_out (r i : Nat) (s : State) : (bump r i s).out = s.out := rfl

/-! emit -/

@[simp] theorem emit_pending (e : Emit) (s : State) : (emit e s).pending = s.pending := rfl
@[simp] theorem emit_fresh (e : Emit) (s : State) : (emit e s).fresh = s.fresh := rfl
@[simp] theorem emit_regs (e : Emit) (s : State) : (emit e s).regs = s.regs := rfl
@[simp] theorem emit_live (e : Emit) (s : State) : (emit e s).live = s.live := rfl
@[simp] theorem emit_copies (e : Emit) (s : State) : (emit e s).copies = s.copies := rfl
@[simp] theorem emit_store (e : Emit) (s : State) : (emit e s).store = s.store := rfl
@[simp] theorem emit_rows (e : Emit) (s : State) : (emit e s).rows = s.rows := rfl
@[simp] theorem emit_eng (e : Emit) (s : State) : (emit e s).eng = s.eng := rfl
@[simp] theorem emit_ord (e : Emit) (s : State) : (emit e s).ord = s.ord := rfl
@[simp] theorem emit_coh (e : Emit) (s : State) : (emit e s).coh = s.coh := rfl
@[simp] theorem emit_fab (e : Emit) (s : State) : (emit e s).fab = s.fab := rfl
@[simp] theorem emit_host (e : Emit) (s : State) : (emit e s).host = s.host := rfl
@[simp] theorem emit_mgmt (e : Emit) (s : State) : (emit e s).mgmt = s.mgmt := rfl
@[simp] theorem emit_rel (e : Emit) (s : State) : (emit e s).rel = s.rel := rfl
@[simp] theorem emit_boot (e : Emit) (s : State) : (emit e s).boot = s.boot := rfl

/-! useUnlock -/

@[simp] theorem useUnlock_pending (path : Path) (s : State) : (useUnlock path s).pending = s.pending := rfl
@[simp] theorem useUnlock_fresh (path : Path) (s : State) : (useUnlock path s).fresh = s.fresh := rfl
@[simp] theorem useUnlock_regs (path : Path) (s : State) : (useUnlock path s).regs = s.regs := rfl
@[simp] theorem useUnlock_live (path : Path) (s : State) : (useUnlock path s).live = s.live := rfl
@[simp] theorem useUnlock_copies (path : Path) (s : State) : (useUnlock path s).copies = s.copies := rfl
@[simp] theorem useUnlock_store (path : Path) (s : State) : (useUnlock path s).store = s.store := rfl
@[simp] theorem useUnlock_rows (path : Path) (s : State) : (useUnlock path s).rows = s.rows := rfl
@[simp] theorem useUnlock_eng (path : Path) (s : State) : (useUnlock path s).eng = s.eng := rfl
@[simp] theorem useUnlock_ord (path : Path) (s : State) : (useUnlock path s).ord = s.ord := rfl
@[simp] theorem useUnlock_coh (path : Path) (s : State) : (useUnlock path s).coh = s.coh := rfl
@[simp] theorem useUnlock_fab (path : Path) (s : State) : (useUnlock path s).fab = s.fab := rfl
@[simp] theorem useUnlock_host (path : Path) (s : State) : (useUnlock path s).host = s.host := rfl
@[simp] theorem useUnlock_rel (path : Path) (s : State) : (useUnlock path s).rel = s.rel := rfl
@[simp] theorem useUnlock_boot (path : Path) (s : State) : (useUnlock path s).boot = s.boot := rfl
@[simp] theorem useUnlock_out (path : Path) (s : State) : (useUnlock path s).out = s.out := rfl

/-! setBusy -/

@[simp] theorem setBusy_pending (r i : Nat) (b : Bool) (s : State) : (setBusy r i b s).pending = s.pending := rfl
@[simp] theorem setBusy_fresh (r i : Nat) (b : Bool) (s : State) : (setBusy r i b s).fresh = s.fresh := rfl
@[simp] theorem setBusy_live (r i : Nat) (b : Bool) (s : State) : (setBusy r i b s).live = s.live := rfl
@[simp] theorem setBusy_copies (r i : Nat) (b : Bool) (s : State) : (setBusy r i b s).copies = s.copies := rfl
@[simp] theorem setBusy_store (r i : Nat) (b : Bool) (s : State) : (setBusy r i b s).store = s.store := rfl
@[simp] theorem setBusy_rows (r i : Nat) (b : Bool) (s : State) : (setBusy r i b s).rows = s.rows := rfl
@[simp] theorem setBusy_eng (r i : Nat) (b : Bool) (s : State) : (setBusy r i b s).eng = s.eng := rfl
@[simp] theorem setBusy_ord (r i : Nat) (b : Bool) (s : State) : (setBusy r i b s).ord = s.ord := rfl
@[simp] theorem setBusy_coh (r i : Nat) (b : Bool) (s : State) : (setBusy r i b s).coh = s.coh := rfl
@[simp] theorem setBusy_fab (r i : Nat) (b : Bool) (s : State) : (setBusy r i b s).fab = s.fab := rfl
@[simp] theorem setBusy_host (r i : Nat) (b : Bool) (s : State) : (setBusy r i b s).host = s.host := rfl
@[simp] theorem setBusy_mgmt (r i : Nat) (b : Bool) (s : State) : (setBusy r i b s).mgmt = s.mgmt := rfl
@[simp] theorem setBusy_rel (r i : Nat) (b : Bool) (s : State) : (setBusy r i b s).rel = s.rel := rfl
@[simp] theorem setBusy_boot (r i : Nat) (b : Bool) (s : State) : (setBusy r i b s).boot = s.boot := rfl
@[simp] theorem setBusy_out (r i : Nat) (b : Bool) (s : State) : (setBusy r i b s).out = s.out := rfl

/-! cmdEnd -/

@[simp] theorem cmdEnd_pending (r i : Nat) (st : Status) (s : State) : (cmdEnd r i st s).pending = s.pending := rfl
@[simp] theorem cmdEnd_fresh (r i : Nat) (st : Status) (s : State) : (cmdEnd r i st s).fresh = s.fresh := rfl
@[simp] theorem cmdEnd_live (r i : Nat) (st : Status) (s : State) : (cmdEnd r i st s).live = s.live := rfl
@[simp] theorem cmdEnd_copies (r i : Nat) (st : Status) (s : State) : (cmdEnd r i st s).copies = s.copies := rfl
@[simp] theorem cmdEnd_store (r i : Nat) (st : Status) (s : State) : (cmdEnd r i st s).store = s.store := rfl
@[simp] theorem cmdEnd_rows (r i : Nat) (st : Status) (s : State) : (cmdEnd r i st s).rows = s.rows := rfl
@[simp] theorem cmdEnd_eng (r i : Nat) (st : Status) (s : State) : (cmdEnd r i st s).eng = s.eng := rfl
@[simp] theorem cmdEnd_ord (r i : Nat) (st : Status) (s : State) : (cmdEnd r i st s).ord = s.ord := rfl
@[simp] theorem cmdEnd_coh (r i : Nat) (st : Status) (s : State) : (cmdEnd r i st s).coh = s.coh := rfl
@[simp] theorem cmdEnd_fab (r i : Nat) (st : Status) (s : State) : (cmdEnd r i st s).fab = s.fab := rfl
@[simp] theorem cmdEnd_host (r i : Nat) (st : Status) (s : State) : (cmdEnd r i st s).host = s.host := rfl
@[simp] theorem cmdEnd_mgmt (r i : Nat) (st : Status) (s : State) : (cmdEnd r i st s).mgmt = s.mgmt := rfl
@[simp] theorem cmdEnd_rel (r i : Nat) (st : Status) (s : State) : (cmdEnd r i st s).rel = s.rel := rfl
@[simp] theorem cmdEnd_boot (r i : Nat) (st : Status) (s : State) : (cmdEnd r i st s).boot = s.boot := rfl
@[simp] theorem cmdEnd_out (r i : Nat) (st : Status) (s : State) : (cmdEnd r i st s).out = s.out := rfl

/-! portSet -/

@[simp] theorem portSet_pending (p : Nat) (f : Port → Port) (s : State) : (portSet p f s).pending = s.pending := rfl
@[simp] theorem portSet_fresh (p : Nat) (f : Port → Port) (s : State) : (portSet p f s).fresh = s.fresh := rfl
@[simp] theorem portSet_regs (p : Nat) (f : Port → Port) (s : State) : (portSet p f s).regs = s.regs := rfl
@[simp] theorem portSet_live (p : Nat) (f : Port → Port) (s : State) : (portSet p f s).live = s.live := rfl
@[simp] theorem portSet_copies (p : Nat) (f : Port → Port) (s : State) : (portSet p f s).copies = s.copies := rfl
@[simp] theorem portSet_store (p : Nat) (f : Port → Port) (s : State) : (portSet p f s).store = s.store := rfl
@[simp] theorem portSet_rows (p : Nat) (f : Port → Port) (s : State) : (portSet p f s).rows = s.rows := rfl
@[simp] theorem portSet_eng (p : Nat) (f : Port → Port) (s : State) : (portSet p f s).eng = s.eng := rfl
@[simp] theorem portSet_ord (p : Nat) (f : Port → Port) (s : State) : (portSet p f s).ord = s.ord := rfl
@[simp] theorem portSet_coh (p : Nat) (f : Port → Port) (s : State) : (portSet p f s).coh = s.coh := rfl
@[simp] theorem portSet_host (p : Nat) (f : Port → Port) (s : State) : (portSet p f s).host = s.host := rfl
@[simp] theorem portSet_mgmt (p : Nat) (f : Port → Port) (s : State) : (portSet p f s).mgmt = s.mgmt := rfl
@[simp] theorem portSet_rel (p : Nat) (f : Port → Port) (s : State) : (portSet p f s).rel = s.rel := rfl
@[simp] theorem portSet_boot (p : Nat) (f : Port → Port) (s : State) : (portSet p f s).boot = s.boot := rfl
@[simp] theorem portSet_out (p : Nat) (f : Port → Port) (s : State) : (portSet p f s).out = s.out := rfl

/-! partnerSet -/

@[simp] theorem partnerSet_pending (ep : Nat) (e : Partner) (s : State) : (partnerSet ep e s).pending = s.pending := rfl
@[simp] theorem partnerSet_fresh (ep : Nat) (e : Partner) (s : State) : (partnerSet ep e s).fresh = s.fresh := rfl
@[simp] theorem partnerSet_regs (ep : Nat) (e : Partner) (s : State) : (partnerSet ep e s).regs = s.regs := rfl
@[simp] theorem partnerSet_live (ep : Nat) (e : Partner) (s : State) : (partnerSet ep e s).live = s.live := rfl
@[simp] theorem partnerSet_copies (ep : Nat) (e : Partner) (s : State) : (partnerSet ep e s).copies = s.copies := rfl
@[simp] theorem partnerSet_store (ep : Nat) (e : Partner) (s : State) : (partnerSet ep e s).store = s.store := rfl
@[simp] theorem partnerSet_rows (ep : Nat) (e : Partner) (s : State) : (partnerSet ep e s).rows = s.rows := rfl
@[simp] theorem partnerSet_eng (ep : Nat) (e : Partner) (s : State) : (partnerSet ep e s).eng = s.eng := rfl
@[simp] theorem partnerSet_ord (ep : Nat) (e : Partner) (s : State) : (partnerSet ep e s).ord = s.ord := rfl
@[simp] theorem partnerSet_coh (ep : Nat) (e : Partner) (s : State) : (partnerSet ep e s).coh = s.coh := rfl
@[simp] theorem partnerSet_host (ep : Nat) (e : Partner) (s : State) : (partnerSet ep e s).host = s.host := rfl
@[simp] theorem partnerSet_mgmt (ep : Nat) (e : Partner) (s : State) : (partnerSet ep e s).mgmt = s.mgmt := rfl
@[simp] theorem partnerSet_rel (ep : Nat) (e : Partner) (s : State) : (partnerSet ep e s).rel = s.rel := rfl
@[simp] theorem partnerSet_boot (ep : Nat) (e : Partner) (s : State) : (partnerSet ep e s).boot = s.boot := rfl
@[simp] theorem partnerSet_out (ep : Nat) (e : Partner) (s : State) : (partnerSet ep e s).out = s.out := rfl

/-! heardFrom -/

@[simp] theorem heardFrom_pending (ep : Nat) (s : State) : (heardFrom ep s).pending = s.pending := rfl
@[simp] theorem heardFrom_fresh (ep : Nat) (s : State) : (heardFrom ep s).fresh = s.fresh := rfl
@[simp] theorem heardFrom_regs (ep : Nat) (s : State) : (heardFrom ep s).regs = s.regs := rfl
@[simp] theorem heardFrom_live (ep : Nat) (s : State) : (heardFrom ep s).live = s.live := rfl
@[simp] theorem heardFrom_copies (ep : Nat) (s : State) : (heardFrom ep s).copies = s.copies := rfl
@[simp] theorem heardFrom_store (ep : Nat) (s : State) : (heardFrom ep s).store = s.store := rfl
@[simp] theorem heardFrom_rows (ep : Nat) (s : State) : (heardFrom ep s).rows = s.rows := rfl
@[simp] theorem heardFrom_eng (ep : Nat) (s : State) : (heardFrom ep s).eng = s.eng := rfl
@[simp] theorem heardFrom_ord (ep : Nat) (s : State) : (heardFrom ep s).ord = s.ord := rfl
@[simp] theorem heardFrom_coh (ep : Nat) (s : State) : (heardFrom ep s).coh = s.coh := rfl
@[simp] theorem heardFrom_host (ep : Nat) (s : State) : (heardFrom ep s).host = s.host := rfl
@[simp] theorem heardFrom_mgmt (ep : Nat) (s : State) : (heardFrom ep s).mgmt = s.mgmt := rfl
@[simp] theorem heardFrom_rel (ep : Nat) (s : State) : (heardFrom ep s).rel = s.rel := rfl
@[simp] theorem heardFrom_boot (ep : Nat) (s : State) : (heardFrom ep s).boot = s.boot := rfl
@[simp] theorem heardFrom_out (ep : Nat) (s : State) : (heardFrom ep s).out = s.out := rfl

/-! fnSet -/

@[simp] theorem fnSet_pending (i : Nat) (f : Fn → Fn) (s : State) : (fnSet i f s).pending = s.pending := rfl
@[simp] theorem fnSet_fresh (i : Nat) (f : Fn → Fn) (s : State) : (fnSet i f s).fresh = s.fresh := rfl
@[simp] theorem fnSet_regs (i : Nat) (f : Fn → Fn) (s : State) : (fnSet i f s).regs = s.regs := rfl
@[simp] theorem fnSet_live (i : Nat) (f : Fn → Fn) (s : State) : (fnSet i f s).live = s.live := rfl
@[simp] theorem fnSet_copies (i : Nat) (f : Fn → Fn) (s : State) : (fnSet i f s).copies = s.copies := rfl
@[simp] theorem fnSet_store (i : Nat) (f : Fn → Fn) (s : State) : (fnSet i f s).store = s.store := rfl
@[simp] theorem fnSet_rows (i : Nat) (f : Fn → Fn) (s : State) : (fnSet i f s).rows = s.rows := rfl
@[simp] theorem fnSet_eng (i : Nat) (f : Fn → Fn) (s : State) : (fnSet i f s).eng = s.eng := rfl
@[simp] theorem fnSet_ord (i : Nat) (f : Fn → Fn) (s : State) : (fnSet i f s).ord = s.ord := rfl
@[simp] theorem fnSet_coh (i : Nat) (f : Fn → Fn) (s : State) : (fnSet i f s).coh = s.coh := rfl
@[simp] theorem fnSet_fab (i : Nat) (f : Fn → Fn) (s : State) : (fnSet i f s).fab = s.fab := rfl
@[simp] theorem fnSet_mgmt (i : Nat) (f : Fn → Fn) (s : State) : (fnSet i f s).mgmt = s.mgmt := rfl
@[simp] theorem fnSet_rel (i : Nat) (f : Fn → Fn) (s : State) : (fnSet i f s).rel = s.rel := rfl
@[simp] theorem fnSet_boot (i : Nat) (f : Fn → Fn) (s : State) : (fnSet i f s).boot = s.boot := rfl
@[simp] theorem fnSet_out (i : Nat) (f : Fn → Fn) (s : State) : (fnSet i f s).out = s.out := rfl

/-! chanMod -/

@[simp] theorem chanMod_pending (e c : Nat) (f : Chan → Chan) (s : State) : (chanMod e c f s).pending = s.pending := rfl
@[simp] theorem chanMod_fresh (e c : Nat) (f : Chan → Chan) (s : State) : (chanMod e c f s).fresh = s.fresh := rfl
@[simp] theorem chanMod_regs (e c : Nat) (f : Chan → Chan) (s : State) : (chanMod e c f s).regs = s.regs := rfl
@[simp] theorem chanMod_live (e c : Nat) (f : Chan → Chan) (s : State) : (chanMod e c f s).live = s.live := rfl
@[simp] theorem chanMod_copies (e c : Nat) (f : Chan → Chan) (s : State) : (chanMod e c f s).copies = s.copies := rfl
@[simp] theorem chanMod_store (e c : Nat) (f : Chan → Chan) (s : State) : (chanMod e c f s).store = s.store := rfl
@[simp] theorem chanMod_rows (e c : Nat) (f : Chan → Chan) (s : State) : (chanMod e c f s).rows = s.rows := rfl
@[simp] theorem chanMod_eng (e c : Nat) (f : Chan → Chan) (s : State) : (chanMod e c f s).eng = s.eng := rfl
@[simp] theorem chanMod_ord (e c : Nat) (f : Chan → Chan) (s : State) : (chanMod e c f s).ord = s.ord := rfl
@[simp] theorem chanMod_coh (e c : Nat) (f : Chan → Chan) (s : State) : (chanMod e c f s).coh = s.coh := rfl
@[simp] theorem chanMod_fab (e c : Nat) (f : Chan → Chan) (s : State) : (chanMod e c f s).fab = s.fab := rfl
@[simp] theorem chanMod_mgmt (e c : Nat) (f : Chan → Chan) (s : State) : (chanMod e c f s).mgmt = s.mgmt := rfl
@[simp] theorem chanMod_rel (e c : Nat) (f : Chan → Chan) (s : State) : (chanMod e c f s).rel = s.rel := rfl
@[simp] theorem chanMod_boot (e c : Nat) (f : Chan → Chan) (s : State) : (chanMod e c f s).boot = s.boot := rfl
@[simp] theorem chanMod_out (e c : Nat) (f : Chan → Chan) (s : State) : (chanMod e c f s).out = s.out := rfl

/-! setOrder -/

@[simp] theorem setOrder_pending (e : Nat) (l : List Nat) (s : State) : (setOrder e l s).pending = s.pending := rfl
@[simp] theorem setOrder_fresh (e : Nat) (l : List Nat) (s : State) : (setOrder e l s).fresh = s.fresh := rfl
@[simp] theorem setOrder_regs (e : Nat) (l : List Nat) (s : State) : (setOrder e l s).regs = s.regs := rfl
@[simp] theorem setOrder_live (e : Nat) (l : List Nat) (s : State) : (setOrder e l s).live = s.live := rfl
@[simp] theorem setOrder_copies (e : Nat) (l : List Nat) (s : State) : (setOrder e l s).copies = s.copies := rfl
@[simp] theorem setOrder_store (e : Nat) (l : List Nat) (s : State) : (setOrder e l s).store = s.store := rfl
@[simp] theorem setOrder_rows (e : Nat) (l : List Nat) (s : State) : (setOrder e l s).rows = s.rows := rfl
@[simp] theorem setOrder_eng (e : Nat) (l : List Nat) (s : State) : (setOrder e l s).eng = s.eng := rfl
@[simp] theorem setOrder_ord (e : Nat) (l : List Nat) (s : State) : (setOrder e l s).ord = s.ord := rfl
@[simp] theorem setOrder_coh (e : Nat) (l : List Nat) (s : State) : (setOrder e l s).coh = s.coh := rfl
@[simp] theorem setOrder_fab (e : Nat) (l : List Nat) (s : State) : (setOrder e l s).fab = s.fab := rfl
@[simp] theorem setOrder_mgmt (e : Nat) (l : List Nat) (s : State) : (setOrder e l s).mgmt = s.mgmt := rfl
@[simp] theorem setOrder_rel (e : Nat) (l : List Nat) (s : State) : (setOrder e l s).rel = s.rel := rfl
@[simp] theorem setOrder_boot (e : Nat) (l : List Nat) (s : State) : (setOrder e l s).boot = s.boot := rfl
@[simp] theorem setOrder_out (e : Nat) (l : List Nat) (s : State) : (setOrder e l s).out = s.out := rfl

/-! queueSet -/

@[simp] theorem queueSet_pending (q : Nat) (f : Queue → Queue) (s : State) : (queueSet q f s).pending = s.pending := rfl
@[simp] theorem queueSet_fresh (q : Nat) (f : Queue → Queue) (s : State) : (queueSet q f s).fresh = s.fresh := rfl
@[simp] theorem queueSet_regs (q : Nat) (f : Queue → Queue) (s : State) : (queueSet q f s).regs = s.regs := rfl
@[simp] theorem queueSet_live (q : Nat) (f : Queue → Queue) (s : State) : (queueSet q f s).live = s.live := rfl
@[simp] theorem queueSet_copies (q : Nat) (f : Queue → Queue) (s : State) : (queueSet q f s).copies = s.copies := rfl
@[simp] theorem queueSet_store (q : Nat) (f : Queue → Queue) (s : State) : (queueSet q f s).store = s.store := rfl
@[simp] theorem queueSet_rows (q : Nat) (f : Queue → Queue) (s : State) : (queueSet q f s).rows = s.rows := rfl
@[simp] theorem queueSet_ord (q : Nat) (f : Queue → Queue) (s : State) : (queueSet q f s).ord = s.ord := rfl
@[simp] theorem queueSet_coh (q : Nat) (f : Queue → Queue) (s : State) : (queueSet q f s).coh = s.coh := rfl
@[simp] theorem queueSet_fab (q : Nat) (f : Queue → Queue) (s : State) : (queueSet q f s).fab = s.fab := rfl
@[simp] theorem queueSet_host (q : Nat) (f : Queue → Queue) (s : State) : (queueSet q f s).host = s.host := rfl
@[simp] theorem queueSet_mgmt (q : Nat) (f : Queue → Queue) (s : State) : (queueSet q f s).mgmt = s.mgmt := rfl
@[simp] theorem queueSet_rel (q : Nat) (f : Queue → Queue) (s : State) : (queueSet q f s).rel = s.rel := rfl
@[simp] theorem queueSet_boot (q : Nat) (f : Queue → Queue) (s : State) : (queueSet q f s).boot = s.boot := rfl
@[simp] theorem queueSet_out (q : Nat) (f : Queue → Queue) (s : State) : (queueSet q f s).out = s.out := rfl

/-! descMod -/

@[simp] theorem descMod_pending (q seq : Nat) (f : Desc → Desc) (s : State) : (descMod q seq f s).pending = s.pending := rfl
@[simp] theorem descMod_fresh (q seq : Nat) (f : Desc → Desc) (s : State) : (descMod q seq f s).fresh = s.fresh := rfl
@[simp] theorem descMod_regs (q seq : Nat) (f : Desc → Desc) (s : State) : (descMod q seq f s).regs = s.regs := rfl
@[simp] theorem descMod_live (q seq : Nat) (f : Desc → Desc) (s : State) : (descMod q seq f s).live = s.live := rfl
@[simp] theorem descMod_copies (q seq : Nat) (f : Desc → Desc) (s : State) : (descMod q seq f s).copies = s.copies := rfl
@[simp] theorem descMod_store (q seq : Nat) (f : Desc → Desc) (s : State) : (descMod q seq f s).store = s.store := rfl
@[simp] theorem descMod_rows (q seq : Nat) (f : Desc → Desc) (s : State) : (descMod q seq f s).rows = s.rows := rfl
@[simp] theorem descMod_ord (q seq : Nat) (f : Desc → Desc) (s : State) : (descMod q seq f s).ord = s.ord := rfl
@[simp] theorem descMod_coh (q seq : Nat) (f : Desc → Desc) (s : State) : (descMod q seq f s).coh = s.coh := rfl
@[simp] theorem descMod_fab (q seq : Nat) (f : Desc → Desc) (s : State) : (descMod q seq f s).fab = s.fab := rfl
@[simp] theorem descMod_host (q seq : Nat) (f : Desc → Desc) (s : State) : (descMod q seq f s).host = s.host := rfl
@[simp] theorem descMod_mgmt (q seq : Nat) (f : Desc → Desc) (s : State) : (descMod q seq f s).mgmt = s.mgmt := rfl
@[simp] theorem descMod_rel (q seq : Nat) (f : Desc → Desc) (s : State) : (descMod q seq f s).rel = s.rel := rfl
@[simp] theorem descMod_boot (q seq : Nat) (f : Desc → Desc) (s : State) : (descMod q seq f s).boot = s.boot := rfl
@[simp] theorem descMod_out (q seq : Nat) (f : Desc → Desc) (s : State) : (descMod q seq f s).out = s.out := rfl

/-! setJobs -/

@[simp] theorem setJobs_pending (l : Nat) (js : List LaneJob) (s : State) : (setJobs l js s).pending = s.pending := rfl
@[simp] theorem setJobs_fresh (l : Nat) (js : List LaneJob) (s : State) : (setJobs l js s).fresh = s.fresh := rfl
@[simp] theorem setJobs_regs (l : Nat) (js : List LaneJob) (s : State) : (setJobs l js s).regs = s.regs := rfl
@[simp] theorem setJobs_live (l : Nat) (js : List LaneJob) (s : State) : (setJobs l js s).live = s.live := rfl
@[simp] theorem setJobs_copies (l : Nat) (js : List LaneJob) (s : State) : (setJobs l js s).copies = s.copies := rfl
@[simp] theorem setJobs_store (l : Nat) (js : List LaneJob) (s : State) : (setJobs l js s).store = s.store := rfl
@[simp] theorem setJobs_rows (l : Nat) (js : List LaneJob) (s : State) : (setJobs l js s).rows = s.rows := rfl
@[simp] theorem setJobs_ord (l : Nat) (js : List LaneJob) (s : State) : (setJobs l js s).ord = s.ord := rfl
@[simp] theorem setJobs_coh (l : Nat) (js : List LaneJob) (s : State) : (setJobs l js s).coh = s.coh := rfl
@[simp] theorem setJobs_fab (l : Nat) (js : List LaneJob) (s : State) : (setJobs l js s).fab = s.fab := rfl
@[simp] theorem setJobs_host (l : Nat) (js : List LaneJob) (s : State) : (setJobs l js s).host = s.host := rfl
@[simp] theorem setJobs_mgmt (l : Nat) (js : List LaneJob) (s : State) : (setJobs l js s).mgmt = s.mgmt := rfl
@[simp] theorem setJobs_rel (l : Nat) (js : List LaneJob) (s : State) : (setJobs l js s).rel = s.rel := rfl
@[simp] theorem setJobs_boot (l : Nat) (js : List LaneJob) (s : State) : (setJobs l js s).boot = s.boot := rfl
@[simp] theorem setJobs_out (l : Nat) (js : List LaneJob) (s : State) : (setJobs l js s).out = s.out := rfl

/-! pageMod -/

@[simp] theorem pageMod_pending (pg : Nat) (f : Page → Page) (s : State) : (pageMod pg f s).pending = s.pending := rfl
@[simp] theorem pageMod_fresh (pg : Nat) (f : Page → Page) (s : State) : (pageMod pg f s).fresh = s.fresh := rfl
@[simp] theorem pageMod_regs (pg : Nat) (f : Page → Page) (s : State) : (pageMod pg f s).regs = s.regs := rfl
@[simp] theorem pageMod_live (pg : Nat) (f : Page → Page) (s : State) : (pageMod pg f s).live = s.live := rfl
@[simp] theorem pageMod_copies (pg : Nat) (f : Page → Page) (s : State) : (pageMod pg f s).copies = s.copies := rfl
@[simp] theorem pageMod_rows (pg : Nat) (f : Page → Page) (s : State) : (pageMod pg f s).rows = s.rows := rfl
@[simp] theorem pageMod_eng (pg : Nat) (f : Page → Page) (s : State) : (pageMod pg f s).eng = s.eng := rfl
@[simp] theorem pageMod_ord (pg : Nat) (f : Page → Page) (s : State) : (pageMod pg f s).ord = s.ord := rfl
@[simp] theorem pageMod_coh (pg : Nat) (f : Page → Page) (s : State) : (pageMod pg f s).coh = s.coh := rfl
@[simp] theorem pageMod_fab (pg : Nat) (f : Page → Page) (s : State) : (pageMod pg f s).fab = s.fab := rfl
@[simp] theorem pageMod_host (pg : Nat) (f : Page → Page) (s : State) : (pageMod pg f s).host = s.host := rfl
@[simp] theorem pageMod_mgmt (pg : Nat) (f : Page → Page) (s : State) : (pageMod pg f s).mgmt = s.mgmt := rfl
@[simp] theorem pageMod_rel (pg : Nat) (f : Page → Page) (s : State) : (pageMod pg f s).rel = s.rel := rfl
@[simp] theorem pageMod_boot (pg : Nat) (f : Page → Page) (s : State) : (pageMod pg f s).boot = s.boot := rfl
@[simp] theorem pageMod_out (pg : Nat) (f : Page → Page) (s : State) : (pageMod pg f s).out = s.out := rfl

/-! moveMod -/

@[simp] theorem moveMod_pending (pg : Nat) (f : Move → Move) (s : State) : (moveMod pg f s).pending = s.pending := rfl
@[simp] theorem moveMod_fresh (pg : Nat) (f : Move → Move) (s : State) : (moveMod pg f s).fresh = s.fresh := rfl
@[simp] theorem moveMod_regs (pg : Nat) (f : Move → Move) (s : State) : (moveMod pg f s).regs = s.regs := rfl
@[simp] theorem moveMod_live (pg : Nat) (f : Move → Move) (s : State) : (moveMod pg f s).live = s.live := rfl
@[simp] theorem moveMod_copies (pg : Nat) (f : Move → Move) (s : State) : (moveMod pg f s).copies = s.copies := rfl
@[simp] theorem moveMod_rows (pg : Nat) (f : Move → Move) (s : State) : (moveMod pg f s).rows = s.rows := rfl
@[simp] theorem moveMod_eng (pg : Nat) (f : Move → Move) (s : State) : (moveMod pg f s).eng = s.eng := rfl
@[simp] theorem moveMod_ord (pg : Nat) (f : Move → Move) (s : State) : (moveMod pg f s).ord = s.ord := rfl
@[simp] theorem moveMod_coh (pg : Nat) (f : Move → Move) (s : State) : (moveMod pg f s).coh = s.coh := rfl
@[simp] theorem moveMod_fab (pg : Nat) (f : Move → Move) (s : State) : (moveMod pg f s).fab = s.fab := rfl
@[simp] theorem moveMod_host (pg : Nat) (f : Move → Move) (s : State) : (moveMod pg f s).host = s.host := rfl
@[simp] theorem moveMod_mgmt (pg : Nat) (f : Move → Move) (s : State) : (moveMod pg f s).mgmt = s.mgmt := rfl
@[simp] theorem moveMod_rel (pg : Nat) (f : Move → Move) (s : State) : (moveMod pg f s).rel = s.rel := rfl
@[simp] theorem moveMod_boot (pg : Nat) (f : Move → Move) (s : State) : (moveMod pg f s).boot = s.boot := rfl
@[simp] theorem moveMod_out (pg : Nat) (f : Move → Move) (s : State) : (moveMod pg f s).out = s.out := rfl

/-! allocMod -/

@[simp] theorem allocMod_pending (num : Nat) (f : Alloc → Alloc) (s : State) : (allocMod num f s).pending = s.pending := rfl
@[simp] theorem allocMod_fresh (num : Nat) (f : Alloc → Alloc) (s : State) : (allocMod num f s).fresh = s.fresh := rfl
@[simp] theorem allocMod_regs (num : Nat) (f : Alloc → Alloc) (s : State) : (allocMod num f s).regs = s.regs := rfl
@[simp] theorem allocMod_live (num : Nat) (f : Alloc → Alloc) (s : State) : (allocMod num f s).live = s.live := rfl
@[simp] theorem allocMod_copies (num : Nat) (f : Alloc → Alloc) (s : State) : (allocMod num f s).copies = s.copies := rfl
@[simp] theorem allocMod_rows (num : Nat) (f : Alloc → Alloc) (s : State) : (allocMod num f s).rows = s.rows := rfl
@[simp] theorem allocMod_eng (num : Nat) (f : Alloc → Alloc) (s : State) : (allocMod num f s).eng = s.eng := rfl
@[simp] theorem allocMod_ord (num : Nat) (f : Alloc → Alloc) (s : State) : (allocMod num f s).ord = s.ord := rfl
@[simp] theorem allocMod_coh (num : Nat) (f : Alloc → Alloc) (s : State) : (allocMod num f s).coh = s.coh := rfl
@[simp] theorem allocMod_fab (num : Nat) (f : Alloc → Alloc) (s : State) : (allocMod num f s).fab = s.fab := rfl
@[simp] theorem allocMod_host (num : Nat) (f : Alloc → Alloc) (s : State) : (allocMod num f s).host = s.host := rfl
@[simp] theorem allocMod_mgmt (num : Nat) (f : Alloc → Alloc) (s : State) : (allocMod num f s).mgmt = s.mgmt := rfl
@[simp] theorem allocMod_rel (num : Nat) (f : Alloc → Alloc) (s : State) : (allocMod num f s).rel = s.rel := rfl
@[simp] theorem allocMod_boot (num : Nat) (f : Alloc → Alloc) (s : State) : (allocMod num f s).boot = s.boot := rfl
@[simp] theorem allocMod_out (num : Nat) (f : Alloc → Alloc) (s : State) : (allocMod num f s).out = s.out := rfl

/-! projMod -/

@[simp] theorem projMod_pending (num : Nat) (f : Proj → Proj) (s : State) : (projMod num f s).pending = s.pending := rfl
@[simp] theorem projMod_fresh (num : Nat) (f : Proj → Proj) (s : State) : (projMod num f s).fresh = s.fresh := rfl
@[simp] theorem projMod_regs (num : Nat) (f : Proj → Proj) (s : State) : (projMod num f s).regs = s.regs := rfl
@[simp] theorem projMod_live (num : Nat) (f : Proj → Proj) (s : State) : (projMod num f s).live = s.live := rfl
@[simp] theorem projMod_copies (num : Nat) (f : Proj → Proj) (s : State) : (projMod num f s).copies = s.copies := rfl
@[simp] theorem projMod_rows (num : Nat) (f : Proj → Proj) (s : State) : (projMod num f s).rows = s.rows := rfl
@[simp] theorem projMod_eng (num : Nat) (f : Proj → Proj) (s : State) : (projMod num f s).eng = s.eng := rfl
@[simp] theorem projMod_ord (num : Nat) (f : Proj → Proj) (s : State) : (projMod num f s).ord = s.ord := rfl
@[simp] theorem projMod_coh (num : Nat) (f : Proj → Proj) (s : State) : (projMod num f s).coh = s.coh := rfl
@[simp] theorem projMod_fab (num : Nat) (f : Proj → Proj) (s : State) : (projMod num f s).fab = s.fab := rfl
@[simp] theorem projMod_host (num : Nat) (f : Proj → Proj) (s : State) : (projMod num f s).host = s.host := rfl
@[simp] theorem projMod_mgmt (num : Nat) (f : Proj → Proj) (s : State) : (projMod num f s).mgmt = s.mgmt := rfl
@[simp] theorem projMod_rel (num : Nat) (f : Proj → Proj) (s : State) : (projMod num f s).rel = s.rel := rfl
@[simp] theorem projMod_boot (num : Nat) (f : Proj → Proj) (s : State) : (projMod num f s).boot = s.boot := rfl
@[simp] theorem projMod_out (num : Nat) (f : Proj → Proj) (s : State) : (projMod num f s).out = s.out := rfl

/-! extMod -/

@[simp] theorem extMod_pending (e : ExtId) (f : Extent → Extent) (s : State) : (extMod e f s).pending = s.pending := rfl
@[simp] theorem extMod_fresh (e : ExtId) (f : Extent → Extent) (s : State) : (extMod e f s).fresh = s.fresh := rfl
@[simp] theorem extMod_regs (e : ExtId) (f : Extent → Extent) (s : State) : (extMod e f s).regs = s.regs := rfl
@[simp] theorem extMod_live (e : ExtId) (f : Extent → Extent) (s : State) : (extMod e f s).live = s.live := rfl
@[simp] theorem extMod_copies (e : ExtId) (f : Extent → Extent) (s : State) : (extMod e f s).copies = s.copies := rfl
@[simp] theorem extMod_rows (e : ExtId) (f : Extent → Extent) (s : State) : (extMod e f s).rows = s.rows := rfl
@[simp] theorem extMod_eng (e : ExtId) (f : Extent → Extent) (s : State) : (extMod e f s).eng = s.eng := rfl
@[simp] theorem extMod_ord (e : ExtId) (f : Extent → Extent) (s : State) : (extMod e f s).ord = s.ord := rfl
@[simp] theorem extMod_coh (e : ExtId) (f : Extent → Extent) (s : State) : (extMod e f s).coh = s.coh := rfl
@[simp] theorem extMod_fab (e : ExtId) (f : Extent → Extent) (s : State) : (extMod e f s).fab = s.fab := rfl
@[simp] theorem extMod_host (e : ExtId) (f : Extent → Extent) (s : State) : (extMod e f s).host = s.host := rfl
@[simp] theorem extMod_mgmt (e : ExtId) (f : Extent → Extent) (s : State) : (extMod e f s).mgmt = s.mgmt := rfl
@[simp] theorem extMod_rel (e : ExtId) (f : Extent → Extent) (s : State) : (extMod e f s).rel = s.rel := rfl
@[simp] theorem extMod_boot (e : ExtId) (f : Extent → Extent) (s : State) : (extMod e f s).boot = s.boot := rfl
@[simp] theorem extMod_out (e : ExtId) (f : Extent → Extent) (s : State) : (extMod e f s).out = s.out := rfl

/-! rawWrite -/

@[simp] theorem rawWrite_pending (off : Nat) (bs : List Byte) (s : State) : (rawWrite off bs s).pending = s.pending := rfl
@[simp] theorem rawWrite_fresh (off : Nat) (bs : List Byte) (s : State) : (rawWrite off bs s).fresh = s.fresh := rfl
@[simp] theorem rawWrite_regs (off : Nat) (bs : List Byte) (s : State) : (rawWrite off bs s).regs = s.regs := rfl
@[simp] theorem rawWrite_live (off : Nat) (bs : List Byte) (s : State) : (rawWrite off bs s).live = s.live := rfl
@[simp] theorem rawWrite_copies (off : Nat) (bs : List Byte) (s : State) : (rawWrite off bs s).copies = s.copies := rfl
@[simp] theorem rawWrite_rows (off : Nat) (bs : List Byte) (s : State) : (rawWrite off bs s).rows = s.rows := rfl
@[simp] theorem rawWrite_eng (off : Nat) (bs : List Byte) (s : State) : (rawWrite off bs s).eng = s.eng := rfl
@[simp] theorem rawWrite_ord (off : Nat) (bs : List Byte) (s : State) : (rawWrite off bs s).ord = s.ord := rfl
@[simp] theorem rawWrite_coh (off : Nat) (bs : List Byte) (s : State) : (rawWrite off bs s).coh = s.coh := rfl
@[simp] theorem rawWrite_fab (off : Nat) (bs : List Byte) (s : State) : (rawWrite off bs s).fab = s.fab := rfl
@[simp] theorem rawWrite_host (off : Nat) (bs : List Byte) (s : State) : (rawWrite off bs s).host = s.host := rfl
@[simp] theorem rawWrite_mgmt (off : Nat) (bs : List Byte) (s : State) : (rawWrite off bs s).mgmt = s.mgmt := rfl
@[simp] theorem rawWrite_rel (off : Nat) (bs : List Byte) (s : State) : (rawWrite off bs s).rel = s.rel := rfl
@[simp] theorem rawWrite_boot (off : Nat) (bs : List Byte) (s : State) : (rawWrite off bs s).boot = s.boot := rfl
@[simp] theorem rawWrite_out (off : Nat) (bs : List Byte) (s : State) : (rawWrite off bs s).out = s.out := rfl

/-! rawCells -/

@[simp] theorem rawCells_pending (off : Nat) (cs : List (Option Byte)) (s : State) : (rawCells off cs s).pending = s.pending := rfl
@[simp] theorem rawCells_fresh (off : Nat) (cs : List (Option Byte)) (s : State) : (rawCells off cs s).fresh = s.fresh := rfl
@[simp] theorem rawCells_regs (off : Nat) (cs : List (Option Byte)) (s : State) : (rawCells off cs s).regs = s.regs := rfl
@[simp] theorem rawCells_live (off : Nat) (cs : List (Option Byte)) (s : State) : (rawCells off cs s).live = s.live := rfl
@[simp] theorem rawCells_copies (off : Nat) (cs : List (Option Byte)) (s : State) : (rawCells off cs s).copies = s.copies := rfl
@[simp] theorem rawCells_rows (off : Nat) (cs : List (Option Byte)) (s : State) : (rawCells off cs s).rows = s.rows := rfl
@[simp] theorem rawCells_eng (off : Nat) (cs : List (Option Byte)) (s : State) : (rawCells off cs s).eng = s.eng := rfl
@[simp] theorem rawCells_ord (off : Nat) (cs : List (Option Byte)) (s : State) : (rawCells off cs s).ord = s.ord := rfl
@[simp] theorem rawCells_coh (off : Nat) (cs : List (Option Byte)) (s : State) : (rawCells off cs s).coh = s.coh := rfl
@[simp] theorem rawCells_fab (off : Nat) (cs : List (Option Byte)) (s : State) : (rawCells off cs s).fab = s.fab := rfl
@[simp] theorem rawCells_host (off : Nat) (cs : List (Option Byte)) (s : State) : (rawCells off cs s).host = s.host := rfl
@[simp] theorem rawCells_mgmt (off : Nat) (cs : List (Option Byte)) (s : State) : (rawCells off cs s).mgmt = s.mgmt := rfl
@[simp] theorem rawCells_rel (off : Nat) (cs : List (Option Byte)) (s : State) : (rawCells off cs s).rel = s.rel := rfl
@[simp] theorem rawCells_boot (off : Nat) (cs : List (Option Byte)) (s : State) : (rawCells off cs s).boot = s.boot := rfl
@[simp] theorem rawCells_out (off : Nat) (cs : List (Option Byte)) (s : State) : (rawCells off cs s).out = s.out := rfl

/-! setMeta -/

@[simp] theorem setMeta_pending (b : Nat) (m : Byte) (s : State) : (setMeta b m s).pending = s.pending := rfl
@[simp] theorem setMeta_fresh (b : Nat) (m : Byte) (s : State) : (setMeta b m s).fresh = s.fresh := rfl
@[simp] theorem setMeta_regs (b : Nat) (m : Byte) (s : State) : (setMeta b m s).regs = s.regs := rfl
@[simp] theorem setMeta_live (b : Nat) (m : Byte) (s : State) : (setMeta b m s).live = s.live := rfl
@[simp] theorem setMeta_copies (b : Nat) (m : Byte) (s : State) : (setMeta b m s).copies = s.copies := rfl
@[simp] theorem setMeta_rows (b : Nat) (m : Byte) (s : State) : (setMeta b m s).rows = s.rows := rfl
@[simp] theorem setMeta_eng (b : Nat) (m : Byte) (s : State) : (setMeta b m s).eng = s.eng := rfl
@[simp] theorem setMeta_ord (b : Nat) (m : Byte) (s : State) : (setMeta b m s).ord = s.ord := rfl
@[simp] theorem setMeta_coh (b : Nat) (m : Byte) (s : State) : (setMeta b m s).coh = s.coh := rfl
@[simp] theorem setMeta_fab (b : Nat) (m : Byte) (s : State) : (setMeta b m s).fab = s.fab := rfl
@[simp] theorem setMeta_host (b : Nat) (m : Byte) (s : State) : (setMeta b m s).host = s.host := rfl
@[simp] theorem setMeta_mgmt (b : Nat) (m : Byte) (s : State) : (setMeta b m s).mgmt = s.mgmt := rfl
@[simp] theorem setMeta_rel (b : Nat) (m : Byte) (s : State) : (setMeta b m s).rel = s.rel := rfl
@[simp] theorem setMeta_boot (b : Nat) (m : Byte) (s : State) : (setMeta b m s).boot = s.boot := rfl
@[simp] theorem setMeta_out (b : Nat) (m : Byte) (s : State) : (setMeta b m s).out = s.out := rfl

/-! clearPoison -/

@[simp] theorem clearPoison_pending (off n : Nat) (s : State) : (clearPoison off n s).pending = s.pending := rfl
@[simp] theorem clearPoison_fresh (off n : Nat) (s : State) : (clearPoison off n s).fresh = s.fresh := rfl
@[simp] theorem clearPoison_regs (off n : Nat) (s : State) : (clearPoison off n s).regs = s.regs := rfl
@[simp] theorem clearPoison_live (off n : Nat) (s : State) : (clearPoison off n s).live = s.live := rfl
@[simp] theorem clearPoison_copies (off n : Nat) (s : State) : (clearPoison off n s).copies = s.copies := rfl
@[simp] theorem clearPoison_rows (off n : Nat) (s : State) : (clearPoison off n s).rows = s.rows := rfl
@[simp] theorem clearPoison_eng (off n : Nat) (s : State) : (clearPoison off n s).eng = s.eng := rfl
@[simp] theorem clearPoison_ord (off n : Nat) (s : State) : (clearPoison off n s).ord = s.ord := rfl
@[simp] theorem clearPoison_coh (off n : Nat) (s : State) : (clearPoison off n s).coh = s.coh := rfl
@[simp] theorem clearPoison_fab (off n : Nat) (s : State) : (clearPoison off n s).fab = s.fab := rfl
@[simp] theorem clearPoison_host (off n : Nat) (s : State) : (clearPoison off n s).host = s.host := rfl
@[simp] theorem clearPoison_mgmt (off n : Nat) (s : State) : (clearPoison off n s).mgmt = s.mgmt := rfl
@[simp] theorem clearPoison_rel (off n : Nat) (s : State) : (clearPoison off n s).rel = s.rel := rfl
@[simp] theorem clearPoison_boot (off n : Nat) (s : State) : (clearPoison off n s).boot = s.boot := rfl
@[simp] theorem clearPoison_out (off n : Nat) (s : State) : (clearPoison off n s).out = s.out := rfl

/-! oldRelease -/

@[simp] theorem oldRelease_pending (pg : Nat) (s : State) : (oldRelease pg s).pending = s.pending := rfl
@[simp] theorem oldRelease_fresh (pg : Nat) (s : State) : (oldRelease pg s).fresh = s.fresh := rfl
@[simp] theorem oldRelease_regs (pg : Nat) (s : State) : (oldRelease pg s).regs = s.regs := rfl
@[simp] theorem oldRelease_live (pg : Nat) (s : State) : (oldRelease pg s).live = s.live := rfl
@[simp] theorem oldRelease_copies (pg : Nat) (s : State) : (oldRelease pg s).copies = s.copies := rfl
@[simp] theorem oldRelease_rows (pg : Nat) (s : State) : (oldRelease pg s).rows = s.rows := rfl
@[simp] theorem oldRelease_eng (pg : Nat) (s : State) : (oldRelease pg s).eng = s.eng := rfl
@[simp] theorem oldRelease_ord (pg : Nat) (s : State) : (oldRelease pg s).ord = s.ord := rfl
@[simp] theorem oldRelease_coh (pg : Nat) (s : State) : (oldRelease pg s).coh = s.coh := rfl
@[simp] theorem oldRelease_fab (pg : Nat) (s : State) : (oldRelease pg s).fab = s.fab := rfl
@[simp] theorem oldRelease_host (pg : Nat) (s : State) : (oldRelease pg s).host = s.host := rfl
@[simp] theorem oldRelease_mgmt (pg : Nat) (s : State) : (oldRelease pg s).mgmt = s.mgmt := rfl
@[simp] theorem oldRelease_rel (pg : Nat) (s : State) : (oldRelease pg s).rel = s.rel := rfl
@[simp] theorem oldRelease_boot (pg : Nat) (s : State) : (oldRelease pg s).boot = s.boot := rfl
@[simp] theorem oldRelease_out (pg : Nat) (s : State) : (oldRelease pg s).out = s.out := rfl

/-! rowMoveMod -/

@[simp] theorem rowMoveMod_pending (k : Nat) (f : RowMove → RowMove) (s : State) : (rowMoveMod k f s).pending = s.pending := rfl
@[simp] theorem rowMoveMod_fresh (k : Nat) (f : RowMove → RowMove) (s : State) : (rowMoveMod k f s).fresh = s.fresh := rfl
@[simp] theorem rowMoveMod_regs (k : Nat) (f : RowMove → RowMove) (s : State) : (rowMoveMod k f s).regs = s.regs := rfl
@[simp] theorem rowMoveMod_live (k : Nat) (f : RowMove → RowMove) (s : State) : (rowMoveMod k f s).live = s.live := rfl
@[simp] theorem rowMoveMod_copies (k : Nat) (f : RowMove → RowMove) (s : State) : (rowMoveMod k f s).copies = s.copies := rfl
@[simp] theorem rowMoveMod_store (k : Nat) (f : RowMove → RowMove) (s : State) : (rowMoveMod k f s).store = s.store := rfl
@[simp] theorem rowMoveMod_eng (k : Nat) (f : RowMove → RowMove) (s : State) : (rowMoveMod k f s).eng = s.eng := rfl
@[simp] theorem rowMoveMod_ord (k : Nat) (f : RowMove → RowMove) (s : State) : (rowMoveMod k f s).ord = s.ord := rfl
@[simp] theorem rowMoveMod_coh (k : Nat) (f : RowMove → RowMove) (s : State) : (rowMoveMod k f s).coh = s.coh := rfl
@[simp] theorem rowMoveMod_fab (k : Nat) (f : RowMove → RowMove) (s : State) : (rowMoveMod k f s).fab = s.fab := rfl
@[simp] theorem rowMoveMod_host (k : Nat) (f : RowMove → RowMove) (s : State) : (rowMoveMod k f s).host = s.host := rfl
@[simp] theorem rowMoveMod_mgmt (k : Nat) (f : RowMove → RowMove) (s : State) : (rowMoveMod k f s).mgmt = s.mgmt := rfl
@[simp] theorem rowMoveMod_rel (k : Nat) (f : RowMove → RowMove) (s : State) : (rowMoveMod k f s).rel = s.rel := rfl
@[simp] theorem rowMoveMod_boot (k : Nat) (f : RowMove → RowMove) (s : State) : (rowMoveMod k f s).boot = s.boot := rfl
@[simp] theorem rowMoveMod_out (k : Nat) (f : RowMove → RowMove) (s : State) : (rowMoveMod k f s).out = s.out := rfl

/-! rowReleased -/

@[simp] theorem rowReleased_pending (k : Nat) (s : State) : (rowReleased k s).pending = s.pending := rfl
@[simp] theorem rowReleased_fresh (k : Nat) (s : State) : (rowReleased k s).fresh = s.fresh := rfl
@[simp] theorem rowReleased_regs (k : Nat) (s : State) : (rowReleased k s).regs = s.regs := rfl
@[simp] theorem rowReleased_live (k : Nat) (s : State) : (rowReleased k s).live = s.live := rfl
@[simp] theorem rowReleased_copies (k : Nat) (s : State) : (rowReleased k s).copies = s.copies := rfl
@[simp] theorem rowReleased_store (k : Nat) (s : State) : (rowReleased k s).store = s.store := rfl
@[simp] theorem rowReleased_eng (k : Nat) (s : State) : (rowReleased k s).eng = s.eng := rfl
@[simp] theorem rowReleased_ord (k : Nat) (s : State) : (rowReleased k s).ord = s.ord := rfl
@[simp] theorem rowReleased_coh (k : Nat) (s : State) : (rowReleased k s).coh = s.coh := rfl
@[simp] theorem rowReleased_fab (k : Nat) (s : State) : (rowReleased k s).fab = s.fab := rfl
@[simp] theorem rowReleased_host (k : Nat) (s : State) : (rowReleased k s).host = s.host := rfl
@[simp] theorem rowReleased_mgmt (k : Nat) (s : State) : (rowReleased k s).mgmt = s.mgmt := rfl
@[simp] theorem rowReleased_rel (k : Nat) (s : State) : (rowReleased k s).rel = s.rel := rfl
@[simp] theorem rowReleased_boot (k : Nat) (s : State) : (rowReleased k s).boot = s.boot := rfl
@[simp] theorem rowReleased_out (k : Nat) (s : State) : (rowReleased k s).out = s.out := rfl

/-! slotMod -/

@[simp] theorem slotMod_pending (n : Nat) (f : Slot → Slot) (s : State) : (slotMod n f s).pending = s.pending := rfl
@[simp] theorem slotMod_fresh (n : Nat) (f : Slot → Slot) (s : State) : (slotMod n f s).fresh = s.fresh := rfl
@[simp] theorem slotMod_regs (n : Nat) (f : Slot → Slot) (s : State) : (slotMod n f s).regs = s.regs := rfl
@[simp] theorem slotMod_live (n : Nat) (f : Slot → Slot) (s : State) : (slotMod n f s).live = s.live := rfl
@[simp] theorem slotMod_copies (n : Nat) (f : Slot → Slot) (s : State) : (slotMod n f s).copies = s.copies := rfl
@[simp] theorem slotMod_store (n : Nat) (f : Slot → Slot) (s : State) : (slotMod n f s).store = s.store := rfl
@[simp] theorem slotMod_rows (n : Nat) (f : Slot → Slot) (s : State) : (slotMod n f s).rows = s.rows := rfl
@[simp] theorem slotMod_eng (n : Nat) (f : Slot → Slot) (s : State) : (slotMod n f s).eng = s.eng := rfl
@[simp] theorem slotMod_ord (n : Nat) (f : Slot → Slot) (s : State) : (slotMod n f s).ord = s.ord := rfl
@[simp] theorem slotMod_fab (n : Nat) (f : Slot → Slot) (s : State) : (slotMod n f s).fab = s.fab := rfl
@[simp] theorem slotMod_host (n : Nat) (f : Slot → Slot) (s : State) : (slotMod n f s).host = s.host := rfl
@[simp] theorem slotMod_mgmt (n : Nat) (f : Slot → Slot) (s : State) : (slotMod n f s).mgmt = s.mgmt := rfl
@[simp] theorem slotMod_rel (n : Nat) (f : Slot → Slot) (s : State) : (slotMod n f s).rel = s.rel := rfl
@[simp] theorem slotMod_boot (n : Nat) (f : Slot → Slot) (s : State) : (slotMod n f s).boot = s.boot := rfl
@[simp] theorem slotMod_out (n : Nat) (f : Slot → Slot) (s : State) : (slotMod n f s).out = s.out := rfl

/-! waitOn -/

@[simp] theorem waitOn_pending (line : Nat) (r : CohReq) (s : State) : (waitOn line r s).pending = s.pending := rfl
@[simp] theorem waitOn_fresh (line : Nat) (r : CohReq) (s : State) : (waitOn line r s).fresh = s.fresh := rfl
@[simp] theorem waitOn_regs (line : Nat) (r : CohReq) (s : State) : (waitOn line r s).regs = s.regs := rfl
@[simp] theorem waitOn_live (line : Nat) (r : CohReq) (s : State) : (waitOn line r s).live = s.live := rfl
@[simp] theorem waitOn_copies (line : Nat) (r : CohReq) (s : State) : (waitOn line r s).copies = s.copies := rfl
@[simp] theorem waitOn_store (line : Nat) (r : CohReq) (s : State) : (waitOn line r s).store = s.store := rfl
@[simp] theorem waitOn_rows (line : Nat) (r : CohReq) (s : State) : (waitOn line r s).rows = s.rows := rfl
@[simp] theorem waitOn_eng (line : Nat) (r : CohReq) (s : State) : (waitOn line r s).eng = s.eng := rfl
@[simp] theorem waitOn_ord (line : Nat) (r : CohReq) (s : State) : (waitOn line r s).ord = s.ord := rfl
@[simp] theorem waitOn_fab (line : Nat) (r : CohReq) (s : State) : (waitOn line r s).fab = s.fab := rfl
@[simp] theorem waitOn_host (line : Nat) (r : CohReq) (s : State) : (waitOn line r s).host = s.host := rfl
@[simp] theorem waitOn_mgmt (line : Nat) (r : CohReq) (s : State) : (waitOn line r s).mgmt = s.mgmt := rfl
@[simp] theorem waitOn_rel (line : Nat) (r : CohReq) (s : State) : (waitOn line r s).rel = s.rel := rfl
@[simp] theorem waitOn_boot (line : Nat) (r : CohReq) (s : State) : (waitOn line r s).boot = s.boot := rfl
@[simp] theorem waitOn_out (line : Nat) (r : CohReq) (s : State) : (waitOn line r s).out = s.out := rfl

/-! addWalk -/

@[simp] theorem addWalk_pending (w : Walk) (s : State) : (addWalk w s).pending = s.pending := rfl
@[simp] theorem addWalk_fresh (w : Walk) (s : State) : (addWalk w s).fresh = s.fresh := rfl
@[simp] theorem addWalk_regs (w : Walk) (s : State) : (addWalk w s).regs = s.regs := rfl
@[simp] theorem addWalk_live (w : Walk) (s : State) : (addWalk w s).live = s.live := rfl
@[simp] theorem addWalk_copies (w : Walk) (s : State) : (addWalk w s).copies = s.copies := rfl
@[simp] theorem addWalk_store (w : Walk) (s : State) : (addWalk w s).store = s.store := rfl
@[simp] theorem addWalk_rows (w : Walk) (s : State) : (addWalk w s).rows = s.rows := rfl
@[simp] theorem addWalk_eng (w : Walk) (s : State) : (addWalk w s).eng = s.eng := rfl
@[simp] theorem addWalk_ord (w : Walk) (s : State) : (addWalk w s).ord = s.ord := rfl
@[simp] theorem addWalk_fab (w : Walk) (s : State) : (addWalk w s).fab = s.fab := rfl
@[simp] theorem addWalk_host (w : Walk) (s : State) : (addWalk w s).host = s.host := rfl
@[simp] theorem addWalk_mgmt (w : Walk) (s : State) : (addWalk w s).mgmt = s.mgmt := rfl
@[simp] theorem addWalk_rel (w : Walk) (s : State) : (addWalk w s).rel = s.rel := rfl
@[simp] theorem addWalk_boot (w : Walk) (s : State) : (addWalk w s).boot = s.boot := rfl
@[simp] theorem addWalk_out (w : Walk) (s : State) : (addWalk w s).out = s.out := rfl

/-! watchSet -/

@[simp] theorem watchSet_pending (t : Nat) (w : Watch) (s : State) : (watchSet t w s).pending = s.pending := rfl
@[simp] theorem watchSet_fresh (t : Nat) (w : Watch) (s : State) : (watchSet t w s).fresh = s.fresh := rfl
@[simp] theorem watchSet_regs (t : Nat) (w : Watch) (s : State) : (watchSet t w s).regs = s.regs := rfl
@[simp] theorem watchSet_live (t : Nat) (w : Watch) (s : State) : (watchSet t w s).live = s.live := rfl
@[simp] theorem watchSet_copies (t : Nat) (w : Watch) (s : State) : (watchSet t w s).copies = s.copies := rfl
@[simp] theorem watchSet_store (t : Nat) (w : Watch) (s : State) : (watchSet t w s).store = s.store := rfl
@[simp] theorem watchSet_rows (t : Nat) (w : Watch) (s : State) : (watchSet t w s).rows = s.rows := rfl
@[simp] theorem watchSet_eng (t : Nat) (w : Watch) (s : State) : (watchSet t w s).eng = s.eng := rfl
@[simp] theorem watchSet_coh (t : Nat) (w : Watch) (s : State) : (watchSet t w s).coh = s.coh := rfl
@[simp] theorem watchSet_fab (t : Nat) (w : Watch) (s : State) : (watchSet t w s).fab = s.fab := rfl
@[simp] theorem watchSet_host (t : Nat) (w : Watch) (s : State) : (watchSet t w s).host = s.host := rfl
@[simp] theorem watchSet_mgmt (t : Nat) (w : Watch) (s : State) : (watchSet t w s).mgmt = s.mgmt := rfl
@[simp] theorem watchSet_rel (t : Nat) (w : Watch) (s : State) : (watchSet t w s).rel = s.rel := rfl
@[simp] theorem watchSet_boot (t : Nat) (w : Watch) (s : State) : (watchSet t w s).boot = s.boot := rfl
@[simp] theorem watchSet_out (t : Nat) (w : Watch) (s : State) : (watchSet t w s).out = s.out := rfl

/-! clearSeq -/

@[simp] theorem clearSeq_pending (route : Nat) (s : State) : (clearSeq route s).pending = s.pending := rfl
@[simp] theorem clearSeq_fresh (route : Nat) (s : State) : (clearSeq route s).fresh = s.fresh := rfl
@[simp] theorem clearSeq_regs (route : Nat) (s : State) : (clearSeq route s).regs = s.regs := rfl
@[simp] theorem clearSeq_live (route : Nat) (s : State) : (clearSeq route s).live = s.live := rfl
@[simp] theorem clearSeq_copies (route : Nat) (s : State) : (clearSeq route s).copies = s.copies := rfl
@[simp] theorem clearSeq_store (route : Nat) (s : State) : (clearSeq route s).store = s.store := rfl
@[simp] theorem clearSeq_rows (route : Nat) (s : State) : (clearSeq route s).rows = s.rows := rfl
@[simp] theorem clearSeq_eng (route : Nat) (s : State) : (clearSeq route s).eng = s.eng := rfl
@[simp] theorem clearSeq_ord (route : Nat) (s : State) : (clearSeq route s).ord = s.ord := rfl
@[simp] theorem clearSeq_coh (route : Nat) (s : State) : (clearSeq route s).coh = s.coh := rfl
@[simp] theorem clearSeq_fab (route : Nat) (s : State) : (clearSeq route s).fab = s.fab := rfl
@[simp] theorem clearSeq_host (route : Nat) (s : State) : (clearSeq route s).host = s.host := rfl
@[simp] theorem clearSeq_rel (route : Nat) (s : State) : (clearSeq route s).rel = s.rel := rfl
@[simp] theorem clearSeq_boot (route : Nat) (s : State) : (clearSeq route s).boot = s.boot := rfl
@[simp] theorem clearSeq_out (route : Nat) (s : State) : (clearSeq route s).out = s.out := rfl

/-! runSet -/

@[simp] theorem runSet_pending (part : Nat) (r : PartRun) (s : State) : (runSet part r s).pending = s.pending := rfl
@[simp] theorem runSet_fresh (part : Nat) (r : PartRun) (s : State) : (runSet part r s).fresh = s.fresh := rfl
@[simp] theorem runSet_regs (part : Nat) (r : PartRun) (s : State) : (runSet part r s).regs = s.regs := rfl
@[simp] theorem runSet_live (part : Nat) (r : PartRun) (s : State) : (runSet part r s).live = s.live := rfl
@[simp] theorem runSet_copies (part : Nat) (r : PartRun) (s : State) : (runSet part r s).copies = s.copies := rfl
@[simp] theorem runSet_store (part : Nat) (r : PartRun) (s : State) : (runSet part r s).store = s.store := rfl
@[simp] theorem runSet_rows (part : Nat) (r : PartRun) (s : State) : (runSet part r s).rows = s.rows := rfl
@[simp] theorem runSet_eng (part : Nat) (r : PartRun) (s : State) : (runSet part r s).eng = s.eng := rfl
@[simp] theorem runSet_ord (part : Nat) (r : PartRun) (s : State) : (runSet part r s).ord = s.ord := rfl
@[simp] theorem runSet_coh (part : Nat) (r : PartRun) (s : State) : (runSet part r s).coh = s.coh := rfl
@[simp] theorem runSet_fab (part : Nat) (r : PartRun) (s : State) : (runSet part r s).fab = s.fab := rfl
@[simp] theorem runSet_host (part : Nat) (r : PartRun) (s : State) : (runSet part r s).host = s.host := rfl
@[simp] theorem runSet_rel (part : Nat) (r : PartRun) (s : State) : (runSet part r s).rel = s.rel := rfl
@[simp] theorem runSet_boot (part : Nat) (r : PartRun) (s : State) : (runSet part r s).boot = s.boot := rfl
@[simp] theorem runSet_out (part : Nat) (r : PartRun) (s : State) : (runSet part r s).out = s.out := rfl

/-! dieMod -/

@[simp] theorem dieMod_pending (k : Nat) (f : Die → Die) (s : State) : (dieMod k f s).pending = s.pending := rfl
@[simp] theorem dieMod_fresh (k : Nat) (f : Die → Die) (s : State) : (dieMod k f s).fresh = s.fresh := rfl
@[simp] theorem dieMod_regs (k : Nat) (f : Die → Die) (s : State) : (dieMod k f s).regs = s.regs := rfl
@[simp] theorem dieMod_live (k : Nat) (f : Die → Die) (s : State) : (dieMod k f s).live = s.live := rfl
@[simp] theorem dieMod_copies (k : Nat) (f : Die → Die) (s : State) : (dieMod k f s).copies = s.copies := rfl
@[simp] theorem dieMod_store (k : Nat) (f : Die → Die) (s : State) : (dieMod k f s).store = s.store := rfl
@[simp] theorem dieMod_rows (k : Nat) (f : Die → Die) (s : State) : (dieMod k f s).rows = s.rows := rfl
@[simp] theorem dieMod_eng (k : Nat) (f : Die → Die) (s : State) : (dieMod k f s).eng = s.eng := rfl
@[simp] theorem dieMod_ord (k : Nat) (f : Die → Die) (s : State) : (dieMod k f s).ord = s.ord := rfl
@[simp] theorem dieMod_coh (k : Nat) (f : Die → Die) (s : State) : (dieMod k f s).coh = s.coh := rfl
@[simp] theorem dieMod_fab (k : Nat) (f : Die → Die) (s : State) : (dieMod k f s).fab = s.fab := rfl
@[simp] theorem dieMod_host (k : Nat) (f : Die → Die) (s : State) : (dieMod k f s).host = s.host := rfl
@[simp] theorem dieMod_mgmt (k : Nat) (f : Die → Die) (s : State) : (dieMod k f s).mgmt = s.mgmt := rfl
@[simp] theorem dieMod_boot (k : Nat) (f : Die → Die) (s : State) : (dieMod k f s).boot = s.boot := rfl
@[simp] theorem dieMod_out (k : Nat) (f : Die → Die) (s : State) : (dieMod k f s).out = s.out := rfl

/-! snapMod -/

@[simp] theorem snapMod_pending (f : Snap → Snap) (s : State) : (snapMod f s).pending = s.pending := rfl
@[simp] theorem snapMod_fresh (f : Snap → Snap) (s : State) : (snapMod f s).fresh = s.fresh := rfl
@[simp] theorem snapMod_regs (f : Snap → Snap) (s : State) : (snapMod f s).regs = s.regs := rfl
@[simp] theorem snapMod_live (f : Snap → Snap) (s : State) : (snapMod f s).live = s.live := rfl
@[simp] theorem snapMod_copies (f : Snap → Snap) (s : State) : (snapMod f s).copies = s.copies := rfl
@[simp] theorem snapMod_store (f : Snap → Snap) (s : State) : (snapMod f s).store = s.store := rfl
@[simp] theorem snapMod_rows (f : Snap → Snap) (s : State) : (snapMod f s).rows = s.rows := rfl
@[simp] theorem snapMod_eng (f : Snap → Snap) (s : State) : (snapMod f s).eng = s.eng := rfl
@[simp] theorem snapMod_ord (f : Snap → Snap) (s : State) : (snapMod f s).ord = s.ord := rfl
@[simp] theorem snapMod_coh (f : Snap → Snap) (s : State) : (snapMod f s).coh = s.coh := rfl
@[simp] theorem snapMod_fab (f : Snap → Snap) (s : State) : (snapMod f s).fab = s.fab := rfl
@[simp] theorem snapMod_host (f : Snap → Snap) (s : State) : (snapMod f s).host = s.host := rfl
@[simp] theorem snapMod_mgmt (f : Snap → Snap) (s : State) : (snapMod f s).mgmt = s.mgmt := rfl
@[simp] theorem snapMod_boot (f : Snap → Snap) (s : State) : (snapMod f s).boot = s.boot := rfl
@[simp] theorem snapMod_out (f : Snap → Snap) (s : State) : (snapMod f s).out = s.out := rfl

/-! relSet -/

@[simp] theorem relSet_pending (f : Rel → Rel) (s : State) : (relSet f s).pending = s.pending := rfl
@[simp] theorem relSet_fresh (f : Rel → Rel) (s : State) : (relSet f s).fresh = s.fresh := rfl
@[simp] theorem relSet_regs (f : Rel → Rel) (s : State) : (relSet f s).regs = s.regs := rfl
@[simp] theorem relSet_live (f : Rel → Rel) (s : State) : (relSet f s).live = s.live := rfl
@[simp] theorem relSet_copies (f : Rel → Rel) (s : State) : (relSet f s).copies = s.copies := rfl
@[simp] theorem relSet_store (f : Rel → Rel) (s : State) : (relSet f s).store = s.store := rfl
@[simp] theorem relSet_rows (f : Rel → Rel) (s : State) : (relSet f s).rows = s.rows := rfl
@[simp] theorem relSet_eng (f : Rel → Rel) (s : State) : (relSet f s).eng = s.eng := rfl
@[simp] theorem relSet_ord (f : Rel → Rel) (s : State) : (relSet f s).ord = s.ord := rfl
@[simp] theorem relSet_coh (f : Rel → Rel) (s : State) : (relSet f s).coh = s.coh := rfl
@[simp] theorem relSet_fab (f : Rel → Rel) (s : State) : (relSet f s).fab = s.fab := rfl
@[simp] theorem relSet_host (f : Rel → Rel) (s : State) : (relSet f s).host = s.host := rfl
@[simp] theorem relSet_mgmt (f : Rel → Rel) (s : State) : (relSet f s).mgmt = s.mgmt := rfl
@[simp] theorem relSet_boot (f : Rel → Rel) (s : State) : (relSet f s).boot = s.boot := rfl
@[simp] theorem relSet_out (f : Rel → Rel) (s : State) : (relSet f s).out = s.out := rfl

/-! bootSet -/

@[simp] theorem bootSet_pending (f : Boot → Boot) (s : State) : (bootSet f s).pending = s.pending := rfl
@[simp] theorem bootSet_fresh (f : Boot → Boot) (s : State) : (bootSet f s).fresh = s.fresh := rfl
@[simp] theorem bootSet_regs (f : Boot → Boot) (s : State) : (bootSet f s).regs = s.regs := rfl
@[simp] theorem bootSet_live (f : Boot → Boot) (s : State) : (bootSet f s).live = s.live := rfl
@[simp] theorem bootSet_copies (f : Boot → Boot) (s : State) : (bootSet f s).copies = s.copies := rfl
@[simp] theorem bootSet_store (f : Boot → Boot) (s : State) : (bootSet f s).store = s.store := rfl
@[simp] theorem bootSet_rows (f : Boot → Boot) (s : State) : (bootSet f s).rows = s.rows := rfl
@[simp] theorem bootSet_eng (f : Boot → Boot) (s : State) : (bootSet f s).eng = s.eng := rfl
@[simp] theorem bootSet_ord (f : Boot → Boot) (s : State) : (bootSet f s).ord = s.ord := rfl
@[simp] theorem bootSet_coh (f : Boot → Boot) (s : State) : (bootSet f s).coh = s.coh := rfl
@[simp] theorem bootSet_fab (f : Boot → Boot) (s : State) : (bootSet f s).fab = s.fab := rfl
@[simp] theorem bootSet_host (f : Boot → Boot) (s : State) : (bootSet f s).host = s.host := rfl
@[simp] theorem bootSet_mgmt (f : Boot → Boot) (s : State) : (bootSet f s).mgmt = s.mgmt := rfl
@[simp] theorem bootSet_rel (f : Boot → Boot) (s : State) : (bootSet f s).rel = s.rel := rfl
@[simp] theorem bootSet_out (f : Boot → Boot) (s : State) : (bootSet f s).out = s.out := rfl

/-! ownedSet -/

@[simp] theorem ownedSet_pending (hp home off : Nat) (own : Bool) (s : State) : (ownedSet hp home off own s).pending = s.pending := rfl
@[simp] theorem ownedSet_fresh (hp home off : Nat) (own : Bool) (s : State) : (ownedSet hp home off own s).fresh = s.fresh := rfl
@[simp] theorem ownedSet_regs (hp home off : Nat) (own : Bool) (s : State) : (ownedSet hp home off own s).regs = s.regs := rfl
@[simp] theorem ownedSet_live (hp home off : Nat) (own : Bool) (s : State) : (ownedSet hp home off own s).live = s.live := rfl
@[simp] theorem ownedSet_copies (hp home off : Nat) (own : Bool) (s : State) : (ownedSet hp home off own s).copies = s.copies := rfl
@[simp] theorem ownedSet_store (hp home off : Nat) (own : Bool) (s : State) : (ownedSet hp home off own s).store = s.store := rfl
@[simp] theorem ownedSet_rows (hp home off : Nat) (own : Bool) (s : State) : (ownedSet hp home off own s).rows = s.rows := rfl
@[simp] theorem ownedSet_eng (hp home off : Nat) (own : Bool) (s : State) : (ownedSet hp home off own s).eng = s.eng := rfl
@[simp] theorem ownedSet_ord (hp home off : Nat) (own : Bool) (s : State) : (ownedSet hp home off own s).ord = s.ord := rfl
@[simp] theorem ownedSet_coh (hp home off : Nat) (own : Bool) (s : State) : (ownedSet hp home off own s).coh = s.coh := rfl
@[simp] theorem ownedSet_fab (hp home off : Nat) (own : Bool) (s : State) : (ownedSet hp home off own s).fab = s.fab := rfl
@[simp] theorem ownedSet_mgmt (hp home off : Nat) (own : Bool) (s : State) : (ownedSet hp home off own s).mgmt = s.mgmt := rfl
@[simp] theorem ownedSet_rel (hp home off : Nat) (own : Bool) (s : State) : (ownedSet hp home off own s).rel = s.rel := rfl
@[simp] theorem ownedSet_boot (hp home off : Nat) (own : Bool) (s : State) : (ownedSet hp home off own s).boot = s.boot := rfl
@[simp] theorem ownedSet_out (hp home off : Nat) (own : Bool) (s : State) : (ownedSet hp home off own s).out = s.out := rfl

/-! regionGive -/

@[simp] theorem regionGive_pending (num kind ep : Nat) (s : State) : (regionGive num kind ep s).pending = s.pending := rfl
@[simp] theorem regionGive_fresh (num kind ep : Nat) (s : State) : (regionGive num kind ep s).fresh = s.fresh := rfl
@[simp] theorem regionGive_regs (num kind ep : Nat) (s : State) : (regionGive num kind ep s).regs = s.regs := rfl
@[simp] theorem regionGive_live (num kind ep : Nat) (s : State) : (regionGive num kind ep s).live = s.live := rfl
@[simp] theorem regionGive_copies (num kind ep : Nat) (s : State) : (regionGive num kind ep s).copies = s.copies := rfl
@[simp] theorem regionGive_store (num kind ep : Nat) (s : State) : (regionGive num kind ep s).store = s.store := rfl
@[simp] theorem regionGive_rows (num kind ep : Nat) (s : State) : (regionGive num kind ep s).rows = s.rows := rfl
@[simp] theorem regionGive_eng (num kind ep : Nat) (s : State) : (regionGive num kind ep s).eng = s.eng := rfl
@[simp] theorem regionGive_ord (num kind ep : Nat) (s : State) : (regionGive num kind ep s).ord = s.ord := rfl
@[simp] theorem regionGive_fab (num kind ep : Nat) (s : State) : (regionGive num kind ep s).fab = s.fab := rfl
@[simp] theorem regionGive_host (num kind ep : Nat) (s : State) : (regionGive num kind ep s).host = s.host := rfl
@[simp] theorem regionGive_mgmt (num kind ep : Nat) (s : State) : (regionGive num kind ep s).mgmt = s.mgmt := rfl
@[simp] theorem regionGive_rel (num kind ep : Nat) (s : State) : (regionGive num kind ep s).rel = s.rel := rfl
@[simp] theorem regionGive_boot (num kind ep : Nat) (s : State) : (regionGive num kind ep s).boot = s.boot := rfl
@[simp] theorem regionGive_out (num kind ep : Nat) (s : State) : (regionGive num kind ep s).out = s.out := rfl

/-! arbSet -/

@[simp] theorem arbSet_pending (k : Nat) (a : Arb) (s : State) : (arbSet k a s).pending = s.pending := rfl
@[simp] theorem arbSet_fresh (k : Nat) (a : Arb) (s : State) : (arbSet k a s).fresh = s.fresh := rfl
@[simp] theorem arbSet_regs (k : Nat) (a : Arb) (s : State) : (arbSet k a s).regs = s.regs := rfl
@[simp] theorem arbSet_live (k : Nat) (a : Arb) (s : State) : (arbSet k a s).live = s.live := rfl
@[simp] theorem arbSet_copies (k : Nat) (a : Arb) (s : State) : (arbSet k a s).copies = s.copies := rfl
@[simp] theorem arbSet_store (k : Nat) (a : Arb) (s : State) : (arbSet k a s).store = s.store := rfl
@[simp] theorem arbSet_rows (k : Nat) (a : Arb) (s : State) : (arbSet k a s).rows = s.rows := rfl
@[simp] theorem arbSet_eng (k : Nat) (a : Arb) (s : State) : (arbSet k a s).eng = s.eng := rfl
@[simp] theorem arbSet_ord (k : Nat) (a : Arb) (s : State) : (arbSet k a s).ord = s.ord := rfl
@[simp] theorem arbSet_coh (k : Nat) (a : Arb) (s : State) : (arbSet k a s).coh = s.coh := rfl
@[simp] theorem arbSet_fab (k : Nat) (a : Arb) (s : State) : (arbSet k a s).fab = s.fab := rfl
@[simp] theorem arbSet_host (k : Nat) (a : Arb) (s : State) : (arbSet k a s).host = s.host := rfl
@[simp] theorem arbSet_rel (k : Nat) (a : Arb) (s : State) : (arbSet k a s).rel = s.rel := rfl
@[simp] theorem arbSet_boot (k : Nat) (a : Arb) (s : State) : (arbSet k a s).boot = s.boot := rfl
@[simp] theorem arbSet_out (k : Nat) (a : Arb) (s : State) : (arbSet k a s).out = s.out := rfl

/-! dropCredit -/

@[simp] theorem dropCredit_pending (p : Nat) (s : State) : (dropCredit p s).pending = s.pending := rfl
@[simp] theorem dropCredit_fresh (p : Nat) (s : State) : (dropCredit p s).fresh = s.fresh := rfl
@[simp] theorem dropCredit_regs (p : Nat) (s : State) : (dropCredit p s).regs = s.regs := rfl
@[simp] theorem dropCredit_live (p : Nat) (s : State) : (dropCredit p s).live = s.live := rfl
@[simp] theorem dropCredit_copies (p : Nat) (s : State) : (dropCredit p s).copies = s.copies := rfl
@[simp] theorem dropCredit_store (p : Nat) (s : State) : (dropCredit p s).store = s.store := rfl
@[simp] theorem dropCredit_rows (p : Nat) (s : State) : (dropCredit p s).rows = s.rows := rfl
@[simp] theorem dropCredit_eng (p : Nat) (s : State) : (dropCredit p s).eng = s.eng := rfl
@[simp] theorem dropCredit_ord (p : Nat) (s : State) : (dropCredit p s).ord = s.ord := rfl
@[simp] theorem dropCredit_coh (p : Nat) (s : State) : (dropCredit p s).coh = s.coh := rfl
@[simp] theorem dropCredit_fab (p : Nat) (s : State) : (dropCredit p s).fab = s.fab := rfl
@[simp] theorem dropCredit_host (p : Nat) (s : State) : (dropCredit p s).host = s.host := rfl
@[simp] theorem dropCredit_rel (p : Nat) (s : State) : (dropCredit p s).rel = s.rel := rfl
@[simp] theorem dropCredit_boot (p : Nat) (s : State) : (dropCredit p s).boot = s.boot := rfl
@[simp] theorem dropCredit_out (p : Nat) (s : State) : (dropCredit p s).out = s.out := rfl

/-! cacheOut -/

@[simp] theorem cacheOut_pending (line : Nat) (s : State) : (cacheOut line s).pending = s.pending := rfl
@[simp] theorem cacheOut_fresh (line : Nat) (s : State) : (cacheOut line s).fresh = s.fresh := rfl
@[simp] theorem cacheOut_regs (line : Nat) (s : State) : (cacheOut line s).regs = s.regs := rfl
@[simp] theorem cacheOut_live (line : Nat) (s : State) : (cacheOut line s).live = s.live := rfl
@[simp] theorem cacheOut_copies (line : Nat) (s : State) : (cacheOut line s).copies = s.copies := rfl
@[simp] theorem cacheOut_store (line : Nat) (s : State) : (cacheOut line s).store = s.store := rfl
@[simp] theorem cacheOut_rows (line : Nat) (s : State) : (cacheOut line s).rows = s.rows := rfl
@[simp] theorem cacheOut_eng (line : Nat) (s : State) : (cacheOut line s).eng = s.eng := rfl
@[simp] theorem cacheOut_ord (line : Nat) (s : State) : (cacheOut line s).ord = s.ord := rfl
@[simp] theorem cacheOut_fab (line : Nat) (s : State) : (cacheOut line s).fab = s.fab := rfl
@[simp] theorem cacheOut_host (line : Nat) (s : State) : (cacheOut line s).host = s.host := rfl
@[simp] theorem cacheOut_mgmt (line : Nat) (s : State) : (cacheOut line s).mgmt = s.mgmt := rfl
@[simp] theorem cacheOut_rel (line : Nat) (s : State) : (cacheOut line s).rel = s.rel := rfl
@[simp] theorem cacheOut_boot (line : Nat) (s : State) : (cacheOut line s).boot = s.boot := rfl
@[simp] theorem cacheOut_out (line : Nat) (s : State) : (cacheOut line s).out = s.out := rfl

/-! txnMod -/

@[simp] theorem txnMod_pending (line : Nat) (f : Txn → Txn) (s : State) : (txnMod line f s).pending = s.pending := rfl
@[simp] theorem txnMod_fresh (line : Nat) (f : Txn → Txn) (s : State) : (txnMod line f s).fresh = s.fresh := rfl
@[simp] theorem txnMod_regs (line : Nat) (f : Txn → Txn) (s : State) : (txnMod line f s).regs = s.regs := rfl
@[simp] theorem txnMod_live (line : Nat) (f : Txn → Txn) (s : State) : (txnMod line f s).live = s.live := rfl
@[simp] theorem txnMod_copies (line : Nat) (f : Txn → Txn) (s : State) : (txnMod line f s).copies = s.copies := rfl
@[simp] theorem txnMod_store (line : Nat) (f : Txn → Txn) (s : State) : (txnMod line f s).store = s.store := rfl
@[simp] theorem txnMod_rows (line : Nat) (f : Txn → Txn) (s : State) : (txnMod line f s).rows = s.rows := rfl
@[simp] theorem txnMod_eng (line : Nat) (f : Txn → Txn) (s : State) : (txnMod line f s).eng = s.eng := rfl
@[simp] theorem txnMod_ord (line : Nat) (f : Txn → Txn) (s : State) : (txnMod line f s).ord = s.ord := rfl
@[simp] theorem txnMod_fab (line : Nat) (f : Txn → Txn) (s : State) : (txnMod line f s).fab = s.fab := rfl
@[simp] theorem txnMod_host (line : Nat) (f : Txn → Txn) (s : State) : (txnMod line f s).host = s.host := rfl
@[simp] theorem txnMod_mgmt (line : Nat) (f : Txn → Txn) (s : State) : (txnMod line f s).mgmt = s.mgmt := rfl
@[simp] theorem txnMod_rel (line : Nat) (f : Txn → Txn) (s : State) : (txnMod line f s).rel = s.rel := rfl
@[simp] theorem txnMod_boot (line : Nat) (f : Txn → Txn) (s : State) : (txnMod line f s).boot = s.boot := rfl
@[simp] theorem txnMod_out (line : Nat) (f : Txn → Txn) (s : State) : (txnMod line f s).out = s.out := rfl

/-! openTxn -/

@[simp] theorem openTxn_pending (t : Txn) (s : State) : (openTxn t s).pending = s.pending := rfl
@[simp] theorem openTxn_fresh (t : Txn) (s : State) : (openTxn t s).fresh = s.fresh := rfl
@[simp] theorem openTxn_regs (t : Txn) (s : State) : (openTxn t s).regs = s.regs := rfl
@[simp] theorem openTxn_live (t : Txn) (s : State) : (openTxn t s).live = s.live := rfl
@[simp] theorem openTxn_copies (t : Txn) (s : State) : (openTxn t s).copies = s.copies := rfl
@[simp] theorem openTxn_store (t : Txn) (s : State) : (openTxn t s).store = s.store := rfl
@[simp] theorem openTxn_rows (t : Txn) (s : State) : (openTxn t s).rows = s.rows := rfl
@[simp] theorem openTxn_eng (t : Txn) (s : State) : (openTxn t s).eng = s.eng := rfl
@[simp] theorem openTxn_ord (t : Txn) (s : State) : (openTxn t s).ord = s.ord := rfl
@[simp] theorem openTxn_fab (t : Txn) (s : State) : (openTxn t s).fab = s.fab := rfl
@[simp] theorem openTxn_host (t : Txn) (s : State) : (openTxn t s).host = s.host := rfl
@[simp] theorem openTxn_mgmt (t : Txn) (s : State) : (openTxn t s).mgmt = s.mgmt := rfl
@[simp] theorem openTxn_rel (t : Txn) (s : State) : (openTxn t s).rel = s.rel := rfl
@[simp] theorem openTxn_boot (t : Txn) (s : State) : (openTxn t s).boot = s.boot := rfl
@[simp] theorem openTxn_out (t : Txn) (s : State) : (openTxn t s).out = s.out := rfl

/-! closeTxn -/

@[simp] theorem closeTxn_pending (line : Nat) (s : State) : (closeTxn line s).pending = s.pending := rfl
@[simp] theorem closeTxn_fresh (line : Nat) (s : State) : (closeTxn line s).fresh = s.fresh := rfl
@[simp] theorem closeTxn_regs (line : Nat) (s : State) : (closeTxn line s).regs = s.regs := rfl
@[simp] theorem closeTxn_live (line : Nat) (s : State) : (closeTxn line s).live = s.live := rfl
@[simp] theorem closeTxn_copies (line : Nat) (s : State) : (closeTxn line s).copies = s.copies := rfl
@[simp] theorem closeTxn_store (line : Nat) (s : State) : (closeTxn line s).store = s.store := rfl
@[simp] theorem closeTxn_rows (line : Nat) (s : State) : (closeTxn line s).rows = s.rows := rfl
@[simp] theorem closeTxn_eng (line : Nat) (s : State) : (closeTxn line s).eng = s.eng := rfl
@[simp] theorem closeTxn_ord (line : Nat) (s : State) : (closeTxn line s).ord = s.ord := rfl
@[simp] theorem closeTxn_fab (line : Nat) (s : State) : (closeTxn line s).fab = s.fab := rfl
@[simp] theorem closeTxn_host (line : Nat) (s : State) : (closeTxn line s).host = s.host := rfl
@[simp] theorem closeTxn_mgmt (line : Nat) (s : State) : (closeTxn line s).mgmt = s.mgmt := rfl
@[simp] theorem closeTxn_rel (line : Nat) (s : State) : (closeTxn line s).rel = s.rel := rfl
@[simp] theorem closeTxn_boot (line : Nat) (s : State) : (closeTxn line s).boot = s.boot := rfl
@[simp] theorem closeTxn_out (line : Nat) (s : State) : (closeTxn line s).out = s.out := rfl

/-! waitRoom -/

@[simp] theorem waitRoom_pending (r : CohReq) (s : State) : (waitRoom r s).pending = s.pending := rfl
@[simp] theorem waitRoom_fresh (r : CohReq) (s : State) : (waitRoom r s).fresh = s.fresh := rfl
@[simp] theorem waitRoom_regs (r : CohReq) (s : State) : (waitRoom r s).regs = s.regs := rfl
@[simp] theorem waitRoom_live (r : CohReq) (s : State) : (waitRoom r s).live = s.live := rfl
@[simp] theorem waitRoom_copies (r : CohReq) (s : State) : (waitRoom r s).copies = s.copies := rfl
@[simp] theorem waitRoom_store (r : CohReq) (s : State) : (waitRoom r s).store = s.store := rfl
@[simp] theorem waitRoom_rows (r : CohReq) (s : State) : (waitRoom r s).rows = s.rows := rfl
@[simp] theorem waitRoom_eng (r : CohReq) (s : State) : (waitRoom r s).eng = s.eng := rfl
@[simp] theorem waitRoom_ord (r : CohReq) (s : State) : (waitRoom r s).ord = s.ord := rfl
@[simp] theorem waitRoom_fab (r : CohReq) (s : State) : (waitRoom r s).fab = s.fab := rfl
@[simp] theorem waitRoom_host (r : CohReq) (s : State) : (waitRoom r s).host = s.host := rfl
@[simp] theorem waitRoom_mgmt (r : CohReq) (s : State) : (waitRoom r s).mgmt = s.mgmt := rfl
@[simp] theorem waitRoom_rel (r : CohReq) (s : State) : (waitRoom r s).rel = s.rel := rfl
@[simp] theorem waitRoom_boot (r : CohReq) (s : State) : (waitRoom r s).boot = s.boot := rfl
@[simp] theorem waitRoom_out (r : CohReq) (s : State) : (waitRoom r s).out = s.out := rfl

/-! gracePage -/

@[simp] theorem gracePage_pending (pg : Nat) (s : State) : (gracePage pg s).pending = s.pending := rfl
@[simp] theorem gracePage_fresh (pg : Nat) (s : State) : (gracePage pg s).fresh = s.fresh := rfl
@[simp] theorem gracePage_regs (pg : Nat) (s : State) : (gracePage pg s).regs = s.regs := rfl
@[simp] theorem gracePage_live (pg : Nat) (s : State) : (gracePage pg s).live = s.live := rfl
@[simp] theorem gracePage_copies (pg : Nat) (s : State) : (gracePage pg s).copies = s.copies := rfl
@[simp] theorem gracePage_store (pg : Nat) (s : State) : (gracePage pg s).store = s.store := rfl
@[simp] theorem gracePage_rows (pg : Nat) (s : State) : (gracePage pg s).rows = s.rows := rfl
@[simp] theorem gracePage_eng (pg : Nat) (s : State) : (gracePage pg s).eng = s.eng := rfl
@[simp] theorem gracePage_ord (pg : Nat) (s : State) : (gracePage pg s).ord = s.ord := rfl
@[simp] theorem gracePage_fab (pg : Nat) (s : State) : (gracePage pg s).fab = s.fab := rfl
@[simp] theorem gracePage_host (pg : Nat) (s : State) : (gracePage pg s).host = s.host := rfl
@[simp] theorem gracePage_mgmt (pg : Nat) (s : State) : (gracePage pg s).mgmt = s.mgmt := rfl
@[simp] theorem gracePage_rel (pg : Nat) (s : State) : (gracePage pg s).rel = s.rel := rfl
@[simp] theorem gracePage_boot (pg : Nat) (s : State) : (gracePage pg s).boot = s.boot := rfl
@[simp] theorem gracePage_out (pg : Nat) (s : State) : (gracePage pg s).out = s.out := rfl

/-! extDel -/

@[simp] theorem extDel_pending (e : ExtId) (s : State) : (extDel e s).pending = s.pending := rfl
@[simp] theorem extDel_fresh (e : ExtId) (s : State) : (extDel e s).fresh = s.fresh := rfl
@[simp] theorem extDel_regs (e : ExtId) (s : State) : (extDel e s).regs = s.regs := rfl
@[simp] theorem extDel_live (e : ExtId) (s : State) : (extDel e s).live = s.live := rfl
@[simp] theorem extDel_copies (e : ExtId) (s : State) : (extDel e s).copies = s.copies := rfl
@[simp] theorem extDel_rows (e : ExtId) (s : State) : (extDel e s).rows = s.rows := rfl
@[simp] theorem extDel_eng (e : ExtId) (s : State) : (extDel e s).eng = s.eng := rfl
@[simp] theorem extDel_ord (e : ExtId) (s : State) : (extDel e s).ord = s.ord := rfl
@[simp] theorem extDel_coh (e : ExtId) (s : State) : (extDel e s).coh = s.coh := rfl
@[simp] theorem extDel_fab (e : ExtId) (s : State) : (extDel e s).fab = s.fab := rfl
@[simp] theorem extDel_host (e : ExtId) (s : State) : (extDel e s).host = s.host := rfl
@[simp] theorem extDel_mgmt (e : ExtId) (s : State) : (extDel e s).mgmt = s.mgmt := rfl
@[simp] theorem extDel_rel (e : ExtId) (s : State) : (extDel e s).rel = s.rel := rfl
@[simp] theorem extDel_boot (e : ExtId) (s : State) : (extDel e s).boot = s.boot := rfl
@[simp] theorem extDel_out (e : ExtId) (s : State) : (extDel e s).out = s.out := rfl

/-! lendTaken -/

@[simp] theorem lendTaken_pending (b ext : Nat) (s : State) : (lendTaken b ext s).pending = s.pending := rfl
@[simp] theorem lendTaken_fresh (b ext : Nat) (s : State) : (lendTaken b ext s).fresh = s.fresh := rfl
@[simp] theorem lendTaken_regs (b ext : Nat) (s : State) : (lendTaken b ext s).regs = s.regs := rfl
@[simp] theorem lendTaken_live (b ext : Nat) (s : State) : (lendTaken b ext s).live = s.live := rfl
@[simp] theorem lendTaken_copies (b ext : Nat) (s : State) : (lendTaken b ext s).copies = s.copies := rfl
@[simp] theorem lendTaken_rows (b ext : Nat) (s : State) : (lendTaken b ext s).rows = s.rows := rfl
@[simp] theorem lendTaken_eng (b ext : Nat) (s : State) : (lendTaken b ext s).eng = s.eng := rfl
@[simp] theorem lendTaken_ord (b ext : Nat) (s : State) : (lendTaken b ext s).ord = s.ord := rfl
@[simp] theorem lendTaken_coh (b ext : Nat) (s : State) : (lendTaken b ext s).coh = s.coh := rfl
@[simp] theorem lendTaken_fab (b ext : Nat) (s : State) : (lendTaken b ext s).fab = s.fab := rfl
@[simp] theorem lendTaken_host (b ext : Nat) (s : State) : (lendTaken b ext s).host = s.host := rfl
@[simp] theorem lendTaken_mgmt (b ext : Nat) (s : State) : (lendTaken b ext s).mgmt = s.mgmt := rfl
@[simp] theorem lendTaken_rel (b ext : Nat) (s : State) : (lendTaken b ext s).rel = s.rel := rfl
@[simp] theorem lendTaken_boot (b ext : Nat) (s : State) : (lendTaken b ext s).boot = s.boot := rfl
@[simp] theorem lendTaken_out (b ext : Nat) (s : State) : (lendTaken b ext s).out = s.out := rfl

/-! lendDrop -/

@[simp] theorem lendDrop_pending (b : Nat) (s : State) : (lendDrop b s).pending = s.pending := rfl
@[simp] theorem lendDrop_fresh (b : Nat) (s : State) : (lendDrop b s).fresh = s.fresh := rfl
@[simp] theorem lendDrop_regs (b : Nat) (s : State) : (lendDrop b s).regs = s.regs := rfl
@[simp] theorem lendDrop_live (b : Nat) (s : State) : (lendDrop b s).live = s.live := rfl
@[simp] theorem lendDrop_copies (b : Nat) (s : State) : (lendDrop b s).copies = s.copies := rfl
@[simp] theorem lendDrop_rows (b : Nat) (s : State) : (lendDrop b s).rows = s.rows := rfl
@[simp] theorem lendDrop_eng (b : Nat) (s : State) : (lendDrop b s).eng = s.eng := rfl
@[simp] theorem lendDrop_ord (b : Nat) (s : State) : (lendDrop b s).ord = s.ord := rfl
@[simp] theorem lendDrop_coh (b : Nat) (s : State) : (lendDrop b s).coh = s.coh := rfl
@[simp] theorem lendDrop_fab (b : Nat) (s : State) : (lendDrop b s).fab = s.fab := rfl
@[simp] theorem lendDrop_host (b : Nat) (s : State) : (lendDrop b s).host = s.host := rfl
@[simp] theorem lendDrop_mgmt (b : Nat) (s : State) : (lendDrop b s).mgmt = s.mgmt := rfl
@[simp] theorem lendDrop_rel (b : Nat) (s : State) : (lendDrop b s).rel = s.rel := rfl
@[simp] theorem lendDrop_boot (b : Nat) (s : State) : (lendDrop b s).boot = s.boot := rfl
@[simp] theorem lendDrop_out (b : Nat) (s : State) : (lendDrop b s).out = s.out := rfl

/-! lentExpire -/

@[simp] theorem lentExpire_pending (b : Nat) (s : State) : (lentExpire b s).pending = s.pending := rfl
@[simp] theorem lentExpire_fresh (b : Nat) (s : State) : (lentExpire b s).fresh = s.fresh := rfl
@[simp] theorem lentExpire_regs (b : Nat) (s : State) : (lentExpire b s).regs = s.regs := rfl
@[simp] theorem lentExpire_live (b : Nat) (s : State) : (lentExpire b s).live = s.live := rfl
@[simp] theorem lentExpire_copies (b : Nat) (s : State) : (lentExpire b s).copies = s.copies := rfl
@[simp] theorem lentExpire_rows (b : Nat) (s : State) : (lentExpire b s).rows = s.rows := rfl
@[simp] theorem lentExpire_eng (b : Nat) (s : State) : (lentExpire b s).eng = s.eng := rfl
@[simp] theorem lentExpire_ord (b : Nat) (s : State) : (lentExpire b s).ord = s.ord := rfl
@[simp] theorem lentExpire_coh (b : Nat) (s : State) : (lentExpire b s).coh = s.coh := rfl
@[simp] theorem lentExpire_fab (b : Nat) (s : State) : (lentExpire b s).fab = s.fab := rfl
@[simp] theorem lentExpire_host (b : Nat) (s : State) : (lentExpire b s).host = s.host := rfl
@[simp] theorem lentExpire_mgmt (b : Nat) (s : State) : (lentExpire b s).mgmt = s.mgmt := rfl
@[simp] theorem lentExpire_rel (b : Nat) (s : State) : (lentExpire b s).rel = s.rel := rfl
@[simp] theorem lentExpire_boot (b : Nat) (s : State) : (lentExpire b s).boot = s.boot := rfl
@[simp] theorem lentExpire_out (b : Nat) (s : State) : (lentExpire b s).out = s.out := rfl

/-! ledgerSet -/

@[simp] theorem ledgerSet_pending (id : Nat) (l : Option Ledger) (s : State) : (ledgerSet id l s).pending = s.pending := rfl
@[simp] theorem ledgerSet_fresh (id : Nat) (l : Option Ledger) (s : State) : (ledgerSet id l s).fresh = s.fresh := rfl
@[simp] theorem ledgerSet_regs (id : Nat) (l : Option Ledger) (s : State) : (ledgerSet id l s).regs = s.regs := rfl
@[simp] theorem ledgerSet_live (id : Nat) (l : Option Ledger) (s : State) : (ledgerSet id l s).live = s.live := rfl
@[simp] theorem ledgerSet_copies (id : Nat) (l : Option Ledger) (s : State) : (ledgerSet id l s).copies = s.copies := rfl
@[simp] theorem ledgerSet_store (id : Nat) (l : Option Ledger) (s : State) : (ledgerSet id l s).store = s.store := rfl
@[simp] theorem ledgerSet_rows (id : Nat) (l : Option Ledger) (s : State) : (ledgerSet id l s).rows = s.rows := rfl
@[simp] theorem ledgerSet_eng (id : Nat) (l : Option Ledger) (s : State) : (ledgerSet id l s).eng = s.eng := rfl
@[simp] theorem ledgerSet_ord (id : Nat) (l : Option Ledger) (s : State) : (ledgerSet id l s).ord = s.ord := rfl
@[simp] theorem ledgerSet_coh (id : Nat) (l : Option Ledger) (s : State) : (ledgerSet id l s).coh = s.coh := rfl
@[simp] theorem ledgerSet_host (id : Nat) (l : Option Ledger) (s : State) : (ledgerSet id l s).host = s.host := rfl
@[simp] theorem ledgerSet_mgmt (id : Nat) (l : Option Ledger) (s : State) : (ledgerSet id l s).mgmt = s.mgmt := rfl
@[simp] theorem ledgerSet_rel (id : Nat) (l : Option Ledger) (s : State) : (ledgerSet id l s).rel = s.rel := rfl
@[simp] theorem ledgerSet_boot (id : Nat) (l : Option Ledger) (s : State) : (ledgerSet id l s).boot = s.boot := rfl
@[simp] theorem ledgerSet_out (id : Nat) (l : Option Ledger) (s : State) : (ledgerSet id l s).out = s.out := rfl

/-! lateAnswer -/

@[simp] theorem lateAnswer_pending (p : Packet) (s : State) : (lateAnswer p s).pending = s.pending := rfl
@[simp] theorem lateAnswer_fresh (p : Packet) (s : State) : (lateAnswer p s).fresh = s.fresh := rfl
@[simp] theorem lateAnswer_regs (p : Packet) (s : State) : (lateAnswer p s).regs = s.regs := rfl
@[simp] theorem lateAnswer_live (p : Packet) (s : State) : (lateAnswer p s).live = s.live := rfl
@[simp] theorem lateAnswer_copies (p : Packet) (s : State) : (lateAnswer p s).copies = s.copies := rfl
@[simp] theorem lateAnswer_store (p : Packet) (s : State) : (lateAnswer p s).store = s.store := rfl
@[simp] theorem lateAnswer_rows (p : Packet) (s : State) : (lateAnswer p s).rows = s.rows := rfl
@[simp] theorem lateAnswer_eng (p : Packet) (s : State) : (lateAnswer p s).eng = s.eng := rfl
@[simp] theorem lateAnswer_ord (p : Packet) (s : State) : (lateAnswer p s).ord = s.ord := rfl
@[simp] theorem lateAnswer_coh (p : Packet) (s : State) : (lateAnswer p s).coh = s.coh := rfl
@[simp] theorem lateAnswer_host (p : Packet) (s : State) : (lateAnswer p s).host = s.host := rfl
@[simp] theorem lateAnswer_mgmt (p : Packet) (s : State) : (lateAnswer p s).mgmt = s.mgmt := rfl
@[simp] theorem lateAnswer_rel (p : Packet) (s : State) : (lateAnswer p s).rel = s.rel := rfl
@[simp] theorem lateAnswer_boot (p : Packet) (s : State) : (lateAnswer p s).boot = s.boot := rfl
@[simp] theorem lateAnswer_out (p : Packet) (s : State) : (lateAnswer p s).out = s.out := rfl

/-! queryStart -/

@[simp] theorem queryStart_pending (x : Query) (s : State) : (queryStart x s).pending = s.pending := rfl
@[simp] theorem queryStart_fresh (x : Query) (s : State) : (queryStart x s).fresh = s.fresh := rfl
@[simp] theorem queryStart_regs (x : Query) (s : State) : (queryStart x s).regs = s.regs := rfl
@[simp] theorem queryStart_live (x : Query) (s : State) : (queryStart x s).live = s.live := rfl
@[simp] theorem queryStart_copies (x : Query) (s : State) : (queryStart x s).copies = s.copies := rfl
@[simp] theorem queryStart_store (x : Query) (s : State) : (queryStart x s).store = s.store := rfl
@[simp] theorem queryStart_rows (x : Query) (s : State) : (queryStart x s).rows = s.rows := rfl
@[simp] theorem queryStart_ord (x : Query) (s : State) : (queryStart x s).ord = s.ord := rfl
@[simp] theorem queryStart_coh (x : Query) (s : State) : (queryStart x s).coh = s.coh := rfl
@[simp] theorem queryStart_fab (x : Query) (s : State) : (queryStart x s).fab = s.fab := rfl
@[simp] theorem queryStart_host (x : Query) (s : State) : (queryStart x s).host = s.host := rfl
@[simp] theorem queryStart_mgmt (x : Query) (s : State) : (queryStart x s).mgmt = s.mgmt := rfl
@[simp] theorem queryStart_rel (x : Query) (s : State) : (queryStart x s).rel = s.rel := rfl
@[simp] theorem queryStart_boot (x : Query) (s : State) : (queryStart x s).boot = s.boot := rfl
@[simp] theorem queryStart_out (x : Query) (s : State) : (queryStart x s).out = s.out := rfl

/-! searchEnd -/

@[simp] theorem searchEnd_pending (q seq : Nat) (s : State) : (searchEnd q seq s).pending = s.pending := rfl
@[simp] theorem searchEnd_fresh (q seq : Nat) (s : State) : (searchEnd q seq s).fresh = s.fresh := rfl
@[simp] theorem searchEnd_regs (q seq : Nat) (s : State) : (searchEnd q seq s).regs = s.regs := rfl
@[simp] theorem searchEnd_live (q seq : Nat) (s : State) : (searchEnd q seq s).live = s.live := rfl
@[simp] theorem searchEnd_copies (q seq : Nat) (s : State) : (searchEnd q seq s).copies = s.copies := rfl
@[simp] theorem searchEnd_store (q seq : Nat) (s : State) : (searchEnd q seq s).store = s.store := rfl
@[simp] theorem searchEnd_rows (q seq : Nat) (s : State) : (searchEnd q seq s).rows = s.rows := rfl
@[simp] theorem searchEnd_ord (q seq : Nat) (s : State) : (searchEnd q seq s).ord = s.ord := rfl
@[simp] theorem searchEnd_coh (q seq : Nat) (s : State) : (searchEnd q seq s).coh = s.coh := rfl
@[simp] theorem searchEnd_fab (q seq : Nat) (s : State) : (searchEnd q seq s).fab = s.fab := rfl
@[simp] theorem searchEnd_host (q seq : Nat) (s : State) : (searchEnd q seq s).host = s.host := rfl
@[simp] theorem searchEnd_mgmt (q seq : Nat) (s : State) : (searchEnd q seq s).mgmt = s.mgmt := rfl
@[simp] theorem searchEnd_rel (q seq : Nat) (s : State) : (searchEnd q seq s).rel = s.rel := rfl
@[simp] theorem searchEnd_boot (q seq : Nat) (s : State) : (searchEnd q seq s).boot = s.boot := rfl
@[simp] theorem searchEnd_out (q seq : Nat) (s : State) : (searchEnd q seq s).out = s.out := rfl

/-! readBe -/

@[simp] theorem readBe_pending (s : State) : (readBe s).pending = s.pending := rfl
@[simp] theorem readBe_fresh (s : State) : (readBe s).fresh = s.fresh := rfl
@[simp] theorem readBe_regs (s : State) : (readBe s).regs = s.regs := rfl
@[simp] theorem readBe_live (s : State) : (readBe s).live = s.live := rfl
@[simp] theorem readBe_copies (s : State) : (readBe s).copies = s.copies := rfl
@[simp] theorem readBe_store (s : State) : (readBe s).store = s.store := rfl
@[simp] theorem readBe_eng (s : State) : (readBe s).eng = s.eng := rfl
@[simp] theorem readBe_ord (s : State) : (readBe s).ord = s.ord := rfl
@[simp] theorem readBe_coh (s : State) : (readBe s).coh = s.coh := rfl
@[simp] theorem readBe_fab (s : State) : (readBe s).fab = s.fab := rfl
@[simp] theorem readBe_host (s : State) : (readBe s).host = s.host := rfl
@[simp] theorem readBe_mgmt (s : State) : (readBe s).mgmt = s.mgmt := rfl
@[simp] theorem readBe_rel (s : State) : (readBe s).rel = s.rel := rfl
@[simp] theorem readBe_boot (s : State) : (readBe s).boot = s.boot := rfl
@[simp] theorem readBe_out (s : State) : (readBe s).out = s.out := rfl

end Sys2Proof.Machine
end

