-- ==== Sys2Proof/Laws/Tables.lean ====
section
/-! SUPPORT. What the tables of numbered things do: a read after a change of the same key, of another key, and the canonical form. -/

namespace Sys2Proof.Machine

open Sys2Proof

variable {α : Type}

@[simp] theorem mget_nil (k : Nat) : mget k ([] : NMap α) = none := rfl

@[simp] theorem mget_mset_same (k : Nat) (v : α) (m : NMap α) : mget k (mset k v m) = some v := by
  induction m with
  | nil => simp [mset, mget]
  | cons e t ih =>
    obtain ⟨j, w⟩ := e
    by_cases h : k < j
    · simp [mset, mget, h]
    · by_cases h' : j = k
      · simp [mset, mget, h']
      · simp [mset, mget, h, h', ih]

theorem mget_mset_ne {k k' : Nat} (h : k ≠ k') (v : α) (m : NMap α) : mget k' (mset k v m) = mget k' m := by
  induction m with
  | nil => simp [mset, mget, h]
  | cons e t ih =>
    obtain ⟨j, w⟩ := e
    by_cases h1 : k < j
    · simp [mset, mget, h1, h]
    · by_cases h2 : j = k
      · subst h2; simp [mset, mget, h]
      · by_cases h3 : j = k'
        · rw [mset, if_neg h1, if_neg h2]; simp [mget, h3]
        · rw [mset, if_neg h1, if_neg h2]; simp [mget, h3, ih]

@[simp] theorem mget_mdel_same (k : Nat) (m : NMap α) : mget k (mdel k m) = none := by
  induction m with
  | nil => rfl
  | cons e t ih =>
    obtain ⟨j, w⟩ := e
    by_cases h : j = k
    · subst h; simpa [mdel] using ih
    · have h' : (j != k) = true := by simpa using h
      simp only [mdel, List.filter_cons, h'] at ih ⊢
      simpa [mget, h] using ih

theorem mget_mdel_ne {k k' : Nat} (h : k ≠ k') (m : NMap α) : mget k' (mdel k m) = mget k' m := by
  induction m with
  | nil => rfl
  | cons e t ih =>
    obtain ⟨j, w⟩ := e
    by_cases h1 : j = k
    · subst h1
      simp only [mdel, List.filter_cons, bne_self_eq_false] at ih ⊢
      simpa [mget, h] using ih
    · have h' : (j != k) = true := by simpa using h1
      simp only [mdel, List.filter_cons, h'] at ih ⊢
      by_cases h2 : j = k'
      · simp [mget, h2]
      · simpa [mget, h2] using ih

/-- A key of a table with a reading for unlisted keys reads what was put there. -/
@[simp] theorem mgetD_mput_same [DecidableEq α] (d : α) (k : Nat) (v : α) (m : NMap α) : mgetD d k (mput d k v m) = v := by
  unfold mgetD mput
  split
  · next h => simp [h]
  · simp

theorem mgetD_mput_ne [DecidableEq α] {k k' : Nat} (h : k ≠ k') (d d' v : α) (m : NMap α) :
    mgetD d' k' (mput d k v m) = mgetD d' k' m := by
  unfold mgetD mput
  split
  · rw [mget_mdel_ne h]
  · rw [mget_mset_ne h]

@[simp] theorem mgetD_mset_same (d : α) (k : Nat) (v : α) (m : NMap α) : mgetD d k (mset k v m) = v := by simp [mgetD]

theorem mgetD_mset_ne {k k' : Nat} (h : k ≠ k') (d v : α) (m : NMap α) : mgetD d k' (mset k v m) = mgetD d k' m := by
  simp [mgetD, mget_mset_ne h]

/-- Changing the entry of a key changes what the key reads. -/
@[simp] theorem mget_mmod_same (k : Nat) (f : α → α) (m : NMap α) : mget k (mmod k f m) = (mget k m).map f := by
  induction m with
  | nil => rfl
  | cons e t ih =>
    obtain ⟨j, w⟩ := e
    by_cases h : j = k
    · simp [mmod, mget, h]
    · simp only [mmod, List.map_cons, mget, h] at ih ⊢
      simpa [h] using ih

theorem mget_mmod_ne {k k' : Nat} (h : k ≠ k') (f : α → α) (m : NMap α) : mget k' (mmod k f m) = mget k' m := by
  induction m with
  | nil => rfl
  | cons e t ih =>
    obtain ⟨j, w⟩ := e
    by_cases h1 : j = k
    · subst h1
      simp only [mmod, List.map_cons] at ih ⊢
      simp [mget, h, ih]
    · simp only [mmod, List.map_cons, h1] at ih ⊢
      by_cases h2 : j = k'
      · simp [mget, h2]
      · simp [mget, h2, ih]

/-! The canonical form: keys strictly rising -/

theorem sortedFrom_mono {lo lo' : Nat} (h : lo' ≤ lo) {m : NMap α} (hm : sortedFrom lo m = true) : sortedFrom lo' m = true := by
  cases m with
  | nil => rfl
  | cons e t =>
    simp only [sortedFrom, Bool.and_eq_true, decide_eq_true_eq] at hm ⊢
    exact ⟨le_trans h hm.1, hm.2⟩

theorem sortedFrom_mset {lo k : Nat} (hk : lo ≤ k) (v : α) {m : NMap α} (hm : sortedFrom lo m = true) :
    sortedFrom lo (mset k v m) = true := by
  induction m generalizing lo with
  | nil => simp [mset, sortedFrom, hk]
  | cons e t ih =>
    obtain ⟨j, w⟩ := e
    simp only [sortedFrom, Bool.and_eq_true, decide_eq_true_eq] at hm
    by_cases h1 : k < j
    · simp only [mset, h1, if_true, sortedFrom, Bool.and_eq_true, decide_eq_true_eq]
      exact ⟨hk, by omega, hm.2⟩
    · by_cases h2 : j = k
      · subst h2
        simp only [mset, lt_irrefl, if_false, if_true, sortedFrom, Bool.and_eq_true, decide_eq_true_eq]
        exact ⟨hk, hm.2⟩
      · simp only [mset, h1, h2, if_false, sortedFrom, Bool.and_eq_true, decide_eq_true_eq]
        exact ⟨hm.1, ih (by omega) hm.2⟩

theorem sortedFrom_filter (p : Nat × α → Bool) {lo : Nat} {m : NMap α} (hm : sortedFrom lo m = true) : sortedFrom lo (m.filter p) = true := by
  induction m generalizing lo with
  | nil => rfl
  | cons e t ih =>
    obtain ⟨j, w⟩ := e
    simp only [sortedFrom, Bool.and_eq_true, decide_eq_true_eq] at hm
    by_cases h : p (j, w) = true
    · simp only [List.filter_cons, h, if_true, sortedFrom, Bool.and_eq_true, decide_eq_true_eq]
      exact ⟨hm.1, ih hm.2⟩
    · simp only [List.filter_cons, h]
      exact ih (sortedFrom_mono (by omega) hm.2)

theorem sorted_mset (k : Nat) (v : α) {m : NMap α} (hm : sorted m = true) : sorted (mset k v m) = true := sortedFrom_mset (Nat.zero_le k) v hm

theorem sorted_mdel (k : Nat) {m : NMap α} (hm : sorted m = true) : sorted (mdel k m) = true := sortedFrom_filter _ hm

theorem sorted_filter (p : Nat × α → Bool) {m : NMap α} (hm : sorted m = true) : sorted (m.filter p) = true := sortedFrom_filter p hm

theorem sorted_mput [DecidableEq α] (d : α) (k : Nat) (v : α) {m : NMap α} (hm : sorted m = true) : sorted (mput d k v m) = true := by
  unfold mput
  split
  · exact sorted_mdel k hm
  · exact sorted_mset k v hm

theorem mem_mset {k : Nat} {v : α} {m : NMap α} {e : Nat × α} (h : e ∈ mset k v m) : e = (k, v) ∨ e ∈ m := by
  induction m with
  | nil => simpa [mset] using h
  | cons x t ih =>
    obtain ⟨j, w⟩ := x
    by_cases h1 : k < j
    · simpa [mset, h1] using h
    · by_cases h2 : j = k
      · rw [mset, if_neg h1, if_pos h2] at h
        rw [List.mem_cons] at h
        rcases h with h | h
        · exact .inl h
        · exact .inr (List.mem_cons_of_mem _ h)
      · rw [mset, if_neg h1, if_neg h2, List.mem_cons] at h
        rcases h with h | h
        · exact .inr (by simp [h])
        · rcases ih h with h | h
          · exact .inl h
          · exact .inr (List.mem_cons_of_mem _ h)

end Sys2Proof.Machine
end

