-- ==== Sys2Proof/Laws/Regs.lean ====
section
/-! SUPPORT. What register and counter updates do: the written register reads the value, every other register reads as before. -/

namespace Sys2Proof.Machine

open Sys2Proof

/-- Two registers, or two instances of one, have different keys. -/
theorem rkey_inj {r i r' i' : Nat} (hi : i < 65536) (hi' : i' < 65536) (h : rkey r i = rkey r' i') : r = r' ∧ i = i' := by
  unfold rkey at h
  omega

theorem rkey_ne_reg {r i r' i' : Nat} (hi : i < 65536) (hi' : i' < 65536) (h : r ≠ r') : rkey r i ≠ rkey r' i' := fun e => h (rkey_inj hi hi' e).1

theorem rkey_ne_inst {r i i' : Nat} (h : i ≠ i') : rkey r i ≠ rkey r i' := by
  unfold rkey
  omega

@[simp] theorem rget_rset_same (r i : Nat) (v : W32) (s : State) : rget (rset r i v s) r i = v := by simp [rget, rset]

theorem rget_rset_ne {r i r' i' : Nat} (h : rkey r i ≠ rkey r' i') (v : W32) (s : State) : rget (rset r i v s) r' i' = rget s r' i' := by
  simp [rget, rset, mgetD_mput_ne h]

theorem rget_congr {s t : State} (h : t.regs = s.regs) (r i : Nat) : rget t r i = rget s r i := by simp [rget, h]

@[simp] theorem rget_rsetFld_same (r i lo n x : Nat) (s : State) : rget (rsetFld r i lo n x s) r i = setFld (rget s r i) lo n x := by simp [rsetFld]

theorem rget_rsetFld_ne {r i r' i' : Nat} (h : rkey r i ≠ rkey r' i') (lo n x : Nat) (s : State) :
    rget (rsetFld r i lo n x s) r' i' = rget s r' i' := by simp [rsetFld, rget_rset_ne h]

theorem rget_cmdEnd_ne {r i r' i' : Nat} (h : rkey r i ≠ rkey r' i') (st : Status) (s : State) :
    rget (cmdEnd r i st s) r' i' = rget s r' i' := by simp [cmdEnd, setBusy, rget_rsetFld_ne h]

theorem rget_setBusy_ne {r i r' i' : Nat} (h : rkey r i ≠ rkey r' i') (b : Bool) (s : State) :
    rget (setBusy r i b s) r' i' = rget s r' i' := by simp [setBusy, rget_rsetFld_ne h]

/-! Fields -/

theorem fld_lt {w : Nat} (v : BitVec w) (lo n : Nat) : fld v lo n < 2 ^ n := Nat.mod_lt _ (by positivity)

/-- The written field of a register reads what was written; the rest of the word stays. -/
theorem setFld_toNat {w : Nat} (v : BitVec w) (lo n x : Nat) (h : lo + n ≤ w) :
    (setFld v lo n x).toNat = v.toNat - fld v lo n * 2 ^ lo + x % 2 ^ n * 2 ^ lo := by
  have hv := v.isLt
  unfold setFld fld
  rw [BitVec.toNat_ofNat]
  apply Nat.mod_eq_of_lt
  have h2 : (2 : Nat) ^ w = 2 ^ lo * (2 ^ n * 2 ^ (w - lo - n)) := by rw [← Nat.pow_add, ← Nat.pow_add]; congr 1; omega
  have hq : v.toNat = 2 ^ lo * (2 ^ n * (v.toNat / 2 ^ lo / 2 ^ n) + v.toNat / 2 ^ lo % 2 ^ n) + v.toNat % 2 ^ lo := by
    rw [Nat.div_add_mod, Nat.div_add_mod]
  have hm : v.toNat % 2 ^ lo < 2 ^ lo := Nat.mod_lt _ (by positivity)
  have hx : x % 2 ^ n < 2 ^ n := Nat.mod_lt _ (by positivity)
  have hd : v.toNat / 2 ^ lo / 2 ^ n < 2 ^ (w - lo - n) := by
    rw [Nat.div_div_eq_div_mul, Nat.div_lt_iff_lt_mul (by positivity)]
    calc v.toNat < 2 ^ w := hv
      _ = _ := by rw [h2]; ring
  set a := v.toNat / 2 ^ lo / 2 ^ n
  set b := v.toNat / 2 ^ lo % 2 ^ n
  set c := v.toNat % 2 ^ lo
  have e : v.toNat - b * 2 ^ lo + x % 2 ^ n * 2 ^ lo = 2 ^ lo * (2 ^ n * a + x % 2 ^ n) + c := by
    have : v.toNat = 2 ^ lo * (2 ^ n * a) + b * 2 ^ lo + c := by rw [hq]; ring
    rw [this]
    have : 2 ^ lo * (2 ^ n * a) + b * 2 ^ lo + c - b * 2 ^ lo = 2 ^ lo * (2 ^ n * a) + c := by omega
    rw [this]; ring
  rw [e, h2]
  have h3 : 2 ^ n * a + x % 2 ^ n < 2 ^ n * 2 ^ (w - lo - n) := by
    have : 2 ^ n * (a + 1) ≤ 2 ^ n * 2 ^ (w - lo - n) := Nat.mul_le_mul_left _ hd
    nlinarith
  have : 2 ^ lo * (2 ^ n * a + x % 2 ^ n + 1) ≤ 2 ^ lo * (2 ^ n * 2 ^ (w - lo - n)) := Nat.mul_le_mul_left _ h3
  nlinarith

theorem setFld_split {w : Nat} (v : BitVec w) (lo n x : Nat) (h : lo + n ≤ w) :
    (setFld v lo n x).toNat = 2 ^ lo * (2 ^ n * (v.toNat / 2 ^ lo / 2 ^ n) + x % 2 ^ n) + v.toNat % 2 ^ lo := by
  rw [setFld_toNat v lo n x h]
  have hq : v.toNat = 2 ^ lo * (2 ^ n * (v.toNat / 2 ^ lo / 2 ^ n) + v.toNat / 2 ^ lo % 2 ^ n) + v.toNat % 2 ^ lo := by
    rw [Nat.div_add_mod, Nat.div_add_mod]
  unfold fld
  set a := v.toNat / 2 ^ lo / 2 ^ n
  set b := v.toNat / 2 ^ lo % 2 ^ n
  set c := v.toNat % 2 ^ lo
  have h1 : v.toNat = 2 ^ lo * (2 ^ n * a) + b * 2 ^ lo + c := by rw [hq]; ring
  rw [h1]
  have h2 : 2 ^ lo * (2 ^ n * a) + b * 2 ^ lo + c - b * 2 ^ lo = 2 ^ lo * (2 ^ n * a) + c := by omega
  rw [h2]; ring

theorem fld_setFld_same {w : Nat} (v : BitVec w) (lo n x : Nat) (h : lo + n ≤ w) : fld (setFld v lo n x) lo n = x % 2 ^ n := by
  rw [fld, setFld_split v lo n x h, Nat.mul_add_div (by positivity), Nat.div_eq_of_lt (Nat.mod_lt _ (by positivity)), Nat.add_zero,
    Nat.mul_add_mod, Nat.mod_mod]

/-- A field above the written one stays. -/
theorem fld_setFld_above {w : Nat} (v : BitVec w) (lo n x lo' n' : Nat) (h : lo + n ≤ w) (h' : lo + n ≤ lo') :
    fld (setFld v lo n x) lo' n' = fld v lo' n' := by
  have e : ∀ y : Nat, y / 2 ^ lo' = y / 2 ^ lo / 2 ^ n / 2 ^ (lo' - lo - n) := fun y => by
    rw [Nat.div_div_eq_div_mul, Nat.div_div_eq_div_mul, ← Nat.pow_add, ← Nat.pow_add]; congr 2; omega
  rw [fld, fld, e, e v.toNat, setFld_split v lo n x h, Nat.mul_add_div (by positivity), Nat.div_eq_of_lt (a := v.toNat % 2 ^ lo) (Nat.mod_lt _ (by positivity)),
    Nat.add_zero, Nat.mul_add_div (by positivity), Nat.div_eq_of_lt (a := x % 2 ^ n) (Nat.mod_lt _ (by positivity)), Nat.add_zero]

/-- A field below the written one stays. -/
theorem fld_setFld_below {w : Nat} (v : BitVec w) (lo n x lo' n' : Nat) (h : lo + n ≤ w) (h' : lo' + n' ≤ lo) :
    fld (setFld v lo n x) lo' n' = fld v lo' n' := by
  have key : (setFld v lo n x).toNat % 2 ^ lo = v.toNat % 2 ^ lo := by
    rw [setFld_split v lo n x h, Nat.mul_add_mod, Nat.mod_mod]
  have e : ∀ y : Nat, y / 2 ^ lo' % 2 ^ n' = y % 2 ^ lo / 2 ^ lo' % 2 ^ n' := fun y => by
    have hd : (2 : Nat) ^ lo = 2 ^ lo' * 2 ^ (lo - lo') := by rw [← Nat.pow_add]; congr 1; omega
    rw [hd, Nat.mod_mul_right_div_self, Nat.mod_mod_of_dvd]
    exact Nat.pow_dvd_pow 2 (by omega)
  rw [fld, fld, e, key, ← e]

/-! Ends of commands -/

/-- BUSY of a command register after its end. -/
theorem cmdEnd_busy (r i : Nat) (st : Status) (s : State) : fld (rget (cmdEnd r i st s) r i) 4 1 = 0 := by
  simp [cmdEnd, setBusy, fld_setFld_same, b2n]

/-- STATUS of a command register after its end (Table 4-4). -/
theorem cmdEnd_status (r i : Nat) (st : Status) (s : State) : fld (rget (cmdEnd r i st s) r i) 8 8 = st.code := by
  rw [cmdEnd, setBusy, rget_rsetFld_same, fld_setFld_above _ 4 1 _ 8 8 (by omega) (by omega), rget_rsetFld_same, fld_setFld_same _ 8 8 _ (by omega)]
  cases st <;> rfl

/-! Counters (R455) -/

@[simp] theorem cget_cset_same (r i n : Nat) (s : State) : cget (cset r i n s) r i = n % 2 ^ 32 := by
  simp [cget, cset, w32]

theorem cget_cset_ne {r i r' i' : Nat} (h : rkey r i ≠ rkey r' i') (n : Nat) (s : State) : cget (cset r i n s) r' i' = cget s r' i' := by
  simp [cget, cset, mgetD_mput_ne h]

theorem cget_congr {s t : State} (h : t.live = s.live) (r i : Nat) : cget t r i = cget s r i := by simp [cget, h]

theorem cget_bump_same (r i : Nat) (s : State) : cget (bump r i s) r i = min (cget s r i + 1) 0xFFFFFFFF := by
  rw [bump, bumpN, cget_cset_same]
  exact Nat.mod_eq_of_lt (by omega)

theorem cget_lt (s : State) (r i : Nat) : cget s r i < 2 ^ 32 := BitVec.isLt _

/-- Counters saturate at all ones (R455). -/
theorem cget_bumpN_same (r i n : Nat) (s : State) : cget (bumpN r i n s) r i = min (cget s r i + n) 0xFFFFFFFF := by
  rw [bumpN, cget_cset_same]
  exact Nat.mod_eq_of_lt (by omega)

theorem cget_bump_ne {r i r' i' : Nat} (h : rkey r i ≠ rkey r' i') (s : State) : cget (bump r i s) r' i' = cget s r' i' := cget_cset_ne h _ _

end Sys2Proof.Machine
end

