-- ==== Sys2Proof/Laws/Issue.lean ====
section
/-! SUPPORT. How a register write and a command are taken, and how every command ends. -/

namespace Sys2Proof.Machine

open Sys2Proof

/-! The end of a command -/

theorem exec_act {f : State → State} {s : State} (h : alive s = true) : done (act f s) = .next (finish (f s)) := by
  simp [done, act, h, finish, told]

theorem act_dead {f : State → State} {s : State} (h : alive s = false) : done (act f s) = .next s := by
  simp [done, act, h]

theorem done_next (s : State) : ∃ t, done s = .next t := ⟨_, rfl⟩

/-- Registers that pass their check are used as they stand. -/
theorem checkUse_good {s : State} (h : parityGood s = true) : checkUse s = s := if_pos h

theorem exec_arrive {f : State → State} {port : Nat} {p : Packet} {s : State} (h : Arrives s port p) : done (arrive port p f s) = .next (finish (f s)) := by
  obtain ⟨h1, h2, h3, h4⟩ := h
  rw [arrive, exec_act h1, if_pos h2, checkUse_good h3]
  simp only [ite_self, h4, Bool.false_and, Bool.false_eq_true, if_false]

theorem exec_opRun {f : Nat → Nat → Desc → State → State} {q : QueueNum} {seq : W32} {op : Nat} {d : Desc} {s : State} (h : Runs s q seq op d) :
    done (act (opRun q seq op f) s) = .next (finish (f q.toNat seq.toNat d s)) := by
  obtain ⟨h1, h2, h3, h4⟩ := h
  rw [exec_act h1, opRun, h2]
  exact congrArg (fun t => Host.Outcome.next (finish t)) (if_pos ⟨h3, h4⟩)

/-- With nothing waiting, nothing is set free. -/
theorem setFree_quiet {s : State} (h : Quiet s) : setFree s = s := by
  obtain ⟨h1, h2, h3, h4, h5, h6⟩ := h
  have e : settle s = s := by simp [settle, drain, readyWaiting, h1, h2]
  simp [setFree, e, h3, h4, h5, h6]

/-! Reaching a register -/

theorem fnPart_lt {s : State} {i p : Nat} (h : fnPart s i = some p) : p < 256 := by
  unfold fnPart at h
  dsimp only at h
  split at h
  · simp only [Option.some.injEq] at h; rw [← h]; exact fld_lt _ 0 8
  · split at h
    · simp only [Option.some.injEq] at h; rw [← h]; exact fld_lt _ 0 8
    · simp at h

theorem pathPart_lt {s : State} {path : Path} {p : Nat} (h : pathPart s path = some p) : p < 256 := by
  unfold pathPart at h
  split at h
  · exact fnPart_lt h
  · exact fnPart_lt h
  · simp only [Option.some.injEq] at h; omega

theorem pathCode_lt (path : Path) : pathCode path < 260 := by
  unfold pathCode
  split
  · omega
  · next p n => have := p.isLt; have := n.isLt; omega
  · omega
  · omega

theorem selectVia_lt {s : State} {path : Path} {sr i : Nat} {ok : Nat → Bool} (h : selectVia s path sr ok = .at i) : i < 65536 := by
  unfold selectVia at h
  split at h
  · simp at h
  · simp only at h
    split at h
    · simp only [RegTo.at.injEq] at h; rw [← h]; exact fld_lt _ 0 16
    · simp at h

/-- The instance a write reaches is a number of 16 bits. -/
theorem regTarget_lt {s : State} {path : Path} {off i : Nat} (h : regTarget s path off = .at i) : i < 65536 := by
  have hc := pathCode_lt path
  unfold regTarget at h
  split at h
  · simp at h
  split at h
  · simp at h
  split at h
  · split at h
    · simp at h
    · next p hp =>
      have := pathPart_lt hp
      split at h
      · simp at h
      split at h
      · simp at h
      · split at h
        · simp only [RegTo.at.injEq] at h; omega
        · exact selectVia_lt h
        · split at h
          · simp only [RegTo.at.injEq] at h; omega
          · simp at h
        · split at h
          · simp only [RegTo.at.injEq] at h; omega
          · simp at h
  · split at h
    · simp at h
    · split at h <;> first | exact selectVia_lt h | (simp only [RegTo.at.injEq] at h; omega)

theorem Reaches.lt {s : State} {path : Path} {off i : Nat} (h : Reaches s path off i) : i < 65536 := regTarget_lt h.2.1

/-- A register write that reaches an instance acts on it, with the unlock used up (R459). -/
theorem regWriteVia_reaches {s : State} {path : Path} {off i : Nat} (h : Reaches s path off i) (v : W32) (f : Nat → Bool → State → State) :
    regWriteVia path off v f s = f i (unlocked s path) (useUnlock path s) := by
  obtain ⟨h1, h2, h3, h4⟩ := h
  have e : regTarget (useUnlock path s) path off = regTarget s path off := rfl
  simp only [regWriteVia, regWriteNow, h1, h4, Bool.and_false, Bool.false_eq_true, if_false, if_true, e, h2]
  exact if_neg fun e => Bool.false_ne_true (h3.symm.trans e)

/-! What storing a written value leaves -/

@[simp] theorem storeParity_live (r i u : Nat) (s : State) : (storeParity r i u s).live = s.live := by
  unfold storeParity
  dsimp only
  split <;> rfl

theorem storeParity_frame (r i u : Nat) (s : State) :
    ∃ m v, storeParity r i u s = { s with mgmt := { s.mgmt with badParity := m }, regs := v } ∧
      (v = s.regs ∨ v = mput (regReset Reg.parityInject) (rkey Reg.parityInject 0) (rget s Reg.parityInject 0 &&& 0xFFFFFEFF) s.regs) := by
  unfold storeParity
  dsimp only
  split
  · exact ⟨_, _, rfl, .inr rfl⟩
  · exact ⟨_, _, rfl, .inl rfl⟩

theorem rget_storeParity_ne {r' j : Nat} (h : rkey r' j ≠ rkey Reg.parityInject 0) (r i u : Nat) (s : State) :
    rget (storeParity r i u s) r' j = rget s r' j := by
  obtain ⟨m, v, e, hv | hv⟩ := storeParity_frame r i u s
  · rw [e]; simp [rget, hv]
  · rw [e]; simp [rget, hv, mgetD_mput_ne (Ne.symm h)]

theorem rget_cfgStore_ne {r i r' j : Nat} (h : rkey r i ≠ rkey r' j) (h' : rkey r' j ≠ rkey Reg.parityInject 0) (v : W32) (s : State) :
    rget (cfgStore r i v s) r' j = rget s r' j := by
  unfold cfgStore
  split
  · rfl
  · rw [rget_rset_ne h, rget_storeParity_ne h']

theorem cfgStore_frame (r i : Nat) (v : W32) (s : State) :
    ∃ m w, cfgStore r i v s = { s with mgmt := { s.mgmt with badParity := m }, regs := w } := by
  unfold cfgStore
  split
  · exact ⟨s.mgmt.badParity, s.regs, rfl⟩
  · next row _ =>
    obtain ⟨m, w, e, -⟩ := storeParity_frame r i row.unit s
    rw [e]
    exact ⟨m, _, rfl⟩

@[simp] theorem cfgStore_pending (r i : Nat) (v : W32) (s : State) : (cfgStore r i v s).pending = s.pending := by
  obtain ⟨m, w, e⟩ := cfgStore_frame r i v s
  rw [e]
@[simp] theorem cfgStore_fresh (r i : Nat) (v : W32) (s : State) : (cfgStore r i v s).fresh = s.fresh := by
  obtain ⟨m, w, e⟩ := cfgStore_frame r i v s
  rw [e]
@[simp] theorem cfgStore_live (r i : Nat) (v : W32) (s : State) : (cfgStore r i v s).live = s.live := by
  obtain ⟨m, w, e⟩ := cfgStore_frame r i v s
  rw [e]
@[simp] theorem cfgStore_copies (r i : Nat) (v : W32) (s : State) : (cfgStore r i v s).copies = s.copies := by
  obtain ⟨m, w, e⟩ := cfgStore_frame r i v s
  rw [e]
@[simp] theorem cfgStore_store (r i : Nat) (v : W32) (s : State) : (cfgStore r i v s).store = s.store := by
  obtain ⟨m, w, e⟩ := cfgStore_frame r i v s
  rw [e]
@[simp] theorem cfgStore_rows (r i : Nat) (v : W32) (s : State) : (cfgStore r i v s).rows = s.rows := by
  obtain ⟨m, w, e⟩ := cfgStore_frame r i v s
  rw [e]
@[simp] theorem cfgStore_eng (r i : Nat) (v : W32) (s : State) : (cfgStore r i v s).eng = s.eng := by
  obtain ⟨m, w, e⟩ := cfgStore_frame r i v s
  rw [e]
@[simp] theorem cfgStore_ord (r i : Nat) (v : W32) (s : State) : (cfgStore r i v s).ord = s.ord := by
  obtain ⟨m, w, e⟩ := cfgStore_frame r i v s
  rw [e]
@[simp] theorem cfgStore_coh (r i : Nat) (v : W32) (s : State) : (cfgStore r i v s).coh = s.coh := by
  obtain ⟨m, w, e⟩ := cfgStore_frame r i v s
  rw [e]
@[simp] theorem cfgStore_fab (r i : Nat) (v : W32) (s : State) : (cfgStore r i v s).fab = s.fab := by
  obtain ⟨m, w, e⟩ := cfgStore_frame r i v s
  rw [e]
@[simp] theorem cfgStore_host (r i : Nat) (v : W32) (s : State) : (cfgStore r i v s).host = s.host := by
  obtain ⟨m, w, e⟩ := cfgStore_frame r i v s
  rw [e]
@[simp] theorem cfgStore_rel (r i : Nat) (v : W32) (s : State) : (cfgStore r i v s).rel = s.rel := by
  obtain ⟨m, w, e⟩ := cfgStore_frame r i v s
  rw [e]
@[simp] theorem cfgStore_boot (r i : Nat) (v : W32) (s : State) : (cfgStore r i v s).boot = s.boot := by
  obtain ⟨m, w, e⟩ := cfgStore_frame r i v s
  rw [e]
@[simp] theorem cfgStore_out (r i : Nat) (v : W32) (s : State) : (cfgStore r i v s).out = s.out := by
  obtain ⟨m, w, e⟩ := cfgStore_frame r i v s
  rw [e]
@[simp] theorem taken_pending (path : Path) (r i : Nat) (v : W32) (s : State) : (taken path r i v s).pending = s.pending := by simp [taken]
@[simp] theorem taken_fresh (path : Path) (r i : Nat) (v : W32) (s : State) : (taken path r i v s).fresh = s.fresh := by simp [taken]
@[simp] theorem taken_live (path : Path) (r i : Nat) (v : W32) (s : State) : (taken path r i v s).live = s.live := by simp [taken]
@[simp] theorem taken_copies (path : Path) (r i : Nat) (v : W32) (s : State) : (taken path r i v s).copies = s.copies := by simp [taken]
@[simp] theorem taken_store (path : Path) (r i : Nat) (v : W32) (s : State) : (taken path r i v s).store = s.store := by simp [taken]
@[simp] theorem taken_rows (path : Path) (r i : Nat) (v : W32) (s : State) : (taken path r i v s).rows = s.rows := by simp [taken]
@[simp] theorem taken_eng (path : Path) (r i : Nat) (v : W32) (s : State) : (taken path r i v s).eng = s.eng := by simp [taken]
@[simp] theorem taken_ord (path : Path) (r i : Nat) (v : W32) (s : State) : (taken path r i v s).ord = s.ord := by simp [taken]
@[simp] theorem taken_coh (path : Path) (r i : Nat) (v : W32) (s : State) : (taken path r i v s).coh = s.coh := by simp [taken]
@[simp] theorem taken_fab (path : Path) (r i : Nat) (v : W32) (s : State) : (taken path r i v s).fab = s.fab := by simp [taken]
@[simp] theorem taken_host (path : Path) (r i : Nat) (v : W32) (s : State) : (taken path r i v s).host = s.host := by simp [taken]
@[simp] theorem taken_rel (path : Path) (r i : Nat) (v : W32) (s : State) : (taken path r i v s).rel = s.rel := by simp [taken]
@[simp] theorem taken_boot (path : Path) (r i : Nat) (v : W32) (s : State) : (taken path r i v s).boot = s.boot := by simp [taken]
@[simp] theorem taken_out (path : Path) (r i : Nat) (v : W32) (s : State) : (taken path r i v s).out = s.out := by simp [taken]

theorem cfgStore_stopped (r i : Nat) (v : W32) (s : State) : (cfgStore r i v s).mgmt.stopped = s.mgmt.stopped := by
  obtain ⟨m, w, e⟩ := cfgStore_frame r i v s
  rw [e]

@[simp] theorem unitStopped_taken (path : Path) (r i : Nat) (v : W32) (s : State) (u : Nat) (inst : Option Nat) :
    unitStopped (taken path r i v s) u inst = unitStopped s u inst := by
  simp [unitStopped, taken, cfgStore_stopped, useUnlock]

theorem rget_taken_ne {path : Path} {r i r' j : Nat} (h : rkey r i ≠ rkey r' j) (h' : rkey r' j ≠ rkey Reg.parityInject 0) (v : W32) (s : State) :
    rget (taken path r i v s) r' j = rget s r' j := by
  rw [taken, rget_cfgStore_ne h h']
  rfl

/-- The registers by which a partition's intake is stopped. -/
def intakeRegs : List Nat := [Reg.fatalStatus, Reg.bootStatus, Reg.partStatus, Reg.parityInject]

theorem intakeStopped_taken {path : Path} {r i : Nat} (hi : i < 65536) (hr : r ∉ intakeRegs) (v : W32) (s : State) (p : Nat) (hp : p < 65536) :
    intakeStopped (taken path r i v s) p = intakeStopped s p := by
  simp only [intakeRegs, List.mem_cons, List.not_mem_nil, or_false, not_or] at hr
  obtain ⟨h1, h2, h3, -⟩ := hr
  have e1 : rget (taken path r i v s) Reg.fatalStatus 0 = rget s Reg.fatalStatus 0 :=
    rget_taken_ne (rkey_ne_reg hi (by omega) h1) (by decide) v s
  have e2 : rget (taken path r i v s) Reg.bootStatus 0 = rget s Reg.bootStatus 0 :=
    rget_taken_ne (rkey_ne_reg hi (by omega) h2) (by decide) v s
  have e3 : rget (taken path r i v s) Reg.partStatus p = rget s Reg.partStatus p :=
    rget_taken_ne (rkey_ne_reg hi hp h3) (rkey_ne_reg hp (by omega) (by decide)) v s
  unfold intakeStopped fatal stage partBusy partState rbit rfld
  dsimp only
  rw [e1, e2, e3, taken_boot]

/-- A command that its register accepts runs on the state in which the register holds the written value (R39, R40). -/
theorem issue_accepts {s : State} {path : Path} {r op u i : Nat} {v : W32} (h : Accepts s path r op u v i) (hr : r ∉ intakeRegs)
    (f : Nat → State → State) : issue path r op u v f s = f i (taken path r i v s) := by
  obtain ⟨h1, hg, h2, h3, h4, h5⟩ := h
  have hb : cmdBusy (useUnlock path s) r i = false := h2
  rw [issue, regWriteVia_reaches h1, checkUse_good (s := useUnlock path s) hg, issueAt, hb, h3]
  have e : cfgStore r i v (useUnlock path s) = taken path r i v s := rfl
  simp only [e, bne_self_eq_false, Bool.or_self]
  by_cases hs : 0x100000 ≤ r
  · simp only [hs, decide_true, if_true, intakeStopped_taken h1.lt hr v s i h1.lt, h4 hs, Bool.and_false, unitStopped_taken] at h5 ⊢
    simp [h5]
  · simp only [hs, decide_false, if_false, Bool.false_and, unitStopped_taken] at h5 ⊢
    simp [h5]

/-- What a command that its register accepts answers. -/
theorem exec_issue {s : State} {path : Path} {r op u i : Nat} {v : W32} (h : Accepts s path r op u v i) (hr : r ∉ intakeRegs)
    (f : Nat → State → State) : done (act (issue path r op u v f) s) = .next (finish (f i (taken path r i v s))) := by
  rw [exec_act h.1.1, issue_accepts h hr]

/-- What a register write that reaches an instance answers. -/
theorem exec_regWrite {s : State} {path : Path} {off i : Nat} (h : Reaches s path off i) (v : W32) (f : Nat → Bool → State → State) :
    done (act (regWriteVia path off v f) s) = .next (finish (f i (unlocked s path) (useUnlock path s))) := by
  rw [exec_act h.1, regWriteVia_reaches h]

/-! The same, with the state that the effect is known to be -/

theorem exec_actTo {f : State → State} {s u : State} (h : alive s = true) (e : f s = u) : done (act f s) = .next (finish u) := by
  rw [exec_act h, e]

theorem exec_arriveTo {f : State → State} {port : Nat} {p : Packet} {s u : State} (h : Arrives s port p) (e : f s = u) : done (arrive port p f s) = .next (finish u) := by
  rw [exec_arrive h, e]

theorem exec_opRunTo {f : Nat → Nat → Desc → State → State} {q : QueueNum} {seq : W32} {op : Nat} {d : Desc} {s u : State} (h : Runs s q seq op d)
    (e : f q.toNat seq.toNat d s = u) : done (act (opRun q seq op f) s) = .next (finish u) := by
  rw [exec_opRun h, e]

theorem exec_issueTo {s u : State} {path : Path} {r op n i : Nat} {v : W32} (h : Accepts s path r op n v i) (hr : r ∉ intakeRegs)
    {f : Nat → State → State} (e : f i (taken path r i v s) = u) : done (act (issue path r op n v f) s) = .next (finish u) := by
  rw [exec_issue h hr, e]

theorem exec_regWriteTo {s u : State} {path : Path} {off i : Nat} {v : W32} (h : Reaches s path off i) {f : Nat → Bool → State → State}
    (e : f i (unlocked s path) (useUnlock path s) = u) : done (act (regWriteVia path off v f) s) = .next (finish u) := by
  rw [exec_regWrite h, e]

end Sys2Proof.Machine
end

