-- ==== Sys2Proof/Laws/Store.lean ====
section
/-! SUPPORT. What the operations on allocations, pages and store memory do. -/

namespace Sys2Proof.Machine

open Sys2Proof

theorem byteAt_congr {s t : State} (h : t.store.mem = s.store.mem) (a : Nat) : byteAt t a = byteAt s a := by simp [byteAt, h]

theorem allocOf_congr {s t : State} (h : t.store.allocs = s.store.allocs) (a : Nat) : allocOf t a = allocOf s a := by simp [allocOf, h]

theorem runHeldAll_nil (s : State) : runHeldAll [] s = s := rfl

/-- Moves for which no write is held end without another effect. -/
theorem abandonMoves_plain (p : Nat → Move → Bool) (s : State) (h : ∀ m ∈ s.store.moves, m.2.held = []) :
    abandonMoves p s = { s with store := { s.store with moves := s.store.moves.filter fun m => !p m.1 m.2 } } := by
  have key : ∀ (l : List (Nat × Move)) (t : State), (∀ m ∈ l, m.2.held = []) → l.foldl (fun s m => runHeldAll m.2.held s) t = t := by
    intro l
    induction l with
    | nil => intro t _; rfl
    | cons m l ih =>
      intro t hl
      rw [List.foldl_cons, hl m (by simp), runHeldAll_nil]
      exact ih t fun m hm => hl m (by simp [hm])
  exact key _ _ fun m hm => h m (List.mem_filter.1 hm).1

theorem pickLoc_frame (t : Nat) (s : State) : ∃ n, (pickLoc t s).2 = { s with fresh := n } := by
  unfold pickLoc
  split
  · exact ⟨s.fresh, rfl⟩
  · exact ⟨s.fresh, rfl⟩
  · exact ⟨_, rfl⟩

/-- Homing pages enters pages and draws free values, nothing else. -/
theorem homePages_frame (num : Nat) (ts : List Nat) : ∀ (pg : Nat) (s : State),
    ∃ ps n, homePages num pg ts s = { s with store := { s.store with pages := ps }, fresh := n } := by
  induction ts with
  | nil => exact fun pg s => ⟨s.store.pages, s.fresh, rfl⟩
  | cons t ts ih =>
    intro pg s
    obtain ⟨n, hn⟩ := pickLoc_frame t s
    rw [homePages]
    generalize hp : pickLoc t s = x at hn
    obtain ⟨l, s'⟩ := x
    dsimp only at hn ⊢
    subst hn
    exact ih _ _

theorem mget_filter_key {α : Type} (p : Nat → Bool) (k : Nat) (m : NMap α) : mget k (m.filter fun c => p c.1) = if p k then mget k m else none := by
  induction m with
  | nil => simp
  | cons e t ih =>
    obtain ⟨j, w⟩ := e
    by_cases h : p j = true
    · simp only [List.filter_cons, h, if_true]
      by_cases hj : j = k
      · subst hj; simp [mget, h]
      · simp only [mget, hj, if_false, ih]
    · simp only [List.filter_cons, h]
      by_cases hj : j = k
      · subst hj; simpa [h] using ih
      · simp only [mget, hj, if_false]; simpa using ih

/-- An erased range reads as zero, every other byte as before (R31). -/
theorem byteAt_eraseRange (lo n : Nat) (s : State) (a : Nat) : byteAt (eraseRange lo n s) a = if lo ≤ a ∧ a < lo + n then 0 else byteAt s a := by
  have e : (eraseRange lo n s).store.mem = s.store.mem.filter fun c => (decide (c.1 < lo) || decide (lo + n ≤ c.1)) := rfl
  rw [byteAt, mgetD, e, mget_filter_key (fun a => decide (a < lo) || decide (lo + n ≤ a))]
  by_cases h : lo ≤ a ∧ a < lo + n
  · rw [if_pos h, if_neg (by simp; omega)]; rfl
  · rw [if_neg h, if_pos (by simp; omega)]; rfl

theorem mget_mmapv {α : Type} (f : Nat → α → α) (k : Nat) (m : NMap α) : mget k (mmapv f m) = (mget k m).map (f k) := by
  induction m with
  | nil => rfl
  | cons e t ih =>
    obtain ⟨j, w⟩ := e
    by_cases h : j = k
    · subst h; simp [mmapv, mget]
    · simp only [mmapv, List.map_cons, mget, h, if_false] at ih ⊢
      exact ih

/-- BUSY of a command register that was set to b. -/
theorem setBusy_busy (r i : Nat) (b : Bool) (s : State) : fld (rget (setBusy r i b s) r i) 4 1 = b2n b := by
  rw [setBusy, rget_rsetFld_same, fld_setFld_same _ 4 1 _ (by omega)]
  cases b <;> rfl

/-- NUM and the other fields above STATUS stay at the end of a command. -/
theorem cmdEnd_num (r i : Nat) (st : Status) (s : State) (lo n : Nat) (h : 16 ≤ lo) : fld (rget (cmdEnd r i st s) r i) lo n = fld (rget s r i) lo n := by
  rw [cmdEnd, setBusy, rget_rsetFld_same, fld_setFld_above _ 4 1 _ lo n (by omega) (by omega), rget_rsetFld_same,
    fld_setFld_above _ 8 8 _ lo n (by omega) (by omega)]

end Sys2Proof.Machine
end

