-- ==== Sys2Proof/Laws/Desc.lean ====
section
/-! SUPPORT. What changes of a descriptor and of a queue do. -/

namespace Sys2Proof.Machine

open Sys2Proof

@[simp] theorem queueOf_queueSet_same (q : Nat) (f : Queue → Queue) (s : State) : queueOf (queueSet q f s) q = f (queueOf s q) := by
  simp [queueOf, queueSet]

theorem queueOf_queueSet_ne {q q' : Nat} (h : q ≠ q') (f : Queue → Queue) (s : State) : queueOf (queueSet q f s) q' = queueOf s q' := by
  simp [queueOf, queueSet, mgetD_mput_ne h]

theorem queueOf_congr {s t : State} (h : t.eng.queues = s.eng.queues) (q : Nat) : queueOf t q = queueOf s q := by simp [queueOf, h]

theorem descOf_congr {s t : State} (h : t.eng.queues = s.eng.queues) (q seq : Nat) : descOf t q seq = descOf s q seq := by
  simp [descOf, queueOf_congr h]

theorem find_replaceFirst (seq : Nat) (f : Desc → Desc) (hf : ∀ d, d.seq = seq → (f d).seq = seq) (l : List Desc) :
    (replaceFirst (fun d => d.seq == seq) f l).find? (fun d => d.seq == seq) = (l.find? fun d => d.seq == seq).map f := by
  induction l with
  | nil => rfl
  | cons d l ih =>
    by_cases h : d.seq = seq
    · simp [replaceFirst, h, hf d h]
    · simp [replaceFirst, h, ih]

theorem find_replaceFirst_ne {seq seq' : Nat} (h : seq ≠ seq') (f : Desc → Desc) (hf : ∀ d, d.seq = seq → (f d).seq = seq) (l : List Desc) :
    (replaceFirst (fun d => d.seq == seq) f l).find? (fun d => d.seq == seq') = l.find? fun d => d.seq == seq' := by
  induction l with
  | nil => rfl
  | cons d l ih =>
    by_cases h1 : d.seq = seq
    · simp [replaceFirst, h1, hf d h1, h]
    · have h1' : (d.seq == seq) = false := by simpa using h1
      rw [replaceFirst, h1']
      by_cases h2 : (d.seq == seq') = true
      · simp [List.find?, h2]
      · have h2' : (d.seq == seq') = false := by simpa using h2
        rw [if_neg Bool.false_ne_true, List.find?_cons, List.find?_cons, h2', ih]

/-- A change of a descriptor that keeps its number changes what its number names. -/
theorem descOf_descMod (q seq : Nat) (f : Desc → Desc) (hf : ∀ d, d.seq = seq → (f d).seq = seq) (s : State) :
    descOf (descMod q seq f s) q seq = (descOf s q seq).map f := by
  rw [descOf, descMod, queueOf_queueSet_same]
  exact find_replaceFirst seq f hf _

theorem descOf_descMod_ne {q seq q' seq' : Nat} (h : q ≠ q' ∨ seq ≠ seq') (f : Desc → Desc) (hf : ∀ d, d.seq = seq → (f d).seq = seq) (s : State) :
    descOf (descMod q seq f s) q' seq' = descOf s q' seq' := by
  by_cases hq : q = q'
  · subst hq
    rw [descOf, descMod, queueOf_queueSet_same]
    exact find_replaceFirst_ne (h.resolve_left fun x => x rfl) f hf _
  · rw [descOf, descMod, queueOf_queueSet_ne hq, descOf]

theorem descOf_seq {s : State} {q seq : Nat} {d : Desc} (h : descOf s q seq = some d) : d.seq = seq := by
  have := List.find?_some h
  simpa using this

/-- An operation that has run to its end keeps its statuses and reports its COUNT; one that had ended before keeps what it had. -/
theorem descOf_opEnd {s : State} {q seq : Nat} {d : Desc} (h : descOf s q seq = some d) (n : Nat) :
    descOf (opEnd q seq n s) q seq = some (if d.stage = .started ∨ d.stage = .waiting then { d with count := n, stage := .ran } else d) := by
  have e := descOf_descMod q seq (fun d : Desc => if d.stage = .started ∨ d.stage = .waiting then { d with count := n, stage := .ran } else d)
    (fun d hd => by split <;> exact hd) s
  rw [h] at e
  exact e

theorem opEnd_frame (q seq n : Nat) (s : State) : (opEnd q seq n s).store = s.store ∧ (opEnd q seq n s).regs = s.regs ∧ (opEnd q seq n s).ord = s.ord :=
  ⟨rfl, rfl, rfl⟩

/-- What follows a read of operands runs once they are read. -/
theorem withBytes_reads {q seq : Nat} {rs : List (Nat × Nat)} {s s1 : State} {d1 : Desc} (h1 : opFetch q seq rs s = (true, s1))
    (h2 : descOf s1 q seq = some d1) (f : Desc → State → State) : withBytes q seq rs f s = f d1 s1 := by
  rw [withBytes, h1]
  simp only [h2]

end Sys2Proof.Machine
end

