-- ==== Sys2Proof/WellFormed.lean ====
section
/-! DEFINITION. Which commands are well formed: operands whose lengths agree with what they spell. -/

namespace Sys2Proof

/-- A packet as Table 10-4 lays it out: at most 4,096 bytes of payload, LEN their count (for RD, type 1, the bytes asked for), a
POISON mask on a WR (type 2) only, bits 63:50 of ADDR 0 except in RSP and ACK (R21), a CRC-32C only with E2E. The poison of a line that Data, WrBack,
WrBackS or RecallAck brings stands in `pois` too (log entry 85). -/
def Packet.wf (p : Packet) : Bool :=
  decide (p.len.toNat ≤ 4096)
    && (if p.type = 1 then p.payload.isEmpty else p.payload.length == p.len.toNat)
    && (!p.pmask || p.type == 2) && (p.pmask || p.pois == 0 || [0x23, 0x24, 0x2C, 0x2F].contains p.type.toNat)
    && (p.addr.toNat < 2 ^ 50 || p.type == 0x10 || p.type == 0x11) && (p.e2e || p.crc == 0)

/-- A host access reads or writes at least one byte and at most 4,096 (R398). -/
def HostOp.wf : HostOp → Bool
  | .read n => decide (0 < n.val)
  | .write d => decide (0 < d.length) && decide (d.length ≤ 4096)
  | _ => true

/-- A register access carries 1 to 64 bytes; its meaning turns away and counts what is not 4 or 8 aligned bytes (R448). -/
def regAccessWf (data : List Byte) : Bool := decide (0 < data.length) && decide (data.length ≤ 64)

/-- Whether a command's operands agree. -/
def Instr.wf : Instr → Bool
  | .doorbell _ p => p.wf && p.type == 6
  | .rd _ p _ _ => p.wf && p.type == 1
  | .wr _ p _ => p.wf && p.type == 2
  | .atomic _ p _ => p.wf && p.type == 3
  | .cue _ p => p.wf && p.type == 4
  | .tallyWr _ p => p.wf && p.type == 5
  | .own _ p => p.wf && p.type == 7
  | .event _ p => p.wf && p.type == 8
  | .claim _ p | .offer _ p | .accept _ p | .cancel _ p | .ledgerRelease _ p | .ledgerQuery _ p => p.wf && p.type == 9
  | .rsp _ p => p.wf && p.type == 0x10
  | .ack _ p => p.wf && p.type == 0x11
  | .retry _ p => p.wf && p.type == 0x12
  | .rdShared _ p _ => p.wf && p.type == 0x20
  | .rdOwn _ p _ => p.wf && p.type == 0x21
  | .upgrade _ p _ => p.wf && p.type == 0x22
  | .wrBack _ p _ => p.wf && p.type == 0x23
  | .wrBackS _ p _ => p.wf && p.type == 0x24
  | .evict _ p _ => p.wf && p.type == 0x25
  | .recallInv _ p => p.wf && p.type == 0x28
  | .recallShare _ p => p.wf && p.type == 0x29
  | .data _ p => p.wf && p.type == 0x2C
  | .cmp _ p => p.wf && p.type == 0x2D
  | .grantAck _ p => p.wf && p.type == 0x2E
  | .recallAck _ p => p.wf && p.type == 0x2F
  | .lend _ p => p.wf && p.type == 0x30
  | .notice _ p => p.wf && p.type == 0x31
  | .release _ p => p.wf && p.type == 0x32
  | .lost _ p => p.wf && p.type == 0x33
  | .walkReq _ p => p.wf && p.type == 0x34
  | .mgmtRd _ p => p.wf && p.type == 0x38
  | .mgmtWr _ p => p.wf && p.type == 0x39
  | .packetForward _ p => p.wf
  | .flitReceive _ f => f.length == 256
  | .memWr _ _ _ d _ _ _ _ => d.length == 64
  | .bar2Access _ _ op => op.wf
  | .proxyBarAccess _ _ op => op.wf
  | .registerWrite _ _ d => regAccessWf d
  | .memoryTrained _ ddr flash _ => decide (ddr.length ≤ 12) && ddr.all (fun g => decide (g ≤ 256)) && decide (flash ≤ 256)
  | .clocksLocked _ => true
  | _ => true

end Sys2Proof
end

