-- ==== Sys2Proof/Tests/Slice0.lean ====
section
/-! SUPPORT. Tests: the refusals of the well-formedness check, the registers and codes a few words of the spec give, single commands on small
states, and for every statement with hypotheses a named state and operands that meet them. -/

namespace Sys2Proof.Tests

open Sys2Proof Sys2Proof.Machine

set_option Elab.async false

/-! Small states -/

/-- Registers set one after the other: offset, instance, value. -/
def regsOn (l : List (Nat × Nat × W32)) (s : State) : State := l.foldl (fun s x => rset x.1 x.2.1 x.2.2 s) s

/-- An image with two partitions, both lending tiers, one virtual function on port 0. -/
def hubImage : Image :=
  { scriptId := 1, endpoint := 5, parts := 2, reelOff := 0, workKib := 1, dircacheMib := 0, sortKib := 0, beamKib := 0, dirGib := 0, ptMib := 1, stagingMib := 1,
    hostTier := true, loanTier := true, replMib := 1, portSplit := 0, pfLog := [0, 0], vfLog := [0, 0], totalVfs := [1, 0], cxlEn := [true, true], fmEps := [],
    routes := [], bump := false, svn := 0, digest := 0, fromStaged := false }

def sto (f : Store → Store) (s : State) : State := { s with store := f s.store }
def rws (f : Rows → Rows) (s : State) : State := { s with rows := f s.rows }
def eng (f : Engines → Engines) (s : State) : State := { s with eng := f s.eng }
def ord (f : Order → Order) (s : State) : State := { s with ord := f s.ord }
def coh (f : Coh → Coh) (s : State) : State := { s with coh := f s.coh }
def fab (f : Fabric → Fabric) (s : State) : State := { s with fab := f s.fab }
def hst (f : HostSide → HostSide) (s : State) : State := { s with host := f s.host }
def mgm (f : Mgmt → Mgmt) (s : State) : State := { s with mgmt := f s.mgmt }
def rlb (f : Rel → Rel) (s : State) : State := { s with rel := f s.rel }

/-- A hub at a boot stage, endpoint 5, with two partitions and room in every tier of its own. -/
def hubAt (stage : W32) (l : List (Nat × Nat × W32)) : State :=
  regsOn ([(Reg.bootStatus, 0, stage), (Reg.fabId, 0, 5), (Reg.partCfg, 0, 2)] ++ l)
    { State.reset with
      boot := { Boot.reset with pwrok := true, image := some hubImage }
      store := { Store.reset with caps := [1, 8, 8, 8, 8, 8] } }

/-- A READY hub. -/
def hub (l : List (Nat × Nat × W32)) : State := hubAt 7 l

/-- Physical function of port 0. -/
def pf0 : Path := .pf 0

/-- Allocation 0: two HBM pages of partition 0 from page 0. -/
def al0 : Alloc :=
  { part := 0, base := 0, pages := 2, flags := 2, wide := none, wideFmt := 0, wideSoff := 0, widened := false, reverting := false, fails := [0], draining := false }

/-- The hub with allocation 0, changed, and its pages. -/
def withAl (f : Alloc → Alloc) (s : State) : State :=
  sto (fun t => { t with allocs := [(0, f al0)], pages := [(0, Page.new 0 1 .plain), (1, Page.new 0 1 .plain)] }) s

/-- A hub with allocation 0 as it stands. -/
def hub0 : State := withAl id (hub [])

/-- A packet of a type from an endpoint to this hub. -/
def pkt (type src : Nat) (addr arg : W64) (payload : List Byte) : Packet :=
  { mkPacket (hub []) type 5 addr arg payload with src := BitVec.ofNat 18 src }

/-- Port 3 is up towards endpoint 6, with credit in every class, and is the path to it. -/
def upPort : Port := { Port.down with up := true, width := 8, peer := some 6, credits := List.replicate 8 100 }
def net (s : State) : State := fab (fun f => { f with ports := [(3, upPort)], member := [(6, (0x1000003, 0))] }) s
/-! Witnesses: allocations, projectors, widening, extents, moves -/

theorem wit_StepRunsFrontCommand : ({ hub [] with pending := [.resetN, .slowTickEdge] } : State).pending = .resetN :: [.slowTickEdge] := rfl

def sCreate : State := hub [(Reg.allocSize, 0, 2), (Reg.allocFlags, 0, 2), (Reg.tierQuota + 4, 0, 8)]
def sCreate1 : State := taken pf0 Reg.allocCmd 0 1 sCreate

theorem wit_AllocationCommands_create : Accepts sCreate pf0 Reg.allocCmd 1 1 1 0 ∧ rangeOk sCreate1 (allocBase sCreate1 0) (rfld sCreate1 Reg.allocSize 0 0 29) = true ∧
    flagsBad (clearMask sCreate1 (rget sCreate1 Reg.allocFlags 0)) (wideNum sCreate1 0).isSome = false ∧ wideBad sCreate1 0 2 = false ∧
    fProject (clearMask sCreate1 (rget sCreate1 Reg.allocFlags 0)) = false ∧ sCreate1.store.allocs.length < 65536 ∧
    2 ≤ (pageTiers sCreate1 0 (clearMask sCreate1 (rget sCreate1 Reg.allocFlags 0)) 2).length := by
  unfold Accepts Reaches; decide +kernel

theorem wit_AllocationCommands_rest : Accepts hub0 pf0 Reg.allocCmd 2 1 2 0 ∧ rfld (taken pf0 Reg.allocCmd 0 2 hub0) Reg.allocCmd 0 16 16 = 0 ∧
    allocOf hub0 0 = some al0 ∧ hub0.store.moves = [] ∧
    (let s := withAl (fun a => { a with draining := true }) (hub [(Reg.allocCmd, 0, 0x12)])
     alive s = true ∧ allocOf s 0 = some { al0 with draining := true } ∧ allocInUse s { al0 with draining := true } = false ∧ cmdBusy s Reg.allocCmd 0 = true ∧
       rfld s Reg.allocCmd 0 16 16 = 0) ∧
    (let s := withAl id (hub [(Reg.allocFlags, 0, 6)])
     let s1 := taken pf0 Reg.allocCmd 0 3 s
     Accepts s pf0 Reg.allocCmd 3 1 3 0 ∧ allocOf s 0 = some al0 ∧ (clearMask s1 (rget s1 Reg.allocFlags 0) ^^^ al0.flags) &&& ~~~setFlagsMay = 0 ∧
       flagsBad (clearMask s1 (rget s1 Reg.allocFlags 0)) (wideNum s1 0).isSome = false ∧ wideBad s1 0 (clearMask s1 (rget s1 Reg.allocFlags 0)) = false) := by
  unfold Accepts Reaches; decide +kernel

/-- A projector of two layers with a window of one slot, and tallies 1 and 2 of partition 0. -/
def pr0 : Proj :=
  { tableOff := 0, layers := [(0, 64), (64, 64)], window := 1, slotPages := 1, winTier := 1, consumers := 1, readyTally := 1, doneTally := 2, k := 0, copying := false,
    running := true, reserved := true, resident := [] }
def sProj (p : Proj) : State :=
  sto (fun t => { t with projs := [(0, p)], mem := [(0, 0), (8, 64), (16, 64), (24, 64)].filter fun c => c.2 != 0 })
    (withAl id (hub [(Reg.tallyAssign, 1, 0x80000000), (Reg.tallyAssign, 2, 0x80000000)]))

theorem wit_ProjectorCommands :
    (Accepts (sProj pr0) pf0 Reg.allocCmd 5 1 5 0 ∧ rfld (taken pf0 Reg.allocCmd 0 5 (sProj pr0)) Reg.allocCmd 0 16 16 = 0 ∧ allocOf (sProj pr0) 0 = some al0 ∧
      mget 0 (sProj pr0).store.projs = some pr0) ∧
    (let p := { pr0 with running := false }
     let s1 := taken pf0 Reg.allocCmd 0 4 (sProj p)
     Accepts (sProj p) pf0 Reg.allocCmd 4 1 4 0 ∧ (readLayers 0 0 2 (projNamed 0 0 s1)).1 = some [(0, 64), (64, 64)] ∧ layersBad [(0, 64), (64, 64)] 2 = false ∧
       slotPagesOf [(0, 64), (64, 64)] ≤ 1) ∧
    (mget 0 (sProj pr0).store.projs = some pr0 ∧ ¬pr0.window ≤ pr0.k) ∧
    (let p := { pr0 with k := 1 }
     let s := ord (fun o => { o with tallies := [(2, 1)] }) (sProj p)
     p.window ≤ p.k ∧ tallyPart s 2 = some 0 ∧ reached (tallyVal s 2) (w32 (1 * (1 - 1 + 1))) = true) ∧
    (let p := { pr0 with copying := true }
     alive (sProj p) = true ∧ mget 0 (sProj p).store.projs = some p ∧ tallyPart (sProj p) 1 = some 0) := by
  unfold Accepts Reaches; decide +kernel

theorem wit_QuotaAndWidening :
    (Reaches hub0 pf0 (Reg.tierQuota + 4 * 0) 0 ∧ Reaches hub0 pf0 (Reg.tierQuota + 4 * 5) 0) ∧ Reaches hub0 pf0 Reg.wideCtl 0 ∧
    (let a := { al0 with flags := 0x802, fails := [0, 3], wide := some 1 }
     let s := withAl (fun _ => a) (hub [(Reg.beWiden, 0, 0x10003)])
     alive s = true ∧ allocOf s 0 = some a ∧ fWidenOk a.flags = true ∧ rfld s Reg.beWiden 0 0 16 ≠ 0 ∧ unitStopped s 1 (some 0) = false ∧
       rfld s Reg.beWiden 0 0 16 ≤ ((a.fails.drop 1).take (max 1 (rfld s Reg.beWiden 0 16 8))).sum) := by
  unfold Reaches; decide +kernel

def ext0 : Extent := { lender := 0, addr := 0, pages := 4, noticeMs := 100, withdrawn := true, edges := 150, released := false }
def sExt (x : Extent) : State := sto (fun t => { t with extents := [(.host 0 63, x)] }) (hub [])

theorem wit_LentExtentCommands :
    (let s := hub [(Reg.hostxSize, 0, 4), (Reg.hostxNotice, 0, 10000)]
     let s1 := taken pf0 Reg.hostxCmd 0 1 s
     Accepts s pf0 Reg.hostxCmd 1 1 (1 &&& 0xFFFFFFFB) 0 ∧ tierDisabled s1 4 = false ∧ rfld s1 Reg.hostxSize 0 0 28 ≠ 0 ∧ rfld s1 Reg.hostxNotice 0 0 14 ≤ 10000 ∧
       extOf s1 (hostxExt s1) = none) ∧
    (let x := { ext0 with withdrawn := false }
     let s1 := taken pf0 Reg.hostxCmd 0 (0x3F0002 &&& 0xFFFFFFFB) (sExt x)
     Accepts (sExt x) pf0 Reg.hostxCmd 2 noUnit (0x3F0002 &&& 0xFFFFFFFB) 0 ∧ extOf s1 (hostxExt s1) = some x) ∧
    (alive (sExt ext0) = true ∧ extOf (sExt ext0) (.host 0 63) = some ext0 ∧ (extPages (sExt ext0) (.host 0 63)).isEmpty = true ∧
      (sExt ext0).store.oldLocs = []) ∧
    noticeOver (sExt ext0) (.host 0 63) ext0 = true ∧ noticeOver (sExt ext0) (.host 0 63) { ext0 with edges := 149 } = false := by
  unfold Accepts Reaches; decide +kernel

def mv0 : Move :=
  { srcTier := 1, srcLoc := .plain, dstTier := 2, dstLoc := .plain, kind := .placement, pass := 1, dirty := [], ready := false, heldPass := false, held := [], retried := false }
def sMove (m : Move) : State := sto (fun t => { t with moves := [(1, m)] }) hub0

theorem wit_PageMoveEvents :
    (alive (sMove mv0) = true ∧ mget 1 (sMove mv0).store.moves = some mv0) ∧
    (let m := { mv0 with dirty := [3], pass := 2 }
     mget 1 (sMove m).store.moves = some m ∧ m.ready = false ∧ m.dirty ≠ [] ∧ m.pass < 3) ∧
    (let m := { mv0 with dirty := [3], pass := 3, kind := .evac }
     mget 1 (sMove m).store.moves = some m ∧ m.ready = false ∧ 3 ≤ m.pass ∧ m.kind.forced = true) ∧
    (let m := { mv0 with dirty := [3], pass := 3 }
     mget 1 (sMove m).store.moves = some m ∧ m.kind.forced = false ∧ ∀ x ∈ (sMove m).store.moves, x.2.held = []) ∧
    (let m := { mv0 with dirty := [3], pass := 3, heldPass := true }
     mget 1 (sMove m).store.moves = some m ∧ m.heldPass = true) ∧
    (let m := { mv0 with ready := true }
     mget 1 (sMove m).store.moves = some m ∧ m.ready = true) := by
  decide +kernel

def rm0 : RowMove := { table := 0, row := 3, toSlot := true, tier := 1, copies := 1, disturbed := false, ready := false }
def sRow (m : RowMove) : State := rws (fun r => { r with moves := [(rowKey 0 3, m)] }) (hub [])

theorem wit_RowMoveEvents :
    (alive (sRow rm0) = true ∧ mget (rowKey 0 3) (sRow rm0).rows.moves = some rm0 ∧ rm0.ready = false ∧ rm0.disturbed = false) ∧
    (let m := { rm0 with disturbed := true, copies := 2 }
     mget (rowKey 0 3) (sRow m).rows.moves = some m ∧ m.copies < 3) ∧
    (let m := { rm0 with disturbed := true, copies := 3 }
     mget (rowKey 0 3) (sRow m).rows.moves = some m ∧ 3 ≤ m.copies) ∧
    (let m := { rm0 with ready := true }
     mget (rowKey 0 3) (sRow m).rows.moves = some m ∧ m.ready = true) := by
  decide +kernel

/-! Witnesses: rows and replicas, queues, descriptors -/

/-- Bytes of little-endian quadwords. -/
def qws (l : List Nat) : List Byte := l.flatMap (leBytes 8)

/-- An image of eight quadwords for a table of 16 rows: N members, this hub member SELF. -/
def tblIm (n self : Nat) : List Byte := qws [0, n * 2 ^ 36 + self * 2 ^ 46, 16, 0, 0, 0, 0, 0]
def tbl0 (n self mode : Nat) : Table := { part := 0, image := tblIm n self, mode := mode, stale := false, banned := [], ending := false, users := [] }
def sTbl (t : Table) : State :=
  rws (fun r => { r with on := true, replMax := 4 }) (eng (fun e => { e with tables := [(1, t)] }) (withAl id (hub [(Reg.tierQuota + 4, 0, 8)])))
def rep0 : Replica := { table := 1, row := 15, part := 0, tier := 1, data := [0, 0], pois := [], filled := false, coldTicks := 0, retiring := false }

theorem wit_ReplicaEvents :
    (let t := tbl0 2 1023 2
     let s := sTbl t
     let r : Nat → Replica := fun x => { rep0 with tier := x, data := List.replicate (rowWidth t.image) 0 }
     let put := fun x => rws (fun w => { w with replicas := mset (keyOf 1 15) (r x) s.rows.replicas }) s
     let fits := fun x => occ (put x) 0 x ≤ quota s 0 x ∧ tierUsed (put x) x ≤ tierCap s x
     alive s = true ∧ mget (keyOf 1 15 / 2 ^ 40) s.eng.tables = some t ∧ keyOf 1 15 % 2 ^ 40 < tblRows t.image ∧ (5 : Endpoint).toNat = selfEp s ∧
       (tblMember t.image && rowOwner t.image (keyOf 1 15 % 2 ^ 40) == tblSelf t.image) = false ∧ mhas (keyOf 1 15) s.rows.replicas = false ∧
       s.rows.replicas.length < replicaLimit ∧ fits 1 ∧ ¬fits 0) ∧
    (let t := tbl0 1 0 2
     let s := sTbl t
     mget (keyOf 1 15 / 2 ^ 40) s.eng.tables = some t ∧ keyOf 1 15 % 2 ^ 40 < tblRows t.image ∧ (6 : Endpoint).toNat ≠ selfEp s ∧
       (tblMember t.image && rowOwner t.image (keyOf 1 15 % 2 ^ 40) == tblSelf t.image) = true ∧ s.rows.granted = [] ∧ 0 < s.rows.replMax ∧ placeStopped s 0 = false ∧
       s.rows.on = true ∧ mhas (keyOf 1 15) s.rows.moves = false ∧
       (s.eng.queues.find? fun q => q.2.inKernel && ((q.2.bset.any fun b => b.1 == 1) || q.2.descs.any fun d => d.opcode == 0x21 && d.f 1 0 14 == 1
         && [DescStage.started, .waiting, .ran].contains d.stage)) = none ∧
       mhas (keyOf 1 15) (rws (fun w => { w with moves := [(rowKey 1 15, { table := 1, row := 15, toSlot := true, tier := 1, copies := 1, disturbed := false, ready := false })] }) s).rows.moves = true ∧
       ((eng (fun e => { e with queues := [(0, { Queue.idle with inKernel := true, bset := [(1, 3)] })] }) s).eng.queues.find? fun q =>
         q.2.inKernel && q.2.bset.any fun b => b.1 == 1) = some (0, { Queue.idle with inKernel := true, bset := [(1, 3)] })) ∧
    mget (keyOf 1 15) [(keyOf 1 15, rep0)] = some rep0 ∧ rep0.filled = false ∧
    (let r : PfRange := { part := 0, pages := [1], ticks := 16 }
     [{ r with ticks := 15 }, r].find? (fun r => decide (16 ≤ r.ticks)) = some r) := by
  decide +kernel

theorem wit_SlowTickRefreshesCopies : alive (hub []) = true ∧
    rkey Reg.pktDropped 0 ∉ (gaugeStore (hub []) ++ gaugeEngines (draw (hub [])).1 (hub []) ++ gaugeFabric (hub []) ++ gaugeRel (hub [])).map Prod.fst ∧
    rkey Reg.pktDropped 0 ∉ (gaugeSensors (draw (hub [])).1 (hub [])).map Prod.fst := by
  decide +kernel

/-- Queue 0 in slot 63 of partition 0, enabled, with ASID 1, a ring of 64 and one doorbell of 1. -/
def qRegs : List (Nat × Nat × W32) :=
  [(slotReg Reg.dqMap 63, 0, 0x80000000), (slotReg Reg.dqCfg 63, 0, 0x100006), (slotReg Reg.dqCtl 63, 0, 1), (slotReg Reg.dqDoorbell 63, 0, 1), (Reg.asidCfg, 1, 0x80000000)]
/-- A queue with descriptors. -/
def sQ (l : List (Nat × Nat × W32)) (ds : List Desc) : State :=
  eng (fun e => { e with queues := [(0, { Queue.idle with descs := ds, inKernel := true })] }) (withAl id (hub (qRegs ++ l)))
/-- A descriptor of an opcode and arithmetic byte with its quadwords 1 to 7, at a stage. -/
def dsc (op : Nat) (ws : List Nat) (st : DescStage) : Desc := { newDesc 0 1 0 0 with bytes := qws (op :: ws ++ List.replicate (7 - ws.length) 0), stage := st }

theorem wit_QueueRegisterCommands :
    (let s := sQ [] []
     Reaches s pf0 (slotReg Reg.dqDoorbell 63) 0 ∧ Reaches s pf0 (slotReg Reg.dqDoorbell 0) 0 ∧ intakeStopped s 0 = false ∧ doorbellBad s 0 63 64 = false ∧ doorbellBad s 0 63 65 = true ∧
       Reaches s pf0 (slotReg Reg.dqCtl 63) 0 ∧ slotQueue s 0 63 = some 0 ∧ Reaches s pf0 (slotReg Reg.dqCqHead 63) 0 ∧ (cqTail s 0 63 - 0).toNat ≤ ringDepth s 0 63) ∧
    (let s := sQ [(slotReg Reg.dqCtl 63, 0, 0)] []
     slotQueue s 0 63 = some 0 ∧ dqEnabled s 0 63 = false ∧ queueIdle s 0 = true ∧ Reaches s pf0 (slotReg Reg.dqMap 63) 0 ∧ queueSlot s (fld (0x80000001 : W32) 0 12) = none ∧
       queueSlot s (fld (0x80000000 : W32) 0 12) = some (0, 63) ∧ reelOff s 0 = false) ∧
    (let s := sQ [] []
     let p := pkt tDOORBELL 6 0 (w64 (64 * 2 ^ 32)) []
     Arrives s 0 p ∧ storeWaits s 6 = false ∧ s.ord.bells = [] ∧ (ord (fun o => { o with bells := [p] }) s).ord.bells.any (fun q => q.src == p.src) = true ∧ fatal s = false ∧ queueSlot s (fld p.arg 0 12) = some (0, 63) ∧ fkey s 0 = p.key ∧ unitStopped s 8 (some 0) = false ∧
       doorbellBad s 0 63 (w32 (fld p.arg 32 32)) = false ∧ doorbellBad s 0 63 (w32 (fld (w64 (65 * 2 ^ 32)) 32 32)) = true) := by
  unfold Reaches Arrives; decide +kernel

def rec0 : Record := { tag := 0, status := .ok, opcode := 3, seq := 0, count := 0, detail := 0, audited := 0, failed := 0, nf := 0, notify := none }
def pteStage : Pte := { size := 0, kind := 1, r := true, w := true, pin := true, sh := false, migrated := false, tgt := stageBase, shd := 0, hostTgt := 0 }

theorem wit_DescriptorLife :
    (let s := sQ [] []
     queueSlot s 0 = some (0, 63) ∧ ((queueOf s 0).descs.find? fun d => d.stage == DescStage.fetching) = none ∧ reelQueues s 0 (mayFetch s) = [(0, 0)] ∧
       (fetchPick s 0).1 = some (0, 0)) ∧
    (let d := dsc 3 [] .fetching
     let s := sQ [] [d]
     ((queueOf s 0).descs.find? fun d => d.stage == DescStage.fetching) = some d ∧ descOf s 0 d.seq = some d ∧ descReading s 0 d.seq = false ∧ d.statuses = [] ∧
       d.remotePoison = []) ∧
    (let d := dsc 3 [] .fetched
     let s := sQ [] [d]
     descOf s 0 0 = some d ∧ mayStart s 0 0 63 d = true ∧ reelQueues s 0 (hasStart s) = [(0, 0)] ∧ (startPick s 0).1 = some (0, 0) ∧
       (queueOf s 0).inKernel = true ∧ s.mgmt.stopped = [] ∧ (startCheck s { d with asid := 1 }).bad = [] ∧
       (startCheck s { d with asid := 1 }).own = false ∧ (startCheck s { d with asid := 2 }).own = true ∧
       (startCheck s { d with bytes := qws [0x7F, 0, 0, 0, 0, 0, 0, 0] }).bad ≠ []) ∧
    (let d := dsc 3 [] .ran
     let s := sQ [] [d]
     queueSlot s 0 = some (0, 63) ∧ descOf s 0 0 = some d ∧ awaitsWrites { d with bytes := qws [1, 0, 0, 0, 0, 0, 0, 0] } = true ∧ descWriting s 0 0 = false ∧ ∀ e ∈ (queueOf s 0).descs.takeWhile (fun e => e.seq != 0), e.stage = .completed ∨ e.opcode ≠ 0x04) ∧
    (let d := dsc (3 + 4 * 2 ^ 16 + 7 * 2 ^ 32) [] .completed
     let s := sQ [(Reg.tallyAssign, 7, 0x80000000)] [d]
     ((queueOf s 0).descs.find? fun d => d.stage == DescStage.completed && d.seq % 2 ^ 32 == 0 && d.doneEn && !descWriting s 0 d.seq) = some d ∧ d.doneTally = 7 ∧
       notOurs s d.part d.doneTally = false) := by
  decide +kernel

def sRec : State :=
  hst (fun h => { h with ptes := [(pteKey 1 0, pteStage)] }) (eng (fun e => { e with queues := [(0, { Queue.idle with owed := [rec0] })] }) (hub qRegs))

theorem wit_DescriptorLife_record : alive sRec = true ∧ queueSlot sRec 0 = some (0, 63) ∧ (queueOf sRec 0).owed = [rec0] ∧ recordSent sRec 0 = false ∧ cqFull sRec 0 63 = false ∧
    asidPart sRec (ringAsid sRec 0 63) = some 0 ∧ vaHeld sRec 1 0 32 = false ∧
    (let r := putPiece (.ring 0 none) 0 1 0 { bs := recordBytes 0 true rec0, pois := [], tally := none, e2e := false } sRec
     r.1 = .done .ok ∧ queueSlot r.2 0 = some (0, 63)) := by
  refine ⟨by decide +kernel, by decide +kernel, by decide +kernel, by decide +kernel, by decide +kernel, by decide +kernel, by decide +kernel, ?_⟩
  cases hb : (Config.freeWord sRec.fresh).getLsbD 0 <;> simp only [putPiece, xlate, drawBit, hb] <;> decide +kernel

/-- Bytes beside a descriptor from a virtual address. -/
def beside (va : Nat) (bs : List Byte) (d : Desc) : Desc := { d with remote := d.remote ++ bs.zipIdx.map fun b => (va + b.2, b.1) }

/-- What a running descriptor reads stands beside it. -/
def Held (s : State) (q : QueueNum) (seq : W32) (rs : List (Nat × Nat)) (d1 : Desc) : Prop :=
  (opFetch q.toNat seq.toNat rs s).1 = true ∧ descOf (opFetch q.toNat seq.toNat rs s).2 q.toNat seq.toNat = some d1

theorem reads_of_held {s : State} {q : QueueNum} {seq : W32} {rs : List (Nat × Nat)} {d1 : Desc} (h : Held s q seq rs d1) :
    Reads q seq rs s d1 (opFetch q.toNat seq.toNat rs s).2 := ⟨Prod.ext h.1 rfl, h.2⟩

def dCopy : Desc := beside 0x1000 [1, 2, 3, 4] (dsc 1 [0x1000, 0x2000, 4] .started)

theorem wit_ControlOperations :
    (Runs (sQ [] [dCopy]) 0 0 1 dCopy ∧ (unitPieces (dCopy.w 1) (copyLen dCopy)).drop dCopy.step = [(0, 0, 4)] ∧ vaHeld (sQ [] [dCopy]) dCopy.asid (dCopy.w 2 + 0) 4 = false ∧
      Held (sQ [] [dCopy]) 0 0 [(dCopy.w 1 + 0, 4)] dCopy) ∧
    (let d := { dCopy with step := 1 }
     Runs (sQ [] [d]) 0 0 1 d ∧ (unitPieces (d.w 1) (copyLen d)).drop d.step = []) ∧
    (let d := dsc 2 [0x1000, 8] .started
     Runs (sQ [] [d]) 0 0 2 d ∧ vaHeld (sQ [] [d]) d.asid (d.w 1) (fillLen d) = false) ∧
    Runs (sQ [] [dsc 3 [] .started]) 0 0 3 (dsc 3 [] .started) ∧
    (let d := dsc 4 [] .started
     Runs (sQ [] [d]) 0 0 4 d ∧ (queueOf (sQ [] [d]) 0).bset = [] ∧ descWriting (sQ [] [d]) 0 0 = false) ∧
    (let d := dsc 6 [] .started
     Runs (sQ [] [d]) 0 0 6 d ∧ d.f 1 16 1 = 0) ∧
    (let d := dsc 6 [0x10000 + 6 * 2 ^ 32, 1] .started
     let s := net (sQ [] [d])
     Runs s 0 0 6 d ∧ d.f 1 16 1 ≠ 0 ∧ (sendReq (mkReq { mkPacket s tTALLY (d.f 1 32 18) 0 (w64 (d.f 1 0 16 + d.f 2 0 32 * 65536)) [] with key := fkey s d.part } none 0 d.part
        (.descWrite 0 0 0 none)) s).1 = .gone) := by
  unfold Runs Held; decide +kernel

theorem wit_TallyWaits :
    (let d := dsc 5 [7 + 1 * 2 ^ 32] .started
     Runs (sQ [] [d]) 0 0 5 d ∧ reached (tallyVal (sQ [] [d]) (d.f 1 0 16)) (w32 (d.f 1 32 32)) = false ∧
       reached (tallyVal (ord (fun o => { o with tallies := [(7, 1)] }) (sQ [] [d])) (d.f 1 0 16)) (w32 (d.f 1 32 32)) = true) ∧
    (let d := { dsc 5 [7] .waiting with step := 1 }
     let s := sQ [] [d]
     descOf s 0 0 = some d ∧ descTally s d = some (7, 0) ∧ reached (tallyVal s 7) 0 = true ∧ d.opcode = 0x05) ∧
    (let d := { dsc 0x13 [0, 0, 7 * 2 ^ 32] .waiting with step := 1 }
     let s := sQ [] [d]
     descOf s 0 0 = some d ∧ descTally s d = some (7, 0) ∧ reached (tallyVal s 7) 0 = true ∧ d.opcode ≠ 0x05) ∧
    (let d := { dsc 5 [7 + 1 * 2 ^ 32] .waiting with step := 1, waitLimit := 3, waitEdges := 3 }
     let s := sQ [] [d]
     descOf s 0 0 = some d ∧ (descTally s d).isSome = true ∧ d.waitLimit ≠ 0 ∧ d.waitLimit ≤ d.waitEdges) := by
  unfold Runs; decide +kernel

/-! Witnesses: tensors, embeddings, indexes, searches -/

def zeros (n : Nat) : List Byte := List.replicate n 0
def dMat (op : Nat) : Desc := beside 0x2000 (zeros 4) (beside 0x1000 (zeros 4) (dsc op [0x1000, 0x2000, 0x3000, 0, 1 + 2 ^ 32, 2 ^ 12] .started))

theorem wit_MatrixProducts : (Runs (sQ [] [dMat 0x10]) 0 0 0x10 (dMat 0x10) ∧ Runs (sQ [] [dMat 0x11]) 0 0 0x11 (dMat 0x11)) ∧
    ∀ op ∈ [0x10, 0x11], let d := dMat op
      redirects (sQ [] [d]) 0 d (mmA d).va (mmA d).fmt = false ∧ auditK d.auditCfg = 0 ∧
      Held (sQ [] [d]) 0 0 ((mmA d).ranges ++ (if arExtras d.arith = 0 then [] else [(d.w 4, mmAxLen d)]) ++ (List.range (mmN d)).flatMap (fun n => (mmX d n).ranges) ++
        (if mmAcc d then (List.range (mmN d)).flatMap fun n => (mmY d n).ranges else [])) d := by
  unfold Runs Held; decide +kernel

/-- One sequence of one token: its entry at 0x2000, its page list at 0x5000, its page at 0x6000, its query at 0x1000. -/
def dAtt : Desc := beside 0x6000 (zeros 256) (beside 0x5000 (leBytes 8 0x6000) (beside 0x2000 (leBytes 8 0x5000 ++ leBytes 8 1) (beside 0x1000 (zeros 4)
  (dsc 0x12 [0x1000, 0x2000, 0x3000, 0, 1 + 2 ^ 16 + 2 ^ 32 + 2 ^ 40 + 2 ^ 48, 0x30] .started))))
def dRed : Desc := beside 0x1000 (zeros 4) (dsc 0x13 [0x1000, 0x2000, 1 + 7 * 2 ^ 32] .started)
def dQua : Desc := beside 0x1000 (zeros 4) (dsc 0x14 [0x1000, 0x2000, 0, 0, 0, 1 + 2 ^ 32] .started)
def dElt : Desc := beside 0x1000 (zeros 4) (dsc 0x16 [0x1000, 0, 0, 0x2000, 1 + 2 ^ 32] .started)
def dOpt (algo step : Nat) : Desc := beside 0x4000 (zeros 24 ++ leBytes 4 step ++ zeros 36) (dsc 0x17 [0x1000, 0x1100, 0x1200, 0x1300, 0, 0x4000, 1 + algo * 2 ^ 60] .started)

theorem wit_TensorOperations :
    (Runs (sQ [] [dAtt]) 0 0 0x12 dAtt ∧ Held (sQ [] [dAtt]) 0 0 [(dAtt.w 2, 16 * atS dAtt)] dAtt ∧ atLenOk dAtt (atSeq dAtt 0).2 = true ∧ atSeqBad dAtt 0 = false ∧
      Held (sQ [] [dAtt]) 0 0 ((List.range (atS dAtt)).flatMap fun i => if atLenOk dAtt (atSeq dAtt i).2 then (atPages dAtt (atSeq dAtt i).2).map fun p => ((atSeq dAtt i).1 + 8 * p, 8) else []) dAtt ∧
      Held (sQ [] [dAtt]) 0 0 ((atQry dAtt).ranges ++ atKvRanges (sQ [] [dAtt]) 0 dAtt) dAtt) ∧
    (Runs (sQ [] [dRed]) 0 0 0x13 dRed ∧ dRed.step = 0 ∧ reached (tallyVal (sQ [] [dRed]) (rdTally dRed)) (rdExpect dRed) = true ∧ rdClear dRed = false ∧
      Held (descMod 0 0 (fun d => { d with step := 2 }) (sQ [] [dRed])) 0 0 ((rdParts dRed).map fun t => (t.va, t.len)) { dRed with step := 2 }) ∧
    (Runs (sQ [] [dQua]) 0 0 0x14 dQua ∧ arExtras dQua.arith = 0 ∧ dQua.w 5 = 0 ∧
      Held (sQ [] [dQua]) 0 0 ((quSrc dQua).ranges ++ (if quSe dQua = 0 then [] else [(dQua.w 3, quSxLen dQua)])) dQua) ∧
    (Runs (sQ [] [dElt]) 0 0 0x16 dElt ∧ Held (sQ [] [dElt]) 0 0 ((elInputs dElt).flatMap fun i => (elTensor dElt i).ranges) dElt) ∧
    (let d := dOpt 2 0
     Runs (sQ [] [d]) 0 0 0x17 d ∧ Held (sQ [] [d]) 0 0 ((d.w 6, 64) :: if ocList d = 0 then [] else [(ocList d, ocN d * ocIdx d)]) d ∧ ocAlgo d = 2 ∧ (hyperAt d (d.w 6)).step = 0) ∧
    (let d := dOpt 2 1
     Runs (sQ [] [d]) 0 0 0x17 d ∧ Held (sQ [] [d]) 0 0 ((d.w 6, 64) :: if ocList d = 0 then [] else [(ocList d, ocN d * ocIdx d)]) d ∧
       ¬(ocAlgo d = 2 ∧ (hyperAt d (d.w 6)).step = 0) ∧ Held (sQ [] [d]) 0 0 (ocNeeds d) d) := by
  unfold Runs Held; decide +kernel

/-- Bytes in store memory from an offset. -/
def stored (off : Nat) (bs : List Byte) (s : State) : State := sto (fun t => { t with mem := (bs.zipIdx.map fun b => (off + b.2, b.1)).filter fun c => c.2 != 0 }) s
/-- A good image of a table of mode 1 of which this hub holds no member. -/
def tblGood : List Byte := qws [0, 4 * 2 ^ 18 + 2 ^ 36 + 1023 * 2 ^ 46 + 21 * 2 ^ 56 + 2 ^ 62, 16, 0, 0, 0, 0, 0]
def sTblNew : State := stored 0 tblGood (rset (Reg.tallyAssign) 0 0x80000000 hub0)
def dGat : Desc := beside 0x1000 (zeros 4) { dsc 0x20 [1, 0x1000, 1] .started with step := 1 }

theorem wit_TableCommands :
    (let s1 := taken pf0 Reg.tblCmd 0 0x10001 sTblNew
     Accepts sTblNew pf0 Reg.tblCmd 1 3 0x10001 0 ∧ mget (tblNum s1 0) s1.eng.tables = none ∧ addrOf s1 (tblImageOff s1 0) 64 = .store 0 ∧ addrPart s1 (.store 0) = 0 ∧
       (memRead (tblImageOff s1 0) 64 s1).1 = { bytes := tblGood, pois := [], codec := false } ∧ tblFieldsBad tblGood = false ∧
       tblMode (memRead (tblImageOff s1 0) 64 s1).2 tblGood (liveAlloc s1 (qf tblGood 0 0 16)) = some 1 ∧ tblAllocsBad s1 tblGood 1 = false ∧ tblForeign s1 0 tblGood = false) ∧
    (let s := sTbl (tbl0 1 0 2)
     Accepts s pf0 Reg.tblCmd 2 3 0x10002 0 ∧ Accepts s pf0 Reg.tblCmd 3 3 0x10003 0 ∧ tblNum (taken pf0 Reg.tblCmd 0 0x10002 s) 0 = 1 ∧
       mget 1 s.eng.tables = some (tbl0 1 0 2) ∧ runningDescs s (usesTable 1) = []) ∧
    stillRunning (sQ [] [dGat]) (runningDescs (sQ [] [dGat]) (usesTable 1)) = true := by
  unfold Accepts Reaches; decide +kernel

/-- Descriptors beside a table of 16 rows of which this hub is the one member, its rows in allocation 0. -/
def sEmb (t : Table) (d : Desc) : State := eng (fun e => { e with tables := [(1, t)] }) (sQ [] [d])
def tEmb : Table := { tbl0 1 0 2 with image := qws [0, 4 * 2 ^ 18 + 2 ^ 36 + 21 * 2 ^ 56, 16, 0, 0, 7 * 2 ^ 16, 0, 0] }
def dUni : Desc := beside 0x1000 (leBytes 4 3) (dsc 0x22 [0, 0x1000, 1, 0x2000] .started)

theorem wit_EmbeddingOperations :
    (Runs (sEmb tEmb dGat) 0 0 0x20 dGat ∧ tableOf (sEmb tEmb dGat) dGat = some tEmb ∧ Held (sEmb tEmb dGat) 0 0 (gaLists dGat (gaPool dGat != 0) (gaPool dGat == 4)) dGat ∧
      Held (sEmb tEmb dGat) 0 0 [] dGat) ∧
    (Runs (sQ [] [dUni]) 0 0 0x22 dUni ∧ Held (sQ [] [dUni]) 0 0 [(dUni.w 2, suN dUni * ixSize dUni)] dUni) ∧
    (let t := { tEmb with mode := 1 }
     let s := sTbl t
     mget 1 s.eng.tables = some t ∧ t.ending = false ∧ reached 0 (w32 (mgetD 0 (bcastKey 6 1) s.eng.nextBcast)) = true ∧
       s.eng.bcasts = [] ∧ 16 ≤ hubImage.stagingMib * 2 ^ 20 ∧ s.boot.image = some hubImage ∧
       (switchPlaces s t [(15, zeros 16, [])]).find? (placeWaits s) = none) := by
  unfold Runs Held; decide +kernel

/-- One index with its gradient of four elements at 0x3000 and hyperparameters at 0x4000, in a mode, at a step. -/
def dSca (mode step : Nat) : Desc :=
  beside 0x4000 (zeros 64) (beside 0x3000 (zeros 16) (beside 0x1000 (zeros 4) { dsc 0x21 [1 + mode * 2 ^ 30, 0x1000, 1, 0, 0, 0x3000, 0x4000] .started with step := step }))

theorem wit_ScatterUpdates :
    (let d := dSca 0 1
     Runs (sEmb tEmb d) 0 0 0x21 d ∧ tableOf (sEmb tEmb d) d = some tEmb ∧ scMode d = 0 ∧ Held (sEmb tEmb d) 0 0 (scNeeds d tEmb true) d ∧ stepBad d (hyperAt d (d.w 7)) = false ∧
       ((scCombined d tEmb 0).flatten.flatMap fun c => scPlaces (sEmb tEmb d) tEmb (scAlgo d) c.row).find? (placeWaits (sEmb tEmb d)) = none) ∧
    (let d := dSca 1 3
     Runs (sEmb tEmb d) 0 0 0x21 d ∧ scMode d = 1 ∧ Held (sEmb tEmb d) 0 0 (scNeeds d tEmb false) d ∧ Held (sEmb tEmb d) 0 0 [] d ∧ descWriting (sEmb tEmb d) 0 0 = false) ∧
    (let d := dSca 1 0
     Runs (sEmb tEmb d) 0 0 0x21 d ∧ scMode d = 1 ∧ Held (sEmb tEmb d) 0 0 (scNeeds d tEmb false) d ∧ d.step = 0) ∧
    (let d := dSca 2 2
     Runs (sEmb tEmb d) 0 0 0x21 d ∧ scMode d = 2 ∧ d.step ≠ 0 ∧ Held (sEmb tEmb d) 0 0 [(d.w 7, 64)] d) ∧
    (let d := dSca 2 0
     d.step = 0 ∧ reached (tallyVal (sEmb tEmb d) (tblLandTally tEmb.image)) (w32 (d.f 3 32 32)) = true ∧
       Held (descMod 0 0 (fun d => { d with step := 2 }) (sEmb tEmb d)) 0 0 [(d.w 7, 64)] { d with step := 2 }) := by
  unfold Runs Held; decide +kernel

/-- A good image of a cluster index of four vectors, its planes in allocations 0 (flash), 1 (HBM) and 2 (DDR). -/
def ixGood : List Byte := qws [1 + 2 * 2 ^ 4 + 4 * 2 ^ 14, 4, 2 ^ 32 + 2 ^ 48, 2 + 2 * 2 ^ 16 + 2 ^ 32, 8 + 2 ^ 32, 0, 0, 0]
def ixAls (s : State) : State :=
  sto (fun t => { t with
    allocs := [(0, { al0 with flags := 0x48 }), (1, { al0 with base := 2 }), (2, { al0 with base := 4, flags := 4 })]
    pages := [(0, Page.new 0 3 .plain), (1, Page.new 0 3 .plain), (2, Page.new 1 1 .plain), (3, Page.new 1 1 .plain), (4, Page.new 2 2 .plain), (5, Page.new 2 2 .plain)] }) s
def ix0 : Index := { part := 0, image := ixGood, old := none, nextId := 4, vis := 4, nvecEff := 4, ending := false, users := [], making := false }
def sIx (x : Index) (ds : List Desc) : State :=
  eng (fun e => { e with idxs := [(1, x)] }) (stored (2 * pageSize) ixGood (ixAls (sQ [(Reg.idxImageLo, 0, 0x400000)] ds)))
def dDel : Desc := beside 0x1000 (leBytes 8 3) (dsc 0x32 [1, 0x1000, 1] .started)

theorem wit_IndexCommands :
    (let s := eng (fun e => { e with idxs := [] }) (sIx ix0 [])
     let s1 := taken pf0 Reg.idxCmd 0 0x10001 s
     Accepts s pf0 Reg.idxCmd 1 4 0x10001 0 ∧ mget (ixNum s1 0) s1.eng.idxs = none ∧ (ixImage 0 s1).1 = (.ok, ixGood) ∧ ixFieldsBad ixGood = false ∧
       ixAllocsBad s1 ixGood = false ∧ ixForeign s1 0 ixGood = false ∧ (tombPlace s1 ixGood 4 (4 + ixSideCap ixGood)).2 ≠ 0 ∧
       placeWaits s1 (tombPlace s1 ixGood 4 (4 + ixSideCap ixGood)) = false ∧
       placeWaits (sto (fun t => { t with moves := [((tombPlace s1 ixGood 4 5).1 / pageSize, { mv0 with heldPass := true })] }) s1)
         (tombPlace s1 ixGood 4 (4 + ixSideCap ixGood)) = true) ∧
    (let s := sIx ix0 []
     let s1 := sIx ix0 [dDel]
     Accepts s pf0 Reg.idxCmd 2 4 0x10002 0 ∧ ixNum (taken pf0 Reg.idxCmd 0 0x10002 s) 0 = 1 ∧ mget 1 s.eng.idxs = some ix0 ∧
       runningDescs s (usesIndex 1) = [] ∧ stillRunning s1 (runningDescs s1 (usesIndex 1)) = true) ∧
    (let s := sIx ix0 []
     let s1 := taken pf0 Reg.idxCmd 0 0x10003 s
     Accepts s pf0 Reg.idxCmd 3 4 0x10003 0 ∧ (ixImage 0 s1).1 = (.ok, ixGood) ∧ swapBad s1 ix0 ixGood = false ∧ ixForeign s1 0 ixGood = false) ∧
    (let x := { ix0 with old := some ixGood }
     mget 1 (sIx x []).eng.idxs = some x ∧ (∀ r ∈ (sIx x []).eng.searches, r.idx = 1 → r.old = false) ∧
       (tombPlace (sIx x []) ixGood (4 + ixSideCap ixGood) (4 + ixSideCap ixGood)).2 = 0) := by
  unfold Accepts Reaches; decide +kernel

def dSea (step : Nat) : Desc := beside 0x4000 (zeros 64) { dsc 0x30 [1 + 2 ^ 6 + 2 ^ 8, 0x1000, 0x2000, 0x4000] .started with step := step }
def run0 : SearchRun := { q := 0, seq := 0, idx := 1, vis := 4, image := ixGood, old := false }
def qry0 : Query := { q := 0, seq := 0, n := 1023, reel := 0, wq := 0, started := false }
def sSea (d : Desc) : State := eng (fun e => { e with searches := [run0], queries := [qry0] }) (sIx ix0 [d])
def dIns : Desc := beside 0x1000 (zeros 64) (dsc 0x31 [1 + 2 ^ 32, 0x1000] .started)
def ins0 : Insertion := { idx := 1, q := 0, seq := 0, first := 4, n := 1, written := 0, done := false }
def sIns (e : Insertion) (d : Desc) : State := eng (fun x => { x with inserts := [e] }) (sIx ix0 [d])

theorem wit_SearchOperations :
    (let d := dSea 1
     Runs (sSea d) 0 0 0x30 d ∧ ((sSea d).eng.searches.find? fun r => r.q == 0 && r.seq == 0) = some run0 ∧ Held (sSea d) 0 0 ([(d.w 4, 64)] ++ srList d) d ∧ d.step ≠ 0) ∧
    (let d := dSea 0
     Runs (sSea d) 0 0 0x30 d ∧ Held (sSea d) 0 0 ([(d.w 4, 64)] ++ srList d) d ∧ d.step = 0 ∧ ((descOf (searchSetup 0 0 run0 d (sSea d)) 0 0).any fun d => d.stage == .started) = true ∧
       d.stage = .started) ∧
    (let d := dSea 1
     ((sSea d).eng.queries.find? fun x => x.q == 0 && x.seq == 0 && x.n == 1023 && !x.started) = some qry0 ∧ queryMayStart (sSea d) qry0 = true ∧ descOf (sSea d) 0 0 = some d) ∧
    (let s := sIns ins0 dIns
     Runs s 0 0 0x31 dIns ∧ indexOf s dIns = some ix0 ∧ (s.eng.inserts.find? fun e => e.q == 0 && e.seq == 0) = some ins0 ∧ dIns.remotePoison = [] ∧
       Held s 0 0 (((List.range ins0.n).flatMap fun j => (fullRow ix0.image (inNv dIns) j).map fun p => (dIns.w 2 + p.1, p.2)) ++ (if dIns.w 3 = 0 then [] else [(dIns.w 3, 8 * ins0.n)])) dIns ∧
       (inPlaces s ix0.image dIns ins0).find? (placeWaits s) = none) ∧
    (let e := { ins0 with done := true, written := 1 }
     let s := sIns e dIns
     (s.eng.inserts.find? fun e => e.q == 0 && e.seq == 0) = some e ∧ descWriting s 0 0 = false ∧ (∀ o ∈ s.eng.inserts, o.idx = e.idx → e.first ≤ o.first) ∧ mget 1 s.eng.idxs = some ix0) ∧
    (let s := sIx ix0 [dDel]
     Runs s 0 0 0x32 dDel ∧ Held s 0 0 [(dDel.w 2, 8 * deN dDel)] dDel ∧ indexOf s dDel = some ix0 ∧ deId dDel 0 < ix0.nextId ∧
       (match allocOf s (ixTomb ix0.image) with
        | some al => ((List.range (deN dDel)).filter fun i => decide (deId dDel i < ix0.nextId)).map fun i => (al.base * pageSize + deId dDel i / 8, 1)
        | none => []).find? (placeWaits s) = none) := by
  unfold Runs Held
  decide +kernel

/-! Witnesses: codec, advice, snapshots, tallies, the fabric's requests and answers -/

def job0 : LaneJob := { block := 0, part := 0, codec := 1, slot := 0, fmt := 0, disturbed := false }
def sLane (j : LaneJob) : State := eng (fun e => { e with lanes := [(31, [j])] }) (withAl (fun a => { a with flags := 0x204 }) (hub []) |> sto fun t => { t with pages := [(0, Page.new 0 2 .plain), (1, Page.new 0 2 .plain)] })
def dSq (op step len : Nat) : Desc := { dsc op [2 ^ 48, len] .started with step := step }
/-- An image of a table with one code, that of symbol 256. -/
def ctImg : List Byte := [1] ++ zeros 131 ++ [1]

theorem wit_CodecCommands :
    (alive (sLane job0) = true ∧ (sLane job0).mgmt.stopped = [] ∧ laneJobs (sLane job0) 31 = [job0] ∧ squeezable (setJobs 31 [] (sLane job0)) 0 = true ∧
      blockCoded (blockMeta (setJobs 31 [] (sLane job0)) 0) = false ∧ writeGate (setJobs 31 [] (sLane job0)) 0 = .go ∧ (readBlock 0 (setJobs 31 [] (sLane job0))).1.codec = false ∧
      (readBlock 0 (setJobs 31 [] (sLane job0))).1.pois = []) ∧
    laneJobs (sLane { job0 with disturbed := true }) 31 = [{ job0 with disturbed := true }] ∧
    (∀ op ∈ [0x40, 0x41], Runs (sQ [] [dSq op 1 4096]) 0 0 op (dSq op 1 4096) ∧ sqLen (dSq op 1 4096) ≤ (dSq op 1 4096).step * blockSize ∧
      Runs (sQ [] [dSq op 0 4096]) 0 0 op (dSq op 0 4096) ∧ (dSq op 0 4096).step * blockSize < sqLen (dSq op 0 4096) ∧ vaHeld (sQ [] [dSq op 0 4096]) 1 (2 ^ 48) blockSize = false ∧
      (sqBlock 0 0 (dSq op 0 4096) (2 ^ 48) (sQ [] [dSq op 0 4096])).1 = true) ∧
    (let s := stored 0 ctImg hub0
     let s1 := taken pf0 Reg.ctblCmd 0 0x70001 s
     Accepts s pf0 Reg.ctblCmd 1 5 0x70001 0 ∧ addrOf s1 (ctblOff s1) 133 = .store 0 ∧ (memRead (ctblOff s1) 133 s1).1 = { bytes := ctImg, pois := [], codec := false } ∧
       imageBad ctImg = false ∧ slotInUse s1 (ctblSlot s1) = 0 ∧ slotAtRest s1 (ctblSlot s1) = 0) ∧
    Accepts hub0 pf0 Reg.ctblCmd 2 5 0x70002 0 ∧ slotInUse (taken pf0 Reg.ctblCmd 0 0x70002 hub0) (ctblSlot (taken pf0 Reg.ctblCmd 0 0x70002 hub0)) = 0 := by
  unfold Accepts Reaches Runs; decide +kernel

theorem wit_AdviceOperations :
    (∀ op ∈ [0x50, 0x51], Runs (sQ [] [dsc op [] .started]) 0 0 op (dsc op [] .started) ∧ (dsc op [] .started).count = 0 ∧
      (let d := { dsc op [] .started with count := 1 }
       Runs (sQ [] [d]) 0 0 op d ∧ (advPages d).length ≤ d.step)) ∧
    hub0.store.prefetch.length < 1024 ∧
    (mget 1 hub0.store.pages = some (Page.new 0 1 .plain) ∧ fPin (flagsAt hub0 pageSize) = false ∧ fProject (flagsAt hub0 pageSize) = false) ∧
    fPin (flagsAt (withAl (fun a => { a with flags := 0x42 }) (hub [])) pageSize) = true ∧
    Runs (sQ [] [dsc 0x52 [1] .started]) 0 0 0x52 (dsc 0x52 [1] .started) := by
  unfold Runs; decide +kernel

/-- One entry: page 1 of allocation 0. -/
def dSnap : Desc := beside 0x1000 (leBytes 4 0 ++ leBytes 4 1 ++ leBytes 8 1) (dsc 0x60 [0x1000, 1, 0x200000, 2 ^ 22] .started)
def snap0 : Snap :=
  { part := 0, asid := 1, q := 0, dest := 0x200000, id := 1, baseId := 0, incr := false, step := 0, pages := [(1, 0)], left := [1], copies := [], tally := none, vector := none,
    status := .ok, waiting := [], cur := none, header := false }

theorem wit_SnapshotOperations :
    (let s := rlb (fun r => { r with snap := some snap0 }) (sQ [] [dSnap])
     Runs s 0 0 0x60 dSnap ∧ s.rel.snap.isSome = true ∧ snNext snap0 = some 1 ∧ snapWriting s = false ∧ snapHeld s snap0 (0x200000 + snManifest 1 + 0) pageSize = false ∧
       snapHeld s snap0 (0x200000 + 64) 16 = false) ∧
    (let s := sQ [] [dSnap]
     Runs s 0 0 0x60 dSnap ∧ s.rel.snap = none ∧ Held s 0 0 [(snList dSnap, 16 * snN dSnap)] dSnap ∧ dSnap.statuses = [] ∧ dSnap.bad (snList dSnap) (16 * snN dSnap) = false ∧
       (List.range (snN dSnap)).find? (snBad s dSnap) = none ∧ (List.range (snN dSnap)).any (snForeign s dSnap) = false ∧
       ((snPages s dSnap).filter fun p => !snIncr dSnap || pageDirty s p.1) = [(1, 0)] ∧ snImage 1 ≤ snLen dSnap) ∧
    (let d := dsc 0x61 [7, 0x4000, 2] .started
     Runs (sQ [] [d]) 0 0 0x61 d ∧ d.w 1 % d.f 3 0 16 ≠ 0) ∧
    (let d := beside 0x4000 (zeros 64) (dsc 0x61 [8, 0x4000, 2] .started)
     Runs (sQ [] [d]) 0 0 0x61 d ∧ d.w 2 ≠ 0 ∧ d.f 3 0 16 ≠ 0 ∧ d.w 1 % d.f 3 0 16 = 0 ∧ Held (rlb (fun r => { r with stepLast := w64 (d.w 1) }) (sQ [] [d])) 0 0 [(d.w 2, 64)] d) ∧
    (let sn := { snap0 with left := [], header := true }
     snapWriting (rlb (fun r => { r with snap := some sn }) hub0) = false ∧ sn.left = []) := by
  unfold Runs Held; decide +kernel

def wch : Watch := { noWatch with target := 1, arm := true }
def sTal (l : List (Nat × Nat × W32)) : State := ord (fun o => { o with tallies := [(7, 1)], watches := [(7, wch)] }) (hub ([(Reg.tallySel, 0, 7)] ++ l))
def assign7 : List (Nat × Nat × W32) := [(Reg.tallyAssign, 7, 0x80000000), (Reg.ptTallyNum, 0, 7)]

theorem wit_TallyRegisterCommands :
    (Reaches (sTal assign7) pf0 Reg.ptTallyVal 0 ∧ Reaches (sTal assign7) pf0 Reg.ptWatchCtl 0 ∧
      (∀ r ∈ [Reg.ptTallyVal, Reg.ptWatchCtl], tallyPart (storeParity r 0 6 (useUnlock pf0 (sTal assign7))) (ptTally (storeParity r 0 6 (useUnlock pf0 (sTal assign7))) 0) = some 0 ∧
        tallyPart (storeParity r 0 6 (useUnlock pf0 (sTal []))) (ptTally (storeParity r 0 6 (useUnlock pf0 (sTal []))) 0) ≠ some 0)) ∧
    (tallyPart (sTal assign7) 7 = some 0 ∧ (watchOf (sTal assign7) 7).arm = true ∧ reached (tallyVal (sTal assign7) 7) 1 = true ∧ (watchOf (sTal assign7) 7).addr = 0) ∧
    (watchOf (sTal assign7) 8).arm = false ∧ Reaches (sTal assign7) pf0 Reg.tallyAssign 7 ∧
    (bit (rget (sTal assign7) Reg.tallyAssign 7) 31 ≠ bit (0 : W32) 31 ∧ fld (rget (sTal assign7) Reg.tallyAssign 7) 0 8 ≠ fld (0x80000001 : W32) 0 8) := by
  unfold Reaches; decide +kernel

def pRd : Packet := { pkt tRD 6 0 0 [] with len := 64 }
def pWr : Packet := pkt tWR 6 64 0 (zeros 64)
def pAt (a : Nat) : Packet := pkt tATOMIC 6 128 (w64 a) (zeros 8)
def lent0 : LentOut := { borrower := 6, noticeMs := 10000, ext := some 0, base := 0, pages := 1, noticed := true, edges := 15000 }
def sLoan : State := sto (fun t => { t with lentOut := [lent0] }) (hub [])

theorem wit_FabricReadsAndWrites :
    (Arrives hub0 0 pRd ∧ (homeChecks pRd (pktLen pRd) none (accessChecked pRd .good hub0)).1 = none ∧ pRd.loan = false) ∧
    (let p := { pRd with loan := true }
     let w := { pWr with loan := true }
     Arrives sLoan 0 p ∧ fatal sLoan = false ∧ loanOk sLoan p (pktLen p) = true ∧ loanOk sLoan w w.payload.length = true ∧
       loanStopped sLoan (packetOff p) (pktLen p) = false ∧ loanStopped sLoan (packetOff w) 64 = false ∧ rawPayload sLoan w = some (zeros 64) ∧ w.e2e = false) ∧
    (let s1 := accessChecked pWr .good hub0
     let s2 := (partnerRefused pWr s1).2
     Arrives hub0 0 pWr ∧ pWr.zip = false ∧ (partnerRefused pWr s1).1 = false ∧ (homeChecks pWr pWr.payload.length (wrTally pWr) s2).1 = none ∧ rawPayload s2 pWr = some (zeros 64) ∧
       (writeGuards pWr.addr.toNat (.fabric pWr.src.toNat) s2).1 = true ∧ writeGate s2 pWr.addr.toNat = .go) ∧
    (∀ a ∈ [4, 0x14, 7], let p := pAt a
      let s1 := accessChecked p .good hub0
      let s2 := (partnerRefused p s1).2
      Arrives hub0 0 p ∧ p.loan = false ∧ (partnerRefused p s1).1 = false ∧ (homeChecks p (atomicSize p) none s2).1 = none ∧ p.addr.toNat % atomicSize p = 0 ∧ fld p.arg 0 4 ≤ 7 ∧
        (fld p.arg 0 4 ≤ 4 ∨ atomicSize p = 4) ∧ (writeGuards p.addr.toNat (.fabric p.src.toNat) s2).1 = true ∧ writeGate s2 p.addr.toNat = .go) ∧
    (hub0.coh.waiting = [] ∧ hub0.coh.txns = [] ∧ hub0.coh.dir = []) ∧
    ((memRead 0 64 (countRead 0 64 hub0)).1 = { bytes := zeros 64, pois := [], codec := false } ∧ packetOff pRd = 0 ∧ pktLen pRd = 64 ∧ rbit hub0 Reg.codecCfg 0 9 = false ∧
      (storeCells (packetOff pWr) ((zeros 64).map some) hub0).1 = true ∧ pWr.pmask = false) := by
  unfold Arrives; decide +kernel

theorem wit_HomeChecksInOrder :
    fatal (hub [(Reg.fatalStatus, 0, 1)]) = true ∧ (fatal hub0 = false ∧ addrOf hub0 0 64 = .store 0 ∧ addrOf hub0 (2 * pageSize - 64) 64 = .store 0 ∧
      addrOf hub0 (2 * pageSize) 64 = .decode ∧ addrOf hub0 (2 * pageSize - 63) 64 = .decode) ∧
    fkey hub0 0 = pRd.key ∧ fkey hub0 0 ≠ { pRd with key := 1 }.key ∧ tallyPart hub0 7 = none ∧ epochOk hub0 0 = true ∧ epochOk hub0 0x7FFF = true ∧ epochOk hub0 0x8000 = false ∧
    homeStopped (mgm (fun m => { m with stopped := [(8, some 0)] }) hub0) (.store 0) 0 64 none = true := by
  decide +kernel

def reg0 : Region := { part := 0, base := 0, pages := 1, kind := 0, ep := 6 }
def prt0 : Partner := { sendCount := 0, sendGen := 1, applied := 3, peerGen := some 2, lastUse := 0, unacked := [] }
def pCue (count gen : Nat) : Packet := pkt tCUE 6 8 (w64 (count + gen * 2 ^ 32)) (zeros 8)
def sPrt : State := fab (fun f => { f with partners := [(6, prt0)] }) hub0
def cue0 : HeldCue := { port := 3, p := pCue 4 2, edges := 4 }

theorem wit_CuesTalliesEvents :
    (Arrives hub0 0 (pCue 3 2) ∧ (homeChecks (pCue 3 2) 8 none hub0).1 = none ∧ (pCue 3 2).addr.toNat % 8 = 0) ∧
    (let s := coh (fun c => { c with regions := [(9, reg0)] }) hub0
     let p := pkt tOWN 6 0 (w64 (9 * 2 ^ 40)) (zeros 8)
     Arrives s 0 p ∧ fatal s = false ∧ mget (fld p.arg 40 12) s.coh.regions = some reg0 ∧ fkey s 0 = p.key ∧ unitStopped s 7 (some 0) = false ∧ unitStopped s 8 (some 0) = false) ∧
    ((partnerFor 6 sPrt).1 = some prt0 ∧ newer (cueGen (pCue 3 1)) 2 = false ∧ cueGen (pCue 3 1) ≠ 2 ∧ prt0.peerGen = some (cueGen (pCue 3 2)) ∧ (partnerFor 6 sPrt).2.ord.held = [] ∧
      srcReached (partnerSet 6 prt0 sPrt) (pCue 3 2) = true ∧ srcReached (partnerSet 6 prt0 sPrt) (pCue 4 2) = false) ∧
    (let s := sTal assign7
     let p := pkt tTALLY 6 0 (w64 (7 + 0xFFFFFFFF * 2 ^ 16)) []
     Arrives s 0 p ∧ fatal s = false ∧ tallyPart s (fld p.arg 0 16) = some 0 ∧ fkey s 0 = p.key ∧ unitStopped s 6 (some (setInst 7)) = false ∧ unitStopped s 8 (some 0) = false) ∧
    (let p := pkt tEVENT 6 0 0 (leBytes 8 63)
     let b : Bank := { Bank.empty with proxies := [(0, [1, 0, 6, 0])] }
     Arrives hub0 0 p ∧ (hub0.fab.current.proxies.filter fun e => bit (e.2.getD 0 0) 0 && quad e.2 1 % 2 ^ 18 == p.src.toNat) = [] ∧
       (b.proxies.filter fun e => bit (e.2.getD 0 0) 0 && quad e.2 1 % 2 ^ 18 == p.src.toNat) ≠ [] ∧ leAt p.payload 0 1 < 64 ∧ 64 ≤ leAt (leBytes 8 64) 0 1) ∧
    (let s := ord (fun o => { o with held := [cue0] }) (hub [(Reg.cueCfg, 0, 4)])
     (s.ord.held.find? fun h => h.p.src.toNat == 6 && decide (max 1 (rfld s Reg.cueCfg 0 0 8) ≤ h.edges)) = some cue0) := by
  unfold Arrives; decide +kernel

def req0 (o : ReqOwner) : Req := { tag := 0x3005, p := { pkt tRD 5 0 0 [] with dst := 6 }, fa := none, right := 0, part := 0, owner := o, edges := 3, limit := 3, attempts := 0, retrying := true }
def sReq (o : ReqOwner) : State := fab (fun f => { f with reqs := [req0 o] }) hub0
def pAns (type st : Nat) : Packet := { pkt type 6 0 (w64 st) [] with tid := 0x3005 }

theorem wit_AnswersAndRetries :
    (let s := heardFrom 6 (sReq .hub)
     Arrives (sReq .hub) 0 (pAns tRSP 0x1A) ∧ reqOf s (pAns tRSP 0x1A).tid = some (req0 .hub) ∧ Status.ofCode (fld (pAns tRSP 0x1A).arg 0 8) ≠ .staleEpoch ∧
       rawPayload s (pAns tRSP 0x1A) = some []) ∧
    (Arrives hub0 0 (pAns tACK 0) ∧ reqOf hub0 (pAns tACK 0).tid = none) ∧
    ((sReq .hub).fab.reqs.find? fun r => r.tag == 0x3005 && r.retrying && decide (0x3005 < unsentBase)) = some (req0 .hub) ∧ (req0 .hub).p.dst.toNat ≠ selfEp (sReq .hub) ∧
    ((sReq .hub).fab.reqs.find? fun r => r.tag == 0x3005 && decide (r.limit ≤ r.edges) && decide (0x3005 < unsentBase)) = some (req0 .hub) := by
  unfold Arrives; decide +kernel

/-- The LEND of a page that hub 6 answers. -/
def rLend : Req := { req0 .lend with p := { pkt tLEND 5 0 0 (zeros 14) with dst := 6 } }

theorem wit_StaleAnswers :
    (let s := fab (fun f => { f with reqs := [rLend] }) sLoan
     let p := pAns tRSP 0x30000
     Arrives s 0 p ∧ reqOf (heardFrom 6 s) p.tid = some rLend ∧ rLend.owner = .lend ∧ Status.ofCode (fld p.arg 0 8) = .ok) ∧
    (let p := { pAns tRSP 0 with zip := true, payload := [0xFF] }
     Arrives (sReq .hub) 0 p ∧ reqOf (heardFrom 6 (sReq .hub)) p.tid = some (req0 .hub) ∧ rawPayload (heardFrom 6 (sReq .hub)) p = none) ∧
    Status.ofCode (fld (pAns tACK Status.staleEpoch.code).arg 0 8) = .staleEpoch := by
  unfold Arrives; decide +kernel

def extL : Extent := { ext0 with lender := 6, released := true }
def sLoanExt (x : Extent) : State := sto (fun t => { t with extents := [(.loan 1023, x)] }) (hub [])
def manager : List (Nat × Nat × W32) := [(Reg.fmEp, 0, 0x80000006)]

theorem wit_LoanAndManagerMessages :
    (let p := pkt 0x30 6 0 0 (leBytes 8 0x200000 ++ leBytes 4 1 ++ leBytes 2 10000 ++ zeros 2)
     let s := hub []
     Arrives s 0 p ∧ unitStopped s 1 none = false ∧ tierDisabled s 5 = false ∧ leAt p.payload 0 8 % pageSize = 0 ∧ leAt p.payload 8 4 ≠ 0 ∧ leAt p.payload 12 2 ≤ 10000 ∧
       s.store.extents = [] ∧ ((List.finRange 1024).find? fun n => (extOf s (.loan n)).isNone) = some 0) ∧
    (let p := pkt 0x31 6 0 1023 []
     let s := sLoanExt { extL with released := false }
     Arrives s 0 p ∧ msgExt s p = some (.loan 1023)) ∧
    (let p := pkt 0x32 6 0 0 []
     Arrives sLoan 0 p ∧ (sLoan.store.lentOut.any fun l => l.borrower == p.src.toNat && l.ext == some (fld p.arg 0 10)) = true ∧ lent0.noticeMs * 3 ≤ 2 * lent0.edges) ∧
    (let p := pkt 0x30 6 0 0 (leBytes 8 0x200000 ++ leBytes 4 1 ++ leBytes 2 10000 ++ zeros 2)
     let s := sLoanExt { extL with released := false }
     Arrives s 0 p ∧ tierDisabled s 5 = false ∧ (s.store.extents.any fun x => match x.1 with | .loan _ => x.2.lender == p.src.toNat | _ => false) = true) ∧
    (let s := { hub [] with boot := { (hub []).boot with image := some { hubImage with loanTier := false } } }
     Arrives s 0 (pkt 0x30 6 0 0 []) ∧ unitStopped s 1 none = false ∧ tierDisabled s 5 = true) ∧
    (let p := pkt 0x34 7 0 0 (leBytes 8 (1 + 7 * 2 ^ 32 + 1 * 2 ^ 50))
     Arrives (hub manager) 0 p ∧ isManager (hub manager) 7 = false ∧ leAt p.payload 0 8 / 2 ^ 50 % 4 = 1 ∧ leAt p.payload 0 8 / 2 ^ 32 % 2 ^ 18 = p.src.toNat ∧
       slotOfId (hub manager) 1 7 = none ∧ leAt (pkt 0x34 7 0 0 (leBytes 8 (1 + 6 * 2 ^ 32 + 1 * 2 ^ 50))).payload 0 8 / 2 ^ 32 % 2 ^ 18 ≠ 7) ∧
    (extOf (sLoanExt extL) (.loan 1023) = some extL ∧ extL.released = true ∧ (sLoanExt extL).store.oldLocs = []) ∧
    (let p := pkt 0x33 6 0 7 []
     Arrives (hub manager) 0 p ∧ isManager (hub manager) 6 = true ∧ isManager (hub []) 6 = false) ∧
    (let p := pkt 0x34 6 0 0 (leBytes 8 (1 + 6 * 2 ^ 32 + 1 * 2 ^ 50))
     let s := coh (fun c => { c with slots := [(255, { kind := 1, ep := 6, lost := false })] }) (hub manager)
     Arrives s 0 p ∧ slotOfId s (leAt p.payload 0 8 / 2 ^ 50 % 4) (leAt p.payload 0 8 / 2 ^ 32 % 2 ^ 18) = some 255) := by
  unfold Arrives; decide +kernel

def led0 : Ledger := { inTransit := false, pool := 1, base := 0, pages := 1, edges := 0 }
def sLed (l : Option Ledger) : State :=
  fab (fun f => { f with pools := [(0, 1), (1, 2)], ledger := match l with | some l => [(9, l)] | none => [] }) (withAl id (hub [(Reg.ledgerCfg, 0, 0x104)]))
def pLed (src : Nat) : Packet := pkt tHANDOFF src 0 0 (leBytes 8 9 ++ leBytes 8 0 ++ leBytes 4 1 ++ zeros 4)

theorem wit_HandoffLedger :
    (let s := (takeGen (pLed 6) (sLed none)).2
     Arrives (sLed none) 0 (pLed 6) ∧ handoffCheck (pLed 6) (sLed none) = (none, sLed none) ∧ (takeGen (pLed 6) (sLed none)).1 = true ∧ poolOf s 6 ≠ 0 ∧ mhas (leAt (pLed 6).payload 0 8) s.fab.ledger = false ∧
      claimOk s (leAt (pLed 6).payload 8 8) (leAt (pLed 6).payload 16 4) = true ∧ s.fab.ledger.length < ledgerCap) ∧
    (let p := prt0
     let s := fab (fun f => { f with partners := [(6, { p with peerGen := some 1 })] }) (sLed none)
     handoffCheck (pLed 6) s = (none, s) ∧ (takeGen (pLed 6) s).1 = false ∧ (partnerFor 6 s).1 = some { p with peerGen := some 1 } ∧ newer (cueGen (pLed 6)) 1 = false ∧ cueGen (pLed 6) ≠ 1 ∧
       newer (cueGen (pLed 6)) 255 = true) ∧
    (mget (leAt (pLed 6).payload 0 8) (sLed (some led0)).fab.ledger = some led0 ∧ poolOf (sLed (some led0)) 6 = led0.pool ∧ led0.pool ≠ 0) ∧
    (let l := { led0 with inTransit := true, edges := 4 }
     let s0 := sLed (some l)
     let s := (takeGen (pLed 256) s0).2
     Arrives s0 0 (pLed 256) ∧ handoffCheck (pLed 256) s0 = (none, s0) ∧ (takeGen (pLed 256) s0).1 = true ∧ mget 9 s.fab.ledger = some l ∧ poolOf s 256 ≠ 0 ∧ poolOf s 256 ≠ l.pool ∧ poolOf s 6 = l.pool ∧ ledgerTmo s ≤ l.edges) := by
  unfold Arrives; decide +kernel

/-! Witnesses: management, links, coherence, CXL.mem, walks and slots -/

def pFar (type hops : Nat) : Packet := { pkt type 6 0 0 [] with dst := 9, hops := BitVec.ofNat 5 hops }
def sOld (tick : Nat) : State := { sPrt with boot := { sPrt.boot with tick := tick } }

theorem wit_RoutingAndManagement :
    (alive hub0 = true ∧ (pFar 1 0).dst.toNat ≠ selfEp hub0 ∧ typeClass 0x7F = none ∧ typeClass 1 ≠ none ∧ max 1 (rfld hub0 Reg.fabCfg 0 16 5) ≤ (pFar 1 31).hops.toNat ∧
      (pFar 1 0).hops.toNat < max 1 (rfld hub0 Reg.fabCfg 0 16 5)) ∧
    (let s := fab (fun f => { f with waiting := [{ port := 0, p := pFar 1 0, edges := 0, from_ := none }] }) hub0
     alive s = true ∧ 0 < s.fab.waiting.length) ∧
    (alive (sOld 100000) = true ∧ mget 6 (sOld 100000).fab.partners = some prt0 ∧ partnerOld (sOld 100000) 6 prt0 = true) ∧
    (let p := pkt 0x38 6 (w64 Reg.bootStatus) 0 []
     Arrives (hub manager) 0 p ∧ isManager (hub manager) p.src.toNat = true ∧ regTarget (hub manager) .mgmt p.addr.toNat = .at 0 ∧ Arrives (hub []) 0 p ∧
       isManager (hub []) p.src.toNat = false) := by
  unfold Arrives; decide +kernel

/-- The first 252 bytes of a flit of a number, idle or not. -/
def flitHead (seq mark : Nat) : List Byte := leBytes 2 seq ++ zeros 2 ++ leBytes 1 mark ++ zeros 247
/-- A flit whose CRC field differs by `d` from the CRC of its bytes. -/
def flitOf (seq mark d : Nat) : List Byte := flitHead seq mark ++ leBytes 4 (((crc32 (flitHead seq mark)).toNat + d) % 2 ^ 32)

theorem leAt_tail (b : List Byte) (n : Nat) (hn : n < 2 ^ 32) (hb : b.length = 252) : leAt (b ++ leBytes 4 n) 252 4 = n := by
  have e : ∀ i, (b ++ leBytes 4 n).getD (252 + i) 0 = (leBytes 4 n).getD i 0 := by
    intro i; rw [List.getD_append_right _ _ _ _ (by omega)]; congr 1; omega
  simp only [leAt, slice, e, show List.range 4 = [0, 1, 2, 3] from rfl, List.map]
  simp only [leBytes, List.getD_cons_zero, List.getD_cons_succ, leNat, BitVec.toNat_ofNat]
  omega

/-- With d = 0 the CRC of a flit is right, with d = 1 it is wrong (for LinksAndPorts). -/
theorem flitOf_crc (seq mark d : Nat) (hd : d < 2) : (flitOf seq mark d).length = 256 ∧
    (leAt (flitOf seq mark d) 252 4 = (crc32 ((flitOf seq mark d).take 252)).toNat ↔ d = 0) := by
  have hl : (flitHead seq mark).length = 252 := by simp only [flitHead, List.length_append, zeros, List.length_replicate]; rfl
  have ht : (flitOf seq mark d).take 252 = flitHead seq mark := by rw [flitOf, ← hl, List.take_left']; rfl
  refine ⟨by rw [flitOf, List.length_append, hl]; rfl, ?_⟩
  rw [ht, flitOf, leAt_tail _ _ (Nat.mod_lt _ (by decide)) hl]
  have := (crc32 (flitHead seq mark)).isLt
  omega

def trainFit (fail : Byte) : PortFit := { port := 3, laneFail := fail, peer := 6 }
def sPort (f : Port → Port) (l : List (Nat × Nat × W32)) : State := fab (fun x => { x with ports := [(3, f upPort)] }) (hub ([(Reg.portSel, 0, 3), (Reg.clkStatus, 0, 7)] ++ l))

theorem wit_LinksAndPorts :
    (let s := sPort id []
     let r := (portOf s 3).rxSeq
     alive s = true ∧ portUp s 3 = true ∧ r < 4096 ∧ leAt (flitOf r 0xFF 0) 0 2 % 4096 = r ∧ leAt (flitOf r 0xFF 0) 4 1 = 0xFF ∧
       leAt (flitOf ((r + 1) % 4096) 0 0) 0 2 % 4096 = (r + 1) % 4096) ∧
    (let s := sPort id []
     let q := sPort (fun p => { p with retry := [(9, pWr)], txSeq := 12 }) []
     (portOf (portAcked 3 0 s) 3).retry = [] ∧ portUp q 3 = true ∧ (portOf (portAcked 3 8 q) 3).retry ≠ []) ∧
    (let s := sPort (fun p => { p with failedReplays := 16 }) []
     alive s = true ∧ 16 ≤ (portOf s 3).failedReplays ∧ (portOf s 3).up = true) ∧
    (let s := sPort id []
     portExists s 3 = true ∧ rbit s Reg.portCfg 3 0 = true ∧ rbit s Reg.clkStatus 0 2 = true ∧ trainedWidth (if portSplit s 3 then 4 else 8) (trainFit 0xFF).laneFail = 0 ∧
       trainedWidth (if portSplit s 3 then 4 else 8) (trainFit 0x10).laneFail = 4 ∧ trainedWidth 8 (trainFit 0).laneFail = 8 ∧ trainedWidth 8 (trainFit 0x7F).laneFail = 0) ∧
    (let s := sPort (fun p => { p with peer := none }) []
     (portOf s 3).up = true ∧ (portOf s 3).peer = none) ∧
    (Reaches (sPort id []) pf0 Reg.portCfg 3 ∧ (portOf (taken pf0 Reg.portCfg 3 3 (sPort id [])) 3).up = true) ∧
    (Reaches (hub []) pf0 Reg.rtDataHi 0 ∧ rbit (taken pf0 Reg.rtDataHi 0 0 (hub [])) Reg.rtIdx 0 16 = false ∧
      rbit (taken pf0 Reg.rtDataHi 0 0 (hub [(Reg.rtIdx, 0, 0x10000)])) Reg.rtIdx 0 16 = true) ∧
    (portOf (hub []) 3).up = false ∧ (portOf (hub []) 3).retraining = false ∧
    (let s := sPort (fun p => { p with up := false, retraining := true }) []
     (portOf s 3).up = false ∧ (portOf s 3).retraining = true ∧ (portOf s 3).peer = some 6) := by
  unfold Reaches; decide +kernel

/-- Slot 4 is endpoint 6, slot 9 the host of port 0; page 0 is of a coherent allocation. -/
def slots0 : List (Nat × Slot) := [(4, { kind := 0, ep := 6, lost := false }), (9, { kind := 1, ep := 5, lost := false })]
def sCoh (f : Coh → Coh) : State := coh (fun c => f { c with slots := slots0 }) (withAl (fun a => { a with flags := 0x1002 }) (hub []))
def own6 : DirEntry := { st := .m, lead := 4, sharers := [4], age := 0 }
def shr (l : List Nat) : DirEntry := { st := .s, lead := 0, sharers := l, age := 0 }
def pCoh (type : Nat) : Packet := pkt type 6 64 0 (zeros 64)

theorem wit_CoherenceRequests :
    (let s := sCoh fun c => { c with dir := [(1, shr [9])] }
     let s1 := (agentChecks (pCoh tRDSHARED) s).2
     Arrives s 0 (pCoh tRDSHARED) ∧ lineChecked (pCoh tRDSHARED) .good s = s ∧ (agentChecks (pCoh tRDSHARED) s).1 = none ∧ senderSlot 6 s1 = (some 4, s1) ∧ cacheable s1 64 (some 4) = true ∧
       lineBusy s1 1 = false ∧ txnRoom s1 = true ∧ (dirEntry s1 1).isSome = true ∧ setUsed (sCoh id) 1 < dirWays ∧ msgOff (pCoh tRDSHARED) = 64 ∧ writeGuards 64 (.agent 6) s1 = (true, s1)) ∧
    (let p := { pCoh tRDSHARED with src := 7 }
     let s1 := (agentChecks p (sCoh id)).2
     Arrives (sCoh id) 0 p ∧ (agentChecks p (sCoh id)).1 = none ∧ senderSlot 7 s1 = (none, s1) ∧ cacheable s1 64 none = false ∧ writeGuards 64 (.agent 7) s1 = (true, s1)) ∧
    (∀ keep : Bool, let p := pCoh (if keep then tWRBACKS else tWRBACK)
     let s := sCoh fun c => { c with dir := [(1, own6)] }
     let s1 := (agentChecks p s).2
     let s2 := (holderSlot 1 p (dirLookup 1 s1)).2
     Arrives s 0 p ∧ (agentChecks p s).1 = none ∧ p.type.toNat = (if keep then tWRBACKS else tWRBACK) ∧ lineBusy s1 1 = false ∧ (holderSlot 1 p (dirLookup 1 s1)).1 = some 4 ∧
       writeGate s2 64 = .go ∧ ownerOf s2 1 = some 4 ∧ slotLost s2 4 = false ∧ ownerOf (holderSlot 1 p (dirLookup 1 (agentChecks p (sCoh id)).2)).2 1 ≠ some 4) ∧
    (let s1 := (agentChecks (pCoh tEVICT) (sCoh id)).2
     Arrives (sCoh id) 0 (pCoh tEVICT) ∧ (agentChecks (pCoh tEVICT) (sCoh id)).1 = none ∧ lineBusy s1 1 = false ∧ (holderSlot 1 (pCoh tEVICT) (dirLookup 1 s1)).1 = some 4) := by
  unfold Arrives; decide +kernel

def txn0 (f : Txn → Txn) : Txn := f (newTxn 1 .ow (some (.agent 3 (pCoh tRDOWN) (some 4))) (some 4))
def sTxn (f : Txn → Txn) : State := sCoh fun c => { c with txns := [txn0 f] }
def csWords (home : Nat) : List W32 := [0x1D, 0, 1, 0, 0, 0, w32 home, 0]
/-- Fabric addresses 0 to 4095 are a range of a hub, and the host of port 0 reaches them through decoder 0. -/
def sHdm (home : Nat) : State :=
  hst (fun h => { h with hdm := [(0, { base := 0, size := 0x10000000, fa := 0, part := 0, committed := true })] })
    (fab (fun f => { f with current := { f.current with entries := [(0, csWords home)] } }) (sCoh id))
def cxlOn (s : State) : State := rset Reg.hostpStatus 0 0x400 s
def sCxlReq : State := fab (fun f => { f with reqs := [req0 (.cxl 0 7 0)] }) hub0

theorem wit_CoherenceAnswers :
    (let t := txn0 fun t => { t with grantAck := true }
     let s := sTxn fun t => { t with grantAck := true }
     let p := pCoh tGRANTACK
     Arrives s 0 p ∧ txnOf s (lineOf (msgOff p)) = some t ∧ t.req = some (.agent 3 (pCoh tRDOWN) (some 4)) ∧ (pCoh tRDOWN).src = p.src ∧ t.grantAck = true ∧
       (let t := txn0 fun t => { t with forward := true }
        txnOf (sTxn fun t => { t with forward := true }) 1 = some t ∧ t.grantAck = false ∧ t.forward = true)) ∧
    (Arrives (sCoh id) 0 (pCoh tGRANTACK) ∧ txnOf (sCoh id) 1 = none) ∧
    (let f := fun t : Txn => { t with await := [(4, 0)] }
     Arrives (sTxn f) 0 (pCoh tRECALLACK) ∧ txnOf (sTxn f) 1 = some (txn0 f) ∧ awaitedSlot (sTxn f) (txn0 f) { pCoh tRECALLACK with tid := 4 } = some 4 ∧ (4, 0) ∈ (txn0 f).await) ∧
    (let s := cxlOn (sHdm 6)
     let p := pCoh tRECALLINV
     Arrives s 0 p ∧ snoopPorts s 6 (msgOff p) = [(0, 64)] ∧ snoopPorts (sCoh id) 6 64 = []) ∧
    (let p := { pCoh tDATA with tid := 0x3005 }
     Arrives sCxlReq 0 p ∧ reqOf (heardFrom 6 sCxlReq) p.tid = some (req0 (.cxl 0 7 0)) ∧ (req0 (.cxl 0 7 0)).owner = .cxl 0 7 0) := by
  unfold Arrives; decide +kernel

theorem wit_DirectoryTransitions :
    (txnOf (sCoh id) 1 = none ∧ dirEntry (sCoh id) 1 = none) ∧
    (let f := fun t : Txn => { t with await := [(9, 0)] }
     txnOf (sTxn f) 1 = some (txn0 f) ∧ (txn0 f).await ≠ []) ∧
    (let f := fun t : Txn => { t with row := .iw, req := none, slot := none }
     txnOf (sTxn f) 1 = some (txn0 f) ∧ (txn0 f).await = [] ∧ (txn0 f).grantAck = false ∧ (txn0 f).lost = false ∧ (txn0 f).next = none) ∧
    (let f := fun t : Txn => { t with req := some (.host 0 2 1 .a 7 [] 0 false), slot := some 9, withData := false }
     txnOf (sTxn f) 1 = some (txn0 f) ∧ (txn0 f).await = [] ∧ (txn0 f).grantAck = false ∧ (txn0 f).lost = false ∧ (txn0 f).row = .ow) ∧
    (let f := fun t : Txn => { t with withData := false }
     txnOf (sTxn f) 1 = some (txn0 f) ∧ (txn0 f).req = some (.agent 3 (pCoh tRDOWN) (some 4)) ∧ (txn0 f).slot = some 4 ∧ (txn0 f).withData = false ∧ (txn0 f).row = .ow) ∧
    (let s := coh (fun c => { c with dir := [(1, shr [4, 9])] }) (sTxn id)
     txnOf s 1 = some (txn0 id) ∧ dirEntry s 1 = some (shr [4, 9]) ∧ owned (shr [4, 9]) = false ∧ (shr [4, 9]).sharers.filter (· ≠ 4) ≠ [] ∧ (shr [4]).sharers.filter (· ≠ 4) = []) := by
  decide +kernel

theorem wit_CxlMemRequests :
    (alive hub0 = true ∧ cxlRuns hub0 0 = false) ∧ (alive (cxlOn hub0) = true ∧ cxlRuns (cxlOn hub0) 0 = true ∧ fatal (cxlOn hub0) = false ∧ hdmFind (cxlOn hub0) 0 64 = none) ∧
    (∀ home ∈ [5, 6], let s := cxlOn (sHdm home)
      cxlRuns s 0 = true ∧ fatal s = false ∧ hdmFind s 0 64 = some (64, 0) ∧ intakeStopped s 0 = false ∧ commitHolds s 64 = false ∧ unitStopped s 8 (some 0) = false ∧
        (∀ right ∈ [0, 1], (resolve 64 0 right s).1 = .home home 64) ∧ selfEp (resolve 64 0 0 s).2 = 5) ∧
    (let s := net (cxlOn (sHdm 6))
     (sendReq (mkReq (stampKey s 0 (cxlPacket s 0 6 64 .s)) (some 64) 0 0 (.cxl 0 7 0)) s).1 = .gone ∧
       (sendReq (mkReq (stampKey s 0 (cxlPacket s 3 6 64 .i)) (some 64) 0 0 (.cxl 0 7 3)) (ownedSet 0 6 64 false s)).1 = .gone) ∧
    (let s := hst (fun h => { h with owned := [(0, 6, 64)] }) (net (cxlOn (sHdm 6)))
     let p := mkPacket s tWRBACK 6 64 0 (zeros 64)
     hostOwns s 0 6 64 = true ∧ s.host.snoops = [] ∧ (sendReq (mkReq (stampKey (ownedSet 0 6 64 false s) 0 p) (some 64) 1 0 (.cxl 0 7 1)) (ownedSet 0 6 64 false s)).1 = .gone) ∧
    (let n : Snoop := { ports := [(0, 64)], home := 6, off := 64, tid := 1, share := false, held := false, dirty := none }
     let s := hst (fun h => { h with snoops := [n] }) (cxlOn hub0)
     cxlRuns s 0 = true ∧ (s.host.snoops.find? fun n => n.ports.contains (0, (64 : W64).toNat)) = some n) ∧
    (let s := coh (fun c => { c with txns := [txn0 fun t => { t with await := [(9, 0)] }] }) (cxlOn (sHdm 5))
     s.host.snoops = [] ∧ hdmFind s 0 64 = some (64, 0) ∧ resolveIn s.fab.current 64 (fkey s 0) 0 = .home (selfEp s) 64 ∧ slotOfHost s 0 = some 9 ∧ (txnOf s (lineOf 64)).isSome = true ∧
       (let s := coh (fun c => { c with dir := [(1, { own6 with sharers := [9] })] }) s
        ownerOf s 1 = some 9)) ∧
    (let s := sCoh id
     addrOf s 64 64 = .store 0 ∧ fkey s (addrPart s (.store 0)) = fkey s 0 ∧ homeStopped s (.store 0) 64 64 none = false ∧ writeGuards 64 (.host 0) s = (true, s) ∧ writeGate s 64 = .go ∧
       (let s := coh (fun c => { c with regions := [(0, { reg0 with kind := 2, ep := 5 })] }) s
        (writeGuards 64 (.host 0) s).1 = false)) ∧
    (let s := sCoh id
     slotOfHost s 0 = some 9 ∧ slotOfHost s 1 = none ∧ cacheable s 64 none = false ∧ cacheable s 64 (some 9) = true ∧ lineBusy s 1 = false ∧ txnRoom s = true ∧ setUsed s 1 < dirWays ∧
       writeGate s (1 * 64) = .go ∧ hostOwner s 0 1 = none ∧ writeGate (sto (fun t => { t with moves := [(0, { mv0 with heldPass := true })] }) s) 64 = .hold ∧
       (let s := sCoh fun c => { c with dir := [(1, { own6 with sharers := [9] })] }
        hostOwner s 0 1 = some 9)) := by
  decide +kernel

def walk0 (run : Bool) : Walk := { lo := 0, hi := stageBase, slot := some 4, why := .clearSlot 4, running := run }

theorem wit_WalksAndSlots :
    (let s := sCoh fun c => { c with walks := [walk0 false] }
     alive s = true ∧ fatal s = false ∧ (s.coh.walks.any (·.running)) = false ∧ s.coh.walks ≠ []) ∧
    (let s := sCoh fun c => { c with walks := [walk0 true] }
     s.coh.walks.any (·.running) = true ∧ walkChecked .good s = s ∧ walkClear s = true ∧ walkClear (sCoh fun c => { c with walks := [walk0 true], dir := [(1, own6)] }) = false) ∧
    (alive (hub [(Reg.fatalStatus, 0, 1)]) = true ∧ fatal (hub [(Reg.fatalStatus, 0, 1)]) = true) := by
  decide +kernel

theorem wit_WalksAndSlots_slots :
    (let s := regsOn [(Reg.cohAgent, 0, 7), (Reg.cohAgentNum, 0, 5)] (sCoh id)
     let s1 := taken pf0 Reg.cohAgentCmd 0 1 s
     Accepts s pf0 Reg.cohAgentCmd 1 7 1 0 ∧ rfld s1 Reg.cohAgentNum 0 0 8 = 5 ∧ cohSlot s 5 = none ∧ rfld s1 Reg.cohAgent 0 18 2 ≠ 3 ∧ slotOfId s 0 7 = none ∧ rfld s1 Reg.cohAgent 0 0 18 = 7 ∧
       rfld s1 Reg.cohAgent 0 18 2 = 0 ∧ Accepts s pf0 Reg.cohAgentCmd 2 7 2 0) ∧
    (let s := regsOn [(Reg.cohAgentNum, 0, 4)] (sCoh id)
     Accepts s pf0 Reg.cohAgentCmd 2 7 2 0 ∧ cohSlot s (rfld (taken pf0 Reg.cohAgentCmd 0 2 s) Reg.cohAgentNum 0 0 8) ≠ none ∧ Accepts s pf0 Reg.cohAgentCmd 3 7 3 0 ∧
       cohSlot s 4 = some { kind := 0, ep := 6, lost := false }) ∧
    (let x : Slot := { kind := 0, ep := 6, lost := true }
     let s := regsOn [(Reg.cohAgentNum, 0, 4)] (coh (fun c => { c with slots := [(4, x)] }) (hub []))
     Accepts s pf0 Reg.cohAgentCmd 3 7 3 0 ∧ cohSlot s (rfld (taken pf0 Reg.cohAgentCmd 0 3 s) Reg.cohAgentNum 0 0 8) = some x ∧ x.lost = true) := by
  unfold Accepts Reaches; decide +kernel

/-! Witnesses: regions, the call sheet, hosts, translation, DMA, partitions -/

def sReg (l : List (Nat × Nat × W32)) (rs : List (Nat × Region)) : State := coh (fun c => { c with regions := rs }) (regsOn l (sCoh id))

theorem wit_RegionCommands :
    (let s := sReg [(Reg.regionBaseLo, 0, 0x200000), (Reg.regionSize, 0, 1), (Reg.regionOwner, 0, 0x40005)] [(0, { reg0 with base := 0 })]
     let s1 := taken pf0 Reg.regionCmd 0 1 s
     Accepts s pf0 Reg.regionCmd 1 7 1 0 ∧ regionBase s1 0 = 1 ∧ allocAt s (1 * pageSize) = some 0 ∧ (allocOf s 0).map (fun a => (a.part, a.base + a.pages)) = some (0, 2) ∧ rfld s1 Reg.regionSize 0 0 28 = 1 ∧
       (s.coh.regions.any fun r => overlap r.2.base r.2.pages 1 1) = false ∧ fld (rget s1 Reg.regionOwner 0) 18 2 ≠ 3 ∧ freeKeyFrom 0 s.coh.regions = 1) ∧
    (∀ r ∈ [reg0, { reg0 with ep := 7 }], let s := sReg [(Reg.regionOwner, 0, 0x40005)] [(9, r)]
     (∀ op ∈ [2, 3, 4], regionNum (taken pf0 Reg.regionCmd 0 (w32 (9 * 2 ^ 20 + op)) s) 0 = 9 ∧ Accepts s pf0 Reg.regionCmd op 7 (w32 (9 * 2 ^ 20 + op)) 0) ∧ mget 9 s.coh.regions = some r ∧ r.part = 0 ∧
       fld (rget (taken pf0 Reg.regionCmd 0 0x900003 s) Reg.regionOwner 0) 18 2 ≠ 3 ∧ slotOfId s r.kind r.ep = (if r.ep = 6 then some 4 else none)) ∧
    (let s := sReg [(Reg.regionCmd, 0, 0x900002)] [(9, { reg0 with part := 1 })]
     mget (regionNum s 0) s.coh.regions = some { reg0 with part := 1 } ∧ ({ reg0 with part := 1 } : Region).part ≠ 0) := by
  unfold Accepts Reaches; decide +kernel

def commit0 (step : Nat) : Commit := { epoch := 1, step := step, changed := [(0, 4096)], held := [], ownWalk := false, edges := 0 }
def sCs (f : Fabric → Fabric) : State := fab f (hub [])

theorem wit_CallSheetCommands :
    (∀ k ∈ [1, 2], let v := w32 (k * 65536 + 1)
     Accepts (sCs id) pf0 Reg.csCmd 1 8 v 0 ∧ (taken pf0 Reg.csCmd 0 v (sCs id)).mgmt.csBad = (sCs id).mgmt.csBad ∧ (sCs id).mgmt.csBad.contains 0 = false ∧
      stagedBad (taken pf0 Reg.csCmd 0 v (sCs id)) = false ∧ (sCs id).fab.prevLive = false) ∧
    (rfld (taken pf0 Reg.csCmd 0 0x10001 (sCs id)) Reg.csCmd 0 16 16 = ((sCs id).fab.epoch + 1) % 65536 ∧ rfld (taken pf0 Reg.csCmd 0 0x20001 (sCs id)) Reg.csCmd 0 16 16 ≠ ((sCs id).fab.epoch + 1) % 65536) ∧
    (let s := sCs fun f => { f with prevLive := true }
     Accepts s pf0 Reg.csCmd 1 8 0x10001 0 ∧ stagedBad (taken pf0 Reg.csCmd 0 0x10001 s) = false ∧ s.fab.prevLive = true ∧ prevInflight s = 0) ∧
    Accepts (sCs id) pf0 Reg.csCmd 2 8 2 0 := by
  unfold Accepts Reaches; decide +kernel

theorem wit_CallSheetCommands_switch :
    (let s := sCs fun f => { f with staged := { Bank.empty with entries := [(0, [1, 0, 0, 0, 0, 0, 5, 0])] } }
     stagedBad (taken pf0 Reg.csCmd 0 0x10001 s) = true) ∧
    (∀ n ∈ [2, 4], let s := sCs fun f => { f with commit := some (commit0 n) }
      alive s = true ∧ s.fab.commit = some (commit0 n) ∧ commitBusy s (commit0 n) = false ∧ commitAnswered s (commit0 n) = true ∧ (commit0 n).held = [] ∧ s.host.fns = []) := by
  decide +kernel

/-- Virtual function 0 of port 0 is mapped to partition 0; its aperture begins at fabric address 0, whose range is `home`'s. -/
def vf0 : Path := .vf 0 0
def sVf (home : Nat) (l : List (Nat × Nat × W32)) : State := regsOn ((Reg.fnMap, 1, 0x80000000) :: l) (sHdm home)
def freshFn : Fn := { Fn.fresh with resetting := true }

theorem wit_HostApertureAccesses :
    (let s := sVf 5 [(Reg.fatalStatus, 0, 1)]
     alive s = true ∧ fnResetting s vf0 = false ∧ fatal s = true) ∧
    (let s := hst (fun h => { h with fns := [(1, freshFn)] }) (sVf 5 [])
     alive s = true ∧ fnResetting s vf0 = true) ∧
    (let s := { sVf 5 [] with boot := { (sVf 5 []).boot with image := none } }
     alive s = true ∧ s.boot.image = none ∧ fnResetting s vf0 = false) ∧
    (let s := regsOn [(Reg.fnMap, 1, 0)] (sVf 5 [])
     s.boot.image ≠ none ∧ pathPart s vf0 = none ∧ isProxy s vf0 = false) ∧
    portBlocked (sVf 5 []) vf0 = false ∧ portBlocked (hst (fun h => { h with portQ := [.answer 0 (.hostUr vf0)] }) (sVf 5 [])) vf0 = true ∧
    (∀ home ∈ [5, 6], let s := sVf home []
      fnResetting s vf0 = false ∧ s.boot.image ≠ none ∧ fatal s = false ∧ pathPart s vf0 = some 0 ∧ intakeStopped s 0 = false ∧ isProxy s vf0 = false ∧ commitHolds s (aptBase s (fnIdx vf0) + (64 : W64).toNat) = false ∧
        commitHolds (fab (fun f => { f with commit := some (commit0 2) }) s) (aptBase s (fnIdx vf0) + (64 : W64).toNat) = true ∧ unitStopped s 8 (some 0) = false ∧ HostOp.read 8 ≠ .cas128 ∧
        (resolve (aptBase s (fnIdx vf0) + (64 : W64).toNat) 0 (opRight (.read 8)) s).1 = .home home 64 ∧ selfEp (resolve 64 0 0 s).2 = 5) ∧
    (let s := net (sVf 6 [])
     (sendReq (mkReq (stampKey s 0 (opPacket s 6 64 (.write (zeros 8)))) (some 64) 1 0 (.bar2 vf0 true)) s).1 = .gone) ∧
    (let s := sVf 5 []
     fatal s = false ∧ addrOf s 64 8 = .store 0 ∧ fkey s (addrPart s (.store 0)) = fkey s 0 ∧ homeStopped s (.store 0) 64 8 none = false ∧ opRight (.read 8) = 0 ∧
       (∀ op ∈ [HostOp.write (zeros 8), .fetchAdd true 1], opRight op ≠ 0 ∧ opLen op = 8 ∧ (opRight op = 2 → 64 % opLen op = 0)) ∧ writeGuards 64 (.host (pathPort vf0)) s = (true, s) ∧ writeGate s 64 = .go) := by
  decide +kernel

def prx : List W32 := [1, 0, 0x300006, 0]
def sPrx : State := fab (fun f => { f with current := { f.current with proxies := [(0, prx)] } }) (sVf 6 [])

theorem wit_ProxyAndFunctionResets :
    (alive sPrx = true ∧ fnResetting sPrx vf0 = false ∧ sPrx.boot.image ≠ none ∧ fatal sPrx = false ∧ pathPart sPrx vf0 = some 0 ∧ intakeStopped sPrx 0 = false ∧ isProxy sPrx vf0 = true ∧ proxyOf sPrx 0 0 = some prx ∧
      (64 : W64).toNat < 2 ^ (quad prx 1 / 2 ^ 18 % 64) ∧ opRight (.read 8) ≠ 2 ∧ opRight (.fetchAdd true 1) = 2 ∧ 2 ^ (quad prx 1 / 2 ^ 18 % 64) = 4096) ∧
    (isProxy (sVf 5 []) vf0 = false ∧ fnPart (fnReset (fnIdx vf0) (useUnlock vf0 (sVf 5 []))) (fnIdx vf0) = some 0 ∧
      fnPart (fnReset 2 (useUnlock (.vf 0 1) (sVf 5 []))) 2 = none ∧ fnPart (hostLost 0 (fnReset 0 (useUnlock pf0 hub0))) (fnIdx pf0) = some 0) ∧
    (let s := hub [(Reg.partStatus, 0, 2)]
     (∀ k ∈ boundParts s 1, partBusy s k = true) ∧ boundParts s 1 = [0] ∧ slotOfHost s 1 = none ∧ s.store.extents = []) := by
  decide +kernel

theorem wit_HostLinksAndConfiguration :
    (alive hub0 = true ∧ mayLink hub0 1 = true ∧ mayLink (hubAt 4 []) 0 = true ∧ mayLink (hubAt 4 []) 1 = false) ∧
    (vf0 ≠ .mgmt ∧ vf0 ≠ .akist ∧ fnResetting hub0 vf0 = false ∧ fnResetting (hst (fun h => { h with fns := [(1, freshFn)] }) hub0) vf0 = true) ∧
    (127 : Fin 128).val < msixEntries (fnIdx pf0) ∧ portBlocked hub0 vf0 = false ∧ configReads .capRead = true ∧ configReads (.pasidEnable true) = false := by
  decide +kernel

/-- ASID 1 belongs to partition 0; MAP names one page of 4 KiB at virtual address 2^32 + 0x1000, local, for store offset 0x1000. -/
def mapRegs : List (Nat × Nat × W32) :=
  [(Reg.asidCfg, 1, 0xA0000000), (Reg.asidIdx, 0, 1), (Reg.ptArea, 0, 1), (Reg.mapAsid, 0, 1), (Reg.mapVaLo, 0, 0x1000), (Reg.mapVaHi, 0, 1), (Reg.mapTgtLo, 0, 0x1000), (Reg.mapAttr, 0, 0x130)]
def pte0 : Pte := { size := 0, kind := 0, r := true, w := true, pin := false, sh := false, migrated := false, tgt := 0x1000, shd := 0, hostTgt := 0 }
def sMap (l : List (Nat × Nat × W32)) : State := hst (fun h => { h with ptes := [(pteKey 1 (2 ^ 20 + 1), pte0)] }) (hub (mapRegs ++ l))

theorem wit_PageTableCommands :
    (∀ op ∈ [1, 2, 3, 4], let s := sMap []
      let s1 := taken pf0 Reg.mapCmd 0 (w32 op) s
      Accepts s pf0 Reg.mapCmd op 10 (w32 op) 0 ∧ mapBad s1 0 = false ∧ rfld s1 Reg.mapAsid 0 0 12 = 1 ∧ asidPart s1 1 = some 0 ∧ mapHeld s1 0 = false ∧ mapVa s1 0 = 2 ^ 32 + 0x1000 ∧
        pteAt s1 1 (mapVa s1 0 / 4096) = some (2 ^ 20 + 1, pte0) ∧ rangeMoves s1 1 0 (2 ^ 36) = false ∧ ptPagesAll s.host.ptes ≤ ptCap s1 ∧ ptPagesAll (clearRange 1 (2 ^ 20 + 1) (2 ^ 20 + 2) s.host.ptes) ≤ ptCap s1) ∧
    (mapBad (taken pf0 Reg.mapCmd 0 1 (sMap [(Reg.mapAttr, 0, 0x30)])) 0 = true ∧ asidPart (taken pf0 Reg.mapCmd 0 1 (sMap [(Reg.asidCfg, 1, 0x80000001)])) 1 ≠ some 0 ∧
      ptCap (taken pf0 Reg.mapCmd 0 1 (sMap [(Reg.ptArea, 0, 0)])) < ptPagesAll (sMap []).host.ptes) ∧
    (let s := hst (fun h => { h with migr := [(0, 0, pteKey 1 (2 ^ 20 + 1))], ptes := [(pteKey 1 (2 ^ 20 + 1), pte0)] }) (sQ mapRegs [dsc 1 [] .started])
     mapHeld (taken pf0 Reg.mapCmd 0 1 s) 0 = true) ∧
    (let s := hub mapRegs
     let s1 := taken pf0 Reg.mapCmd 0 3 s
     Accepts s pf0 Reg.mapCmd 3 10 3 0 ∧ asidPart s1 (rfld s1 Reg.mapAsid 0 0 12) = some 0 ∧ pteAt s1 (rfld s1 Reg.mapAsid 0 0 12) (mapVa s1 0 / 4096) = none) ∧
    (Reaches (sMap []) pf0 Reg.asidCfg 0 ∧ rfld (useUnlock pf0 (sMap [])) Reg.asidIdx 0 0 12 = 1 ∧ bit (rget (useUnlock pf0 (sMap [])) Reg.asidCfg 1) 31 = true ∧ bit (0 : W32) 31 = false) ∧
    (let s := hst (fun h => { h with invals := [(1, 31)] }) hub0
     (s.host.invals.take 32).contains ((1 : Fin 2).val, (31 : BitVec 5).toNat) = true) := by
  unfold Accepts Reaches; decide +kernel

def chan0 : Chan := { Chan.idle with state := 1, src := 0, dst := 0x10000, len := 64, asid := 1 }
def sDma (l : List (Nat × Nat × W32)) (c : List (Nat × Chan)) : State :=
  hst (fun h => { h with chans := c, dmaOrder := [(31, c.map fun e => e.1 % 8)] }) (hub ([(Reg.dmaAssign, 31, 0x80000000), (Reg.dmaSel, 0, 31), (Reg.asidCfg, 1, 0xA0000000)] ++ l))

theorem wit_DmaChannels :
    Reaches (sDma [] []) pf0 (chReg Reg.chCtl 7) 31 ∧
    (chanOf (sDma [] []) 31 7 = none ∧ dmaPart (sDma [] []) 31 = some 0 ∧ intakeStopped (sDma [] []) 0 = false) ∧
    (∀ ch ∈ [chan0, { chan0 with swap := 6 }], let s := sDma [] [(255, ch)]
      parityGood s = true ∧ chanOrder s 31 = [7] ∧ chanOf s 31 7 = some ch ∧ ch.ended = false ∧ ch.waitPri = false ∧ chanReading s 31 7 = false ∧ ch.state = 1 ∧ chanCheck s 31 ch = (if ch.swap = 6 then some .decode else none)) ∧
    (let ch := { chan0 with state := 2, waitPri := true, priLimit := 5, waitEdges := 5 }
     chanOf (sDma [] [(255, ch)]) 31 7 = some ch ∧ ch.waitPri = true ∧ 0 < ch.priLimit ∧ ch.priLimit ≤ ch.waitEdges) ∧
    (let ch := { chan0 with state := 2, ended := true, done := 64 }
     let s := sDma [(Reg.dmaAssign, 31, 0)] [(255, ch)]
     chanOf s 31 7 = some ch ∧ ch.ended = true ∧ chanReading s 31 7 = false ∧ chanWriting s 31 7 = false ∧ dmaPart s 31 = none) ∧
    (let s := regsOn [(Reg.dmaSel, 0, 31)] (sDma [] [(255, chan0)])
     dmaPart (sDma [] [(255, chan0)]) 31 = some 0 ∧ Reaches s pf0 Reg.dmaAssign 31 ∧ s.host.chans.any (fun c => c.1 / 8 == 31) = true ∧ Reaches (sDma [] []) pf0 Reg.dmaAssign 31 ∧ (sDma [] []).host.chans.any (fun c => c.1 / 8 == 31) = false) := by
  unfold Reaches; decide +kernel

def run1 (step : Nat) : PartRun := { step := step, destroy := false, destroyWaits := false }
def sPart (l : List (Nat × Nat × W32)) : State := hub l
def sRun (r : PartRun) : State := mgm (fun m => { m with runs := [(1, r)] }) (hub [(Reg.partStatus, 1, 2)])

theorem wit_PartitionCommands :
    (let s := hub [(Reg.partCfg, 0, 256)]
     let s1 := taken pf0 Reg.partCmd 0 0xFF0001 s
     Accepts s pf0 Reg.partCmd 1 0 0xFF0001 0 ∧ partNum s1 = 255 ∧ partNum s1 < parts s1 ∧ partState s1 255 = 0) ∧
    (let s := hub [(Reg.partStatus, 1, 1)]
     let s1 := taken pf0 Reg.partCmd 0 0x10002 s
     Accepts s pf0 Reg.partCmd 2 0 0x10002 0 ∧ partNum s1 = 1 ∧ 1 < parts s1 ∧ partState s1 1 ≠ 0 ∧ partRun (setBusy Reg.partCmd 0 true (rsetFld Reg.partCmd 0 8 8 0 s1)) 1 = none) ∧
    (Reaches (hub [(Reg.partSel, 0, 1)]) pf0 Reg.partCtl 1 ∧ bit (1 : W32) 0 = true) := by
  unfold Accepts Reaches; decide +kernel

theorem wit_PartitionCommands_resets :
    (let s := sRun (run1 1)
     let s1 := taken pf0 Reg.partCmd 0 0x10002 s
     Accepts s pf0 Reg.partCmd 2 0 0x10002 0 ∧ partState s1 1 ≠ 0 ∧ partRun (setBusy Reg.partCmd 0 true (rsetFld Reg.partCmd 0 8 8 0 s1)) 1 = some (run1 1) ∧
       partState s 1 ≠ 0 ∧ 1 < parts s ∧ partState hub0 1 = 0) ∧
    (∀ n ∈ [1, 2, 3], let s := sRun (run1 n)
      alive s = true ∧ partRun s 1 = some (run1 n) ∧ partWorkDone s 1 = true ∧ s.fab.reqs = [] ∧ (s.store.allocs.filter fun a => a.2.part == 1) = [] ∧
        s.coh.walks.any (fun w => w.why == WalkFor.partReset 1) = false ∧ (run1 n).step = n ∧ (run1 n).destroy = false) ∧
    (let s := hub [(Reg.fnIdx, 0, 1)]
     Reaches s pf0 Reg.fnMap 0 ∧ rfld (useUnlock pf0 s) Reg.fnIdx 0 0 9 = 1 ∧ fnExists (useUnlock pf0 s) 1 = true ∧ fnExists (useUnlock pf0 (hub [(Reg.fnIdx, 0, 2)])) 2 = false) ∧
    (Reaches hub0 pf0 (Reg.vecMask + 4 * 3) 0 ∧ rget hub0 (Reg.vecPend + 4 * 3) 0 = 0) ∧
    (let s := hub [(Reg.reelSel, 0, 63)]
     Reaches s pf0 Reg.reelCtl 63 ∧ cmdBusy s Reg.reelCtl 63 = false ∧
       (let s := regsOn [(Reg.reelCtl, 63, 16)] s
        Reaches s pf0 Reg.reelCtl 63 ∧ cmdBusy s Reg.reelCtl 63 = true ∧ s.mgmt.badParity = [])) := by
  unfold Accepts Reaches; decide +kernel

/-! Witnesses: registers, the take log, errors, boot, life cycle -/

def open0 (s : State) : State := mgm (fun m => { m with unlocked := [0] }) s

theorem wit_RegisterWriteCommands :
    (∀ o ∈ [Reg.ceThresh, Reg.lockkey, Reg.fatalStatus, Reg.secViolation, Reg.lcStatus, Reg.parityFault, Reg.parityInject, Reg.hubIntMask], Reaches hub0 pf0 (pfOffset pf0 o) 0 ∧ o % 4 = 0) ∧
    (¬((zeros 2).length = 4 ∧ 0 % 4 = 0) ∧ ¬((zeros 2).length = 8 ∧ 0 % 8 = 0) ∧ regTarget (useUnlock pf0 hub0) pf0 0 ≠ .ur) ∧
    ((regRow Reg.bootCmd).map (·.acc) = some .rk ∧ (regRow Reg.ceThresh).map (·.acc) = some .rw ∧ commandWrite Reg.ceThresh 7 0 hub0 = none ∧ blockWrite Reg.ceThresh 7 0 hub0 = none) ∧
    ((∀ u, u < 15 → bit (0x7FFF : W32) u = true → rbit hub0 Reg.parityFault 0 u = false) ∧ unlocked (open0 hub0) pf0 = true ∧ unlocked hub0 pf0 = false ∧ Reaches (open0 hub0) pf0 Reg.parityInject 0) := by
  unfold Reaches; decide +kernel

def trig0 : Trigger := { code := 0, detail := 7, part := none, inst := 0 }
def sTake (l : List (Nat × Nat × W32)) (h : Nat) : State := rlb (fun r => { r with waiting := [trig0], head := h }) (hub l)

theorem wit_TakeLogCommands :
    (alive hub0 = true ∧ regTarget hub0 pf0 (Reg.takeWin + 80) = .at 0 ∧ rbit (hub [(Reg.takeCfg, 0, 8)]) Reg.takeCfg 0 3 = true ∧ rbit (hub [(Reg.takeCfg, 0, 0)]) Reg.takeCfg 0 3 = false) ∧
    (let s1 := fun s : State => relSet (fun r => { r with waiting := [] }) (drawBelow 1 s).2
     alive (sTake [] 4097) = true ∧ (sTake [] 4097).rel.waiting = [trig0] ∧ rbit (s1 (sTake [] 4097)) Reg.takeCfg 0 1 = false ∧ rbit (s1 (sTake [(Reg.takeCfg, 0, 2)] 4097)) Reg.takeCfg 0 1 = true ∧
       (sTake [] 4097).rel.head - (sTake [] 4097).rel.ack = 4096) ∧
    Reaches hub0 pf0 Reg.takeSw 0 ∧ Reaches hub0 pf0 Reg.takeCursorLo 0 ∧ Reaches hub0 pf0 Reg.takeAckLo 0 := by
  unfold Reaches; decide +kernel

def die0 (spare : Nat) : Die := { pool := 10, spare := spare, wear := 0, ro := false }
def sDie (spare : Nat) : State := rlb (fun r => { r with dies := [(dieKey 31 31, die0 spare)] }) (hub [])

theorem wit_MemoryErrorsAndFlash :
    (let k := (1 : BitVec 4).toNat * 65536 + (7 : BitVec 16).toNat
     let s := rlb (fun r => { r with ceTick := [(k, 20)], ceThresh := 20 }) (hub [])
     s.rel.ceThresh ≠ 0 ∧ s.rel.ceThresh ≤ mgetD 0 k s.rel.ceTick ∧ s.rel.ceDone.contains k = false ∧ (rlb (fun r => { r with ceDone := [k] }) s).rel.ceDone.contains k = true) ∧
    (let s := regsOn [(Reg.scrubCfg, 0, 1)] hub0
     alive s = true ∧ addrOf s ((65 : BitVec 50).toNat / 64 * 64) 1 = .store 0 ∧ pageLost s 64 = false ∧ tierAt s 64 = 1 ∧ rfld s Reg.scrubCfg 0 0 8 ≠ 0) ∧
    (let s := regsOn [(Reg.scrubCfg, 0, 0x10000)] (withAl (fun a => { a with flags := 1 }) (hub []) |> sto fun t => { t with pages := [(0, Page.new 0 0 .plain)] })
     addrOf s 64 1 = .store 0 ∧ pageLost s 64 = false ∧ tierAt s 64 = 0 ∧ rbit s Reg.scrubCfg 0 16 = true) ∧
    (∀ n ∈ [0, 1], mget (dieKey 31 31) (sDie n).rel.dies = some (die0 n) ∧ dieRo (sDie n) 31 31 = false ∧ (die0 n).spare = n) ∧
    (let s := hub [(Reg.flcSel, 0, 31)]
     Reaches s pf0 Reg.flcCtl 31) ∧
    ((hub0.store.pages.filter fun p => !p.2.lost && (match p.2.loc with | .die c d => dieRo hub0 c d | _ => false)) = [] ∧ hub0.store.moves = []) := by
  unfold Reaches; decide +kernel

def fw0 : FwImage := { bytes := [], svn := 0, version := 1, signature := [] }
def bst (f : Boot → Boot) (s : State) : State := { s with boot := f s.boot }

theorem wit_ResetsPowerAndHeat :
    (State.reset.boot.pwrok = false ∧ State.reset.boot.railsGood = true ∧ (bst (fun b => { b with railsGood := false }) State.reset).boot.railsGood = false ∧ (bst (fun b => { b with railsGood := false }) hub0).boot.pwrok = true) ∧
    ((bst (fun b => { b with tripped := true }) State.reset).boot.tripped = true ∧ (bst (fun b => { b with lcRan := some (2, 3) }) hub0).boot.lcRan = some (2, 3) ∧ hub0.boot.lcRan = none) ∧
    (alive hub0 = true ∧ Reaches (open0 hub0) pf0 Reg.hubReset 0 ∧ unlocked (open0 hub0) pf0 = true ∧ bit (1 : W32) 0 = true) ∧
    (alive (hubAt 0 []) = true ∧ stage (hubAt 0 []) = 0 ∧ (hubAt 0 []).boot.lcState ≠ 4) ∧ stage (hubAt 2 []) = 2 ∧ stage (hubAt 3 []) = 3 ∧
    (85 ≤ (95 : Byte).toNat ∧ hbmLimit hub0 ≤ (95 : Byte).toNat ∧ (84 : Byte).toNat < 85 ∧ (84 : Byte).toNat ≤ hbmLimit hub0 - thermHyst hub0) := by
  unfold Reaches; decide +kernel

/-- An image whose signature holds and whose SVN is not too low is good; one whose SVN is too low is not. -/
theorem wit_fwGood (h : fwSigned fw0 = true) : fwGood (hubAt 0 []) fw0 = true ∧ fwGood (bst (fun b => { b with fwSvn := 1 }) (hubAt 0 [])) fw0 = false := by
  simp only [fwGood, h, Bool.true_and]; decide +kernel

/-- A script image without items, with one signature block. -/
def img0 : List Byte := leBytes 4 0x4D495357 ++ leBytes 4 1 ++ leBytes 4 9 ++ leBytes 4 0 ++ [0, 1, 5, 0] ++ leBytes 4 77 ++ zeros (232 + 7232)
def sLoad (n : W32) : State := open0 (hubAt n [])

theorem wit_ImageCommands_parse :
    imageBytes (sLoad 4) 9 img0 = img0 ∧ (imageParse (sLoad 4) false img0).map (fun im => (im.scriptId, im.endpoint, im.svn)) = some (9, 77, 5) ∧ imageParse (sLoad 4) true [] = none := by
  refine ⟨rfl, ?_, by decide +kernel⟩
  have hl : img0.length = 7488 := by simp only [img0, List.length_append, zeros, List.length_replicate]; rfl
  rw [imageParse, hl, if_neg (by decide +kernel)]
  decide +kernel

/-- The first check of the image's code is the life cycle's: a hub in RMA takes none. -/
theorem wit_imageCode_bad (s : State) (im : Image) (h : s.boot.lcState = 3) : imageCode s false img0 im = 8 := by
  rw [imageCode, if_pos (Or.inl h)]

theorem wit_imageCode_rma : (bst (fun b => { b with lcState := 3 }) (sLoad 4)).boot.lcState = 3 := rfl

/-- An image that is signed passes every other check of code 0. -/
theorem wit_imageCode_ok (h : imageSigs (sLoad 4) img0 hubImage = true) : imageCode (sLoad 4) false img0 hubImage = 0 := by
  rw [imageCode, if_neg (by decide +kernel), h]; decide +kernel

theorem wit_ImageCommands :
    (Reaches (sLoad 4) pf0 Reg.bootCmd 0 ∧ unlocked (sLoad 4) pf0 = true ∧ cmdBusy (sLoad 4) Reg.bootCmd 0 = false ∧ cmdOp (1 : W32) = 1 ∧ bit (1 : W32) 3 = false ∧
      stage (cfgStore Reg.bootCmd 0 1 (useUnlock pf0 (sLoad 4))) = 4 ∧ stage (cfgStore Reg.bootCmd 0 1 (useUnlock pf0 (sLoad 7))) ≠ 4) ∧
    (cmdBusy (hubAt 4 []) Reg.bootCmd 0 = false ∧ cmdOp (9 : W32) = 1 ∧ bit (9 : W32) 3 = true ∧ stage (cfgStore Reg.bootCmd 0 9 (hubAt 4 [])) = 4) ∧
    (let s := bst (fun b => { b with pending := some hubImage }) (hubAt 5 [])
     alive s = true ∧ stage s = 5 ∧ s.boot.pending = some hubImage ∧ hubImage.fromStaged = false ∧ hubImage.fmEps = [] ∧ hubImage.routes = []) ∧
    (let s := bst (fun b => { b with linksDone := true }) (hubAt 6 [])
     let q := bst (fun b => { b with linksDone := true }) (hubAt 6 manager)
     stage s = 6 ∧ s.boot.linksDone = true ∧ managers s = [] ∧ managers q = [(0, 6)] ∧ hasRoute q 6 = false ∧ hasRoute (net q) 6 = true) ∧
    (stage (cfgStore Reg.bootCmd 0 3 (useUnlock pf0 (sLoad 9))) = 9 ∧ Reaches (sLoad 9) pf0 Reg.bootCmd 0 ∧ unlocked (sLoad 9) pf0 = true ∧ cmdBusy (sLoad 9) Reg.bootCmd 0 = false ∧
      (sLoad 9).boot.fwSvn ≤ fw0.svn.toNat ∧ fw0.svn.toNat < (bst (fun b => { b with fwSvn := 1 }) (sLoad 9)).boot.fwSvn) := by
  unfold Reaches; decide +kernel

def sRel (n : Nat) : State := bst (fun b => { b with reloadStep := n, reloadMs := 1, tick := 10, pending := some hubImage }) (hubAt 8 [])

theorem wit_ReloadCommands :
    (Reaches (sLoad 7) pf0 Reg.bootCmd 0 ∧ unlocked (sLoad 7) pf0 = true ∧ cmdBusy (sLoad 7) Reg.bootCmd 0 = false ∧ cmdOp (2 : W32) = 2 ∧
      stage (cfgStore Reg.bootCmd 0 2 (useUnlock pf0 (sLoad 7))) = 7 ∧ secStopped (cfgStore Reg.bootCmd 0 2 (useUnlock pf0 (sLoad 7))) = false) ∧
    (alive (sRel 2) = true ∧ secStopped (sRel 2) = false ∧ (sRel 2).boot.reloadStep = 2 ∧ reloadMayStop (sRel 2) = true ∧ (sRel 2).boot.reloadMs * 3 ≤ ((sRel 2).boot.tick - (sRel 2).boot.reloadFrom) * 2 ∧
      workEnded (sRel 2) = true ∧ (reloadStop (queuesOff (sRel 2))).fab.reqs = []) ∧
    (∀ n ∈ [3, 4, 6], alive (sRel n) = true ∧ secStopped (sRel n) = false ∧ (sRel n).boot.reloadStep = n ∧ ((sRel n).coh.walks.any fun w => w.why == WalkFor.reload) = false ∧
      (sRel n).boot.pending = some hubImage ∧ (sRel n).boot.image = some hubImage) ∧
    hub0.boot.reloadStep = 0 := by
  unfold Reaches; decide +kernel

/-- A token of kind 1 for this part and its nonce. -/
def sTok (n : W32) : State := bst (fun b => { b with token := (leBytes 4 0x4E4B5457 ++ [1, 0, 1] : List Byte).zipIdx.map fun c => (c.2, c.1) }) (sLoad n)

theorem wit_LifeCycleCommands :
    (∀ op ∈ [1, 2, 3], Reaches (sLoad 7) pf0 Reg.lcCmd 0 ∧ unlocked (sLoad 7) pf0 = true ∧ cmdOp (w32 op) = op ∧ lcReady (cfgStore Reg.lcCmd 0 (w32 op) (useUnlock pf0 (sLoad 7))) = true ∧
      lcReady (cfgStore Reg.lcCmd 0 (w32 op) (useUnlock pf0 (sLoad 8))) = false) ∧
    (lcReady (sTok 7) = true ∧ tokenStatus (sTok 7) 1 (some true) = 0 ∧ tokenStatus (sTok 7) 2 (some true) ≠ 0 ∧ tokenStatus (sTok 7) 1 none ≠ 0 ∧ lcReady (sTok 8) = false) ∧
    (jtagOpen hub0 = false ∧ jtagOpen (bst (fun b => { b with debugOpen := true }) hub0) = true ∧ regTarget (bst (fun b => { b with debugOpen := true }) hub0) .akist 0 = .at 0) ∧
    (3 ≤ stage hub0 ∧ stage hub0 ≤ 8 ∧ (hub0.boot.mctp.filter fun t => decide (hub0.boot.tick < t + 1500)).length < 20 ∧
      (let s := bst (fun b => { b with mctp := List.replicate 20 0 }) hub0
       20 ≤ (s.boot.mctp.filter fun t => decide (s.boot.tick < t + 1500)).length)) := by
  unfold Reaches; decide +kernel

theorem wit_SlotCommandStatuses :
    (let s := regsOn [(Reg.cohAgent, 0, 0xC0007), (Reg.cohAgentNum, 0, 4)] (sCoh id)
     let s1 := taken pf0 Reg.cohAgentCmd 0 1 s
     Accepts s pf0 Reg.cohAgentCmd 1 7 1 0 ∧ cohSlot s (rfld s1 Reg.cohAgentNum 0 0 8) ≠ none ∧ rfld s1 Reg.cohAgent 0 18 2 = 3 ∧ (slotOfId s 0 6).isSome = true) ∧
    (walk0 true).why = .clearSlot 4 ∧
    (let s := regsOn [(Reg.cohAgentNum, 0, 4)] (sCoh id)
     Accepts s pf0 Reg.cohAgentCmd 3 7 3 0 ∧ (cohSlot s (rfld (taken pf0 Reg.cohAgentCmd 0 3 s) Reg.cohAgentNum 0 0 8)).map (·.lost) = some false) := by
  unfold Accepts Reaches; decide +kernel

theorem wit_LifeCycleBusyHub :
    (∀ op : Fin 3, cmdOp (w32 (op.val + 1)) = op.val + 1 ∧ Reaches (sLoad 7) pf0 Reg.lcCmd 0 ∧ unlocked (sLoad 7) pf0 = true) ∧
    ((stage (sLoad 7) = 7 ∨ stage (sLoad 7) = 9 ∨ stage (sLoad 7) = 4) ∧ rbit (sLoad 7) Reg.bootCmd 0 4 = false) ∧
    (¬(stage (sLoad 8) = 7 ∨ stage (sLoad 8) = 9 ∨ stage (sLoad 8) = 4) ∧ Reaches (sLoad 8) pf0 Reg.lcCmd 0 ∧ unlocked (sLoad 8) pf0 = true) ∧
    rbit (rset Reg.bootCmd 0 16 (sLoad 7)) Reg.bootCmd 0 4 = true := by
  unfold Reaches; decide +kernel

def dWait (t : Nat) (st : DescStage) : Desc := { dsc 5 [7 + t * 2 ^ 32] st with step := if st = .waiting then 1 else 0, waitEdges := if st = .waiting then 3 else 0, waitLimit := if st = .waiting then 3 else 0 }
def sWait (d : Desc) : State := ord (fun o => { o with tallies := [(7, 1)] }) (sQ (assign7.take 1) [d])

theorem wit_TallyTargets :
    (∀ t ∈ [1, 2], Runs (sWait (dWait t .started)) 0 0 0x05 (dWait t .started) ∧ reached (tallyVal (sWait (dWait t .started)) ((dWait t .started).f 1 0 16)) (w32 ((dWait t .started).f 1 32 32)) = decide (t = 1)) ∧
    queueSlot (sQ [] []) 0 = some (0, 63) ∧
    (∀ t ∈ [1, 2], let d := dWait t .waiting
      let s := sWait d
      alive s = true ∧ descOf s 0 0 = some d ∧ d.opcode = 0x05 ∧ descTally s d = some (7, w32 t) ∧ d.stage = .waiting ∧ d.step = 1 ∧ reached (tallyVal s 7) (w32 t) = decide (t = 1) ∧
        d.waitLimit ≠ 0 ∧ d.waitLimit ≤ d.waitEdges ∧ ({ d with waitLimit := 0 } : Desc).waitLimit = 0) := by
  unfold Runs; decide +kernel

theorem wit_StepKeepsInterruptsTold : intsTold State.reset = true ∧ step State.reset = .next State.reset ∧ intsTold (told hub0) = true := by
  refine ⟨by decide +kernel, rfl, by decide +kernel⟩

theorem wit_MemoryOperations :
    Memory.wf (stored 0 [1, 2] hub0).store.mem = true ∧ [some (1 : Byte)].length ≤ blockSize ∧ pageLost hub0 64 = false ∧ blockCoded (blockMeta hub0 (64 / blockSize)) = false ∧
    pageLost (sto (fun t => { t with pages := [(0, { Page.new 0 1 .plain with lost := true })] }) hub0) 64 = true := by
  decide +kernel

theorem wit_EveryCommandEnds : alive State.reset = false ∧ (Instr.slowTickEdge ≠ .pwrokRise ∧ Instr.slowTickEdge ≠ .pwrokFall ∧ Instr.slowTickEdge ≠ .supplyRailsGood ∧ Instr.slowTickEdge ≠ .powerLoss) ∧
    Quiet State.reset ∧ intsTold State.reset = true := by
  unfold Quiet; decide +kernel

/-! The well-formedness check refuses an ill-formed term for each of its checks, and takes the well-formed one beside it -/

def rdOk : Packet := { pkt 1 6 0 0 [] with len := 64 }
def wrOk : Packet := pkt 2 6 0 0 (zeros 8)

theorem wf_packets :
    (Instr.rd 3 rdOk .good .good).wf = true ∧ (Instr.rd 3 { rdOk with len := 4097 } .good .good).wf = false ∧ (Instr.rd 3 { rdOk with payload := [0] } .good .good).wf = false ∧
    (Instr.wr 3 wrOk .good).wf = true ∧ (Instr.wr 3 { wrOk with len := 9 } .good).wf = false ∧ (Instr.rd 3 { rdOk with pmask := true } .good .good).wf = false ∧ (Instr.wr 3 { wrOk with pois := 1 } .good).wf = false ∧
    (Instr.wr 3 { wrOk with addr := 0x4000000000000 } .good).wf = false ∧ (Instr.wr 3 { wrOk with crc := 1 } .good).wf = false ∧ (Instr.wr 3 { wrOk with e2e := true, crc := 1 } .good).wf = true := by decide +kernel

theorem wf_packet_types :
    ([Instr.doorbell 0 wrOk, .rd 0 wrOk .good .good, .wr 0 rdOk .good, .atomic 0 wrOk .good, .cue 0 wrOk, .tallyWr 0 wrOk, .own 0 wrOk, .event 0 wrOk, .claim 0 wrOk, .offer 0 wrOk, .accept 0 wrOk, .cancel 0 wrOk,
      .ledgerRelease 0 wrOk, .ledgerQuery 0 wrOk, .rsp 0 wrOk, .ack 0 wrOk, .retry 0 wrOk, .rdShared 0 wrOk .good, .rdOwn 0 wrOk .good, .upgrade 0 wrOk .good, .wrBack 0 wrOk .good, .wrBackS 0 wrOk .good, .evict 0 wrOk .good,
      .recallInv 0 wrOk, .recallShare 0 wrOk, .data 0 wrOk, .cmp 0 wrOk, .grantAck 0 wrOk, .recallAck 0 wrOk, .lend 0 wrOk, .notice 0 wrOk, .release 0 wrOk, .lost 0 wrOk, .walkReq 0 wrOk,
      .mgmtRd 0 wrOk, .mgmtWr 0 wrOk].map Instr.wf).all (· == false) = true := by decide +kernel

theorem wf_lengths :
    (Instr.flitReceive 0 (zeros 255)).wf = false ∧ (Instr.flitReceive 0 (zeros 256)).wf = true ∧ (Instr.memWr 0 0 .s (zeros 63) 0 0 false .good).wf = false ∧ (Instr.memWr 0 0 .s (zeros 64) 0 0 false .good).wf = true ∧
    (Instr.bar2Access pf0 0 (.read 0)).wf = false ∧ (Instr.bar2Access pf0 0 (.write [])).wf = false ∧ (Instr.proxyBarAccess pf0 0 (.read 0)).wf = false ∧ (Instr.bar2Access pf0 0 (.read 1)).wf = true ∧
    (Instr.registerWrite pf0 0 []).wf = false ∧ (Instr.registerWrite pf0 0 (zeros 65)).wf = false ∧ (Instr.registerWrite pf0 0 (zeros 4)).wf = true ∧
    (Instr.memoryTrained 8 (List.replicate 13 0) 0 []).wf = false ∧ (Instr.memoryTrained 8 (List.replicate 12 0) 0 []).wf = true := by decide +kernel

/-- The table gives no row any bits: no word spells a command, and none is put at the front of a queue. -/
theorem decode_no_bits (nbits w : Nat) (s : State) : decodeTableWord nbits w = none ∧ s.withFetchWord nbits w = s := ⟨rfl, rfl⟩

/-! Numbers that the spec works out -/

/-- 5.2 and the like, cut to units of 2^−149: a / 10^k. -/
def deci (a : Int) (k : Nat) : Val := .fin (a * 2 ^ 149 / 10 ^ k)
def blkOf (l : List Val) : List Val := l ++ List.replicate (32 - l.length) (.fin 0)

/-- Status codes of Table 4-4. -/
theorem test_status_codes : [Status.ok, .short, .widened, .poison, .decode, .staleEpoch, .ownership, .timeout, .quota, .fault, .codec, .audit, .parity, .reset].map Status.code =
    [0, 1, 2, 0x10, 0x11, 0x12, 0x13, 0x14, 0x15, 0x16, 0x17, 0x18, 0x19, 0x1A] := by decide

/-- The K4 example of chapter 3: scale 0x2B, bytes 0xD7 0x01, one saturated element. -/
theorem test_k4_block : let e := encodeBlk 10 0 (fun _ => 0) ([deci 245 2, deci (-10) 1, deci 3 1] ++ List.replicate 13 (.fin 0))
    (e.plane.take 3, e.scale, e.sat) = ([0xD7, 0x01, 0], [0x2B], 1) := by decide +kernel

/-- The K2 example: scale 0x32, first byte 0x27. -/
theorem test_k2_block : let e := encodeBlk 11 0 (fun _ => 0) (blkOf [deci 9 1, deci (-2) 1, deci 35 2, deci (-7) 1])
    (e.plane.take 1, e.scale) = ([0x27], [0x32]) := by decide +kernel

/-- The KT example: trits (+1, 0, −1, −1, +1) make 0xA7, trits (−1, +1) at the end 0x7B. -/
theorem test_kt_bytes : packBlk 12 ([2, 1, 0, 0, 2] ++ List.replicate 25 1 ++ [0, 2]) = [0xA7, 121, 121, 121, 121, 121, 0x7B] := by decide +kernel

/-- The MXFP4 example: scale 0x7F, bytes 0x97 0x03; with 7.0 the first element saturates; under COVER the scale is 0x80. -/
theorem test_mxfp4_block :
    (let e := encodeBlk 8 0 (fun _ => 0) (blkOf [deci 52 1, deci (-7) 1, deci 13 1])
     (e.plane.take 3, e.scale, e.sat) = ([0x97, 0x03, 0], [0x7F], 0)) ∧
    (let e := encodeBlk 8 0 (fun _ => 0) (blkOf [deci 7 0, deci (-7) 1, deci 13 1])
     (e.plane.take 1, e.scale, e.sat) = ([0x97], [0x7F], 1)) ∧
    (encodeBlk 8 0x10 (fun _ => 0) (blkOf [deci 7 0, deci (-7) 1, deci 13 1])).scale = [0x80] := by decide +kernel

/-- The same block with EXTRAS 1: scale 0x7D, bytes 0xD0 0x07, record 0xA6 0x40 0x80. -/
theorem test_mxfp4_extras : let e := encodeBlk 8 0x40 (fun _ => 0) (blkOf [deci 52 1, deci (-7) 1, deci 13 1])
    (e.plane.take 2, e.scale, e.extra) = ([0xD0, 0x07], [0x7D], [0xA6, 0x40, 0x80]) := by decide +kernel

/-- H(1) and H(5) of chapters 5 and 10. -/
theorem test_hash : hashH 0 = 0 ∧ hashH 1 = 10368889 ∧ hashH 5 = 1512800 := by decide +kernel

/-- Block 21 of a set of four members lives at member 1, at LOCAL + 0x5000 (chapter 10). -/
theorem test_interleave : csHome { Bank.empty with widths := [(7, 4)], members := [(448, 100), (449, 101), (450, 102), (451, 103)] } [3, 0, 64, 0, 0, 0, 7, 0] 0x15000 = (101, 0x5000) := by decide +kernel

/-- The ZR example's header: CLEN 637 (chapter 7). -/
theorem test_stream_header : streamHeader 637 0 0 0 0 = [0, 0, 0xFA, 0x04] := by decide +kernel

/-- A ZR stream decodes to the block it was made of. -/
theorem test_zr_round : ((zrEncode (zeros 16 ++ [1, 2, 3, 4, 5, 6, 7, 8] ++ zeros 8)).bind fun bs => (zrDecode 9 (bs.drop 4)).map (·.1)) =
    some (zeros 16 ++ [1, 2, 3, 4, 5, 6, 7, 8] ++ zeros 8) := by decide +kernel

/-- The evacuation budgets of chapter 1: 2,300 pages at 100 ms, 23,757 of 30,000 at 1 s. -/
theorem test_evac_budget : evacBudget (hub []) { ext0 with pages := 12288, noticeMs := 100 } = 2300 ∧ evacBudget (hub []) { ext0 with pages := 30000, noticeMs := 1000 } = 23757 := by decide +kernel

/-- A target is reached when the signed difference is not negative (R176). -/
theorem test_reached : reached 0 0xFFFFFFFF = true ∧ reached 0x7FFFFFFF 0 = true ∧ reached 0x80000000 0 = false ∧ reached 4 5 = false := by decide

/-! Single commands -/

/-- The next state of a command. -/
def nx (o : Out) : State := match o with | .next s => s | _ => State.reset

/-- The packets that the hub has sent. -/
def sent (s : State) : Nat := (s.out.filter fun e => match e with | .packet _ _ => true | _ => false).length

/-- HUB_MAGIC and the vectors' mask bits at reset (Tables 13-10, 13-15). -/
theorem test_reset_registers : regValue State.reset pf0 Reg.hubMagic 0 = 0x57454956 ∧ regValue State.reset pf0 Reg.vecMask 0 = 0xFFFF := by decide +kernel

/-- PWROK with the rails good starts the boot (R510); without them nothing starts. -/
theorem test_pwrok : alive (nx (execPwrokRise State.reset)) = true ∧ alive (nx (execPwrokRise (bst (fun b => { b with railsGood := false }) State.reset))) = false := by decide +kernel

/-- A create of two pages takes the lowest free number and answers OK; one of a length 0 answers DECODE (R39, R41). -/
theorem test_alloc_create : let u := nx (execAllocCreate pf0 1 sCreate)
    u.store.allocs.map (fun a => (a.1, a.2.base, a.2.pages)) = [(0, 0, 2)] ∧ fld (rget u Reg.allocCmd 0) 8 8 = 0 ∧
    fld (rget (nx (execAllocCreate pf0 1 (hub []))) Reg.allocCmd 0) 8 8 = 0x11 := by decide +kernel

/-- A WR stores its bytes and is acknowledged to its sender (Table 10-5); one past the last page stores nothing (R23). -/
theorem test_wr : let p := pkt tWR 6 64 0 [1, 2, 3, 4]
    let u := nx (execWr 3 p (net hub0))
    ((List.range 6).map (byteAt u <| 63 + ·)) = [0, 1, 2, 3, 4, 0] ∧ sent u = 1 ∧ (nx (execWr 3 { p with addr := 0x400000 } (net hub0))).store.mem = [] := by decide +kernel

/-- Fetch-and-add of 4 bytes at a word that holds 5 (R362). -/
theorem test_atomic_add : byteAt (nx (execAtomic 3 (pkt tATOMIC 6 128 0 (leBytes 4 7)) (net (stored 128 [5] hub0)))) 128 = 12 := by decide +kernel

/-- A tally add through the fabric wraps at 32 bits (R302). -/
theorem test_tally_wraps : tallyVal (nx (execTallyWr 3 (pkt tTALLY 6 0 (w64 (7 + 0xFFFFFFFF * 2 ^ 16)) []) (net (sTal assign7)))) 7 = 0 := by decide +kernel

/-- A packet for another endpoint goes on with one hop more; at the hop limit it is dropped (R368). -/
theorem test_forward : (nx (execPacketForward 0 { pFar 1 0 with dst := 6 } (net hub0)) |> sent) = 1 ∧ (nx (execPacketForward 0 { pFar 1 31 with dst := 6 } (net hub0))).out = [] ∧
    cget (nx (execPacketForward 0 { pFar 1 31 with dst := 6 } (net hub0))) Reg.pktDropped 0 = 1 := by decide +kernel

/-- The VEC_MASK_1 example of chapter 13: vector 20 becomes masked, vector 21 unmasked. -/
theorem test_vec_mask : let u := nx (execVecMaskWrite pf0 1 0x00300010 hub0)
    rget u (Reg.vecMask + 4) 0 &&& 0xFFFF = 0xFFDF := by decide +kernel

/-- LOCKKEY's key unlocks its function, any other value locks it (R459). -/
theorem test_lockkey : unlocked (nx (execLockkeyWrite pf0 0xA51F hub0)) pf0 = true ∧ unlocked (nx (execLockkeyWrite pf0 0xA51E (open0 hub0))) pf0 = false := by decide +kernel

/-- A hub reset by a locked function is refused and counted (R459); by an unlocked one the hub boots again. -/
theorem test_hub_reset : cget (nx (execHubResetGo pf0 1 hub0)) Reg.lockRefused 0 = 1 ∧ stage (nx (execHubResetGo pf0 1 hub0)) = 7 ∧ stage (nx (execHubResetGo pf0 1 (open0 hub0))) = 0 := by decide +kernel

/-- Lanes of a port: a broken lane leaves a whole group of 4, 2 or nothing (R354). -/
theorem test_trained_width : trainedWidth 8 0 = 8 ∧ trainedWidth 8 0x01 = 4 ∧ trainedWidth 8 0x11 = 2 ∧ trainedWidth 8 0xFF = 0 ∧ trainedWidth 4 0x0F = 0 := by decide +kernel

/-- Clocks that lock open stage 3; clocks that do not halt the boot at stage 15 (Table 15-7). -/
theorem test_clocks : stage (nx (execClocksLocked true (hubAt 2 []))) = 3 ∧ stage (nx (execClocksLocked false (hubAt 2 []))) = 15 := by decide +kernel

/-- A hot stack has its refresh doubled from 85 degrees, its bandwidth halved from 95 (R557). -/
theorem test_hbm_hot : let s := fun t => (nx (execHbmHot 2 t hub0)).boot
    (s 85).hbmRefresh = [2] ∧ (s 85).hbmHalf = [] ∧ (s 95).hbmHalf = [2] ∧ (s 84).hbmRefresh = [] := by decide +kernel

/-- The thermal trip stops the hub, which then answers nothing (R558). -/
theorem test_thermal_trip : alive (nx (execThermalTrip hub0)) = false ∧ nx (execWr 3 pWr (nx (execThermalTrip hub0))) = nx (execThermalTrip hub0) := by decide +kernel

/-- COMMIT with the wrong epoch is DECODE and keeps the sheet (R379). -/
theorem test_commit_epoch : fld (rget (nx (execCsCommit pf0 0x20001 (sCs id))) Reg.csCmd 0) 8 8 = 0x11 ∧ (nx (execCsCommit pf0 0x20001 (sCs id))).fab.commit = none ∧
    (nx (execCsCommit pf0 0x10001 (sCs id))).fab.commit.isSome = true := by decide +kernel

/-- The MAP of one page translates it; QUERY then shows its target (R406, R407). -/
theorem test_map_query : let u := nx (execMap pf0 1 (hub mapRegs))
    u.host.ptes = [(pteKey 1 (2 ^ 20 + 1), pte0)] ∧ rget (nx (execMapQuery pf0 3 (rset Reg.mapTgtLo 0 0 u))) Reg.mapTgtLo 0 = 0x1000 := by decide +kernel

/-- A FREE partition becomes ACTIVE (Table 12-9); partition 0 cannot be created. -/
theorem test_part_create : partState (nx (execPartCreate pf0 0x10001 hub0)) 1 = 1 ∧ fld (rget (nx (execPartCreate pf0 1 hub0)) Reg.partCmd 0) 8 8 ≠ 0 := by decide +kernel

/-- TALLY_WAIT with its target reached has run; with its target still ahead it waits (R176). -/
theorem test_tally_wait : (descOf (nx (execTallyWait 0 0 (sWait (dWait 1 .started)))) 0 0).map (·.stage) = some .ran ∧ (descOf (nx (execTallyWait 0 0 (sWait (dWait 2 .started)))) 0 0).map (·.stage) = some .waiting := by
  decide +kernel

end Sys2Proof.Tests
end

section
/-! Store memory: a stored cell, ranges of them, the operations that leave every byte, and the canonical form (O59). -/

namespace Sys2Proof.Machine

open Sys2Proof

/-! The canonical form (log entry 23) -/

theorem memoryWf_iff (m : NMap Byte) : Memory.wf m = true ↔ sorted m = true ∧ ∀ c ∈ m, c.2 ≠ 0 := by
  simp [Memory.wf]

theorem memoryWf_filter (p : Nat × Byte → Bool) {m : NMap Byte} (hm : Memory.wf m = true) : Memory.wf (m.filter p) = true := by
  rw [memoryWf_iff] at hm ⊢
  exact ⟨sorted_filter p hm.1, fun c hc => hm.2 c (List.mem_filter.1 hc).1⟩

theorem memoryWf_mput (k : Nat) (b : Byte) {m : NMap Byte} (hm : Memory.wf m = true) : Memory.wf (mput 0 k b m) = true := by
  by_cases hb : b = 0
  · rw [mput, if_pos hb]
    exact memoryWf_filter _ hm
  · rw [memoryWf_iff] at hm ⊢
    obtain ⟨hs, hz⟩ := hm
    rw [mput, if_neg hb]
    refine ⟨sorted_mset k b hs, fun c hc => ?_⟩
    rcases mem_mset hc with rfl | hc
    · exact hb
    · exact hz c hc

/-! Cells -/

/-- A list of cells is stored one cell after the other. -/
theorem rawCells_cons (off : Nat) (c : Option Byte) (cs : List (Option Byte)) (s : State) :
    rawCells off (c :: cs) s = rawCells (off + 1) cs (rawCells off [c] s) := by
  unfold rawCells
  rw [List.zipIdx_cons', List.foldl_cons, List.foldl_map]
  simp [Nat.add_assoc, Nat.add_comm 1]

theorem rawCells_single_mem (off : Nat) (c : Option Byte) (s : State) :
    (rawCells off [c] s).store.mem = c.elim s.store.mem fun b => mput 0 off b s.store.mem := by
  cases c <;> rfl

theorem byteAt_rawCells_single (off : Nat) (c : Option Byte) (s : State) (a : Nat) :
    byteAt (rawCells off [c] s) a = if a = off then c.getD (byteAt s a) else byteAt s a := by
  cases c with
  | none => simp [byteAt, rawCells_single_mem]
  | some b =>
    by_cases h : a = off
    · simp [byteAt, rawCells_single_mem, h]
    · simp [byteAt, rawCells_single_mem, h, mgetD_mput_ne (Ne.symm h)]

/-- Stored cells read back, every other byte as before. -/
theorem byteAt_rawCells (off : Nat) (cs : List (Option Byte)) (s : State) (a : Nat) :
    byteAt (rawCells off cs s) a = if off ≤ a ∧ a < off + cs.length then (cs.getD (a - off) none).getD (byteAt s a) else byteAt s a := by
  induction cs generalizing off s with
  | nil => rw [if_neg (by simp)]; rfl
  | cons c cs ih =>
    rw [rawCells_cons, ih, byteAt_rawCells_single, List.length_cons]
    by_cases h : a = off
    · subst h
      simp
    · by_cases hin : off + 1 ≤ a ∧ a < off + 1 + cs.length
      · have e : a - off = a - (off + 1) + 1 := by omega
        rw [if_neg h, if_pos hin, if_pos (by omega), e, List.getD_cons_succ]
      · rw [if_neg h, if_neg hin, if_neg (by omega)]

theorem rawCells_wf (off : Nat) (cs : List (Option Byte)) {s : State} (h : Memory.wf s.store.mem = true) :
    Memory.wf (rawCells off cs s).store.mem = true := by
  induction cs generalizing off s with
  | nil => exact h
  | cons c cs ih =>
    rw [rawCells_cons]
    apply ih
    rw [rawCells_single_mem]
    cases c with
    | none => exact h
    | some b => exact memoryWf_mput off b h

theorem rawWrite_eq_rawCells (off : Nat) (bs : List Byte) (s : State) : rawWrite off bs s = rawCells off (bs.map some) s := by
  simp [rawWrite, rawCells, List.zipIdx_map, List.foldl_map]

theorem rawWrite_wf (off : Nat) (bs : List Byte) {s : State} (h : Memory.wf s.store.mem = true) : Memory.wf (rawWrite off bs s).store.mem = true := by
  rw [rawWrite_eq_rawCells]
  exact rawCells_wf off _ h

theorem eraseRange_wf (lo n : Nat) {s : State} (h : Memory.wf s.store.mem = true) : Memory.wf (eraseRange lo n s).store.mem = true :=
  memoryWf_filter (fun c => decide (c.1 < lo) || decide (lo + n ≤ c.1)) h

/-! What leaves every byte -/

@[simp] theorem trigger_store (code : Nat) (detail : W64) (part : Option Nat) (inst : Nat) (s : State) : (trigger code detail part inst s).store = s.store := by
  unfold trigger
  dsimp only
  split_ifs <;> rfl

@[simp] theorem laneWork_store (lane raw coded : Nat) (s : State) : (laneWork lane raw coded s).store = s.store := rfl

@[simp] theorem pageMod_mem (pg : Nat) (f : Page → Page) (s : State) : (pageMod pg f s).store.mem = s.store.mem := rfl

@[simp] theorem setMeta_mem (b : Nat) (m : Byte) (s : State) : (setMeta b m s).store.mem = s.store.mem := rfl

@[simp] theorem clearPoison_mem (off n : Nat) (s : State) : (clearPoison off n s).store.mem = s.store.mem := rfl

@[simp] theorem markPoison_mem (off n : Nat) (s : State) : (markPoison off n s).store.mem = s.store.mem := by
  unfold markPoison
  split <;> rfl

@[simp] theorem codecDrop_mem (b : Nat) (s : State) : (codecDrop b s).store.mem = s.store.mem := by
  simp [codecDrop]

/-- Reading a block leaves its bytes: one that does not decode loses its tag only (R276). -/
@[simp] theorem readBlock_mem (b : Nat) (s : State) : (readBlock b s).2.store.mem = s.store.mem := by
  unfold readBlock
  dsimp only
  split_ifs
  · split <;> simp
  · rfl
  · rfl

theorem readBlock_raw {b : Nat} {s : State} (h : blockCoded (blockMeta s b) = false) : (readBlock b s).1.codec = false := by
  simp [readBlock, h]

theorem rawBlock_raw {b : Nat} {s : State} (h : blockCoded (blockMeta s b) = false) : rawBlock b s = s := by
  simp [rawBlock, h]

@[simp] theorem countAccess_mem (off n : Nat) (w : Bool) (s : State) : (countAccess off n w s).store.mem = s.store.mem := by
  unfold countAccess
  split
  · rfl
  · split_ifs <;> rfl

@[simp] theorem disturbJobs_store (b : Nat) (s : State) : (disturbJobs b s).store = s.store := by
  unfold disturbJobs
  split <;> rfl

@[simp] theorem disturbRows_store (off n : Nat) (s : State) : (disturbRows off n s).store = s.store := by
  unfold disturbRows
  refine List.foldlRecOn (motive := fun t : State => t.store = s.store) _ _ rfl fun t ht m _ => ?_
  dsimp only [drawBit]
  split <;> exact ht

@[simp] theorem noteWrite_mem (off n : Nat) (s : State) : (noteWrite off n s).store.mem = s.store.mem := by
  unfold noteWrite
  dsimp only [drawBit]
  split
  · simp
  · split_ifs <;> simp [moveMod]

@[simp] theorem inlineQueue_store (b : Nat) (s : State) : (inlineQueue b s).store = s.store := by
  unfold inlineQueue
  dsimp only
  split_ifs <;> rfl

@[simp] theorem settlePage_mem (pg : Nat) (s : State) : (settlePage pg s).store.mem = s.store.mem :=
  List.foldlRecOn (motive := fun t : State => t.store.mem = s.store.mem) _ _ rfl fun t ht c _ => by rw [readBlock_mem, ht]

@[simp] theorem copyOnWrite_mem (pg : Nat) (s : State) : (copyOnWrite pg s).store.mem = s.store.mem := by
  unfold copyOnWrite
  split <;> simp

/-! Writes through the codec -/

theorem rawBlock_wf (b : Nat) {s : State} (h : Memory.wf s.store.mem = true) : Memory.wf (rawBlock b s).store.mem = true := by
  have hr : Memory.wf (readBlock b s).2.store.mem = true := by rwa [readBlock_mem]
  unfold rawBlock
  dsimp only
  split_ifs
  · exact hr
  · exact rawWrite_wf _ _ hr
  · exact rawWrite_wf _ _ hr
  · exact h

/-- What a write that is applied stores: its cells, on whatever the block then holds (R279). -/
theorem writeApplied_mem (off : Nat) (cs : List (Option Byte)) (s : State) :
    (noteWrite off cs.length ((if cs.all Option.isSome then clearPoison off cs.length else id) (rawCells off cs s))).store.mem =
      (rawCells off cs s).store.mem := by
  rw [noteWrite_mem]
  split <;> rfl

theorem writeIn_lost {off : Nat} {s : State} (h : pageLost s off = true) (cs : List (Option Byte)) : writeIn off cs s = (false, s) := by
  simp [writeIn, h]

theorem writeIn_wf (off : Nat) (cs : List (Option Byte)) {s : State} (h : Memory.wf s.store.mem = true) :
    Memory.wf (writeIn off cs s).2.store.mem = true := by
  unfold writeIn
  dsimp only
  split
  · exact h
  split
  · rw [inlineQueue_store, writeApplied_mem]
    exact rawCells_wf off cs h
  split
  · exact rawBlock_wf _ h
  · rw [writeApplied_mem]
    exact rawCells_wf off cs (rawBlock_wf _ h)

/-- A write into a block that is not compressed on a page that is not lost stores its cells and nothing else. -/
theorem writeIn_raw {off : Nat} {s : State} (hl : pageLost s off = false) (hc : blockCoded (blockMeta s (off / blockSize)) = false)
    (cs : List (Option Byte)) : (writeIn off cs s).1 = true ∧ (writeIn off cs s).2.store.mem = (rawCells off cs s).store.mem := by
  have hg : (readBlock (off / blockSize) s).1.codec = false := readBlock_raw hc
  unfold writeIn
  dsimp only
  rw [if_neg (by simp [hl]), hg, rawBlock_raw hc]
  split
  · exact ⟨rfl, by rw [inlineQueue_store, writeApplied_mem]; rfl⟩
  · exact ⟨rfl, writeApplied_mem off cs s⟩

theorem memWrite_wf (off : Nat) (cs : List (Option Byte)) {s : State} (h : Memory.wf s.store.mem = true) :
    Memory.wf (memWrite off cs s).2.store.mem = true :=
  List.foldlRecOn (motive := fun r : Bool × State => Memory.wf r.2.store.mem = true) _ _ h fun _ hr pc _ => writeIn_wf pc.1 pc.2 hr

theorem storeCells_wf (off : Nat) (cs : List (Option Byte)) {s : State} (h : Memory.wf s.store.mem = true) :
    Memory.wf (storeCells off cs s).2.store.mem = true := by
  refine memWrite_wf off cs ?_
  rw [countAccess_mem]
  split
  · rwa [copyOnWrite_mem]
  · exact h

/-- Settles O59: each operation stores cells or erases a range, beside what leaves every byte. -/
theorem memoryOperations : Obligations.MemoryOperations := by
  unfold Obligations.MemoryOperations
  refine ⟨fun s off n bs cs h => ?_, fun s off a cs => byteAt_rawCells off cs s a, fun s off a cs _ => ⟨fun hl => ?_, fun hl hc => ?_⟩⟩
  · exact ⟨rawWrite_wf off bs h, rawCells_wf off cs h, eraseRange_wf off n h, memWrite_wf off cs h, storeCells_wf off cs h⟩
  · rw [writeIn_lost hl]
  · obtain ⟨hok, hmem⟩ := writeIn_raw hl hc cs
    exact ⟨hok, by rw [byteAt_congr hmem, byteAt_rawCells]⟩

end Sys2Proof.Machine
end

section
/-! The commands of allocations and of their projectors (O2, O3). -/

namespace Sys2Proof.Machine

open Sys2Proof

/-! What the commands find and leave -/

theorem abandonMoves_plain_store (p : Nat → Move → Bool) {s : State} (h : ∀ m ∈ s.store.moves, m.2.held = []) :
    (abandonMoves p s).store.mem = s.store.mem ∧ (abandonMoves p s).store.allocs = s.store.allocs := by
  rw [abandonMoves_plain p s h]
  exact ⟨rfl, rfl⟩

@[simp] theorem allocOf_taken (path : Path) (r i : Nat) (v : W32) (s : State) (a : Nat) : allocOf (taken path r i v s) a = allocOf s a :=
  allocOf_congr (by rw [taken_store]) a

/-! Named allocations and projectors (R42) -/

theorem namedAlloc_own {s : State} {i num : Nat} {al : Alloc} (hn : rfld s Reg.allocCmd i 16 16 = num) (ha : allocOf s num = some al)
    (hd : al.draining = false) (hp : al.part = i) (f : Nat → Alloc → State → State) : namedAlloc i s f = f num al s := by
  simp [namedAlloc, hn, ha, hd, hp]

theorem namedProj_own {s : State} {i num : Nat} {al : Alloc} {pr : Proj} (hn : rfld s Reg.allocCmd i 16 16 = num) (ha : allocOf s num = some al)
    (hd : al.draining = false) (hp : al.part = i) (hpr : mget num s.store.projs = some pr) (f : Nat → Alloc → Proj → State → State) :
    namedProj i s f = f num al pr s := by
  simp [namedProj, namedAlloc_own hn ha hd hp, hpr]

/-! CREATE (R32, R41) -/

/-- Homing the pages of an erased range enters no allocation and stores no byte. -/
theorem homePages_eraseRange_mem (num pg lo n : Nat) (ts : List Nat) (s : State) :
    (homePages num pg ts (eraseRange lo n s)).store.mem = (eraseRange lo n s).store.mem ∧
      (homePages num pg ts (eraseRange lo n s)).store.allocs = s.store.allocs := by
  obtain ⟨ps, k, e⟩ := homePages_frame num ts pg (eraseRange lo n s)
  rw [e]
  exact ⟨rfl, rfl⟩

/-- The allocation that CREATE of partition i enters, its wider copy as the registers of s name it. -/
def newAlloc (i base n : Nat) (f : W32) (s : State) : Alloc :=
  { part := i, base := base, pages := n, flags := f, wide := wideNum s i, wideFmt := wideFmt s i, wideSoff := wideSoff s i,
    widened := false, reverting := false, fails := [0], draining := false }

/-- CREATE of a free range with allowed flags, a good layer table and room enters the allocation under the lowest free number, its range erased. -/
theorem allocCreateRun_enters {i base n : Nat} {f : W32} {ls : List (Nat × Nat)} {s s2 : State} (ebase : allocBase s i = base)
    (en : rfld s Reg.allocSize i 0 29 = n) (ef : clearMask s (rget s Reg.allocFlags i) = f) (hrange : rangeOk s base n = true)
    (hflags : flagsBad f (wideNum s i).isSome = false) (hwide : wideBad s i f = false)
    (hread : (if fProject f then readLayers i ((rget s Reg.projLayersLo i).toNat + rfld s Reg.projLayersHi i 0 18 * 2 ^ 32) (rfld s Reg.projNlayers i 0 13) s
      else (some [], s)) = (some ls, s2))
    (hlayers : (fProject f && (layersBad ls n || decide (4096 < rfld s Reg.projNlayers i 0 13) || rfld s Reg.projCfg i 0 8 == 0)) = false)
    (hlen : s2.store.allocs.length < 65536) (hroom : n ≤ (pageTiers s2 i f n).length)
    (hwin : (if fProject f then windowTier s2 i f (rfld s Reg.projCfg i 0 8 * slotPagesOf ls) else some 0).isSome) :
    ∃ t, allocCreateRun i s = cmdEnd Reg.allocCmd i .ok (rsetFld Reg.allocCmd i 16 16 (freeKeyFrom 0 s2.store.allocs) t) ∧
      t.store.allocs = mset (freeKeyFrom 0 s2.store.allocs) (newAlloc i base n f s2) s2.store.allocs ∧
      t.store.mem = (eraseRange (base * pageSize) (n * pageSize) s2).store.mem := by
  obtain ⟨hmem, hal⟩ := homePages_eraseRange_mem (freeKeyFrom 0 s2.store.allocs) base (base * pageSize) (n * pageSize) (pageTiers s2 i f n) s2
  have hfull : ¬ (65536 ≤ s2.store.allocs.length ∨ (pageTiers s2 i f n).length < n ∨
      (if fProject f then windowTier s2 i f (rfld s Reg.projCfg i 0 8 * slotPagesOf ls) else some 0).isNone = true) := by
    rw [Option.isNone_eq_false_iff.2 hwin]
    simp only [Bool.false_eq_true, or_false, not_or]
    omega
  -- The reading of the layer table is put in before anything computes.
  rw [allocCreateRun, ebase, en, ef, hread]
  simp only [hrange, hflags, hwide, hlayers, if_neg hfull, Bool.not_true, Bool.or_self, Bool.false_eq_true, if_false]
  refine ⟨_, rfl, ?_⟩
  split
  · exact ⟨congrArg (mset _ _) hal, hmem⟩
  · exact ⟨congrArg (mset _ _) hal, hmem⟩

/-! DESTROY (R43) -/

theorem allocDestroyRun_own {s : State} {i num : Nat} {al : Alloc} (hn : rfld s Reg.allocCmd i 16 16 = num) (ha : allocOf s num = some al)
    (hd : al.draining = false) (hp : al.part = i) : allocDestroyRun i s = setBusy Reg.allocCmd i true (allocDrop num s) :=
  namedAlloc_own hn ha hd hp _

@[simp] theorem allocDrop_proj (num : Nat) (s : State) : mget num (allocDrop num s).store.projs = none := mget_mdel_same _ _

theorem allocDrop_plain {num : Nat} {s : State} (h : ∀ m ∈ s.store.moves, m.2.held = []) :
    (allocDrop num s).store.mem = s.store.mem ∧ allocOf (allocDrop num s) num = (allocOf s num).map fun al => { al with draining := true } := by
  refine ⟨(abandonMoves_plain_store _ h).1, ?_⟩
  rw [allocOf, allocDrop]
  dsimp only
  rw [mget_mmapv, (abandonMoves_plain_store _ h).2]
  simp [allocOf]

theorem allocReturn_regs (num : Nat) (s : State) : (allocReturn num s).regs = s.regs := by
  unfold allocReturn
  split <;> rfl

theorem allocOf_allocReturn (num : Nat) (s : State) : allocOf (allocReturn num s) num = none := mget_mdel_same _ _

theorem allocReturn_pages (num : Nat) (s : State) : ∀ pg ∈ (allocReturn num s).store.pages, pg.2.alloc ≠ num := by
  intro pg h
  simpa using (List.mem_filter.1 h).2

theorem pagesReturned_free {num : Nat} {s : State} {al : Alloc} (ha : allocOf s num = some al) (hd : al.draining = true) (hu : allocInUse s al = false) :
    pagesReturned num s = cmdFinish Reg.allocCmd al.part (rfld s Reg.allocCmd al.part 16 16 == num) (allocReturn num s) := by
  simp [pagesReturned, ha, hd, hu]

/-- The end of a command that ran on touches registers only. -/
@[simp] theorem cmdFinish_store (r i : Nat) (mine : Bool) (s : State) : (cmdFinish r i mine s).store = s.store := by
  unfold cmdFinish
  split <;> rfl

theorem cmdFinish_mine {r i : Nat} {s : State} (hb : cmdBusy s r i = true) : cmdFinish r i true s = cmdEnd r i .ok s := by
  simp [cmdFinish, hb]

/-! SET_FLAGS (R38) -/

/-- What SET_FLAGS of partition i stores with an allocation, the registers read in s. -/
def flagsStored (i : Nat) (s : State) (al : Alloc) : Alloc :=
  let f := clearMask s (rget s Reg.allocFlags i)
  { (if fWidenOk al.flags && !fWidenOk f then revertWide al else al) with
    flags := f, wide := wideNum s i, wideFmt := wideFmt s i, wideSoff := wideSoff s i }

theorem setFlagsRun_own {s : State} {i num : Nat} {al : Alloc} {f : W32} (hn : rfld s Reg.allocCmd i 16 16 = num) (ha : allocOf s num = some al)
    (hd : al.draining = false) (hp : al.part = i) (ef : clearMask s (rget s Reg.allocFlags i) = f) (hmay : (f ^^^ al.flags) &&& ~~~setFlagsMay = 0)
    (hflags : flagsBad f (wideNum s i).isSome = false) (hwide : wideBad s i f = false) :
    ∃ p, setFlagsRun i s = cmdEnd Reg.allocCmd i .ok (abandonMoves p (allocMod num (flagsStored i s) s)) := by
  subst ef
  rw [setFlagsRun, namedAlloc_own hn ha hd hp, if_neg (by simp [hmay, hflags, hwide])]
  exact ⟨_, rfl⟩

/-- Settles O2, with one lemma for each command that says what it does to the allocation it names. -/
theorem allocationCommands : Obligations.AllocationCommands := by
  unfold Obligations.AllocationCommands
  refine ⟨?create, ?destroy, ?returned, ?setFlags⟩
  case create =>
    intro s path v i ha s1 base n f ls s2 hrange hflags hwide hread hlayers hlen hroom hwin
    obtain ⟨t, e, hal, hmem⟩ := allocCreateRun_enters (s := s1) rfl rfl rfl hrange hflags hwide hread hlayers hlen hroom hwin
    refine ⟨_, exec_issueTo ha (by decide) e, ?_, cmdEnd_busy .., cmdEnd_status .., ?_, fun a => ?_⟩
    · rw [allocOf, cmdEnd_store, rsetFld_store, hal, mget_mset_same]
      rfl
    · rw [cmdEnd_num _ _ _ _ _ _ (by omega), rget_rsetFld_same, fld_setFld_same _ _ _ _ (by omega)]
    · have hu : (cmdEnd Reg.allocCmd i .ok (rsetFld Reg.allocCmd i 16 16 (freeKeyFrom 0 s2.store.allocs) t)).store.mem =
          (eraseRange (base * pageSize) (n * pageSize) s2).store.mem := by rw [cmdEnd_store, rsetFld_store, hmem]
      rw [byteAt_congr hu, byteAt_eraseRange]
  case destroy =>
    intro s path v i num al hacc s1 hn ha hd hp
    have ha1 : allocOf s1 num = some al := by rwa [allocOf_taken]
    refine ⟨_, exec_issueTo hacc (by decide) (allocDestroyRun_own hn ha1 hd hp), rfl, setBusy_busy .., allocDrop_proj .., fun hm => ?_⟩
    obtain ⟨hmem, hal⟩ := allocDrop_plain (num := num) (s := s1) (by simpa [s1] using hm)
    refine ⟨?_, fun a => byteAt_congr ?_ a⟩
    · rw [allocOf, setBusy_store, ← allocOf, hal, ha1]
      rfl
    · rw [setBusy_store, hmem, taken_store]
  case returned =>
    intro s num al hal ha hd hu
    refine ⟨_, exec_actTo hal (pagesReturned_free ha hd hu), ?_, ?_, fun hb hn => ?_⟩
    · rw [allocOf, cmdFinish_store]
      exact allocOf_allocReturn ..
    · rw [cmdFinish_store]
      exact allocReturn_pages _ s
    · have hb' : cmdBusy (allocReturn num.toNat s) Reg.allocCmd al.part = true := by
        rwa [cmdBusy, rbit, rget_congr (allocReturn_regs ..)]
      rw [hn, beq_self_eq_true, cmdFinish_mine hb']
      exact ⟨cmdEnd_busy .., cmdEnd_status ..⟩
  case setFlags =>
    intro s path v i num al hacc s1 f hn ha hd hp hmay hflags hwide
    have ha1 : allocOf s1 num = some al := by rwa [allocOf_taken]
    obtain ⟨p, e⟩ := setFlagsRun_own (s := s1) hn ha1 hd hp rfl hmay hflags hwide
    refine ⟨_, exec_issueTo hacc (by decide) e, cmdEnd_busy .., cmdEnd_status .., fun hm => ?_⟩
    obtain ⟨hmem, hal⟩ := abandonMoves_plain_store p (s := allocMod num (flagsStored i s1) s1) (by simpa [allocMod, s1] using hm)
    refine ⟨?_, fun a => byteAt_congr ?_ a⟩
    · rw [allocOf, cmdEnd_store, hal, allocMod]
      dsimp only
      rw [mget_mmod_same]
      exact congrArg (Option.map _) ha1
    · rw [cmdEnd_store, hmem, allocMod, taken_store]

end Sys2Proof.Machine
end

section
/-! The commands and events of projectors (O3). -/

namespace Sys2Proof.Machine

open Sys2Proof

theorem mget_projMod (num : Nat) (f : Proj → Proj) (s : State) : mget num (projMod num f s).store.projs = (mget num s.store.projs).map f :=
  mget_mmod_same num f _

theorem mget_projStop (num : Nat) (s : State) : mget num (projStop num s).store.projs =
    (mget num s.store.projs).map fun p => { p with running := false, copying := false, resident := [] } := by
  rw [projStop, mget_mmod_same]

theorem projStopRun_own {s : State} {i num : Nat} {al : Alloc} {pr : Proj} (hn : rfld s Reg.allocCmd i 16 16 = num) (ha : allocOf s num = some al)
    (hd : al.draining = false) (hp : al.part = i) (hpr : mget num s.store.projs = some pr) :
    projStopRun i s = cmdEnd Reg.allocCmd i .ok (projStop num (projNamed i num s)) :=
  namedProj_own hn ha hd hp hpr _

/-- PROJ_RESTART with a layer table that fits and a window that is reserved or has room starts the projector again (R69, R70). -/
theorem projRestartRun_fits {s s2 : State} {i num : Nat} {al : Alloc} {pr : Proj} {ls : List (Nat × Nat)} (hn : rfld s Reg.allocCmd i 16 16 = num)
    (ha : allocOf s num = some al) (hd : al.draining = false) (hp : al.part = i) (hpr : mget num s.store.projs = some pr)
    (hread : readLayers i pr.tableOff pr.layers.length (projNamed i num s) = (some ls, s2)) (hls : layersBad ls al.pages = false)
    (hslot : slotPagesOf ls ≤ pr.slotPages)
    (hwin : pr.reserved = true ∨ pr.window * pr.slotPages ≤ min (quotaFree s2 al.part pr.winTier) (tierFree s2 pr.winTier)) :
    projRestartRun i s = cmdEnd Reg.allocCmd i .ok (projMod num (fun p => { p with
      layers := ls, consumers := rfld s2 Reg.projCfg i 8 16, readyTally := rfld s2 Reg.projTally i 0 16, doneTally := rfld s2 Reg.projTally i 16 16,
      k := 0, copying := false, running := true, reserved := true, resident := [] }) s2) := by
  have hroom : (!pr.reserved && decide (min (quotaFree s2 al.part pr.winTier) (tierFree s2 pr.winTier) < pr.window * pr.slotPages)) = false := by
    rcases hwin with h | h
    · simp [h]
    · simp only [decide_eq_false (Nat.not_lt.2 h), Bool.and_false]
  have hfit : (layersBad ls al.pages || decide (pr.slotPages < slotPagesOf ls)) = false := by
    rw [hls, decide_eq_false (Nat.not_lt.2 hslot), Bool.or_false]
  unfold projRestartRun
  rw [namedProj_own hn ha hd hp hpr]
  simp only [hread, hfit, hroom, Bool.false_eq_true, if_false]

/-- A fetch whose slot is free starts (R65). -/
theorem projFetch_free {s : State} {num : Nat} {al : Alloc} {pr : Proj} (hpr : mget num s.store.projs = some pr) (ha : allocOf s num = some al)
    (hrun : pr.running = true) (hcopy : pr.copying = false)
    (hslot : pr.window ≤ pr.k → tallyPart s pr.doneTally = some al.part ∧
      reached (tallyVal s pr.doneTally) (w32 (pr.consumers * (pr.k - pr.window + 1))) = true) :
    projFetch num s = projMod num (fun p => { p with copying := true, resident := p.resident.filter fun r => r.1 ≠ p.k % p.window }) s := by
  have hours : ¬ (pr.window ≤ pr.k ∧ tallyPart s pr.doneTally ≠ some al.part) := fun ⟨hk, ht⟩ => ht (hslot hk).1
  have hdone : ¬ (pr.window ≤ pr.k ∧ (!reached (tallyVal s pr.doneTally) (w32 (pr.consumers * (pr.k - pr.window + 1)))) = true) := by
    rintro ⟨hk, ht⟩
    rw [(hslot hk).2] at ht
    exact Bool.false_ne_true ht
  unfold projFetch
  simp only [hpr, ha, hrun, hcopy, hours, hdone, Bool.not_true, Bool.or_self, Bool.false_eq_true, if_false]

/-- A fetch that is done makes its layer resident, then READY is added to (R66). -/
theorem projFetched_ours {s : State} {num : Nat} {al : Alloc} {pr : Proj} (hpr : mget num s.store.projs = some pr) (ha : allocOf s num = some al)
    (hrun : pr.running = true) (hcopy : pr.copying = true) (hours : tallyPart s pr.readyTally = some al.part) :
    projFetched num s = tallyAddTo pr.readyTally 1 (projMod num (fun p => { p with
      copying := false, k := p.k + 1, resident := p.resident ++ [(p.k % p.window, p.k % p.layers.length)] }) s) := by
  unfold projFetched
  simp [hpr, ha, hrun, hcopy, hours]

/-- Settles O3, with one lemma for each command and event that says what it makes of the projector. -/
theorem projectorCommands : Obligations.ProjectorCommands := by
  unfold Obligations.ProjectorCommands
  refine ⟨?stop, ?restart, ?fetchStart, ?fetchDone⟩
  case stop =>
    intro s path v i num al pr hacc s1 hn ha hd hp hpr
    have ha1 : allocOf s1 num = some al := by rwa [allocOf_taken]
    have hpr1 : mget num s1.store.projs = some pr := by rwa [taken_store]
    refine ⟨_, exec_issueTo hacc (by decide) (projStopRun_own hn ha1 hd hp hpr1), ?_, cmdEnd_status .., cmdEnd_busy .., fun a => byteAt_congr ?_ a⟩
    · rw [cmdEnd_store, mget_projStop, projNamed, rset_store, hpr1]
      rfl
    · rw [cmdEnd_store, projStop, projNamed, rset_store, taken_store]
  case restart =>
    intro s path v i num al pr ls s2 hacc s1 hn ha hd hp hpr hread hls hslot hwin
    have ha1 : allocOf s1 num = some al := by rwa [allocOf_taken]
    have hpr1 : mget num s1.store.projs = some pr := by rwa [taken_store]
    refine ⟨_, exec_issueTo hacc (by decide) (projRestartRun_fits hn ha1 hd hp hpr1 hread hls hslot hwin), ?_, cmdEnd_status .., cmdEnd_busy ..,
      fun a => byteAt_congr ?_ a⟩
    · rw [cmdEnd_store, mget_projMod]
    · rw [cmdEnd_store, projMod]
  case fetchStart =>
    intro s num al pr hal hpr ha hrun hcopy hslot
    refine ⟨_, exec_actTo hal (projFetch_free hpr ha hrun hcopy hslot), ?_, rfl, fun a => rfl⟩
    rw [mget_projMod, hpr]
    rfl
  case fetchDone =>
    intro s num al pr hal hpr ha hrun hcopy hours
    refine ⟨_, exec_actTo hal (projFetched_ours hpr ha hrun hcopy hours), ?_, rfl, rfl, fun a => rfl⟩
    rw [mget_projMod, hpr]
    rfl

end Sys2Proof.Machine
end

section
/-! Quotas, widening and lent extents (O4, O5). -/

namespace Sys2Proof.Machine

open Sys2Proof

/-! Quotas and widening (R46, R93, R98, R101) -/

theorem allocOf_allocMod (num : Nat) (f : Alloc → Alloc) (s : State) (k : Nat) :
    allocOf (allocMod num f s) k = if num = k then (allocOf s k).map f else allocOf s k := by
  split
  · next h => subst h; exact mget_mmod_same num f _
  · next h => exact mget_mmod_ne h f _

/-- REVERT marks a widened allocation of the partition and no other. -/
theorem allocOf_wideCtlSet {v : W32} {i num : Nat} {s : State} {al : Alloc} (ha : allocOf s num = some al) :
    allocOf (wideCtlSet v i s) num =
      some (if bit v 17 = true ∧ num = fld v 0 16 ∧ al.part = i ∧ al.widened = true then { al with reverting := true } else al) := by
  have ha' : allocOf (cfgStore Reg.wideCtl i v s) num = some al := (allocOf_congr (by rw [cfgStore_store]) num).trans ha
  unfold wideCtlSet
  dsimp only
  by_cases hv : bit v 17 = true
  · rw [if_pos hv, allocOf_allocMod, ha']
    by_cases hn : fld v 0 16 = num
    · by_cases hp : al.part = i <;> simp [hv, hn, hp, revertWide]
    · simp [hn, Ne.symm hn]
  · simp [hv, ha']

theorem wideCtlSet_mem (v : W32) (i : Nat) (s : State) : (wideCtlSet v i s).store.mem = s.store.mem := by
  unfold wideCtlSet
  dsimp only
  split <;> simp [allocMod]

/-- WIDEN of an allocation whose failures have reached the threshold (R98). -/
theorem widenRun_reached {s : State} {num : Nat} {al : Alloc} (ha : allocOf s num = some al) (hd : al.draining = false) (hok : fWidenOk al.flags = true)
    (hw : al.widened = false) (hth : rfld s Reg.beWiden 0 0 16 ≠ 0) (hst : unitStopped s 1 (some al.part) = false)
    (hsum : rfld s Reg.beWiden 0 0 16 ≤ ((al.fails.drop 1).take (max 1 (rfld s Reg.beWiden 0 16 8))).sum) :
    widenRun num s = trigger 9 (w64 num) (some al.part) 0
      (bump Reg.widenCount al.part (allocMod num (fun al => { al with widened := true, reverting := false }) s)) := by
  have hlt : ¬ ((al.fails.drop 1).take (max 1 (rfld s Reg.beWiden 0 16 8))).sum < rfld s Reg.beWiden 0 0 16 := Nat.not_lt.2 hsum
  unfold widenRun
  simp only [ha, hd, hok, hw, hth, hst, hlt, Bool.not_true, Bool.or_self, decide_false, Bool.false_eq_true, if_false]

/-- Settles O4: the effect of each register write, and of WIDEN, is its own lemma's state. -/
theorem quotaAndWidening : Obligations.QuotaAndWidening := by
  unfold Obligations.QuotaAndWidening
  refine ⟨?quota, ?revert, ?widen⟩
  case quota =>
    intro s path t v i hr s1
    refine exec_regWriteTo hr ?_
    simp only [tierQuotaSet, shedReplicas, Bool.not_eq_true', s1, taken]
  case revert =>
    intro s path v i hr
    refine ⟨_, exec_regWrite hr v fun i _ s => wideCtlSet v i s, fun num al ha => allocOf_wideCtlSet ha, fun a => byteAt_congr ?_ a⟩
    rw [wideCtlSet_mem, useUnlock_store]
  case widen =>
    intro s num al hal ha hd hok hw hth hst hsum
    refine ⟨_, exec_actTo hal (widenRun_reached ha hd hok hw hth hst hsum), ?_, cget_bump_same .., fun a => rfl⟩
    rw [allocOf, bump_store, ← allocOf, allocOf_allocMod, if_pos rfl, ha]
    rfl

/-! Lent extents (R50 to R58) -/

theorem hostxExt_host (s : State) : ∃ p n, hostxExt s = .host p n := ⟨_, _, rfl⟩

/-- LEND of a free extent number with good operands (R55). -/
theorem hostxLendRun_free {s : State} {p : Fin 2} {n : Fin 64} (he : hostxExt s = .host p n) (ht : tierDisabled s 4 = false) (hsize : rfld s Reg.hostxSize 0 0 28 ≠ 0)
    (hnotice : rfld s Reg.hostxNotice 0 0 14 ≤ 10000) (hfree : extOf s (.host p n) = none) :
    ∃ t, hostxLendRun s = cmdEnd Reg.hostxCmd 0 .ok t ∧ t.store.mem = s.store.mem ∧
      t.store.extents = s.store.extents ++ [(.host p n,
        { lender := p.val
          addr := (rget s Reg.hostxAddrLo 0).toNat + (rget s Reg.hostxAddrHi 0).toNat * 2 ^ 32, pages := rfld s Reg.hostxSize 0 0 28
          noticeMs := rfld s Reg.hostxNotice 0 0 14, withdrawn := false, edges := 0, released := false })] := by
  have hrange : ¬ (rfld s Reg.hostxSize 0 0 28 = 0 ∨ 10000 < rfld s Reg.hostxNotice 0 0 14) := by omega
  unfold hostxLendRun
  simp only [he, ht, hfree, if_neg hrange, Option.isSome_none, Bool.false_eq_true, if_false]
  exact ⟨_, rfl, rfl, rfl⟩

theorem hostxNoticeRun_lent {s : State} {x : Extent} (h : extOf s (hostxExt s) = some x) :
    hostxNoticeRun s = withdraw (hostxExt s) (setBusy Reg.hostxCmd 0 true s) := by
  simp [hostxNoticeRun, h]

theorem extEarly_empty {s : State} {e : ExtId} {x : Extent} (hx : extOf s e = some x) (hw : x.withdrawn = true) (hr : x.released = false)
    (hp : (extPages s e).isEmpty = true) (ho : (s.store.oldLocs.any fun o => o.loc == .ext e) = false) : extEarly e s = extRelease e s := by
  simp [extEarly, hx, hw, hr, hp, ho]

theorem noticeEnd_over {s : State} {e : ExtId} {x : Extent} (hx : extOf s e = some x) (hw : x.withdrawn = true) (hr : x.released = false)
    (ho : noticeOver s e x = true) : noticeEnd e s = extRelease e s := by
  simp [noticeEnd, hx, hw, hr, ho]

theorem extOf_extDel (e : ExtId) (s : State) : extOf (extDel e s) e = none := by
  simp [extOf, extDel]

/-- A host extent that is released is held no longer. -/
theorem extOf_extRelease_host (p : Fin 2) (n : Fin 64) (s : State) : extOf (extRelease (.host p n) s) (.host p n) = none := by
  unfold extRelease
  dsimp only
  split
  · rw [extOf, cmdEnd_store]
    exact extOf_extDel ..
  · exact extOf_extDel ..

/-- Settles O5, with one lemma for each command and event that names the branch it takes. -/
theorem lentExtentCommands : Obligations.LentExtentCommands := by
  unfold Obligations.LentExtentCommands
  refine ⟨?lend, ?notice, ?early, ?noticeEnd, fun s p n => extOf_extRelease_host p n s⟩
  case lend =>
    intro s path v i hacc s1 ht hsize hnotice hfree
    obtain ⟨p, n, he⟩ := hostxExt_host s1
    rw [he] at hfree ⊢
    obtain ⟨t, e, hmem, hext⟩ := hostxLendRun_free (s := s1) he ht hsize hnotice hfree
    refine ⟨_, exec_issueTo hacc (by decide) e, ?_, cmdEnd_status .., cmdEnd_busy .., fun a => byteAt_congr ?_ a⟩
    · rw [cmdEnd_store, hext, taken_store]
    · rw [cmdEnd_store, hmem, taken_store]
  case notice => exact fun s path v i x hacc hx => exec_issueTo hacc (by decide) (hostxNoticeRun_lent hx)
  case early => exact fun s e x hal hx hw hr hp ho => exec_actTo hal (extEarly_empty hx hw hr hp ho)
  case noticeEnd => exact fun s e x hal hx hw hr ho => exec_actTo hal (noticeEnd_over hx hw hr ho)

end Sys2Proof.Machine
end

section
/-! The commands of embedding tables (O16). -/

namespace Sys2Proof.Machine

open Sys2Proof

/-- CREATE of a free number with a good image of the partition enters the table (R197, R202). -/
theorem tblCreateRun_good {s s2 : State} {i a m : Nat} {g : Got} (hfree : mget (tblNum s i) s.eng.tables = none)
    (ha : addrOf s (tblImageOff s i) 64 = .store a) (hp : addrPart s (.store a) = i) (hread : memRead (tblImageOff s i) 64 s = (g, s2)) (hg : g.pois = [])
    (hfields : tblFieldsBad g.bytes = false) (hmode : tblMode s2 g.bytes (liveAlloc s2 (qf g.bytes 0 0 16)) = some m)
    (hallocs : tblAllocsBad s2 g.bytes m = false) (hours : tblForeign s2 i g.bytes = false) :
    tblCreateRun i s = cmdEnd Reg.tblCmd i .ok { s2 with eng := { s2.eng with
      tables := mset (tblNum s i) { part := i, image := g.bytes, mode := m, stale := false, banned := [], ending := false, users := [] } s2.eng.tables } } := by
  -- The reads are put in before anything computes: the model's arithmetic on the image's address stays closed.
  rw [tblCreateRun, hfree, ha, hread]
  simp only [hp, ne_eq, not_true_eq_false, if_false, hg, List.isEmpty_nil, Bool.not_true, hfields, hmode, Option.isNone_some, Option.getD_some, hallocs,
    Bool.or_self, hours, Bool.false_eq_true]

theorem namedTable_own {s : State} {i : Nat} {t : Table} (ht : mget (tblNum s i) s.eng.tables = some t) (hp : t.part = i) (he : t.ending = false)
    (f : Nat → State → State) : namedTable i s f = f (tblNum s i) s := by
  simp [namedTable, ht, hp, he]

/-! DESTROY (R203) -/

/-- A table that DESTROY has marked, its row moves and replicas on their way out (R90, R93). -/
def tableEnding (num : Nat) (us : List (Nat × Nat)) (s : State) : State :=
  { s with
    eng := { s.eng with tables := mmod num (fun t => { t with ending := true, users := us }) s.eng.tables }
    rows := { s.rows with
      moves := s.rows.moves.filter fun e => e.1 / 2 ^ 40 != num
      replicas := mmapv (fun k r => if k / 2 ^ 40 = num then { r with retiring := true } else r) s.rows.replicas } }

theorem mget_tableEnding {num : Nat} {t : Table} {s : State} (ht : mget num s.eng.tables = some t) (us : List (Nat × Nat)) :
    mget num (tableEnding num us s).eng.tables = some { t with ending := true, users := us } := by
  rw [tableEnding, mget_mmod_same, ht]
  rfl

theorem tblDestroyRun_own {s : State} {i : Nat} {t : Table} (ht : mget (tblNum s i) s.eng.tables = some t) (hp : t.part = i) (he : t.ending = false) :
    tblDestroyRun i s = tableEnd (tblNum s i) (tableEnding (tblNum s i) (runningDescs s (usesTable (tblNum s i))) (setBusy Reg.tblCmd i true s)) :=
  namedTable_own ht hp he _

theorem rget_tableEnding (num : Nat) (us : List (Nat × Nat)) (s : State) (r i : Nat) : rget (tableEnding num us s) r i = rget s r i := rfl

theorem tblNum_tableEnding (num : Nat) (us : List (Nat × Nat)) (s : State) (i : Nat) : tblNum (tableEnding num us s) i = tblNum s i := rfl

theorem cmdBusy_tableEnding (num : Nat) (us : List (Nat × Nat)) (s : State) (r i : Nat) : cmdBusy (tableEnding num us s) r i = cmdBusy s r i := rfl

/-- A table that waits for its users stays while one of them runs. -/
theorem tableEnd_used {num : Nat} {t : Table} {s : State} (ht : mget num s.eng.tables = some t) (hu : stillRunning s t.users = true) :
    tableEnd num s = s := by
  simp [tableEnd, ht, hu]

/-- A table without users goes, and the DESTROY that named it ends. -/
theorem tableEnd_unused {num : Nat} {t : Table} {s : State} (ht : mget num s.eng.tables = some t) (he : t.ending = true) (hu : t.users = [])
    (hn : tblNum s t.part = num) (hb : cmdBusy s Reg.tblCmd t.part = true) :
    ∃ u, tableEnd num s = cmdEnd Reg.tblCmd t.part .ok u ∧ u.eng.tables = mdel num s.eng.tables ∧ u.store = s.store := by
  unfold tableEnd
  simp only [ht, he, hu, hn, stillRunning, List.any_nil, Bool.not_false, Bool.and_self, if_true, beq_self_eq_true]
  exact ⟨_, cmdFinish_mine hb, rfl, rfl⟩

/-! CLEAR_STALE (R225) -/

theorem tblClearRun_own {s : State} {i : Nat} {t : Table} (ht : mget (tblNum s i) s.eng.tables = some t) (hp : t.part = i) (he : t.ending = false) :
    tblClearRun i s = cmdEnd Reg.tblCmd i .ok
      { s with eng := { s.eng with tables := mmod (tblNum s i) (fun t => { t with stale := false, banned := [] }) s.eng.tables } } :=
  namedTable_own ht hp he _

theorem cmdBusy_setBusy (r i : Nat) (s : State) : cmdBusy (setBusy r i true s) r i = true := by
  have h := setBusy_busy r i true s
  rw [cmdBusy, rbit, BitVec.getLsbD, Nat.testBit_eq_decide_div_mod_eq, decide_eq_true_eq]
  exact h

theorem tblNum_setBusy (i : Nat) (b : Bool) (s : State) : tblNum (setBusy Reg.tblCmd i b s) i = tblNum s i := by
  rw [tblNum, rfld, setBusy, rget_rsetFld_same, fld_setFld_above _ 4 1 _ 16 14 (by omega) (by omega)]
  rfl

/-- Settles O16: DESTROY first marks the table, and then `tableEnd` removes it or waits for its users. -/
theorem tableCommands : Obligations.TableCommands := by
  unfold Obligations.TableCommands
  refine ⟨?create, ?destroy, ?clear⟩
  case create =>
    intro s s2 path v i a g m hacc s1 hfree ha hp hread hg hfields hmode hallocs hours
    refine ⟨_, exec_issueTo hacc (by decide) (tblCreateRun_good hfree ha hp hread hg hfields hmode hallocs hours), ?_, cmdEnd_busy .., cmdEnd_status ..,
      rfl, rfl⟩
    rw [cmdEnd_eng, mget_mset_same]
  case destroy =>
    intro s path v i num t hacc s1 hn ht hp he us
    have ht1 : mget (tblNum s1 i) s1.eng.tables = some t := by rwa [hn, taken_eng]
    have hus : runningDescs s1 (usesTable num) = us := by rw [runningDescs, taken_eng]; rfl
    have e := tblDestroyRun_own ht1 hp he
    rw [hn, hus] at e
    have htE : mget num (tableEnding num us (setBusy Reg.tblCmd i true s1)).eng.tables = some { t with ending := true, users := us } :=
      mget_tableEnding (by rwa [setBusy_eng, ← hn]) us
    refine ⟨fun hnil => ?_, fun hrun => ?_⟩
    · subst hp
      obtain ⟨u, eu, htab, hst⟩ := tableEnd_unused htE rfl hnil (by rw [tblNum_tableEnding, tblNum_setBusy, hn])
        (by rw [cmdBusy_tableEnding, cmdBusy_setBusy])
      refine ⟨_, exec_issueTo hacc (by decide) (e.trans eu), ?_, fun k hk => ?_, cmdEnd_busy .., cmdEnd_status .., ?_⟩
      · rw [cmdEnd_eng, htab, mget_mdel_same]
      · rw [cmdEnd_eng, htab, mget_mdel_ne (Ne.symm hk), tableEnding]
        dsimp only
        rw [mget_mmod_ne (Ne.symm hk), setBusy_eng, taken_eng]
      · rw [cmdEnd_store, hst, tableEnding]
        exact taken_store ..
    · have eu := tableEnd_used htE (by simpa [stillRunning, tableEnding, descOf, queueOf, s1] using hrun)
      refine ⟨_, exec_issueTo hacc (by decide) (e.trans eu), htE, fun k hk => ?_, ?_, taken_store ..⟩
      · rw [tableEnding]
        dsimp only
        rw [mget_mmod_ne (Ne.symm hk), setBusy_eng, taken_eng]
      · rw [rget_tableEnding, setBusy_busy]
        rfl
  case clear =>
    intro s path v i num t hacc s1 hn ht hp he
    have ht1 : mget (tblNum s1 i) s1.eng.tables = some t := by rwa [hn, taken_eng]
    refine ⟨_, exec_issueTo hacc (by decide) (tblClearRun_own ht1 hp he), ?_, fun k hk => ?_, cmdEnd_busy .., cmdEnd_status .., taken_store .., taken_rows ..⟩
    · rw [cmdEnd_eng]
      dsimp only
      rw [hn, mget_mmod_same, ← hn, ht1]
      rfl
    · rw [cmdEnd_eng]
      dsimp only
      rw [hn, mget_mmod_ne (Ne.symm hk), taken_eng]

end Sys2Proof.Machine
end

section
/-! Messages of lent memory and of managers (O30). -/

namespace Sys2Proof.Machine

open Sys2Proof

/-- The fabric unit of a hub at which a packet arrives is not stopped as a whole (R465). -/
theorem Arrives.fabricRuns {s : State} {port : Nat} {p : Packet} (h : Arrives s port p) : unitStopped s 8 none = false := by
  obtain ⟨-, -, -, hport⟩ := h
  rw [portStopped, unitStopped, List.any_eq_false] at hport
  rw [unitStopped, List.any_eq_false]
  intro e he
  have hne := hport e he
  simp only [Bool.and_eq_true, Bool.or_eq_true, not_and, not_or, bne_self_eq_false, and_false, Bool.false_eq_true, or_false] at hne ⊢
  exact fun h8 => (hne h8).1

/-! LEND (R59) -/

/-- A loan extent of an endpoint. -/
def lends (ep : Nat) (x : ExtId × Extent) : Bool := match x.1 with | .loan _ => x.2.lender == ep | _ => false

/-- The lowest free number of the loan table. -/
def freeLoan (s : State) : Option (Fin 1024) := (List.finRange 1024).find? fun n => (extOf s (.loan n)).isNone

theorem freeLoan_eq_none {s : State} (h : ∀ n : Fin 1024, extOf s (.loan n) ≠ none) : freeLoan s = none := by
  rw [freeLoan, List.find?_eq_none]
  intro n _
  rw [Option.isNone_iff_eq_none]
  exact h n

/-- The extent that a LEND enters. -/
def lentBy (p : Packet) : Extent :=
  { lender := p.src.toNat, addr := leAt p.payload 0 8, pages := leAt p.payload 8 4, noticeMs := leAt p.payload 12 2, withdrawn := false, edges := 0, released := false }

def loanAdd (n : Fin 1024) (x : Extent) (s : State) : State := { s with store := { s.store with extents := s.store.extents ++ [(.loan n, x)] } }

section Lend
variable {s : State} {p : Packet} (h1 : unitStopped s 1 none = false) (h8 : unitStopped s 8 none = false)
include h1 h8

theorem takeLend_disabled (ht : tierDisabled s 5 = true) : takeLend p s = reply (rspTo s p .decode 0 0 []) s := by
  simp [takeLend, h1, h8, ht]

variable (ht : tierDisabled s 5 = false) (hb : leAt p.payload 0 8 % pageSize = 0) (hn : leAt p.payload 8 4 ≠ 0) (hms : leAt p.payload 12 2 ≤ 10000)
include ht hb hn hms

/-- A LEND whose fields pass their checks is answered by what stands in the loan table. -/
theorem takeLend_fields : takeLend p s =
    if s.store.extents.any (lends p.src.toNat) then reply (rspTo s p .quota 0 0 []) s
    else (freeLoan s).elim (reply (rspTo s p .quota 0 0 []) s) fun n => reply (rspTo (loanAdd n (lentBy p) s) p .ok n.val 0 []) (loanAdd n (lentBy p) s) := by
  have hfields : ¬ (tierDisabled s 5 = true ∨ leAt p.payload 0 8 % pageSize ≠ 0 ∨ leAt p.payload 8 4 = 0 ∨ 10000 < leAt p.payload 12 2) := by
    rw [ht]
    simp only [Bool.false_eq_true, false_or]
    omega
  unfold takeLend
  simp only [h1, h8, Bool.or_self, Bool.false_eq_true, if_false, if_neg hfields]
  refine if_congr Iff.rfl rfl ?_
  rw [freeLoan]
  split <;> next h => rw [h]; rfl

theorem takeLend_free {n : Fin 1024} (hl : s.store.extents.any (lends p.src.toNat) = false) (hf : freeLoan s = some n) :
    takeLend p s = reply (rspTo (loanAdd n (lentBy p) s) p .ok n.val 0 []) (loanAdd n (lentBy p) s) := by
  rw [takeLend_fields h1 h8 ht hb hn hms, hl, hf]
  rfl

theorem takeLend_full (hfull : s.store.extents.any (lends p.src.toNat) = true ∨ freeLoan s = none) :
    takeLend p s = reply (rspTo s p .quota 0 0 []) s := by
  rw [takeLend_fields h1 h8 ht hb hn hms]
  rcases hfull with h | h
  · rw [if_pos h]
  · rw [h, Option.elim_none, ite_self]

end Lend

/-! NOTICE, RELEASE and the ends of loans (R61, R388) -/

theorem takeNotice_named {s : State} {p : Packet} {e : ExtId} (h : msgExt s p = some e) :
    takeNotice p s = reply (ackTo (withdraw e s) p .ok 0) (withdraw e s) := by
  unfold takeNotice
  rw [h]

theorem sendRelease_free {s : State} {n : Fin 1024} {x : Extent} (hx : extOf s (.loan n) = some x) (hr : x.released = true)
    (ho : (s.store.oldLocs.any fun o => o.loc == .ext (.loan n)) = false) :
    sendRelease n s = (sendReq (mkReq (mkPacket s tRELEASE x.lender 0 (w64 n.val) []) none 0 0 .hub) (extDel (.loan n) s)).2 := by
  simp [sendRelease, hx, hr, ho]

theorem mem_lentExpire (b : Nat) (s : State) (l : LentOut) :
    l ∈ (lentExpire b s).store.lentOut ↔ l ∈ s.store.lentOut ∧ ¬ (l.borrower = b ∧ l.noticed = true ∧ l.noticeMs * 3 ≤ 2 * l.edges) := by
  rw [lentExpire, List.mem_filter]
  simp only [Bool.not_eq_true', ← Bool.not_eq_true, Bool.and_eq_true, beq_iff_eq, decide_eq_true_eq, and_assoc]

/-! LOST and WALK_REQ (R362, R369) -/

theorem takeLost_manager {s : State} {p : Packet} (h : isManager s p.src.toNat = true) :
    takeLost p s = reply (ackTo (endpointLost (fld p.arg 0 18) s) p .ok 0) (endpointLost (fld p.arg 0 18) s) := by
  simp [takeLost, h]

theorem takeLost_other {s : State} {p : Packet} (h : isManager s p.src.toNat = false) :
    takeLost p s = reply (ackTo s p .ownership 0) (bump Reg.mgmtRefused 0 s) := by
  simp [takeLost, h]

/-- Who may ask for a walk for the agent a WALK_REQ names: a manager, or the endpoint of the agent's own host (R362). -/
def mayWalk (s : State) (p : Packet) : Prop :=
  isManager s p.src.toNat = true ∨
    ((leAt p.payload 0 8 / 2 ^ 50 % 4 = 1 ∨ leAt p.payload 0 8 / 2 ^ 50 % 4 = 2) ∧ leAt p.payload 0 8 / 2 ^ 32 % 2 ^ 18 = p.src.toNat)


theorem mayWalk_iff (s : State) (p : Packet) :
    (isManager s p.src.toNat || ((leAt p.payload 0 8 / 2 ^ 50 % 4 == 1 || leAt p.payload 0 8 / 2 ^ 50 % 4 == 2) &&
      leAt p.payload 0 8 / 2 ^ 32 % 2 ^ 18 == p.src.toNat)) = true ↔ mayWalk s p := by
  simp only [Bool.or_eq_true, Bool.and_eq_true, beq_iff_eq, mayWalk]

theorem takeWalkReq_refused {s : State} {port : Nat} {p : Packet} (h : ¬ mayWalk s p) :
    takeWalkReq port p s = reply (ackTo s p .ownership 0) (bump Reg.mgmtRefused 0 s) :=
  if_neg ((mayWalk_iff s p).not.2 h)

theorem takeWalkReq_noSlot {s : State} {port : Nat} {p : Packet} (h : mayWalk s p)
    (hn : slotOfId s (leAt p.payload 0 8 / 2 ^ 50 % 4) (leAt p.payload 0 8 / 2 ^ 32 % 2 ^ 18) = none) :
    takeWalkReq port p s = reply (ackTo s p .ok 0) s := by
  rw [takeWalkReq, if_pos ((mayWalk_iff s p).2 h), hn]

theorem takeWalkReq_slot {s : State} {port n : Nat} {p : Packet} (h : mayWalk s p)
    (hn : slotOfId s (leAt p.payload 0 8 / 2 ^ 50 % 4) (leAt p.payload 0 8 / 2 ^ 32 % 2 ^ 18) = some n) :
    takeWalkReq port p s =
      addWalk { lo := p.addr.toNat, hi := p.addr.toNat + leAt p.payload 0 8 % 2 ^ 28 * pageSize, slot := some n, why := .request port p, running := false } s := by
  rw [takeWalkReq, if_pos ((mayWalk_iff s p).2 h), hn]

/-- Settles O30, with one lemma for each message's outcome. -/
theorem loanAndManagerMessages : Obligations.LoanAndManagerMessages := by
  unfold Obligations.LoanAndManagerMessages
  refine ⟨?lend, ?lendRefused, ?notice, ?release, ?releaseSend, ?expire, ?lost, ?walk⟩
  case lend =>
    intro s port p n ha h1 ht hb hn hms hl hf
    exact exec_arriveTo ha (takeLend_free h1 ha.fabricRuns ht hb hn hms hl hf)
  case lendRefused =>
    intro s port p ha h1
    refine ⟨fun ht => exec_arriveTo ha (takeLend_disabled h1 ha.fabricRuns ht), fun ht hb hn hms hfull => ?_⟩
    exact exec_arriveTo ha (takeLend_full h1 ha.fabricRuns ht hb hn hms (hfull.imp_right freeLoan_eq_none))
  case notice => exact fun s port p e ha he => exec_arriveTo ha (takeNotice_named he)
  case release =>
    intro s port p ha mine hmine s1
    refine exec_arriveTo ha ?_
    rw [takeRelease]
    exact if_pos hmine
  case releaseSend => exact fun s n x hal hx hr ho => exec_actTo hal (sendRelease_free hx hr ho)
  case expire => exact fun s b hal => ⟨_, exec_act hal, rfl, rfl, mem_lentExpire b.toNat s⟩
  case lost =>
    intro s port p ha
    exact ⟨fun h => exec_arriveTo ha (takeLost_manager h), fun h => exec_arriveTo ha (takeLost_other h)⟩
  case walk =>
    intro s port p ha kind ep may
    exact ⟨fun h => exec_arriveTo ha (takeWalkReq_refused h), fun h hs => exec_arriveTo ha (takeWalkReq_noSlot h hs),
      fun n h hs => exec_arriveTo ha (takeWalkReq_slot h hs)⟩

end Sys2Proof.Machine
end

section
/-! Page moves: their passes, the switch and the release of old places (O6). -/

namespace Sys2Proof.Machine

open Sys2Proof

/-! The end of a pass (R80, R82, R83, R85) -/

theorem mget_moveMod (pg : Nat) (f : Move → Move) (s : State) : mget pg (moveMod pg f s).store.moves = (mget pg s.store.moves).map f :=
  mget_mmod_same pg f _

/-- A placement move that its third disturbed pass abandons: counted, and its page left alone for 16 ticks (R82). -/
def moveAbandoned (pg : Nat) (s : State) : State :=
  pageMod pg (fun p => { p with retryAt := s.boot.tick + 16 })
    (abandonMoves (fun k _ => k == pg) (bump Reg.migAbandoned (partAt s (pg * pageSize)) s))

theorem movePass_failed {s : State} {pg : Nat} {found : Media} {m : Move} (hm : mget pg s.store.moves = some m) (hr : m.ready = false)
    (hf : found = .failed ∨ found = .crcFailed) : movePass pg found s = moveFailed pg m s := by
  unfold movePass
  simp only [hm, hr, hf, Bool.false_eq_true, if_false, if_true]

/-- The end of a pass whose writes all succeeded. -/
theorem movePass_written {s : State} {pg : Nat} {found : Media} {m : Move} (hm : mget pg s.store.moves = some m) (hr : m.ready = false)
    (hf : found = .good ∨ found = .corrected) : movePass pg found s =
      if m.heldPass = true ∨ m.dirty = [] then moveMod pg (fun m => { m with ready := true, dirty := [] }) s
      else if m.pass < 3 then moveMod pg (fun m => { m with pass := m.pass + 1, dirty := [] }) s
      else if m.kind.forced then moveMod pg (fun m => { m with heldPass := true }) s
      else moveAbandoned pg s := by
  have hok : ¬ (found = .failed ∨ found = .crcFailed) := by
    rcases hf with rfl | rfl <;> simp
  unfold movePass
  simp only [hm, hr, hok, Bool.false_eq_true, if_false, Bool.or_eq_true, List.isEmpty_iff]
  rfl

/-- Where no write is held for a moving page, the abandoned move ends and nothing else moves. -/
theorem moveAbandoned_plain {pg : Nat} {s : State} (h : ∀ x ∈ s.store.moves, x.2.held = []) :
    moveAbandoned pg s = pageMod pg (fun p => { p with retryAt := s.boot.tick + 16 })
      (bump Reg.migAbandoned (partAt s (pg * pageSize)) { s with store := { s.store with moves := s.store.moves.filter fun m => !(m.1 == pg) } }) := by
  rw [moveAbandoned, abandonMoves_plain _ _ (by simpa using h)]
  rfl

theorem mget_filter_other {α : Type} (k : Nat) (m : NMap α) : mget k (m.filter fun e => !(e.1 == k)) = none := by
  rw [mget_filter_key (fun j => !(j == k)), beq_self_eq_true]
  rfl

/-- A count of one event more on a state with the same live counts. -/
theorem cget_bump_of_live (s : State) {t : State} (h : t.live = s.live) (r i : Nat) : cget (bump r i t) r i = min (cget s r i + 1) 0xFFFFFFFF := by
  rw [cget_bump_same, cget_congr h]

theorem mget_pageMod (pg : Nat) (f : Page → Page) (s : State) : mget pg (pageMod pg f s).store.pages = (mget pg s.store.pages).map f :=
  mget_mmod_same pg f _

theorem cget_pageMod (pg : Nat) (f : Page → Page) (s : State) (r i : Nat) : cget (pageMod pg f s) r i = cget s r i := rfl

/-- Where no write is held for a moving page, the abandoned move ends, counted, with its page left alone for 16 ticks and every byte as it was. -/
theorem moveAbandoned_effect {pg : Nat} {s : State} (h : ∀ x ∈ s.store.moves, x.2.held = []) :
    mget pg (moveAbandoned pg s).store.moves = none ∧
      mget pg (moveAbandoned pg s).store.pages = (mget pg s.store.pages).map (fun p => { p with retryAt := s.boot.tick + 16 }) ∧
      cget (moveAbandoned pg s) Reg.migAbandoned (partAt s (pg * pageSize)) = min (cget s Reg.migAbandoned (partAt s (pg * pageSize)) + 1) 0xFFFFFFFF ∧
      ∀ a, byteAt (moveAbandoned pg s) a = byteAt s a := by
  rw [moveAbandoned_plain h]
  refine ⟨mget_filter_other .., mget_pageMod .., ?_, fun a => rfl⟩
  rw [cget_pageMod]
  exact cget_bump_of_live s rfl ..

/-! The switch (R81, R84) -/

@[simp] theorem markPoison_pages (off n : Nat) (s : State) : (markPoison off n s).store.pages = s.store.pages := by
  unfold markPoison
  split <;> rfl

@[simp] theorem coarsenPoison_pages (pg : Nat) (s : State) : (coarsenPoison pg s).store.pages = s.store.pages := by
  unfold coarsenPoison
  refine List.foldlRecOn (motive := fun t : State => t.store.pages = s.store.pages) _ _ rfl fun t ht i _ => ?_
  split
  · exact ht
  · rw [markPoison_pages, ht]

/-- A page at its new place, its move over and its old place kept. -/
def moveSwitched (pg : Nat) (m : Move) (s : State) : State :=
  let old : OldLoc := { page := pg, part := partAt s (pg * pageSize), tier := m.srcTier, loc := m.srcLoc }
  let s := coarsenPoison pg (pageMod pg (fun p => { p with tier := m.dstTier, loc := m.dstLoc }) s)
  { s with store := { s.store with moves := mdel pg s.store.moves, oldLocs := s.store.oldLocs ++ [old] } }

theorem moveSwitch_ready {s : State} {pg : Nat} {m : Move} (hm : mget pg s.store.moves = some m) (hr : m.ready = true) :
    moveSwitch pg s = runHeldAll m.held (moveCounts m (moveSwitched pg m (if codecTier m.dstTier then s else rawPage pg s))) := by
  unfold moveSwitch
  simp only [hm, hr, Bool.not_true, Bool.false_eq_true, if_false]
  rfl

theorem mget_moveSwitched_moves (pg : Nat) (m : Move) (s : State) : mget pg (moveSwitched pg m s).store.moves = none := mget_mdel_same ..

theorem mem_moveSwitched_oldLocs (pg : Nat) (m : Move) (s : State) :
    (⟨pg, partAt s (pg * pageSize), m.srcTier, m.srcLoc⟩ : OldLoc) ∈ (moveSwitched pg m s).store.oldLocs := by
  simp [moveSwitched]

theorem mget_moveSwitched_pages (pg : Nat) (m : Move) (s : State) : mget pg (moveSwitched pg m s).store.pages =
    (mget pg s.store.pages).map fun p => { p with tier := m.dstTier, loc := m.dstLoc } := by
  rw [moveSwitched, coarsenPoison_pages, pageMod, mget_mmod_same]

/-! The release -/

theorem mem_oldRelease (pg : Nat) (s : State) (o : OldLoc) : o ∈ (oldRelease pg s).store.oldLocs ↔ o ∈ s.store.oldLocs ∧ o.page ≠ pg := by
  simp [oldRelease]

/-- Settles O6: each outcome of a pass is a branch of `movePass_written`, the switch is `moveSwitched`. -/
theorem pageMoveEvents : Obligations.PageMoveEvents := by
  unfold Obligations.PageMoveEvents
  refine ⟨?pass, ?failed, ?switch, ?release⟩
  case pass =>
    intro s page found m hal hm hr hf
    have e := movePass_written hm hr hf
    refine ⟨fun hclean => ?_, fun hh hd hp => ?_, fun hh hd hp hk => ?_, fun hh hd hp hk hheld => ?_⟩
    · rw [if_pos hclean] at e
      exact ⟨_, exec_actTo hal e, by rw [mget_moveMod, hm]; rfl, rfl, fun a => rfl⟩
    · rw [if_neg (by simp [hh, hd]), if_pos hp] at e
      exact ⟨_, exec_actTo hal e, by rw [mget_moveMod, hm]; rfl, rfl, fun a => rfl⟩
    · rw [if_neg (by simp [hh, hd]), if_neg (Nat.not_lt.2 hp), if_pos hk] at e
      exact ⟨_, exec_actTo hal e, by rw [mget_moveMod, hm]; rfl, rfl, fun a => rfl⟩
    · rw [if_neg (by simp [hh, hd]), if_neg (Nat.not_lt.2 hp), if_neg (by simp [hk])] at e
      exact ⟨_, exec_actTo hal e, moveAbandoned_effect hheld⟩
  case failed => exact fun s page found m hal hm hr hf => exec_actTo hal (movePass_failed hm hr hf)
  case switch =>
    intro s page m hal hm hr
    exact ⟨_, exec_actTo hal (moveSwitch_ready hm hr), mget_moveSwitched_moves .., mem_moveSwitched_oldLocs .., mget_moveSwitched_pages ..⟩
  case release => exact fun s page hal => ⟨_, exec_act hal, mem_oldRelease page.toNat s, rfl, fun a => rfl⟩

end Sys2Proof.Machine
end

section
/-! Row moves: their copies, the switch and the release of old slots (O7). -/

namespace Sys2Proof.Machine

open Sys2Proof

theorem mget_rowMoveMod (k : Nat) (f : RowMove → RowMove) (s : State) : mget k (rowMoveMod k f s).rows.moves = (mget k s.rows.moves).map f :=
  mget_mmod_same k f _

/-- A row move that its third disturbed copy abandons: counted, and its row left alone for 16 ticks (R89). -/
def rowAbandoned (k table : Nat) (s : State) : State :=
  bump Reg.rowAbandoned (tablePart s table)
    { s with rows := { s.rows with moves := mdel k s.rows.moves, retryAt := mset k (s.boot.tick + 16) s.rows.retryAt } }

/-- The end of a copy of a row that is not yet ready. -/
theorem rowCopied_copying {s : State} {k : Nat} {m : RowMove} (hm : mget k s.rows.moves = some m) (hr : m.ready = false) : rowCopied k s =
    if m.disturbed = false then rowMoveMod k (fun m => { m with ready := true }) s
    else if m.copies < 3 then rowMoveMod k (fun m => { m with copies := m.copies + 1, disturbed := false }) s
    else rowAbandoned k m.table s := by
  unfold rowCopied
  simp only [hm, hr, Bool.false_eq_true, if_false, Bool.not_eq_true']
  rfl

/-- A row served from its new place: from a slot of the row area, or from its page with the slot kept as the old one. -/
def rowPlaced (k : Nat) (m : RowMove) (s : State) : State :=
  if m.toSlot then { s with rows := { s.rows with slots := mset k m.tier s.rows.slots } }
  else { s with rows := { s.rows with slots := mdel k s.rows.slots, old := mset k m.tier s.rows.old } }

theorem rowSwitched_ready {s : State} {k : Nat} {m : RowMove} (hm : mget k s.rows.moves = some m) (hr : m.ready = true) :
    rowSwitched k s = rowPlaced k m (bump Reg.beRowMoved 0 { s with rows := { s.rows with moves := mdel k s.rows.moves } }) := by
  unfold rowSwitched
  simp only [hm, hr, Bool.not_true, Bool.false_eq_true, if_false]
  rfl

theorem rowPlaced_moves (k : Nat) (m : RowMove) (s : State) : (rowPlaced k m s).rows.moves = s.rows.moves := by
  unfold rowPlaced
  split <;> rfl

theorem rowPlaced_live (k : Nat) (m : RowMove) (s : State) : (rowPlaced k m s).live = s.live := by
  unfold rowPlaced
  split <;> rfl

theorem rowPlaced_store (k : Nat) (m : RowMove) (s : State) : (rowPlaced k m s).store = s.store := by
  unfold rowPlaced
  split <;> rfl

theorem rowPlaced_regs (k : Nat) (m : RowMove) (s : State) : (rowPlaced k m s).regs = s.regs := by
  unfold rowPlaced
  split <;> rfl

theorem mget_rowPlaced_slots (k : Nat) (m : RowMove) (s : State) :
    mget k (rowPlaced k m s).rows.slots = if m.toSlot then some m.tier else none := by
  unfold rowPlaced
  split
  · exact mget_mset_same ..
  · exact mget_mdel_same ..

theorem mget_rowPlaced_old {k : Nat} {m : RowMove} (h : m.toSlot = false) (s : State) : mget k (rowPlaced k m s).rows.old = some m.tier := by
  rw [rowPlaced, if_neg (by simp [h])]
  exact mget_mset_same ..

/-- Settles O7: each outcome of a copy is a branch of `rowCopied_copying`, the switch is `rowPlaced`. -/
theorem rowMoveEvents : Obligations.RowMoveEvents := by
  unfold Obligations.RowMoveEvents
  refine ⟨?copy, ?switch, ?release⟩
  case copy =>
    intro s table row m hal hm hr
    have e := rowCopied_copying hm hr
    refine ⟨fun hd => ?_, fun hd hc => ?_, fun hd hc => ?_⟩
    · rw [if_pos hd] at e
      exact ⟨_, exec_actTo hal e, by rw [mget_rowMoveMod, hm]; rfl, rfl, rfl⟩
    · rw [if_neg (by simp [hd]), if_pos hc] at e
      exact ⟨_, exec_actTo hal e, by rw [mget_rowMoveMod, hm]; rfl, rfl, rfl⟩
    · rw [if_neg (by simp [hd]), if_neg (Nat.not_lt.2 hc)] at e
      exact ⟨_, exec_actTo hal e, mget_mdel_same .., mget_mset_same .., cget_bump_of_live s rfl .., rfl, rfl⟩
  case switch =>
    intro s table row m hal hm hr
    refine ⟨_, exec_actTo hal (rowSwitched_ready hm hr), ?_, mget_rowPlaced_slots .., fun h => mget_rowPlaced_old h _, ?_, ?_, ?_⟩
    · rw [rowPlaced_moves]
      exact mget_mdel_same ..
    · rw [cget_congr (rowPlaced_live ..)]
      exact cget_bump_of_live s rfl ..
    · rw [rowPlaced_store]
      rfl
    · rw [rowPlaced_regs]
      rfl
  case release => exact fun s table row hal => ⟨_, exec_act hal, mget_mdel_same .., fun k hk => mget_mdel_ne (Ne.symm hk) _, rfl, rfl⟩

end Sys2Proof.Machine
end

section
/-! Replicas of rows and PREFETCH ranges: grants, fills, retirement, expiry (O8). -/

namespace Sys2Proof.Machine

open Sys2Proof

/-! A grant at the hub that asked (R91, R93) -/

/-- The replica slot of a row, still empty, in a tier of this hub's row areas. -/
def replicaPut (k : Nat) (t : Table) (s : State) (x : Nat) : State :=
  let r : Replica := { table := k / 2 ^ 40, row := k % 2 ^ 40, part := t.part, tier := x, data := List.replicate (rowWidth t.image) 0, pois := [],
                       filled := false, coldTicks := 0, retiring := false }
  { s with rows := { s.rows with replicas := mset k r s.rows.replicas } }

/-- Whether a tier's quota and capacity hold the slot too. -/
def replicaRoom (k : Nat) (t : Table) (s : State) (x : Nat) : Bool :=
  decide (occ (replicaPut k t s x) t.part x ≤ quota s t.part x) && decide (tierUsed (replicaPut k t s x) x ≤ tierCap s x)

theorem replicaRoom_iff (k : Nat) (t : Table) (s : State) (x : Nat) : replicaRoom k t s x = true ↔
    occ (replicaPut k t s x) t.part x ≤ quota s t.part x ∧ tierUsed (replicaPut k t s x) x ≤ tierCap s x := by
  rw [replicaRoom, Bool.and_eq_true, decide_eq_true_eq, decide_eq_true_eq]

/-- Of the stage and HBM tiers the first that p accepts is found. -/
theorem find_stageHbm {p : Nat → Bool} {x : Nat} (hx : x = 0 ∨ x = 1) (hp : p x = true) (hfirst : x = 1 → p 0 = false) :
    [0, 1].find? p = some x := by
  rcases hx with rfl | rfl
  · rw [List.find?_cons, hp]
  · rw [List.find?_cons, hfirst rfl, List.find?_cons, hp]

/-- The slot is taken in the first of the two tiers that has room. -/
theorem grantHolder_room {k x : Nat} {t : Table} {s : State} (hnew : mhas k s.rows.replicas = false) (hroom : s.rows.replicas.length < replicaLimit)
    (hx : x = 0 ∨ x = 1) (hfit : replicaRoom k t s x = true) (hfirst : x = 1 → replicaRoom k t s 0 = false) :
    grantHolder k t s = replicaPut k t s x := by
  have hfind := find_stageHbm hx hfit hfirst
  unfold grantHolder
  rw [hnew, decide_eq_false (Nat.not_le.2 hroom), Bool.or_self, if_neg Bool.false_ne_true]
  split
  · next y hy =>
    obtain rfl : y = x := Option.some.inj (hy.symm.trans hfind)
    rfl
  · next hy => exact absurd (hy.symm.trans hfind) (Option.some_ne_none x).symm

/-! Which hub a grant is for -/

section Granted

variable {s : State} {ep k : Nat} {t : Table} (ht : mget (k / 2 ^ 40) s.eng.tables = some t) (hmode : t.mode = 2) (hend : t.ending = false)
  (hrow : k % 2 ^ 40 < tblRows t.image)
include ht hmode hend hrow

theorem replicaGranted_asker (hep : ep = selfEp s) (hother : (tblMember t.image && rowOwner t.image (k % 2 ^ 40) == tblSelf t.image) = false) :
    replicaGranted ep k s = grantHolder k t s := by
  unfold replicaGranted
  simp only [ht, hmode, hend, Nat.not_le.2 hrow, hep, hother, ne_eq, not_true, Bool.false_eq_true, or_self, if_false, if_true]

theorem replicaGranted_owner (hep : ep ≠ selfEp s) (hmine : (tblMember t.image && rowOwner t.image (k % 2 ^ 40) == tblSelf t.image) = true) :
    replicaGranted ep k s = grantOwner ep k t s := by
  unfold replicaGranted
  simp only [ht, hmode, hend, Nat.not_le.2 hrow, hep, hmine, ne_eq, not_true, Bool.false_eq_true, or_self, if_false, if_true]

end Granted

/-! A grant of the row's owner (R91, R92, R94) -/

/-- The queue whose running kernel broadcasts a table's rows when it ends (R92). -/
def rowKernel (num : Nat) (s : State) : Option (Nat × Queue) :=
  s.eng.queues.find? fun q => q.2.inKernel && ((q.2.bset.any fun b => b.1 == num)
    || q.2.descs.any fun d => d.opcode == 0x21 && d.f 1 0 14 == num && [DescStage.started, .waiting, .ran].contains d.stage)

/-- A kernel's broadcast set with one row more. -/
def bsetAdd (b : Nat × Nat) (x : Queue) : Queue := { x with bset := if x.bset.contains b then x.bset else x.bset ++ [b] }

/-- A row is sent to an endpoint at once. -/
def rowSent (ep k : Nat) (t : Table) (s : State) : State :=
  (rowPackets t.part ep t (k % 2 ^ 40) s).1.foldl (fun s p => (sendReq (mkReq p none 1 t.part .hub) s).2) (rowPackets t.part ep t (k % 2 ^ 40) s).2

theorem rowSent_packets {ep k : Nat} {t : Table} {s u : State} {ps : List Packet} (h : rowPackets t.part ep t (k % 2 ^ 40) s = (ps, u)) :
    rowSent ep k t s = ps.foldl (fun s p => (sendReq (mkReq p none 1 t.part .hub) s).2) u := by
  rw [rowSent, h]

/-- A grant is noted. -/
def grantNoted (ep k : Nat) (s : State) : State := { s with rows := { s.rows with granted := s.rows.granted ++ [(k, ep)] } }

/-- The row of a grant goes with the running kernel's broadcast, or at once. -/
def grantSent (ep k : Nat) (t : Table) (s : State) : State :=
  (rowKernel (k / 2 ^ 40) s).elim (rowSent ep k t s) fun q => queueSet q.1 (bsetAdd (k / 2 ^ 40, k % 2 ^ 40)) s

/-- A grant that the row's owner may make. -/
theorem grantOwner_may {ep k : Nat} {t : Table} {s : State} (hnew : s.rows.granted.contains (k, ep) = false) (hban : t.banned.contains ep = false)
    (hmax : (s.rows.granted.filter fun g => g.1 == k).length < s.rows.replMax) (hplace : placeStopped s t.part = false) (hon : s.rows.on = true) :
    grantOwner ep k t s = if mhas k s.rows.moves then
      (if s.rows.deferred.contains (k, ep) then s else { s with rows := { s.rows with deferred := s.rows.deferred ++ [(k, ep)] } })
      else grantSent ep k t (grantNoted ep k s) := by
  have hmay : ¬ (s.rows.granted.contains (k, ep) || t.banned.contains ep || decide (s.rows.replMax ≤ (s.rows.granted.filter fun g => g.1 == k).length)
      || placeStopped s t.part || !s.rows.on) = true := by
    rw [hnew, hban, hplace, hon, decide_eq_false (Nat.not_le.2 hmax)]
    simp
  rw [grantOwner, if_neg hmay]
  refine if_congr Iff.rfl rfl ?_
  unfold grantSent
  cases hk : rowKernel (k / 2 ^ 40) (grantNoted ep k s) with
  | some q =>
    unfold rowKernel grantNoted at hk
    simp only [hk]
    rfl
  | none =>
    unfold rowKernel grantNoted at hk
    simp only [hk]
    unfold rowSent grantNoted
    generalize rowPackets t.part ep t (k % 2 ^ 40) _ = sent
    rfl

/-! Fill, retirement and expiry (R92, R93, R102) -/

theorem replicaFilled_empty {s : State} {k : Nat} {r : Replica} (hr : mget k s.rows.replicas = some r) (hf : r.filled = false) (data : List Byte)
    (ws : List Nat) : replicaFilled k data ws s = bump Reg.beReplCreated 0
      { s with rows := { s.rows with replicas := mset k { r with data := splice r.data 0 data, pois := ws, filled := true } s.rows.replicas } } := by
  unfold replicaFilled
  simp only [hr, hf, Bool.false_eq_true, if_false]

theorem replicaRetired_held {s : State} {k : Nat} (h : mhas k s.rows.replicas = true) :
    replicaRetired k s = bump Reg.beReplRetired 0 { s with rows := { s.rows with replicas := mdel k s.rows.replicas } } := if_pos h

theorem rangeExpired_found {s : State} {r : PfRange} (h : s.store.prefetch.find? (fun r => decide (16 ≤ r.ticks)) = some r) :
    rangeExpired s = { countDropped r.part 1 s with store := { s.store with prefetch := s.store.prefetch.erase r } } := by
  rw [rangeExpired, h]

/-- Settles O8: a grant is taken at the hub that asked or made by the row's owner; fill, retirement and expiry each have one lemma. -/
theorem replicaEvents : Obligations.ReplicaEvents := by
  unfold Obligations.ReplicaEvents
  refine ⟨?asker, ?owner, ?fill, ?retire, ?expire⟩
  case asker =>
    intro s ep table row t x hal ht hmode hend hrow hep hother hnew hroom slot put fits hx hfit hfirst
    have hroom0 : x = 1 → replicaRoom (keyOf table row) t s 0 = false := fun h => Bool.eq_false_iff.2 ((replicaRoom_iff ..).not.2 (hfirst h))
    exact exec_actTo hal ((replicaGranted_asker ht hmode hend hrow hep hother).trans (grantHolder_room hnew hroom hx ((replicaRoom_iff ..).2 hfit) hroom0))
  case owner =>
    intro s ep table row t hal ht hmode hend hrow hep hmine k hnew hban hmax hplace hon s1 kernel sent
    have e := (replicaGranted_owner ht hmode hend hrow hep hmine).trans (grantOwner_may hnew hban hmax hplace hon)
    refine ⟨fun hmove hdef => ?_, fun hmove q hq => ?_, fun hmove hq => ?_⟩
    · rw [if_pos hmove, if_neg (by rw [hdef]; exact Bool.false_ne_true)] at e
      exact exec_actTo hal e
    all_goals
      have hk : rowKernel (k / 2 ^ 40) (grantNoted ep.toNat k s) = kernel := rfl
      rw [if_neg (by rw [hmove]; exact Bool.false_ne_true), grantSent, hk, hq] at e
    · exact exec_actTo hal e
    · rw [Option.elim_none] at e
      rcases hsent : sent with ⟨ps, u⟩
      exact exec_actTo hal (e.trans (rowSent_packets hsent))
  case fill =>
    intro s table row data poison r hal hr hf
    exact ⟨_, exec_actTo hal (replicaFilled_empty hr hf data poison), mget_mset_same .., cget_bump_of_live s rfl .., rfl, rfl⟩
  case retire =>
    intro s table row hal h
    exact ⟨_, exec_actTo hal (replicaRetired_held h), mget_mdel_same .., fun k hk => mget_mdel_ne (Ne.symm hk) _, cget_bump_of_live s rfl .., rfl, rfl⟩
  case expire =>
    intro s r hal h
    exact ⟨_, exec_actTo hal (rangeExpired_found h), rfl, rfl, cget_bumpN_same Reg.adviceDropped r.part 1 s⟩

end Sys2Proof.Machine
end

section
/-! The slow-tick edge and the refresh of the slow copies (O9). -/

namespace Sys2Proof.Machine

open Sys2Proof

theorem mgetD_foldl_mput_notMem {k : Nat} {l : List (Nat × Nat)} (h : k ∉ l.map Prod.fst) (m : NMap W32) :
    mgetD 0 k (l.foldl (fun m e => mput 0 e.1 (w32 e.2) m) m) = mgetD 0 k m := by
  induction l generalizing m with
  | nil => rfl
  | cons e l ih =>
    rw [List.map_cons, List.mem_cons, not_or] at h
    rw [List.foldl_cons, ih h.2, mgetD_mput_ne (Ne.symm h.1)]

theorem mgetD_foldl_mset_notMem {k : Nat} {l : List (Nat × W32)} (h : k ∉ l.map Prod.fst) (m : NMap W32) :
    mgetD 0 k (l.foldl (fun m e => mset e.1 e.2 m) m) = mgetD 0 k m := by
  induction l generalizing m with
  | nil => rfl
  | cons e l ih =>
    rw [List.map_cons, List.mem_cons, not_or] at h
    rw [List.foldl_cons, ih h.2, mgetD_mset_ne (Ne.symm h.1)]

/-- The figures that an edge measures afresh, the sensors apart. -/
def gauges (s : State) : List (Nat × Nat) := gaugeStore s ++ gaugeEngines (draw s).1 s ++ gaugeFabric s ++ gaugeRel s

/-- The registers of the sensors (Tables 16-6 and 13-7). -/
def sensorKeys : List Nat :=
  (List.range 4).map (fun i => rkey (Reg.tempStudio + 4 * i) 0) ++ (List.range 8).map (fun i => rkey (Reg.tempHbm + 4 * i) 0) ++
    [rkey Reg.vcoreAmps 0, rkey Reg.tempMax 0]

theorem gaugeSensors_keys (v : W64) (s : State) : (gaugeSensors v s).map Prod.fst = sensorKeys := rfl

/-- The gauges end with SLOW_EDGES. -/
theorem gauges_slowEdges (s : State) : ∃ l, gauges s = l ++ [(rkey Reg.slowEdges 0, s.boot.tick)] := by
  unfold gauges gaugeRel
  exact ⟨_, (List.append_assoc ..).symm⟩

/-- The free value that the refresh draws changes no gauge's figure. -/
theorem gauges_draw (s : State) :
    gaugeStore (draw s).2 ++ gaugeEngines (draw s).1 (draw s).2 ++ gaugeFabric (draw s).2 ++ gaugeRel (draw s).2 = gauges s := rfl

theorem refresh_copies (s : State) : ∃ l : List (Nat × W32), l.map Prod.fst = sensorKeys ∧
    (refresh s).copies = l.foldl (fun m e => mset e.1 e.2 m) ((gauges s).foldl (fun m e => mput 0 e.1 (w32 e.2) m) s.live) := by
  refine ⟨gaugeSensors (draw s).1 (draw s).2, gaugeSensors_keys .., ?_⟩
  have hlive : s.live = (draw s).2.live := rfl
  rw [← gauges_draw, hlive, refresh]

/-- A counter that is not a sensor's copies what the gauges left of the live counts. -/
theorem mgetD_refresh {k : Nat} (h : k ∉ sensorKeys) (s : State) :
    mgetD 0 k (refresh s).copies = mgetD 0 k ((gauges s).foldl (fun m e => mput 0 e.1 (w32 e.2) m) s.live) := by
  obtain ⟨l, hl, e⟩ := refresh_copies s
  rw [e, mgetD_foldl_mset_notMem (by rwa [hl])]

theorem slowEdges_notSensor : rkey Reg.slowEdges 0 ∉ sensorKeys := by decide

/-- Settles O9: the refresh puts the gauges over the live counts and the sensors over those. -/
theorem slowTickRefreshesCopies : Obligations.SlowTickRefreshesCopies := by
  unfold Obligations.SlowTickRefreshesCopies
  refine ⟨fun s hal => exec_act hal, fun s => ⟨?_, rfl, rfl, fun k hg hs => ?_⟩⟩
  · obtain ⟨l, e⟩ := gauges_slowEdges s
    rw [mgetD_refresh slowEdges_notSensor, e, List.foldl_append]
    exact mgetD_mput_same ..
  · rw [gaugeSensors_keys] at hs
    rw [mgetD_refresh hs, mgetD_foldl_mput_notMem (l := gauges s) hg]

end Sys2Proof.Machine
end

section
/-! MATVEC and MATMUL without redirection and audit (O14). -/

namespace Sys2Proof.Machine

open Sys2Proof

/-- An audit that AUDIT_CFG disables changes nothing (Table 3-11). -/
theorem mmAudit_off {d : Desc} (h : auditK d.auditCfg = 0) (q seq : Nat) (wide : Option WideRef) (row : Nat → Row) (xs : List Row) (v : W64) (s : State) :
    mmAudit q seq d wide row xs v s = s := if_pos h

/-- Held vectors of which none is redirected are read one after the other from beside the descriptor. -/
theorem foldl_mmHeld_none (d : Desc) (l : List (Option WideRef × Nat)) (h : ∀ x ∈ l, x.1 = none) (acc : List Row) (s : State) :
    l.foldl (fun (acc : List Row × State) x => let (r, s) := mmHeld d x.2 x.1 acc.2; (acc.1 ++ [r], s)) (acc, s) =
      (acc ++ l.map fun x => heldRow (mmX d x.2) d 0, s) := by
  induction l generalizing acc with
  | nil => simp
  | cons x l ih =>
    obtain ⟨r, n⟩ := x
    obtain rfl : r = none := h (r, n) (by simp)
    rw [List.foldl_cons]
    refine (ih (fun y hy => h y (List.mem_cons_of_mem _ hy)) _).trans ?_
    rw [List.append_assoc, List.map_cons, List.singleton_append]

theorem heldRows_narrow (d : Desc) (n : Nat) (s : State) :
    (((List.range n).map fun _ => none).zipIdx.foldl
      (fun (acc : List Row × State) x => let (r, s) := mmHeld d x.2 x.1 acc.2; (acc.1 ++ [r], s)) ([], s)) =
      ((List.range n).map fun n => heldRow (mmX d n) d 0, s) := by
  have hnone : ∀ x ∈ ((List.range n).map fun _ => (none : Option WideRef)).zipIdx, x.1 = none := fun x hx => by
    obtain ⟨_, _, e⟩ := List.mem_map.1 (List.fst_mem_of_mem_zipIdx hx)
    exact e.symm
  have hsnd : ((List.range n).map fun _ => (none : Option WideRef)).zipIdx.map Prod.snd = List.range n := by
    rw [List.zipIdx_map_snd, List.length_map, List.length_range, List.range_eq_range']
  rw [foldl_mmHeld_none d _ hnone, List.nil_append]
  conv_rhs => rw [← hsnd, List.map_map]
  rfl

theorem any_isSome_none (n : Nat) : ((List.range n).map fun _ => (none : Option WideRef)).any (·.isSome) = false := by
  simp

/-- Settles O14: without redirection the held rows are those beside the descriptor, and the audit is off. -/
theorem matrixProducts : Obligations.MatrixProducts := by
  unfold Obligations.MatrixProducts
  refine ⟨?reads, ?narrow⟩
  case reads =>
    intro s s1 q seq op d d1 hop hrun ref misfit xs hreads
    obtain ⟨hfetch, hd1⟩ := hreads
    have e : mmRun q.toNat seq.toNat d s = _ := withBytes_reads hfetch hd1 _
    rcases hop with rfl | rfl
    · exact exec_opRunTo hrun e
    · exact exec_opRunTo hrun e
  case narrow =>
    intro s q seq d h row xs v rows none_ s2 s3
    unfold mmCompute
    simp only [heldRows_narrow, mmAudit_off h, any_isSome_none, Option.isSome_none, Bool.false_eq_true, or_self, if_false, if_true]
    rfl

end Sys2Proof.Machine
end

section
/-! PREFETCH, ADVISE and INVAL_ASID (O23). -/

namespace Sys2Proof.Machine

open Sys2Proof

/-- A range of which every entry is passed ends the operation with COUNT 0 (R193). -/
theorem advGo_passed {q seq f : Nat} {d : Desc} {s : State} (hd : descOf s q seq = some d) (hp : (advPages d).length ≤ d.step) :
    advGo q seq (f + 1) s = opEnd q seq 0 s := by
  unfold advGo
  simp only [hd, hp, if_true]

theorem advRun_first {q seq : Nat} {d : Desc} {s : State} (h : d.count = 0) :
    advRun q seq d s = advGo q seq ((advPages d).length + 1) (advStore d (descMod q seq (fun d => { d with count := 1 }) s)) := by
  rw [advRun, if_pos h]

theorem advRun_passed {q seq : Nat} {d : Desc} {s : State} (hd : descOf s q seq = some d) (h : d.count ≠ 0) (hp : (advPages d).length ≤ d.step) :
    advRun q seq d s = opEnd q seq 0 s := by
  rw [advRun, if_neg h]
  exact advGo_passed hd hp

theorem pushRange_room {s : State} (h : s.store.prefetch.length < 1024) (part : Nat) (pages : List Nat) :
    (pushRange part pages s).store.prefetch = s.store.prefetch ++ [{ part := part, pages := pages, ticks := 0 }] := by
  unfold pushRange
  dsimp only
  split
  · next r rest e =>
    have hl : ¬ 1024 < (s.store.prefetch ++ [({ part := part, pages := pages, ticks := 0 } : PfRange)]).length := by
      rw [List.length_append, List.length_singleton]
      omega
    rw [if_neg hl]
  · next e => simp at e

/-- What advice of a code makes of a page (Table 2-4). -/
def advised (code : Nat) (p : Page) : Page :=
  match code with
  | 0 => { p with seqAdvice := false, willNeed := false }
  | 1 => { p with willNeed := true }
  | 2 => { p with heat := 0 }
  | _ => { p with seqAdvice := true }

theorem advisePage_taken {code pg : Nat} {s : State} (hpin : fPin (flagsAt s (pg * pageSize)) = false)
    (hproj : fProject (flagsAt s (pg * pageSize)) = false) : advisePage code pg s = pageMod pg (advised code) s := by
  unfold advisePage
  simp only [hpin, hproj, Bool.or_self, Bool.false_eq_true, if_false]
  rfl

/-- Advice on a page of a pinned or projected allocation is dropped and counted (R103). -/
theorem advisePage_dropped {code pg : Nat} {s : State} (h : fPin (flagsAt s (pg * pageSize)) = true ∨ fProject (flagsAt s (pg * pageSize)) = true) :
    advisePage code pg s = countDropped (partAt s (pg * pageSize)) 1 s := by
  unfold advisePage
  exact if_pos (by rwa [Bool.or_eq_true])

/-- Settles O23: the operation's run is `advRun_first` or `advRun_passed`, and each thing it does to pages has its own lemma. -/
theorem adviceOperations : Obligations.AdviceOperations := by
  unfold Obligations.AdviceOperations
  refine ⟨?run, ?range, ?advice, ?dropped, ?inval⟩
  case run =>
    intro s q seq d adv hrun c
    have hd : descOf s q.toNat seq.toNat = some d := hrun.2.1
    refine ⟨fun h => ?_, fun h hp => ⟨opEnd q.toNat seq.toNat 0 s, ?_, descOf_opEnd hd 0, rfl, rfl, rfl⟩⟩
    · cases adv
      · exact exec_opRunTo hrun (advRun_first h)
      · exact exec_opRunTo hrun (advRun_first h)
    · cases adv
      · exact exec_opRunTo hrun (advRun_passed hd h hp)
      · exact exec_opRunTo hrun (advRun_passed hd h hp)
  case range => exact fun s part pages h => pushRange_room h part pages
  case advice =>
    intro s code pg p hp hpin hproj
    rw [advisePage_taken hpin hproj, pageMod, mget_mmod_same, hp, Option.map_some]
    match code with
    | 0 | 1 | 2 | _ + 3 => rfl
  case dropped =>
    intro s code pg h
    rw [advisePage_dropped h]
    rfl
  case inval => exact fun s q seq d hrun => exec_opRun hrun

end Sys2Proof.Machine
end

section
/-! What a tally reads after an add to it: an armed watch may fire then, and neither its store nor its vector changes a tally or a watch (R306, R307). -/

namespace Sys2Proof.Machine

open Sys2Proof

/-! Free values -/

@[simp] theorem draw_ord (s : State) : (draw s).2.ord = s.ord := rfl

@[simp] theorem drawBit_ord (s : State) : (drawBit s).2.ord = s.ord := rfl

@[simp] theorem drawBelow_ord (n : Nat) (s : State) : (drawBelow n s).2.ord = s.ord := rfl

/-! Store memory -/

@[simp] theorem trigger_ord (code : Nat) (detail : W64) (part : Option Nat) (inst : Nat) (s : State) : (trigger code detail part inst s).ord = s.ord := by
  unfold trigger
  dsimp only
  split_ifs <;> rfl

@[simp] theorem markPoison_ord (off n : Nat) (s : State) : (markPoison off n s).ord = s.ord := by
  unfold markPoison
  split <;> rfl

@[simp] theorem codecDrop_ord (b : Nat) (s : State) : (codecDrop b s).ord = s.ord := by
  simp [codecDrop]

@[simp] theorem readBlock_ord (b : Nat) (s : State) : (readBlock b s).2.ord = s.ord := by
  unfold readBlock
  dsimp only
  split_ifs
  · split <;> simp [laneWork]
  · rfl
  · rfl

@[simp] theorem rawBlock_ord (b : Nat) (s : State) : (rawBlock b s).ord = s.ord := by
  unfold rawBlock
  dsimp only
  split_ifs <;> simp

@[simp] theorem readIn_ord (off n : Nat) (s : State) : (readIn off n s).2.ord = s.ord := by
  unfold readIn
  split
  · exact readBlock_ord ..
  · rfl

@[simp] theorem memRead_ord (off n : Nat) (s : State) : (memRead off n s).2.ord = s.ord :=
  List.foldlRecOn (motive := fun r : Got × State => r.2.ord = s.ord) _ _ rfl fun r hr pc _ => (readIn_ord pc.1 pc.2 r.2).trans hr

@[simp] theorem hidePoison_ord (off : Nat) (ws : List Nat) (bs : List Byte) (s : State) : (hidePoison off ws bs s).2.ord = s.ord := by
  unfold hidePoison
  split <;> rfl

@[simp] theorem countSent_ord (ws : List Nat) (s : State) : (countSent ws s).ord = s.ord := by
  unfold countSent
  split <;> rfl

@[simp] theorem countAccess_ord (off n : Nat) (w : Bool) (s : State) : (countAccess off n w s).ord = s.ord := by
  unfold countAccess
  split
  · rfl
  · split <;> rfl

@[simp] theorem disturbJobs_ord (b : Nat) (s : State) : (disturbJobs b s).ord = s.ord := by
  unfold disturbJobs
  split <;> rfl

@[simp] theorem disturbRows_ord (off n : Nat) (s : State) : (disturbRows off n s).ord = s.ord := by
  unfold disturbRows
  refine List.foldlRecOn (motive := fun t : State => t.ord = s.ord) _ _ rfl fun t ht m _ => ?_
  dsimp only [drawBit]
  split <;> exact ht

@[simp] theorem noteWrite_ord (off n : Nat) (s : State) : (noteWrite off n s).ord = s.ord := by
  unfold noteWrite
  dsimp only [drawBit]
  split
  · simp
  · split <;> simp

@[simp] theorem inlineQueue_ord (b : Nat) (s : State) : (inlineQueue b s).ord = s.ord := by
  unfold inlineQueue
  dsimp only
  split_ifs <;> rfl

@[simp] theorem settlePage_ord (pg : Nat) (s : State) : (settlePage pg s).ord = s.ord :=
  List.foldlRecOn (motive := fun t : State => t.ord = s.ord) _ _ rfl fun t ht c _ => (readBlock_ord c.1 t).trans ht

@[simp] theorem copyOnWrite_ord (pg : Nat) (s : State) : (copyOnWrite pg s).ord = s.ord := by
  unfold copyOnWrite
  split <;> simp

@[simp] theorem writeIn_ord (off : Nat) (cs : List (Option Byte)) (s : State) : (writeIn off cs s).2.ord = s.ord := by
  have happly : ∀ t : State, (noteWrite off cs.length ((if cs.all Option.isSome then clearPoison off cs.length else id) (rawCells off cs t))).ord = t.ord :=
    fun t => by rw [noteWrite_ord]; split <;> rfl
  unfold writeIn
  dsimp only
  split
  · rfl
  split
  · rw [inlineQueue_ord, happly, setMeta_ord]
  split
  · exact rawBlock_ord ..
  · rw [happly, rawBlock_ord]

@[simp] theorem memWrite_ord (off : Nat) (cs : List (Option Byte)) (s : State) : (memWrite off cs s).2.ord = s.ord :=
  List.foldlRecOn (motive := fun r : Bool × State => r.2.ord = s.ord) _ _ rfl fun r hr pc _ => (writeIn_ord pc.1 pc.2 r.2).trans hr

@[simp] theorem storeCells_ord (off : Nat) (cs : List (Option Byte)) (s : State) : (storeCells off cs s).2.ord = s.ord := by
  unfold storeCells
  dsimp only
  split <;> simp

/-! Packets and requests -/

@[simp] theorem putOnWire_ord (port seq : Nat) (p : Packet) (s : State) : (putOnWire port seq p s).ord = s.ord := by
  unfold putOnWire
  rw [emit_ord, bumpN_ord]
  exact List.foldlRecOn (motive := fun t : State => t.ord = s.ord) _ _ rfl fun t ht i _ => ht

@[simp] theorem egress_ord (port : Nat) (p : Packet) (s : State) : (egress port p s).ord = s.ord := by
  unfold egress
  split
  · simp [transmit]
  · rfl

@[simp] theorem choosePort_ord (c : Nat) (ps : List Nat) (s : State) : (choosePort c ps s).2.ord = s.ord := by
  unfold choosePort
  split <;> rfl

@[simp] theorem send_ord (p : Packet) (s : State) : (send p s).ord = s.ord := by
  unfold send route
  split
  · rfl
  · have h := choosePort_ord p.tc.toNat (pathSet s p.dst.toNat) s
    split <;> next e => simpa [e] using h

@[simp] theorem partnerFor_ord (ep : Nat) (s : State) : (partnerFor ep s).2.ord = s.ord := by
  unfold partnerFor
  split
  · rfl
  · dsimp only
    split_ifs
    · rfl
    · split <;> rfl

@[simp] theorem stamp_ord (p : Packet) (s : State) : (stamp p s).2.ord = s.ord := by
  unfold stamp
  split
  · have h := partnerFor_ord p.dst.toNat s
    split <;> next e => simpa [e] using h
  · rfl

@[simp] theorem launch_ord (r : Req) (port tag : Nat) (s : State) : (launch r port tag s).ord = s.ord := by
  simp [launch]

/-- Sending a request changes no tally and no watch. -/
@[simp] theorem sendReq_ord (r : Req) (s : State) : (sendReq r s).2.ord = s.ord := by
  have hst : ∀ t : State, (stamp r.p t).2.ord = t.ord := stamp_ord r.p
  unfold sendReq
  dsimp only
  split
  · split
    · rfl
    · split <;> next e => simpa [e] using hst s
  · split
    · rfl
    · have hc := choosePort_ord r.p.tc.toNat ((pathSet s r.p.dst.toNat).filter fun q => (freeTag s q).isSome) s
      split
      · next e => simpa [e] using hc
      · next t e =>
        have ht : t.ord = s.ord := by simpa [e] using hc
        split
        · exact ht
        · split <;> next e2 => simpa [e2, ht] using hst t

/-! The directory -/

@[simp] theorem cacheIn_ord (line : Nat) (s : State) : (cacheIn line s).ord = s.ord := by
  unfold cacheIn
  split_ifs <;> rfl

@[simp] theorem setEntry_ord (line : Nat) (e : Option DirEntry) (s : State) : (setEntry line e s).ord = s.ord := by
  unfold setEntry
  split
  · split <;> simp
  · rfl

@[simp] theorem touchEntry_ord (line : Nat) (s : State) : (touchEntry line s).ord = s.ord := by
  unfold touchEntry
  split <;> rfl

@[simp] theorem dirLookup_ord (line : Nat) (s : State) : (dirLookup line s).ord = s.ord := by
  unfold dirLookup
  dsimp only
  split_ifs <;> simp

@[simp] theorem lookups_ord (off n : Nat) (s : State) : (lookups off n s).ord = s.ord := by
  unfold lookups
  split
  · exact List.foldlRecOn (motive := fun t : State => t.ord = s.ord) _ _ rfl fun t ht line _ => (dirLookup_ord line t).trans ht
  · rfl

@[simp] theorem sendRecall_ord (line n : Nat) (share : Bool) (hpa : Nat) (s : State) : (sendRecall line n share hpa s).ord = s.ord := by
  unfold sendRecall
  split
  · rfl
  · dsimp only
    split <;> simp

@[simp] theorem holderLost_ord (line n : Nat) (s : State) : (holderLost line n s).ord = s.ord := by
  unfold holderLost
  dsimp only
  split
  · split <;> simp
  · rfl

@[simp] theorem recallAll_ord (line : Nat) (share : Bool) (ns : List Nat) (s : State) : (recallAll line share ns s).ord = s.ord := by
  unfold recallAll
  refine List.foldlRecOn (motive := fun t : State => t.ord = s.ord) _ _ rfl fun t ht n _ => ?_
  split <;> simpa using ht

@[simp] theorem lineData_ord (line : Nat) (s : State) : (lineData line s).2.2.ord = s.ord := by
  simp [lineData]

@[simp] theorem sendGrant_ord (r : CohReq) (grant line : Nat) (withData : Bool) (s : State) : (sendGrant r grant line withData s).ord = s.ord := by
  unfold sendGrant
  split
  · split <;> simp
  · split <;> simp
  · rfl

@[simp] theorem endTxn_ord (line : Nat) (s : State) : (endTxn line s).ord = s.ord := by
  unfold endTxn
  split
  · simp
  · rfl

@[simp] theorem grantTxn_ord (line grant : Nat) (withData : Bool) (next : Option DirEntry) (s : State) : (grantTxn line grant withData next s).ord = s.ord := by
  unfold grantTxn
  split
  · rfl
  · split
    · simp
    · dsimp only
      split <;> simp

@[simp] theorem resolveTxn_ord (line : Nat) (s : State) : (resolveTxn line s).ord = s.ord := by
  unfold resolveTxn
  split
  · rfl
  · dsimp only
    split
    · rfl
    · split
      · split <;> simp
      · split
        · split
          · simp
          · split <;> simp
        · simp
        · simp
        · split <;> simp
        · simp
        · simp

@[simp] theorem startRecalls_ord (off n : Nat) (isWrite : Bool) (x : Option Nat) (s : State) : (startRecalls off n isWrite x s).ord = s.ord := by
  unfold startRecalls
  refine List.foldlRecOn (motive := fun t : State => t.ord = s.ord) _ _ rfl fun t ht line _ => ?_
  dsimp only
  split
  · exact ht
  · split
    · exact ht
    · rw [resolveTxn_ord, recallAll_ord, openTxn_ord, ht]

/-- An access that waits for no holder changes the tallies and watches as what it then does; one that waits changes none. -/
theorem coherent_ord (off n : Nat) (isWrite fromQueue : Bool) (r : CohReq) (f : State → State) (hf : ∀ t, (f t).ord = t.ord) (s : State) :
    (coherent off n isWrite fromQueue r f s).ord = s.ord := by
  unfold coherent inTurn
  split
  · rfl
  · dsimp only
    have hl : (if fromQueue then s else lookups off n s).ord = s.ord := by split <;> simp
    generalize (if fromQueue then s else lookups off n s) = t at hl ⊢
    split
    · split
      · rw [waitOn_ord, startRecalls_ord, hl]
      · rw [waitRoom_ord, startRecalls_ord, hl]
    · rw [hf, startRecalls_ord, hl]

/-! A watch that fires -/

@[simp] theorem holdAt_ord (off : Nat) (g : Gate) (h : HeldAccess) (s : State) : (holdAt off g h s).ord = s.ord := by
  unfold holdAt
  split
  · split <;> rfl
  · rfl

@[simp] theorem writeGuards_ord (off : Nat) (w : Writer) (s : State) : (writeGuards off w s).2.ord = s.ord := by
  unfold writeGuards
  split_ifs <;> rfl

@[simp] theorem localStore_ord (part off : Nat) (bs : List Byte) (s : State) : (localStore part off bs s).ord = s.ord := by
  have hg := writeGuards_ord off .engine s
  unfold localStore
  split
  · rfl
  · rfl
  · dsimp only
    split
    · rfl
    · split
      · next e => simpa [e] using hg
      · next t e =>
        have ht : t.ord = s.ord := by simpa [e] using hg
        split
        · rw [coherent_ord _ _ _ _ _ _ (fun t => storeCells_ord off _ t), ht]
        · exact ht
        · split <;> exact ht
        · rw [holdAt_ord, ht]

@[simp] theorem resolve_ord (fa part right : Nat) (s : State) : (resolve fa part right s).2.ord = s.ord := by
  unfold resolve
  split <;> rfl

/-- A store of this hub, at one of its homes or sent to another, changes no tally and no watch. -/
@[simp] theorem hubStore_ord (part fa : Nat) (bs : List Byte) (s : State) : (hubStore part fa bs s).ord = s.ord := by
  have hr := resolve_ord fa part 1 s
  unfold hubStore
  split
  · next e => simpa [e] using hr
  · next e => simpa [e] using hr
  · next t e =>
    have ht : t.ord = s.ord := by simpa [e] using hr
    split <;> simp [ht]

@[simp] theorem deliverVec_ord (part v : Nat) (s : State) : (deliverVec part v s).ord = s.ord := by
  unfold deliverVec
  dsimp only
  split
  · split
    · rfl
    · unfold msixSend
      dsimp only
      split <;> rfl
  · simp [sendEvent]
  · rfl

@[simp] theorem raiseVec_ord (part v : Nat) (s : State) : (raiseVec part v s).ord = s.ord := by
  unfold raiseVec
  dsimp only
  split <;> simp

/-- A watch that fires clears its ARM and changes no tally. -/
theorem fireWatch_tallies (t : Nat) (s : State) : (fireWatch t s).ord.tallies = s.ord.tallies := by
  unfold fireWatch
  dsimp only
  split
  · rfl
  · split
    · have hstore : ∀ part u, (if (watchOf s t).addr = 0 then u else hubStore part (watchOf s t).addr.toNat (leBytes 8 (watchOf s t).val.toNat) u).ord = u.ord :=
        fun part u => by split <;> simp
      split
      · rw [raiseVec_ord, hstore]; rfl
      · rw [hstore]; rfl
    · rfl

theorem tallyVal_tallySet (t : Nat) (v : W32) (s : State) : tallyVal (tallySet t v s) t = v := by
  rw [tallyVal, tallySet, fireWatch_tallies, mgetD_mput_same]

/-- An add wraps at 32 bits (R302). -/
theorem tallyVal_tallyAddTo (t : Nat) (n : W32) (s : State) : tallyVal (tallyAddTo t n s) t = tallyVal s t + n := tallyVal_tallySet ..

end Sys2Proof.Machine
end

section
/-! TALLY_WAIT and the waits of REDUCE and APPLY: their beginning, their end, their limit (O13, O56). -/

namespace Sys2Proof.Machine

open Sys2Proof

/-! A named descriptor after a change that keeps its number -/

theorem descOf_descMod_some {s : State} {q seq : Nat} {d : Desc} (h : descOf s q seq = some d) {f : Desc → Desc} (hf : ∀ d, (f d).seq = d.seq) :
    descOf (descMod q seq f s) q seq = some (f d) := by
  rw [descOf_descMod q seq f fun d hd => (hf d).trans hd, h, Option.map_some]

theorem Runs.desc {s : State} {q : QueueNum} {seq : W32} {op : Nat} {d : Desc} (h : Runs s q seq op d) : descOf s q.toNat seq.toNat = some d := by
  obtain ⟨-, hd, -, -⟩ := h
  exact hd

theorem Runs.started {s : State} {q : QueueNum} {seq : W32} {op : Nat} {d : Desc} (h : Runs s q seq op d) : d.stage = .started := by
  obtain ⟨-, -, hst, -⟩ := h
  exact hst

theorem ended_opEnd {s : State} {q : QueueNum} {seq : W32} {d : Desc} (h : descOf s q.toNat seq.toNat = some d) (n : Nat) :
    Ended (opEnd q.toNat seq.toNat n s) q seq d n := descOf_opEnd h n

/-- State u has the store, the tallies and watches, and the registers of s. -/
def WaitFrame (s u : State) : Prop := u.store = s.store ∧ u.ord = s.ord ∧ u.regs = s.regs

theorem waitFrame_descMod (q seq : Nat) (f : Desc → Desc) (s : State) : WaitFrame s (descMod q seq f s) := ⟨rfl, rfl, rfl⟩

/-! The beginning of a wait (R176) -/

theorem tallyBegin_reached {s : State} {t : Nat} {target : W32} (h : reached (tallyVal s t) target = true) (q seq : Nat) (go : State → State) :
    tallyBegin q seq t target go s = go (descMod q seq (fun d => { d with step := 2 }) s) := if_pos h

theorem tallyBegin_unreached {s : State} {t : Nat} {target : W32} (h : reached (tallyVal s t) target = false) (q seq : Nat) (go : State → State) :
    tallyBegin q seq t target go s =
      descMod q seq (fun d => { d with stage := .waiting, step := 1, waitEdges := 0, waitLimit := waitTicks s q }) s :=
  if_neg (by rw [h]; exact Bool.false_ne_true)

/-- A wait whose tally has reached its target is over. -/
theorem tallyReached_waiting {s : State} {q seq t : Nat} {d : Desc} {v : W32} (hd : descOf s q seq = some d) (ht : descTally s d = some (t, v)) (hw : d.stage = .waiting)
    (h1 : d.step = 1) (hr : reached (tallyVal s t) v = true) : tallyReached q seq s =
      if d.opcode = 0x05 then opEnd q seq 0 s else descMod q seq (fun d => { d with stage := .started, step := 2 }) s := by
  unfold tallyReached
  simp only [hd, ht, hw, h1, hr, and_self, if_true]

section Waits

variable {s : State} {q : QueueNum} {seq : W32} {d : Desc}

theorem exec_tallyWait_reached (hrun : Runs s q seq 0x05 d) (h : reached (tallyVal s (d.f 1 0 16)) (w32 (d.f 1 32 32)) = true) :
    ∃ u, exec (.tallyWait q seq) s = .next (finish u) ∧ Ended u q seq { d with step := 2 } 0 ∧ WaitFrame s u := by
  have hd2 := descOf_descMod_some hrun.desc (f := fun d => { d with step := 2 }) fun _ => rfl
  exact ⟨_, exec_opRunTo hrun (tallyBegin_reached h ..), ended_opEnd hd2 0, rfl, rfl, rfl⟩

theorem exec_tallyWait_unreached (hrun : Runs s q seq 0x05 d) (h : reached (tallyVal s (d.f 1 0 16)) (w32 (d.f 1 32 32)) = false) :
    ∃ u, exec (.tallyWait q seq) s = .next (finish u) ∧
      descOf u q.toNat seq.toNat = some { d with stage := .waiting, step := 1, waitEdges := 0, waitLimit := waitTicks s q.toNat } ∧ WaitFrame s u :=
  ⟨_, exec_opRunTo hrun (tallyBegin_unreached h ..), descOf_descMod_some hrun.desc fun _ => rfl, waitFrame_descMod ..⟩

/-! The tally of a waiting descriptor reaches its target -/

variable (hal : alive s = true) (hd : descOf s q.toNat seq.toNat = some d) (hw : d.stage = .waiting) (h1 : d.step = 1)

include hal hd hw h1

/-- A TALLY_WAIT whose tally has reached its target has run. -/
theorem exec_tallyTargetReached_wait {t : Nat} {v : W32} (ht : descTally s d = some (t, v)) (hr : reached (tallyVal s t) v = true) (hop : d.opcode = 0x05) :
    ∃ u, exec (.tallyTargetReached q seq) s = .next (finish u) ∧ Ended u q seq d 0 ∧ WaitFrame s u :=
  ⟨_, exec_actTo hal ((tallyReached_waiting hd ht hw h1 hr).trans (if_pos hop)), ended_opEnd hd 0, waitFrame_descMod ..⟩

/-- A REDUCE or an APPLY whose tally has reached its target goes on. -/
theorem exec_tallyTargetReached_goesOn {t : Nat} {v : W32} (ht : descTally s d = some (t, v)) (hr : reached (tallyVal s t) v = true) (hop : d.opcode ≠ 0x05) :
    ∃ u, exec (.tallyTargetReached q seq) s = .next (finish u) ∧ descOf u q.toNat seq.toNat = some { d with stage := .started, step := 2 } ∧ WaitFrame s u :=
  ⟨_, exec_actTo hal ((tallyReached_waiting hd ht hw h1 hr).trans (if_neg hop)), descOf_descMod_some hd fun _ => rfl, waitFrame_descMod ..⟩

/-! The limit of a wait (DQ_WAIT) -/

/-- A wait whose limit has passed ends with TIMEOUT. -/
theorem exec_tallyWaitTimeout_passed (ht : (descTally s d).isSome = true) (hl : d.waitLimit ≠ 0) (hle : d.waitLimit ≤ d.waitEdges) :
    ∃ u, exec (.tallyWaitTimeout q seq) s = .next (finish u) ∧ Ended u q seq { d with statuses := .timeout :: d.statuses } 0 ∧ WaitFrame s u := by
  have e : tallyTimeout q.toNat seq.toNat s = opEnd q.toNat seq.toNat 0 (descMeet q.toNat seq.toNat .timeout s) := by
    rw [tallyTimeout, hd]
    exact if_pos ⟨hw, h1, ht, hl, hle⟩
  have hd2 := descOf_descMod_some hd (f := fun d => { d with statuses := .timeout :: d.statuses }) fun _ => rfl
  exact ⟨_, exec_actTo hal e, ended_opEnd hd2 0, rfl, rfl, rfl⟩

omit hw h1 in
/-- A wait without a limit, or whose limit has not passed, goes on as it was. -/
theorem exec_tallyWaitTimeout_early (hl : d.waitLimit = 0 ∨ d.waitEdges < d.waitLimit) : exec (.tallyWaitTimeout q seq) s = .next (finish s) := by
  refine exec_actTo hal ?_
  rw [tallyTimeout, hd]
  refine if_neg fun ⟨_, _, _, h0, hle⟩ => ?_
  rcases hl with h | h
  · exact h0 h
  · exact absurd hle (Nat.not_le.2 h)

end Waits

/-! Edges count toward the limits (R176) -/

/-- A descriptor at a slow-tick edge. -/
def Desc.edge (d : Desc) : Desc := if d.stage = .waiting then { d with waitEdges := d.waitEdges + 1 } else d

theorem Desc.edge_seq (d : Desc) : d.edge.seq = d.seq := by
  unfold Desc.edge
  split <;> rfl

/-- The descriptors of a queue at an edge; a queue that is not listed has none. -/
theorem descs_edgeCounts (s : State) (q : Nat) : (queueOf (edgeCounts s) q).descs = (queueOf s q).descs.map Desc.edge := by
  have e : (edgeCounts s).eng.queues = mmapv (fun _ x => { x with descs := x.descs.map Desc.edge }) s.eng.queues := rfl
  rw [queueOf, queueOf, mgetD, mgetD, e, mget_mmapv]
  cases mget q s.eng.queues <;> rfl

theorem descOf_edgeCounts (s : State) (q seq : Nat) : descOf (edgeCounts s) q seq = (descOf s q seq).map Desc.edge := by
  have e : (fun d : Desc => d.seq == seq) ∘ Desc.edge = fun d => d.seq == seq := funext fun d => by simp [Desc.edge_seq]
  rw [descOf, descs_edgeCounts, List.find?_map, e, descOf]

/-! The comparison of R176 -/

theorem reached_iff (v t : W32) : reached v t = true ↔ 0 ≤ (v - t).toInt := by
  have h := (v - t).isLt
  rw [reached, decide_eq_true_eq, BitVec.toInt_eq_toNat_cond]
  split <;> omega

/-- The limit that DQ_WAIT of a queue's slot gives. -/
theorem waitTicks_mapped {s : State} {q p k : Nat} (h : queueSlot s q = some (p, k)) : waitTicks s q = rfld s (slotReg Reg.dqWait k) p 0 16 := by
  rw [waitTicks, h]

/-- Settles O13: each outcome of the wait is one lemma, which gives its frame with it. -/
theorem tallyWaits : Obligations.TallyWaits := by
  unfold Obligations.TallyWaits
  refine ⟨fun s q seq d hrun => ⟨exec_tallyWait_reached hrun, exec_tallyWait_unreached hrun⟩, ?reached, ?timeout⟩
  case reached =>
    intro s q seq d t v hal hd ht hw h1 hr
    exact ⟨exec_tallyTargetReached_wait hal hd hw h1 ht hr, exec_tallyTargetReached_goesOn hal hd hw h1 ht hr⟩
  case timeout => exact fun s q seq d hal hd ht hw h1 hl hle => exec_tallyWaitTimeout_passed hal hd hw h1 ht hl hle

/-- Settles O56: a tally reads the wrapped sum after an add, and the waits are those of `tallyWaits`. -/
theorem tallyTargets : Obligations.TallyTargets := by
  unfold Obligations.TallyTargets
  refine ⟨fun s t n => tallyVal_tallyAddTo t n s, reached_iff, ?wait, fun s q p k h => waitTicks_mapped h, ?waiting, ?edge⟩
  case wait =>
    intro s q seq d hrun
    refine ⟨fun h => ?_, fun h => ?_⟩
    · obtain ⟨u, e, hend, -⟩ := exec_tallyWait_reached hrun h
      exact ⟨u, e, hend⟩
    · obtain ⟨u, e, hdesc, -⟩ := exec_tallyWait_unreached hrun h
      exact ⟨u, e, hdesc⟩
  case waiting =>
    intro s q seq d t v hal hd hop ht hw h1
    refine ⟨fun hr => ?_, fun hl hle => ?_, exec_tallyWaitTimeout_early hal hd⟩
    · obtain ⟨u, e, hend, -⟩ := exec_tallyTargetReached_wait hal hd hw h1 ht hr hop
      exact ⟨u, e, hend⟩
    · obtain ⟨u, e, hend, -⟩ := exec_tallyWaitTimeout_passed hal hd hw h1 (by rw [ht]; rfl) hl hle
      exact ⟨u, e, hend⟩
  case edge =>
    intro s q seq d hd hw
    rw [descOf_edgeCounts, hd, Option.map_some, Desc.edge, if_pos hw]

end Sys2Proof.Machine
end

section
/-! The queue registers and doorbells (O10). -/

namespace Sys2Proof.Machine

open Sys2Proof

/-! Doorbells (R154, R155, R567) -/

theorem ringDoorbell_good {s : State} {part k : Nat} {v : W32} (hi : intakeStopped s part = false) (hb : doorbellBad s part k v = false) :
    ringDoorbell part k v s = rset (slotReg Reg.dqDoorbell k) part v s :=
  if_neg (by rw [hi, hb]; exact Bool.false_ne_true)

theorem ringDoorbell_dropped {s : State} {part k : Nat} {v : W32} (h : intakeStopped s part = true ∨ doorbellBad s part k v = true) :
    ringDoorbell part k v s = badDoorbell part k s :=
  if_pos (by rwa [Bool.or_eq_true])

@[simp] theorem storeParity_store (r i u : Nat) (s : State) : (storeParity r i u s).store = s.store := by
  obtain ⟨m, v, e, -⟩ := storeParity_frame r i u s
  rw [e]

@[simp] theorem storeParity_eng (r i u : Nat) (s : State) : (storeParity r i u s).eng = s.eng := by
  obtain ⟨m, v, e, -⟩ := storeParity_frame r i u s
  rw [e]

theorem homeDoorbell_waits {s : State} {p : Packet} (h : storeWaits s p.src.toNat = true ∨ (s.ord.bells.any fun q => q.src == p.src) = true) :
    homeDoorbell p s = { s with ord := { s.ord with bells := s.ord.bells ++ [p] } } :=
  if_pos (by rwa [Bool.or_eq_true])

theorem homeDoorbell_now {s : State} {p : Packet} (hw : storeWaits s p.src.toNat = false) (hb : (s.ord.bells.any fun q => q.src == p.src) = false) :
    homeDoorbell p s = doorbellTake p s :=
  if_neg (by rw [hw, hb]; exact Bool.false_ne_true)

/-- A doorbell of the key of a running partition is answered by whether TAIL may stand there. -/
theorem doorbellTake_keyed {s : State} {p : Packet} {part k : Nat} (hf : fatal s = false) (hq : queueSlot s (fld p.arg 0 12) = some (part, k))
    (hk : fkey s part = p.key) (hu : unitStopped s 8 (some part) = false) (hi : intakeStopped s part = false) : doorbellTake p s =
      if doorbellBad s part k (w32 (fld p.arg 32 32)) then reply (ackTo s p .decode 0) (badDoorbell part k s)
      else reply (ackTo s p .ok 0) (rset (slotReg Reg.dqDoorbell k) part (w32 (fld p.arg 32 32)) s) := by
  unfold doorbellTake
  simp only [hf, hq, hk, hu, hi, ne_eq, not_true, Bool.false_eq_true, if_false]

/-! The registers of a slot -/

/-- Two registers of one slot have different keys. -/
theorem rkey_slotReg_ne {r r' : Nat} (h : r ≠ r') (k i : Nat) : rkey (slotReg r k) i ≠ rkey (slotReg r' k) i := by
  unfold rkey slotReg
  omega

/-- A slot's registers lie above PARITY_INJECT. -/
theorem rkey_slotReg_ne_inject {r i : Nat} (hr : Reg.parityInject < r) (hi : i < 65536) (k : Nat) : rkey (slotReg r k) i ≠ rkey Reg.parityInject 0 :=
  rkey_ne_reg hi (by omega) (by unfold slotReg; omega)

/-- Of DQ_CTL a write reaches ENABLE alone (Table 4-18). -/
theorem regRow_dqCtl : ∀ k : Fin 64, (regRow (slotReg Reg.dqCtl k)).map (·.rw) = some 1 := by decide +kernel

/-- DQ_CTL holds in ENABLE what was stored. -/
theorem dqEnabled_cfgStore (k : Fin 64) (i : Nat) (v : W32) (s : State) : dqEnabled (cfgStore (slotReg Reg.dqCtl k) i v s) i k = bit v 0 := by
  obtain ⟨row, hrow, hrw⟩ := Option.map_eq_some_iff.1 (regRow_dqCtl k)
  rw [dqEnabled, rbit, cfgStore, hrow]
  dsimp only
  rw [rget_rset_same, hrw]
  simp [bit]

/-! DQ_CTL (Table 4-18) -/

theorem dqCtlSet_enable {v : W32} (h1 : bit v 1 = false) (h2 : bit v 2 = false) (part k : Nat) (s : State) :
    dqCtlSet part k v s = cfgStore (slotReg Reg.dqCtl k) part (w32 (b2n (bit v 0))) s := by
  simp [dqCtlSet, h1, h2]

theorem dqCtlSet_abort {s : State} {part k q : Nat} {v : W32} (h1 : bit v 1 = true) (h2 : bit v 2 = false) (hq : slotQueue s part k = some q) :
    dqCtlSet part k v s = cfgStore (slotReg Reg.dqCtl k) part 0 (abortQueue q s) := by
  simp [dqCtlSet, h1, h2, hq, b2n, w32]

theorem dqCtlSet_clear {s : State} {part k q : Nat} {v : W32} (h1 : bit v 1 = false) (h2 : bit v 2 = true) (hq : slotQueue s part k = some q)
    (he : dqEnabled s part k = false) (hidle : queueIdle s q = true) :
    dqCtlSet part k v s = cfgStore (slotReg Reg.dqCtl k) part (w32 (b2n (bit v 0))) (dqClear (some q) part k s) := by
  simp [dqCtlSet, h1, h2, hq, he, hidle]

/-- A descriptor that is stopped had completed, or ends with the status. -/
theorem Desc.stop_ended {d : Desc} (h : d.stage ≠ .fetching) (st : Status) :
    (d.stop st).stage = .completed ∨ ((d.stop st).stage = .ran ∧ st ∈ (d.stop st).statuses) := by
  by_cases hc : d.stage = .completed
  · rw [Desc.stop, if_pos hc]
    exact .inl hc
  · rw [Desc.stop, if_neg hc, if_neg h]
    exact .inr ⟨rfl, List.mem_cons_self⟩

/-- Where every descriptor of a queue is stopped, those that stay had completed or end with the status: one whose ring entry is still being read goes. -/
theorem stopDescs_all_ended (q : Nat) (st : Status) (s : State) :
    ∀ d ∈ (queueOf (stopDescs q (fun _ => true) st s) q).descs, d.stage = .completed ∨ (d.stage = .ran ∧ st ∈ d.statuses) := by
  intro d hd
  unfold stopDescs at hd
  dsimp only at hd
  rw [queueOf_queueSet_same] at hd
  obtain ⟨e, he, rfl⟩ := List.mem_map.1 hd
  obtain ⟨hmem, hstays⟩ := List.mem_filter.1 he
  refine Desc.stop_ended (fun hf => ?_) st
  have hgone : e.seq ∈ ((queueOf s q).descs.filter fun d => d.stage == DescStage.fetching && true).map (·.seq) :=
    List.mem_map_of_mem (List.mem_filter.2 ⟨hmem, by simp [hf]⟩)
  rw [List.contains_iff_mem.2 hgone] at hstays
  exact Bool.false_ne_true hstays

theorem abortQueue_store (q : Nat) (s : State) : (abortQueue q s).store = s.store := by
  unfold abortQueue
  split <;> rfl

/-- After an ABORT every descriptor of the queue has completed or ended with RESET. -/
theorem abortQueue_ended (q : Nat) (s : State) :
    ∀ d ∈ (queueOf (abortQueue q s) q).descs, d.stage = .completed ∨ (d.stage = .ran ∧ Status.reset ∈ d.statuses) :=
  stopDescs_all_ended q .reset _

/-! CLEAR -/

/-- The registers of a slot as CLEAR leaves them. -/
def slotCleared (part k : Nat) (s : State) : State :=
  let s := [Reg.dqDoorbell, Reg.dqHead, Reg.dqCqHead, Reg.dqCqTail].foldl (fun s r => rset (slotReg r k) part 0 s) s
  rset (slotReg Reg.dqStatus k) part (rget s (slotReg Reg.dqStatus k) part &&& 0x3FF) s

theorem dqClear_regs (q : Option Nat) (part k : Nat) (s : State) : (dqClear q part k s).regs = (slotCleared part k s).regs := by
  cases q <;> rfl

theorem dqClear_store (q : Option Nat) (part k : Nat) (s : State) : (dqClear q part k s).store = s.store := by
  cases q <;> simp [dqClear, orphanReads]

theorem rget_slotCleared {r : Nat} (h : r ∈ [Reg.dqDoorbell, Reg.dqHead, Reg.dqCqHead, Reg.dqCqTail]) (part k : Nat) (s : State) :
    rget (slotCleared part k s) (slotReg r k) part = 0 := by
  have hne : ∀ {a b : Nat}, a ≠ b → rkey (slotReg a k) part ≠ rkey (slotReg b k) part := fun h => rkey_slotReg_ne h k part
  simp only [List.mem_cons, List.not_mem_nil, or_false] at h
  simp only [slotCleared, List.foldl]
  rcases h with rfl | rfl | rfl | rfl
  · rw [rget_rset_ne (hne (by decide)), rget_rset_ne (hne (by decide)), rget_rset_ne (hne (by decide)), rget_rset_ne (hne (by decide)), rget_rset_same]
  · rw [rget_rset_ne (hne (by decide)), rget_rset_ne (hne (by decide)), rget_rset_ne (hne (by decide)), rget_rset_same]
  · rw [rget_rset_ne (hne (by decide)), rget_rset_ne (hne (by decide)), rget_rset_same]
  · rw [rget_rset_ne (hne (by decide)), rget_rset_same]

/-- What CLEAR sets to 0 reads 0 once DQ_CTL is stored. -/
theorem rget_cleared {r i : Nat} (h : r ∈ [Reg.dqDoorbell, Reg.dqHead, Reg.dqCqHead, Reg.dqCqTail]) (hi : i < 65536) (q : Option Nat) (k : Nat) (v : W32)
    (s : State) : rget (cfgStore (slotReg Reg.dqCtl k) i v (dqClear q i k s)) (slotReg r k) i = 0 := by
  have hr : r ≠ Reg.dqCtl ∧ Reg.parityInject < r := by
    simp only [List.mem_cons, List.not_mem_nil, or_false] at h
    rcases h with rfl | rfl | rfl | rfl <;> decide
  obtain ⟨hctl, hinj⟩ := hr
  rw [rget_cfgStore_ne (rkey_slotReg_ne hctl.symm k i) (rkey_slotReg_ne_inject hinj hi k), rget_congr (dqClear_regs ..), rget_slotCleared h]

/-! CQ_HEAD and DQ_MAP -/

theorem cqHeadSet_within {s : State} {part k : Nat} {v : W32} (h : (cqTail s part k - v).toNat ≤ ringDepth s part k) :
    cqHeadSet part k v s = cfgStore (slotReg Reg.dqCqHead k) part v s := if_neg (Nat.not_lt.2 h)

theorem dqMapSet_free {s : State} {part k : Nat} {v : W32} (he : dqEnabled s part k = false)
    (hq : queueSlot s (fld v 0 12) = none ∨ queueSlot s (fld v 0 12) = some (part, k) ∨ bit v 31 = false) (hr : reelOff s (fld v 0 12 / 64) = false) :
    dqMapSet part k v s = cfgStore (slotReg Reg.dqMap k) part v s := by
  unfold dqMapSet
  rcases hq with h | h | h
  · simp [he, hr, h]
  · simp [he, hr, h]
  · simp only [he, hr, h, Bool.false_and]
    split <;> simp

/-- Settles O10. -/
theorem queueRegisterCommands : Obligations.QueueRegisterCommands := by
  unfold Obligations.QueueRegisterCommands
  refine ⟨?doorbell, ?waits, ?fabric, ?enable, ?abort, ?clear, ?cqHead, ?map⟩
  case doorbell =>
    intro s path slot v i hr s1
    refine ⟨fun hi hb => ⟨_, exec_regWriteTo hr (ringDoorbell_good hi hb), rget_rset_same .., ?_, ?_⟩, fun h => exec_regWriteTo hr (ringDoorbell_dropped h)⟩
    · rw [rset_store, storeParity_store, useUnlock_store]
    · rw [rset_eng, storeParity_eng, useUnlock_eng]
  case waits => exact fun s port p ha h => exec_arriveTo ha (homeDoorbell_waits h)
  case fabric =>
    intro s port p part k ha hw hb hf hq hk hu hi
    have e := (homeDoorbell_now hw hb).trans (doorbellTake_keyed hf hq hk hu hi)
    refine ⟨fun h => ?_, fun h => ?_⟩
    · exact exec_arriveTo ha (e.trans (if_neg (by rw [h]; exact Bool.false_ne_true)))
    · exact exec_arriveTo ha (e.trans (if_pos h))
  case enable => exact fun s path slot v i hr h1 h2 => exec_regWriteTo hr (dqCtlSet_enable h1 h2 ..)
  case abort =>
    intro s path slot v i q hr h1 h2 hq
    refine ⟨_, exec_regWriteTo hr (dqCtlSet_abort h1 h2 hq), ?_, dqEnabled_cfgStore .., ?_⟩
    · rw [cfgStore_store, abortQueue_store, useUnlock_store]
    · rw [queueOf_congr (s := abortQueue q (useUnlock path s)) (by rw [cfgStore_eng])]
      exact abortQueue_ended q _
  case clear =>
    intro s path slot v i q hr h1 h2 hq he hidle
    have hz := fun r (h : r ∈ [Reg.dqDoorbell, Reg.dqHead, Reg.dqCqHead, Reg.dqCqTail]) =>
      rget_cleared h hr.lt (some q) slot (w32 (b2n (bit v 0))) (useUnlock path s)
    refine ⟨_, exec_regWriteTo hr (dqCtlSet_clear h1 h2 hq he hidle), hz _ (by simp), hz _ (by simp), hz _ (by simp), hz _ (by simp), ?_⟩
    rw [cfgStore_store, dqClear_store, useUnlock_store]
  case cqHead => exact fun s path slot v i hr h => exec_regWriteTo hr (cqHeadSet_within h)
  case map => exact fun s path slot v i hr he hq hreel => exec_regWriteTo hr (dqMapSet_free he hq hreel)

end Sys2Proof.Machine
end

section
/-! Descriptors from the ring to their records: fetch, start, completion (O11). -/

namespace Sys2Proof.Machine

open Sys2Proof

/-! An arbiter at which one partition waits serves it (R157, R432) -/

theorem nextOf_single (last p : Nat) : nextOf last [p] = some p := by
  by_cases h : last < p
  · simp [nextOf, h, sortBy, insertBy]
  · simp [nextOf, h, sortBy, insertBy]

theorem Arb.credit_fill_single (w : Nat → Nat) (p : Nat) (a : Arb) :
    (a.fill w [p]).credit p = a.credit p + Int.ofNat (a.short w p * 16 * w p) := by
  simp [Arb.fill, Arb.credit]

/-- The refills that an arbiter gives the one who waits suffice. -/
theorem Arb.credit_fill_pos {w : Nat → Nat} {p : Nat} {a : Arb} (h : 0 < w p ∨ 0 < a.credit p) : 0 < (a.fill w [p]).credit p := by
  rw [Arb.credit_fill_single, Arb.short]
  by_cases hc : 0 < a.credit p
  · rw [if_pos hc]
    simpa using hc
  · have hw : 0 < 16 * w p := by omega
    have hlt : (-a.credit p).toNat < ((-a.credit p).toNat / (16 * w p) + 1) * (16 * w p) := by
      rw [Nat.mul_comm]
      exact Nat.lt_mul_div_succ _ hw
    rw [if_neg hc, Nat.mul_assoc, Int.ofNat_eq_natCast]
    omega

theorem Arb.pick_single (w : Nat → Nat) (p : Nat) (a : Arb) : (a.pick w [p]).1 = some p := by
  by_cases h : (decide (0 < w p) || decide (0 < (a.keep [p]).credit p)) = true
  · have hpos : 0 < ((a.keep [p]).fill w [p]).credit p := Arb.credit_fill_pos (by simpa using h)
    simp [Arb.pick, h, hpos, nextOf_single]
  · simp [Arb.pick, h, nextOf_single]

/-- The only candidate is picked. -/
theorem Arb.pickOf_single (w : Nat → Nat) (p x : Nat) (a : Arb) : (a.pickOf w [(p, x)]).1 = some (p, x) := by
  have hp := Arb.pick_single w p a
  unfold Arb.pickOf
  simp only [List.map_cons, List.map_nil, List.Nodup.dedup (List.nodup_singleton p)]
  split
  · next e =>
    rw [e] at hp
    obtain rfl := Option.some.inj hp
    dsimp only
    split <;> simp [nextOf_single]
  · next e =>
    rw [e] at hp
    exact absurd hp (by simp)

/-! Fetch (R152, R153, R156, R157) -/

theorem fetchGo_picked {s : State} {q part k p : Nat} {a : Arb} (hq : queueSlot s q = some (part, k))
    (hf : ((queueOf s q).descs.find? fun d => d.stage == DescStage.fetching) = none) (hp : fetchPick s (q / 64) = (some (p, q), a)) :
    fetchGo q s = fetchBegin q part k (arbSet (fetchArb (q / 64)) ((a.charge p 1).took p q) s) := by
  unfold fetchGo
  simp only [hq, hf, hp, if_true]

theorem fetchGo_answered {s : State} {q part k : Nat} {d : Desc} (hq : queueSlot s q = some (part, k))
    (hf : ((queueOf s q).descs.find? fun d => d.stage == DescStage.fetching) = some d) (hr : descReading s q d.seq = false) :
    fetchGo q s = fetchEnd q part k d s := by
  unfold fetchGo
  simp only [hq, hf, hr, Bool.false_eq_true, if_false]

/-- A ring entry read whole and clean makes a fetched descriptor, and HEAD advances. -/
theorem fetchEnd_clean {d : Desc} (hs : d.statuses = []) (hp : d.remotePoison = []) (q part k : Nat) (s : State) :
    fetchEnd q part k d s = rset (slotReg Reg.dqHead k) part (dqHead s part k + 1)
      (descMod q d.seq (fun e => { e with bytes := e.at (ringBase s Reg.dqBaseLo Reg.dqBaseHi part k + 64 * (d.seq % ringDepth s part k)) 64, remote := [], stage := .fetched }) s) := by
  unfold fetchEnd
  simp only [hs, hp, List.isEmpty_nil, Bool.not_true, Bool.or_self, Bool.false_eq_true, if_false]
  rfl

/-! Start (R162 to R165) -/

theorem startGo_picked {s : State} {q seq part k p : Nat} {d : Desc} {a : Arb} (hq : queueSlot s q = some (part, k)) (hd : descOf s q seq = some d)
    (hf : d.stage = .fetched) (hm : mayStart s q part k d = true) (hp : startPick s (q / 64) = (some (p, q), a)) :
    startGo q seq s = startNow q seq part k (paritySweep (served q part k d a s)) := by
  unfold startGo
  simp only [hq, hd, hf, hm, hp, and_self, if_true]

/-- What a descriptor samples as it starts (Table 4-14). -/
def sampled (s : State) (part k : Nat) (d : Desc) : Desc :=
  let c := rget s (slotReg Reg.dqCfg k) part
  let d := { d with asid := fld c 20 12, span := fld c 8 2, auditCfg := rget s Reg.auditCfg part, auditTol := rget s Reg.auditTol part,
                    auditRange := rget s Reg.auditRange part }
  { d with reads := (opRanges s d).reads, writes := (opRanges s d).writes }

/-- A descriptor that the checks of its start turn away has run, without an effect. -/
def turnedAway (q seq : Nat) (d : Desc) (x : Check) (s : State) : State :=
  descMod q seq (fun d => { d with
      stage := .ran, step := 99, statuses := (if x.own then [Status.ownership] else []) ++ (if x.bad.isEmpty then [] else [Status.decode])
      detail := if x.bad.isEmpty then none else some (x.bad.foldl min (x.bad.headD 0)) })
    (if opcodes.contains d.opcode && tallyRefusal s d then bump Reg.tallyRefused d.part s else s)

theorem descOf_sampled {s : State} {q seq : Nat} {d : Desc} (hd : descOf s q seq = some d) (part k : Nat) :
    descOf (descMod q seq (sampled s part k) s) q seq = some (sampled s part k d) := descOf_descMod_some hd fun _ => rfl

/-- In a running kernel, with every unit in service, a start samples its descriptor and then does as its checks say. -/
theorem startNow_inKernel {s : State} {q seq part k : Nat} {d : Desc} (hd : descOf s q seq = some d) (hk : (queueOf s q).inKernel = true)
    (hst : s.mgmt.stopped = []) : startNow q seq part k s =
      let s1 := descMod q seq (sampled s part k) s
      let d2 := sampled s part k d
      if (startCheck s1 d2).bad.isEmpty && !(startCheck s1 d2).own then startHook q seq d2 (descMod q seq (fun d => { d with stage := .started }) s1)
      else turnedAway q seq d2 (startCheck s1 d2) s1 := by
  have hd2 := descOf_sampled hd part k
  unfold sampled at hd2
  unfold startNow
  simp only [hk, if_true, hd2, descMod_mgmt, hst, List.any_nil, Bool.false_eq_true, if_false]
  rfl

section Checks

variable {s : State} {q seq part k : Nat} {d : Desc} (hd : descOf s q seq = some d) (hk : (queueOf s q).inKernel = true) (hst : s.mgmt.stopped = [])
include hd hk hst

theorem startNow_passes (hb : (startCheck (descMod q seq (sampled s part k) s) (sampled s part k d)).bad = [])
    (ho : (startCheck (descMod q seq (sampled s part k) s) (sampled s part k d)).own = false) : startNow q seq part k s =
      startHook q seq (sampled s part k d) (descMod q seq (fun d => { d with stage := .started }) (descMod q seq (sampled s part k) s)) := by
  rw [startNow_inKernel hd hk hst]
  exact if_pos (by rw [hb, ho]; rfl)

theorem startNow_fails (h : (startCheck (descMod q seq (sampled s part k) s) (sampled s part k d)).bad ≠ [] ∨
      (startCheck (descMod q seq (sampled s part k) s) (sampled s part k d)).own = true) : startNow q seq part k s =
      turnedAway q seq (sampled s part k d) (startCheck (descMod q seq (sampled s part k) s) (sampled s part k d)) (descMod q seq (sampled s part k) s) := by
  rw [startNow_inKernel hd hk hst]
  refine if_neg fun hp => ?_
  rw [Bool.and_eq_true, List.isEmpty_iff, Bool.not_eq_true'] at hp
  obtain ⟨hb, ho⟩ := hp
  rcases h with h | h
  · exact h hb
  · exact Bool.false_ne_true (ho.symm.trans h)

end Checks

theorem descOf_turnedAway {s : State} {q seq : Nat} {d : Desc} (hd : descOf s q seq = some d) (x : Check) :
    ∃ d3, descOf (turnedAway q seq d x s) q seq = some d3 ∧ d3.stage = .ran ∧ d3.step = 99 ∧
      (Status.ownership ∈ d3.statuses ↔ x.own = true) ∧ (Status.decode ∈ d3.statuses ↔ x.bad ≠ []) := by
  have hd' : descOf (if opcodes.contains d.opcode && tallyRefusal s d then bump Reg.tallyRefused d.part s else s) q seq = some d := by
    split <;> exact hd
  refine ⟨_, descOf_descMod_some hd' fun _ => rfl, rfl, rfl, ?_, ?_⟩
  · cases x.own <;> cases x.bad <;> simp
  · cases x.own <;> cases x.bad <;> simp

/-! Completion (R169 to R172) -/

theorem completeGo_ran {s : State} {q seq part k : Nat} {d : Desc} (hq : queueSlot s q = some (part, k)) (hd : descOf s q seq = some d)
    (hr : d.stage = .ran) (hw : awaitsWrites d = true → descWriting s q seq = false)
    (hk : ∀ e ∈ (queueOf s q).descs.takeWhile (fun e => e.seq != seq), e.stage = .completed ∨ e.opcode ≠ 0x04) :
    completeGo q seq s = completeNow q seq part k d s := by
  have hopen : ¬ ((queueOf s q).descs.takeWhile fun e => e.seq != seq).any (fun e => e.stage != DescStage.completed && e.opcode == 0x04) = true := by
    rw [List.any_eq_true]
    rintro ⟨e, he, h⟩
    rw [Bool.and_eq_true, bne_iff_ne, beq_iff_eq] at h
    exact (hk e he).elim h.1 (fun hop => hop h.2)
  have hwrites : ¬ (awaitsWrites d = true ∧ descWriting s q seq = true) := fun ⟨ha, hb⟩ => Bool.false_ne_true ((hw ha).symm.trans hb)
  unfold completeGo
  simp only [hq, hd, hr]
  exact if_neg (by simp [hopen, hwrites])

theorem doneTallyGo_ours {s : State} {q seq : Nat} {d : Desc}
    (hf : ((queueOf s q).descs.find? fun d => d.stage == DescStage.completed && d.seq % 2 ^ 32 == seq && d.doneEn && !descWriting s q d.seq) = some d)
    (ho : notOurs s d.part d.doneTally = false) : doneTallyGo q seq s = dropDesc q d.seq (tallyAddTo d.doneTally 1 s) := by
  have hr : doneRefused s d = false := by rw [doneRefused, ho, Bool.and_false]
  have ht : tallyPart s d.doneTally = some d.part := by simpa [notOurs] using ho
  unfold doneTallyGo
  simp only [hf, hr, Bool.false_eq_true, if_false, tallyAddFor, ht, if_true]

/-! Records (R152, R171) -/

/-- A record that its ring takes. -/
def recordTaken (q part k : Nat) (s : State) : State :=
  rset (slotReg Reg.dqCqTail k) part (cqTail s part k + 1) (queueSet q (fun x => { x with owed := x.owed.drop 1 }) s)

theorem recordTaken_cqTail (q part k : Nat) (s : State) : cqTail (recordTaken q part k s) part k = cqTail s part k + 1 := rget_rset_same ..

theorem recordTaken_owed (q part k : Nat) (s : State) : (queueOf (recordTaken q part k s) q).owed = (queueOf s q).owed.drop 1 := by
  rw [queueOf_congr (s := queueSet q (fun x => { x with owed := x.owed.drop 1 }) s) (by rw [recordTaken, rset_eng]), queueOf_queueSet_same]

theorem recordTaken_store (q part k : Nat) (s : State) : (recordTaken q part k s).store = s.store := rfl

/-- The first record owed is written where nothing holds it back; what becomes of the write is the record's end. -/
theorem recordWrite_done {s s2 : State} {q part k : Nat} {r : Record} {rest : List Record} {st : Status} (hq : queueSlot s q = some (part, k))
    (ho : (queueOf s q).owed = r :: rest) (hr : recordSent s q = false) (hc : cqFull s part k = false) (ha : asidPart s (ringAsid s part k) = some part)
    (hv : vaHeld s (ringAsid s part k) (ringBase s Reg.dqCqLo Reg.dqCqHi part k + 32 * ((cqTail s part k).toNat % ringDepth s part k)) 32 = false)
    (hput : putPiece (.ring q r.notify) part (ringAsid s part k) (ringBase s Reg.dqCqLo Reg.dqCqHi part k + 32 * ((cqTail s part k).toNat % ringDepth s part k))
      { bs := recordBytes q ((cqTail s part k).toNat / ringDepth s part k % 2 == 0) r, pois := [], tally := none, e2e := false } s = (.done st, s2)) :
    recordWrite q s = recordDone q r.notify st s2 := by
  unfold recordWrite
  simp only [hq, ho, List.head?_cons, hr, hc, Bool.or_self, Bool.false_eq_true, if_false, ha, ne_eq, not_true, hv, hput]

theorem recordDone_ok {s : State} {q part k : Nat} (hq : queueSlot s q = some (part, k)) (v : Option Nat) :
    recordDone q v .ok s = raiseOpt part v (recordTaken q part k s) := by
  have hq' : queueSlot (queueSet q (fun x => { x with owed := x.owed.drop 1 }) s) q = some (part, k) := hq
  unfold recordDone
  simp only [hq', if_true]
  rfl

/-- Settles O11, with one lemma for each event that says what it does to the descriptor. -/
theorem descriptorLife : Obligations.DescriptorLife := by
  unfold Obligations.DescriptorLife
  refine ⟨?fetch, ?alone, ?fetched, ?start, ?checks, ?complete, ?done, ?record⟩
  case fetch => exact fun s q part k hal hq hf p a hp => exec_actTo hal (fetchGo_picked hq hf hp)
  case alone =>
    intro s r p x
    refine ⟨fun h => ?_, fun h => ?_⟩
    · rw [fetchPick, h, Arb.pickOf_single]
    · rw [startPick, h, Arb.pickOf_single]
  case fetched =>
    intro s q part k d hal hq hf hd hr hs hp
    refine ⟨_, exec_actTo hal ((fetchGo_answered hq hf hr).trans (fetchEnd_clean hs hp ..)), ?_, rget_rset_same .., rfl⟩
    rw [descOf_congr (congrArg Engines.queues (rset_eng ..))]
    exact descOf_descMod_some hd fun _ => rfl
  case start => exact fun s q seq part k d hal hq hd hf hm p a hp => exec_actTo hal (startGo_picked hq hd hf hm hp)
  case checks =>
    intro s q seq part k d hd hk hst c d1 d2 s1
    refine ⟨fun hb ho => startNow_passes hd hk hst hb ho, fun h => ?_⟩
    rw [startNow_fails hd hk hst h]
    exact descOf_turnedAway (descOf_sampled hd part k) _
  case complete => exact fun s q seq part k d hal hq hd hr hw hk => exec_actTo hal (completeGo_ran hq hd hr hw hk)
  case done => exact fun s q seq d hal hf ho => exec_actTo hal (doneTallyGo_ours hf ho)
  case record =>
    intro s q part k r rest s2 hal hq ho hr hc ha hv hput hq2
    exact ⟨_, exec_actTo hal ((recordWrite_done hq ho hr hc ha hv hput).trans (recordDone_ok hq2 _)), recordTaken_cqTail ..,
      recordTaken_owed .., recordTaken_store ..⟩

end Sys2Proof.Machine
end

section
/-! COPY, FILL, FENCE, KERNEL_END and TALLY_ADD (O12). -/

namespace Sys2Proof.Machine

open Sys2Proof

/-! COPY (R174) -/

/-- A COPY with no piece left has run. -/
theorem copyGo_nil (q seq : Nat) (s : State) :
    copyGo q seq [] s = descMod q seq (fun d => if d.stage = .started then { d with stage := .ran } else d) s := rfl

/-- What a COPY writes of n bytes at offset o that it has read. -/
def copyPut (d d1 : Desc) (o n : Nat) : Put :=
  { bs := d1.at (d.w 1 + o) n, pois := movedWords (d.w 1 + o) (d.w 2 + o) n d1.remotePoison
    tally := if d1.f 4 16 1 = 1 then some (d1.f 4 0 16) else none, e2e := d1.f 4 17 1 == 1 }

/-- A piece of a COPY written, its bytes dropped and counted. -/
def copyPiece (q seq : Nat) (d d1 : Desc) (u o n : Nat) (s : State) : State :=
  descMod q seq (fun d => if d.stage = .started then { d with step := d.step + 1, count := o + n } else d)
    (dropBytes q seq (d.w 1 + o) n (opPut q seq u (d.w 2 + o) (copyPut d d1 o n) s))

/-- A piece whose ranges nothing holds and whose bytes are read is written; the COPY goes on while nothing has ended it. -/
theorem copyGo_piece {s s1 : State} {q seq u o n : Nat} {d d1 : Desc} (hd : descOf s q seq = some d) (hv : vaHeld s d.asid (d.w 2 + o) n = false)
    (hf : opFetch q seq [(d.w 1 + o, n)] s = (true, s1)) (hd1 : descOf s1 q seq = some d1) (rest : List (Nat × Nat × Nat)) :
    copyGo q seq ((u, o, n) :: rest) s =
      if (descOf (copyPiece q seq d d1 u o n s1) q seq).any (fun d => d.stage == .started) then copyGo q seq rest (copyPiece q seq d d1 u o n s1)
      else copyPiece q seq d d1 u o n s1 := by
  rw [copyGo]
  simp only [hd, hv, hf, hd1, Bool.false_eq_true, if_false]
  rfl

/-! FILL (R175) -/

theorem fillGo_free {s : State} {d : Desc} (h : vaHeld s d.asid (d.w 1) (fillLen d) = false) (q seq : Nat) : fillGo q seq d s =
    descMod q seq (fun d => if d.stage = .started then { d with stage := .ran } else d)
      ((unitPieces (d.w 1) (fillLen d)).foldl (fun s x =>
        descMod q seq (fun d => if d.stage = .started then { d with count := x.2.1 + x.2.2 } else d)
          (opPut q seq x.1 (d.w 1 + x.2.1) { bs := fillBytes d x.2.1 x.2.2, pois := [], tally := none, e2e := false } s)) s) :=
  if_neg (by rw [h]; exact Bool.false_ne_true)

/-! KERNEL_END (R168, R223) -/

theorem atStep_due {s : State} {q seq n : Nat} {d : Desc} (hd : descOf s q seq = some d) (hn : d.step = n) (hst : d.stage = .started) (f : State → State) :
    atStep q seq n f s = descMod q seq (fun d => { d with step := n + 1 }) (f s) := by
  rw [atStep, hd]
  exact if_pos ⟨hn, hst⟩

theorem atStep_past {s : State} {q seq n : Nat} {d : Desc} (hd : descOf s q seq = some d) (hn : d.step ≠ n) (f : State → State) : atStep q seq n f s = s := by
  rw [atStep, hd]
  exact if_neg fun h => hn h.1

theorem descWriting_congr {s t : State} (h : t.fab = s.fab) (q seq : Nat) : descWriting t q seq = descWriting s q seq := by
  rw [descWriting, descWriting, h]

/-- The broadcasts of a kernel, sent once. -/
def kernelBroadcasts (q seq : Nat) (s : State) : State :=
  atStep q seq 0 (fun s =>
    let set := (queueOf s q).bset
    let part := match descOf s q seq with | some d => d.part | none => 0
    (set.map (·.1)).dedup.foldl (bcastTable q seq part set) (queueSet q (fun x => { x with bset := [] }) s)) s

theorem kernelEndRun_performed {s : State} {q seq : Nat} (h : descWriting (kernelBroadcasts q seq s) q seq = false) (d : Desc) :
    kernelEndRun q seq d s = opEnd q seq 0 (kernelBroadcasts q seq s) :=
  if_neg fun hw => Bool.false_ne_true (h.symm.trans hw)

/-- A kernel that updated no row broadcasts nothing as it ends. -/
theorem kernelBroadcasts_noRows {s : State} {q seq : Nat} {d : Desc} (hd : descOf s q seq = some d) (hst : d.stage = .started) (hb : (queueOf s q).bset = []) :
    descOf (kernelBroadcasts q seq s) q seq = some (if d.step = 0 then { d with step := 1 } else d) ∧ (kernelBroadcasts q seq s).fab = s.fab ∧
      (kernelBroadcasts q seq s).store = s.store ∧ (kernelBroadcasts q seq s).regs = s.regs := by
  by_cases h0 : d.step = 0
  · have hd' : descOf (queueSet q (fun x => { x with bset := [] }) s) q seq = some d := by
      rw [descOf, queueOf_queueSet_same]
      exact hd
    have e : kernelBroadcasts q seq s = descMod q seq (fun d => { d with step := 1 }) (queueSet q (fun x => { x with bset := [] }) s) := by
      rw [kernelBroadcasts, atStep_due hd h0 hst]
      simp only [hb, List.map_nil, List.dedup_nil, List.foldl_nil]
    rw [if_pos h0, e]
    exact ⟨descOf_descMod_some hd' fun _ => rfl, rfl, rfl, rfl⟩
  · rw [if_neg h0, kernelBroadcasts, atStep_past hd h0]
    exact ⟨hd, rfl, rfl, rfl⟩

/-! TALLY_ADD (R177) -/

theorem tallyAddRun_local {d : Desc} (h : d.f 1 16 1 = 0) (q seq : Nat) (s : State) :
    tallyAddRun q seq d s = opEnd q seq 0 (tallyAddFor d.part (d.f 1 0 16) (w32 (d.f 2 0 32)) s) := if_pos h

theorem tallyAddRun_sent {s s1 : State} {q seq : Nat} {d : Desc} (h : d.f 1 16 1 ≠ 0)
    (hs : sendReq (mkReq { mkPacket s tTALLY (d.f 1 32 18) 0 (w64 (d.f 1 0 16 + d.f 2 0 32 * 65536)) [] with key := fkey s d.part } none 0 d.part
      (.descWrite q seq 0 none)) s = (.gone, s1)) : tallyAddRun q seq d s = opEnd q seq 0 s1 := by
  unfold tallyAddRun
  simp only [h, if_false, hs]

/-- Settles O12, with one lemma for each operation; what FENCE and an empty COPY do is their end alone. -/
theorem controlOperations : Obligations.ControlOperations := by
  unfold Obligations.ControlOperations
  refine ⟨?copy, ?copied, ?fill, ?fence, ?kernelEnd, ?tallyAdd⟩
  case copy =>
    intro s s1 q seq d d1 u o n hrun hp hv hreads w s2
    obtain ⟨hf, hd1⟩ := hreads
    refine ⟨_, exec_opRunTo hrun ?_, rfl⟩
    rw [hp, copyGo_piece hrun.desc hv hf hd1, copyGo_nil]
    rfl
  case copied =>
    intro s q seq d hrun hp
    refine ⟨_, exec_opRunTo hrun ((congrArg (copyGo _ _ · s) hp).trans (copyGo_nil ..)), ?_, rfl, rfl⟩
    rw [descOf_descMod_some hrun.desc fun d => by split <;> rfl, if_pos hrun.started]
  case fill => exact fun s q seq d hrun hv => exec_opRunTo hrun (fillGo_free hv ..)
  case fence =>
    intro s q seq d hrun
    refine ⟨_, exec_opRun hrun, ?_, rfl, rfl, rfl⟩
    rw [descOf_opEnd hrun.desc, if_pos (.inl hrun.started)]
  case kernelEnd =>
    intro s q seq d hrun hb hw
    obtain ⟨hd, hfab, hstore, hregs⟩ := kernelBroadcasts_noRows hrun.desc hrun.started hb
    have e := kernelEndRun_performed ((descWriting_congr hfab ..).trans hw) d
    exact ⟨_, exec_opRunTo hrun e, ended_opEnd hd 0, hstore, hregs⟩
  case tallyAdd =>
    intro s q seq d hrun
    exact ⟨fun h => exec_opRunTo hrun (tallyAddRun_local h ..), fun h s1 hs => exec_opRunTo hrun (tallyAddRun_sent h hs)⟩

end Sys2Proof.Machine
end

section
/-! The cut unit: the unique rows of a window (O21). -/

namespace Sys2Proof.Machine

open Sys2Proof

/-! Tables with rising keys: what a key reads is what is listed at it -/

section Rising

variable {α : Type} {lo : Nat} {m : NMap α}

theorem sortedFrom_cons (j : Nat) (v : α) : sortedFrom lo ((j, v) :: m) = true ↔ lo ≤ j ∧ sortedFrom (j + 1) m = true := by
  rw [sortedFrom, Bool.and_eq_true, decide_eq_true_eq]

theorem le_key_of_sortedFrom (hm : sortedFrom lo m = true) {e : Nat × α} (he : e ∈ m) : lo ≤ e.1 := by
  induction m generalizing lo with
  | nil => cases he
  | cons x t ih =>
    obtain ⟨hlo, ht⟩ := (sortedFrom_cons x.1 x.2).1 hm
    rcases List.mem_cons.1 he with rfl | he
    · exact hlo
    · exact hlo.trans ((Nat.le_succ _).trans (ih ht he))

theorem pairwise_keys (hm : sortedFrom lo m = true) : (m.map (·.1)).Pairwise (· < ·) := by
  induction m generalizing lo with
  | nil => exact .nil
  | cons x t ih =>
    obtain ⟨-, ht⟩ := (sortedFrom_cons x.1 x.2).1 hm
    refine .cons (fun k hk => ?_) (ih ht)
    obtain ⟨e, he, rfl⟩ := List.mem_map.1 hk
    exact le_key_of_sortedFrom ht he

theorem mget_eq_some_iff (hm : sortedFrom lo m = true) {k : Nat} {v : α} : mget k m = some v ↔ (k, v) ∈ m := by
  induction m generalizing lo with
  | nil => simp
  | cons x t ih =>
    obtain ⟨j, w⟩ := x
    obtain ⟨-, ht⟩ := (sortedFrom_cons j w).1 hm
    by_cases hj : j = k
    · subst hj
      have hnot : (j, v) ∉ t := fun h => absurd (le_key_of_sortedFrom ht h) (Nat.not_succ_le_self j)
      simp [mget, hnot, eq_comm]
    · simp [mget, hj, ih ht, Ne.symm hj]

theorem mget_below (hm : sortedFrom lo m = true) {k : Nat} (hk : k < lo) : mget k m = none :=
  Option.eq_none_iff_forall_ne_some.2 fun _ h => absurd (le_key_of_sortedFrom hm ((mget_eq_some_iff hm).1 h)) (Nat.not_le.2 hk)

theorem mem_keys_iff (hm : sortedFrom lo m = true) {k : Nat} : k ∈ m.map (·.1) ↔ (mget k m).isSome = true := by
  simp [Option.isSome_iff_exists, mget_eq_some_iff hm]

end Rising

/-! Windows (R207) -/

/-- In a list of rising rows, a position is appended to what its row reads. -/
theorem cutInsert_eq_mset {lo : Nat} {l : List (Nat × List Nat)} (hl : sortedFrom lo l = true) (r pos : Nat) :
    cutInsert r pos l = mset r (mgetD [] r l ++ [pos]) l := by
  induction l generalizing lo with
  | nil => rfl
  | cons x t ih =>
    obtain ⟨k, ps⟩ := x
    obtain ⟨-, ht⟩ := (sortedFrom_cons k ps).1 hl
    rw [cutInsert, mset]
    by_cases hlt : r < k
    · rw [if_pos hlt, if_pos hlt, mgetD, mget, if_neg hlt.ne', mget_below ht (hlt.trans (Nat.lt_succ_self k))]
      rfl
    · by_cases hk : r = k
      · subst hk
        rw [if_neg hlt, if_neg hlt, if_pos rfl, if_pos rfl, mgetD, mget, if_pos rfl]
        rfl
      · rw [if_neg hlt, if_neg hlt, if_neg hk, if_neg (Ne.symm hk), ih ht, mgetD, mgetD, mget, if_neg (Ne.symm hk)]

theorem cutWindow_concat (es : List (Nat × Nat)) (e : Nat × Nat) : cutWindow (es ++ [e]) = cutInsert e.1 e.2 (cutWindow es) := by
  rw [cutWindow, List.foldl_append]
  rfl

theorem sorted_cutWindow (es : List (Nat × Nat)) : sorted (cutWindow es) = true := by
  induction es using List.reverseRecOn with
  | nil => rfl
  | append_singleton es e ih =>
    rw [cutWindow_concat, cutInsert_eq_mset ih]
    exact sorted_mset e.1 _ ih

/-- A row of a window reads the positions of its entries; a row without an entry is not listed. -/
theorem mget_cutWindow (es : List (Nat × Nat)) (r : Nat) :
    mget r (cutWindow es) = if r ∈ es.map (·.1) then some ((es.filter fun e => e.1 == r).map (·.2)) else none := by
  induction es using List.reverseRecOn with
  | nil => rfl
  | append_singleton es e ih =>
    rw [cutWindow_concat, cutInsert_eq_mset (sorted_cutWindow es)]
    by_cases hr : e.1 = r
    · subst hr
      have hold : mgetD [] e.1 (cutWindow es) = (es.filter fun x => x.1 == e.1).map (·.2) := by
        rw [mgetD, ih]
        split
        · rfl
        · next hnot =>
          have hnone : (es.filter fun x => x.1 == e.1) = [] :=
            List.filter_eq_nil_iff.2 fun x hx he => hnot (List.mem_map.2 ⟨x, hx, by simpa using he⟩)
          rw [hnone]
          rfl
      rw [mget_mset_same, hold, if_pos (by simp)]
      simp
    · rw [mget_mset_ne hr, ih]
      have hmem : r ∈ (es ++ [e]).map (·.1) ↔ r ∈ es.map (·.1) := by simp [Ne.symm hr]
      have hfilter : ((es ++ [e]).filter fun x => x.1 == r) = es.filter fun x => x.1 == r := by simp [hr]
      rw [hfilter]
      simp only [hmem]

/-- Settles O21: the window is a table with rising keys, and `mget_cutWindow` says what each row reads. -/
theorem windowUniqueRows : Obligations.WindowUniqueRows := by
  unfold Obligations.WindowUniqueRows
  intro es
  have hs := sorted_cutWindow es
  refine ⟨pairwise_keys hs, fun r => ?_, fun x hx => ?_⟩
  · rw [mem_keys_iff hs, mget_cutWindow]
    split <;> simp [*]
  · have hget := (mget_eq_some_iff hs).2 hx
    rw [mget_cutWindow] at hget
    split at hget
    · exact (Option.some.inj hget).symm
    · cases hget

end Sys2Proof.Machine
end

section
/-! GATHER, SORTUNIQ and BROADCAST_COMMIT (O17). -/

namespace Sys2Proof.Machine

open Sys2Proof

/-- What follows a read of operands runs once every byte of them stands beside the descriptor. -/
theorem Reads.withBytes {s s1 : State} {q : QueueNum} {seq : W32} {rs : List (Nat × Nat)} {d1 : Desc} (h : Reads q seq rs s d1 s1)
    (f : Desc → State → State) : withBytes q.toNat seq.toNat rs f s = f d1 s1 := by
  obtain ⟨hfetch, hd1⟩ := h
  exact withBytes_reads hfetch hd1 f

/-! GATHER (R206 to R213) -/

/-- A GATHER whose lists are read: its windows counted once, and of its unique rows issued what the dollies have room for. -/
def gaIssued (q seq : Nat) (t : Table) (d1 : Desc) (s1 : State) : State :=
  let s := if d1.step = 0 then gaFetch q seq d1 t s1 else s1
  issueRows q seq (gaTable d1) t (match descOf s q seq with | some d => d.unread | none => []) [] s

theorem gaRun_issued {s s1 : State} {q : QueueNum} {seq : W32} {d d1 : Desc} {t : Table} (ht : tableOf s d = some t)
    (hlists : Reads q seq (gaLists d (gaPool d != 0) (gaPool d == 4)) s d1 s1) : gaRun q.toNat seq.toNat d s =
      withBytes q.toNat seq.toNat [] (fun d s => if d.unread.isEmpty then gaPoolAll q.toNat seq.toNat t d s else s) (gaIssued q.toNat seq.toNat t d1 s1) := by
  rw [gaRun, ht]
  exact hlists.withBytes _

/-! BROADCAST_COMMIT (R224) -/

/-- Bytes of the broadcast staging area. -/
def stagingRoom (s : State) : Nat := (match s.boot.image with | some im => im.stagingMib | none => 0) * 2 ^ 20

/-- A broadcast that is not older than the last committed, stands nowhere staged and finds room is staged, and what can commit then commits. -/
theorem bcastCommit_staged {s : State} {src table : Nat} {no : W32} {rows : List BcastRow} {t : Table} (ht : mget table s.eng.tables = some t)
    (he : t.ending = false) (hno : reached no (w32 (mgetD 0 (bcastKey src table) s.eng.nextBcast)) = true)
    (hnew : (s.eng.bcasts.any fun x => x.src == src && x.table == table && x.no == no) = false)
    (hroom : stagedBytes s.eng.bcasts + stagedBytes [{ src := src, table := table, no := no, rows := rows }] ≤ stagingRoom s) :
    bcastCommit src table no rows s =
      bcastDrain { s with eng := { s.eng with bcasts := s.eng.bcasts ++ [{ src := src, table := table, no := no, rows := rows }] } } := by
  rw [bcastCommit, ht]
  have htaken : ¬(t.ending = true ∨ (!reached no (w32 (mgetD 0 (bcastKey src table) s.eng.nextBcast))) = true ∨
      (s.eng.bcasts.any fun x => x.src == src && x.table == table && x.no == no) = true) := by simp [he, hno, hnew]
  exact (if_neg htaken).trans (if_neg (Nat.not_lt.2 hroom))

/-- Where one broadcast alone is staged, it is the one tried. -/
theorem bcastDrain_single {s : State} {b : Bcast} (h : s.eng.bcasts = [b]) : bcastDrain s = bcastTry s b := by
  rw [bcastDrain, h]
  rfl

/-- No broadcast stands before itself. -/
theorem bcastBefore_self (b : Bcast) : bcastBefore b b = false := by
  simp [bcastBefore]

/-- A staged broadcast switched in: its rows, the number expected next from its owner, its table's tally. -/
def bcastSwitched (t : Table) (b : Bcast) (s : State) : State :=
  let s := b.rows.foldl (switchRow b.table t) s
  let s := { s with eng := { s.eng with bcasts := s.eng.bcasts.erase b, nextBcast := mput 0 (bcastKey b.src b.table) (b.no + 1).toNat s.eng.nextBcast } }
  if qf t.image 5 48 1 = 1 then tallyAddFor t.part (qf t.image 5 32 16) 1 s else s

theorem bcastTry_free {s : State} {b : Bcast} {t : Table} (ht : mget b.table s.eng.tables = some t)
    (hfirst : (s.eng.bcasts.any fun x => bcastBefore x b) = false) (hfree : (switchPlaces s t b.rows).find? (placeWaits s) = none) :
    bcastTry s b = bcastSwitched t b s := by
  rw [bcastTry, ht]
  simp only [hfirst, hfree, Bool.false_eq_true, if_false]
  rfl

/-- Settles O17: a GATHER goes on from `gaRun_issued`, and a broadcast staged alone is the one that commits. -/
theorem embeddingOperations : Obligations.EmbeddingOperations := by
  unfold Obligations.EmbeddingOperations
  refine ⟨?gather, ?sortuniq, ?broadcast⟩
  case gather =>
    intro s s1 s2 q seq d d1 d2 t hrun ht hlists s1' hrows
    exact exec_opRunTo hrun ((gaRun_issued ht hlists).trans (hrows.withBytes _))
  case sortuniq =>
    intro s s1 q seq d d1 hrun hlist idx uniq s2 put s3 s4 s5
    exact exec_opRunTo hrun (hlist.withBytes (suGo q.toNat seq.toNat))
  case broadcast =>
    intro s src table no rows t hal ht he hno hnone hroom b s0 hfree s1 s2
    have hnew : (s.eng.bcasts.any fun x => x.src == src.toNat && x.table == table.toNat && x.no == no) = false := by rw [hnone]; rfl
    have hsum : stagedBytes s.eng.bcasts + stagedBytes [b] = (rows.map fun r => r.2.1.length).sum := by
      simp [hnone, stagedBytes, b, Function.comp_def]
    have halone : ({ s with eng := { s.eng with bcasts := s.eng.bcasts ++ [b] } } : State) = s0 := by rw [hnone]; rfl
    have hfirst : (s0.eng.bcasts.any fun x => bcastBefore x b) = false := by simp [s0, bcastBefore_self]
    refine exec_actTo hal (u := bcastSwitched t b s0) ?_
    rw [bcastCommit_staged ht he hno hnew (hsum.trans_le hroom), halone, bcastDrain_single rfl, bcastTry_free ht hfirst hfree]

end Sys2Proof.Machine
end

section
/-! SCATTER_UPDATE in DIRECT, ROUTE and APPLY (O18). -/

namespace Sys2Proof.Machine

open Sys2Proof

section Scatter

variable {s s1 : State} {q : QueueNum} {seq : W32} {d d1 : Desc} {t : Table} (ht : tableOf s d = some t)

/-- Where a read of operands is not done, nothing follows it yet. -/
theorem withBytes_waits {q seq : Nat} {rs : List (Nat × Nat)} (h : opFetch q seq rs s = (false, s1)) (f : Desc → State → State) :
    withBytes q seq rs f s = s1 := by
  rw [withBytes, h]

/-! The update of rows (R218) -/

/-- Where no place of a row must wait, every row of every window takes its step. -/
theorem scApply_free {q seq : Nat} (hd : descOf s q seq = some d) {h : Hyper} {ws : List (List Combined)}
    (hfree : (ws.flatten.flatMap fun c => scPlaces s t (scAlgo d) c.row).find? (placeWaits s) = none) :
    scApply q seq t h ws s = (true, ws.zipIdx.foldl (fun s w => w.1.foldl (scStep q seq t h w.2) s) s) := by
  unfold scApply
  simp only [hd, hfree]

/-! DIRECT (R217, R218) -/

section Direct

variable (hmode : scMode d = 0) (hread : Reads q seq (scNeeds d t true) s d1 s1)

include ht hmode hread

/-- Adam with a STEP of 0 ends with DECODE at STEP and updates nothing. -/
theorem directRun_stepBad (hbad : stepBad d1 (hyperAt d1 (d1.w 7)) = true) :
    directRun q.toNat seq.toNat d s = opEnd q.toNat seq.toNat 0 (descDecode q.toNat seq.toNat (d1.w 7 + 24) s1) := by
  rw [directRun, ht]
  dsimp only
  rw [if_neg (not_not_intro hmode), hread.withBytes]
  exact if_pos hbad

/-- The windows of a DIRECT whose operands are read, counted once. -/
def directCounted (q seq : Nat) (t : Table) (d1 : Desc) (s1 : State) : State :=
  if d1.step = 0 then descMod q seq (fun d => { d with step := 1 }) (scCount q seq d1 t s1) else s1

theorem directRun_applied {s3 : State} (hgood : stepBad d1 (hyperAt d1 (d1.w 7)) = false)
    (happly : scApply q.toNat seq.toNat t (hyperAt d1 (d1.w 7)) (scCombined d1 t (draw (directCounted q.toNat seq.toNat t d1 s1)).1)
      (draw (directCounted q.toNat seq.toNat t d1 s1)).2 = (true, s3)) :
    directRun q.toNat seq.toNat d s = opEnd q.toNat seq.toNat 0 (reportFan q.toNat seq.toNat (scWindows d1 t) s3) := by
  rw [directRun, ht]
  dsimp only
  rw [if_neg (not_not_intro hmode), hread.withBytes, hgood, if_neg Bool.false_ne_true]
  unfold directCounted at happly
  rw [happly]

end Direct

/-! ROUTE (R219, R220) -/

/-- ROUTE counts its windows and reserves its records at each member that is to have some, once. -/
def routeReserved (q seq : Nat) (t : Table) (d1 : Desc) (s1 : State) : State :=
  atStep q seq 0 (fun s => (List.range (tblN t.image)).foldl
    (fun s m => if (recordsFor t (scCombined d1 t 0) m).length = 0 then s else reserve q seq t m (recordsFor t (scCombined d1 t 0) m).length s)
    (scCount q seq d1 t s)) s1

/-- ROUTE writes its records, once. -/
def routeLanded (q seq : Nat) (t : Table) (d3 : Desc) (s3 : State) : State :=
  atStep q seq 1 (fun s => (List.range (tblN t.image)).foldl (landMember q seq t (scCombined d3 t (draw s3).1)) s) (draw s3).2

/-- ROUTE adds to the tallies, once. -/
def routeTallied (q seq : Nat) (t : Table) (s4 : State) : State :=
  atStep q seq 2 (fun s => (List.range (tblN t.image)).foldl (landTally q seq t) s) s4

/-- ROUTE once the cursors are there: the records are performed before the tallies count, and the tallies before the operation ends. -/
def routeWrites (q seq : Nat) (t : Table) (d3 : Desc) (s3 : State) : State :=
  if descWriting (routeLanded q seq t d3 s3) q seq then routeLanded q seq t d3 s3
  else if descWriting (routeTallied q seq t (routeLanded q seq t d3 s3)) q seq then routeTallied q seq t (routeLanded q seq t d3 s3)
  else opEnd q seq 0 (reportFan q seq (scWindows d3 t) (routeTallied q seq t (routeLanded q seq t d3 s3)))

theorem routeWrites_landing {q seq : Nat} {d3 : Desc} {s3 : State} (h4 : descWriting (routeLanded q seq t d3 s3) q seq = true) :
    routeWrites q seq t d3 s3 = routeLanded q seq t d3 s3 := if_pos h4

theorem routeWrites_tallying {q seq : Nat} {d3 : Desc} {s3 : State} (h4 : descWriting (routeLanded q seq t d3 s3) q seq = false)
    (h5 : descWriting (routeTallied q seq t (routeLanded q seq t d3 s3)) q seq = true) :
    routeWrites q seq t d3 s3 = routeTallied q seq t (routeLanded q seq t d3 s3) := by
  rw [routeWrites, h4, if_neg Bool.false_ne_true, if_pos h5]

theorem routeWrites_performed {q seq : Nat} {d3 : Desc} {s3 : State} (h4 : descWriting (routeLanded q seq t d3 s3) q seq = false)
    (h5 : descWriting (routeTallied q seq t (routeLanded q seq t d3 s3)) q seq = false) : routeWrites q seq t d3 s3 =
      opEnd q seq 0 (reportFan q seq (scWindows d3 t) (routeTallied q seq t (routeLanded q seq t d3 s3))) := by
  rw [routeWrites, h4, h5, if_neg Bool.false_ne_true, if_neg Bool.false_ne_true]

include ht in
theorem routeRun_reserved (hmode : scMode d = 1) (hread : Reads q seq (scNeeds d t false) s d1 s1) :
    routeRun q.toNat seq.toNat d s = withBytes q.toNat seq.toNat [] (routeWrites q.toNat seq.toNat t) (routeReserved q.toNat seq.toNat t d1 s1) := by
  rw [routeRun, ht]
  dsimp only
  rw [if_neg (not_not_intro hmode), hread.withBytes]
  rfl

/-! APPLY (R221) -/

section Apply

variable (hmode : scMode d = 2)

include ht hmode

/-- APPLY begins with the wait for its table's tally. -/
theorem applyRun_begins (q seq : Nat) : applyRun q seq d s =
    if d.step = 0 then tallyBegin q seq (tblLandTally t.image) (w32 (d.f 3 32 32)) (withBytes q seq [(d.w 7, 64)] (applyGo q seq t)) s
    else withBytes q seq [(d.w 7, 64)] (applyGo q seq t) s := by
  rw [applyRun, ht]
  dsimp only
  rw [if_neg (not_not_intro hmode)]

theorem applyRun_unreached (hstep : d.step = 0) (h : reached (tallyVal s (tblLandTally t.image)) (w32 (d.f 3 32 32)) = false) (q seq : Nat) :
    applyRun q seq d s = descMod q seq (fun d => { d with stage := .waiting, step := 1, waitEdges := 0, waitLimit := waitTicks s q }) s := by
  rw [applyRun_begins ht hmode, if_pos hstep, tallyBegin_unreached h]

/-- APPLY goes on once its tally was reached, by now or before. -/
theorem applyRun_reached (hr : d.step = 0 → reached (tallyVal s (tblLandTally t.image)) (w32 (d.f 3 32 32)) = true)
    (hread : Reads q seq [(d.w 7, 64)] (if d.step = 0 then descMod q.toNat seq.toNat (fun d => { d with step := 2 }) s else s) d1 s1) :
    applyRun q.toNat seq.toNat d s = applyGo q.toNat seq.toNat t d1 s1 := by
  rw [applyRun_begins ht hmode]
  by_cases h0 : d.step = 0
  · rw [if_pos h0] at hread ⊢
    rw [tallyBegin_reached (hr h0), hread.withBytes]
  · rw [if_neg h0] at hread ⊢
    exact hread.withBytes _

end Apply

theorem applyGo_stepBad {q seq : Nat} (hbad : stepBad d1 (hyperAt d1 (d1.w 7)) = true) :
    applyGo q seq t d1 s1 = opEnd q seq 0 (descDecode q seq (d1.w 7 + 24) s1) := if_pos hbad

end Scatter

/-! The landing zone of a table at this member (Table 5-6) -/

/-- The store offset of the zone. -/
def zoneBase (s : State) (t : Table) : Nat := match allocOf s (qf t.image 0 48 16) with | some al => al.base * pageSize | none => 0

/-- What the zone's cursor counts: the records reserved, also those beyond the zone. -/
def zoneCursor (s : State) (t : Table) : Nat := leNat (memRead (zoneBase s t) 8 s).1.bytes

/-- The records in the zone, read. -/
def zoneRecords (q seq : Nat) (d : Desc) (t : Table) (s : State) : List Combined × State :=
  readRecords q seq d.part (zoneBase s t) t.image (min (zoneCursor s t) (landCap t.image)) s

/-- A record of a row that the table has and this member owns. -/
def recordGood (t : Table) (r : Combined) : Bool := decide (r.row < tblRows t.image) && rowOwner t.image r.row == tblSelf t.image

/-- The gradients that APPLY combines from records. -/
def recordSums (t : Table) (rs : List Combined) (ws : List (List (Nat × List Nat))) (v : W64) : List (List Combined) :=
  ws.zipIdx.map fun w => w.1.map fun x =>
    combine (fun i => freeSeq v ((w.2 * 2 ^ 40 + x.1) * 2 ^ 48 + i)) (tblDim t.image) x.1 (x.2.map fun j => match rs[j]? with | some r => (r.g, r.p) | none => ([], true))

/-- Where in the zone the bad records stand. -/
def badRecords (t : Table) (rs : List Combined) : List Nat := (rs.zipIdx.filter fun r => !recordGood t r.1).map (·.2)

/-- Bad records counted, the first of them met as DECODE. -/
def badMet (q seq : Nat) (d : Desc) (t : Table) (base : Nat) (bad : List Nat) (s : State) : State :=
  match bad with
  | j :: _ => descDecode q seq (base + 64 + j * landRb t.image) (bumpN Reg.badIndex d.part bad.length s)
  | [] => bumpN Reg.badIndex d.part bad.length s

/-- The windows of n records counted by the cut units of the span. -/
def recordsCounted (q : Nat) (d : Desc) (n : Nat) (ws : List (List (Nat × List Nat))) (s : State) : State :=
  ws.zipIdx.foldl (fun s w => cutCount d.part ((cutUnits q d.span).1 + w.2 % (cutUnits q d.span).2) (min (2 ^ gaWin d) (n - w.2 * 2 ^ gaWin d)) w.1 s) s

/-- The zone taken back: QUOTA where records found no room in it, its cursor 0, the count off the tally. -/
def zoneEmptied (q seq : Nat) (d : Desc) (t : Table) (base c : Nat) (s : State) : State :=
  let s := if landCap t.image < c then descMeet q seq .quota s else s
  tallyAddTo (tblLandTally t.image) (0 - w32 (d.f 3 32 32))
    (localPut (.desc q seq 0) d.part base none false base { bs := leBytes 8 0, pois := [], tally := none, e2e := false } s).2

/-- The end of an APPLY that found records rs in its zone in s1 and took the optimiser steps of their windows, which left s3. -/
def applyEnded (q seq : Nat) (d : Desc) (t : Table) (rs : List Combined) (s1 s3 : State) : State :=
  let ws := recordWindows d rs (recordGood t)
  let n := min (zoneCursor s1 t) (landCap t.image)
  opEnd q seq 0 (reportFan q seq ws (zoneEmptied q seq d t (zoneBase s1 t) (zoneCursor s1 t)
    (recordsCounted q d n ws (badMet q seq d t (zoneBase s1 t) (badRecords t rs) s3))))

theorem applyGo_applied {q seq : Nat} {s1 s2 s3 : State} {d1 : Desc} {t : Table} {rs : List Combined}
    (hgood : stepBad d1 (hyperAt d1 (d1.w 7)) = false) (hfree : placeWaits s1 (zoneBase s1 t, 8) = false)
    (hread : zoneRecords q seq d1 t s1 = (rs, s2))
    (happly : scApply q seq t (hyperAt d1 (d1.w 7)) (recordSums t rs (recordWindows d1 rs (recordGood t)) (draw s2).1) (draw s2).2 = (true, s3)) :
    applyGo q seq t d1 s1 = applyEnded q seq d1 t rs s1 s3 := by
  have hstep : ¬stepBad d1 (hyperAt d1 (d1.w 7)) = true := by rw [hgood]; exact Bool.false_ne_true
  have hwait : ¬placeWaits s1 (zoneBase s1 t, 8) = true := by rw [hfree]; exact Bool.false_ne_true
  unfold applyGo
  extract_lets h base c cap n good
  refine (if_neg hstep).trans ((if_neg hwait).trans ?_)
  rw [show readRecords q seq d1.part base t.image n s1 = (rs, s2) from hread]
  dsimp -zeta only
  extract_lets ws cs
  rw [show scApply q seq t h cs (draw s2).2 = (true, s3) from happly]
  rfl

/-- Settles O18: each outcome of a mode's run is its own lemma. -/
theorem scatterUpdates : Obligations.ScatterUpdates := by
  unfold Obligations.ScatterUpdates
  refine ⟨?direct, ?steps, ?route, ?applyWaits, ?apply⟩
  case direct =>
    intro s s1 q seq d d1 t hrun ht hmode hread s2
    exact ⟨fun hbad => exec_opRunTo hrun (directRun_stepBad ht hmode hread hbad),
      fun hgood s3 happly => exec_opRunTo hrun (directRun_applied ht hmode hread hgood happly)⟩
  case steps => exact fun s q seq t h ws d hd hfree => scApply_free hd hfree
  case route =>
    intro s s1 q seq d d1 t hrun ht hmode hread ms s2
    have e := routeRun_reserved ht hmode hread
    refine ⟨fun s3 hwait => exec_opRunTo hrun (e.trans (withBytes_waits hwait _)), ?_⟩
    intro d3 s3 hcursors s4 s5
    have e3 := e.trans (hcursors.withBytes _)
    exact ⟨fun h4 => exec_opRunTo hrun (e3.trans (routeWrites_landing h4)), fun h4 h5 => exec_opRunTo hrun (e3.trans (routeWrites_tallying h4 h5)),
      fun h4 h5 => exec_opRunTo hrun (e3.trans (routeWrites_performed h4 h5))⟩
  case applyWaits =>
    intro s q seq d t hrun ht hmode hstep hr
    exact ⟨_, exec_opRunTo hrun (applyRun_unreached ht hmode hstep hr ..), descOf_descMod_some hrun.desc fun _ => rfl, waitFrame_descMod ..⟩
  case apply =>
    intro s s1 q seq d d1 t hrun ht hmode hr hread h base c cap rr good ws cs bad
    have e := applyRun_reached ht hmode hr hread
    refine ⟨fun hbad => exec_opRunTo hrun (e.trans (applyGo_stepBad hbad)), ?_⟩
    intro hgood hfree s3 happly
    have hrecords : zoneRecords q.toNat seq.toNat d1 t s1 = rr := rfl
    -- The records stay a value of their own: their reading is not run while the two ends of APPLY are compared.
    clear_value rr
    exact exec_opRunTo hrun (e.trans (applyGo_applied hgood hfree hrecords happly))

end Sys2Proof.Machine
end

section
/-! The commands of search indexes (O19). -/

namespace Sys2Proof.Machine

open Sys2Proof

/-! Changes of the tombstone bitmap (R294) -/

theorem whenFree_free {p : Nat × Nat} {s : State} (h : p.2 = 0 ∨ placeWaits s p = false) (later go : State → State) : whenFree p later go s = go s :=
  if_neg fun ⟨hn, hw⟩ => h.elim hn fun hf => Bool.false_ne_true (hf.symm.trans hw)

theorem whenFree_waits {p : Nat × Nat} {s : State} (hn : p.2 ≠ 0) (hw : placeWaits s p = true) (later go : State → State) :
    whenFree p later go s = later (startRecalls p.1 p.2 true none s) :=
  if_pos ⟨hn, hw⟩

/-! CREATE (R232, R257) -/

/-- An index as CREATE enters it. -/
def indexEntered (i : Nat) (im : List Byte) : Index :=
  { part := i, image := im, old := none, nextId := ixNvec im, vis := ixNvec im, nvecEff := ixNvec im, ending := false, users := [], making := true }

/-- The state with index x under a number. -/
def withIndex (num : Nat) (x : Index) (s : State) : State := { s with eng := { s.eng with idxs := mset num x s.eng.idxs } }

theorem mget_withIndex (num : Nat) (x : Index) (s : State) : mget num (withIndex num x s).eng.idxs = some x := mget_mset_same ..

/-- CREATE of a free number with a good image of the partition enters the index, which is then made. -/
theorem idxCreateRun_good {s s2 : State} {i : Nat} {im : List Byte} (hfree : mget (ixNum s i) s.eng.idxs = none) (himg : ixImage i s = ((.ok, im), s2))
    (hfields : ixFieldsBad im = false) (hallocs : ixAllocsBad s2 im = false) (hours : ixForeign s2 i im = false) :
    idxCreateRun i s = indexMake (ixNum s i) (setBusy Reg.idxCmd i true (withIndex (ixNum s i) (indexEntered i im) s2)) := by
  rw [idxCreateRun, hfree]
  -- The image read stays a value of its own: its reading is not run while the two sides are compared.
  generalize ixImage i s = r at himg ⊢
  subst himg
  simp only [hfields, hallocs, hours, ne_eq, not_true_eq_false, Bool.or_self, Bool.false_eq_true, if_false]
  rfl

/-- Where the tombstone bits of the side list's first IDs lie. -/
def sideTombs (s : State) (im : List Byte) : Nat × Nat := tombPlace s im (ixNvec im) (ixNvec im + ixSideCap im)

/-- The index is made: it may be used, and the tombstone bits of the side list's first IDs are clear. -/
theorem indexMake_free {num : Nat} {x : Index} {s : State} {p : Nat × Nat} (hx : mget num s.eng.idxs = some x) (hm : x.making = true)
    (hp : sideTombs s x.image = p) (hfree : p.2 = 0 ∨ placeWaits s p = false) :
    indexMake num s = cmdFinish Reg.idxCmd x.part (ixNum (withIndex num { x with making := false } s) x.part == num)
      (clearTombs x.image (ixNvec x.image) (ixNvec x.image + ixSideCap x.image) (withIndex num { x with making := false } s)) := by
  subst hp
  rw [indexMake, hx]
  simp only [hm, Bool.not_true, Bool.false_eq_true, if_false]
  exact whenFree_free hfree ..

theorem indexMake_waits {num : Nat} {x : Index} {s : State} {p : Nat × Nat} (hx : mget num s.eng.idxs = some x) (hm : x.making = true)
    (hp : sideTombs s x.image = p) (hn : p.2 ≠ 0) (hw : placeWaits s p = true) : indexMake num s = startRecalls p.1 p.2 true none s := by
  subst hp
  rw [indexMake, hx]
  simp only [hm, Bool.not_true, Bool.false_eq_true, if_false]
  exact whenFree_waits hn hw ..

/-! DESTROY (R233) -/

theorem namedIndex_own {s : State} {i : Nat} {x : Index} (hx : mget (ixNum s i) s.eng.idxs = some x) (hp : x.part = i) (he : x.ending = false)
    (hm : x.making = false) (f : Nat → Index → State → State) : namedIndex i s f = f (ixNum s i) x s := by
  simp [namedIndex, hx, hp, he, hm]

/-- An index that DESTROY has marked, with the descriptors it waits for. -/
def indexEnding (num : Nat) (us : List (Nat × Nat)) (s : State) : State :=
  { s with eng := { s.eng with idxs := mmod num (fun x => { x with ending := true, users := us }) s.eng.idxs } }

theorem mget_indexEnding {num : Nat} {x : Index} {s : State} (hx : mget num s.eng.idxs = some x) (us : List (Nat × Nat)) :
    mget num (indexEnding num us s).eng.idxs = some { x with ending := true, users := us } := by
  rw [indexEnding, mget_mmod_same, hx]
  rfl

theorem idxDestroyRun_own {s : State} {i : Nat} {x : Index} (hx : mget (ixNum s i) s.eng.idxs = some x) (hp : x.part = i) (he : x.ending = false)
    (hm : x.making = false) : idxDestroyRun i s =
      indexEnd (ixNum s i) (setBusy Reg.idxCmd i true (indexEnding (ixNum s i) (runningDescs s (usesIndex (ixNum s i))) s)) :=
  namedIndex_own hx hp he hm _

/-- NUM stays where BUSY changes. -/
theorem ixNum_setBusy (i : Nat) (b : Bool) (s : State) : ixNum (setBusy Reg.idxCmd i b s) i = ixNum s i := by
  rw [ixNum, rfld, setBusy, rget_rsetFld_same, fld_setFld_above _ 4 1 _ 16 6 (by omega) (by omega)]
  rfl

/-- An index that waits for its users stays while one of them runs. -/
theorem indexEnd_used {num : Nat} {x : Index} {s : State} (hx : mget num s.eng.idxs = some x) (hu : stillRunning s x.users = true) :
    indexEnd num s = s := by
  simp [indexEnd, hx, hu]

/-- An index without users goes, and the DESTROY that named it ends. -/
theorem indexEnd_unused {num : Nat} {x : Index} {s : State} (hx : mget num s.eng.idxs = some x) (he : x.ending = true) (hu : x.users = [])
    (hn : ixNum s x.part = num) (hb : cmdBusy s Reg.idxCmd x.part = true) :
    indexEnd num s = cmdEnd Reg.idxCmd x.part .ok (indexGone num s) := by
  simp only [indexEnd, hx, he, hu, hn, stillRunning, List.any_nil, Bool.not_false, Bool.and_self, if_true, beq_self_eq_true]
  exact cmdFinish_mine hb

theorem mget_indexGone (num : Nat) (s : State) : mget num (indexGone num s).eng.idxs = none := mget_mdel_same ..

/-! SWAP (R262, R263) -/

/-- The new image is the current one, the old one is kept for the searches under way. -/
def indexSwapped (num : Nat) (x : Index) (im : List Byte) (s : State) : State :=
  { s with eng := { s.eng with
    idxs := mset num { x with image := im, old := some x.image } s.eng.idxs
    searches := s.eng.searches.map fun r => if r.idx = num then { r with old := true } else r } }

theorem idxSwapRun_good {s s2 : State} {i : Nat} {x : Index} {im : List Byte} (hx : mget (ixNum s i) s.eng.idxs = some x) (hp : x.part = i)
    (he : x.ending = false) (hm : x.making = false) (himg : ixImage i s = ((.ok, im), s2)) (hgood : swapBad s2 x im = false)
    (hours : ixForeign s2 i im = false) : idxSwapRun i s = setBusy Reg.idxCmd i true (indexSwapped (ixNum s i) x im s2) := by
  rw [idxSwapRun, namedIndex_own hx hp he hm]
  generalize ixImage i s = r at himg ⊢
  subst himg
  simp only [hgood, hours, ne_eq, not_true_eq_false, Bool.or_self, Bool.false_eq_true, if_false]
  rfl

theorem old_indexSwapped {num : Nat} {x : Index} {im : List Byte} {s : State} {r : SearchRun} (hr : r ∈ (indexSwapped num x im s).eng.searches)
    (hnum : r.idx = num) : r.old = true := by
  obtain ⟨r0, -, rfl⟩ := List.mem_map.1 hr
  by_cases h : r0.idx = num
  · rw [if_pos h]
  · rw [if_neg h] at hnum
    exact absurd hnum h

/-- Where the tombstone bits of the IDs lie that a SWAP from image o takes into the side list. -/
def swapTombs (s : State) (o im : List Byte) : Nat × Nat := tombPlace s im (ixNvec o + ixSideCap im) (ixNvec im + ixSideCap im)

theorem swapDrained_free {num : Nat} {x : Index} {o : List Byte} {s : State} {p : Nat × Nat} (hx : mget num s.eng.idxs = some x) (ho : x.old = some o)
    (hdone : ∀ r ∈ s.eng.searches, r.idx = num → r.old = false) (hp : swapTombs s o x.image = p)
    (hfree : p.2 = 0 ∨ placeWaits s p = false) :
    swapDrained num s = cmdFinish Reg.idxCmd x.part (ixNum s x.part == num)
      (clearTombs x.image (ixNvec o + ixSideCap x.image) (ixNvec x.image + ixSideCap x.image)
        (withIndex num { x with old := none, nvecEff := ixNvec x.image } s)) := by
  have hdrained : (s.eng.searches.any fun r => r.idx == num && r.old) = false :=
    List.any_eq_false.2 fun r hr h => by
      obtain ⟨hnum, hold⟩ := Bool.and_eq_true_iff.1 h
      exact Bool.false_ne_true ((hdone r hr (beq_iff_eq.1 hnum)).symm.trans hold)
  subst hp
  rw [swapDrained, hx]
  dsimp only
  rw [ho]
  dsimp only
  rw [hdrained, if_neg Bool.false_ne_true]
  exact whenFree_free hfree ..

/-- Settles O19, with one lemma for each command that says what it makes of the index. -/
theorem indexCommands : Obligations.IndexCommands := by
  unfold Obligations.IndexCommands
  refine ⟨?create, ?destroy, ?swap, ?drained⟩
  case create =>
    intro s s2 path v i im hacc s1 hfree himg hfields hallocs hours x s3 p
    have e : idxCreateRun i s1 = indexMake (ixNum s1 i) s3 := idxCreateRun_good hfree himg hfields hallocs hours
    have hx : mget (ixNum s1 i) s3.eng.idxs = some x := mget_withIndex (ixNum s1 i) x s2
    exact ⟨fun hp => ⟨withIndex (ixNum s1 i) { x with making := false } s3, exec_issueTo hacc (by decide) (e.trans (indexMake_free hx rfl rfl hp)),
        mget_withIndex .., rfl, rfl⟩,
      fun hn hw => exec_issueTo hacc (by decide) (e.trans (indexMake_waits hx rfl rfl hn hw))⟩
  case destroy =>
    intro s path v i num x hacc s1 hn hx hp he hm us
    have hx1 : mget (ixNum s1 i) s1.eng.idxs = some x := by rwa [hn, taken_eng]
    have hus : runningDescs s1 (usesIndex num) = us := by rw [runningDescs, taken_eng]; rfl
    have e := idxDestroyRun_own hx1 hp he hm
    rw [hn, hus] at e
    have hxE : mget num (setBusy Reg.idxCmd i true (indexEnding num us s1)).eng.idxs = some { x with ending := true, users := us } := by
      rw [hn] at hx1
      exact mget_indexEnding hx1 us
    refine ⟨fun hnil => ?_, fun hrun => ?_⟩
    · subst hp
      have eu := indexEnd_unused hxE rfl hnil ((ixNum_setBusy ..).trans hn) (cmdBusy_setBusy ..)
      refine ⟨_, exec_issueTo hacc (by decide) (e.trans eu), ?_, cmdEnd_busy .., cmdEnd_status .., taken_store ..⟩
      rw [cmdEnd_eng, mget_indexGone]
    · have eu := indexEnd_used hxE (by simpa [stillRunning, indexEnding, descOf, queueOf, s1] using hrun)
      exact ⟨_, exec_issueTo hacc (by decide) (e.trans eu), hxE, setBusy_busy .., taken_store ..⟩
  case swap =>
    intro s s2 path v i num x im hacc s1 hn hx hp he hm himg hgood hours
    have hx1 : mget (ixNum s1 i) s1.eng.idxs = some x := by rwa [hn, taken_eng]
    have e := idxSwapRun_good hx1 hp he hm himg hgood hours
    rw [hn] at e
    exact ⟨_, exec_issueTo hacc (by decide) e, mget_mset_same .., fun r hr => old_indexSwapped hr, setBusy_busy .., rfl⟩
  case drained =>
    intro s idx x o hal hx ho hdone p hp
    exact ⟨withIndex idx.toNat { x with old := none, nvecEff := ixNvec x.image } s, exec_actTo hal (swapDrained_free hx ho hdone rfl hp), mget_withIndex ..,
      rfl, rfl⟩

end Sys2Proof.Machine
end

section
/-! What writes of the store leave of the engines: all but the lanes' queues. -/

namespace Sys2Proof.Machine

open Sys2Proof

/-- The engines apart from the encodes that the codec lanes have queued, which a write may disturb or add to (R279, R281). -/
def engBesideLanes (s : State) : Engines := { s.eng with lanes := [] }

theorem engBesideLanes_congr {s t : State} (h : t.eng = s.eng) : engBesideLanes t = engBesideLanes s := by rw [engBesideLanes, h, engBesideLanes]

theorem inserts_of_besideLanes {s t : State} (h : engBesideLanes t = engBesideLanes s) : t.eng.inserts = s.eng.inserts :=
  congrArg (a₁ := engBesideLanes t) (a₂ := engBesideLanes s) Engines.inserts h

/-! What leaves the engines whole -/

@[simp] theorem trigger_eng (code : Nat) (detail : W64) (part : Option Nat) (inst : Nat) (s : State) : (trigger code detail part inst s).eng = s.eng := by
  unfold trigger
  dsimp only
  split_ifs <;> rfl

@[simp] theorem markPoison_eng (off n : Nat) (s : State) : (markPoison off n s).eng = s.eng := by
  unfold markPoison
  split <;> rfl

@[simp] theorem codecDrop_eng (b : Nat) (s : State) : (codecDrop b s).eng = s.eng := by
  rw [codecDrop, trigger_eng, bump_eng, markPoison_eng, setMeta_eng]

@[simp] theorem laneWork_eng (lane raw coded : Nat) (s : State) : (laneWork lane raw coded s).eng = s.eng := rfl

@[simp] theorem readBlock_eng (b : Nat) (s : State) : (readBlock b s).2.eng = s.eng := by
  unfold readBlock
  dsimp only
  split_ifs
  · split
    · exact laneWork_eng ..
    · exact (codecDrop_eng ..).trans (laneWork_eng ..)
  · rfl
  · rfl

@[simp] theorem rawBlock_eng (b : Nat) (s : State) : (rawBlock b s).eng = s.eng := by
  unfold rawBlock
  dsimp only
  split_ifs <;> simp

@[simp] theorem countAccess_eng (off n : Nat) (w : Bool) (s : State) : (countAccess off n w s).eng = s.eng := by
  unfold countAccess
  split
  · rfl
  · split <;> rfl

@[simp] theorem disturbRows_eng (off n : Nat) (s : State) : (disturbRows off n s).eng = s.eng := by
  unfold disturbRows
  refine List.foldlRecOn (motive := fun t : State => t.eng = s.eng) _ _ rfl fun t ht m _ => ?_
  dsimp only [drawBit]
  split <;> exact ht

@[simp] theorem settlePage_eng (pg : Nat) (s : State) : (settlePage pg s).eng = s.eng :=
  List.foldlRecOn (motive := fun t : State => t.eng = s.eng) _ _ rfl fun t ht c _ => (readBlock_eng c.1 t).trans ht

@[simp] theorem copyOnWrite_eng (pg : Nat) (s : State) : (copyOnWrite pg s).eng = s.eng := by
  unfold copyOnWrite
  split
  · exact settlePage_eng ..
  · rfl

/-! What may change the lanes' queues -/

theorem disturbJobs_besideLanes (b : Nat) (s : State) : engBesideLanes (disturbJobs b s) = engBesideLanes s := by
  unfold disturbJobs
  split <;> rfl

theorem inlineQueue_besideLanes (b : Nat) (s : State) : engBesideLanes (inlineQueue b s) = engBesideLanes s := by
  unfold inlineQueue
  dsimp only
  split_ifs <;> rfl

theorem noteWrite_besideLanes (off n : Nat) (s : State) : engBesideLanes (noteWrite off n s) = engBesideLanes s := by
  have h : engBesideLanes (pageMod (off / pageSize) (fun p => { p with dirty := true }) (disturbRows off n (disturbJobs (off / blockSize) s))) =
      engBesideLanes s := (engBesideLanes_congr (disturbRows_eng ..)).trans (disturbJobs_besideLanes ..)
  unfold noteWrite
  dsimp only [drawBit]
  split
  · exact h
  · split <;> exact h

theorem writeIn_besideLanes (off : Nat) (cs : List (Option Byte)) (s : State) : engBesideLanes (writeIn off cs s).2 = engBesideLanes s := by
  have happly : ∀ t : State, engBesideLanes (noteWrite off cs.length ((if cs.all Option.isSome then clearPoison off cs.length else id) (rawCells off cs t))) =
      engBesideLanes t := fun t => by rw [noteWrite_besideLanes]; split <;> rfl
  unfold writeIn
  dsimp only
  split
  · rfl
  split
  · rw [inlineQueue_besideLanes, happly]
    rfl
  split
  · exact engBesideLanes_congr (rawBlock_eng ..)
  · exact (happly _).trans (engBesideLanes_congr (rawBlock_eng ..))

theorem memWrite_besideLanes (off : Nat) (cs : List (Option Byte)) (s : State) : engBesideLanes (memWrite off cs s).2 = engBesideLanes s :=
  List.foldlRecOn (motive := fun r : Bool × State => engBesideLanes r.2 = engBesideLanes s) _ _ rfl
    fun r hr pc _ => (writeIn_besideLanes pc.1 pc.2 r.2).trans hr

theorem storeCells_besideLanes (off : Nat) (cs : List (Option Byte)) (s : State) : engBesideLanes (storeCells off cs s).2 = engBesideLanes s := by
  refine (memWrite_besideLanes ..).trans (engBesideLanes_congr ((countAccess_eng ..).trans ?_))
  split
  · exact copyOnWrite_eng ..
  · rfl

end Sys2Proof.Machine
end

section
/-! SEARCH and its queries, INSERT and its publication, DELETE (O20). -/

namespace Sys2Proof.Machine

open Sys2Proof

/-! SEARCH (R245, R248) -/

/-- A SEARCH whose parameters and lists are read goes on with its queries, which were set up the first time, unless something ended it. -/
theorem searchRun_started {s s1 s2 : State} {q : QueueNum} {seq : W32} {d d1 d2 : Desc} {r : SearchRun}
    (hr : (s.eng.searches.find? fun r => r.q == q.toNat && r.seq == seq.toNat) = some r) (hd : descOf s q.toNat seq.toNat = some d)
    (hread : Reads q seq ([(d.w 4, 64)] ++ srList d) s d1 s1) (hset : (if d1.step = 0 then searchSetup q.toNat seq.toNat r d1 s1 else s1) = s2)
    (hd2 : descOf s2 q.toNat seq.toNat = some d2) (hst : d2.stage = .started) (d0 : Desc) :
    searchRun q.toNat seq.toNat d0 s = searchGo q.toNat seq.toNat r d2 s2 := by
  rw [searchRun, hr, hd]
  dsimp only
  rw [hread.withBytes, hset, hd2]
  exact if_pos hst

/-- A query that waited starts, and its SEARCH runs. -/
theorem queryGo_started {s : State} {q seq n : Nat} {x : Query} {d : Desc}
    (hx : (s.eng.queries.find? fun x => x.q == q && x.seq == seq && x.n == n && !x.started) = some x) (hmay : queryMayStart s x = true)
    (hd : descOf s q seq = some d) (hst : d.stage = .started) : queryGo q seq n s = searchRun q seq d (queryStart x s) := by
  have hd2 : descOf (queryStart x s) q seq = some d := (descOf_congr (t := queryStart x s) rfl q seq).trans hd
  rw [queryGo, hx]
  dsimp only
  rw [if_pos hmay, hd2]
  exact if_pos hst

/-! INSERT (R258) -/

/-- What an INSERT reads: its vectors and, where it names them, their attribute words. -/
def insertSources (x : Index) (e : Insertion) (d : Desc) : List (Nat × Nat) :=
  ((List.range e.n).flatMap fun j => (fullRow x.image (inNv d) j).map fun p => (d.w 2 + p.1, p.2)) ++ (if d.w 3 = 0 then [] else [(d.w 3, 8 * e.n)])

theorem insertRun_read {s s1 : State} {q : QueueNum} {seq : W32} {d d1 : Desc} {x : Index} {e : Insertion} (hx : indexOf s d = some x)
    (he : (s.eng.inserts.find? fun e => e.q == q.toNat && e.seq == seq.toNat) = some e) (hread : Reads q seq (insertSources x e d) s d1 s1) :
    insertRun q.toNat seq.toNat d s = insertGo q.toNat seq.toNat x.image e d1 s1 := by
  rw [insertRun, hx, he]
  exact hread.withBytes _

/-- The vectors and attribute words of an INSERT written, POISON met first where a source was poisoned. -/
def insertWritten (q seq : Nat) (im : List Byte) (e : Insertion) (d : Desc) (s : State) : State :=
  (List.range e.n).foldl (insertRow q seq im d e) (if d.remotePoison.isEmpty then s else descMeet q seq .poison s)

/-- An INSERT notes how many of its IDs it has written, and meets QUOTA where it could not reserve them all. -/
def insertCounted (q seq : Nat) (e : Insertion) (d : Desc) (s : State) : State :=
  let s := { s with eng := { s.eng with inserts := s.eng.inserts.map fun x => if x.q = q ∧ x.seq = seq then { x with written := e.n } else x } }
  if e.n < inNv d then descMeet q seq .quota s else s

theorem insertGo_free {q seq : Nat} {im : List Byte} {e : Insertion} {d : Desc} {s : State} (hfree : (inPlaces s im d e).find? (placeWaits s) = none) :
    insertGo q seq im e d s =
      opEnd q seq e.n (descMod q seq (Desc.report e.first) (insertCounted q seq e d (insertWritten q seq im e d s))) := by
  rw [insertGo, hfree]
  rfl

/-! INSERT_PUBLISH (R259) -/

/-- Where the tombstone bits of the IDs lie that an INSERT reserved and did not write. -/
def unwrittenTombs (s : State) (im : List Byte) (e : Insertion) : Nat × Nat := tombPlace s im (e.first + e.written) (e.first + e.n)

/-- The IDs that an INSERT reserved and did not write. -/
def unwrittenIds (e : Insertion) : List Nat := (List.range (e.n - e.written)).map (e.first + e.written + ·)

/-- An INSERT published: VIS passes its IDs, never going back. -/
def published (e : Insertion) (x : Index) (s : State) : State :=
  { s with eng := { s.eng with inserts := s.eng.inserts.erase e, idxs := mset e.idx { x with vis := max x.vis (e.first + e.n) } s.eng.idxs } }

theorem published_inserts (e : Insertion) (x : Index) (s : State) : (published e x s).eng.inserts = s.eng.inserts.erase e := rfl

theorem published_store (e : Insertion) (x : Index) (s : State) : (published e x s).store = s.store := rfl

theorem insertPublish_due {s : State} {q seq : Nat} {e : Insertion} {x : Index} {p : Nat × Nat}
    (he : (s.eng.inserts.find? fun e => e.q == q && e.seq == seq) = some e) (hdone : e.done = true) (hperf : descWriting s q seq = false)
    (hfirst : ∀ o ∈ s.eng.inserts, o.idx = e.idx → e.first ≤ o.first) (hx : mget e.idx s.eng.idxs = some x) (hp : unwrittenTombs s x.image e = p)
    (hfree : p.2 = 0 ∨ placeWaits s p = false) : insertPublish q seq s = published e x (setTombs x.image (unwrittenIds e) s) := by
  subst hp
  have hnone : (s.eng.inserts.any fun o => o.idx == e.idx && decide (o.first < e.first)) = false :=
    List.any_eq_false.2 fun o ho h => by
      obtain ⟨hidx, hlt⟩ := Bool.and_eq_true_iff.1 h
      exact absurd (of_decide_eq_true hlt) (Nat.not_lt.2 (hfirst o ho (beq_iff_eq.1 hidx)))
  rw [insertPublish, he]
  dsimp only
  rw [if_neg (by simp [hdone, hperf, hnone]), hx]
  exact whenFree_free hfree ..

theorem setTombs_nil (im : List Byte) (s : State) : setTombs im [] s = s := by
  unfold setTombs
  split <;> rfl

theorem setTombs_besideLanes (im : List Byte) (ids : List Nat) (s : State) : engBesideLanes (setTombs im ids s) = engBesideLanes s := by
  unfold setTombs
  split
  · rfl
  · exact List.foldlRecOn (motive := fun t : State => engBesideLanes t = engBesideLanes s) _ _ rfl
      fun t ht id _ => (storeCells_besideLanes ..).trans ht

/-- An INSERT that wrote every ID it reserved sets no tombstone. -/
theorem setTombs_allWritten {e : Insertion} (h : e.written = e.n) (im : List Byte) (s : State) : setTombs im (unwrittenIds e) s = s := by
  rw [unwrittenIds, h, Nat.sub_self]
  exact setTombs_nil ..

/-! DELETE (R260) -/

/-- The bytes of the bitmap that a DELETE changes. -/
def deletePlaces (s : State) (x : Index) (d : Desc) : List (Nat × Nat) :=
  match allocOf s (ixTomb x.image) with
  | some al => ((List.range (deN d)).filter fun i => decide (deId d i < x.nextId)).map fun i => (al.base * pageSize + deId d i / 8, 1)
  | none => []

theorem deleteGo_free {q seq : Nat} {d : Desc} {s : State} {x : Index} (hx : indexOf s d = some x)
    (hfree : (deletePlaces s x d).find? (placeWaits s) = none) :
    deleteGo q seq d s = opDone q seq ((List.range (deN d)).foldl (deleteEntry q seq x d) s) := by
  unfold deleteGo
  simp only [hx]
  split
  · next p hp => exact absurd (hp.symm.trans hfree) (Option.some_ne_none p)
  · rfl

section Tombstone

variable {s s1 : State} {q seq part id : Nat} {im bs : List Byte} {bad : Bool}
  (hread : ixRead q seq part (ixTomb im) (id / 8) 1 true s = ((bs, bad), s1))

include hread

/-- A tombstone that cannot be read, or is set already, stays. -/
theorem deleteOne_kept (h : bad = true ∨ (bs.getD 0 0).getLsbD (id % 8) = true) : deleteOne q seq part im id s = s1 := by
  rw [deleteOne, hread]
  exact if_pos h

/-- A clear tombstone is set, and counted where the write was not refused. -/
theorem deleteOne_set {al : Alloc} (hbad : bad = false) (hbit : (bs.getD 0 0).getLsbD (id % 8) = false) (hal : allocOf s1 (ixTomb im) = some al) :
    deleteOne q seq part im id s =
      let o := al.base * pageSize + id / 8
      let s2 := sidePut q seq part 0 o [bs.getD 0 0 ||| BitVec.ofNat 8 (2 ^ (id % 8))] [] s1
      if (byteAt s2 o).getLsbD (id % 8) then descMod q seq (fun d => { d with count := d.count + 1 }) s2 else s2 := by
  rw [deleteOne, hread]
  dsimp only
  rw [if_neg (by rw [hbad, hbit]; simp), hal]

end Tombstone

/-- Settles O20, with one lemma for each operation's step. -/
theorem searchOperations : Obligations.SearchOperations := by
  unfold Obligations.SearchOperations
  refine ⟨?goesOn, ?setsUp, ?query, ?insert, ?publish, ?delete, ?tombstone⟩
  case goesOn =>
    intro s s1 q seq d d1 r hrun hr hread hstep hst
    have ⟨_, hd1⟩ := hread
    exact exec_opRunTo hrun (searchRun_started hr hrun.desc hread (if_neg hstep) hd1 hst d)
  case setsUp =>
    intro s s1 q seq d d1 d2 r hrun hr hread hstep hd2 hst
    exact exec_opRunTo hrun (searchRun_started hr hrun.desc hread (if_pos hstep) hd2 hst d)
  case query => exact fun s q seq n x d hal hx hmay hd hst => exec_actTo hal (queryGo_started hx hmay hd hst)
  case insert =>
    intro s s1 q seq d d1 x e hrun hx he hread hfree s2 s3 s4
    exact exec_opRunTo hrun ((insertRun_read hx he hread).trans (insertGo_free hfree))
  case publish =>
    intro s q seq e x hal he hdone hperf hfirst hx p hp
    refine ⟨_, exec_actTo hal (insertPublish_due he hdone hperf hfirst hx rfl hp), mget_mset_same .., ?_, fun hall => ?_⟩
    · rw [published_inserts, inserts_of_besideLanes (setTombs_besideLanes ..)]
    · rw [published_store, setTombs_allWritten hall]
  case delete =>
    intro s s1 q seq d d1 x hrun hread hx hfree
    exact exec_opRunTo hrun ((hread.withBytes _).trans (deleteGo_free hx hfree))
  case tombstone =>
    intro s q seq part id im al _ r o s2
    have hread : ixRead q seq part (ixTomb im) (id / 8) 1 true s = ((r.1.1, r.1.2), r.2) := rfl
    exact ⟨deleteOne_kept hread, fun hbad hbit hal => deleteOne_set hread hbad hbit hal⟩

end Sys2Proof.Machine
end

section
/-! The codec's lanes, SQUEEZE and UNSQUEEZE, and the decode table commands (O22). -/

namespace Sys2Proof.Machine

open Sys2Proof

/-! Lanes (R281, R290, R292) -/

theorem laneEncode_disturbed {s : State} {l : Nat} {j : LaneJob} {rest : List LaneJob} (hj : laneJobs s l = j :: rest) (hd : j.disturbed = true) (m : Media) :
    laneEncode l m s = bump Reg.codecDisturbed j.part (setJobs l rest s) := by
  unfold laneEncode
  simp only [hj, hd, if_true]

/-- A block that may still be compressed is read, and what the check of the queue then finds decides whether it is encoded. -/
theorem laneEncode_checked {s s1 : State} {l : Nat} {j : LaneJob} {rest : List LaneJob} (hj : laneJobs s l = j :: rest) (hd : j.disturbed = false)
    (hs1 : setJobs l rest s = s1) (hsq : squeezable s1 j.block = true) (hraw : blockCoded (blockMeta s1 j.block) = false)
    (hhold : writeGate s1 (j.block * blockSize) ≠ .hold) (hro : writeGate s1 (j.block * blockSize) ≠ .roDropped)
    (hcodec : (readBlock j.block s1).1.codec = false) (hpois : (readBlock j.block s1).1.pois = []) (m : Media) :
    laneEncode l m s =
      let c := laneChecked j.block m (readBlock j.block s1).2
      if c.1 then (encodeStore l j.block j.part j.codec j.slot j.fmt (readBlock j.block s1).1.bytes c.2).2 else c.2 := by
  subst hs1
  have hmay : (!squeezable (setJobs l rest s) j.block || blockCoded (blockMeta (setJobs l rest s) j.block) ||
      writeGate (setJobs l rest s) (j.block * blockSize) == .hold || writeGate (setJobs l rest s) (j.block * blockSize) == .roDropped) = false := by
    simp [hsq, hraw, hhold, hro]
  unfold laneEncode
  simp only [hj, hd, hmay, hcodec, hpois, List.isEmpty_nil, Bool.not_true, Bool.or_self, Bool.false_eq_true, if_false]
  split <;> next e => rw [e]; rfl

/-- A lane in service of a codec in service takes its turn. -/
theorem exec_laneEncode {s u : State} {lane : Fin 32} {m : Media} (hal : alive s = true) (hunit : unitStopped s 5 none = false)
    (hlane : unitStopped s 5 (some (setInst lane)) = false) (e : laneEncode lane m s = u) : exec (.laneEncode lane m) s = .next (finish u) :=
  exec_actTo hal (by simpa [hunit, hlane] using e)

/-! SQUEEZE and UNSQUEEZE (R283) -/

theorem exec_sqRun {s u : State} {q : QueueNum} {seq : W32} {d : Desc} {un : Bool} (h : Runs s q seq (if un then 0x41 else 0x40) d)
    (e : sqRun q.toNat seq.toNat d s = u) : exec (if un then .unsqueeze q seq else .squeeze q seq) s = .next (finish u) := by
  cases un with
  | false => exact exec_opRunTo h e
  | true => exact exec_opRunTo h e

theorem sqGo_over {s : State} {q seq : Nat} {d : Desc} (hd : descOf s q seq = some d) (hst : d.stage = .started) (hover : sqLen d ≤ d.step * blockSize) (f : Nat) :
    sqGo q seq (f + 1) s = opEnd q seq d.count s := by
  rw [sqGo]
  simp only [hd, hst, hover, ne_eq, not_true, if_true, if_false]

theorem sqGo_block {s s1 : State} {q seq : Nat} {d : Desc} (hd : descOf s q seq = some d) (hst : d.stage = .started) (hleft : d.step * blockSize < sqLen d)
    (hfree : vaHeld s d.asid (d.w 1 + d.step * blockSize) blockSize = false) (hblk : sqBlock q seq d (d.w 1 + d.step * blockSize) s = (true, s1)) (f : Nat) :
    sqGo q seq (f + 1) s = sqGo q seq f (descMod q seq (fun d => { d with step := d.step + 1 }) s1) := by
  rw [sqGo]
  simp only [hd, hst, Nat.not_le.2 hleft, hfree, hblk, ne_eq, not_true, Bool.false_eq_true, if_false]

/-! Decode tables (R286 to R288) -/

/-- A slot that takes a good image, its generation advanced. -/
def slotLoaded (old : CtSlot) (bs : List Byte) : CtSlot :=
  { valid := true, fmt := (bs.getD 0 0).toNat % 16, gen := (old.gen + 1) % 256, lens := imageLens bs }

theorem ctblLoadRun_good {s s2 : State} {a : Nat} {g : Got} (haddr : addrOf s (ctblOff s) 133 = .store a) (hread : memRead (ctblOff s) 133 s = (g, s2))
    (hpois : g.pois = []) (himg : imageBad g.bytes = false) (huse : slotInUse s2 (ctblSlot s) = 0)
    (hrest : (slotOf s2 (ctblSlot s)).gen = 255 → slotAtRest s2 (ctblSlot s) = 0) :
    ctblLoadRun s = cmdEnd Reg.ctblCmd 0 .ok
      { s2 with eng := { s2.eng with ctbl := mset (ctblSlot s) (slotLoaded (slotOf s2 (ctblSlot s)) g.bytes) s2.eng.ctbl } } := by
  have hfree : ¬ (slotInUse s2 (ctblSlot s) ≠ 0 ∨ ((slotOf s2 (ctblSlot s)).gen = 255 ∧ slotAtRest s2 (ctblSlot s) ≠ 0)) := by
    rintro (h | ⟨hg, hr⟩)
    · exact h huse
    · exact hr (hrest hg)
  have hgood : (!g.pois.isEmpty || imageBad g.bytes) = false := by rw [hpois, himg]; rfl
  -- Unfolded as a function, and the reads put in before anything computes: the model's arithmetic on the image's address stays closed.
  conv_lhs => fun; delta ctblLoadRun
  rw [haddr, hread]
  dsimp only
  rw [hgood, if_neg Bool.false_ne_true, if_neg hfree, slotLoaded]

theorem ctblRetireRun_unused {s : State} (huse : slotInUse s (ctblSlot s) = 0) : ctblRetireRun s =
    cmdEnd Reg.ctblCmd 0 .ok { s with eng := { s.eng with ctbl := mmod (ctblSlot s) (fun x => { x with valid := false }) s.eng.ctbl } } :=
  if_neg (not_not.2 huse)

/-- Settles O22, with one lemma for a lane's turn, for a block of a range and for each table command. -/
theorem codecCommands : Obligations.CodecCommands := by
  unfold Obligations.CodecCommands
  refine ⟨?lane, ?squeeze, ?load, ?retire⟩
  case lane =>
    intro s lane m j rest hal hunit hlane hj
    constructor
    · intro hd
      exact ⟨_, exec_laneEncode hal hunit hlane (laneEncode_disturbed hj hd m), rfl, cget_bump_same ..⟩
    · intro hd s1 hsq hraw hhold hro hcodec hpois
      have e := laneEncode_checked hj hd rfl hsq hraw hhold hro hcodec hpois
      exact ⟨fun hm => hm ▸ exec_laneEncode hal hunit hlane (e .good), fun hm => hm ▸ exec_laneEncode hal hunit hlane (e .failed)⟩
  case squeeze =>
    intro s q seq d un hrun c
    refine ⟨fun hover => ?_, fun hleft hfree s1 hblk => ?_⟩
    · exact ⟨_, exec_sqRun hrun (sqGo_over hrun.desc hrun.started hover _), ended_opEnd hrun.desc _, rfl, rfl⟩
    · exact exec_sqRun hrun (sqGo_block hrun.desc hrun.started hleft hfree hblk _)
  case load =>
    intro s s2 path v i a g hacc s1 haddr hread hpois himg huse hrest
    exact ⟨_, exec_issueTo hacc (by decide) (ctblLoadRun_good haddr hread hpois himg huse hrest), mget_mset_same .., cmdEnd_busy .., cmdEnd_status .., rfl⟩
  case retire =>
    intro s path v i hacc s1 huse
    refine ⟨_, exec_issueTo hacc (by decide) (ctblRetireRun_unused huse), ?_, fun k hk => ?_, cmdEnd_busy .., cmdEnd_status .., ?_⟩
    · rw [cmdEnd_eng, mget_mmod_same, taken_eng]
    · rw [cmdEnd_eng, mget_mmod_ne hk.symm, taken_eng]
    · rw [cmdEnd_store, taken_store]

end Sys2Proof.Machine
end

section
/-! The commands of the tally window and of TALLY_ASSIGN, and what a watch does as it fires (O25). -/

namespace Sys2Proof.Machine

open Sys2Proof

/-! What sending a packet and raising a vector leave of the store -/

@[simp] theorem putOnWire_store (port seq : Nat) (p : Packet) (s : State) : (putOnWire port seq p s).store = s.store := by
  unfold putOnWire
  rw [emit_store, bumpN_store]
  exact List.foldlRecOn (motive := fun t : State => t.store = s.store) _ _ rfl fun t ht i _ => ht

@[simp] theorem egress_store (port : Nat) (p : Packet) (s : State) : (egress port p s).store = s.store := by
  unfold egress
  split
  · exact putOnWire_store ..
  · rfl

@[simp] theorem choosePort_store (c : Nat) (ps : List Nat) (s : State) : (choosePort c ps s).2.store = s.store := by
  unfold choosePort
  split <;> rfl

@[simp] theorem send_store (p : Packet) (s : State) : (send p s).store = s.store := by
  unfold send route
  split
  · rfl
  · have h := choosePort_store p.tc.toNat (pathSet s p.dst.toNat) s
    split <;> next e => simpa [e] using h

@[simp] theorem msixSend_store (i entry : Nat) (s : State) : (msixSend i entry s).store = s.store := by
  unfold msixSend
  dsimp only
  split <;> rfl

@[simp] theorem deliverVec_store (part v : Nat) (s : State) : (deliverVec part v s).store = s.store := by
  unfold deliverVec
  dsimp only
  split
  · split
    · rfl
    · exact msixSend_store ..
  · exact send_store ..
  · rfl

@[simp] theorem raiseVec_store (part v : Nat) (s : State) : (raiseVec part v s).store = s.store := by
  unfold raiseVec
  dsimp only
  split
  · rfl
  · exact deliverVec_store ..

/-! Watches (R307) -/

@[simp] theorem watchOf_watchSet (t : Nat) (w : Watch) (s : State) : watchOf (watchSet t w s) t = w := mgetD_mput_same ..

theorem watchOf_congr {s u : State} (h : u.ord = s.ord) (t : Nat) : watchOf u t = watchOf s t := by rw [watchOf, h, watchOf]

/-- A watch disarms itself as it fires, and FIRED is set. -/
def watchSpent (t : Nat) (s : State) : State := watchSet t { watchOf s t with arm := false, fired := true } s

/-- A watch that fires stores its value, unless its address is 0, and raises its vector where it is enabled. -/
def watchFired (t part : Nat) (s : State) : State :=
  let w := watchOf s t
  let s1 := if w.addr = 0 then watchSpent t s else hubStore part w.addr.toNat (leBytes 8 w.val.toNat) (watchSpent t s)
  if w.vecEn = true then raiseVec part w.vector s1 else s1

theorem fireWatch_reached {s : State} {t part : Nat} (hp : tallyPart s t = some part) (ha : (watchOf s t).arm = true)
    (hr : reached (tallyVal s t) (watchOf s t).target = true) : fireWatch t s = watchFired t part s := by
  unfold fireWatch
  simp only [hp, ha, hr, Bool.and_self, if_true]
  rfl

theorem fireWatch_idle {s : State} {t : Nat} (h : (watchOf s t).arm = false ∨ reached (tallyVal s t) (watchOf s t).target = false) : fireWatch t s = s := by
  have hc : ((watchOf s t).arm && reached (tallyVal s t) (watchOf s t).target) = false := by
    rcases h with h | h <;> simp [h]
  unfold fireWatch
  simp only [hc, Bool.false_eq_true, if_false]
  split <;> rfl

/-- A watch without an address stores nothing: only its own marks change. -/
theorem watchFired_noAddr {s : State} {t part : Nat} (h : (watchOf s t).addr = 0) :
    (watchFired t part s).ord = (watchSpent t s).ord ∧ (watchFired t part s).store = s.store := by
  unfold watchFired
  simp only [h, if_true]
  split
  · exact ⟨raiseVec_ord .., raiseVec_store ..⟩
  · exact ⟨rfl, rfl⟩

/-! The tally window (R302, R306) -/

@[simp] theorem storeParity_ord (r i u : Nat) (s : State) : (storeParity r i u s).ord = s.ord := by
  obtain ⟨m, v, e, -⟩ := storeParity_frame r i u s
  rw [e]

theorem onTally_own {part : Nat} {s : State} (h : tallyPart s (ptTally s part) = some part) (f : Nat → State → State) :
    onTally part f s = f (ptTally s part) s := if_pos h

/-- A write of the tally window for a tally that is not the partition's is counted and changes nothing else. -/
theorem onTally_refused {r part : Nat} {path : Path} {s u : State} (hu : storeParity r part 6 (useUnlock path s) = u)
    (h : tallyPart u (ptTally u part) ≠ some part) (f : Nat → State → State) :
    (onTally part f u).ord = s.ord ∧ (onTally part f u).store = s.store ∧
      cget (onTally part f u) Reg.tallyRefused part = min (cget s Reg.tallyRefused part + 1) 0xFFFFFFFF := by
  subst hu
  rw [onTally, if_neg h, bump_ord, bump_store, storeParity_ord, storeParity_store, cget_bump_of_live (useUnlock path s) (storeParity_live ..)]
  exact ⟨rfl, rfl, rfl⟩

/-! TALLY_ASSIGN (R307) -/

theorem tallyAssignSet_changed {v : W32} {t : Nat} {s : State}
    (h : fld (rget s Reg.tallyAssign t) 0 8 ≠ fld v 0 8 ∨ bit (rget s Reg.tallyAssign t) 31 ≠ bit v 31) :
    tallyAssignSet v t s = cfgStore Reg.tallyAssign t v (watchSet t { watchOf s t with arm := false, fired := false } s) := by
  rw [tallyAssignSet, if_pos h]

theorem tallyAssignSet_kept {v : W32} {t : Nat} {s : State} (hpart : fld (rget s Reg.tallyAssign t) 0 8 = fld v 0 8)
    (hvalid : bit (rget s Reg.tallyAssign t) 31 = bit v 31) : tallyAssignSet v t s = cfgStore Reg.tallyAssign t v s := by
  rw [tallyAssignSet, if_neg (by simp [hpart, hvalid])]

theorem tallyAssignSet_frame (v : W32) (t : Nat) (s : State) :
    (tallyAssignSet v t s).store = s.store ∧ (tallyAssignSet v t s).ord.tallies = s.ord.tallies := by
  rw [tallyAssignSet, cfgStore_store, cfgStore_ord]
  split <;> exact ⟨rfl, rfl⟩

/-- Settles O25: the two registers of the tally window by the tally's owner, a watch by whether its target is reached, TALLY_ASSIGN by what it changes. -/
theorem tallyRegisterCommands : Obligations.TallyRegisterCommands := by
  unfold Obligations.TallyRegisterCommands
  refine ⟨?value, ?control, ?fires, fun s t h => fireWatch_idle h, ?assign⟩
  case value | control =>
    intro s path v i hacc s1
    exact ⟨fun hown => exec_regWriteTo hacc (onTally_own hown _), fun hother => ⟨_, exec_regWriteTo hacc rfl, onTally_refused rfl hother _⟩⟩
  case fires =>
    intro s t part hp ha hr w s1 s2
    have e := fireWatch_reached hp ha hr
    refine ⟨e, fun haddr => ?_⟩
    obtain ⟨hord, hstore⟩ := watchFired_noAddr (part := part) haddr
    rw [e, watchOf_congr hord, hord, watchSpent, watchOf_watchSet]
    exact ⟨rfl, rfl, hstore, rfl⟩
  case assign =>
    intro s path v t hacc
    obtain ⟨hstore, htallies⟩ := tallyAssignSet_frame v t (useUnlock path s)
    refine ⟨_, exec_regWriteTo hacc rfl, hstore, htallies, fun hchg => ?_, fun hpart hvalid => ?_⟩
    · rw [tallyAssignSet_changed (s := useUnlock path s) hchg, watchOf_congr (cfgStore_ord ..), watchOf_watchSet]
      exact ⟨rfl, rfl⟩
    · rw [tallyAssignSet_kept (s := useUnlock path s) hpart hvalid]
      exact watchOf_congr (cfgStore_ord ..) t

end Sys2Proof.Machine
end

section
/-! The take log (O48). -/

namespace Sys2Proof.Machine

open Sys2Proof

/-! Reads of TAKE_WIN_20 (R447) -/

theorem readEffect_auto {s : State} (h : rbit s Reg.takeCfg 0 3 = true) (i : Nat) : readEffect (Reg.takeWin + 80) i s = cursorNext s := by
  rw [readEffect, if_pos ⟨rfl, h⟩]

/-- TAKE_WIN_20 is no register of the tally window: without AUTO its read only answers. -/
theorem readEffect_still {s : State} (h : rbit s Reg.takeCfg 0 3 = false) (i : Nat) : readEffect (Reg.takeWin + 80) i s = s := by
  rw [readEffect, if_neg (by simp [h]), if_neg (by decide)]

theorem takeWinReadGo_at {s : State} {path : Path} {i : Nat} (h : regTarget s path (Reg.takeWin + 80) = .at i) : takeWinReadGo path s =
    hostEmit path (.hostData path (leBytes 4 (regValue s path (Reg.takeWin + 80) i).toNat) false) (readEffect (Reg.takeWin + 80) i s) := by
  rw [takeWinReadGo, regReadVia, h]

/-! Captures (R500, R502) -/

/-- The drawn trigger leaves the list and is accepted or dropped. -/
theorem captureGo_drawn {s s0 : State} {i : Nat} {t : Trigger} (hd : drawBelow s.rel.waiting.length s = (i, s0)) (ht : s.rel.waiting[i]? = some t) :
    captureGo s = takeAccept t (relSet (fun r => { r with waiting := r.waiting.eraseIdx i }) s0) := by
  have hne : s.rel.waiting.isEmpty = false := by
    cases hw : s.rel.waiting with
    | nil => simp [hw] at ht
    | cons => rfl
  have hrel : s0.rel = s.rel := (congrArg (fun x => x.2.rel) hd).symm
  rw [captureGo, hne, hd]
  dsimp only
  rw [hrel, ht]
  rfl

/-- The log with the next take in it, as long as fewer than 4,096 newer ones follow. -/
def takeLogged (t : Trigger) (s : State) : State :=
  relSet (fun r => { r with takes := mset s.rel.head (takeWords s t) (mfilter (fun k _ => decide (s.rel.head < k + 4096)) r.takes), head := s.rel.head + 1 }) s

theorem takeAccept_room {t : Trigger} {s : State} (h : ¬(rbit s Reg.takeCfg 0 1 = true ∧ s.rel.head - s.rel.ack = 4096)) : takeAccept t s = takeLogged t s :=
  if_neg (by simpa using h)

theorem takeAccept_full {t : Trigger} {s : State} (hstop : rbit s Reg.takeCfg 0 1 = true) (hfull : s.rel.head - s.rel.ack = 4096) :
    takeAccept t s = bump Reg.takesLost 0 s :=
  if_pos (by simp [hstop, hfull])

/-! TAKE_CURSOR and TAKE_ACK -/

/-- The high half keeps what it held while the low half is stored. -/
theorem both_cfgStore {lo hi : Nat} (hne : rkey lo 0 ≠ rkey hi 0) (hinj : rkey hi 0 ≠ rkey Reg.parityInject 0) (v : W32) (s : State) :
    both (cfgStore lo 0 v s) hi v = v.toNat + rfld s hi 0 0 16 * 2 ^ 32 := by
  rw [both, rfld, rget_cfgStore_ne hne hinj, rfld]

theorem relSet_cursor (n : Nat) (s : State) :
    (relSet (fun r => { r with cursor := n }) s).rel.cursor = n ∧ (relSet (fun r => { r with cursor := n }) s).rel.ack = s.rel.ack := ⟨rfl, rfl⟩

theorem relSet_ack (n : Nat) (s : State) :
    (relSet (fun r => { r with ack := n }) s).rel.ack = n ∧ (relSet (fun r => { r with ack := n }) s).rel.cursor = s.rel.cursor := ⟨rfl, rfl⟩

theorem takeCursorSet_effect (v : W32) (s : State) : (takeCursorSet v s).store = s.store ∧
    (takeCursorSet v s).rel.cursor = v.toNat + rfld s Reg.takeCursorHi 0 0 16 * 2 ^ 32 ∧ (takeCursorSet v s).rel.ack = s.rel.ack := by
  obtain ⟨hcursor, hack⟩ := relSet_cursor (both (cfgStore Reg.takeCursorLo 0 v s) Reg.takeCursorHi v) (cfgStore Reg.takeCursorLo 0 v s)
  rw [takeCursorSet, hcursor, hack, relSet_store, cfgStore_store, cfgStore_rel, both_cfgStore (by decide) (by decide)]
  exact ⟨rfl, rfl, rfl⟩

theorem takeAckSet_effect (v : W32) (s : State) : (takeAckSet v s).store = s.store ∧
    (takeAckSet v s).rel.ack = v.toNat + rfld s Reg.takeAckHi 0 0 16 * 2 ^ 32 ∧ (takeAckSet v s).rel.cursor = s.rel.cursor := by
  obtain ⟨hack, hcursor⟩ := relSet_ack (both (cfgStore Reg.takeAckLo 0 v s) Reg.takeAckHi v) (cfgStore Reg.takeAckLo 0 v s)
  rw [takeAckSet, hcursor, hack, relSet_store, cfgStore_store, cfgStore_rel, both_cfgStore (by decide) (by decide)]
  exact ⟨rfl, rfl, rfl⟩

/-- Settles O48, with one lemma for each outcome of a read and of a capture. -/
theorem takeLogCommands : Obligations.TakeLogCommands := by
  unfold Obligations.TakeLogCommands
  refine ⟨?read, ?advance, ?capture, fun s path v i hacc => exec_regWriteTo hacc rfl, ?cursor, ?ack⟩
  case read => exact fun s path i hal hat => exec_actTo hal (takeWinReadGo_at hat)
  case advance =>
    refine fun s i => ⟨fun hauto => ?_, fun hoff => readEffect_still hoff i⟩
    rw [readEffect_auto hauto]
    rfl
  case capture =>
    intro s s0 i t hal hd ht s1
    have hs0 : s0 = { s with fresh := s.fresh + 1 } := (congrArg Prod.snd hd).symm
    have e := captureGo_drawn hd ht
    subst hs0
    refine ⟨fun hroom => ?_, fun hstop hfull => exec_actTo hal (e.trans (takeAccept_full hstop hfull))⟩
    exact ⟨_, exec_actTo hal (e.trans (takeAccept_room hroom)), rfl, rfl, mget_mset_same .., rfl, rfl⟩
  case cursor => exact fun s path v i hacc => ⟨_, exec_regWriteTo hacc rfl, takeCursorSet_effect v (useUnlock path s)⟩
  case ack => exact fun s path v i hacc => ⟨_, exec_regWriteTo hacc rfl, takeAckSet_effect v (useUnlock path s)⟩

end Sys2Proof.Machine
end

section
/-! CUE, OWN, tally writes and EVENT at their home, and cues that expire (O28). -/

namespace Sys2Proof.Machine

open Sys2Proof

/-! The rule of counts and generations (R310, R312) -/

section Generations

variable {s s1 : State} {p : Packet} {e : Partner}

theorem newer_self (g : Byte) : newer g g = false := by simp [newer]

theorem takeGen_older {g : Byte} (he : partnerFor p.src.toNat s = (some e, s1)) (hg : e.peerGen = some g) (hnew : newer (cueGen p) g = false)
    (hne : cueGen p ≠ g) : takeGen p s = (false, cueFail p .timeout s1) := by
  unfold takeGen
  simp [he, hg, hnew, hne]

theorem takeGen_current (he : partnerFor p.src.toNat s = (some e, s1)) (hg : e.peerGen = some (cueGen p)) :
    takeGen p s = (true, partnerSet p.src.toNat e s1) := by
  unfold takeGen
  simp [he, hg, newer_self]

theorem takeCue_older {g : Byte} (he : partnerFor p.src.toNat s = (some e, s1)) (hg : e.peerGen = some g) (hnew : newer (cueGen p) g = false)
    (hne : cueGen p ≠ g) (port : Nat) : takeCue port p s = cueFail p .timeout s1 := by
  rw [takeCue, takeGen_older he hg hnew hne]

/-- With no other cue held, one of the current generation is applied at once or held alone. -/
theorem takeCue_current (he : partnerFor p.src.toNat s = (some e, s1)) (hg : e.peerGen = some (cueGen p)) (hheld : s1.ord.held = []) (port : Nat) :
    takeCue port p s = let s2 := partnerSet p.src.toNat e s1
      if srcReached s2 p && !cueWaits s2 p.src.toNat then applyHeld port p s2
      else { s2 with ord := { s2.ord with held := [{ port := port, p := p, edges := 0 }] } } := by
  have hheld2 : (partnerSet p.src.toNat e s1).ord.held = [] := hheld
  rw [takeCue, takeGen_current he hg]
  simp only [hheld2, List.any_nil, Bool.not_false, Bool.and_true, List.nil_append]

end Generations

/-! Packets at their home -/

theorem homeCue_passed {s s1 : State} {p : Packet} (hc : homeChecks p 8 none s = (none, s1)) (halign : p.addr.toNat % 8 = 0) (port : Nat) :
    homeCue port p s = takeCue port p s1 := by
  rw [homeCue, hc]
  exact if_neg (not_not.2 halign)

theorem homeOwn_passed {s : State} {p : Packet} {r : Region} (hf : fatal s = false) (hr : mget (fld p.arg 40 12) s.coh.regions = some r)
    (hk : fkey s r.part = p.key) (hu7 : unitStopped s 7 (some r.part) = false) (hu8 : unitStopped s 8 (some r.part) = false) (howner : r.ep = p.src.toNat)
    (port : Nat) : homeOwn port p s = takeCue port p s := by
  unfold homeOwn
  simp only [hf, hr, hk, hu7, hu8, howner, ne_eq, not_true, Bool.or_self, Bool.false_eq_true, if_false]

theorem homeTally_keyed {s : State} {p : Packet} {part : Nat} (hf : fatal s = false) (hp : tallyPart s (fld p.arg 0 16) = some part) (hk : fkey s part = p.key)
    (hset : unitStopped s 6 (some (setInst (fld p.arg 0 16))) = false) (hu6 : unitStopped s 6 (some part) = false) (hu8 : unitStopped s 8 (some part) = false) :
    homeTally p s = let s1 := tallyAddTo (fld p.arg 0 16) (w32 (fld p.arg 16 32)) s
      reply (ackTo s1 p .ok 0) s1 := by
  unfold homeTally
  simp only [hf, hp, hk, hset, hu6, hu8, ne_eq, not_true, Bool.or_self, Bool.false_eq_true, if_false]

/-- The proxies of an EVENT's sender. -/
def senderProxies (s : State) (p : Packet) : NMap (List W32) :=
  s.fab.current.proxies.filter fun e => bit (e.2.getD 0 0) 0 && quad e.2 1 % 2 ^ 18 == p.src.toNat

theorem homeEvent_dropped {s : State} {p : Packet} (h : senderProxies s p = [] ∨ 64 ≤ leAt p.payload 0 1) : homeEvent p s = bump Reg.proxyDropped 0 s :=
  if_pos (h.imp_left List.isEmpty_iff.2)

theorem homeEvent_raised {s : State} {p : Packet} (hhit : senderProxies s p ≠ []) (hv : leAt p.payload 0 1 < 64) :
    homeEvent p s = (senderProxies s p).foldl (fun s e => msixSend (fld (e.2.getD 0 0) 1 1 * 256 + fld (e.2.getD 0 0) 2 7 + 1) (leAt p.payload 0 1) s) s :=
  if_neg (not_or.2 ⟨mt List.isEmpty_iff.1 hhit, Nat.not_le.2 hv⟩)

theorem cueExpire_due {s : State} {src : Nat} {h : HeldCue}
    (hh : (s.ord.held.find? fun h => h.p.src.toNat == src && decide (max 1 (rfld s Reg.cueCfg 0 0 8) ≤ h.edges)) = some h) : cueExpire src s = expireHeld h s := by
  rw [cueExpire, hh]

/-- Settles O28, with one lemma for each packet that passes its checks and one for each case of a cue's generation. -/
theorem cuesTalliesEvents : Obligations.CuesTalliesEvents := by
  unfold Obligations.CuesTalliesEvents
  refine ⟨?cue, ?own, ?generation, ?tally, ?event, fun s src h hal hh => exec_actTo hal (cueExpire_due hh)⟩
  case cue => exact fun s s1 port p harr hc halign => exec_arriveTo harr (homeCue_passed hc halign port)
  case own => exact fun s port p r harr hf hr hk hu7 hu8 howner => exec_arriveTo harr (homeOwn_passed hf hr hk hu7 hu8 howner port)
  case generation =>
    exact fun s s1 port p e he => ⟨fun g hg hnew hne => takeCue_older he hg hnew hne port, fun hg hheld => takeCue_current he hg hheld port⟩
  case tally => exact fun s port p part harr hf hp hk hset hu6 hu8 => exec_arriveTo harr (homeTally_keyed hf hp hk hset hu6 hu8)
  case event =>
    intro s port p harr hits
    refine ⟨fun h => ?_, fun hhit hv => exec_arriveTo harr (homeEvent_raised hhit hv)⟩
    exact ⟨_, exec_arriveTo harr (homeEvent_dropped h), rfl, rfl, cget_bump_same ..⟩

end Sys2Proof.Machine
end

section
/-! Accesses in their turn under coherence, and the directory that holds nothing (R327, R334). -/

namespace Sys2Proof.Machine

open Sys2Proof

/-- Coherence keeps the turn of a line itself: an access that takes its turn and then meets coherence takes it once. -/
theorem inTurn_coherent {off n : Nat} {w q : Bool} {r : CohReq} {f g : State → State} {s : State} (h : f s = coherent off n w q r g s) :
    inTurn off n q r f s = coherent off n w q r g s := by
  rw [inTurn, h, coherent, inTurn]
  split <;> rfl

/-! The empty directory -/

section Empty

variable {s : State} (hd : s.coh.dir = [])
include hd

theorem dirEntry_empty (line : Nat) : dirEntry s line = none := by rw [dirEntry, hd, mget_nil]

theorem recallsOf_empty (w : Bool) (x : Option Nat) (line : Nat) : recallsOf s w x line = [] := by
  cases w <;> simp [recallsOf, writeRecalls, readRecalls, dirEntry_empty hd line]

/-- A lookup that finds no entry is counted and leaves the directory as it is. -/
theorem dirLookup_empty (line : Nat) : (dirLookup line s).coh = s.coh := by
  have ht : ∀ r, touchEntry line (bump r 0 s) = bump r 0 s := fun r => by
    rw [touchEntry, dirEntry_empty (s := bump r 0 s) hd line]
  have hn : (dirEntry (bump Reg.dirMisses 0 s) line).isSome = false := by rw [dirEntry_empty (s := bump Reg.dirMisses 0 s) hd line]; rfl
  rw [dirLookup, ht]
  split
  · rfl
  · dsimp only
    rw [ht, hn]
    rfl

theorem lookups_empty (off n : Nat) : (lookups off n s).coh = s.coh := by
  unfold lookups
  split
  · refine List.foldlRecOn (motive := fun t : State => t.coh = s.coh) _ _ rfl fun t ht line _ => ?_
    exact (dirLookup_empty (ht ▸ hd) line).trans ht
  · rfl

theorem startRecalls_empty (off n : Nat) (w : Bool) (x : Option Nat) : startRecalls off n w x s = s := by
  unfold startRecalls
  refine List.foldlRecOn (motive := fun t : State => t = s) _ _ rfl fun t ht line _ => ?_
  subst ht
  simp [recallsOf_empty hd]

theorem blockedLine_empty (htx : s.coh.txns = []) (off n : Nat) (w : Bool) (x : Option Nat) : blockedLine s off n w x = none := by
  simp [blockedLine, List.find?_eq_none, recallsOf_empty hd, txnOf, htx]

end Empty

theorem inTurn_first {off n : Nat} {q : Bool} {r : CohReq} {f : State → State} {s : State} (hw : s.coh.waiting = []) : inTurn off n q r f s = f s := by
  have hnone : (if q then none else (linesOf off n).find? (waitedFor s)) = none := by
    split
    · rfl
    · simp [List.find?_eq_none, waitedFor, hw]
  rw [inTurn, hnone]

/-- An access that nothing waits before and whose lines nobody holds is served at once. -/
theorem coherent_empty {s : State} (hw : s.coh.waiting = []) (htx : s.coh.txns = []) (hd : s.coh.dir = []) (off n : Nat) (w q : Bool) (r : CohReq)
    (f : State → State) : coherent off n w q r f s = f (if q then s else lookups off n s) := by
  have hcoh : (if q then s else lookups off n s).coh = s.coh := by
    split
    · rfl
    · exact lookups_empty hd off n
  rw [coherent, inTurn_first hw]
  generalize (if q then s else lookups off n s) = t at hcoh ⊢
  have hdt : t.coh.dir = [] := by rw [hcoh, hd]
  have htt : t.coh.txns = [] := by rw [hcoh, htx]
  dsimp only
  rw [startRecalls_empty hdt, blockedLine_empty hdt htt]

end Sys2Proof.Machine
end

section
/-! RD, WR and ATOMIC at their home (O26). -/

namespace Sys2Proof.Machine

open Sys2Proof

/-! RD (R566, R387) -/

theorem homeRd_passed {s s1 : State} {p : Packet} (hl : p.loan = false) (hc : homeChecks p (pktLen p) none s = (none, s1)) (port : Nat) (m : Media) :
    homeRd port p m s = coherent p.addr.toNat (pktLen p) false false (.packet port p) (serveRd p) (mediaFound p.addr.toNat m s1) := by
  unfold homeRd
  simp only [hl, hc, Bool.false_eq_true, if_false]

theorem homeRd_lent {s : State} {p : Packet} (hl : p.loan = true) (hf : fatal s = false) (hok : loanOk s p (pktLen p) = true)
    (hu : loanStopped s (packetOff p) (pktLen p) = false) (port : Nat) (m : Media) : homeRd port p m s = serveRd p s := by
  unfold homeRd
  simp only [hl, hf, hok, hu, Bool.not_true, Bool.false_eq_true, if_true, if_false]

/-- What is lent has no directory here. -/
theorem accessChecked_lent {p : Packet} (hl : p.loan = true) (m : Media) (s : State) : accessChecked p m s = s := if_pos hl

/-- A class that is not compressed leaves as it is (R363). -/
theorem zipped_plain {s : State} {p : Packet} (h : rbit s Reg.codecCfg 0 (8 + p.tc.toNat) = false) (off : Nat) (atRest : Bool) : zipped off atRest p s = (p, s) := by
  unfold zipped
  simp only [h, Bool.false_and, Bool.false_eq_true, if_false]

theorem serveRd_good {s s1 : State} {p : Packet} {g : Got} (hread : memRead (packetOff p) (pktLen p) (countRead (packetOff p) (pktLen p) s) = (g, s1))
    (hpois : g.pois = []) (hcodec : g.codec = false) (hclass : rbit s1 Reg.codecCfg 0 9 = false) : serveRd p s = reply (rspTo s1 p .ok 0 0 g.bytes) s1 := by
  have hhide : hidePoison (packetOff p) g.pois g.bytes s1 = (g.bytes, s1) := by rw [hidePoison, hpois]; rfl
  unfold serveRd
  simp only [hread, hhide]
  rw [zipped_plain (p := rspTo s1 p .ok 0 0 g.bytes) hclass]
  simp [hpois, hcodec]

/-! WR (R365, R566) -/

section Write

variable {s s1 s2 s3 : State} {p : Packet} {bs : List Byte}

/-- The payload is good: it decodes, and the end-to-end code, if it carries one, is its own. -/
theorem crc_passes (h : p.e2e = true → crc32c bs = p.crc) : (p.e2e && crc32c bs != p.crc) = false := by
  cases he : p.e2e with
  | false => rfl
  | true => simp [h he]

theorem admitWr_go (hg : writeGate s p.addr.toNat = .go) (port : Nat) : admitWr port p false s =
    coherent p.addr.toNat ((rawPayload s p).getD []).length true false (.packet port p) (serveWr p) s := by
  rw [admitWr]
  exact inTurn_coherent (by simp only [hg])

theorem homeWr_passed (hl : p.loan = false) (hp : partnerRefused p s = (false, s1))
    (hc : homeChecks p (if p.zip then blockSize else p.payload.length) (wrTally p) s1 = (none, s2)) (hraw : rawPayload s2 p = some bs)
    (hcrc : p.e2e = true → crc32c bs = p.crc) (hgu : writeGuards p.addr.toNat (.fabric p.src.toNat) s2 = (true, s3)) (port : Nat) :
    homeWr port p s = admitWr port p false s3 := by
  unfold homeWr
  simp only [hl, hp, hc, hraw, crc_passes hcrc, hgu, Bool.false_eq_true, if_false]

theorem homeWr_lent (hl : p.loan = true) (hf : fatal s = false) (hok : loanOk s p p.payload.length = true)
    (hu : loanStopped s (packetOff p) p.payload.length = false) (hraw : rawPayload s p = some bs) (hcrc : p.e2e = true → crc32c bs = p.crc) (port : Nat) :
    homeWr port p s = serveWr p s := by
  unfold homeWr
  simp only [hl, hf, hok, hu, hraw, crc_passes hcrc, Bool.not_true, Bool.false_eq_true, if_true, if_false]

/-- What a stored WR adds to the tally it names (R365). -/
def wrTallied (n : Nat) (p : Packet) (s : State) : State :=
  match wrTally p with
  | some t => tallyAddTo t (if p.tallyUnit then 1 else w32 n) s
  | none => s

theorem serveWr_stored (hst : storeCells (packetOff p) (((rawPayload s p).getD []).map some) s = (true, s1)) (hm : p.pmask = false) :
    serveWr p s = reply (ackTo (wrTallied ((rawPayload s p).getD []).length p s1) p .ok 0) (countApplied p (wrTallied ((rawPayload s p).getD []).length p s1)) := by
  unfold serveWr
  simp only [hst, hm, Bool.false_eq_true, if_true, if_false]
  rfl

end Write

/-! ATOMIC (R315, R362) -/

theorem admitAtomic_go {s : State} {p : Packet} (hg : writeGate s p.addr.toNat = .go) (port : Nat) : admitAtomic port p false s =
    coherent p.addr.toNat (atomicSize p) true false (.packet port p) (serveAtomic p) s := by
  rw [admitAtomic]
  exact inTurn_coherent (by simp only [hg])

theorem homeAtomic_passed {s s1 s2 s3 : State} {p : Packet} (hl : p.loan = false) (hp : partnerRefused p s = (false, s1))
    (hc : homeChecks p (atomicSize p) none s1 = (none, s2)) (halign : p.addr.toNat % atomicSize p = 0) (hop : fld p.arg 0 4 ≤ 7)
    (hsize : fld p.arg 0 4 ≤ 4 ∨ atomicSize p = 4) (hgu : writeGuards p.addr.toNat (.fabric p.src.toNat) s2 = (true, s3)) (port : Nat) :
    homeAtomic port p s = admitAtomic port p false s3 := by
  have hgood : ¬(p.addr.toNat % atomicSize p ≠ 0 ∨ 7 < fld p.arg 0 4 ∨ (5 ≤ fld p.arg 0 4 ∧ atomicSize p = 8)) := by omega
  unfold homeAtomic
  simp only [hl, hp, hc, hgood, hgu, Bool.false_eq_true, if_false]

/-- The memory after an atomic: its new value, or the untouched block, read as raw (R315). -/
def atomicStored (p : Packet) (old : Nat) (s : State) : State :=
  match atomicNew (fld p.arg 0 4) (bit p.arg 5) (atomicSize p) old (leAt p.payload 0 (atomicSize p)) (leAt p.payload (atomicSize p) (atomicSize p)) with
  | some v => (storeCells p.addr.toNat ((leBytes (atomicSize p) v).map some) s).2
  | none => rawBlock (p.addr.toNat / blockSize) (countAccess p.addr.toNat (atomicSize p) true s)

theorem serveAtomic_good {s s1 : State} {p : Packet} {g : Got} (hread : memRead p.addr.toNat (atomicSize p) s = (g, s1)) (hpois : g.pois = []) :
    serveAtomic p s = reply (rspTo (atomicStored p (leNat g.bytes) s1) p .ok 0 0 (leBytes (atomicSize p) (leNat g.bytes)))
      (countApplied p (atomicStored p (leNat g.bytes) s1)) := by
  unfold serveAtomic
  simp only [hread, hpois, List.isEmpty_nil, Bool.not_true, Bool.false_eq_true, if_false]
  rfl

/-- Settles O26: what each packet meets on its way to coherence, what coherence does where the directory is empty, and how each is served. -/
theorem fabricReadsAndWrites : Obligations.FabricReadsAndWrites := by
  unfold Obligations.FabricReadsAndWrites
  refine ⟨?read, ?readLent, ?write, ?writeLent, ?atomic, fun s off n w q r f hw htx hd => coherent_empty hw htx hd off n w q r f,
    fun s s1 p g hread hpois hcodec hclass => serveRd_good hread hpois hcodec hclass, fun s s1 p hst hm => serveWr_stored hst hm,
    fun s s1 p g hread hpois _ => serveAtomic_good hread hpois⟩
  case read => exact fun s s1 port p m dir harr hl hc => exec_arriveTo harr (homeRd_passed hl hc port m)
  case readLent =>
    intro s port p m dir harr hl hf hok hu
    exact exec_arriveTo harr ((congrArg _ (accessChecked_lent hl dir s)).trans (homeRd_lent hl hf hok hu port m))
  case write =>
    intro s s1 s2 s3 port p dir bs harr hl hp hc hraw hcrc hgu hg
    exact exec_arriveTo harr ((homeWr_passed hl hp hc hraw hcrc hgu port).trans (admitWr_go hg port))
  case writeLent =>
    intro s port p dir bs harr hl hf hok hu hraw hcrc
    exact exec_arriveTo harr ((congrArg _ (accessChecked_lent hl dir s)).trans (homeWr_lent hl hf hok hu hraw hcrc port))
  case atomic =>
    intro s s1 s2 s3 port p dir harr hl hp hc halign hop hsize hgu hg
    exact exec_arriveTo harr ((homeAtomic_passed hl hp hc halign hop hsize hgu port).trans (admitAtomic_go hg port))

end Sys2Proof.Machine
end

section
/-! Accesses of hosts to BAR2 (O41). -/

namespace Sys2Proof.Machine

open Sys2Proof

section Access

variable {s s1 s2 : State} {path : Path} {op : HostOp} {part : Nat}

/-! The state of the function, the hub and the partition (R443, R398) -/

theorem barAccess_unserved (h : fnResetting s path = true ∨ s.boot.image = none) (off : Nat) :
    barAccess path off op s = hostAnswer path (opPosted op) true (opLen op) .ownership [] s :=
  if_pos (by rw [Bool.or_eq_true, Option.isNone_iff_eq_none]; exact h)

theorem barAccess_fatal (hr : fnResetting s path = false) (him : s.boot.image ≠ none) (hf : fatal s = true) (off : Nat) :
    barAccess path off op s = hostAnswer path (opPosted op) false (opLen op) .reset [] s := by
  simp [barAccess, hr, him, hf]

theorem barAccess_stopped (hr : fnResetting s path = false) (him : s.boot.image ≠ none) (hf : fatal s = false) (hp : pathPart s path = some part)
    (hi : intakeStopped s part = true) (off : Nat) : barAccess path off op s = hostAnswer path (opPosted op) false (opLen op) .poison [] s := by
  simp [barAccess, hr, him, hf, hp, hi]

/-- A function that is no proxy reaches BAR2, unless it has a partition whose intake is stopped. -/
theorem barAccess_bar2 (hr : fnResetting s path = false) (him : s.boot.image ≠ none) (hf : fatal s = false)
    (hi : ∀ p, pathPart s path = some p → intakeStopped s p = false) (hx : isProxy s path = false) (off : Nat) :
    barAccess path off op s = bar2Access path off op s := by
  cases hp : pathPart s path with
  | none => simp [barAccess, hr, him, hf, hp, hx]
  | some p => simp [barAccess, hr, him, hf, hp, hi p hp, hx]

/-! An access at the aperture (R398, R402) -/

theorem bar2Access_noPart (hp : pathPart s path = none) (off : Nat) :
    bar2Access path off op s = hostAnswer path (opPosted op) true (opLen op) .ownership [] s := by
  rw [bar2Access, hp]

theorem bar2Access_cas128 (hp : pathPart s path = some part) (off : Nat) :
    bar2Access path off .cas128 s = hostAnswer path false true 16 .ownership [] s := by
  rw [bar2Access, hp]
  rfl

/-- An access of a partition function is held by a commit that changes its entry, and goes on otherwise. -/
theorem bar2Access_part (hp : pathPart s path = some part) (hop : op ≠ .cas128) (off : Nat) : bar2Access path off op s =
    if commitHolds s (aptBase s (fnIdx path) + off) then holdReq (.bar2 path off op) s
    else hostForward path part (aptBase s (fnIdx path) + off) op false s := by
  rw [bar2Access, hp]
  exact if_neg hop

theorem hostForward_home {fa ep o : Nat} (hu : unitStopped s 8 (some part) = false) (hres : resolve fa part (opRight op) s = (.home ep o, s1))
    (hself : ep = selfEp s1) : hostForward path part fa op false s = bar2Local path part o op s1 := by
  unfold hostForward
  simp only [hu, hres, hself, Bool.false_eq_true, if_true, if_false]

theorem hostForward_sent {fa ep o : Nat} (hu : unitStopped s 8 (some part) = false) (hres : resolve fa part (opRight op) s = (.home ep o, s1))
    (hself : ep ≠ selfEp s1) (hsent : sendReq (mkReq (stampKey s1 part (opPacket s1 ep o op)) (some fa) (opRight op) part (.bar2 path (opPosted op))) s1 = (.gone, s2)) :
    hostForward path part fa op false s = s2 := by
  unfold hostForward
  simp only [hu, hres, hself, hsent, Bool.false_eq_true, if_false]

/-! An access homed at this hub (R566) -/

variable {off a : Nat}

theorem admitBar2_read (hop : opRight op = 0) : admitBar2 path off op false s = coherent off (opLen op) false false (.bar2 path off op) (bar2Serve path off op) s := by
  rw [admitBar2, if_pos hop, hop]
  rfl

theorem admitBar2_go (hop : opRight op ≠ 0) (hg : writeGate s off = .go) :
    admitBar2 path off op false s = coherent off (opLen op) true false (.bar2 path off op) (bar2Serve path off op) s := by
  have hw : (opRight op != 0) = true := bne_iff_ne.2 hop
  rw [admitBar2, if_neg hop, hw]
  exact inTurn_coherent (by simp only [hg])

theorem bar2Local_read (hf : fatal s = false) (ha : addrOf s off (opLen op) = .store a) (hk : fkey s (addrPart s (.store a)) = fkey s part)
    (hu : homeStopped s (.store a) off (opLen op) none = false) (hop : opRight op = 0) : bar2Local path part off op s = admitBar2 path off op false s := by
  unfold bar2Local
  simp [hf, ha, hk, hu, hop]

theorem bar2Local_guarded (hf : fatal s = false) (ha : addrOf s off (opLen op) = .store a) (hk : fkey s (addrPart s (.store a)) = fkey s part)
    (hu : homeStopped s (.store a) off (opLen op) none = false) (hop : opRight op ≠ 0) (halign : opRight op = 2 → off % opLen op = 0)
    (hgu : writeGuards off (.host (pathPort path)) s = (true, s1)) : bar2Local path part off op s = admitBar2 path off op false s1 := by
  have hal : ¬(opRight op = 2 ∧ off % opLen op ≠ 0) := fun h => h.2 (halign h.1)
  unfold bar2Local
  simp only [hf, ha, hk, hu, hal, hop, hgu, ne_eq, not_true, Bool.false_eq_true, if_false]

end Access

/-- Settles O41: the function, the hub and the partition, then the aperture, then the home, with one lemma for each case. -/
theorem hostApertureAccesses : Obligations.HostApertureAccesses := by
  unfold Obligations.HostApertureAccesses
  refine ⟨?states, fun s path n data e => ⟨rfl, rfl, rfl⟩, ?noPart, ?aperture, ?home⟩
  case states =>
    intro s path off op c hal hc
    have key : ∀ u, barAccess path off.toNat op s = u → exec c s = .next (finish u) := by
      rcases hc with rfl | rfl <;> exact fun u e => exec_actTo hal e
    exact ⟨fun h => key _ (barAccess_unserved h _), fun hr him =>
      ⟨fun hf => key _ (barAccess_fatal hr him hf _), fun part hf hp hi => key _ (barAccess_stopped hr him hf hp hi _)⟩⟩
  case noPart =>
    intro s path off op hal hr him hf hp hx
    exact exec_actTo hal ((barAccess_bar2 hr him hf (by simp [hp]) hx _).trans (bar2Access_noPart hp _))
  case aperture =>
    intro s path off op part hal hr him hf hp hi hx fa
    have hbar : barAccess path off.toNat op s = bar2Access path off.toNat op s := barAccess_bar2 hr him hf (by simpa [hp] using hi) hx _
    have hpart := fun hop : op ≠ .cas128 => hbar.trans (bar2Access_part hp hop off.toNat)
    refine ⟨fun hop => ?_, fun hop hh => exec_actTo hal ((hpart hop).trans (if_pos hh)), fun hop hh hu ep o s1 hres => ?_⟩
    · subst hop
      exact exec_actTo hal (hbar.trans (bar2Access_cas128 hp _))
    · have hfwd := (hpart hop).trans (if_neg (by simp [fa, hh]))
      exact ⟨fun hself => exec_actTo hal (hfwd.trans (hostForward_home hu hres hself)),
        fun s2 hself hsent => exec_actTo hal (hfwd.trans (hostForward_sent hu hres hself hsent))⟩
  case home =>
    intro s path part off a op hf ha hk hu
    exact ⟨fun hop => (bar2Local_read hf ha hk hu hop).trans (admitBar2_read hop),
      fun s1 hop halign hgu hg => (bar2Local_guarded hf ha hk hu hop halign hgu).trans (admitBar2_go hop hg)⟩

end Sys2Proof.Machine
end

section
/-! What reads, messages and triggers leave: the directory with its transactions, and the registers (O36, O54). -/

namespace Sys2Proof.Machine

open Sys2Proof

/-- What coherence keeps, and the registers: no read, message or trigger changes either. -/
def cohRegs (s : State) : Coh × NMap W32 := (s.coh, s.regs)

theorem coh_of_cohRegs {s t : State} (h : cohRegs t = cohRegs s) : t.coh = s.coh := congrArg Prod.fst h

theorem regs_of_cohRegs {s t : State} (h : cohRegs t = cohRegs s) : t.regs = s.regs := congrArg Prod.snd h

@[simp] theorem bump_cohRegs (r i : Nat) (s : State) : cohRegs (bump r i s) = cohRegs s := rfl

@[simp] theorem emit_cohRegs (e : Emit) (s : State) : cohRegs (emit e s) = cohRegs s := rfl

@[simp] theorem trigger_cohRegs (code : Nat) (detail : W64) (part : Option Nat) (inst : Nat) (s : State) :
    cohRegs (trigger code detail part inst s) = cohRegs s := by
  unfold trigger
  dsimp only
  split_ifs <;> rfl

@[simp] theorem markPoison_cohRegs (off n : Nat) (s : State) : cohRegs (markPoison off n s) = cohRegs s := by
  unfold markPoison
  split <;> rfl

/-! Reads of a line -/

@[simp] theorem laneWork_cohRegs (lane raw coded : Nat) (s : State) : cohRegs (laneWork lane raw coded s) = cohRegs s := rfl

@[simp] theorem codecDrop_cohRegs (b : Nat) (s : State) : cohRegs (codecDrop b s) = cohRegs s := by
  rw [codecDrop, trigger_cohRegs, bump_cohRegs, markPoison_cohRegs, cohRegs, setMeta_coh, setMeta_regs, ← cohRegs]

@[simp] theorem readBlock_cohRegs (b : Nat) (s : State) : cohRegs (readBlock b s).2 = cohRegs s := by
  unfold readBlock
  dsimp only
  split_ifs
  · split <;> simp
  · rfl
  · rfl

@[simp] theorem readIn_cohRegs (off n : Nat) (s : State) : cohRegs (readIn off n s).2 = cohRegs s := by
  unfold readIn
  split
  · exact readBlock_cohRegs _ s
  · rfl

@[simp] theorem memRead_cohRegs (off n : Nat) (s : State) : cohRegs (memRead off n s).2 = cohRegs s :=
  List.foldlRecOn (motive := fun acc : Got × State => cohRegs acc.2 = cohRegs s) _ _ rfl fun acc hacc pc _ => (readIn_cohRegs pc.1 pc.2 acc.2).trans hacc

@[simp] theorem hidePoison_cohRegs (off : Nat) (ws : List Nat) (bs : List Byte) (s : State) : cohRegs (hidePoison off ws bs s).2 = cohRegs s := by
  unfold hidePoison
  split <;> rfl

@[simp] theorem countSent_cohRegs (ws : List Nat) (s : State) : cohRegs (countSent ws s) = cohRegs s := by
  unfold countSent
  split <;> rfl

@[simp] theorem lineData_cohRegs (line : Nat) (s : State) : cohRegs (lineData line s).2.2 = cohRegs s := by
  simp [lineData]

/-! Messages -/

@[simp] theorem transmit_cohRegs (port : Nat) (p : Packet) (s : State) : cohRegs (transmit port p s) = cohRegs s := by
  unfold transmit putOnWire
  exact List.foldlRecOn (motive := fun t : State => cohRegs t = cohRegs s) _ _ rfl fun t ht i _ => ht

@[simp] theorem egress_cohRegs (port : Nat) (p : Packet) (s : State) : cohRegs (egress port p s) = cohRegs s := by
  unfold egress
  split
  · exact transmit_cohRegs port p s
  · rfl

theorem choosePort_cohRegs (c : Nat) (ps : List Nat) (s : State) : cohRegs (choosePort c ps s).2 = cohRegs s := by
  unfold choosePort
  split <;> rfl

@[simp] theorem send_cohRegs (p : Packet) (s : State) : cohRegs (send p s) = cohRegs s := by
  have hport := choosePort_cohRegs p.tc.toNat (pathSet s p.dst.toNat) s
  unfold send route
  split
  · rfl
  · split
    · next s1 heq => rw [heq] at hport; exact hport
    · next q s1 heq => rw [heq] at hport; exact (egress_cohRegs q p s1).trans hport

/-- A grant is a read of the line and a message. -/
@[simp] theorem sendGrant_cohRegs (r : CohReq) (grant line : Nat) (withData : Bool) (s : State) :
    cohRegs (sendGrant r grant line withData s) = cohRegs s := by
  unfold sendGrant
  cases r with
  | agent _ _ _ | host _ _ _ _ _ _ _ _ => dsimp only; split <;> simp
  | _ => rfl

end Sys2Proof.Machine
end

section
/-! Entries of the directory and open transactions: what each change of them reads back (O36). -/

namespace Sys2Proof.Machine

open Sys2Proof

/-! Transactions -/

/-- The first element that a predicate accepts, once the first such element is replaced by one that it accepts. -/
theorem find_replaceFirst_kept {α : Type} {p : α → Bool} {f : α → α} (hf : ∀ a, p (f a) = p a) (l : List α) :
    (replaceFirst p f l).find? p = (l.find? p).map f := by
  induction l with
  | nil => rfl
  | cons a l ih => cases h : p a <;> simp [replaceFirst, h, hf, ih]

theorem txnOf_congr {s u : State} (h : u.coh.txns = s.coh.txns) (line : Nat) : txnOf u line = txnOf s line := by rw [txnOf, h, txnOf]

/-- A change of an open transaction that keeps its line. -/
theorem txnOf_txnMod {s : State} {line : Nat} {t : Txn} (ht : txnOf s line = some t) {f : Txn → Txn} (hf : ∀ t, (f t).line = t.line) :
    txnOf (txnMod line f s) line = some (f t) :=
  (find_replaceFirst_kept (p := fun t : Txn => t.line == line) (fun t => by rw [hf]) _).trans (congrArg (Option.map f) ht)

@[simp] theorem txnOf_closeTxn (line : Nat) (s : State) : txnOf (closeTxn line s) line = none := by
  simp [txnOf, closeTxn, List.find?_eq_none]

theorem txnOf_openTxn {s : State} {t : Txn} (h : txnOf s t.line = none) : txnOf (openTxn t s) t.line = some t := by
  rw [txnOf] at h ⊢
  simp [openTxn, List.find?_append, h]

/-! Entries -/

@[simp] theorem cacheIn_dir (line : Nat) (s : State) : (cacheIn line s).coh.dir = s.coh.dir := by
  unfold cacheIn
  split_ifs <;> rfl

@[simp] theorem cacheIn_txns (line : Nat) (s : State) : (cacheIn line s).coh.txns = s.coh.txns := by
  unfold cacheIn
  split_ifs <;> rfl

theorem setEntry_empty_dir {e : DirEntry} (h : e.sharers = []) (line : Nat) (s : State) : (setEntry line (some e) s).coh.dir = mdel line s.coh.dir := by
  simp [setEntry, h, cacheOut]

theorem setEntry_some_dir {e : DirEntry} (h : e.sharers ≠ []) (line : Nat) (s : State) :
    (setEntry line (some e) s).coh.dir = mset line { e with age := 0 } (agedBy s line) := by
  simp [setEntry, h]

@[simp] theorem setEntry_txns (line : Nat) (e : Option DirEntry) (s : State) : (setEntry line e s).coh.txns = s.coh.txns := by
  unfold setEntry
  split
  · split
    · rfl
    · exact cacheIn_txns _ _
  · rfl

/-- An entry that is put stands in the directory, as the last used of its set. -/
theorem dirEntry_setEntry {e : DirEntry} (h : e.sharers ≠ []) (line : Nat) (s : State) : dirEntry (setEntry line (some e) s) line = some { e with age := 0 } := by
  rw [dirEntry, setEntry_some_dir h, mget_mset_same]

theorem dirEntry_setEntry_none (line : Nat) (s : State) : dirEntry (setEntry line none s) line = none := mget_mdel_same line s.coh.dir

/-- The ageing of a set leaves everything of an entry but its age (log entry 144). -/
theorem mget_agedBy (s : State) (line l : Nat) :
    (mget l (agedBy s line)).map (fun e => (e.st, e.lead, e.sharers)) = (dirEntry s l).map fun e => (e.st, e.lead, e.sharers) := by
  rw [agedBy, mget_mmapv, dirEntry, Option.map_map]
  congr 1
  funext e
  dsimp only [Function.comp]
  split_ifs <;> rfl

/-- A change of one line's entry leaves the state, lead and sharers of every other. -/
theorem dirEntry_setEntry_ne {line l : Nat} (h : l ≠ line) (e : Option DirEntry) (s : State) :
    (dirEntry (setEntry line e s) l).map (fun e => (e.st, e.lead, e.sharers)) = (dirEntry s l).map fun e => (e.st, e.lead, e.sharers) := by
  have hdel : mget l (mdel line s.coh.dir) = dirEntry s l := mget_mdel_ne h.symm _
  cases e with
  | none => exact congrArg _ hdel
  | some e =>
    by_cases hs : e.sharers = []
    · rw [dirEntry, setEntry_empty_dir hs, hdel]
    · rw [dirEntry, setEntry_some_dir hs, mget_mset_ne h.symm, mget_agedBy]

/-! The end of a transaction (R332, Table 9-5) -/

section Grant

variable {s : State} {line : Nat} {t : Txn} (ht : txnOf s line = some t)
include ht

theorem endTxn_open : endTxn line s = setEntry line t.next (closeTxn line s) := by
  rw [endTxn, ht]

theorem txnOf_endTxn : txnOf (endTxn line s) line = none := by
  rw [endTxn_open ht, txnOf_congr (setEntry_txns _ _ _), txnOf_closeTxn]

theorem txnOf_sendGrant (r : CohReq) (grant : Nat) (withData : Bool) : txnOf (sendGrant r grant line withData s) line = some t := by
  rw [txnOf_congr (congrArg Coh.txns (coh_of_cohRegs (sendGrant_cohRegs r grant line withData s))), ht]

/-- A transaction that takes a next state still stands open. -/
theorem txnOf_next (next : Option DirEntry) : txnOf (txnMod line (fun t => { t with next := next }) s) line = some { t with next := next } :=
  txnOf_txnMod ht fun _ => rfl

/-- A host's grant closes its transaction: the entry takes the next state. -/
theorem grantTxn_host {hp op l tag : Nat} {mv : MetaValue} {data : List Byte} {be : W64} {bad : Bool} (hr : t.req = some (.host hp op l mv tag data be bad))
    {e : DirEntry} (he : e.sharers ≠ []) (grant : Nat) (withData : Bool) :
    dirEntry (grantTxn line grant withData (some e) s) line = some { e with age := 0 } ∧ txnOf (grantTxn line grant withData (some e) s) line = none := by
  have hopen := txnOf_next (txnOf_sendGrant ht (.host hp op l mv tag data be bad) grant withData) (some e)
  have hend : grantTxn line grant withData (some e) s =
      endTxn line (txnMod line (fun t => { t with next := some e }) (sendGrant (.host hp op l mv tag data be bad) grant line withData s)) := by
    rw [grantTxn, ht]
    simp only [hr]
  rw [hend]
  exact ⟨by rw [endTxn_open hopen]; exact dirEntry_setEntry he _ _, txnOf_endTxn hopen⟩

/-- A fabric agent's grant awaits its GrantAck (R332). -/
theorem grantTxn_agent {k : Nat} {p : Packet} {y : Option Nat} (hr : t.req = some (.agent k p y)) (next : Option DirEntry) (grant : Nat) (withData : Bool) :
    txnOf (grantTxn line grant withData next s) line = some { t with next := next, grantAck := true, await := [] } ∧
      (grantTxn line grant withData next s).coh.dir = s.coh.dir := by
  have hgrant : grantTxn line grant withData next s =
      txnMod line (fun t => { t with next := next, grantAck := true, await := [] }) (sendGrant (.agent k p y) grant line withData s) := by
    rw [grantTxn, ht]
    simp only [hr]
  rw [hgrant]
  have hdir : (sendGrant (.agent k p y) grant line withData s).coh.dir = s.coh.dir := congrArg Coh.dir (coh_of_cohRegs (sendGrant_cohRegs ..))
  exact ⟨txnOf_txnMod (txnOf_sendGrant ht _ grant withData) fun _ => rfl, hdir⟩

/-! With every answer in -/

theorem resolveTxn_awaiting (ha : t.await ≠ []) : resolveTxn line s = s := by
  rw [resolveTxn, ht]
  simp [ha]

variable (ha : t.await = []) (hg : t.grantAck = false) (hl : t.lost = false)
include ha hg hl

/-- An invalidating write ends its transaction (row IW). -/
theorem resolveTxn_iw (hrow : t.row = .iw) : resolveTxn line s = endTxn line s := by
  simp [resolveTxn, ht, ha, hg, hl, hrow]

/-- An ownership request is granted M (row OW). -/
theorem resolveTxn_ow {x : Nat} (hx : t.slot = some x) (hrow : t.row = .ow) : resolveTxn line s = grantTxn line gM t.withData (some (modif x)) s := by
  simp [resolveTxn, ht, ha, hg, hl, hx, hrow]

end Grant

/-! Requests and notices -/

/-- A shared read of a host of a line that nobody holds: it becomes the one sharer (row HS). -/
theorem sharedRead_fresh {s : State} {line : Nat} (ht : txnOf s line = none) (hd : dirEntry s line = none) (x hp op l : Nat) (mv : MetaValue) (tag : Nat)
    (data : List Byte) (be : W64) (bad : Bool) :
    dirEntry (sharedRead line x true (.host hp op l mv tag data be bad) s) line = some (shared [x]) := by
  let t := newTxn line .hs (some (.host hp op l mv tag data be bad)) (some x)
  have hopen : txnOf (openTxn t s) line = some t := txnOf_openTxn (t := t) ht
  have hfresh : sharedRead line x true (.host hp op l mv tag data be bad) s = grantTxn line gS true (some (shared [x])) (openTxn t s) := by
    have hnone : dirEntry (openTxn t s) line = none := hd
    simp [sharedRead, t, hnone]
  rw [hfresh]
  exact (grantTxn_host hopen (e := shared [x]) rfl (List.cons_ne_nil x []) gS true).1

theorem evictNotice_shared {s : State} {line : Nat} {e : DirEntry} (h : dirEntry s line = some e) (ho : owned e = false) (x : Nat) :
    evictNotice line x s = setEntry line (some (without [x] e)) s := by
  simp [evictNotice, h, ho]

theorem without_one_sharers (x : Nat) (e : DirEntry) : (without [x] e).sharers = e.sharers.filter (· ≠ x) := by
  simp [without]

/-- Settles O36: the end of a transaction by the row of its request, and an Evict as one change of its line's entry. -/
theorem directoryTransitions : Obligations.DirectoryTransitions := by
  unfold Obligations.DirectoryTransitions
  refine ⟨fun s line x hp op tag l mv data be bad ht hd => by rw [sharedRead_fresh ht hd]; rfl, fun s line t ht =>
    ⟨resolveTxn_awaiting ht, fun ha hg hl => ⟨?iw, ?host, ?agent⟩, ?evict⟩⟩
  case iw =>
    intro hrow hnext
    rw [resolveTxn_iw ht ha hg hl hrow]
    refine ⟨?_, txnOf_endTxn ht⟩
    rw [endTxn_open ht, hnext]
    exact dirEntry_setEntry_none _ _
  case host =>
    intro x hp op l mv tag data be bad hr hx _ hrow
    rw [resolveTxn_ow ht ha hg hl hx hrow]
    obtain ⟨hentry, hclosed⟩ := grantTxn_host ht hr (e := modif x) (List.cons_ne_nil x []) gM t.withData
    exact ⟨by rw [← dirEntry, hentry]; rfl, hclosed⟩
  case agent =>
    intro x k p y hr hx hrow _
    rw [resolveTxn_ow ht ha hg hl hx hrow]
    obtain ⟨hentry, hdir⟩ := grantTxn_agent ht hr (some (modif x)) gM t.withData
    exact ⟨by rw [hentry]; rfl, hdir⟩
  case evict =>
    intro x e he ho
    rw [evictNotice_shared he ho, ← without_one_sharers]
    refine ⟨fun h => ?_, fun h => by rw [dirEntry_setEntry h]; rfl, fun l hl => dirEntry_setEntry_ne hl _ _⟩
    rw [dirEntry, setEntry_empty_dir h, mget_mdel_same]

end Sys2Proof.Machine
end

section
/-! Slots, walks and their registers (O38, O54). -/

namespace Sys2Proof.Machine

open Sys2Proof

/-! Walks and recalls leave the registers as they are -/

@[simp] theorem setEntry_regs (line : Nat) (e : Option DirEntry) (s : State) : (setEntry line e s).regs = s.regs := by
  have hin : ∀ t, (cacheIn line t).regs = t.regs := fun t => by unfold cacheIn; split_ifs <;> rfl
  unfold setEntry
  split
  · split
    · rfl
    · exact hin _
  · rfl

@[simp] theorem endTxn_regs (line : Nat) (s : State) : (endTxn line s).regs = s.regs := by
  unfold endTxn
  split
  · exact setEntry_regs _ _ _
  · rfl

@[simp] theorem sendGrant_regs (r : CohReq) (grant line : Nat) (withData : Bool) (s : State) : (sendGrant r grant line withData s).regs = s.regs :=
  regs_of_cohRegs (sendGrant_cohRegs r grant line withData s)

@[simp] theorem grantTxn_regs (line grant : Nat) (withData : Bool) (next : Option DirEntry) (s : State) : (grantTxn line grant withData next s).regs = s.regs := by
  unfold grantTxn
  split
  · rfl
  · split
    · simp
    · split <;> simp

/-- The end of a transaction sends a grant and changes the directory. -/
@[simp] theorem resolveTxn_regs (line : Nat) (s : State) : (resolveTxn line s).regs = s.regs := by
  unfold resolveTxn
  split
  · rfl
  · split
    · rfl
    · split
      · split <;> simp
      · dsimp only
        split
        · split_ifs <;> simp
        · simp
        · simp
        · split <;> simp
        · simp
        · simp

@[simp] theorem holderLost_regs (line n : Nat) (s : State) : (holderLost line n s).regs = s.regs := by
  unfold holderLost
  dsimp only
  split
  · split
    · rw [txnMod_regs, setEntry_regs]
      exact regs_of_cohRegs (by simp)
    · simp
  · rfl

@[simp] theorem sendRecall_regs (line n : Nat) (share : Bool) (hpa : Nat) (s : State) : (sendRecall line n share hpa s).regs = s.regs := by
  unfold sendRecall
  split
  · rfl
  · dsimp only
    split
    · rfl
    · exact regs_of_cohRegs (send_cohRegs ..)

@[simp] theorem recallAll_regs (line : Nat) (share : Bool) (ns : List Nat) (s : State) : (recallAll line share ns s).regs = s.regs := by
  refine List.foldlRecOn (motive := fun t : State => t.regs = s.regs) _ _ rfl fun t ht n _ => ?_
  dsimp only
  split
  · rw [holderLost_regs, ht]
  · simp [ht]

/-- Recalling what the running walks match. -/
theorem walkRecall_regs (s : State) : (walkRecall s).regs = s.regs := by
  refine List.foldlRecOn (motive := fun t : State => t.regs = s.regs) _ _ rfl fun t ht w _ => ?_
  refine List.foldlRecOn (motive := fun t : State => t.regs = s.regs) _ _ ht fun u hu h _ => ?_
  split
  · exact hu
  · simp [hu]

/-! Slots (R324, R350) -/

theorem cohSlot_congr {s u : State} (h : u.coh.slots = s.coh.slots) (n : Nat) : cohSlot u n = cohSlot s n := by rw [cohSlot, h, cohSlot]

theorem slotOfId_congr {s u : State} (h : u.coh.slots = s.coh.slots) (kind ep : Nat) : slotOfId u kind ep = slotOfId s kind ep := by
  rw [slotOfId, h, slotOfId]

section Slot

variable {s : State} {n : Nat} (hn : rfld s Reg.cohAgentNum 0 0 8 = n)
include hn

theorem slotSetRun_free (hs : cohSlot s n = none) (hk : rfld s Reg.cohAgent 0 18 2 ≠ 3)
    (hid : slotOfId s (rfld s Reg.cohAgent 0 18 2) (rfld s Reg.cohAgent 0 0 18) = none) :
    slotSetRun s = cmdEnd Reg.cohAgentCmd 0 .ok { s with coh := { s.coh with
      slots := mset n { kind := rfld s Reg.cohAgent 0 18 2, ep := rfld s Reg.cohAgent 0 0 18, lost := false } s.coh.slots } } := by
  simp [slotSetRun, hn, hs, hk, hid]

theorem slotSetRun_refused (h : cohSlot s n ≠ none ∨ rfld s Reg.cohAgent 0 18 2 = 3 ∨
    (slotOfId s (rfld s Reg.cohAgent 0 18 2) (rfld s Reg.cohAgent 0 0 18)).isSome = true) : slotSetRun s = cmdEnd Reg.cohAgentCmd 0 .decode s :=
  if_pos (by rwa [hn, ← Option.ne_none_iff_isSome])

theorem slotClearRun_free (hs : cohSlot s n = none) : slotClearRun s = cmdEnd Reg.cohAgentCmd 0 .ok s :=
  if_pos (by rw [hn, hs]; rfl)

/-- The walk that frees a slot: of every line the slot holds. -/
def clearWalk (n : Nat) : Walk := { lo := 0, hi := stageBase, slot := some n, why := .clearSlot n, running := false }

theorem slotClearRun_held (hs : cohSlot s n ≠ none) : slotClearRun s = addWalk (clearWalk n) (setBusy Reg.cohAgentCmd 0 true s) := by
  simp [slotClearRun, hn, hs, clearWalk]

theorem slotClearLostRun_lost {x : Slot} (hs : cohSlot s n = some x) (hx : x.lost = true) :
    slotClearLostRun s = cmdEnd Reg.cohAgentCmd 0 .ok (slotMod n (fun x => { x with lost := false }) s) := by
  simp [slotClearLostRun, hn, hs, hx]

theorem slotClearLostRun_refused (h : ∀ x, cohSlot s n = some x → x.lost = false) : slotClearLostRun s = cmdEnd Reg.cohAgentCmd 0 .decode s := by
  cases hs : cohSlot s n with
  | none => simp [slotClearLostRun, hn, hs]
  | some x => simp [slotClearLostRun, hn, hs, h x hs]

end Slot

theorem walkDone_clearSlot {w : Walk} {n : Nat} (hw : w.why = .clearSlot n) (s : State) :
    walkDone w s = cmdEnd Reg.cohAgentCmd 0 .ok { s with coh := { s.coh with slots := mdel n s.coh.slots } } := by
  rw [walkDone, hw]

theorem cohSlot_taken (path : Path) (r i : Nat) (v : W32) (s : State) (n : Nat) : cohSlot (taken path r i v s) n = cohSlot s n :=
  cohSlot_congr (by rw [taken_coh]) n

theorem slotOfId_taken (path : Path) (r i : Nat) (v : W32) (s : State) (kind ep : Nat) : slotOfId (taken path r i v s) kind ep = slotOfId s kind ep :=
  slotOfId_congr (by rw [taken_coh]) kind ep

/-- A command that ends with DECODE says so, is not BUSY and leaves coherence as the write of its register found it. -/
theorem cmdEnd_decode_taken (path : Path) (r i j : Nat) (v : W32) (s : State) : let u := cmdEnd r j .decode (taken path r i v s)
    fld (rget u r j) 8 8 = Status.decode.code ∧ fld (rget u r j) 4 1 = 0 ∧ u.coh = s.coh :=
  ⟨cmdEnd_status .., cmdEnd_busy .., by rw [cmdEnd_coh, taken_coh]⟩

/-- Settles O54: the outcomes of the three commands, and a register that only the end of a walk changes. -/
theorem slotCommandStatuses : Obligations.SlotCommandStatuses := by
  unfold Obligations.SlotCommandStatuses
  refine ⟨fun s path v i hacc => ?set, fun s path v i hacc => ?clear, fun s => rget_congr (walkRecall_regs s) _ _, fun s w n hw => ?done,
    fun s path v i hacc h => ?lost⟩
  case set =>
    intro s1 h
    rw [← cohSlot_taken path Reg.cohAgentCmd i v, ← slotOfId_taken path Reg.cohAgentCmd i v] at h
    exact ⟨_, exec_issueTo hacc (by decide) (slotSetRun_refused rfl h), cmdEnd_decode_taken ..⟩
  case clear =>
    intro n h
    rw [← cohSlot_taken path Reg.cohAgentCmd i v] at h
    refine ⟨_, exec_issueTo hacc (by decide) (slotClearRun_held rfl h), ?_, ?_, ?_⟩
    · rw [rget_congr (addWalk_regs ..), setBusy_busy]
      rfl
    · rw [addWalk, setBusy_coh, taken_coh]
    · rw [addWalk, setBusy_coh, taken_coh, clearWalk]
  case done =>
    rw [walkDone_clearSlot hw]
    exact ⟨cmdEnd_busy .., by rw [cohSlot, cmdEnd_coh, mget_mdel_same]⟩
  case lost =>
    simp only [← cohSlot_taken path Reg.cohAgentCmd i v s] at h
    obtain ⟨hst, -, hcoh⟩ := cmdEnd_decode_taken path Reg.cohAgentCmd i 0 v s
    exact ⟨_, exec_issueTo hacc (by decide) (slotClearLostRun_refused rfl h), hst, hcoh⟩

/-! Walk passes (R346) -/

section Pass

variable {s : State}

theorem walkStart_waiting (hr : s.coh.walks.any (·.running) = false) (hw : s.coh.walks ≠ []) :
    walkStart s = walkRecall { s with coh := { s.coh with walks := s.coh.walks.zipIdx.map fun e => if e.2 < 8 then { e.1 with running := true } else e.1 } } := by
  simp [walkStart, hr, hw]

/-- The running walks are none exactly where no walk runs. -/
theorem runningWalks_isEmpty (s : State) : (s.coh.walks.filter (·.running)).isEmpty = !s.coh.walks.any (·.running) := by
  rw [Bool.eq_iff_iff]
  simp [List.filter_eq_nil_iff]

theorem walkEnd_none (hr : s.coh.walks.any (·.running) = false) : walkEnd s = s := by
  simp only [walkEnd, runningWalks_isEmpty, hr, Bool.not_false, if_true]

theorem walkEnd_clear (hr : s.coh.walks.any (·.running) = true) (hc : walkClear s = true) : walkEnd s =
    (s.coh.walks.filter (·.running)).foldl (fun s w => walkDone w s) { s with coh := { s.coh with walks := s.coh.walks.filter fun w => !w.running } } := by
  simp only [walkEnd, runningWalks_isEmpty, hr, hc, Bool.not_true, Bool.false_eq_true, if_false, if_true]

theorem walkEnd_again (hr : s.coh.walks.any (·.running) = true) (hc : walkClear s = false) : walkEnd s = walkRecall s := by
  simp only [walkEnd, runningWalks_isEmpty, hr, hc, Bool.not_true, Bool.false_eq_true, if_false]

end Pass

/-- Settles O38: a pass as it begins and as it ends, then the slot commands. -/
theorem walksAndSlots : Obligations.WalksAndSlots := by
  unfold Obligations.WalksAndSlots
  refine ⟨fun s hal hf => ⟨fun hr hw => ?start, fun dir => ?stop⟩, fun s dir hal hf => ⟨exec_actTo hal (if_pos hf), exec_actTo hal (if_pos hf)⟩,
    fun s path v i hacc => ?set, fun s path v i hacc => ?clear, fun s path v i x hacc => ?lost⟩
  case start => exact exec_actTo hal ((if_neg (by simp [hf])).trans (walkStart_waiting hr hw))
  case stop =>
    have hpass {u : State} (e : walkEnd (walkChecked dir s) = u) : exec (.walkPassEnd dir) s = .next (finish u) :=
      exec_actTo hal ((if_neg (by simp [hf])).trans e)
    exact ⟨fun hr => hpass (walkEnd_none hr), fun hr hc => hpass (walkEnd_clear hr hc), fun hr hc => hpass (walkEnd_again hr hc)⟩
  case set =>
    intro s1 n kind ep hs hk hid
    rw [← cohSlot_taken path Reg.cohAgentCmd i v] at hs
    rw [← slotOfId_taken path Reg.cohAgentCmd i v] at hid
    refine ⟨_, exec_issueTo hacc (by decide) (slotSetRun_free rfl hs hk hid), ?_, ?_, cmdEnd_status ..⟩
    · rw [cohSlot, cmdEnd_coh, mget_mset_same]
    · rw [cmdEnd_store, taken_store]
  case clear =>
    intro s1 n
    rw [← cohSlot_taken path Reg.cohAgentCmd i v]
    exact ⟨fun hs => exec_issueTo hacc (by decide) (slotClearRun_free rfl hs), fun hs => exec_issueTo hacc (by decide) (slotClearRun_held rfl hs)⟩
  case lost =>
    intro s1 n hs
    rw [← cohSlot_taken path Reg.cohAgentCmd i v] at hs
    refine ⟨fun hx => ⟨_, exec_issueTo hacc (by decide) (slotClearLostRun_lost rfl hs hx), ?_, ?_⟩, fun hx => ?_⟩
    · rw [cohSlot] at hs
      rw [cohSlot, cmdEnd_coh, slotMod, mget_mmod_same, hs, Option.map_some]
    · rw [cmdEnd_store, slotMod_store, taken_store]
    · exact exec_issueTo hacc (by decide) (slotClearLostRun_refused rfl fun y hy => by rwa [Option.some.inj (hy.symm.trans hs)])

end Sys2Proof.Machine
end

section
/-! The commands of regions (O39). -/

namespace Sys2Proof.Machine

open Sys2Proof

theorem allocAt_congr {s u : State} (h : u.store = s.store) (off : Nat) : allocAt u off = allocAt s off := by
  unfold allocAt pageAt
  rw [h]

/-- The walk that a change of a region's owner waits for: of the region's lines in the old owner's slot. -/
def ownWalk (r : Region) (x n kind ep : Nat) : Walk :=
  { lo := r.base * pageSize, hi := (r.base + r.pages) * pageSize, slot := some x, why := .ownReg n kind ep, running := false }

section Region

variable {s : State} {i n : Nat} {r : Region}

/-- CREATE of a range inside one allocation of the partition, apart from every region, with room in the table (R351). -/
theorem regionCreateRun_fits {a base pages : Nat} {o : W32} {al : Alloc} (hb : regionBase s i = base) (hp : rfld s Reg.regionSize i 0 28 = pages)
    (ho : rget s Reg.regionOwner i = o) (hat : allocAt s (base * pageSize) = some a) (hal : allocOf s a = some al) (hpart : al.part = i) (hpos : 0 < pages)
    (hin : base + pages ≤ al.base + al.pages) (hclash : (s.coh.regions.any fun r => overlap r.2.base r.2.pages base pages) = false)
    (hk : fld o 18 2 ≠ 3) (hn : freeKeyFrom 0 s.coh.regions < 4096) :
    regionCreateRun i s = cmdEnd Reg.regionCmd i .ok (rsetFld Reg.regionCmd i 20 12 (freeKeyFrom 0 s.coh.regions) { s with coh := { s.coh with
      regions := mset (freeKeyFrom 0 s.coh.regions) { part := i, base := base, pages := pages, kind := fld o 18 2, ep := fld o 0 18 } s.coh.regions } }) := by
  unfold regionCreateRun
  simp [hb, hp, ho, hat, hal, hpart, hpos, hin, hclash, hk, hn]

theorem regionFor_own (hn : regionNum s i = n) (hr : mget n s.coh.regions = some r) (hp : r.part = i) (f : Nat → Region → State → State) :
    regionFor i f s = f n r s := by
  simp [regionFor, hn, hr, hp]

theorem regionFor_other (hr : mget (regionNum s i) s.coh.regions = some r) (hp : r.part ≠ i) (f : Nat → Region → State → State) :
    regionFor i f s = cmdEnd Reg.regionCmd i .ownership s := by
  simp [regionFor, hr, hp]

theorem regionDestroyRun_own (hn : regionNum s i = n) (hr : mget n s.coh.regions = some r) (hp : r.part = i) :
    regionDestroyRun i s = cmdEnd Reg.regionCmd i .ok { s with coh := { s.coh with regions := mdel n s.coh.regions } } :=
  regionFor_own hn hr hp _

section Own

variable (hn : regionNum s i = n) (hr : mget n s.coh.regions = some r) (hp : r.part = i) (hk : fld (rget s Reg.regionOwner i) 18 2 ≠ 3)
include hn hr hp hk

/-- An owner without a slot holds no line: the region changes hands at once (R349). -/
theorem regionOwnRun_slotless (hx : slotOfId s r.kind r.ep = none) : regionOwnRun i s =
    cmdEnd Reg.regionCmd i .ok (regionGive n (fld (rget s Reg.regionOwner i) 18 2) (fld (rget s Reg.regionOwner i) 0 18) s) := by
  rw [regionOwnRun, regionFor_own hn hr hp]
  simp [hk, hx]

/-- An owner with a slot gives up its lines first (R346, R349). -/
theorem regionOwnRun_slot {x : Nat} (hx : slotOfId s r.kind r.ep = some x) : regionOwnRun i s =
    addWalk (ownWalk r x n (fld (rget s Reg.regionOwner i) 18 2) (fld (rget s Reg.regionOwner i) 0 18)) (setBusy Reg.regionCmd i true s) := by
  rw [regionOwnRun, regionFor_own hn hr hp]
  simp [hk, hx, ownWalk]

end Own

end Region

/-- Settles O39: CREATE, the three commands on a region of the partition, and those on another's. -/
theorem regionCommands : Obligations.RegionCommands := by
  unfold Obligations.RegionCommands
  refine ⟨fun s path v i a al hacc => ?create, fun s path v i r => ?own, fun s i r f hr hp => regionFor_other hr hp f⟩
  case create =>
    intro s1 base pages o n hat hal hpart hpos hin hclash hk hn
    have hcoh : s1.coh = s.coh := taken_coh ..
    have hstore : s1.store = s.store := taken_store ..
    have hat1 : allocAt s1 (base * pageSize) = some a := by rw [allocAt_congr hstore, hat]
    have hal1 : allocOf s1 a = some al := by rw [allocOf_taken, hal]
    have hrun := regionCreateRun_fits rfl rfl rfl hat1 hal1 hpart hpos hin (by rwa [hcoh]) hk (by rwa [hcoh])
    rw [hcoh] at hrun
    refine ⟨_, exec_issueTo hacc (by decide) hrun, ?_, ?_, ?_⟩
    · rw [cmdEnd_store, rsetFld_store, hstore]
    · rw [cmdEnd_coh, rsetFld_coh, mget_mset_same]
    · rw [rfld, cmdEnd_num _ _ _ _ 20 12 (by omega), rget_rsetFld_same, fld_setFld_same _ 20 12 _ (by omega)]
      exact Nat.mod_eq_of_lt hn
  case own =>
    intro n hr hp s1
    have hr1 : mget n s1.coh.regions = some r := by rw [taken_coh, hr]
    refine ⟨fun hacc => ?_, fun hacc => ?_, fun hacc => exec_issueTo hacc (by decide) (regionFor_own rfl hr1 hp _)⟩
    · refine ⟨_, exec_issueTo hacc (by decide) (regionDestroyRun_own rfl hr1 hp), ?_, fun k hk => ?_, ?_⟩
      · rw [cmdEnd_coh, mget_mdel_same]
      · rw [cmdEnd_coh, mget_mdel_ne hk.symm, taken_coh]
      · rw [cmdEnd_store, taken_store]
    · intro o hk
      exact ⟨fun hx => exec_issueTo hacc (by decide) (regionOwnRun_slotless rfl hr1 hp hk (by rw [slotOfId_taken, hx])),
        fun x hx => exec_issueTo hacc (by decide) (regionOwnRun_slot rfl hr1 hp hk (by rw [slotOfId_taken, hx]))⟩

end Sys2Proof.Machine
end

section
/-! Requests of caching agents at their home (O34). -/

namespace Sys2Proof.Machine

open Sys2Proof

/-! The order of requests, the room for transactions and entries (R326, R334) -/

theorem lineBusy_false {s : State} {line : Nat} (h : lineBusy s line = false) : (txnOf s line).isSome = false ∧ waitedFor s line = false := by
  rwa [lineBusy, Bool.or_eq_false_iff] at h

/-- A line that nobody works on or waits for is held back from nobody. -/
theorem lineFree_held {s : State} {line : Nat} (h : lineBusy s line = false) : ((txnOf s line).isSome || (!false && waitedFor s line)) = false := by
  obtain ⟨ht, hw⟩ := lineBusy_false h
  rw [ht, hw]
  rfl

theorem roomFor_fits {s : State} {line : Nat} (h : (dirEntry s line).isSome = true ∨ setUsed s line < dirWays) (r : CohReq) :
    roomFor line r s = (true, s) :=
  if_pos (by rwa [Bool.or_eq_true, decide_eq_true_eq])

/-- A caching request of a free line that finds room runs its transaction. -/
theorem caching_free {s : State} {line : Nat} (hb : lineBusy s line = false) (hr : txnRoom s = true)
    (hset : (dirEntry s line).isSome = true ∨ setUsed s line < dirWays) (r : CohReq) (f : State → State) :
    caching line false r f s = f (dirLookup line s) := by
  rw [caching, if_neg (Bool.eq_false_iff.1 (lineFree_held hb)), if_neg (by simp [hr]), roomFor_fits hset]

/-! Shared and ownership requests (R323, R335) -/

section Request

variable {s s1 s2 s3 : State} {p : Packet}

theorem admitAgent_cached {x : Nat} (hc : cacheable s (msgOff p) (some x) = true) (hb : lineBusy s (lineOf (msgOff p)) = false) (hr : txnRoom s = true)
    (hset : (dirEntry s (lineOf (msgOff p))).isSome = true ∨ setUsed s (lineOf (msgOff p)) < dirWays) (port : Nat) :
    admitAgent port p (some x) false s = agentCached port p x (dirLookup (lineOf (msgOff p)) s) := by
  rw [admitAgent]
  exact (if_pos hc).trans (caching_free hb hr hset _ _)

/-- A request that may not be granted a state is served uncached and counted (R323). -/
theorem admitAgent_uncached {x : Option Nat} (hc : cacheable s (msgOff p) x = false) (port : Nat) :
    admitAgent port p x false s = agentUncached port p x false (bump Reg.cohUncached (partAt s (msgOff p)) s) := by
  cases x with
  | none => rfl
  | some x => simp [admitAgent, hc]

theorem homeRdShared_passed {x : Option Nat} (hc : agentChecks p s = (none, s1)) (hx : senderSlot p.src.toNat s1 = (x, s2)) (port : Nat) :
    homeRdShared port p s = admitAgent port p x false s2 := by
  simp only [homeRdShared, hc, hx]

theorem homeRdOwn_passed {x : Option Nat} (hc : agentChecks p s = (none, s1)) (hg : writeGuards (msgOff p) (.agent p.src.toNat) s1 = (true, s3))
    (hx : senderSlot p.src.toNat s3 = (x, s2)) (port : Nat) : homeRdOwn port p s = admitAgent port p x false s2 := by
  simp only [homeRdOwn, hc, hg, hx]

end Request

/-! Write-backs and Evicts (R338) -/

section WriteBack

variable {s s1 s2 : State} {p : Packet} {line x : Nat}

/-- A write-back of the recorded owner writes the line; the entry goes, or keeps the writer alone. -/
theorem writeBack_owner (ho : ownerOf s line = some x) (hl : slotLost s x = false) (keep : Bool) (data : List (Option Byte)) :
    writeBack line x keep data s = let s1 := (storeCells (line * 64) data s).2
      (true, setEntry line (if keep then some (if slotKind s1 x = 0 then lead x [x] else shared [x]) else none) s1) :=
  if_pos ⟨ho, by simp [hl]⟩

/-- Any other is stale: it is discarded and counted. -/
theorem writeBack_stale (h : ownerOf s line ≠ some x ∨ slotLost s x = true) (keep : Bool) (data : List (Option Byte)) :
    writeBack line x keep data s = (false, bump Reg.cohStaleWb 0 s) :=
  if_neg fun ⟨ho, hl⟩ => h.elim (fun h => h ho) fun h => by simp [h] at hl

theorem homeWrBack_passed (hc : agentChecks p s = (none, s1)) (hb : lineBusy s1 (lineOf (msgOff p)) = false)
    (hx : holderSlot (lineOf (msgOff p)) p (dirLookup (lineOf (msgOff p)) s1) = (some x, s2)) (hg : writeGate s2 (msgOff p) = .go) (port : Nat) :
    homeWrBack port p s = let r := writeBack (lineOf (msgOff p)) x (p.type.toNat == tWRBACKS) ((slice p.payload 0 64).map some) s2
      agentCmp p (hurtLine (lineOf (msgOff p)) (r.1 && p.pois.getLsbD 0) r.2) := by
  rw [homeWrBack, hc]
  dsimp only
  rw [admitWrBack, lineFree_held hb]
  simp only [Bool.false_eq_true, if_false, hx, hg]

theorem homeEvict_passed (hc : agentChecks p s = (none, s1)) (hb : lineBusy s1 (lineOf (msgOff p)) = false)
    (hx : holderSlot (lineOf (msgOff p)) p (dirLookup (lineOf (msgOff p)) s1) = (some x, s2)) (port : Nat) :
    homeEvict port p s = agentCmp p (evictNotice (lineOf (msgOff p)) x s2) := by
  rw [homeEvict, hc]
  dsimp only
  rw [admitEvict, lineFree_held hb]
  simp only [Bool.false_eq_true, if_false, hx]

end WriteBack

/-- Settles O34: each request from its checks to its transaction, its uncached service or its acknowledgement. -/
theorem coherenceRequests : Obligations.CoherenceRequests := by
  unfold Obligations.CoherenceRequests
  refine ⟨?cached, ?uncached, fun s port p x q hw ht hd => ?empty, fun port p x s => rfl, ?back⟩
  case cached =>
    intro s s1 s2 port p dir x harr hc line runs
    refine ⟨fun hx ⟨hca, hb, hr, hset⟩ => ?_, fun s3 hg hx ⟨hca, hb, hr, hset⟩ => ?_⟩
    · exact exec_arriveTo harr ((homeRdShared_passed hc hx port).trans (admitAgent_cached hca hb hr hset port))
    · have hown := (homeRdOwn_passed hc hg hx port).trans (admitAgent_cached hca hb hr hset port)
      exact ⟨exec_arriveTo harr hown, exec_arriveTo harr hown⟩
  case uncached =>
    intro s s1 s2 port p dir x harr hc hca u
    refine ⟨fun hx => exec_arriveTo harr ((homeRdShared_passed hc hx port).trans (admitAgent_uncached hca port)), fun s3 hg hx => ?_⟩
    have hown := (homeRdOwn_passed hc hg hx port).trans (admitAgent_uncached hca port)
    exact ⟨exec_arriveTo harr hown, exec_arriveTo harr hown⟩
  case empty =>
    rw [agentUncached]
    exact coherent_empty hw ht hd (msgOff p) 64 false q (.agent port p x) _
  case back =>
    intro s s1 s2 port p dir x harr hc line hb hx s3 took stale
    refine ⟨fun hg => ?_, exec_arriveTo harr (homeEvict_passed hc hb hx port)⟩
    have hback := homeWrBack_passed hc hb hx hg port
    refine ⟨fun ho hl => ?_, fun h => ?_⟩
    · rw [writeBack_owner ho hl] at hback
      exact ⟨fun hty => exec_arriveTo harr (hback.trans (by rw [hty]; rfl)), fun hty => exec_arriveTo harr (hback.trans (by rw [hty]; rfl))⟩
    · rw [writeBack_stale h] at hback
      exact ⟨exec_arriveTo harr hback, exec_arriveTo harr hback⟩

end Sys2Proof.Machine
end

section
/-! Answers to the home, and the snoops and grants of other homes (O35). -/

namespace Sys2Proof.Machine

open Sys2Proof

/-! GrantAck (R332) -/

section Txn

variable {s : State} {p : Packet}

theorem homeGrantAck_none (h : txnOf s (lineOf (msgOff p)) = none) : homeGrantAck p s = s := by
  rw [homeGrantAck, h]

theorem homeRecallAck_none (h : txnOf s (lineOf (msgOff p)) = none) : homeRecallAck p s = s := by
  rw [homeRecallAck, h]

variable {t : Txn}

theorem awaitedSlot_awaited {n : Nat} (hn : awaitedSlot s t p = some n) : t.await.any (fun a => a.1 = n) = true := by
  obtain ⟨a, ha, rfl⟩ := Option.map_eq_some_iff.1 hn
  simpa using ⟨a.2, List.mem_of_find?_eq_some ha⟩

variable (ht : txnOf s (lineOf (msgOff p)) = some t)
include ht

/-- What the requester's GrantAck does to its transaction. -/
theorem homeGrantAck_requester {q : Packet} {k : Nat} {y : Option Nat} (hr : t.req = some (.agent k q y)) (hsrc : q.src = p.src) : homeGrantAck p s =
    if t.grantAck then endTxn (lineOf (msgOff p)) s else if t.forward then txnMod (lineOf (msgOff p)) (fun t => { t with early := true }) s else s := by
  rw [homeGrantAck, ht]
  simp only [hr, hsrc, reqEp, Option.map_some, if_true]

/-! RecallAck and the timeout of a recall (R338, R342, R343) -/

theorem homeRecallAck_awaited {n : Nat} (hn : awaitedSlot s t p = some n) : homeRecallAck p s =
    graced t.grace (lineOf (msgOff p) * 64) 64 (answerTaken (lineOf (msgOff p)) n t (fld p.arg 2 2 == 2)
      (if fld p.arg 2 2 = 1 then some (slice p.payload 0 64, p.pois.getLsbD 0) else none)) s := by
  rw [homeRecallAck, ht]
  simp only [hn]
  rw [recallAnswer, ht]
  exact if_pos (awaitedSlot_awaited hn)

end Txn

/-- What a RecallAck does by its RESULT: 1 brings the dirty data, 2 says that the line is not held. -/
theorem answerTaken_result (line n result : Nat) (t : Txn) (d : List Byte × Bool) (u : State) :
    answerTaken line n t (result == 2) (if result = 1 then some d else none) u =
      let drop := result == 2 || t.row == TxnRow.ow || t.row == TxnRow.iw || t.row == TxnRow.de
      let u1 := if result = 1 then hurtLine line d.2 (memPut (line * 64) d.1 (copyOnWrite (line * 64 / pageSize) u)).2 else u
      let u2 := if result = 2 then bump Reg.cohNotHeld 0 u1 else u1
      resolveTxn line (txnMod line (fun t => { t with await := t.await.filter fun a => a.1 ≠ n, gone := if drop then n :: t.gone else t.gone }) u2) := by
  by_cases h1 : result = 1
  · subst h1; rfl
  · by_cases h2 : result = 2
    · subst h2; rfl
    · simp [answerTaken, h1, h2]

theorem recallExpire_due {s : State} {line n : Nat} {t : Txn} (ht : txnOf s line = some t) (hn : (n, 0) ∈ t.await) : recallExpire line n s =
    graced t.grace (line * 64) 64 (fun u => resolveTxn line (holderLost line n (txnMod line (fun t => { t with await := t.await.filter fun a => a.1 ≠ n }) u)))
      (slotMod n (fun x => { x with lost := true }) s) := by
  have hdue : t.await.any (fun a => a.1 == n && a.2 == 0) = true := List.any_eq_true.2 ⟨_, hn, by simp⟩
  have hany : t.await.any (fun a => a.1 = n) = true := List.any_eq_true.2 ⟨_, hn, by simp⟩
  rw [recallExpire, ht]
  refine (if_pos hdue).trans ?_
  rw [recallTimedOut, ht]
  exact if_pos hany

/-! Grants of other homes (R322) -/

section Granted

variable {s : State} {p : Packet} {r : Req} {hp tag op : Nat}

/-- A grant other than I is acknowledged (R332). -/
def grantAcked (p : Packet) (u : State) : State := if fld p.arg 0 2 = gI then u else send (answer u p tGRANTACK p.addr 0 []) u

variable (hr : reqOf (heardFrom p.src.toNat s) p.tid = some r) (ho : r.owner = .cxl hp tag op)
include hr ho

theorem takeData_host : takeData p s = grantAcked p (emit (.cxlData hp tag (slice p.payload 0 64) (p.pois != 0) (hostGrant (fld p.arg 0 2)))
    (hostGranted hp r (fld p.arg 0 2) (endReq r.tag (heardFrom p.src.toNat s)))) := by
  simp only [takeData, hr, ho, grantAcked]

theorem takeCmp_host : takeCmp p s = grantAcked p (emit (.cxlCmp hp tag (hostGrant (fld p.arg 0 2)))
    (hostGranted hp r (fld p.arg 0 2) (endReq r.tag (heardFrom p.src.toNat s)))) := by
  simp only [takeCmp, hr, ho, grantAcked]

end Granted

/-- A recall by another home, with the hosts that can be snooped for it. -/
theorem hubSnooped_cases (p : Packet) (share : Bool) (s : State) : hubSnooped p share s =
    let ports := snoopPorts s p.src.toNat (msgOff p)
    let n : Snoop := { ports := ports, home := p.src.toNat, off := msgOff p, tid := p.tid.toNat, share := share, held := false, dirty := none }
    let s1 := ownedSet 0 p.src.toNat (msgOff p) false (ownedSet 1 p.src.toNat (msgOff p) false s)
    if ports = [] then snoopAck n s1
    else ports.foldl (fun s q => emit (.cxlSnoop q.1 q.2 share) s) { s1 with host := { s1.host with snoops := s1.host.snoops ++ [n] } } := by
  simp only [hubSnooped, List.isEmpty_iff]

/-- Settles O35: each answer where its transaction stands and where none does, then what this hub does for its hosts. -/
theorem coherenceAnswers : Obligations.CoherenceAnswers := by
  unfold Obligations.CoherenceAnswers
  refine ⟨fun s port p t q k y harr ht hr hsrc => ?grantAck, fun s port p harr ht => ⟨exec_arriveTo harr (homeGrantAck_none ht), exec_arriveTo harr (homeRecallAck_none ht)⟩,
    fun s port p t n harr ht hn => ?recallAck, fun s line slot t hal ht hn => exec_actTo hal (recallExpire_due ht hn), fun s port p share harr => ?snoop,
    fun s port p r hp tag op harr hr ho => ⟨exec_arriveTo harr (takeData_host hr ho), exec_arriveTo harr (takeCmp_host hr ho)⟩⟩
  case grantAck =>
    have hack := homeGrantAck_requester ht hr hsrc
    refine ⟨fun hg => exec_arriveTo harr ?_, fun hg hf => exec_arriveTo harr ?_⟩
    · rw [hack, if_pos hg, endTxn_open ht]
    · rw [hack, if_neg (by simp [hg]), if_pos hf]
  case recallAck =>
    intro line result drop
    refine exec_arriveTo harr ((homeRecallAck_awaited ht hn).trans (congrArg (fun f => graced t.grace (line * 64) 64 f s) (funext fun u => ?_)))
    exact answerTaken_result line n result t _ u
  case snoop =>
    intro ports n s1 u
    have hu : hubSnooped p share s = u := hubSnooped_cases p share s
    exact ⟨fun h => by subst h; exact exec_arriveTo harr hu, fun h => by subst h; exact exec_arriveTo harr hu⟩

end Sys2Proof.Machine
end

section
/-! CXL.mem requests of hosts, here and towards other homes (O37). -/

namespace Sys2Proof.Machine

open Sys2Proof

/-! From the host's address to the home (R401, R402) -/

section Route

variable {s s1 s2 : State} {hp op hpa tag fa part ep off : Nat} {mv : MetaValue} {data : List Byte} {be : W64} {bad : Bool}

theorem cxlRequest_off (hr : cxlRuns s hp = false) : cxlRequest hp op hpa mv data be bad tag s = s := by
  simp only [cxlRequest, hr, Bool.not_false, if_true]

theorem cxlEvict_off (hr : cxlRuns s hp = false) : cxlEvict hp hpa tag s = s := by
  simp only [cxlEvict, hr, Bool.not_false, if_true]

/-- The right a request needs: a write or an ownership request needs that of a write. -/
def cxlRight (op : Nat) (mv : MetaValue) : Nat := if op = 1 ∨ mv = .a then 1 else 0

variable (hr : cxlRuns s hp = true) (hf : fatal s = false)
include hr hf

theorem cxlRequest_unmapped (hd : hdmFind s hp hpa = none) : cxlRequest hp op hpa mv data be bad tag s = cxlFail hp op tag (dropHost hp s) := by
  simp only [cxlRequest, hr, hf, hd, Bool.not_true, Bool.false_eq_true, if_false]

theorem cxlEvict_unmapped (hd : hdmFind s hp hpa = none) : cxlEvict hp hpa tag s = emit (.cxlCmp hp tag gI) (dropHost hp s) := by
  simp only [cxlEvict, hr, hf, hd, Bool.not_true, Bool.false_eq_true, if_false]

variable (hd : hdmFind s hp hpa = some (fa, part))
include hd

section Request

variable (hi : intakeStopped s part = false) (hc : commitHolds s (fa / 64 * 64) = false) (hu : unitStopped s 8 (some part) = false)
  (hres : resolve (fa / 64 * 64) part (cxlRight op mv) s = (.home ep off, s1))
include hi hc hu hres

theorem cxlRequest_here (he : ep = selfEp s1) : cxlRequest hp op hpa mv data be bad tag s = cxlLocal hp op off part mv data be bad tag s1 := by
  rw [cxlRight] at hres
  simp only [cxlRequest, hr, hf, hd, hi, hc, hu, hres, he, Bool.not_true, Bool.false_and, Bool.false_eq_true, if_false, if_true]

theorem cxlRequest_sendWrite (he : ep ≠ selfEp s1) (hop : op = 1) :
    cxlRequest hp op hpa mv data be bad tag s = cxlSendWrite hp ep off (fa / 64 * 64) part mv data be bad tag s1 := by
  rw [cxlRight] at hres
  simp only [cxlRequest, hr, hf, hd, hi, hc, hu, hres, he, Bool.not_true, Bool.false_and, Bool.false_eq_true, if_false]
  exact if_pos hop

theorem cxlRequest_sent (he : ep ≠ selfEp s1) (hop : op ≠ 1) (hsent : sendReq (mkReq (stampKey s1 part (cxlPacket s1 op ep off mv)) (some (fa / 64 * 64))
    (cxlRight op mv) part (.cxl hp tag op)) s1 = (.gone, s2)) : cxlRequest hp op hpa mv data be bad tag s = s2 := by
  rw [cxlRight] at hres hsent
  simp only [cxlRequest, hr, hf, hd, hi, hc, hu, hres, he, Bool.not_true, Bool.false_and, Bool.false_eq_true, if_false]
  rw [if_neg hop, hsent]

end Request

section Evict

variable (hres : resolve (fa / 64 * 64) part 0 s = (.home ep off, s1))
include hres

theorem cxlEvict_here (he : ep = selfEp s1) : cxlEvict hp hpa tag s = cxlClean hp (lineOf off) .i tag false s1 := by
  simp only [cxlEvict, hr, hf, hd, hres, he, Bool.not_true, Bool.false_eq_true, if_false, if_true]

theorem cxlEvict_sent (he : ep ≠ selfEp s1) (hsent : sendReq (mkReq (stampKey s1 part (cxlPacket s1 3 ep off .i)) (some (fa / 64 * 64)) 0 part (.cxl hp tag 3))
    (ownedSet hp ep off false s1) = (.gone, s2)) : cxlEvict hp hpa tag s = s2 := by
  simp only [cxlEvict, hr, hf, hd, hres, he, hsent, Bool.not_true, Bool.false_eq_true, if_false]

end Evict

end Route

theorem mkPacket_addr (s : State) (type dst : Nat) (addr arg : W64) (payload : List Byte) : (mkPacket s type dst addr arg payload).addr = addr := rfl

/-- A whole line that its host owns and nobody snoops goes to its home as one write-back. -/
theorem cxlSendWrite_owned {s s2 : State} {hp ep off : Nat} (ho : hostOwns s hp ep off = true)
    (hs : (s.host.snoops.any fun n => n.ports.any (fun q => q.1 == hp) && n.home == ep && n.off == off) = false) (fa part tag : Nat) (mv : MetaValue)
    (data : List Byte) (bad : Bool)
    (hsent : let p : Packet := { mkPacket s (if mv = .s then tWRBACKS else tWRBACK) ep (w64 off) 0 (slice data 0 64) with pois := w64 (b2n bad) }
      sendReq (mkReq (stampKey (ownedSet hp ep off false s) part p) (some (fa + ((w64 off).toNat - off))) 1 part (.cxl hp tag 1)) (ownedSet hp ep off false s) =
        (.gone, s2)) : cxlSendWrite hp ep off fa part mv data (BitVec.allOnes 64) bad tag s = s2 := by
  simp only [cxlSendWrite, hs, ho, beq_self_eq_true, Bool.or_true, Bool.and_self, Bool.false_eq_true, if_true, if_false, List.foldl_cons, List.foldl_nil]
  simp only [mkPacket_addr] at hsent ⊢
  simp only [hsent, if_true]

/-! Back-invalidation answers (R322, R338, Table 9-4) -/

section BiRsp

variable {s : State} {hp hpa : Nat} (hr : cxlRuns s hp = true)
include hr

theorem biResponse_snoop {n : Snoop} (hn : (s.host.snoops.find? fun n => n.ports.contains (hp, hpa)) = some n) (r : BiRsp) :
    biResponse hp hpa r s = snoopAnswered n hp (r != .i) s := by
  simp only [biResponse, hr, hn, Bool.not_true, Bool.false_eq_true, if_false]

theorem biResponse_home (hn : (s.host.snoops.find? fun n => n.ports.contains (hp, hpa)) = none) {fa part off x : Nat} {t : Txn}
    (hd : hdmFind s hp hpa = some (fa, part)) (hres : resolveIn s.fab.current (fa / 64 * 64) (fkey s part) 0 = .home (selfEp s) off)
    (hx : slotOfHost s hp = some x) (ht : txnOf s (lineOf off) = some t) (r : BiRsp) :
    biResponse hp hpa r s = recallAnswer (lineOf off) x (r == .i && !t.wrote) none
      (if r = .i then txnMod (lineOf off) (fun t => { t with gone := x :: t.gone }) s else s) := by
  simp only [biResponse, hr, hn, hd, hres, hx, ht, Bool.not_true, Bool.false_eq_true, if_false, if_true]

end BiRsp

/-! A request at its home (R323, R335, R566) -/

section Home

variable {s s1 : State} {hp op off part tag line x : Nat} {mv : MetaValue} {data : List Byte} {be : W64} {bad : Bool}

section Local

variable {a : Nat} (ha : addrOf s off 64 = .store a) (hk : fkey s (addrPart s (.store a)) = fkey s part) (hu : homeStopped s (.store a) off 64 none = false)
include ha hk hu

theorem cxlLocal_write (hop : op = 1) : cxlLocal hp op off part mv data be bad tag s = cxlWrite hp (lineOf off) mv data be bad tag false s := by
  simp only [cxlLocal, ha, hk, hu, ne_eq, not_true, Bool.false_eq_true, if_false]
  exact if_pos hop

theorem cxlLocal_read (hop : op ≠ 1) (hmv : mv ≠ .a) : cxlLocal hp op off part mv data be bad tag s = cxlRead hp (lineOf off) mv tag (op == 2) false s := by
  simp only [cxlLocal, ha, hk, hu, hop, hmv, ne_eq, not_true, Bool.false_eq_true, if_false]

theorem cxlLocal_own (hop : op ≠ 1) (hmv : mv = .a) (hg : writeGuards off (.host hp) s = (true, s1)) :
    cxlLocal hp op off part mv data be bad tag s = cxlRead hp (lineOf off) mv tag (op == 2) false s1 := by
  simp only [cxlLocal, ha, hk, hu, hop, hmv, hg, ne_eq, not_true, Bool.false_eq_true, if_false, if_true]

theorem cxlLocal_refused (hop : op ≠ 1) (hmv : mv = .a) (hg : writeGuards off (.host hp) s = (false, s1)) :
    cxlLocal hp op off part mv data be bad tag s = cxlFail hp op tag s1 := by
  simp only [cxlLocal, ha, hk, hu, hop, hmv, hg, ne_eq, not_true, Bool.false_eq_true, if_false, if_true]

end Local

/-- A read that is served once, for no state of the host's cache. -/
def cxlServe (hp line tag : Nat) (inv : Bool) (s : State) : State :=
  if inv then emit (.cxlCmp hp tag gI) s
  else let (bs, bad, s) := lineData line (countRead (line * 64) 64 s); emit (.cxlData hp tag bs bad gI) s

/-- A read that asks for no state. -/
theorem cxlRead_stateless (line tag : Nat) (inv q : Bool) (s : State) : cxlRead hp line .i tag inv q s =
    coherent (line * 64) 64 false q (.host hp (if inv then 2 else 0) line .i tag [] 0 false) (cxlServe hp line tag inv) s := by
  rw [cxlRead]
  exact if_pos rfl

/-- A host that may not cache the line is served uncached, and counted (R323). -/
theorem cxlRead_uncached (hmv : mv ≠ .i) (hc : cacheable s (line * 64) (slotOfHost s hp) = false) (tag : Nat) (inv q : Bool) : cxlRead hp line mv tag inv q s =
    coherent (line * 64) 64 false q (.host hp (if inv then 2 else 0) line mv tag [] 0 false) (cxlServe hp line tag inv)
      (bump Reg.cohUncached (partAt s (line * 64)) s) := by
  rw [cxlRead]
  refine (if_neg hmv).trans ?_
  cases hx : slotOfHost s hp with
  | none => rfl
  | some x => exact if_neg (by simp [← hx, hc])

theorem cxlRead_cached (hx : slotOfHost s hp = some x) (hmv : mv ≠ .i) (hc : cacheable s (line * 64) (some x) = true) (hb : lineBusy s line = false)
    (hr : txnRoom s = true) (hset : (dirEntry s line).isSome = true ∨ setUsed s line < dirWays) (tag : Nat) (inv : Bool) :
    cxlRead hp line mv tag inv false s =
      let r := CohReq.host hp (if inv then 2 else 0) line mv tag [] 0 false
      if mv = .a then ownRead line x inv r (countAccess (line * 64) 64 true (dirLookup line s))
      else sharedRead line x true r (countRead (line * 64) 64 (dirLookup line s)) := by
  rw [cxlRead]
  refine (if_neg hmv).trans ?_
  rw [hx]
  exact (if_pos hc).trans (caching_free hb hr hset _ _)

theorem cxlClean_free (hx : slotOfHost s hp = some x) (hb : lineBusy s line = false) (mv : MetaValue) (tag : Nat) :
    cxlClean hp line mv tag false s = emit (.cxlCmp hp tag gI) (evictNotice line x (dirLookup line s)) := by
  rw [cxlClean, lineFree_held hb, hx]
  rfl

/-! Writes (R83, R334, R338) -/

/-- The write of a host that is being recalled from brings the line's data. -/
theorem cxlWrite_snooped {t : Txn} (hx : slotOfHost s hp = some x) (ht : txnOf s line = some t) (ha : t.await.any (fun a => a.1 = x) = true)
    (ho : ownerOf s line = some x) : cxlWrite hp line mv data be bad tag false s =
      emit (.cxlCmp hp tag gI) (txnMod line (fun t => { t with wrote := true }) (hurtLine line bad (storeCells (line * 64) (beCells data be) s).2)) := by
  rw [cxlWrite, hx, ht]
  exact if_pos (by simp only [ha, ho, beq_self_eq_true, Bool.and_self])

section Free

theorem txnOf_free (hb : lineBusy s line = false) : txnOf s line = none :=
  Option.isNone_iff_eq_none.1 (Option.isSome_eq_false_iff.1 (lineBusy_false hb).1)

variable (hb : lineBusy s line = false)
include hb

/-- A write of a free line meets the gate of its page. -/
theorem cxlWrite_held {g : Gate} (hg : writeGate s (line * 64) = g) (h : g = .hold ∨ g = .snapWait) :
    cxlWrite hp line mv data be bad tag false s = holdAt (line * 64) g (.cxl hp line mv tag data be bad) s := by
  rw [cxlWrite, lineFree_held hb, txnOf_free hb, hg]
  rcases h with rfl | rfl <;> rfl

variable (hg : writeGate s (line * 64) = .go)
include hg

/-- The recorded owner's write is a write-back. -/
theorem cxlWrite_owner (hx : hostOwner s hp line = some x) : cxlWrite hp line mv data be bad tag false s =
    emit (.cxlCmp hp tag gI) (hurtLine line bad (writeBack line x (mv == .s) (beCells data be) (dirLookup line s)).2) := by
  rw [cxlWrite, lineFree_held hb, txnOf_free hb, hg, hx]
  rfl

variable (hx : hostOwner s hp line = none)
include hx

theorem cxlWrite_refused (hgu : writeGuards (line * 64) (.host hp) s = (false, s1)) :
    cxlWrite hp line mv data be bad tag false s = emit (.cxlCmp hp tag gI) s1 := by
  rw [cxlWrite, lineFree_held hb, txnOf_free hb, hg, hx, hgu]
  rfl

/-- Any other write invalidates every copy first (row IW). -/
theorem cxlWrite_invalidating (hgu : writeGuards (line * 64) (.host hp) s = (true, s1)) : cxlWrite hp line mv data be bad tag false s =
    coherent (line * 64) 64 true true (.host hp 1 line mv tag data be bad)
      (fun s => emit (.cxlCmp hp tag gI) (hurtLine line bad (storeCells (line * 64) (beCells data be) s).2)) s1 := by
  rw [cxlWrite, lineFree_held hb, txnOf_free hb, hg, hx, hgu]
  rfl

end Free

end Home

/-- Settles O37: a request from its host address to its home or to another's, the answers to snoops, then what its home does with it. -/
theorem cxlMemRequests : Obligations.CxlMemRequests := by
  unfold Obligations.CxlMemRequests
  refine ⟨fun s hp hpa mv data be bad tag dir hal => ⟨exec_actTo hal rfl, exec_actTo hal rfl, exec_actTo hal rfl, exec_actTo hal rfl⟩, ?route,
    fun s s2 hp ep off fa part tag mv data bad ho hs hsent => cxlSendWrite_owned ho hs fa part tag mv data bad hsent,
    fun s hp line x tag mv hx hb => cxlClean_free hx hb mv tag, fun s hp hpa r hal hr => ⟨fun n hn => ?snoop, ?home⟩,
    fun s hp hpa hal => ⟨fun hr => exec_actTo hal (if_pos hr), fun hr => exec_actTo hal (if_neg (by simp [hr]))⟩, ?here, ?uncached,
    fun s hp line x tag mv inv hx hmv hc hb hr hset => cxlRead_cached hx hmv hc hb hr hset tag inv, ?write⟩
  case route =>
    intro s hp op hpa tag mv data be bad
    refine ⟨fun hr => ⟨cxlRequest_off hr, cxlEvict_off hr⟩, fun hr hf => ⟨fun hd => ⟨cxlRequest_unmapped hr hf hd, cxlEvict_unmapped hr hf hd⟩, fun fa part hd => ⟨?_, ?_⟩⟩⟩
    · intro hi hc hu ep off s1 right hres
      exact ⟨cxlRequest_here hr hf hd hi hc hu hres, cxlRequest_sendWrite hr hf hd hi hc hu hres,
        fun he hop s2 hsent => cxlRequest_sent hr hf hd hi hc hu hres he hop hsent⟩
    · exact fun ep off s1 hres => ⟨cxlEvict_here hr hf hd hres, fun he s2 hsent => cxlEvict_sent hr hf hd hres he hsent⟩
  case snoop =>
    refine exec_actTo hal ((biResponse_snoop hr hn r).trans ?_)
    simp only [snoopAnswered, List.isEmpty_iff]
  case home =>
    exact fun hn fa part off x t hd hres hx ht => exec_actTo hal (biResponse_home hr hn hd hres hx ht r)
  case here =>
    intro s hp op off part mv data be bad tag a ha hk hu
    exact ⟨cxlLocal_write ha hk hu, cxlLocal_read ha hk hu, fun s1 hop hmv => cxlLocal_own ha hk hu hop hmv, fun s1 hop hmv => cxlLocal_refused ha hk hu hop hmv⟩
  case uncached =>
    intro s u hp line tag mv inv q h
    obtain ⟨rfl, rfl⟩ | ⟨hmv, hc, rfl⟩ := h
    · exact cxlRead_stateless line tag inv q u
    · exact cxlRead_uncached hmv hc tag inv q
  case write =>
    intro s hp line mv data be bad tag
    refine ⟨fun x t hx ht ha ho => cxlWrite_snooped hx ht ha ho, fun hb => ⟨cxlWrite_held hb rfl, fun hg => ⟨fun x hx => cxlWrite_owner hb hg hx, ?_, ?_⟩⟩⟩
    · exact fun s1 hx hgu => cxlWrite_refused hb hg hx hgu
    · exact fun s1 hx hgu => cxlWrite_invalidating hb hg hx hgu

end Sys2Proof.Machine
end

section
/-! The checks of a request at its home (O27). -/

namespace Sys2Proof.Machine

open Sys2Proof

section HomeChecks

variable {s : State} {p : Packet} {n : Nat} {tally : Option Nat} {t o : Nat} {a : Addr}

theorem homeChecks_fatal (hf : fatal s = true) : homeChecks p n tally s = (some .reset, s) := if_pos hf

theorem homeChecks_decode (hf : fatal s = false) (ha : addrOf s p.addr.toNat n = .decode) : homeChecks p n tally s = (some .decode, s) := by
  rw [homeChecks, hf, ha]
  rfl

/-- No request is served in the hub's window (R25). -/
theorem homeChecks_hub (hf : fatal s = false) (ha : addrOf s p.addr.toNat n = .hub) :
    homeChecks p n tally s = (some .decode, bump Reg.fabRefused (keyPart s p.key) s) := by
  rw [homeChecks, hf, ha]
  rfl

/-- What is still checked of a request of the right KEY that names no tally, or one of the right KEY (R566, steps 4 and 5). -/
def epochAndUnits (p : Packet) (n : Nat) (tally : Option Nat) (a : Addr) (s : State) : Option Status × State :=
  if epochOk s p.epoch = false then (some .staleEpoch, s) else if homeStopped s a p.addr.toNat n tally then (some .parity, s) else (none, s)

theorem epochAndUnits_state (a : Addr) : (epochAndUnits p n tally a s).2 = s := by
  unfold epochAndUnits
  split_ifs <;> rfl

section Reached

variable (hf : fatal s = false) (ha : addrOf s p.addr.toNat n = a) (hd : a ≠ .decode) (hh : a ≠ .hub)
include hf ha hd hh

theorem homeChecks_otherKey (hk : fkey s (addrPart s a) ≠ p.key) :
    homeChecks p n tally s = (some .ownership, bump Reg.fabRefused (addrPart s a) s) := by
  unfold homeChecks
  cases a <;> simp_all

variable (hk : fkey s (addrPart s a) = p.key)
include hk

theorem homeChecks_noOwner (ht : tallyPart s t = none) :
    homeChecks p n (some t) s = (some .ownership, bump Reg.tallyRefused (addrPart s a) s) := by
  unfold homeChecks
  cases a <;> simp_all

theorem homeChecks_otherTally (ht : tallyPart s t = some o) (ho : fkey s o ≠ p.key) :
    homeChecks p n (some t) s = (some .ownership, bump Reg.tallyRefused o (bump Reg.fabRefused o s)) := by
  unfold homeChecks
  cases a <;> simp_all

theorem homeChecks_keyed (ht : ∀ t, tally = some t → ∃ o, tallyPart s t = some o ∧ fkey s o = p.key) :
    homeChecks p n tally s = epochAndUnits p n tally a s := by
  unfold homeChecks epochAndUnits
  cases tally with
  | none => cases a <;> simp_all
  | some t =>
    obtain ⟨o, hp, ho⟩ := ht t rfl
    cases a <;> simp_all

end Reached

theorem homeChecks_passed (h : (homeChecks p n tally s).1 = none) : (homeChecks p n tally s).2 = s := by
  cases hf : fatal s with
  | true => rw [homeChecks_fatal hf]
  | false =>
    by_cases hd : addrOf s p.addr.toNat n = .decode
    · rw [homeChecks_decode hf hd]
    by_cases hh : addrOf s p.addr.toNat n = .hub
    · simp [homeChecks_hub hf hh] at h
    by_cases hk : fkey s (addrPart s (addrOf s p.addr.toNat n)) = p.key
    · by_cases ht : ∀ t, tally = some t → ∃ o, tallyPart s t = some o ∧ fkey s o = p.key
      · rw [homeChecks_keyed hf rfl hd hh hk ht, epochAndUnits_state]
      · push Not at ht
        obtain ⟨t, rfl, hother⟩ := ht
        cases hp : tallyPart s t with
        | none => simp [homeChecks_noOwner hf rfl hd hh hk hp] at h
        | some o => simp [homeChecks_otherTally hf rfl hd hh hk hp (hother o hp)] at h
    · simp [homeChecks_otherKey hf rfl hd hh hk] at h

end HomeChecks

/-- Settles O27, with one lemma for each way a request ends at its home's checks. -/
theorem homeChecksInOrder : Obligations.HomeChecksInOrder := by
  unfold Obligations.HomeChecksInOrder
  intro s p n tally
  refine ⟨homeChecks_fatal, homeChecks_decode, fun a hf ha => homeChecks_otherKey hf ha nofun nofun, ?noOwner, ?otherTally,
    fun a hf ha => homeChecks_keyed hf ha nofun nofun, homeChecks_passed⟩
  case noOwner =>
    rintro a t hf ha hk rfl ht
    exact homeChecks_noOwner hf ha nofun nofun hk ht
  case otherTally =>
    rintro a t o hf ha hk rfl ht ho
    exact homeChecks_otherTally hf ha nofun nofun hk ht ho

end Sys2Proof.Machine
end

section
/-! The ends of this hub's requests: answers, retries and timeouts (O29). -/

namespace Sys2Proof.Machine

open Sys2Proof

/-! Answers (R361, R363, R367, R382) -/

section Answers

variable {s : State} {p : Packet} {r : Req}

theorem takeAnswer_none (h : reqOf s p.tid = none) :
    takeRsp p s = lateAnswer p (heardFrom p.src.toNat s) ∧ takeAck p s = lateAnswer p (heardFrom p.src.toNat s) := by
  have e : reqOf (heardFrom p.src.toNat s) p.tid = none := h
  simp only [takeRsp, takeAck, e, and_self]

variable (hr : reqOf (heardFrom p.src.toNat s) p.tid = some r)
include hr

theorem takeAnswer_stale (hst : Status.ofCode (fld p.arg 0 8) = .staleEpoch) :
    takeRsp p s = staleAnswer r (heardFrom p.src.toNat s) ∧ takeAck p s = staleAnswer r (heardFrom p.src.toNat s) := by
  simp only [takeRsp, takeAck, hr, hst, if_true, and_self]

variable (hst : Status.ofCode (fld p.arg 0 8) ≠ .staleEpoch)
include hst

theorem takeAck_ends : takeAck p s = endWith r (Status.ofCode (fld p.arg 0 8)) p.addr [] (heardFrom p.src.toNat s) := by
  simp only [takeAck, hr, hst, if_false]

theorem takeRsp_lent (ho : r.owner = .lend) (hok : Status.ofCode (fld p.arg 0 8) = .ok) :
    takeRsp p s = endWith r .ok p.addr [] (lendTaken p.src.toNat (fld p.arg 16 10) (heardFrom p.src.toNat s)) := by
  rw [hok] at hst
  simp only [takeRsp, hr, ho, hok, hst, and_self, if_true, if_false]

variable (hl : r.owner ≠ .lend ∨ Status.ofCode (fld p.arg 0 8) ≠ .ok)
include hl

theorem takeRsp_data {bs : List Byte} (hraw : rawPayload (heardFrom p.src.toNat s) p = some bs) :
    takeRsp p s = endWith r (Status.ofCode (fld p.arg 0 8)) p.addr bs (heardFrom p.src.toNat s) := by
  simp only [takeRsp, hr, hst, not_and_or.2 hl, hraw, if_false]

theorem takeRsp_undecoded (hraw : rawPayload (heardFrom p.src.toNat s) p = none) :
    takeRsp p s = endWith r .codec (BitVec.allOnes 64) (List.replicate (pktLen r.p) 0) (heardFrom p.src.toNat s) := by
  simp only [takeRsp, hr, hst, not_and_or.2 hl, hraw, if_false]

end Answers

theorem staleAnswer_again {s : State} {r : Req} {fa : Nat} (hfa : r.fa = some fa) (h : 2 ≤ r.attempts) :
    staleAnswer r s = endWith r .staleEpoch 0 [] (bump Reg.fabStale r.part s) := by
  simp only [staleAnswer, hfa, h, if_true]

/-! RETRY and timeouts (R367, R369, R377) -/

/-- A request whose tag was marked by RETRY is marked no more: it is on its way again. -/
def unmarked (tag : Nat) (s : State) : State :=
  { s with fab := { s.fab with reqs := s.fab.reqs.map fun x => if x.tag = tag then { x with retrying := false } else x } }

theorem resend_marked {s : State} {tag : Nat} {r : Req} (h : (s.fab.reqs.find? fun r => r.tag == tag && r.retrying && decide (tag < unsentBase)) = some r) :
    resend tag s = if r.p.dst.toNat = selfEp s then emit (.packet loopback r.p) (unmarked tag s) else egress (tag / 4096) r.p (unmarked tag s) := by
  rw [resend, h]
  rfl

/-- One more timeout of an endpoint in a row (R369). -/
def timeoutCounted (ep : Nat) (s : State) : State :=
  { s with fab := { s.fab with timeouts := mset ep (mgetD 0 ep s.fab.timeouts + 1) s.fab.timeouts } }

theorem reqTimeout_due {s : State} {tag : Nat} {r : Req}
    (h : (s.fab.reqs.find? fun r => r.tag == tag && decide (r.limit ≤ r.edges) && decide (tag < unsentBase)) = some r) :
    reqTimeout tag s = let s2 := endWith r .timeout 0 [] (forgetReq r (bump Reg.fabTimeouts r.part (timeoutCounted r.p.dst.toNat s)))
      if lostTmos s2 ≤ mgetD 0 r.p.dst.toNat s.fab.timeouts + 1 then endpointLost r.p.dst.toNat s2 else s2 := by
  rw [reqTimeout, h]
  rfl

/-- Settles O29, with one lemma for each answer of a request and one for each event of its time. -/
theorem answersAndRetries : Obligations.AnswersAndRetries := by
  unfold Obligations.AnswersAndRetries
  refine ⟨fun s port p r bs harr hr hst hl hraw => exec_arriveTo harr (takeRsp_data hr hst hl hraw),
    fun s port p r harr hr hst => exec_arriveTo harr (takeAck_ends hr hst), ?undecoded, ?stale, fun s r fa hfa h => staleAnswer_again hfa h, ?late,
    fun s port p harr => ⟨_, exec_arriveTo harr rfl, rfl, rfl, rfl⟩, fun s tag r hal h => exec_actTo hal (resend_marked h),
    fun s tag r hal h => exec_actTo hal (reqTimeout_due h)⟩
  case undecoded =>
    exact fun s port p r harr hr hst => ⟨fun hl hraw => exec_arriveTo harr (takeRsp_undecoded hr hst hl hraw),
      fun ho hok => exec_arriveTo harr (takeRsp_lent hr hst ho hok)⟩
  case stale =>
    intro s port p r harr hr hst
    obtain ⟨hrsp, hack⟩ := takeAnswer_stale hr hst
    exact ⟨exec_arriveTo harr hrsp, exec_arriveTo harr hack⟩
  case late =>
    intro s port p harr hr
    obtain ⟨hrsp, hack⟩ := takeAnswer_none hr
    exact ⟨exec_arriveTo harr hrsp, exec_arriveTo harr hack⟩

end Sys2Proof.Machine
end

section
/-! The messages of the handoff ledger (O31). -/

namespace Sys2Proof.Machine

open Sys2Proof

/-! What an answer leaves of the ledger (R390) -/

@[simp] theorem putOnWire_fab (port seq : Nat) (p : Packet) (s : State) : (putOnWire port seq p s).fab = s.fab := by
  unfold putOnWire
  rw [emit_fab, bumpN_fab]
  exact List.foldlRecOn (motive := fun t : State => t.fab = s.fab) _ _ rfl fun t ht i _ => ht

@[simp] theorem choosePort_fab (c : Nat) (ps : List Nat) (s : State) : (choosePort c ps s).2.fab = s.fab := by
  unfold choosePort
  split <;> rfl

@[simp] theorem egress_ledger (port : Nat) (p : Packet) (s : State) : (egress port p s).fab.ledger = s.fab.ledger := by
  unfold egress
  split
  · rw [transmit, putOnWire_fab]
    rfl
  · rfl

@[simp] theorem send_ledger (p : Packet) (s : State) : (send p s).fab.ledger = s.fab.ledger := by
  unfold send route
  split
  · rfl
  · have h := choosePort_fab p.tc.toNat (pathSet s p.dst.toNat) s
    split <;> next e => simpa [e] using congrArg (·.ledger) h

@[simp] theorem reply_ledger (p : Packet) (s : State) : (reply p s).fab.ledger = s.fab.ledger := by
  unfold reply
  split
  · rfl
  · exact send_ledger p s

/-- The answer tells the entry's state and changes no entry. -/
theorem ledgerRsp_ledger (p : Packet) (id : Nat) (st : Status) (s : State) : (ledgerRsp p id st s).fab.ledger = s.fab.ledger := by
  unfold ledgerRsp
  dsimp only
  rw [reply_ledger]
  split <;> rfl

/-! Generations (R312) -/

section Generations

variable {s s1 : State} {p : Packet} {e : Partner}

theorem takeGen_fresh (he : partnerFor p.src.toNat s = (some e, s1)) (hnew : ∀ g, e.peerGen = some g → newer (cueGen p) g = true) :
    takeGen p s = (true, partnerSet p.src.toNat { e with peerGen := some (cueGen p), applied := 0 } s1) := by
  unfold takeGen
  cases hg : e.peerGen with
  | none => simp [he, hg]
  | some g => simp [he, hg, hnew g hg]

theorem takeHandoffGen_current (hg : takeGen p s = (true, s1)) (go : State → State) : takeHandoffGen p s go = go s1 := by
  unfold takeHandoffGen
  rw [hg]

theorem takeHandoffGen_older (hg : takeGen p s = (false, s1)) (go : State → State) : takeHandoffGen p s go = s1 := by
  unfold takeHandoffGen
  rw [hg]

end Generations

/-! Operations at the ledger (Table 10-11) -/

section Operations

variable {s0 s : State} {p : Packet} (hc : handoffCheck p s0 = (none, s0))
include hc

theorem homeOffer_passed (port : Nat) : homeOffer port p s0 = takeCue port p s0 := by rw [homeOffer, hc]

section Current

variable (hg : takeGen p s0 = (true, s))
include hg

theorem homeClaim_free (hpool : poolOf s p.src.toNat ≠ 0) (hnew : mhas (leAt p.payload 0 8) s.fab.ledger = false)
    (hok : claimOk s (leAt p.payload 8 8) (leAt p.payload 16 4) = true) (hroom : s.fab.ledger.length < ledgerCap) :
    homeClaim p s0 = ledgerRsp p (leAt p.payload 0 8) .ok (ledgerSet (leAt p.payload 0 8)
      (some { inTransit := false, pool := poolOf s p.src.toNat, base := leAt p.payload 8 8, pages := leAt p.payload 16 4, edges := 0 }) s) := by
  unfold homeClaim
  simp only [hc, takeHandoffGen_current hg, hpool, hnew, hok, Nat.not_le.2 hroom, Bool.not_true, Bool.false_eq_true, if_false]

/-- An operation that the caller's pool may do on the entry does it. -/
theorem ledgerOp_allowed {l : Ledger} {ok : Nat → Ledger → Bool} (hl : mget (leAt p.payload 0 8) s.fab.ledger = some l)
    (hpool : poolOf s p.src.toNat ≠ 0) (hok : ok (poolOf s p.src.toNat) l = true) (after : Nat → Ledger → Option Ledger) :
    ledgerOp p ok after s0 = ledgerRsp p (leAt p.payload 0 8) .ok (ledgerSet (leAt p.payload 0 8) (after (poolOf s p.src.toNat) l) s) := by
  unfold ledgerOp
  simp only [hc, takeHandoffGen_current hg, hl, hpool, hok, ne_eq, not_false_eq_true, and_self, if_true]

theorem homeLedgerQuery_current : homeLedgerQuery p s0 = ledgerRsp p (leAt p.payload 0 8) .ok s := by
  rw [homeLedgerQuery, hc]
  exact takeHandoffGen_current hg _

end Current

section Older

variable (hg : takeGen p s0 = (false, s))
include hg

theorem homeClaim_older : homeClaim p s0 = s := by
  rw [homeClaim, hc]
  exact takeHandoffGen_older hg _

theorem homeOffer_older (port : Nat) : homeOffer port p s0 = s := by rw [homeOffer_passed hc, takeCue, hg]

theorem ledgerOp_older (ok : Nat → Ledger → Bool) (after : Nat → Ledger → Option Ledger) : ledgerOp p ok after s0 = s := by
  rw [ledgerOp, hc]
  exact takeHandoffGen_older hg _

theorem homeLedgerQuery_older : homeLedgerQuery p s0 = s := by
  rw [homeLedgerQuery, hc]
  exact takeHandoffGen_older hg _

end Older

end Operations

theorem applyOffer_held {s : State} {p : Packet} {l : Ledger} (hl : mget (leAt p.payload 0 8) s.fab.ledger = some l) (hh : l.inTransit = false)
    (hp : poolOf s p.src.toNat = l.pool) (h0 : l.pool ≠ 0) :
    applyOffer p s = ledgerRsp p (leAt p.payload 0 8) .ok (ledgerSet (leAt p.payload 0 8) (some { l with inTransit := true, edges := 0 }) s) := by
  unfold applyOffer
  simp only [hl, hh, hp, h0, Bool.not_false, ne_eq, not_false_eq_true, and_self, if_true]

theorem ledgerRevert_due {s : State} {id : Nat} {l : Ledger} (hl : mget id s.fab.ledger = some l) (ht : l.inTransit = true) (hd : ledgerTmo s ≤ l.edges) :
    ledgerRevert id s = bump Reg.ledgerReverts 0 (ledgerSet id (some { l with inTransit := false, edges := 0 }) s) := by
  unfold ledgerRevert
  simp only [hl, ht, hd, and_self, if_true]

theorem mget_ledgerSet (id : Nat) (l : Ledger) (s : State) : mget id (ledgerSet id (some l) s).fab.ledger = some l := mget_mset_same ..

/-- Settles O31, with one lemma for each operation that its checks let pass and one for an older generation at each. -/
theorem handoffLedger : Obligations.HandoffLedger := by
  unfold Obligations.HandoffLedger
  refine ⟨fun s0 s port p harr hc hg hpool hnew hok hroom => exec_arriveTo harr (homeClaim_free hc hg hpool hnew hok hroom),
    fun s port p harr hc => exec_arriveTo harr (homeOffer_passed hc port), fun s p l => applyOffer_held, ?entries, ?older, ?generation,
    fun s0 s port p harr hc hg => exec_arriveTo harr (homeLedgerQuery_current hc hg), ?revert, fun s p id st => ledgerRsp_ledger p id st s⟩
  case entries =>
    intro s0 s port p l harr hc hg hl hpool id
    refine ⟨fun ht hother => ?accept, fun ht hown => ?cancel, fun hh hown => ?release⟩
    case accept => exact exec_arriveTo harr (ledgerOp_allowed hc hg hl hpool (by simp [ht, hother]) _)
    case cancel => exact exec_arriveTo harr (ledgerOp_allowed hc hg hl hpool (by simp [ht, hown]) _)
    case release => exact exec_arriveTo harr (ledgerOp_allowed hc hg hl hpool (by simp [hh, hown]) _)
  case older =>
    exact fun s0 s port p harr hc hg => ⟨exec_arriveTo harr (homeClaim_older hc hg), exec_arriveTo harr (homeOffer_older hc hg port),
      exec_arriveTo harr (ledgerOp_older hc hg _ _), exec_arriveTo harr (ledgerOp_older hc hg _ _), exec_arriveTo harr (ledgerOp_older hc hg _ _),
      exec_arriveTo harr (homeLedgerQuery_older hc hg)⟩
  case generation => exact fun s s1 p e he => ⟨fun g hg hnew hne => takeGen_older he hg hnew hne, fun hnew => takeGen_fresh he hnew⟩
  case revert =>
    intro s id l hal hl ht hd
    refine ⟨_, exec_actTo hal (ledgerRevert_due hl ht hd), ?_, cget_bump_of_live _ (ledgerSet_live ..) .., rfl, rfl⟩
    rw [bump_fab, mget_ledgerSet]

end Sys2Proof.Machine
end

section
/-! Packets of other endpoints, packets that wait too long, partner entries that age, and management packets (O32). -/

namespace Sys2Proof.Machine

open Sys2Proof

/-! Forwarding (R355, R361, R370) -/

section Forward

variable {s : State} {p : Packet}

theorem exec_packetForward {u : State} {port : Fin 64} (hal : alive s = true) (hd : p.dst.toNat ≠ selfEp s) (h : forward p s = u) :
    exec (.packetForward port p) s = .next (finish u) := exec_actTo hal ((if_neg hd).trans h)

theorem forward_unknown (ht : typeClass p.type.toNat = none) : forward p s = bump Reg.pktBad 0 s := if_pos ht

variable (ht : typeClass p.type.toNat ≠ none)
include ht

theorem forward_tooFar (h : maxHops s ≤ p.hops.toNat) : forward p s = bump Reg.pktDropped 0 s := by
  rw [forward, if_neg ht, if_pos (by omega)]

theorem forward_near (h : p.hops.toNat < maxHops s) : forward p s = send { p with hops := p.hops + 1 } s := by
  rw [forward, if_neg ht, if_neg (by omega)]

end Forward

/-! Dwell (R368) and the ageing of partner entries (R312, R377) -/

/-- What a credit return to the peer leaves: it is only sent. -/
theorem bufferFreed_frame (e : EgressPkt) (s : State) : ∃ out, bufferFreed e s = { s with out := out } := by
  unfold bufferFreed creditBack
  split
  · split
    · exact ⟨_, rfl⟩
    · exact ⟨s.out, rfl⟩
  · exact ⟨s.out, rfl⟩

/-- The n-th waiting packet is dropped and counted. -/
def waitingDropped (n : Nat) (s : State) : State := bump Reg.pktDropped 0 { s with fab := { s.fab with waiting := s.fab.waiting.eraseIdx n } }

theorem cget_waitingDropped (n : Nat) (s : State) : cget (waitingDropped n s) Reg.pktDropped 0 = min (cget s Reg.pktDropped 0 + 1) 0xFFFFFFFF :=
  cget_bump_of_live s rfl ..

theorem dwellExpire_waiting {s : State} {n : Nat} (h : n < s.fab.waiting.length) :
    dwellExpire n s = bufferFreed s.fab.waiting[n] (waitingDropped n s) := by
  rw [dwellExpire, List.getElem?_eq_getElem h]
  rfl

theorem partnerAge_old {s : State} {ep : Nat} {e : Partner} (he : mget ep s.fab.partners = some e) (ho : partnerOld s ep e = true) :
    partnerAge ep s = pumpReqs { s with fab := { s.fab with partners := mdel ep s.fab.partners } } := by
  unfold partnerAge
  simp only [he, ho, if_true]

/-! Management packets (R362) -/

section Management

variable {s : State} {p : Packet}

theorem takeMgmtRd_at {i : Nat} (hm : isManager s p.src.toNat = true) (hi : regTarget s .mgmt p.addr.toNat = .at i) :
    takeMgmtRd p s = let s1 := readEffect p.addr.toNat i s
      reply (rspTo s1 p .ok 0 0 (leBytes 4 (regValue s .mgmt p.addr.toNat i).toNat)) s1 := by
  unfold takeMgmtRd regReadVia
  simp only [hm, hi, if_true]
  rfl

theorem takeMgmtWr_manager (hm : isManager s p.src.toNat = true) :
    takeMgmtWr p s = let s1 := regWriteAny .mgmt p.addr.toNat p.payload s
      reply (ackTo s1 p .ok 0) s1 := if_pos hm

theorem takeMgmt_other (hm : isManager s p.src.toNat = false) :
    takeMgmtRd p s = reply (rspTo s p .ownership 0 0 []) (bump Reg.mgmtRefused 0 s) ∧
      takeMgmtWr p s = reply (ackTo s p .ownership 0) (bump Reg.mgmtRefused 0 s) := by
  have hn : ¬ isManager s p.src.toNat = true := by simp [hm]
  exact ⟨if_neg hn, if_neg hn⟩

end Management

/-- Settles O32, with one lemma for each way of a packet and one for each event. -/
theorem routingAndManagement : Obligations.RoutingAndManagement := by
  unfold Obligations.RoutingAndManagement
  refine ⟨?forward, ?dwell, fun s ep e hal he ho => exec_actTo hal (partnerAge_old he ho), fun s port p i harr hm hi => exec_arriveTo harr (takeMgmtRd_at hm hi),
    fun s port p harr hm => exec_arriveTo harr (takeMgmtWr_manager hm), ?other⟩
  case forward =>
    exact fun s port p hal hd => ⟨fun ht => exec_packetForward hal hd (forward_unknown ht), fun ht h => exec_packetForward hal hd (forward_tooFar ht h),
      fun ht h => exec_packetForward hal hd (forward_near ht h)⟩
  case dwell =>
    intro s n hal h
    obtain ⟨out, e⟩ := bufferFreed_frame s.fab.waiting[n] (waitingDropped n s)
    exact ⟨_, exec_actTo hal ((dwellExpire_waiting h).trans e), rfl, rfl, rfl, cget_waitingDropped n s⟩
  case other =>
    intro s port p harr hm
    obtain ⟨hrd, hwr⟩ := takeMgmt_other hm
    exact ⟨exec_arriveTo harr hrd, exec_arriveTo harr hwr⟩

end Sys2Proof.Machine
end

section
/-! Flits, and how a port is replayed, retrained, trained, taken down and written (O33). -/

namespace Sys2Proof.Machine

open Sys2Proof

@[simp] theorem portOf_portSet_same (port : Nat) (f : Port → Port) (s : State) : portOf (portSet port f s) port = f (portOf s port) := mgetD_mset_same ..

/-! Flits (R356, R357) -/

section Flits

variable {s : State} {port : Nat} {fl : List Byte} (hup : portUp s port = true) (hlen : fl.length = 256)
include hup hlen

theorem flitIn_crcFails (hcrc : leAt fl 252 4 ≠ (crc32 (fl.take 252)).toNat) : flitIn port fl s = sendNak port (bump Reg.portCrcErr port s) := by
  unfold flitIn
  simp only [hup, hlen, hcrc, Bool.not_true, bne_self_eq_false, Bool.or_self, Bool.false_eq_true, ne_eq, not_false_eq_true, if_true, if_false]

variable (hcrc : leAt fl 252 4 = (crc32 (fl.take 252)).toNat)
include hcrc

/-- A flit that is not discarded for its CRC is told from the last good one by its number. -/
theorem flitIn_good : flitIn port fl s =
    if leAt fl 0 2 % 4096 = (portOf s port).rxSeq ∧ leAt fl 4 1 = 0xFF then flitAck port fl s
    else if leAt fl 0 2 % 4096 = ((portOf s port).rxSeq + 1) % 4096 then
      let s1 := portSet port (fun q => { q with rxSeq := leAt fl 0 2 % 4096, nakSent := false }) (bump Reg.portRxFlits port s)
      flitBody port fl (flitAck port fl (emit (.flit port (idleFlit s1 port false 0 0)) s1))
    else askReplay port s := by
  unfold flitIn
  simp only [hup, hlen, hcrc, Bool.not_true, bne_self_eq_false, Bool.or_self, Bool.false_eq_true, ne_eq, not_true, if_false]

theorem flitIn_idleRepeated (hseq : leAt fl 0 2 % 4096 = (portOf s port).rxSeq) (hidle : leAt fl 4 1 = 0xFF) : flitIn port fl s = flitAck port fl s := by
  rw [flitIn_good hup hlen hcrc, if_pos ⟨hseq, hidle⟩]

theorem flitIn_next (hseq : leAt fl 0 2 % 4096 = ((portOf s port).rxSeq + 1) % 4096) :
    flitIn port fl s =
      let s1 := portSet port (fun q => { q with rxSeq := leAt fl 0 2 % 4096, nakSent := false }) (bump Reg.portRxFlits port s)
      flitBody port fl (flitAck port fl (emit (.flit port (idleFlit s1 port false 0 0)) s1)) := by
  have hne : leAt fl 0 2 % 4096 ≠ (portOf s port).rxSeq := by omega
  rw [flitIn_good hup hlen hcrc, if_neg fun h => hne h.1, if_pos hseq]

theorem flitIn_missed (hrep : leAt fl 0 2 % 4096 ≠ (portOf s port).rxSeq) (hseq : leAt fl 0 2 % 4096 ≠ ((portOf s port).rxSeq + 1) % 4096) :
    flitIn port fl s = if (portOf s port).nakSent then s else sendNak port s := by
  rw [flitIn_good hup hlen hcrc, if_neg fun h => hrep h.1, if_neg hseq, askReplay]

end Flits

/-! Replay and retraining (R357) -/

section Replay

variable {s : State} {port seq : Nat}

theorem portNak_nothingKept (h : (portOf (portAcked port seq s) port).retry = []) : portNak port seq s = portAcked port seq s := by
  rw [portNak, h]
  rfl

theorem portNak_kept (h : (portOf (portAcked port seq s) port).retry ≠ []) :
    portNak port seq s = replayPort port (bump Reg.portReplays port (portSet port (fun q => { q with failedReplays := q.failedReplays + 1 }) (portAcked port seq s))) :=
  if_neg (mt List.isEmpty_iff.1 h)

/-- A port that retrains: down, its flits kept. -/
def portRetrained (port : Nat) (s : State) : State :=
  trigger 7 (w64 port) none port (portSet port (fun q => { q with up := false, retraining := true, width := 0, rx := [], failedReplays := 0 }) (bump Reg.portRetrains port s))

theorem portRetrainNow_up (h : (portOf s port).up = true) : portRetrainNow port s = portRetrained port s := if_pos h

theorem portRetrainNow_notUp (h : (portOf s port).up = false) : portRetrainNow port s = s := if_neg (ne_true_of_eq_false h)

end Replay

/-! Training (R354) and the fall of a port (R369) -/

section Fall

variable {s : State} {port : Nat}

/-- A port that is down, its flits lost. -/
def portLost (port : Nat) (s : State) : State := portSet port (fun q => { q with up := false, retraining := false, width := 0, rx := [], retry := [] }) s

theorem portFall_up (h : (portOf s port).up = true) : portFall port s = peerGone port (trigger 7 (w64 port) none port (portLost port s)) := by
  unfold portFall
  simp only [h, Bool.true_or, if_true]
  rfl

theorem portFall_retraining (hu : (portOf s port).up = false) (hr : (portOf s port).retraining = true) : portFall port s = peerGone port (portLost port s) := by
  unfold portFall
  simp only [hu, hr, Bool.or_true, Bool.false_eq_true, if_true, if_false]
  rfl

theorem portFall_down (hu : (portOf s port).up = false) (hr : (portOf s port).retraining = false) : portFall port s = s := by
  unfold portFall
  simp only [hu, hr, Bool.or_self, Bool.false_eq_true, if_false]

theorem peerGone_noPeer (h : (portOf s port).peer = none) : peerGone port s = s := by rw [peerGone, h]

theorem peerGone_peer {ep : Nat} (h : (portOf s port).peer = some ep) : peerGone port s =
    if ∃ e ∈ s.fab.ports, (e.2.up = true ∨ e.2.retraining = true) ∧ e.2.peer = some ep then s else endpointLost ep s := by
  rw [peerGone, h]
  refine if_congr ?_ rfl rfl
  simp only [List.any_eq_true, Bool.and_eq_true, Bool.or_eq_true, beq_iff_eq]

end Fall

section Training

variable {s : State} {fit : PortFit} (hx : portExists s fit.port = true) (hen : rbit s Reg.portCfg fit.port 0 = true) (hclk : rbit s Reg.clkStatus 0 2 = true)
include hx hen hclk

theorem portTrained_lanes : portTrained fit s =
    let w := trainedWidth (if portSplit s fit.port then 4 else 8) fit.laneFail
    if w = 0 then portSet fit.port (fun q => { q with laneFail := fit.laneFail.toNat, retry := [] }) (portFall fit.port s)
    else pumpReqs (pumpPort fit.port (replayPort fit.port (portSet fit.port (fun q =>
      { q with up := true, retraining := false, width := w, laneFail := fit.laneFail.toNat, peer := some fit.peer.toNat, failedReplays := 0, nakSent := false }) s))) :=
  if_neg (by simp [hx, hen, hclk])

end Training

/-! Writes of PORT_CFG and of the routing tables (R371, Tables 10-12 and 10-14) -/

section Writes

variable {s s1 : State} {i : Nat} {v : W32}

theorem portCfgSet_off (h1 : cfgStore Reg.portCfg i v s = s1) (hv : bit v 0 = false) :
    portCfgSet i v s = portSet i (fun q => { q with retry := [] }) (portFall i s1) := by
  rw [portCfgSet, h1]
  exact if_pos (by simp [hv])

theorem portCfgSet_on (h1 : cfgStore Reg.portCfg i v s = s1) (hv : bit v 0 = true) : portCfgSet i v s = if bit v 1 then portRetrainNow i s1 else s1 := by
  rw [portCfgSet, h1]
  exact if_neg (by simp [hv])

end Writes

/-- Settles O33, with one lemma for each kind of flit, each end of a port and each value written. -/
theorem linksAndPorts : Obligations.LinksAndPorts := by
  unfold Obligations.LinksAndPorts
  refine ⟨?flits, ?nak, ?retrain, ?training, fun s port hal hu => exec_actTo hal (portFall_up hu), fun s port => peerGone_noPeer,
    fun s port => portFall_retraining, fun s port ep => peerGone_peer, ?portCfg, ?routing, fun s hal => ⟨exec_actTo hal rfl, exec_actTo hal rfl⟩,
    fun s port => portFall_down⟩
  case flits =>
    intro s port fl hal hup hlen
    refine ⟨fun hcrc => ?_, fun hcrc hseq hidle => ?_, fun hcrc _ hseq => ?_, fun hcrc hrep hseq => ?_⟩
    · exact exec_actTo hal (flitIn_crcFails hup hlen hcrc)
    · exact exec_actTo hal (flitIn_idleRepeated hup hlen hcrc hseq hidle)
    · exact exec_actTo hal (flitIn_next hup hlen hcrc hseq)
    · exact exec_actTo hal (flitIn_missed hup hlen hcrc hrep hseq)
  case nak =>
    intro s port seq hal hup s1
    exact ⟨fun h => exec_actTo hal ((if_pos hup).trans (portNak_nothingKept h)), fun h => exec_actTo hal ((if_pos hup).trans (portNak_kept h))⟩
  case retrain => exact fun s port hal h16 hu => exec_actTo hal ((if_pos h16).trans (portRetrainNow_up hu))
  case training =>
    intro s fit hal hx hen hclk w
    have e := portTrained_lanes hx hen hclk
    exact ⟨fun hw => exec_actTo hal (e.trans (if_pos hw)), fun hw => exec_actTo hal (e.trans (if_neg hw))⟩
  case portCfg =>
    intro s path v i hr s1
    refine ⟨fun hv => exec_regWriteTo hr (portCfgSet_off rfl hv), fun hv hre => ?_, fun hv hre hu => ?_, fun hv hre hu => ?_⟩
    · exact exec_regWriteTo hr ((portCfgSet_on rfl hv).trans (if_neg (ne_true_of_eq_false hre)))
    · exact exec_regWriteTo hr ((if_pos hre).trans ((portCfgSet_on rfl hv).trans ((if_pos hre).trans (portRetrainNow_notUp hu))))
    · exact exec_regWriteTo hr ((if_pos hre).trans ((portCfgSet_on rfl hv).trans ((if_pos hre).trans (portRetrainNow_up hu))))
  case routing =>
    intro s path v hr s1 e
    refine ⟨fun hm => ?_, fun hm => ?_⟩
    · exact exec_regWriteTo hr (congrArg pumpReqs (if_pos hm))
    · exact exec_regWriteTo hr (congrArg pumpReqs (if_neg (ne_true_of_eq_false hm)))

end Sys2Proof.Machine
end

section
/-! The commands of the call sheet and the steps of its commit (O40). -/

namespace Sys2Proof.Machine

open Sys2Proof

/-! COMMIT and DISCARD (R378, R379) -/

/-- The commit of an epoch as it begins: with the entries that the staged sheet changes. -/
def commitBegun (e : Nat) (s : State) : Commit :=
  { epoch := e, step := 2, changed := (changedEntries s).map fun x => (csBase x.2, csEnd x.2), held := [], ownWalk := false, edges := 0 }

section Commit

variable {s : State} (hgood : s.mgmt.csBad.contains 0 = false)
include hgood

theorem commitRun_refused (h : rfld s Reg.csCmd 0 16 16 ≠ (s.fab.epoch + 1) % 65536 ∨ stagedBad s = true) : commitRun s = cmdEnd Reg.csCmd 0 .decode s := by
  unfold commitRun
  dsimp only
  rw [if_neg (ne_true_of_eq_false hgood), if_pos h]

variable (he : rfld s Reg.csCmd 0 16 16 = (s.fab.epoch + 1) % 65536) (hst : stagedBad s = false)
include he hst

theorem commitRun_next : commitRun s = if s.fab.prevLive then cmdEnd Reg.csCmd 0 .quota s
    else setBusy Reg.csCmd 0 true { s with fab := { s.fab with commit := some (commitBegun (rfld s Reg.csCmd 0 16 16) s) } } := by
  unfold commitRun
  dsimp only
  rw [if_neg (ne_true_of_eq_false hgood), if_neg (not_or.2 ⟨not_not.2 he, ne_true_of_eq_false hst⟩)]
  rfl

end Commit

/-! The steps of a commit (Table 10-7) -/

theorem commitDrained_free {s : State} {c : Commit} (hc : s.fab.commit = some c) (h2 : c.step = 2) (hb : commitBusy s c = false) :
    commitDrained s = commitWalks 1 (commitWalks 0 { s with fab := { s.fab with commit := some { c with step := 4, edges := 0 } } }) := by
  unfold commitDrained
  simp only [hc, h2, hb, Bool.not_false, and_self, if_true]

/-- The sheets switch (step 5): the staged one is current under the commit's epoch, the old one live as previous under its own. -/
def sheetsSwitched (c : Commit) (s : State) : State :=
  { s with
    coh := { s.coh with walks := s.coh.walks.filter fun w => w.why != WalkFor.commit }
    mgmt := { s.mgmt with csBad := if s.mgmt.csBad.contains 1 then [2] else [] }
    fab := { s.fab with
      previous := s.fab.current, current := s.fab.staged, epoch := c.epoch, prevEpoch := s.fab.epoch, prevLive := true, prevEdges := 0, commit := none } }

/-- The switch is told: own walks that did not answer are counted, the command ends, its trigger is raised. -/
def switchTold (c : Commit) (s : State) : State :=
  trigger 10 (w64 (c.epoch + s.fab.epoch * 65536)) none 0
    (cmdEnd Reg.csCmd 0 .ok (sheetsSwitched c (bumpN Reg.csWalkTmo 0 (s.coh.walks.filter fun w => w.why == WalkFor.commit).length s)))

@[simp] theorem trigger_fab (code : Nat) (detail : W64) (part : Option Nat) (inst : Nat) (s : State) : (trigger code detail part inst s).fab = s.fab := by
  unfold trigger
  dsimp only
  split_ifs <;> rfl

@[simp] theorem trigger_host (code : Nat) (detail : W64) (part : Option Nat) (inst : Nat) (s : State) : (trigger code detail part inst s).host = s.host := by
  unfold trigger
  dsimp only
  split_ifs <;> rfl

theorem switchTold_fab (c : Commit) (s : State) : (switchTold c s).fab = (sheetsSwitched c s).fab := by
  rw [switchTold, trigger_fab, cmdEnd_fab]
  rfl

theorem switchTold_host (c : Commit) (s : State) : (switchTold c s).host = s.host := by
  rw [switchTold, trigger_host, cmdEnd_host]
  rfl

theorem switchTold_store (c : Commit) (s : State) : (switchTold c s).store = s.store := by
  rw [switchTold, trigger_store, cmdEnd_store]
  rfl

/-- With no request held and no function that could have one, the switch is all that step 5 does. -/
theorem commitSwitch_plain {s : State} {c : Commit} (hc : s.fab.commit = some c) (h4 : c.step = 4) (ha : commitAnswered s c = true) (hh : c.held = [])
    (hf : s.host.fns = []) : commitSwitch s = switchTold c s := by
  have hfns : (switchTold c s).host.fns = [] := by rw [switchTold_host, hf]
  unfold commitSwitch
  simp only [hc, h4, ha, hh, and_self, if_true, List.foldl_nil]
  change ((switchTold c s).host.fns.map (·.1)).foldl _ (switchTold c s) = _
  rw [hfns]
  rfl

theorem prevRetire_due {s : State} (hl : s.fab.prevLive = true) (h : prevInflight s = 0 ∨ csDrain s ≤ s.fab.prevEdges) :
    prevRetire s = { s with fab := { s.fab with prevLive := false } } :=
  if_pos (by simpa [hl] using h)

/-- Settles O40, with one lemma for each outcome of COMMIT and one for each step that follows it. -/
theorem callSheetCommands : Obligations.CallSheetCommands := by
  unfold Obligations.CallSheetCommands
  refine ⟨?commit, ?discard, ?steps, fun s hal hl h => exec_actTo hal (prevRetire_due hl h)⟩
  case commit =>
    intro s path v i hacc s1 e hbad hcs
    have hgood : s1.mgmt.csBad.contains 0 = false := by rw [hbad, hcs]
    have hfab : s1.fab = s.fab := taken_fab ..
    rw [← hfab]
    refine ⟨fun he hst hl => ?_, fun h => ?_, fun he hst hl => ?_⟩
    · exact exec_issueTo hacc (by decide) ((commitRun_next hgood he hst).trans (if_neg (ne_true_of_eq_false hl)))
    · exact exec_issueTo hacc (by decide) (commitRun_refused hgood h)
    · exact exec_issueTo hacc (by decide) ((commitRun_next hgood he hst).trans (if_pos hl))
  case discard =>
    intro s path v i hacc
    refine ⟨_, exec_issueTo hacc (by decide) rfl, ?_⟩
    rw [discardRun, cmdEnd_fab, cmdEnd_store, taken_fab, taken_store]
    exact ⟨rfl, rfl, rfl, rfl⟩
  case steps =>
    intro s c hal hc
    refine ⟨fun h2 hb => exec_actTo hal (commitDrained_free hc h2 hb), fun _ _ => exec_actTo hal rfl, fun h4 ha hh hf => ?_⟩
    rw [commitSwitch_plain hc h4 ha hh hf, switchTold_fab, switchTold_store]
    exact ⟨rfl, rfl, rfl, rfl, rfl, rfl, rfl⟩

end Sys2Proof.Machine
end

section
/-! What the writes held at pages leave of a port: its decoders, what its host enabled, its link, and which partitions reset. The loss of a host lets such
writes go on (R54, R83). -/

namespace Sys2Proof.Machine

open Sys2Proof

/-- What a port's reset clears, and by what it sees which partitions reset already. -/
def portView (s : State) : List Bool × NMap Hdm × (Fin 2 → W32) × (Fin 65536 → W32) :=
  (s.host.cxlMem, s.host.hdm, fun hp => rget s (Reg.hostpStatus + 256 * hp) 0, fun k => rget s Reg.partStatus k)

theorem portView_congr {s t : State} (hh : t.host = s.host) (hr : t.regs = s.regs) : portView t = portView s := by
  simp only [portView, hh, rget_congr hr]

theorem portView_parts {s t : State} (h : portView t = portView s) : t.host.cxlMem = s.host.cxlMem ∧ t.host.hdm = s.host.hdm ∧
    (∀ hp, hp < 2 → rget t (Reg.hostpStatus + 256 * hp) 0 = rget s (Reg.hostpStatus + 256 * hp) 0) ∧
    ∀ k, k < 65536 → rget t Reg.partStatus k = rget s Reg.partStatus k := by
  simp only [portView, Prod.mk.injEq] at h
  obtain ⟨hcxl, hhdm, hport, hpart⟩ := h
  exact ⟨hcxl, hhdm, fun hp h2 => congrFun hport ⟨hp, h2⟩, fun k hk => congrFun hpart ⟨k, hk⟩⟩

/-- A register that is neither a port's HOSTP_STATUS nor a partition's PART_STATUS. -/
theorem portView_rset {r i : Nat} (hport : ∀ hp : Fin 2, rkey r i ≠ rkey (Reg.hostpStatus + 256 * hp) 0) (hpart : ∀ k : Fin 65536, rkey r i ≠ rkey Reg.partStatus k)
    (v : W32) (s : State) : portView (rset r i v s) = portView s := by
  simp only [portView, rset_host, rget_rset_ne (hport _), rget_rset_ne (hpart _)]

/-! Packets and requests -/

@[simp] theorem portView_emit (e : Emit) (s : State) : portView (emit e s) = portView s := rfl

@[simp] theorem portView_bump (r i : Nat) (s : State) : portView (bump r i s) = portView s := rfl

@[simp] theorem portView_bumpN (r i n : Nat) (s : State) : portView (bumpN r i n s) = portView s := rfl

@[simp] theorem portView_putOnWire (port seq : Nat) (p : Packet) (s : State) : portView (putOnWire port seq p s) = portView s := by
  unfold putOnWire
  rw [portView_emit, portView_bumpN]
  exact List.foldlRecOn (motive := fun t => portView t = portView s) _ _ rfl fun t ht i _ => ht

@[simp] theorem portView_egress (port : Nat) (p : Packet) (s : State) : portView (egress port p s) = portView s := by
  unfold egress
  split
  · exact portView_putOnWire ..
  · rfl

@[simp] theorem portView_choosePort (c : Nat) (ps : List Nat) (s : State) : portView (choosePort c ps s).2 = portView s := by
  unfold choosePort
  split <;> rfl

@[simp] theorem portView_send (p : Packet) (s : State) : portView (send p s) = portView s := by
  unfold send route
  split
  · rfl
  · have h := portView_choosePort p.tc.toNat (pathSet s p.dst.toNat) s
    split <;> next e => simpa [e] using h

@[simp] theorem portView_reply (p : Packet) (s : State) : portView (reply p s) = portView s := by
  unfold reply
  split
  · rfl
  · exact portView_send p s

@[simp] theorem portView_partnerFor (ep : Nat) (s : State) : portView (partnerFor ep s).2 = portView s := by
  unfold partnerFor
  split
  · rfl
  · dsimp only
    split_ifs
    · rfl
    · split <;> rfl

@[simp] theorem portView_stamp (p : Packet) (s : State) : portView (stamp p s).2 = portView s := by
  unfold stamp
  split
  · have h := portView_partnerFor p.dst.toNat s
    split <;> next e => rw [e] at h; exact h
  · rfl

@[simp] theorem portView_launch (r : Req) (port tag : Nat) (s : State) : portView (launch r port tag s) = portView s := portView_egress ..

@[simp] theorem portView_sendReq (r : Req) (s : State) : portView (sendReq r s).2 = portView s := by
  have hst : ∀ t, portView (stamp r.p t).2 = portView t := portView_stamp r.p
  unfold sendReq
  dsimp only
  split
  · split
    · rfl
    · have h := hst s
      split <;> next e => rw [e] at h; exact h
  · split
    · rfl
    · have hc := portView_choosePort r.p.tc.toNat ((pathSet s r.p.dst.toNat).filter fun q => (freeTag s q).isSome) s
      split
      · next e => rw [e] at hc; exact hc
      · next t e =>
        rw [e] at hc
        split
        · exact hc
        · have h := (hst t).trans hc
          split
          · next e2 => rw [e2] at h; exact h
          · next e2 => rw [e2] at h; exact (portView_launch ..).trans h

@[simp] theorem portView_resolve (fa part right : Nat) (s : State) : portView (resolve fa part right s).2 = portView s := by
  unfold resolve
  split <;> rfl

@[simp] theorem portView_hostEmit (path : Path) (e : Emit) (s : State) : portView (hostEmit path e s) = portView s := by
  unfold hostEmit
  split <;> rfl

/-! Vectors -/

theorem portView_raisePending (off part : Nat) (v : W32) (s : State) : portView (rset (Reg.vecPend + off) part v s) = portView s := by
  refine portView_rset (fun hp => ?_) (fun k => ?_) v s
  · have := hp.isLt
    unfold rkey Reg.vecPend Reg.hostpStatus
    omega
  · have := k.isLt
    unfold rkey Reg.vecPend Reg.partStatus
    omega

@[simp] theorem portView_msixSend (i entry : Nat) (s : State) : portView (msixSend i entry s) = portView s := by
  unfold msixSend
  dsimp only
  split <;> rfl

@[simp] theorem portView_deliverVec (part v : Nat) (s : State) : portView (deliverVec part v s) = portView s := by
  unfold deliverVec
  dsimp only
  split
  · split
    · rfl
    · exact portView_msixSend ..
  · exact portView_send ..
  · rfl

@[simp] theorem portView_raiseVec (part v : Nat) (s : State) : portView (raiseVec part v s) = portView s := by
  unfold raiseVec
  dsimp only
  split
  · rw [portView_raisePending, portView_bump]
  · rw [portView_deliverVec, portView_bump]

/-! Store memory -/

@[simp] theorem portView_trigger (code : Nat) (detail : W64) (part : Option Nat) (inst : Nat) (s : State) : portView (trigger code detail part inst s) = portView s := by
  unfold trigger
  dsimp only
  split_ifs <;> rfl

@[simp] theorem portView_markPoison (off n : Nat) (s : State) : portView (markPoison off n s) = portView s := by
  unfold markPoison
  split <;> rfl

@[simp] theorem portView_poisonWords (ws : List Nat) (s : State) : portView (poisonWords ws s) = portView s :=
  List.foldlRecOn (motive := fun t => portView t = portView s) _ _ rfl fun t ht w _ => by
    split
    · exact ht
    · rw [portView_markPoison, ht]

@[simp] theorem portView_laneWork (lane raw coded : Nat) (s : State) : portView (laneWork lane raw coded s) = portView s := by
  simp [laneWork]

@[simp] theorem portView_codecDrop (b : Nat) (s : State) : portView (codecDrop b s) = portView s := by
  rw [codecDrop, portView_trigger, portView_bump, portView_markPoison]
  rfl

@[simp] theorem portView_readBlock (b : Nat) (s : State) : portView (readBlock b s).2 = portView s := by
  unfold readBlock
  dsimp only
  split_ifs
  · split <;> simp
  · rfl
  · rfl

@[simp] theorem portView_rawCells (off : Nat) (cs : List (Option Byte)) (s : State) : portView (rawCells off cs s) = portView s := portView_congr (rawCells_host ..) (rawCells_regs ..)

@[simp] theorem portView_rawWrite (off : Nat) (bs : List Byte) (s : State) : portView (rawWrite off bs s) = portView s := portView_congr (rawWrite_host ..) (rawWrite_regs ..)

@[simp] theorem portView_setMeta (b : Nat) (m : Byte) (s : State) : portView (setMeta b m s) = portView s := rfl

@[simp] theorem portView_rawBlock (b : Nat) (s : State) : portView (rawBlock b s) = portView s := by
  have h : portView (rawWrite (b * blockSize) (readBlock b s).1.bytes (setMeta b rawMeta (readBlock b s).2)) = portView s := by
    rw [portView_rawWrite, portView_setMeta, portView_readBlock]
  unfold rawBlock
  dsimp only
  split_ifs
  · exact portView_readBlock b s
  · exact h
  · exact (portView_congr rfl rfl).trans h
  · rfl

@[simp] theorem portView_readIn (off n : Nat) (s : State) : portView (readIn off n s).2 = portView s := by
  unfold readIn
  split
  · exact portView_readBlock ..
  · rfl

@[simp] theorem portView_memRead (off n : Nat) (s : State) : portView (memRead off n s).2 = portView s :=
  List.foldlRecOn (motive := fun r : Got × State => portView r.2 = portView s) _ _ rfl fun r hr pc _ => (portView_readIn pc.1 pc.2 r.2).trans hr

@[simp] theorem portView_hidePoison (off : Nat) (ws : List Nat) (bs : List Byte) (s : State) : portView (hidePoison off ws bs s).2 = portView s := by
  unfold hidePoison
  split <;> rfl

@[simp] theorem portView_countSent (ws : List Nat) (s : State) : portView (countSent ws s) = portView s := by
  unfold countSent
  split <;> rfl

@[simp] theorem portView_countAccess (off n : Nat) (w : Bool) (s : State) : portView (countAccess off n w s) = portView s := by
  unfold countAccess
  split
  · rfl
  · split <;> rfl

@[simp] theorem portView_countRead (off n : Nat) (s : State) : portView (countRead off n s) = portView s := by
  have h := portView_countAccess off n false s
  unfold countRead projMissed
  split
  · exact h
  · split
    · dsimp only
      split <;> exact h
    · exact h

@[simp] theorem portView_pageMod (pg : Nat) (f : Page → Page) (s : State) : portView (pageMod pg f s) = portView s := rfl

@[simp] theorem portView_moveMod (pg : Nat) (f : Move → Move) (s : State) : portView (moveMod pg f s) = portView s := rfl

@[simp] theorem portView_drawn (n : Nat) (s : State) : portView { s with fresh := n } = portView s := rfl

@[simp] theorem portView_disturbJobs (b : Nat) (s : State) : portView (disturbJobs b s) = portView s := by
  unfold disturbJobs
  split <;> rfl

@[simp] theorem portView_disturbRows (off n : Nat) (s : State) : portView (disturbRows off n s) = portView s := by
  unfold disturbRows
  refine List.foldlRecOn (motive := fun t => portView t = portView s) _ _ rfl fun t ht m _ => ?_
  dsimp only [drawBit]
  split <;> exact ht

@[simp] theorem portView_noteWrite (off n : Nat) (s : State) : portView (noteWrite off n s) = portView s := by
  have h : portView (disturbRows off n (disturbJobs (off / blockSize) s)) = portView s := by rw [portView_disturbRows, portView_disturbJobs]
  unfold noteWrite
  dsimp only [drawBit]
  split
  · rw [portView_pageMod, h]
  · split
    · rw [portView_moveMod, portView_drawn, portView_pageMod, h]
    · rw [portView_drawn, portView_pageMod, h]

@[simp] theorem portView_inlineQueue (b : Nat) (s : State) : portView (inlineQueue b s) = portView s := by
  unfold inlineQueue
  dsimp only
  split_ifs <;> rfl

@[simp] theorem portView_settlePage (pg : Nat) (s : State) : portView (settlePage pg s) = portView s :=
  List.foldlRecOn (motive := fun t => portView t = portView s) _ _ rfl fun t ht c _ => (portView_readBlock c.1 t).trans ht

@[simp] theorem portView_copyOnWrite (pg : Nat) (s : State) : portView (copyOnWrite pg s) = portView s := by
  unfold copyOnWrite
  split
  · exact portView_settlePage pg s
  · rfl

@[simp] theorem portView_writeIn (off : Nat) (cs : List (Option Byte)) (s : State) : portView (writeIn off cs s).2 = portView s := by
  have happly : ∀ t, portView (noteWrite off cs.length ((if cs.all Option.isSome then clearPoison off cs.length else id) (rawCells off cs t))) = portView t :=
    fun t => by
      rw [portView_noteWrite]
      split <;> exact portView_rawCells off cs t
  unfold writeIn
  dsimp only
  split
  · rfl
  split
  · rw [portView_inlineQueue, happly]
    rfl
  split
  · exact portView_rawBlock ..
  · rw [happly, portView_rawBlock]

@[simp] theorem portView_memWrite (off : Nat) (cs : List (Option Byte)) (s : State) : portView (memWrite off cs s).2 = portView s :=
  List.foldlRecOn (motive := fun r : Bool × State => portView r.2 = portView s) _ _ rfl fun r hr pc _ => (portView_writeIn pc.1 pc.2 r.2).trans hr

@[simp] theorem portView_storeCells (off : Nat) (cs : List (Option Byte)) (s : State) : portView (storeCells off cs s).2 = portView s := by
  unfold storeCells
  dsimp only
  split <;> simp

/-! The directory -/

@[simp] theorem portView_cacheIn (line : Nat) (s : State) : portView (cacheIn line s) = portView s := by
  unfold cacheIn
  split_ifs <;> rfl

@[simp] theorem portView_setEntry (line : Nat) (e : Option DirEntry) (s : State) : portView (setEntry line e s) = portView s := by
  unfold setEntry
  split
  · split
    · rfl
    · exact portView_cacheIn ..
  · rfl

@[simp] theorem portView_touchEntry (line : Nat) (s : State) : portView (touchEntry line s) = portView s := by
  unfold touchEntry
  split <;> rfl

@[simp] theorem portView_dirLookup (line : Nat) (s : State) : portView (dirLookup line s) = portView s := by
  unfold dirLookup
  dsimp only
  split_ifs <;> simp

@[simp] theorem portView_lookups (off n : Nat) (s : State) : portView (lookups off n s) = portView s := by
  unfold lookups
  split
  · exact List.foldlRecOn (motive := fun t => portView t = portView s) _ _ rfl fun t ht line _ => (portView_dirLookup line t).trans ht
  · rfl

@[simp] theorem portView_txnMod (line : Nat) (f : Txn → Txn) (s : State) : portView (txnMod line f s) = portView s := rfl

@[simp] theorem portView_sendRecall (line n : Nat) (share : Bool) (hpa : Nat) (s : State) : portView (sendRecall line n share hpa s) = portView s := by
  unfold sendRecall
  split
  · rfl
  · dsimp only
    split
    · rfl
    · rw [portView_send, portView_bump]

@[simp] theorem portView_holderLost (line n : Nat) (s : State) : portView (holderLost line n s) = portView s := by
  unfold holderLost
  dsimp only
  split
  · split <;> simp
  · rfl

@[simp] theorem portView_recallAll (line : Nat) (share : Bool) (ns : List Nat) (s : State) : portView (recallAll line share ns s) = portView s := by
  unfold recallAll
  refine List.foldlRecOn (motive := fun t => portView t = portView s) _ _ rfl fun t ht n _ => ?_
  dsimp only
  split
  · rw [portView_holderLost, ht]
  · rw [portView_txnMod, portView_sendRecall, ht]

@[simp] theorem portView_lineData (line : Nat) (s : State) : portView (lineData line s).2.2 = portView s := by simp [lineData]

@[simp] theorem portView_sendGrant (r : CohReq) (grant line : Nat) (withData : Bool) (s : State) : portView (sendGrant r grant line withData s) = portView s := by
  unfold sendGrant
  split
  · split <;> simp
  · split <;> simp
  · rfl

@[simp] theorem portView_endTxn (line : Nat) (s : State) : portView (endTxn line s) = portView s := by
  unfold endTxn
  split
  · exact portView_setEntry ..
  · rfl

@[simp] theorem portView_grantTxn (line grant : Nat) (withData : Bool) (next : Option DirEntry) (s : State) :
    portView (grantTxn line grant withData next s) = portView s := by
  unfold grantTxn
  split
  · rfl
  · split
    · simp
    · dsimp only
      split <;> simp

@[simp] theorem portView_resolveTxn (line : Nat) (s : State) : portView (resolveTxn line s) = portView s := by
  unfold resolveTxn
  split
  · rfl
  · dsimp only
    split
    · rfl
    · split
      · split
        · exact portView_sendGrant ..
        · exact portView_sendGrant ..
        · exact portView_sendGrant ..
        · rfl
      · split
        · split
          · simp
          · split <;> simp
        · simp
        · simp
        · split <;> simp
        · simp
        · simp

@[simp] theorem portView_startRecalls (off n : Nat) (isWrite : Bool) (x : Option Nat) (s : State) : portView (startRecalls off n isWrite x s) = portView s := by
  unfold startRecalls
  refine List.foldlRecOn (motive := fun t => portView t = portView s) _ _ rfl fun t ht line _ => ?_
  dsimp only
  split
  · exact ht
  · split
    · exact ht
    · rw [portView_resolveTxn, portView_recallAll]
      exact ht

theorem portView_inTurn {f : State → State} (hf : ∀ t, portView (f t) = portView t) (off n : Nat) (q : Bool) (r : CohReq) (s : State) :
    portView (inTurn off n q r f s) = portView s := by
  unfold inTurn
  split
  · rfl
  · exact hf s

theorem portView_coherent {f : State → State} (hf : ∀ t, portView (f t) = portView t) (off n : Nat) (w q : Bool) (r : CohReq) (s : State) :
    portView (coherent off n w q r f s) = portView s := by
  refine portView_inTurn (fun s => ?_) off n q r s
  have hl : portView (if q then s else lookups off n s) = portView s := by split <;> simp
  dsimp only
  generalize (if q then s else lookups off n s) = t at hl ⊢
  have hs : portView (startRecalls off n w (readerSlot s r) t) = portView s := by rw [portView_startRecalls, hl]
  split
  · split <;> exact hs
  · rw [hf, hs]

/-! Writes at their gates -/

@[simp] theorem portView_hurtLine (line : Nat) (bad : Bool) (s : State) : portView (hurtLine line bad s) = portView s := by
  unfold hurtLine
  split
  · exact portView_poisonWords ..
  · rfl

@[simp] theorem portView_holdAt (off : Nat) (g : Gate) (h : HeldAccess) (s : State) : portView (holdAt off g h s) = portView s := by
  unfold holdAt
  split
  · split <;> rfl
  · rfl

@[simp] theorem portView_writeGuards (off : Nat) (w : Writer) (s : State) : portView (writeGuards off w s).2 = portView s := by
  unfold writeGuards
  split_ifs <;> rfl

@[simp] theorem portView_countApplied (p : Packet) (s : State) : portView (countApplied p s) = portView s := by
  have h := portView_partnerFor p.src.toNat s
  unfold countApplied
  split
  · rfl
  · dsimp only
    split
    · next e => rw [e] at h; exact h
    · next e =>
      rw [e] at h
      split
      · exact h
      · split_ifs <;> exact h

/-- A write that a read-only die turns away is counted at its channel. -/
theorem portView_roDropped (d : Option (Nat × Nat)) (s : State) : portView (match d with | some (ch, _) => bump Reg.flcRoDropped ch s | none => s) = portView s := by
  split <;> rfl

/-! Tallies and their watches -/

@[simp] theorem portView_localStore (part off : Nat) (bs : List Byte) (s : State) : portView (localStore part off bs s) = portView s := by
  have hg := portView_writeGuards off .engine s
  unfold localStore
  split
  · rfl
  · rfl
  · dsimp only
    split
    · rfl
    · split
      · next e => rw [e] at hg; exact hg
      · next t e =>
        rw [e] at hg
        split
        · rw [portView_coherent fun t => portView_storeCells off _ t, hg]
        · exact hg
        · exact (portView_roDropped ..).trans hg
        · rw [portView_holdAt, hg]

@[simp] theorem portView_hubStore (part fa : Nat) (bs : List Byte) (s : State) : portView (hubStore part fa bs s) = portView s := by
  have hr := portView_resolve fa part 1 s
  unfold hubStore
  split
  · next e => rw [e] at hr; exact hr
  · next e => rw [e] at hr; exact hr
  · next t e =>
    rw [e] at hr
    split
    · rw [portView_localStore, hr]
    · rw [portView_sendReq, hr]

@[simp] theorem portView_fireWatch (t : Nat) (s : State) : portView (fireWatch t s) = portView s := by
  unfold fireWatch
  dsimp only
  split
  · rfl
  · split
    · have hstore : ∀ part u, portView (if (watchOf s t).addr = 0 then u else hubStore part (watchOf s t).addr.toNat (leBytes 8 (watchOf s t).val.toNat) u) = portView u :=
        fun part u => by split <;> simp
      split
      · rw [portView_raiseVec, hstore]
        rfl
      · rw [hstore]
        rfl
    · rfl

@[simp] theorem portView_tallyAddTo (t : Nat) (n : W32) (s : State) : portView (tallyAddTo t n s) = portView s := portView_fireWatch ..

/-! Writes held at a page -/

@[simp] theorem portView_serveWr (p : Packet) (s : State) : portView (serveWr p s) = portView s := by
  unfold serveWr
  dsimp only
  rw [portView_reply, portView_countApplied]
  split
  · split
    · rw [portView_tallyAddTo]
      split <;> simp
    · split <;> simp
  · split <;> simp

@[simp] theorem portView_refuseWr (p : Packet) (st : Status) (s : State) : portView (refuseWr p st s) = portView s := by simp [refuseWr]

theorem portView_admitWr (port : Nat) (p : Packet) (q : Bool) (s : State) : portView (admitWr port p q s) = portView s := by
  refine portView_inTurn (fun t => ?_) ..
  split
  · exact portView_coherent (portView_serveWr p) ..
  · simp
  · exact (portView_refuseWr ..).trans (portView_roDropped ..)
  · exact portView_holdAt ..

@[simp] theorem portView_serveAtomic (p : Packet) (s : State) : portView (serveAtomic p s) = portView s := by
  unfold serveAtomic
  dsimp only
  split
  · simp
  · rw [portView_reply, portView_countApplied]
    split <;> simp

theorem portView_admitAtomic (port : Nat) (p : Packet) (q : Bool) (s : State) : portView (admitAtomic port p q s) = portView s := by
  have hno : ∀ st t, portView (refuseAtomic p st t) = portView t := fun st t => by simp [refuseAtomic]
  refine portView_inTurn (fun t => ?_) ..
  split
  · exact portView_coherent (portView_serveAtomic p) ..
  · rw [hno, portView_bump]
  · exact (hno ..).trans (portView_roDropped ..)
  · exact portView_holdAt ..

@[simp] theorem portView_serveCue (p : Packet) (s : State) : portView (serveCue p s) = portView s := by simp [serveCue]

theorem portView_admitCue (port : Nat) (p : Packet) (q : Bool) (s : State) : portView (admitCue port p q s) = portView s := by
  refine portView_inTurn (fun t => ?_) ..
  split
  · exact portView_coherent (portView_serveCue p) ..
  · simp
  · exact (portView_reply ..).trans (portView_roDropped ..)
  · exact portView_holdAt ..

@[simp] theorem portView_writeBack (line x : Nat) (keep : Bool) (data : List (Option Byte)) (s : State) : portView (writeBack line x keep data s).2 = portView s := by
  unfold writeBack
  split <;> simp

@[simp] theorem portView_senderSlot (ep : Nat) (s : State) : portView (senderSlot ep s).2 = portView s := by
  unfold senderSlot
  split <;> rfl

@[simp] theorem portView_holderSlot (line : Nat) (p : Packet) (s : State) : portView (holderSlot line p s).2 = portView s := by
  unfold holderSlot
  split
  · rfl
  · exact portView_senderSlot ..

@[simp] theorem portView_agentCmp (p : Packet) (s : State) : portView (agentCmp p s) = portView s := portView_send ..

theorem portView_admitWrBack (port : Nat) (p : Packet) (q : Bool) (s : State) : portView (admitWrBack port p q s) = portView s := by
  have hx := portView_holderSlot (lineOf (msgOff p)) p (dirLookup (lineOf (msgOff p)) s)
  rw [portView_dirLookup] at hx
  unfold admitWrBack
  dsimp only
  split
  · rfl
  split
  · next e =>
    rw [e] at hx
    rw [portView_agentCmp, portView_bump, hx]
  · next x t e =>
    rw [e] at hx
    split
    · rw [portView_holdAt, hx]
    · rw [portView_holdAt, hx]
    · exact (portView_agentCmp ..).trans ((portView_roDropped ..).trans hx)
    · rw [refuseAgent, portView_reply, portView_bump, hx]
    · rw [portView_agentCmp, portView_hurtLine, portView_writeBack, hx]

/-! Writes of hosts -/

@[simp] theorem portView_hostAnswer (path : Path) (posted early : Bool) (n : Nat) (st : Status) (data : List Byte) (s : State) :
    portView (hostAnswer path posted early n st data s) = portView s := by
  unfold hostAnswer
  cases st <;> dsimp only <;> split_ifs <;> simp [dropHost]

@[simp] theorem portView_bar2Serve (path : Path) (off : Nat) (op : HostOp) (s : State) : portView (bar2Serve path off op s) = portView s := by
  unfold bar2Serve
  dsimp only
  split
  · simp
  · simp
  · split
    · simp
    · rw [portView_hostAnswer]
      split <;> simp

theorem portView_admitBar2 (path : Path) (off : Nat) (op : HostOp) (q : Bool) (s : State) : portView (admitBar2 path off op q s) = portView s := by
  have hrun : ∀ t, portView (coherent off (opLen op) (opRight op != 0) q (.bar2 path off op) (bar2Serve path off op) t) = portView t :=
    fun _ => portView_coherent (portView_bar2Serve path off op) ..
  unfold admitBar2
  dsimp only
  split
  · exact hrun s
  · refine portView_inTurn (fun t => ?_) ..
    split
    · exact hrun t
    · rw [portView_hostAnswer, portView_bump]
    · exact (portView_hostAnswer ..).trans (portView_roDropped ..)
    · exact portView_holdAt ..

theorem portView_cxlWrite (hp line : Nat) (mv : MetaValue) (data : List Byte) (be : W64) (bad : Bool) (tag : Nat) (q : Bool) (s : State) :
    portView (cxlWrite hp line mv data be bad tag q s) = portView s := by
  have hg := portView_writeGuards (line * 64) (.host hp) s
  unfold cxlWrite
  dsimp only
  split_ifs
  · rw [portView_emit, portView_txnMod, portView_hurtLine, portView_storeCells]
  · rfl
  split
  · exact portView_holdAt ..
  · exact portView_holdAt ..
  · exact (portView_emit ..).trans (portView_roDropped ..)
  · rfl
  split
  · rw [portView_emit, portView_hurtLine, portView_writeBack, portView_dirLookup]
  · split
    · next e => rw [e] at hg; exact hg
    · next e =>
      rw [e] at hg
      exact (portView_coherent (fun t => by rw [portView_emit, portView_hurtLine, portView_storeCells]) ..).trans hg

/-! Lost pages and lost extents (R50, R52, R54) -/

theorem portView_runHeld (h : HeldAccess) (s : State) : portView (runHeld h s) = portView s := by
  unfold runHeld
  split
  · split_ifs
    · exact portView_admitWr ..
    · exact portView_admitAtomic ..
    · exact portView_admitWrBack ..
    · exact portView_admitCue ..
  · exact portView_admitBar2 ..
  · exact portView_cxlWrite ..

@[simp] theorem portView_runHeldAll (hs : List HeldAccess) (s : State) : portView (runHeldAll hs s) = portView s :=
  List.foldlRecOn (motive := fun t => portView t = portView s) _ _ rfl fun t ht h _ => (portView_runHeld h t).trans ht

@[simp] theorem portView_abandonMoves (p : Nat → Move → Bool) (s : State) : portView (abandonMoves p s) = portView s :=
  List.foldlRecOn (motive := fun t => portView t = portView s) _ _ rfl fun t ht m _ => (portView_runHeldAll m.2.held t).trans ht

@[simp] theorem portView_runSnapWaiting (pg : Nat) (s : State) : portView (runSnapWaiting pg s) = portView s := by
  unfold runSnapWaiting
  split
  · rfl
  · exact portView_runHeldAll ..

@[simp] theorem portView_gracePage (pg : Nat) (s : State) : portView (gracePage pg s) = portView s := rfl

theorem portView_pageGone (pg : Nat) (s : State) : portView (pageGone pg s) = portView s := by
  rw [pageGone, portView_bumpN, portView_pageMod, portView_gracePage, portView_runSnapWaiting, portView_abandonMoves]

/-- The registers that count an extent's lost pages and that command a host extent are in no port's and no partition's view. -/
theorem portView_rset_extent {r : Nat} (hr : r ∈ [Reg.hostLost, Reg.loanLost, Reg.hostxCmd]) (v : W32) (s : State) : portView (rset r 0 v s) = portView s := by
  have hlt : r < Reg.hostpStatus ∧ r < Reg.partStatus := by
    simp only [List.mem_cons, List.not_mem_nil, or_false] at hr
    rcases hr with rfl | rfl | rfl <;> decide
  refine portView_rset (fun hp => rkey_ne_reg (by omega) (by omega) ?_) (fun k => rkey_ne_reg (by omega) k.isLt ?_) v s
  · exact Nat.ne_of_lt (Nat.lt_of_lt_of_le hlt.1 (Nat.le_add_right ..))
  · exact Nat.ne_of_lt hlt.2

theorem lostReg_mem (e : ExtId) : lostReg e ∈ [Reg.hostLost, Reg.loanLost, Reg.hostxCmd] := by cases e <;> simp [lostReg]

@[simp] theorem portView_extLosePages (e : ExtId) (s : State) : portView (extLosePages e s) = portView s :=
  List.foldlRecOn (motive := fun t => portView t = portView s) _ _ rfl fun t ht pg _ => by
    rw [pageLose, portView_pageGone, portView_rset_extent (lostReg_mem e), ht]

@[simp] theorem portView_extDropMoves (e : ExtId) (s : State) : portView (extDropMoves e s) = portView s := portView_abandonMoves ..

theorem portView_extRelease (e : ExtId) (s : State) : portView (extRelease e s) = portView s := by
  have h : portView (extLosePages e (extDropMoves e s)) = portView s := by rw [portView_extLosePages, portView_extDropMoves]
  unfold extRelease
  split
  · dsimp only
    split
    · rw [cmdEnd, setBusy, rsetFld, rsetFld, portView_rset_extent (by simp), portView_rset_extent (by simp)]
      exact h
    · exact h
  · exact h

@[simp] theorem portView_lenderLost (p : ExtId → Extent → Bool) (s : State) : portView (lenderLost p s) = portView s := by
  refine List.foldlRecOn (motive := fun t => portView t = portView s) _ _ rfl fun t ht x _ => ?_
  refine Eq.trans ?_ ht
  obtain ⟨e, x⟩ := x
  cases e with
  | host p n => exact portView_extRelease ..
  | loan n => exact (portView_extLosePages ..).trans (portView_extDropMoves ..)

/-- The loss of a port's host leaves the port as it is. -/
theorem portView_hostLost (hp : Nat) (s : State) : portView (hostLost hp s) = portView s := by
  unfold hostLost
  dsimp only
  split <;> exact portView_lenderLost ..

end Sys2Proof.Machine
end

section
/-! Proxy windows, the resets of functions and ports, and decoders (O42). -/

namespace Sys2Proof.Machine

open Sys2Proof

/-! Proxy windows (R386, R399) -/

section Window

variable {s : State} {path : Path} {off : Nat} {op : HostOp}

/-- An access that no reset, boot layout or fatal condition ends reaches what its function is (R402, R443, R514). -/
theorem barAccess_open (hr : fnResetting s path = false) (him : s.boot.image ≠ none) (hf : fatal s = false)
    (hi : ∀ k, pathPart s path = some k → intakeStopped s k = false) :
    barAccess path off op s = if isProxy s path then proxyAccess path off op s else bar2Access path off op s := by
  have hnone : s.boot.image.isNone = false := by rw [Option.isNone_eq_false_iff]; exact Option.isSome_iff_ne_none.2 him
  unfold barAccess
  cases hp : pathPart s path with
  | none => simp [hr, hnone, hf]
  | some k => simp [hr, hnone, hf, hi k hp]

variable {p : Fin 2} {n : Fin 128} {ws : List W32} (hw : proxyOf s p.val n.val = some ws)
include hw

theorem proxyAccess_inside (hoff : off < 2 ^ (quad ws 1 / 2 ^ 18 % 64)) (hop : opRight op ≠ 2) : proxyAccess (.vf p n) off op s =
    proxyPump (.vf p n) (fnSet (fnIdx (.vf p n)) (fun f => { f with proxyQ := f.proxyQ ++ [(off, op)] }) s) := by
  unfold proxyAccess
  simp only [hw, Nat.not_le.2 hoff, hop, or_self, if_false]

theorem proxyAccess_outside (h : 2 ^ (quad ws 1 / 2 ^ 18 % 64) ≤ off ∨ opRight op = 2) :
    proxyAccess (.vf p n) off op s = hostAnswer (.vf p n) (opPosted op) true (opLen op) .ownership [] s := by
  unfold proxyAccess
  simp only [hw, h, if_true]

end Window

/-! Resets of functions (R400, R439) -/

@[simp] theorem fnOf_fnSet_same (i : Nat) (f : Fn → Fn) (s : State) : fnOf (fnSet i f s) i = f (fnOf s i) := mgetD_mset_same ..

/-- A function's reset goes on to its partition's (R439): it answers nothing until that has ended. -/
def fnCause (i cause : Nat) (s : State) : State :=
  match fnPart s i with
  | none => s
  | some k => let s := partCause k cause s
    if partBusy s k then fnSet i (fun f => { f with resetting := true }) s else s

theorem flrRun_vf {s : State} {p : Fin 2} {n : Fin 128} (h : isProxy s (.vf p n) = false) :
    flrRun (.vf p n) s = fnCause (fnIdx (.vf p n)) 2 (fnReset (fnIdx (.vf p n)) (useUnlock (.vf p n) s)) := by
  unfold flrRun
  simp only [h, Bool.false_eq_true, if_false]
  rfl

theorem flrRun_pf (s : State) (p : Fin 2) :
    flrRun (.pf p) s = fnCause (fnIdx (.pf p)) 3 (hostLost p (fnReset (fnIdx (.pf p)) (useUnlock (.pf p) s))) := rfl

section Cause

variable {s : State} {i part : Nat}

theorem fnCause_unbound (h : fnPart s i = none) (cause : Nat) : fnCause i cause s = s := by rw [fnCause, h]

theorem fnCause_bound (h : fnPart s i = some part) (cause : Nat) : fnCause i cause s =
    let s2 := partCause part cause s
    if partBusy s2 part then fnSet i (fun f => { f with resetting := true }) s2 else s2 := by rw [fnCause, h]

end Cause

/-! Decoders (R401) -/

/-- What a decoder's commit enters: the range the host gives, the partition and the place its registers give. -/
theorem hdmCommit_enters (hp d base size ways : Nat) (s : State) : ∃ h, hdmCommit hp d base size ways s =
      { s with host := { s.host with hdm := mset (hp * 8 + d) h s.host.hdm } } ∧
    (h.base, h.size, h.committed) = (base, size, ways == 0 && base % 2 ^ 28 == 0 && size % 2 ^ 28 == 0) := ⟨_, rfl, rfl⟩

/-! The reset of a port (Table 15-4) -/

/-- What is left where only causes of resets have been recorded: the registers beside PART_STATUS, and which partitions reset. -/
def CausesOnly (s t : State) : Prop :=
  ∃ w, t = { s with regs := w } ∧ (∀ k, partBusy t k = partBusy s k) ∧ ∀ r, r ≠ Reg.partStatus → rget t r 0 = rget s r 0

theorem causesOnly_refl (s : State) : CausesOnly s s := ⟨s.regs, rfl, fun _ => rfl, fun _ _ => rfl⟩

theorem partBusy_congr {s t : State} {k : Nat} (h : rfld t Reg.partStatus k 0 2 = rfld s Reg.partStatus k 0 2) : partBusy t k = partBusy s k := by
  unfold partBusy partState
  rw [h]

/-- The cause of a reset stands beside the partition's state. -/
theorem partBusy_setCause (part cause : Nat) (s : State) (k : Nat) : partBusy (rsetFld Reg.partStatus part 8 4 cause s) k = partBusy s k := by
  apply partBusy_congr
  unfold rfld
  by_cases h : part = k
  · subst h
    rw [rget_rsetFld_same, fld_setFld_below _ 8 4 _ 0 2 (by omega) (by omega)]
  · rw [rget_rsetFld_ne (rkey_ne_inst h)]

/-- A partition that resets already records one more cause. -/
theorem partCause_causesOnly {s t : State} {part : Nat} (cause : Nat) (hp : part < 65536) (hb : partBusy s part = true) (ht : CausesOnly s t) :
    CausesOnly s (partCause part cause t) := by
  obtain ⟨w, rfl, hbusy, hregs⟩ := ht
  unfold partCause
  dsimp only
  split
  · exact ⟨w, rfl, hbusy, hregs⟩
  · rw [if_pos (by rw [partBusy_setCause, hbusy part, hb])]
    refine ⟨_, rfl, fun k => (partBusy_setCause ..).trans (hbusy k), fun r hr => ?_⟩
    rw [rget_rsetFld_ne (rkey_ne_reg hp (by omega) (Ne.symm hr)), hregs r hr]

theorem partCauses_causesOnly {s : State} {ps : List Nat} (cause : Nat) (hp : ∀ k ∈ ps, k < 65536) (hb : ∀ k ∈ ps, partBusy s k = true) :
    CausesOnly s (ps.foldl (fun s k => partCause k cause s) s) :=
  List.foldlRecOn (motive := CausesOnly s) _ _ (causesOnly_refl s) fun _ ht k hk => partCause_causesOnly cause (hp k hk) (hb k hk) ht

theorem boundParts_lt {s : State} {hp k : Nat} (h : k ∈ boundParts s hp) : k < 256 := by
  obtain ⟨n, -, hn⟩ := List.mem_filterMap.1 (List.mem_dedup.1 h)
  exact fnPart_lt hn

/-- The link's status is cleared; a link that was up has raised its trigger. -/
def linkDropped (hp : Nat) (s : State) : State :=
  rset (Reg.hostpStatus + 256 * hp) 0 0 (if rbit s (Reg.hostpStatus + 256 * hp) 0 11 then trigger 7 (w64 hp) none hp s else s)

/-- What the host had set up at a port goes: the functions' own state, CXL.mem, decoders, translations and what waits. -/
def portCleared (hp : Nat) (s : State) : State :=
  let s := (s.host.fns.map (·.1)).foldl (fun s i => if i / 256 = hp then fnReset i s else s) s
  { s with host := { s.host with
    cxlMem := s.host.cxlMem.set hp false
    hdm := s.host.hdm.filter fun d => d.1 / 8 != hp
    atc := s.host.atc.filter fun e => e.1 / 2 ^ 52 / 2 ^ 20 / 256 != hp
    invals := s.host.invals.filter fun e => e.1 != hp
    portQ := s.host.portQ.filter fun w => match w with | .write path _ _ => !onPort hp path | .answer p _ => p != hp } }

theorem portReset_steps (hp : Nat) (s : State) : portReset hp s =
    (boundParts (linkDropped hp s) hp).foldl (fun s k => partCause k 5 s) (hostLost hp (portCleared hp (linkDropped hp s))) := rfl

theorem fnPart_congr {s t : State} {i : Nat} (h : rget t Reg.fnMap i = rget s Reg.fnMap i) (hb : t.boot = s.boot) : fnPart t i = fnPart s i := by
  have hx : fnExists t i = fnExists s i := by
    unfold fnExists totalVfs
    rw [hb]
  unfold fnPart
  rw [h, hx]

@[simp] theorem trigger_regs (code : Nat) (detail : W64) (part : Option Nat) (inst : Nat) (s : State) : (trigger code detail part inst s).regs = s.regs := by
  unfold trigger
  dsimp only
  split_ifs <;> rfl

@[simp] theorem trigger_boot (code : Nat) (detail : W64) (part : Option Nat) (inst : Nat) (s : State) : (trigger code detail part inst s).boot = s.boot := by
  unfold trigger
  dsimp only
  split_ifs <;> rfl

section LinkDropped

variable (hp : Nat) (s : State)

theorem linkDropped_host : (linkDropped hp s).host = s.host := by
  rw [linkDropped, rset_host]
  split
  · exact trigger_host ..
  · rfl

theorem linkDropped_store : (linkDropped hp s).store = s.store := by
  rw [linkDropped, rset_store]
  split
  · exact trigger_store ..
  · rfl

theorem linkDropped_boot : (linkDropped hp s).boot = s.boot := by
  rw [linkDropped, rset_boot]
  split
  · exact trigger_boot ..
  · rfl

theorem rget_linkDropped_status : rget (linkDropped hp s) (Reg.hostpStatus + 256 * hp) 0 = 0 := rget_rset_same ..

theorem rget_linkDropped_ne {r i : Nat} (h : rkey (Reg.hostpStatus + 256 * hp) 0 ≠ rkey r i) : rget (linkDropped hp s) r i = rget s r i := by
  rw [linkDropped, rget_rset_ne h]
  split
  · exact rget_congr (trigger_regs ..) r i
  · rfl

variable {hp} (h2 : hp < 2)
include h2

theorem partBusy_linkDropped (k : Nat) : partBusy (linkDropped hp s) k = partBusy s k :=
  partBusy_congr (congrArg (fld · 0 2) (rget_linkDropped_ne hp s (by unfold rkey Reg.hostpStatus Reg.partStatus; omega)))

theorem boundParts_linkDropped : boundParts (linkDropped hp s) hp = boundParts s hp := by
  have e : fnPart (linkDropped hp s) = fnPart s := funext fun i =>
    fnPart_congr (rget_linkDropped_ne hp s (by unfold rkey Reg.hostpStatus Reg.fnMap; omega)) (linkDropped_boot hp s)
  simp only [boundParts, totalVfs, linkDropped_boot, e]

end LinkDropped

/-- The functions of a port lose their own state, and only that changes. -/
theorem fnResets_frame (hp : Nat) (is : List Nat) (s : State) :
    ∃ fns, is.foldl (fun s i => if i / 256 = hp then fnReset i s else s) s = { s with host := { s.host with fns := fns } } := by
  refine List.foldlRecOn (motive := fun t : State => ∃ fns, t = { s with host := { s.host with fns := fns } }) _ _ ⟨s.host.fns, rfl⟩ fun t ht i _ => ?_
  obtain ⟨fns, rfl⟩ := ht
  dsimp only
  split
  · exact ⟨_, rfl⟩
  · exact ⟨fns, rfl⟩

theorem portCleared_effect (hp : Nat) (s : State) : (portCleared hp s).regs = s.regs ∧ (portCleared hp s).store = s.store ∧
    (portCleared hp s).host.cxlMem = s.host.cxlMem.set hp false ∧ (portCleared hp s).host.hdm = s.host.hdm.filter fun d => d.1 / 8 != hp := by
  obtain ⟨fns, e⟩ := fnResets_frame hp (s.host.fns.map (·.1)) s
  unfold portCleared
  rw [e]
  exact ⟨rfl, rfl, rfl, rfl⟩

theorem hostLost_store {s : State} (h : s.store.extents = []) (hp : Nat) : (hostLost hp s).store = s.store := by
  have e : ∀ p, lenderLost p s = s := fun p => by rw [lenderLost, h]; rfl
  unfold hostLost
  dsimp only
  rw [e]
  split <;> rfl

section PortReset

variable {s : State} {hp : Nat} (h2 : hp < 2) (hbusy : ∀ k ∈ boundParts s hp, partBusy s k = true)

/-- A port as its reset leaves it before its partitions hear of it. -/
def portDropped (hp : Nat) (s : State) : State := hostLost hp (portCleared hp (linkDropped hp s))

theorem portView_portDropped : portView (portDropped hp s) = portView (portCleared hp (linkDropped hp s)) := portView_hostLost ..

include h2

theorem partBusy_portDropped {k : Nat} (hk : k < 65536) : partBusy (portDropped hp s) k = partBusy s k := by
  obtain ⟨hregs, -⟩ := portCleared_effect hp (linkDropped hp s)
  obtain ⟨-, -, -, hpart⟩ := portView_parts (portView_portDropped (s := s) (hp := hp))
  calc partBusy (portDropped hp s) k
    _ = partBusy (portCleared hp (linkDropped hp s)) k := partBusy_congr (congrArg (fld · 0 2) (hpart k hk))
    _ = partBusy (linkDropped hp s) k := partBusy_congr (congrArg (fld · 0 2) (rget_congr hregs ..))
    _ = partBusy s k := partBusy_linkDropped s h2 k

include hbusy

/-- Where the bound partitions reset already, a port's reset only adds causes to what it leaves of the port. -/
theorem portReset_causesOnly : CausesOnly (portDropped hp s) (portReset hp s) := by
  rw [portReset_steps, boundParts_linkDropped s h2]
  refine partCauses_causesOnly 5 (fun k hk => ?_) fun k hk => ?_
  · have := boundParts_lt hk
    omega
  · have := boundParts_lt hk
    exact (partBusy_portDropped h2 (by omega)).trans (hbusy k hk)

theorem portReset_effect : rget (portReset hp s) (Reg.hostpStatus + 256 * hp) 0 = 0 ∧ (portReset hp s).host.cxlMem = s.host.cxlMem.set hp false ∧
    (∀ d ∈ (portReset hp s).host.hdm, d.1 / 8 ≠ hp) ∧ (s.store.extents = [] → (portReset hp s).store = s.store) := by
  obtain ⟨w, e, -, hregs⟩ := portReset_causesOnly h2 hbusy
  obtain ⟨hcregs, hcstore, hccxl, hchdm⟩ := portCleared_effect hp (linkDropped hp s)
  obtain ⟨hcxl, hhdm, hport, -⟩ := portView_parts (portView_portDropped (s := s) (hp := hp))
  refine ⟨?status, ?cxlMem, fun d hd => ?decoders, fun hx => ?store⟩
  case status => rw [hregs _ (by unfold Reg.hostpStatus Reg.partStatus; omega), hport hp h2, rget_congr hcregs, rget_linkDropped_status]
  case cxlMem =>
    rw [e]
    exact hcxl.trans (by rw [hccxl, linkDropped_host])
  case decoders =>
    rw [e] at hd
    replace hd : d ∈ (portDropped hp s).host.hdm := hd
    rw [hhdm, hchdm, List.mem_filter] at hd
    simpa using hd.2
  case store =>
    have hs : (portCleared hp (linkDropped hp s)).store = s.store := hcstore.trans (linkDropped_store hp s)
    rw [e]
    exact (hostLost_store (by rw [hs, hx]) hp).trans hs

end PortReset

/-- Settles O42, with one lemma for each kind of access, one for each function's reset, and the effect of a port's reset. -/
theorem proxyAndFunctionResets : Obligations.ProxyAndFunctionResets := by
  unfold Obligations.ProxyAndFunctionResets
  refine ⟨?window, ?proxyFlr, ?vf, ?pf, ?decoder, fun s hp cause hal => ?port, fun s hp h2 hbusy _ => portReset_effect h2 hbusy⟩
  case window =>
    intro s p n off op ws hal hr him hf hi hpx hw
    have e := (barAccess_open (off := off.toNat) (op := op) hr him hf hi).trans (if_pos hpx)
    exact ⟨fun hoff hop => exec_actTo hal (e.trans (proxyAccess_inside hw hoff hop)), fun h => exec_actTo hal (e.trans (proxyAccess_outside hw h))⟩
  case proxyFlr =>
    intro s path hal hpx
    refine ⟨_, exec_actTo hal (if_pos hpx), ?_, ?_, rfl, rfl⟩
    · rw [proxyReset, fnOf_fnSet_same]
    · rw [proxyReset, fnOf_fnSet_same]
  case vf =>
    intro s p n part hal hpx i s1
    have e := flrRun_vf hpx
    exact ⟨fun h => exec_actTo hal (e.trans (fnCause_unbound h 2)), fun h => exec_actTo hal (e.trans (fnCause_bound h 2))⟩
  case pf =>
    intro s p part hal i s1
    have e := flrRun_pf s p
    exact ⟨fun h => exec_actTo hal (e.trans (fnCause_unbound h 3)), fun h => exec_actTo hal (e.trans (fnCause_bound h 3))⟩
  case decoder =>
    intro s hp d base size ways hal
    obtain ⟨h, e, hfields⟩ := hdmCommit_enters hp d base.toNat size.toNat ways.toNat s
    refine ⟨_, exec_actTo hal e, rfl, rfl, fun k hk => mget_mset_ne (Ne.symm hk) .., ?_⟩
    have hways : (ways.toNat == 0) = (ways == 0) := by rw [Bool.eq_iff_iff, beq_iff_eq, beq_iff_eq, BitVec.toNat_eq]; rfl
    rw [mget_mset_same, ← hways]
    exact congrArg some hfields
  case port => cases cause <;> exact exec_actTo hal rfl

end Sys2Proof.Machine
end

section
/-! Links, configuration requests and the mailbox of the hosts (O43). -/

namespace Sys2Proof.Machine

open Sys2Proof

/-! Bits as fields of one bit -/

theorem bit_eq_fld {w : Nat} (v : BitVec w) (i : Nat) : bit v i = decide (fld v i 1 = 1) := by
  rw [bit, BitVec.getLsbD, Nat.testBit_eq_decide_div_mod_eq]
  rfl

theorem bit_setFld_same {w : Nat} (v : BitVec w) (i : Nat) (b : Bool) (h : i < w) : bit (setFld v i 1 (b2n b)) i = b := by
  rw [bit_eq_fld, fld_setFld_same v i 1 _ h]
  cases b <;> rfl

theorem bit_setFld_above {w : Nat} (v : BitVec w) (lo n x i : Nat) (h : lo + n ≤ w) (hi : lo + n ≤ i) : bit (setFld v lo n x) i = bit v i := by
  rw [bit_eq_fld, bit_eq_fld, fld_setFld_above v lo n x i 1 h hi]

theorem bit_setFld_below {w : Nat} (v : BitVec w) (lo n x i : Nat) (h : lo + n ≤ w) (hi : i < lo) : bit (setFld v lo n x) i = bit v i := by
  rw [bit_eq_fld, bit_eq_fld, fld_setFld_below v lo n x i 1 h hi]

/-! Link training (R394, R395) -/

/-- HOSTP_STATUS as the training of a link leaves it, CXL_MEM not yet decided. -/
def linkWord (f : HostFit) : W32 := w32 (f.speed.toNat + f.width.toNat * 16 + b2n f.flit * 512 + 2048)

theorem linkWord_fields (f : HostFit) :
    fld (linkWord f) 0 4 = f.speed.toNat ∧ fld (linkWord f) 4 5 = f.width.toNat ∧ bit (linkWord f) 9 = f.flit ∧ bit (linkWord f) 11 = true := by
  have hs := f.speed.isLt
  have hw := f.width.isLt
  have hb : b2n f.flit ≤ 1 := by cases f.flit <;> decide
  have hflit : f.flit = decide (b2n f.flit = 1) := by cases f.flit <;> rfl
  have e : (linkWord f).toNat = f.speed.toNat + f.width.toNat * 16 + b2n f.flit * 512 + 2048 := Nat.mod_eq_of_lt (by omega)
  simp only [bit_eq_fld, fld, e]
  refine ⟨by omega, by omega, ?_, by rw [decide_eq_true_eq]; omega⟩
  exact (decide_eq_decide.2 (by omega)).trans hflit.symm

/-- CXL.mem may run at a port: its link is up in FLIT mode, its host enabled it, its image allows it. -/
def cxlMemOn (hp : Nat) (s : State) : Bool :=
  let r := Reg.hostpStatus + 256 * hp
  rbit s r 0 11 && rbit s r 0 9 && s.host.cxlMem.getD hp false && (match s.boot.image with | some im => im.cxlEn.getD hp false | none => false)

theorem cxlUpdate_eq (hp : Nat) (s : State) : cxlUpdate hp s = rsetFld (Reg.hostpStatus + 256 * hp) 0 10 1 (b2n (cxlMemOn hp s)) s := rfl

/-- The state of a port whose link has trained, CXL_MEM not yet decided. -/
def linkTrained (f : HostFit) (s : State) : State := rset (Reg.hostpStatus + 256 * f.port) 0 (linkWord f) s

theorem rget_linkUp (f : HostFit) (s : State) :
    rget (linkUp f s) (Reg.hostpStatus + 256 * f.port) 0 = setFld (linkWord f) 10 1 (b2n (cxlMemOn f.port (linkTrained f s))) := by
  rw [linkUp, cxlUpdate_eq, rget_rsetFld_same, rget_rset_same]
  rfl

theorem cxlMemOn_linkTrained (f : HostFit) (s : State) : cxlMemOn f.port (linkTrained f s) =
    (f.flit && s.host.cxlMem.getD f.port false && (match s.boot.image with | some im => im.cxlEn.getD f.port false | none => false)) := by
  obtain ⟨-, -, hflit, hup⟩ := linkWord_fields f
  have e : ∀ b, rbit (linkTrained f s) (Reg.hostpStatus + 256 * f.port) 0 b = bit (linkWord f) b := fun b => by rw [rbit, linkTrained, rget_rset_same, bit]
  rw [cxlMemOn, e, e, hflit, hup, Bool.true_and]
  rfl

theorem linkUp_shows (f : HostFit) (s : State) : let v := rget (linkUp f s) (Reg.hostpStatus + 256 * f.port) 0
    fld v 0 4 = f.speed.toNat ∧ fld v 4 5 = f.width.toNat ∧ bit v 9 = f.flit ∧ bit v 11 = true ∧ bit v 10 = cxlMemOn f.port (linkTrained f s) := by
  obtain ⟨hspeed, hwidth, hflit, hup⟩ := linkWord_fields f
  rw [rget_linkUp]
  refine ⟨?_, ?_, ?_, ?_, bit_setFld_same _ 10 _ (by omega)⟩
  · rw [fld_setFld_below _ 10 1 _ 0 4 (by omega) (by omega), hspeed]
  · rw [fld_setFld_below _ 10 1 _ 4 5 (by omega) (by omega), hwidth]
  · rw [bit_setFld_below _ 10 1 _ 9 (by omega) (by omega), hflit]
  · rw [bit_setFld_above _ 10 1 _ 11 (by omega) (by omega), hup]

theorem linkUp_frame (f : HostFit) (s : State) : (linkUp f s).store = s.store ∧ (linkUp f s).host = s.host := by
  rw [linkUp, cxlUpdate_eq, rsetFld_store, rset_store, rsetFld_host, rset_host]
  exact ⟨rfl, rfl⟩

/-! Configuration requests (R443) -/

/-- Under a PCIe function a request waits for that function's reset alone. -/
theorem configRun_function {path : Path} (hm : path ≠ .mgmt) (ha : path ≠ .akist) (op : ConfigOp) (s : State) : configRun path op s =
    if fnResetting s path then configAnswer path op true s else configAnswer path op false (configWrite path op s) := by
  cases path with
  | mgmt => exact absurd rfl hm
  | akist => exact absurd rfl ha
  | pf p => rfl
  | vf p n => rfl

/-- An answer leaves at once where the request writes, or where nothing posted stands before it (R295). -/
theorem configAnswer_now {s : State} {path : Path} {op : ConfigOp} (h : portBlocked s path = false ∨ configReads op = false) (retry : Bool) :
    configAnswer path op retry s = emit (.config path retry) s := by
  unfold configAnswer hostEmit
  rcases h with h | h <;> simp only [h, Bool.false_eq_true, if_false, ite_self]

theorem configWrite_msixMasked {path : Path} {e : Fin 128} (h : e.val < msixEntries (fnIdx path)) (s : State) :
    (fnOf (configWrite path (.msixMask e true) s) (fnIdx path)).msixMasked.contains e.val = true := by
  unfold configWrite
  dsimp only
  rw [if_neg (Nat.not_le.2 h), if_pos rfl, fnOf_fnSet_same, List.contains_cons, beq_self_eq_true, Bool.true_or]

theorem mailboxRun_identify (hp : Nat) (s : State) :
    mailboxRun hp .identifyMemoryDevice s = emit (.mailbox hp true (leBytes 8 (draw s).1.toNat)) (draw s).2 := rfl

/-- Settles O43: a link by the word its training writes, a request by its function, a mailbox command by its answer. -/
theorem hostLinksAndConfiguration : Obligations.HostLinksAndConfiguration := by
  unfold Obligations.HostLinksAndConfiguration
  refine ⟨?link, ?config, ?write, ?mailbox⟩
  case link =>
    intro s fit hal hmay
    obtain ⟨hstore, hhost⟩ := linkUp_frame fit s
    refine ⟨_, exec_actTo hal (if_pos hmay), hstore, hhost, ?_⟩
    obtain ⟨hspeed, hwidth, hflit, hup, hcxl⟩ := linkUp_shows fit s
    exact ⟨hspeed, hwidth, hflit, hup, hcxl.trans (cxlMemOn_linkTrained fit s)⟩
  case config =>
    intro s path op hal hm ha
    have e := configRun_function hm ha op s
    exact ⟨fun h => exec_actTo hal (e.trans (if_pos h)), fun h => exec_actTo hal (e.trans (if_neg (ne_true_of_eq_false h))), fun retry h => configAnswer_now h retry⟩
  case write =>
    intro s path on i
    exact ⟨rfl, rfl, rfl, fun n => rfl, fun e he => configWrite_msixMasked he s, rfl⟩
  case mailbox =>
    intro s hp hal
    exact ⟨exec_actTo hal rfl, exec_actTo hal rfl, exec_actTo hal rfl, _, (draw s).2, exec_actTo hal (mailboxRun_identify hp s), rfl, rfl⟩

end Sys2Proof.Machine
end

section
/-! The commands on page tables, writes of ASID_CFG, and the invalidations that hosts answer to (O44). -/

namespace Sys2Proof.Machine

open Sys2Proof

/-! What a MAP command makes of the tables (R407, R408, R418) -/

/-- The tables take new entries for a range: once no copy moves its pages, and where they have room; the old entries stay in the caches. -/
def tablesTake (i asid lo hi : Nat) (es : NMap Pte) (s : State) : State :=
  if mapHeld s i then setBusy Reg.mapCmd i true s
  else if ptCap s < ptPagesAll es then cmdEnd Reg.mapCmd i .quota s
  else cmdEnd Reg.mapCmd i .ok { keepStale asid lo hi s with host := { (keepStale asid lo hi s).host with ptes := es } }

section Tables

variable {s : State} {i asid lo hi : Nat} {es : NMap Pte}

theorem tablesTake_held (hh : mapHeld s i = true) : tablesTake i asid lo hi es s = setBusy Reg.mapCmd i true s := if_pos hh

variable (hh : mapHeld s i = false)
include hh

theorem tablesTake_full (h : ptCap s < ptPagesAll es) : tablesTake i asid lo hi es s = cmdEnd Reg.mapCmd i .quota s :=
  (if_neg (ne_true_of_eq_false hh)).trans (if_pos h)

theorem tablesTake_room (h : ptPagesAll es ≤ ptCap s) : let u := tablesTake i asid lo hi es s
    u.host.ptes = es ∧ u.host.stale = (keepStale asid lo hi s).host.stale ∧ u.store = s.store ∧ fld (rget u Reg.mapCmd i) 8 8 = Status.ok.code := by
  dsimp only
  rw [tablesTake, if_neg (ne_true_of_eq_false hh), if_neg (Nat.not_lt.2 h), cmdEnd_host, cmdEnd_store, cmdEnd_status]
  exact ⟨rfl, rfl, rfl, rfl⟩

end Tables

/-- The entries that MAP writes over a table in which their range is empty. -/
def mapPut (i : Nat) (s : State) (m : NMap Pte) : NMap Pte :=
  let a := rget s Reg.mapAttr i
  let n := sizePages (fld a 0 2)
  (List.range (fld a 8 20)).foldl (fun m j => mset (pteKey (rfld s Reg.mapAsid i 0 12) (mapVa s i / 4096 + j * n))
    { size := fld a 0 2, kind := fld a 2 2, r := bit a 4, w := bit a 5, pin := bit a 6, sh := bit a 7, migrated := false,
      tgt := mapTgt s i + j * n * 4096, shd := if bit a 7 then mapShd s i + j * n * 4096 else 0, hostTgt := 0 } m) m

/-- The page after the last one that a MAP command names. -/
def mapEnd (i : Nat) (s : State) : Nat := mapVa s i / 4096 + rfld s Reg.mapAttr i 8 20 * sizePages (rfld s Reg.mapAttr i 0 2)

/-- The tables without the entries of the range that a MAP command names. -/
def mapCleared (i : Nat) (s : State) : NMap Pte := clearRange (rfld s Reg.mapAsid i 0 12) (mapVa s i / 4096) (mapEnd i s) s.host.ptes

section Commands

variable {s : State} {i : Nat}

theorem mapRun_bad (h : mapBad s i = true) : mapRun i s = cmdEnd Reg.mapCmd i .decode s := if_pos h

theorem mapRun_foreign (hb : mapBad s i = false) (h : asidPart s (rfld s Reg.mapAsid i 0 12) ≠ some i) : mapRun i s = cmdEnd Reg.mapCmd i .ownership s :=
  (if_neg (ne_true_of_eq_false hb)).trans (if_pos h)

theorem mapRun_own (hb : mapBad s i = false) (h : asidPart s (rfld s Reg.mapAsid i 0 12) = some i) :
    mapRun i s = tablesTake i (rfld s Reg.mapAsid i 0 12) (mapVa s i / 4096) (mapEnd i s) (mapPut i s (mapCleared i s)) s :=
  (if_neg (ne_true_of_eq_false hb)).trans (if_neg (not_not.2 h))

theorem unmapRun_own (hz : rfld s Reg.mapAttr i 0 2 ≠ 3) (hn : rfld s Reg.mapAttr i 8 20 ≠ 0)
    (hal : mapVa s i % (sizePages (rfld s Reg.mapAttr i 0 2) * 4096) = 0)
    (hend : mapVa s i + rfld s Reg.mapAttr i 8 20 * (sizePages (rfld s Reg.mapAttr i 0 2) * 4096) ≤ 2 ^ 48)
    (h : asidPart s (rfld s Reg.mapAsid i 0 12) = some i) :
    unmapRun i s = tablesTake i (rfld s Reg.mapAsid i 0 12) (mapVa s i / 4096) (mapEnd i s) (mapCleared i s) s := by
  have hgood : ¬(rfld s Reg.mapAttr i 0 2 = 3 ∨ rfld s Reg.mapAttr i 8 20 = 0 ∨ mapVa s i % (sizePages (rfld s Reg.mapAttr i 0 2) * 4096) ≠ 0 ∨
      2 ^ 48 < mapVa s i + rfld s Reg.mapAttr i 8 20 * (sizePages (rfld s Reg.mapAttr i 0 2) * 4096)) := by
    rw [not_or, not_or, not_or, not_not, Nat.not_lt]
    exact ⟨hz, hn, hal, hend⟩
  exact (if_neg hgood).trans (if_neg (not_not.2 h))

/-! QUERY and INVAL -/

/-- MAP_ATTR as QUERY shows an entry: V, and COUNT 1. -/
def queryAttr (e : Pte) : W32 :=
  w32 (2 ^ 31 + 2 ^ 30 * b2n e.migrated + 2 ^ 8 + 2 ^ 7 * b2n e.sh + 2 ^ 6 * b2n e.pin + 2 ^ 5 * b2n e.w + 2 ^ 4 * b2n e.r + 4 * e.kind + e.size)

/-- The operand registers as QUERY loads them with the entry whose first page is b. -/
def queryLoaded (i b : Nat) (e : Pte) (s : State) : State :=
  let s := rset Reg.mapVaLo i (w32 (b * 4096)) (rset Reg.mapVaHi i (w32 (b * 4096 / 2 ^ 32)) s)
  let s := rset Reg.mapTgtLo i (w32 e.tgt) (rset Reg.mapTgtHi i (w32 (e.tgt / 2 ^ 32)) s)
  let s := rset Reg.mapShdLo i (w32 e.shd) (rset Reg.mapShdHi i (w32 (e.shd / 2 ^ 32)) s)
  rset Reg.mapAttr i (queryAttr e) s

theorem rkey_ne_offset {r r' : Nat} (h : r ≠ r') (i : Nat) : rkey r i ≠ rkey r' i := by
  unfold rkey
  omega

/-- A register at another offset of the same set reads as before. -/
theorem rget_rset_beside {r r' : Nat} (h : r ≠ r') (i : Nat) (v : W32) (s : State) : rget (rset r i v s) r' i = rget s r' i := rget_rset_ne (rkey_ne_offset h i) v s

theorem rget_queryLoaded (i b : Nat) (e : Pte) (s : State) : let u := queryLoaded i b e s
    rget u Reg.mapTgtLo i = w32 e.tgt ∧ rget u Reg.mapTgtHi i = w32 (e.tgt / 2 ^ 32) ∧ rget u Reg.mapVaLo i = w32 (b * 4096) := by
  unfold queryLoaded
  simp (disch := decide) only [rget_rset_beside, rget_rset_same, and_self]

theorem queryLoaded_frame (i b : Nat) (e : Pte) (s : State) : (queryLoaded i b e s).store = s.store ∧ (queryLoaded i b e s).host = s.host := by
  unfold queryLoaded
  simp only [rset_store, rset_host, and_self]

section Own

variable (hown : asidPart s (rfld s Reg.mapAsid i 0 12) = some i)
include hown

theorem mapQueryRun_none (h : pteAt s (rfld s Reg.mapAsid i 0 12) (mapVa s i / 4096) = none) :
    mapQueryRun i s = cmdEnd Reg.mapCmd i .ok (rset Reg.mapAttr i (rget s Reg.mapAttr i &&& 0x3FFFFFFF) s) := by
  unfold mapQueryRun
  simp only [hown, h, ne_eq, not_true_eq_false, if_false]

theorem mapQueryRun_some {b : Nat} {e : Pte} (h : pteAt s (rfld s Reg.mapAsid i 0 12) (mapVa s i / 4096) = some (b, e)) :
    mapQueryRun i s = cmdEnd Reg.mapCmd i .ok (queryLoaded i b e s) := by
  unfold mapQueryRun
  simp only [hown, h, ne_eq, not_true_eq_false, if_false]
  rfl

theorem mapInvalRun_still (h : rangeMoves s (rfld s Reg.mapAsid i 0 12) 0 (2 ^ 36) = false) :
    mapInvalRun i s = cmdEnd Reg.mapCmd i .ok (invalAsid (rfld s Reg.mapAsid i 0 12) s) :=
  (if_neg (not_not.2 hown)).trans (if_neg (ne_true_of_eq_false h))

end Own

end Commands

/-! ASID_CFG (R404, Table 11-11) -/

/-- A bit of a register that a write reaches holds what was written. -/
theorem bit_cfgStore {r b : Nat} {m : W32} (hr : (regRow r).map (·.rw) = some m) (hb : bit m b = true) (i : Nat) (v : W32) (s : State) :
    bit (rget (cfgStore r i v s) r i) b = bit v b := by
  obtain ⟨row, hrow, rfl⟩ := Option.map_eq_some_iff.1 hr
  unfold bit at hb ⊢
  rw [cfgStore, hrow]
  simp [hb]

/-- The ASID without its entries, in the tables as in the caches. -/
def asidEmptied (asid : Nat) (s : State) : State :=
  let s := invalAsid asid s
  { s with host := { s.host with ptes := s.host.ptes.filter fun e => e.1 / 2 ^ 36 != asid } }

section AsidCfg

variable {s : State} {asid : Nat} {v : W32}

theorem asidCfgSet_clears (hold : bit (rget s Reg.asidCfg asid) 31 = true) (hv : bit v 31 = false) :
    asidCfgSet asid v s = cfgStore Reg.asidCfg asid (setFld v 0 8 (fld (rget s Reg.asidCfg asid) 0 8)) (asidEmptied asid s) := by
  unfold asidCfgSet
  dsimp only
  rw [if_pos hold, if_pos]
  · rfl
  · rw [hold, bit_setFld_above v 0 8 _ 31 (by omega) (by omega), hv]
    rfl

theorem asidCfgSet_stores (h : bit (rget s Reg.asidCfg asid) 31 = false ∨ bit v 31 = true) : asidCfgSet asid v s =
    cfgStore Reg.asidCfg asid (if bit (rget s Reg.asidCfg asid) 31 then setFld v 0 8 (fld (rget s Reg.asidCfg asid) 0 8) else v) s := by
  unfold asidCfgSet
  dsimp only
  refine if_neg ?_
  rcases h with h | h
  · simp [h]
  · cases hold : bit (rget s Reg.asidCfg asid) 31
    · simp
    · rw [if_pos rfl, bit_setFld_above v 0 8 _ 31 (by omega) (by omega), h]
      decide

/-- After a write that clears VALID nothing of the ASID is left. -/
theorem asidCfgSet_cleared (hold : bit (rget s Reg.asidCfg asid) 31 = true) (hv : bit v 31 = false) : let u := asidCfgSet asid v s
    u.store = s.store ∧ (∀ e ∈ u.host.ptes, e.1 / 2 ^ 36 ≠ asid) ∧ (∀ e ∈ u.host.stale, e.1 / 2 ^ 36 ≠ asid) ∧ rbit u Reg.asidCfg asid 31 = false := by
  have hmask : (regRow Reg.asidCfg).map (·.rw) = some 0xFFE000FF := by decide +kernel
  dsimp only
  rw [asidCfgSet_clears hold hv, cfgStore_store, cfgStore_host]
  refine ⟨rfl, fun e he => ?_, fun e he => ?_, ?_⟩
  · simpa using (List.mem_filter.1 he).2
  · simpa using (List.mem_filter.1 he).2
  · rw [rbit, ← bit, bit_cfgStore hmask (by decide), bit_setFld_above v 0 8 _ 31 (by omega) (by omega), hv]

end AsidCfg

/-! Invalidate Requests (R411) -/

theorem mem_atc_atsInvalidate (hp fn pasid addr pages tag : Nat) (s : State) (e : Nat × Nat × Bool) :
    e ∈ (atsInvalidate hp fn pasid addr pages tag s).host.atc ↔ e ∈ s.host.atc ∧
      ¬(e.1 / 2 ^ 52 = (hp * 256 + fn) * 2 ^ 20 + pasid ∧ addr / 4096 ≤ e.1 % 2 ^ 52 ∧ e.1 % 2 ^ 52 < addr / 4096 + pages) := by
  unfold atsInvalidate
  simp only [List.mem_filter, Bool.not_eq_true', Bool.and_eq_false_iff, not_and_or, beq_eq_false_iff_ne, decide_eq_false_iff_not, or_assoc, ne_eq]

/-- Settles O44: MAP and UNMAP hand the tables their new entries, the others have one lemma for each outcome. -/
theorem pageTableCommands : Obligations.PageTableCommands := by
  unfold Obligations.PageTableCommands
  refine ⟨?map, ?unmap, ?queryShows, ?queryNone, ?inval, ?asidCfg, ?request, fun s hp tag hal h => exec_actTo hal (if_pos h)⟩
  case map =>
    intro s path v i hacc s1 asid
    have hhost : s1.host = s.host := taken_host ..
    have hstore : s1.store = s.store := taken_store ..
    refine ⟨fun hb => exec_issueTo hacc (by decide) (mapRun_bad hb), fun hb ho => exec_issueTo hacc (by decide) (mapRun_foreign hb ho), fun hb ho hh => ?_, ?_⟩
    · exact exec_issueTo hacc (by decide) ((mapRun_own hb ho).trans (tablesTake_held hh))
    · rw [← hhost, ← hstore]
      intro hb ho hh a n vp es
      exact ⟨fun h => exec_issueTo hacc (by decide) ((mapRun_own hb ho).trans (tablesTake_full hh h)),
        fun h => ⟨_, exec_issueTo hacc (by decide) (mapRun_own hb ho), tablesTake_room hh h⟩⟩
  case unmap =>
    intro s path v i hacc s1
    have hhost : s1.host = s.host := taken_host ..
    have hstore : s1.store = s.store := taken_store ..
    rw [← hhost, ← hstore]
    intro a bytes lo hi es hz hn hal hend ho hh hroom
    exact ⟨_, exec_issueTo hacc (by decide) (unmapRun_own hz hn hal hend ho), tablesTake_room hh hroom⟩
  case queryShows =>
    intro s path v i b e hacc s1 ho h
    have beside : ∀ r, Reg.mapCmd ≠ r → ∀ t, rget (cmdEnd Reg.mapCmd i .ok t) r i = rget t r i := fun r hr t => rget_cmdEnd_ne (rkey_ne_offset hr i) .ok t
    obtain ⟨hstore, hhost⟩ := queryLoaded_frame i b e s1
    refine ⟨_, exec_issueTo hacc (by decide) (mapQueryRun_some ho h), ?_⟩
    rw [cmdEnd_store, hstore, cmdEnd_host, hhost, beside _ (by decide), beside _ (by decide), beside _ (by decide)]
    exact ⟨taken_store .., taken_host .., rget_queryLoaded i b e s1⟩
  case queryNone => exact fun s path v i hacc ho h => exec_issueTo hacc (by decide) (mapQueryRun_none ho h)
  case inval => exact fun s path v i hacc ho h => exec_issueTo hacc (by decide) (mapInvalRun_still ho h)
  case asidCfg =>
    intro s path v i hr s1 asid old
    exact ⟨fun hold hv => ⟨_, exec_regWriteTo hr rfl, asidCfgSet_cleared hold hv⟩, fun h => exec_regWriteTo hr (asidCfgSet_stores h)⟩
  case request =>
    intro s hp fn pasid addr pages tag hal
    exact ⟨_, exec_actTo hal rfl, rfl, rfl, rfl, fun e => mem_atc_atsInvalidate ..⟩

end Sys2Proof.Machine
end

section
/-! DMA channels: the writes that start, abort and resume them, their turn at the engine, their page requests and their end (O45). -/

namespace Sys2Proof.Machine

open Sys2Proof

/-! CH_CTL (R420, R425) -/

section ChCtl

variable {v : W32} (c e : Nat) (s : State)

theorem chCtlSet_start (h0 : bit v 0 = true) (h2 : bit v 2 = false) (h3 : bit v 3 = false) :
    chCtlSet c v e s = chanStart e c (storeParity (chReg Reg.chCtl c) e 12 s) := by
  unfold chCtlSet
  simp only [h0, h2, h3, Bool.false_eq_true, if_false, if_true]

theorem chCtlSet_abort (h0 : bit v 0 = false) (h2 : bit v 2 = true) (h3 : bit v 3 = false) :
    chCtlSet c v e s = chanAbort e c (storeParity (chReg Reg.chCtl c) e 12 s) := by
  unfold chCtlSet
  simp only [h0, h2, h3, Bool.false_eq_true, if_false, if_true]

theorem chCtlSet_resume (h0 : bit v 0 = false) (h2 : bit v 2 = false) (h3 : bit v 3 = true) :
    chCtlSet c v e s = chanResume e c (storeParity (chReg Reg.chCtl c) e 12 s) := by
  unfold chCtlSet
  simp only [h0, h2, h3, Bool.false_eq_true, if_false, if_true]

end ChCtl

/-- A channel as START samples it from its registers. -/
def chanSampled (e c : Nat) (s : State) : Chan :=
  let r := fun x => rget s (chReg x c) e
  let cfg := r Reg.chCfg
  { Chan.idle with
    state := 1
    src := (r Reg.chSrcLo).toNat + fld (r Reg.chSrcHi) 0 16 * 2 ^ 32
    dst := (r Reg.chDstLo).toNat + fld (r Reg.chDstHi) 0 16 * 2 ^ 32
    len := (r Reg.chLenLo).toNat + fld (r Reg.chLenHi) 0 8 * 2 ^ 32
    asid := fld cfg 20 12
    swap := fld cfg 17 3
    tally := if bit cfg 16 then some (fld (r Reg.chTally) 0 16) else none
    vector := if bit cfg 15 then some (fld cfg 8 6) else none }

/-- START of an IDLE channel whose intake runs. -/
theorem chanOf_chanStart {s : State} {e c : Nat} (hidle : chanOf s e c = none) (hpart : ∀ p, dmaPart s e = some p → intakeStopped s p = false)
    (hnone : dmaPart s e = none → fatal s = false) : chanOf (chanStart e c s) e c = some (chanSampled e c s) := by
  unfold chanStart
  cases hp : dmaPart s e with
  | none =>
    simp only [hidle, hnone hp, Option.isSome_none, Bool.or_self, Bool.false_eq_true, if_false]
    exact mget_mset_same ..
  | some p =>
    simp only [hidle, hpart p hp, Option.isSome_none, Bool.or_self, Bool.false_eq_true, if_false]
    exact mget_mset_same ..

/-! A channel's turn at its engine (R420, R421) -/

section Turn

variable {s : State} {e c : Nat} {t : List Nat} {ch : Chan} (ho : chanOrder (checkUse s) e = c :: t) (hc : chanOf (checkUse s) e c = some ch)
  (hended : ch.ended = false) (hwait : ch.waitPri = false) (hread : chanReading (checkUse s) e c = false)
include ho hc hended hwait hread

theorem dmaRun_refused {st : Status} (h1 : ch.state = 1) (h : chanCheck (checkUse s) e ch = some st) : dmaRun e s =
    chanMod e c (fun ch => { ch with state := 2, statuses := if st = .ok then ch.statuses else st :: ch.statuses, ended := true }) (checkUse s) := by
  unfold dmaRun
  simp only [ho, hc, hended, hwait, hread, h1, h, Bool.false_eq_true, or_self, if_false, if_true]

theorem dmaRun_starts (h1 : ch.state = 1) (h : chanCheck (checkUse s) e ch = none) :
    dmaRun e s = chanGo e c (chanMod e c (fun ch => { ch with state := 2 }) (checkUse s)) := by
  unfold dmaRun
  simp only [ho, hc, hended, hwait, hread, h1, h, Bool.false_eq_true, or_self, if_false, if_true]

theorem dmaRun_goesOn (h1 : ch.state ≠ 1) : dmaRun e s = chanGo e c (checkUse s) := by
  unfold dmaRun
  simp only [ho, hc, hended, hwait, hread, h1, Bool.false_eq_true, or_self, if_false]

end Turn

/-! Page requests (R413, R414) -/

section PageRequest

variable {s : State} {e c : Nat} {ch : Chan} (hc : chanOf s e c = some ch) (hwait : ch.waitPri = true)
include hc hwait

theorem priExpire_due (h0 : 0 < ch.priLimit) (h : ch.priLimit ≤ ch.waitEdges) : priExpire e c s = priPump (asidFn s ch.asid) (chanPause e c s) := by
  unfold priExpire
  simp only [hc, hwait, h0, h, and_self, if_true]

variable (hsent : ch.priLimit ≠ 0)
include hsent

theorem prgTake_invalidRequest : prgTake e c .invalidRequest s =
    priPump (asidFn s ch.asid) (chanPause e c (chanMod e c (fun ch => { ch with waitPri := false }) s)) := by
  unfold prgTake
  simp only [hc, hwait, hsent, Bool.not_true, decide_false, Bool.or_self, Bool.false_eq_true, if_false]

theorem prgTake_success : prgTake e c .success s = priPump (asidFn s ch.asid)
    (chanGo e c (chanMod e c (fun ch => { ch with retried := true }) (chanMod e c (fun ch => { ch with waitPri := false }) s))) := by
  unfold prgTake
  simp only [hc, hwait, hsent, Bool.not_true, decide_false, Bool.or_self, Bool.false_eq_true, if_false]

theorem prgTake_responseFailure : prgTake e c .responseFailure s =
    let s2 := fnSet (asidFn s ch.asid) (fun f => { f with priStopped := true }) (chanMod e c (Chan.stop .fault) (chanMod e c (fun ch => { ch with waitPri := false }) s))
    (priWaiting s2 (asidFn s ch.asid) false).foldl (fun s x => chanPause (x.1 / 8) (x.1 % 8) s) s2 := by
  unfold prgTake
  simp only [hc, hwait, hsent, Bool.not_true, decide_false, Bool.or_self, Bool.false_eq_true, if_false]

end PageRequest

/-! Completion (R424) -/

/-- The channel's registers as its completion leaves them. -/
def chanResult (e c : Nat) (st : Status) (n : Nat) (s : State) : State :=
  rset (chReg Reg.chDoneHi c) e (w32 (n / 2 ^ 32)) (rset (chReg Reg.chDoneLo c) e (w32 n) (rset (chReg Reg.chCtl c) e (w32 (st.code * 2 ^ 16)) s))

/-- The engine without the channel, its result in its registers. -/
def chanLeft (e c : Nat) (ch : Chan) (s : State) : State :=
  chanResult e c (worstOf ch.statuses) (ch.done - ch.bad)
    (setOrder e ((chanOrder s e).filter (· ≠ c)) { s with host := { s.host with chans := mdel (chanKey e c) s.host.chans } })

theorem chanOf_chanLeft (e c : Nat) (ch : Chan) (s : State) : chanOf (chanLeft e c ch s) e c = none := by
  rw [chanOf, chanLeft, chanResult, rset_host, rset_host, rset_host]
  exact mget_mdel_same ..

theorem rget_chanLeft_doneLo (e c : Nat) (ch : Chan) (s : State) : rget (chanLeft e c ch s) (chReg Reg.chDoneLo c) e = w32 (ch.done - ch.bad) := by
  rw [chanLeft, chanResult, rget_rset_beside (by unfold chReg Reg.chDoneHi Reg.chDoneLo; omega), rget_rset_same]

/-- What the partition of a channel that has left hears: a FAULT is counted, the tally counts up, the vector is raised. -/
def chanTold (p : Nat) (ch : Chan) (s : State) : State :=
  let s := if worstOf ch.statuses = .fault then bump Reg.xlateFaults p s else s
  raiseOpt p ch.vector (match ch.tally with | some t => tallyAddFor p t 1 s | none => s)

section Completion

variable {s : State} {e c : Nat} {ch : Chan} (hc : chanOf s e c = some ch) (hended : ch.ended = true) (hread : chanReading s e c = false)
  (hwrite : chanWriting s e c = false)
include hc hended hread hwrite

theorem dmaFinish_unassigned (h : dmaPart (chanLeft e c ch s) e = none) : dmaFinish e c s = chanLeft e c ch s := by
  unfold chanLeft chanResult at h ⊢
  unfold dmaFinish
  simp only [hc, hended, hread, hwrite, Bool.not_true, Bool.or_self, Bool.false_eq_true, if_false, h]

theorem dmaFinish_assigned {p : Nat} (h : dmaPart (chanLeft e c ch s) e = some p) : dmaFinish e c s = chanTold p ch (chanLeft e c ch s) := by
  unfold chanLeft chanResult at h ⊢
  unfold dmaFinish
  simp only [hc, hended, hread, hwrite, Bool.not_true, Bool.or_self, Bool.false_eq_true, if_false, h]
  rfl

end Completion

/-- Settles O45, with one lemma for each outcome of a write, of a turn, of a page request and of a completion. -/
theorem dmaChannels : Obligations.DmaChannels := by
  unfold Obligations.DmaChannels
  refine ⟨?control, ?sample, ?turn, ?pageRequest, ?complete, ?assign⟩
  case control =>
    intro s path ch v e hr s1
    exact ⟨fun h0 h2 h3 => exec_regWriteTo hr ((if_pos h0).trans (chCtlSet_start ch e _ h0 h2 h3)),
      fun h0 h2 h3 => exec_regWriteTo hr ((if_pos h2).trans (chCtlSet_abort ch e _ h0 h2 h3)),
      fun h0 h2 h3 => exec_regWriteTo hr ((if_pos h3).trans (chCtlSet_resume ch e _ h0 h2 h3))⟩
  case sample => exact fun s e c hidle hpart hnone => ⟨_, chanOf_chanStart hidle hpart hnone, rfl, rfl, rfl, rfl, rfl⟩
  case turn =>
    intro s0 eng c t ch hal s ho hc hended hwait hread
    exact ⟨fun st h1 h => exec_actTo hal (dmaRun_refused ho hc hended hwait hread h1 h),
      fun h1 h => exec_actTo hal (dmaRun_starts ho hc hended hwait hread h1 h), fun h1 => exec_actTo hal (dmaRun_goesOn ho hc hended hwait hread h1)⟩
  case pageRequest =>
    intro s eng c ch hal hc hwait s1
    exact ⟨fun hsent => exec_actTo hal (prgTake_invalidRequest hc hwait hsent), fun hsent => exec_actTo hal (prgTake_responseFailure hc hwait hsent),
      fun hsent => exec_actTo hal (prgTake_success hc hwait hsent), fun h0 h => exec_actTo hal (priExpire_due hc hwait h0 h)⟩
  case complete =>
    intro s eng c ch hal hc hended hread hwrite
    exact ⟨chanOf_chanLeft eng c ch s, rget_chanLeft_doneLo eng c ch s, fun h => exec_actTo hal (dmaFinish_unassigned hc hended hread hwrite h),
      fun p h => exec_actTo hal (dmaFinish_assigned hc hended hread hwrite h)⟩
  case assign =>
    intro s path v e hr s1
    exact ⟨fun h => exec_regWriteTo hr (if_pos h), fun h => exec_regWriteTo hr (if_neg (ne_true_of_eq_false h))⟩

end Sys2Proof.Machine
end

section
/-! Partitions: CREATE and DESTROY, the causes and the steps of a reset, the function map, vector masks and reel resets (O46). -/

namespace Sys2Proof.Machine

open Sys2Proof

/-! CREATE and DESTROY (R427, R429) -/

/-- PART_CMD while a DESTROY runs: BUSY, its STATUS cleared. -/
def destroyTaken (s : State) : State := setBusy Reg.partCmd 0 true (rsetFld Reg.partCmd 0 8 8 0 s)

section PartCmd

variable {s : State} (h0 : partNum s ≠ 0) (hn : partNum s < parts s)
include h0 hn

theorem partCreateRun_free (hfree : partState s (partNum s) = 0) :
    partCreateRun s = cmdEnd Reg.partCmd 0 .ok (rsetFld Reg.partStatus (partNum s) 0 2 1 (partSetReset (partNum s) s)) := by
  unfold partCreateRun
  simp only [h0, Nat.not_le.2 hn, hfree, ne_eq, not_true, or_self, if_false]

variable (hused : partState s (partNum s) ≠ 0)
include hused

theorem partDestroyRun_starts (hr : partRun (destroyTaken s) (partNum s) = none) :
    partDestroyRun s = partResetStart (partNum s) true
      (rsetFld Reg.partStatus (partNum s) 8 4 4 (destroyTaken s)) := by
  unfold destroyTaken at hr ⊢
  unfold partDestroyRun
  simp only [h0, Nat.not_le.2 hn, hused, or_self, if_false, hr]

theorem partDestroyRun_follows {r : PartRun} (hr : partRun (destroyTaken s) (partNum s) = some r) :
    partDestroyRun s = rsetFld Reg.partStatus (partNum s) 8 4 4
      (runSet (partNum s) { r with destroyWaits := true } (destroyTaken s)) := by
  unfold destroyTaken at hr ⊢
  unfold partDestroyRun
  simp only [h0, Nat.not_le.2 hn, hused, or_self, if_false, hr]

end PartCmd

/-! Causes of a reset (R439) -/

theorem partCtlSet_reset {v : W32} (h : bit v 0 = true) (i : Nat) (s : State) : partCtlSet v i s = partCause i 1 (storeParity Reg.partCtl i 0 s) :=
  if_pos h

theorem partCause_ignored {s : State} {part : Nat} (h : partState s part = 0 ∨ parts s ≤ part) (cause : Nat) : partCause part cause s = s := if_pos h

theorem partCause_recorded {s : State} {part : Nat} (hused : partState s part ≠ 0) (hn : part < parts s) (cause : Nat) :
    partCause part cause s = if partBusy (rsetFld Reg.partStatus part 8 4 cause s) part then rsetFld Reg.partStatus part 8 4 cause s
      else partResetStart part false (rsetFld Reg.partStatus part 8 4 cause s) :=
  if_neg (not_or.2 ⟨hused, Nat.not_le.2 hn⟩)

/-! The steps of a reset (R439, R440) -/

/-- Something still reaches an allocation of the partition that the reset releases (R43). -/
def partReached (part : Nat) (r : PartRun) (s : State) : Bool := r.destroy && s.store.allocs.any fun a => a.2.part == part && allocInUse s a.2

/-- The partition's COHERENT allocations. -/
def partCoherent (part : Nat) (s : State) : NMap Alloc := s.store.allocs.filter fun a => a.2.part == part && fCoherent a.2.flags

/-- Step 4 begins: one walk for each COHERENT allocation. -/
def partWalks (part : Nat) (coh : NMap Alloc) (s : State) : State :=
  coh.foldl (fun s a => addWalk { lo := a.2.base * pageSize, hi := (a.2.base + a.2.pages) * pageSize, slot := none, why := .partReset part, running := false } s) s

section Steps

variable {s : State} {part : Nat} {r : PartRun} (hr : partRun s part = some r)
include hr

theorem partWorkEnded_done (h1 : r.step = 1) (hd : partWorkDone s part = true) :
    partWorkEnded part s = rsetFld Reg.partStatus part 4 3 2 (runSet part { r with step := 2 } s) := by
  unfold partWorkEnded
  simp only [hr, h1, hd, and_self, if_true]

theorem partTagsDrained_drained (h2 : r.step = 2) (hd : (s.fab.reqs.any fun x => x.part == part && x.owner != ReqOwner.commitWalk) = false) :
    partTagsDrained part s =
      let s1 := rsetFld Reg.partStatus part 4 3 3 (runSet part { r with step := 3 } s)
      if (partCoherent part s).isEmpty && !partReached part r s1 then partFinish part r s1 else partWalks part (partCoherent part s) s1 := by
  unfold partTagsDrained
  simp only [hr, h2, hd, Bool.not_false, and_self, if_true]
  rfl

theorem partWalkEnded_ended (h3 : r.step = 3) (hw : s.coh.walks.any (fun w => w.why == WalkFor.partReset part) = false)
    (hf : partReached part r s = false) : partWalkEnded part s = partFinish part r s := by
  unfold partReached at hf
  unfold partWalkEnded
  simp only [hr, h3, hw, hf, Bool.not_false, and_self, if_true]

end Steps

/-! Functions (R430) -/

section FnMap

variable {s : State} (v : W32)

theorem fnMapSet_absent (h : fnExists s (rfld s Reg.fnIdx 0 0 9) = false) : fnMapSet v s = s := by
  unfold fnMapSet
  simp only [h, Bool.not_false, if_true]

theorem fnMapSet_existing (h : fnExists s (rfld s Reg.fnIdx 0 0 9) = true) :
    fnMapSet v s = cfgStore Reg.fnMap (rfld s Reg.fnIdx 0 0 9) (if rfld s Reg.fnIdx 0 0 9 % 256 = 0 then setFld v 31 1 0 else v) s := by
  unfold fnMapSet
  simp only [h, Bool.not_true, Bool.false_eq_true, if_false]

end FnMap

/-! Vector masks (R435) -/

/-- The mask bits that a write of VEC_MASK leaves: those it names as written, the others as they were. -/
def vecMasked (old v : W32) : W32 := w32 (((old &&& ~~~(w32 (fld v 16 16))) ||| (v &&& w32 (fld v 16 16))).toNat % 65536)

theorem bit_vecMasked (old v : W32) {b : Nat} (hb : b < 16) : bit (vecMasked old v) b = if bit v (16 + b) then bit v b else bit old b := by
  have h32 : b < 32 := by omega
  have hnamed : (w32 (fld v 16 16)).getLsbD b = v.getLsbD (16 + b) := by
    simp only [w32, fld, BitVec.getLsbD_ofNat, Nat.testBit_mod_two_pow, Nat.testBit_div_two_pow, hb, h32, decide_true, Bool.true_and,
      BitVec.testBit_toNat, Nat.add_comm]
  have hlow : ∀ x : W32, (w32 (x.toNat % 2 ^ 16)).getLsbD b = x.getLsbD b := fun x => by
    simp only [w32, BitVec.getLsbD_ofNat, Nat.testBit_mod_two_pow, hb, h32, decide_true, Bool.true_and, BitVec.testBit_toNat]
  unfold vecMasked bit
  refine (hlow _).trans ?_
  simp only [BitVec.getLsbD_or, BitVec.getLsbD_and, BitVec.getLsbD_not, hnamed, h32, decide_true, Bool.true_and]
  cases v.getLsbD (16 + b) <;> simp

theorem bit_low16 : ∀ b < 16, bit (0xFFFF : W32) b = true := by decide

/-- Of VEC_MASK a write reaches the 16 mask bits. -/
theorem regRow_vecMask : ∀ q : Fin 4, (regRow (Reg.vecMask + 4 * q)).map (·.rw) = some 0xFFFF := by decide +kernel

theorem rget_vecPend_cfgStore {i : Nat} (hi : i < 65536) (q : Fin 4) (v : W32) (s : State) :
    rget (cfgStore (Reg.vecMask + 4 * q) i v s) (Reg.vecPend + 4 * q) i = rget s (Reg.vecPend + 4 * q) i :=
  rget_cfgStore_ne (rkey_ne_reg hi hi (by unfold Reg.vecMask Reg.vecPend; omega))
    (rkey_ne_reg hi (by omega) (by unfold Reg.vecPend Reg.parityInject; omega)) v s

theorem vecMaskSet_nonePending {q : Fin 4} {i : Nat} {s : State} (hi : i < 65536) (h : rget s (Reg.vecPend + 4 * q) i = 0) (v : W32) :
    vecMaskSet q v i s = cfgStore (Reg.vecMask + 4 * q) i (vecMasked (rget s (Reg.vecMask + 4 * q) i) v) s := by
  refine List.foldlRecOn (motive := (· = _)) _ _ rfl ?_
  rintro s' rfl b -
  refine if_neg ?_
  simp [rbit, rget_vecPend_cfgStore hi, h]

/-! Reel resets (R444) -/

theorem stopDescs_store (q : Nat) (p : Desc → Bool) (st : Status) (s : State) : (stopDescs q p st s).store = s.store := rfl

/-- A fold of steps that keep store memory keeps it. -/
theorem foldl_store {α : Type} {f : State → α → State} (hf : ∀ s a, (f s a).store = s.store) (l : List α) (s : State) : (l.foldl f s).store = s.store :=
  List.foldlRecOn (motive := fun u : State => u.store = s.store) l f rfl fun u hu a _ => (hf u a).trans hu

section ReelReset

variable {s : State} {r : Nat} {v : W32}

theorem reelResetRun_busy (h : cmdBusy s Reg.reelCtl r = true) : reelResetRun v r s = s := if_pos h

variable (h : cmdBusy s Reg.reelCtl r = false)
include h

theorem reelResetRun_plain (hv : bit v 0 = false) : reelResetRun v r s = storeParity Reg.reelCtl r 2 s := by
  unfold reelResetRun
  simp only [h, hv, Bool.false_eq_true, Bool.not_false, if_false, if_true]

/-- RESET: what it stops, BUSY aside, keeps store memory. -/
theorem reelResetRun_reset (hv : bit v 0 = true) : ∃ u, reelResetRun v r s = setBusy Reg.reelCtl r true u ∧ u.store = s.store := by
  unfold reelResetRun
  simp only [h, hv, Bool.false_eq_true, Bool.not_true, if_false]
  refine ⟨_, rfl, ?_⟩
  rw [storeParity_store]
  refine (foldl_store (fun s e => stopDescs_store ..) _ _).trans (foldl_store (fun s p => foldl_store (fun s q => ?_) _ _) _ _)
  split <;> rfl

end ReelReset

theorem reelFails_noBadParity {s : State} (h : s.mgmt.badParity = []) (r : Nat) : reelFails s r = false := by
  rw [reelFails, h]
  rfl

/-- REEL_CTL back at its reset value, with good parity. -/
def reelCtlCleared (r : Nat) (s : State) : State :=
  rset Reg.reelCtl r 0 { s with mgmt := { s.mgmt with badParity := mdel (rkey Reg.reelCtl r) s.mgmt.badParity } }

/-- The reel in service. -/
def reelServes (r : Nat) (s : State) : State := { s with mgmt := { s.mgmt with stopped := s.mgmt.stopped.filter fun e => e != (2, some (setInst r)) } }

/-- The record of a failing register goes where it names the reel, and the unit's bit where the whole unit passes (R466). -/
def reelRecordEnds (r : Nat) (s : State) : State :=
  let hi := rget s Reg.parityWhereHi 0
  let s := if bit hi 31 && fld hi 16 5 == 2 && whereInst s 2 == some (setInst r) && !unitFails s 2 (some (setInst r)) then
    rset Reg.parityWhereHi 0 (hi &&& 0x7FFFFFFF) s else s
  if unitFails s 2 none then s else rset Reg.parityFault 0 (rget s Reg.parityFault 0 &&& ~~~(w32 4)) s

section ReelEnd

variable (s : State) {r : Nat}

theorem reelServes_notStopped : (2, some (setInst r)) ∉ (reelServes r s).mgmt.stopped := by simp [reelServes]

/-- Only the parity record's own registers can change with it. -/
theorem reelRecordEnds_keeps (hr : r < 65536) : rget (reelRecordEnds r s) Reg.reelCtl r = rget s Reg.reelCtl r ∧
    (reelRecordEnds r s).mgmt = s.mgmt ∧ (reelRecordEnds r s).store = s.store := by
  have hwhere : rkey Reg.parityWhereHi 0 ≠ rkey Reg.reelCtl r := rkey_ne_reg (by omega) hr (by decide)
  have hfault : rkey Reg.parityFault 0 ≠ rkey Reg.reelCtl r := rkey_ne_reg (by omega) hr (by decide)
  unfold reelRecordEnds
  dsimp only
  split_ifs <;> simp only [rget_rset_ne hwhere, rget_rset_ne hfault, rset_mgmt, rset_store, and_self]

variable {s}

/-- The end of a reel reset whose registers pass. -/
theorem reelResetDone_passes (hb : cmdBusy s Reg.reelCtl r = true) (hp : reelFails (reelCtlCleared r s) r = false) :
    reelResetDone r s = reelRecordEnds r (reelServes r (reelCtlCleared r s)) := by
  unfold reelResetDone
  rw [hb, Bool.not_true, if_neg Bool.false_ne_true]
  exact if_neg (ne_true_of_eq_false hp)

theorem reelResetDone_serves (hr : r < 65536) (hb : cmdBusy s Reg.reelCtl r = true) (hp : s.mgmt.badParity = []) :
    rget (reelResetDone r s) Reg.reelCtl r = 0 ∧ (2, some (setInst r)) ∉ (reelResetDone r s).mgmt.stopped ∧ (reelResetDone r s).store = s.store := by
  have hclean : (reelCtlCleared r s).mgmt.badParity = [] := by simp [reelCtlCleared, hp, mdel]
  obtain ⟨hreg, hmgmt, hstore⟩ := reelRecordEnds_keeps (reelServes r (reelCtlCleared r s)) hr
  rw [reelResetDone_passes hb (reelFails_noBadParity hclean r), hreg, hmgmt, hstore]
  exact ⟨(rget_congr (s := reelCtlCleared r s) rfl ..).trans (rget_rset_same ..), reelServes_notStopped _, rfl⟩

end ReelEnd

/-- Settles O46: each command by the lemma of its outcome, a RESET of a reel and its end by what they leave. -/
theorem partitionCommands : Obligations.PartitionCommands := by
  unfold Obligations.PartitionCommands
  refine ⟨?create, ?destroy, ?control, ?cause, ?steps, ?fnMap, ?mask, ?maskBits, ?reelBusy, ?reelPlain, ?reelReset, ?reelEnd⟩
  case create => exact fun s path v i hacc h0 hn hfree => exec_issueTo hacc (by decide) (partCreateRun_free h0 hn hfree)
  case destroy =>
    intro s path v i hacc s1 n h0 hn hused s2
    exact ⟨fun hr => exec_issueTo hacc (by decide) (partDestroyRun_starts h0 hn hused hr),
      fun r hr => exec_issueTo hacc (by decide) (partDestroyRun_follows h0 hn hused hr)⟩
  case control => exact fun s path v i hacc hv => exec_regWriteTo hacc (partCtlSet_reset hv i _)
  case cause => exact fun s part cause => ⟨fun h => partCause_ignored h cause, fun hused hn => partCause_recorded hused hn cause⟩
  case steps =>
    intro s part r hal hr
    exact ⟨fun h1 hd => exec_actTo hal (partWorkEnded_done hr h1 hd), fun h2 hd => exec_actTo hal (partTagsDrained_drained hr h2 hd),
      fun h3 hw hf => exec_actTo hal (partWalkEnded_ended hr h3 hw hf)⟩
  case fnMap =>
    intro s path v i hacc s1 k
    exact ⟨fun h => exec_regWriteTo hacc (fnMapSet_absent v h), fun h => exec_regWriteTo hacc (fnMapSet_existing v h)⟩
  case mask => exact fun s path q v i hacc => exec_regWrite hacc v _
  case maskBits =>
    intro s path q v i hacc hp u
    have hu : u = cfgStore (Reg.vecMask + 4 * q) i (vecMasked (rget s (Reg.vecMask + 4 * q) i) v) (useUnlock path s) :=
      vecMaskSet_nonePending (s := useUnlock path s) hacc.lt hp v
    rw [hu]
    exact ⟨cfgStore_store .., fun b hb => (bit_cfgStore (regRow_vecMask q) (bit_low16 b hb) i _ _).trans (bit_vecMasked _ v hb)⟩
  case reelBusy => exact fun s path v r hacc hb => exec_regWriteTo hacc (reelResetRun_busy (s := useUnlock path s) hb)
  case reelPlain => exact fun s path v r hacc hb hv => exec_regWriteTo hacc (reelResetRun_plain (s := useUnlock path s) hb hv)
  case reelReset =>
    intro s path v r hacc hb hv
    obtain ⟨u, hu, hstore⟩ := reelResetRun_reset (s := useUnlock path s) hb hv
    exact ⟨_, exec_regWriteTo hacc hu, cmdBusy_setBusy .., hstore⟩
  case reelEnd => exact fun s reel hal hb hp => ⟨_, exec_act hal, reelResetDone_serves (by omega) hb hp⟩

end Sys2Proof.Machine
end

section
/-! Every command ends through `done`: the hub's interrupts are told (R469, R470), and a hub that does not run answers nothing but power. -/

namespace Sys2Proof.Machine

open Sys2Proof

/-! What sending leaves -/

/-- What a message that the hub sends leaves: all but the ports' credits and retry buffers, counters, free values, the functions' pending messages and
the event counts. -/
def besideSending (s : State) :=
  (s.pending, s.regs, s.store, s.rows, s.eng, s.ord, s.coh, s.rel, s.boot, s.mgmt.intSent, fun p => (portOf s p).up)

@[simp] theorem besideSending_putOnWire (port seq : Nat) (p : Packet) (s : State) : besideSending (putOnWire port seq p s) = besideSending s :=
  List.foldlRecOn (motive := fun t => besideSending t = besideSending s) _ _ rfl fun _ ht _ _ => ht

theorem portOf_portSet (p : Nat) (f : Port → Port) (s : State) (q : Nat) : portOf (portSet p f s) q = if q = p then f (portOf s p) else portOf s q := by
  split_ifs with h
  · subst h; exact mgetD_mset_same ..
  · exact mgetD_mset_ne (Ne.symm h) ..

/-- An update of a port that keeps it up or down. -/
theorem besideSending_portSet (p : Nat) {f : Port → Port} (h : ∀ q, (f q).up = q.up) (s : State) : besideSending (portSet p f s) = besideSending s := by
  have hup : (fun q => (portOf (portSet p f s) q).up) = fun q => (portOf s q).up := by
    funext q
    rw [portOf_portSet]
    split_ifs with e
    · rw [h, e]
    · rfl
  unfold besideSending
  rw [hup]
  rfl

@[simp] theorem besideSending_egress (port : Nat) (p : Packet) (s : State) : besideSending (egress port p s) = besideSending s := by
  unfold egress transmit
  dsimp only
  split_ifs
  · rw [besideSending_putOnWire]
    exact besideSending_portSet port (by exact fun _ => rfl) s
  · rfl

@[simp] theorem besideSending_choosePort (c : Nat) (ps : List Nat) (s : State) : besideSending (choosePort c ps s).2 = besideSending s := by
  unfold choosePort
  split <;> rfl

@[simp] theorem besideSending_send (p : Packet) (s : State) : besideSending (send p s) = besideSending s := by
  have h := besideSending_choosePort p.tc.toNat (pathSet s p.dst.toNat) s
  unfold send route
  split_ifs
  · rfl
  · split
    · next e => rw [e] at h; exact h
    · next e => rw [e] at h; rw [besideSending_egress, h]

@[simp] theorem besideSending_msixSend (i entry : Nat) (s : State) : besideSending (msixSend i entry s) = besideSending s := by
  unfold msixSend
  dsimp only
  split_ifs <;> rfl

@[simp] theorem besideSending_sendEvent (route ep part vector : Nat) (key : BitVec 16) (s : State) :
    besideSending (sendEvent route ep part vector key s) = besideSending s := besideSending_send ..

@[simp] theorem besideSending_hubIntMessage (s : State) : besideSending (hubIntMessage s) = besideSending s := by
  unfold hubIntMessage
  dsimp only
  split
  · exact besideSending_msixSend ..
  · exact besideSending_sendEvent ..
  · rfl

/-! The unmasked conditions -/

/-- The unmasked set of hub interrupt conditions. -/
def unmaskedInts (s : State) : W32 := hubIntStatus s &&& ~~~(rget s Reg.hubIntMask 0)

theorem intsTold_iff (s : State) : intsTold s = true ↔ (alive s = true → s.mgmt.intSent = unmaskedInts s) := by
  unfold intsTold
  cases alive s <;> simp [unmaskedInts]

/-- The conditions read registers, the take log, the dies, slots and whether ports are up: nothing that sending changes. -/
theorem unmaskedInts_congr {s t : State} (h : besideSending t = besideSending s) : unmaskedInts t = unmaskedInts s := by
  simp only [besideSending, Prod.mk.injEq] at h
  obtain ⟨-, hregs, -, -, -, -, hcoh, hrel, hboot, -, hup⟩ := h
  have hexists (p : Nat) : portExists t p = portExists s p := by simp only [portExists, hboot]
  have hportUp (p : Nat) : portUp t p = portUp s p := by rw [portUp, portUp, hexists, congrFun hup p]
  have hrbit (r i b : Nat) : rbit t r i b = rbit s r i b := by simp only [rbit, rget_congr hregs]
  simp only [unmaskedInts, hubIntStatus, rget_congr hregs, hrbit, hexists, hportUp, hcoh, hrel]

/-! The end of a command -/

/-- The state with its unmasked set noted as sent. -/
def intsNoted (s : State) : State := { s with mgmt := { s.mgmt with intSent := unmaskedInts s } }

theorem besideSending_hubInt (s : State) : besideSending (hubInt s) = besideSending (intsNoted s) := by
  unfold hubInt
  dsimp only
  split_ifs
  · rfl
  · exact besideSending_hubIntMessage _

/-- With the set told already, there is nothing to tell. -/
theorem hubInt_told {s : State} (h : s.mgmt.intSent = unmaskedInts s) : hubInt s = s := by
  have hgain : unmaskedInts s &&& ~~~s.mgmt.intSent = 0 := by rw [h, BitVec.and_not_self]
  have hnoted : intsNoted s = s := by rw [intsNoted, ← h]
  exact (if_pos hgain).trans hnoted

theorem intSent_of_besideSending {s t : State} (h : besideSending t = besideSending s) : t.mgmt.intSent = s.mgmt.intSent := by
  simp only [besideSending, Prod.mk.injEq] at h
  obtain ⟨-, -, -, -, -, -, -, -, -, hsent, -⟩ := h
  exact hsent

/-- The message sent, the set noted is the unmasked set that stands. -/
theorem intSent_hubInt (s : State) : (hubInt s).mgmt.intSent = unmaskedInts (hubInt s) := by
  have h := besideSending_hubInt s
  rw [intSent_of_besideSending h, unmaskedInts_congr h]
  rfl

theorem intsTold_told (s : State) : intsTold (told s) = true := by
  rw [intsTold_iff]
  intro h
  unfold told at h ⊢
  split_ifs at h ⊢ with ha
  · exact intSent_hubInt s
  · exact absurd h ha

theorem told_of_intsTold {s : State} (h : intsTold s = true) : told s = s := by
  unfold told
  split_ifs with ha
  · exact hubInt_told ((intsTold_iff s).mp h ha)
  · rfl

/-- What the end of a command leaves where nothing is set free. -/
theorem besideSending_told (s : State) : ∃ m, besideSending (told s) = besideSending { s with mgmt := { s.mgmt with intSent := m } } := by
  unfold told
  split_ifs
  · exact ⟨_, besideSending_hubInt s⟩
  · exact ⟨s.mgmt.intSent, rfl⟩

/-! How a command ends -/

/-- The commands that a hub without power, PWROK or clocks takes too, and RESET_N, which sets nothing free. -/
def powerCommands : List Instr := [.resetN, .pwrokRise, .pwrokFall, .supplyRailsGood, .powerLoss, .thermalTrip]

/-- Every other command is an effect on a hub that answers, and what it sets free; then the interrupts are told. -/
theorem exec_act_or_power (c : Instr) (s : State) : (∃ f, exec c s = done (act f s)) ∨ c ∈ powerCommands := by
  cases c
  case resetN | pwrokRise | pwrokFall | supplyRailsGood | powerLoss | thermalTrip => exact .inr (by simp [powerCommands])
  case statusW1cWrite path which v =>
    match which with
    | 0 | 1 | 2 => exact .inl ⟨_, rfl⟩
  case pciePortReset hp cause => cases cause <;> exact .inl ⟨_, rfl⟩
  all_goals exact .inl ⟨_, rfl⟩

theorem exec_told (c : Instr) (s : State) : ∃ u, exec c s = .next (told u) := by
  obtain ⟨f, h⟩ | h := exec_act_or_power c s
  · exact ⟨_, h⟩
  · simp only [powerCommands, List.mem_cons, List.not_mem_nil, or_false] at h
    obtain rfl | rfl | rfl | rfl | rfl | rfl := h <;> exact ⟨_, rfl⟩

theorem exec_resetN_dead {s : State} (h : alive s = false) : exec .resetN s = .next s := by
  have e : exec .resetN s = done (if alive s then warmReset s else s) := rfl
  rw [e, done]
  simp [h]

/-- Settles O1: `step` takes the front of the queue. -/
theorem stepRunsFrontCommand : Obligations.StepRunsFrontCommand := by
  unfold Obligations.StepRunsFrontCommand
  intro c rest s h
  rw [step, h]

/-- Settles O58: whatever command a step takes, it answers a state that has just been told; an empty queue changes nothing. -/
theorem stepKeepsInterruptsTold : Obligations.StepKeepsInterruptsTold := by
  unfold Obligations.StepKeepsInterruptsTold
  intro s t hs hstep
  cases hq : s.pending with
  | nil =>
    rw [step, hq] at hstep
    cases hstep
    exact hs
  | cons c rest =>
    rw [stepRunsFrontCommand c rest s hq] at hstep
    obtain ⟨u, hu⟩ := exec_told c { s with pending := rest }
    rw [hu] at hstep
    cases hstep
    exact intsTold_told u

/-- Settles O60: a command is `told` of some state, on a dead hub that of its own state, and on a quiet hub nothing is set free before it. -/
theorem everyCommandEnds : Obligations.EveryCommandEnds := by
  unfold Obligations.EveryCommandEnds
  refine ⟨?ends, ?dead, ?quiet⟩
  case ends =>
    intro c s
    obtain ⟨u, hu⟩ := exec_told c s
    exact ⟨_, hu⟩
  case dead =>
    intro c s hdead h1 h2 h3 h4 h5
    obtain ⟨f, hf⟩ | hc := exec_act_or_power c s
    · rw [hf, act_dead hdead]
    · simp only [powerCommands, List.mem_cons, List.not_mem_nil, or_false, h1, h2, h3, h4, h5] at hc
      rw [hc, exec_resetN_dead hdead]
  case quiet =>
    intro s hq
    rw [finish, setFree_quiet hq]
    obtain ⟨m, h⟩ := besideSending_told s
    simp only [besideSending, Prod.mk.injEq] at h
    obtain ⟨hpending, hregs, hstore, hrows, heng, hord, hcoh, hrel, hboot, -⟩ := h
    exact ⟨hpending, hregs, hstore, hrows, heng, hord, hcoh, hrel, hboot, told_of_intsTold⟩

/-! The state after reset -/

theorem rget_reset (r i : Nat) : rget State.reset r i = regReset r := rfl

theorem partState_reset (p : Nat) : partState State.reset p = if p = 0 then 1 else 0 := by
  have h : rfld State.reset Reg.partStatus p 0 2 = 0 := by
    rw [rfld, rget_reset]
    decide +kernel
  simp [partState, h]

/-- Settles O57: every list of the reset state is empty, and a register reads as its table's reset value. -/
theorem resetState : Obligations.ResetState := by
  unfold Obligations.ResetState
  refine ⟨rfl, rget_reset, fun r i => rfl, rfl, rfl, fun a => rfl, rfl, rfl, rfl, rfl, rfl, rfl, rfl, rfl, rfl, rfl, rfl, rfl, rfl,
    fun p _ => partState_reset p, rfl, rfl, ?stage, rfl, rfl, rfl⟩
  case stage => decide +kernel

end Sys2Proof.Machine
end

section
/-! Snapshots (R490 to R497): SNAPSHOT, STEPMARK and the stream that a capture starts. -/

namespace Sys2Proof.Machine

open Sys2Proof

/-! SNAPSHOT (R491, R492, R496) -/

theorem snapGo_running {s : State} {q seq : Nat} {d : Desc} (hd : descOf s q seq = some d) (hrun : s.rel.snap.isSome = true) :
    snapGo q seq d.bytes s = opEnd q seq 0 (descMeet q seq .quota (snRefused s d)) := by
  unfold snapGo
  simp only [hd, hrun, if_true]

/-- The pages that a SNAPSHOT captures: those of its ranges, an incremental one's only where they are dirty. -/
def snChosen (s : State) (d : Desc) : List (Nat × Nat) := (snPages s d).filter fun p => !snIncr d || pageDirty s p.1

section Capture

variable {s s1 : State} {q : QueueNum} {seq : W32} {d d1 : Desc}

/-- A range list that is read, names live allocations of the partition and asks for an image within the destination. -/
theorem snapGo_captures (hd : descOf s q.toNat seq.toNat = some d) (hidle : s.rel.snap = none) (hread : Reads q seq [(snList d, 16 * snN d)] s d1 s1)
    (hbytes : d1.bytes = d.bytes) (hstat : d1.statuses = []) (hgood : d1.bad (snList d1) (16 * snN d1) = false)
    (hlist : (List.range (snN d1)).find? (snBad s1 d1) = none) (hown : (List.range (snN d1)).any (snForeign s1 d1) = false)
    (hlen : snImage (snChosen s1 d1).length ≤ snLen d1) :
    snapGo q.toNat seq.toNat d.bytes s = opEnd q.toNat seq.toNat (snChosen s1 d1).length (snCapture q.toNat d1 (snChosen s1 d1) s1) := by
  have hsame : { d1 with bytes := d.bytes } = d1 := by rw [← hbytes]
  obtain ⟨-, hd1⟩ := id hread
  unfold snapGo
  simp only [hd, hidle, Option.isSome_none, Bool.false_eq_true, if_false]
  rw [hread.withBytes, hsame]
  simp only [hstat, hgood, hlist, hown, hd1, List.any_nil, Bool.false_eq_true, if_false, Option.map_some, List.isEmpty_nil, Option.getD_some, if_true]
  exact if_neg (Nat.not_lt.mpr hlen)

end Capture

/-- Page pg is not dirty where it stands. -/
def PageClean (pg : Nat) (s : State) : Prop := ∀ p, mget pg s.store.pages = some p → p.dirty = false

theorem pageClean_pageMod (pg : Nat) (s : State) : PageClean pg (pageMod pg (fun x => { x with dirty := false }) s) := by
  intro p hp
  rw [mget_pageMod, Option.map_eq_some_iff] at hp
  obtain ⟨x, -, rfl⟩ := hp
  rfl

theorem PageClean.pageMod {pg : Nat} {s : State} (h : PageClean pg s) (k : Nat) : PageClean pg (pageMod k (fun x => { x with dirty := false }) s) := by
  by_cases hk : k = pg
  · subst hk; exact pageClean_pageMod k s
  · intro p hp
    exact h p (by rwa [Machine.pageMod, mget_mmod_ne hk] at hp)

theorem pageClean_foldl {pg : Nat} (ps : List (Nat × Nat)) {s : State} (h : pg ∈ ps.map (·.1) ∨ PageClean pg s) :
    PageClean pg (ps.foldl (fun s p => pageMod p.1 (fun x => { x with dirty := false }) s) s) := by
  induction ps generalizing s with
  | nil => exact h.resolve_left List.not_mem_nil
  | cons p ps ih =>
    refine ih ?_
    obtain hmem | hclean := h
    · obtain rfl | hin := List.mem_cons.mp hmem
      · exact .inr (pageClean_pageMod p.1 s)
      · exact .inl hin
    · exact .inr (hclean.pageMod p.1)

theorem snCapture_clean (q : Nat) (d : Desc) {ps : List (Nat × Nat)} (s : State) {pg : Nat} (h : pg ∈ ps.map (·.1)) : PageClean pg (snCapture q d ps s) :=
  pageClean_foldl ps (.inl h)

/-! STEPMARK (R497) -/

/-- A state that notes a step as the last one. -/
def stepNoted (d : Desc) (s : State) : State := { s with rel := { s.rel with stepLast := w64 (d.w 1) } }

@[simp] theorem stepNoted_rel (d : Desc) (s : State) : (stepNoted d s).rel = { s.rel with stepLast := w64 (d.w 1) } := by rw [stepNoted]

@[simp] theorem stepNoted_eng (d : Desc) (s : State) : (stepNoted d s).eng = s.eng := by rw [stepNoted]

@[simp] theorem stepNoted_store (d : Desc) (s : State) : (stepNoted d s).store = s.store := by rw [stepNoted]

@[simp] theorem stepNoted_regs (d : Desc) (s : State) : (stepNoted d s).regs = s.regs := by rw [stepNoted]

theorem opEnd_rel (q seq n : Nat) (s : State) : (opEnd q seq n s).rel = s.rel := rfl

theorem stepRun_notDue {d : Desc} (h : d.w 2 = 0 ∨ d.f 3 0 16 = 0 ∨ d.w 1 % d.f 3 0 16 ≠ 0) (q seq : Nat) (s : State) :
    stepRun q seq d s = opEnd q seq 0 (stepNoted d s) := by
  unfold stepRun
  dsimp only
  rw [if_pos h, stepNoted]

theorem stepRun_due {s s1 : State} {q : QueueNum} {seq : W32} {d d1 : Desc} (htemplate : d.w 2 ≠ 0) (hn : d.f 3 0 16 ≠ 0) (hdue : d.w 1 % d.f 3 0 16 = 0)
    (hread : Reads q seq [(d.w 2, 64)] (stepNoted d s) d1 s1) : stepRun q.toNat seq.toNat d s = stepGo q.toNat seq.toNat d1 s1 := by
  have h : ¬(d.w 2 = 0 ∨ d.f 3 0 16 = 0 ∨ d.w 1 % d.f 3 0 16 ≠ 0) := not_or.mpr ⟨htemplate, not_or.mpr ⟨hn, not_not.mpr hdue⟩⟩
  unfold stepRun
  dsimp only
  rw [if_neg h]
  exact hread.withBytes _

/-! The stream (R493 to R495) -/

section Stream

variable {s : State} {sn : Snap}

theorem snapPage_taken {pg : Nat} (hsn : s.rel.snap = some sn) (hnext : snNext sn = some pg) (hwriting : snapWriting s = false)
    (hbytes : snapHeld s sn (sn.dest + snManifest sn.pages.length + (sn.pages.map (·.1)).idxOf pg * pageSize) pageSize = false)
    (hentry : snapHeld s sn (sn.dest + 64 + 16 * (sn.pages.map (·.1)).idxOf pg) 16 = false) :
    let i := (sn.pages.map (·.1)).idxOf pg
    let at_ := sn.dest + snManifest sn.pages.length + i * pageSize
    let s0 := if sn.copies.any (fun c => c.page == pg) = true then s else settlePage pg s
    let s1 := snapMod (fun x => { x with left := x.left.filter fun y => y != pg, copies := x.copies.filter fun c => c.page != pg,
                                         waiting := x.waiting.filter fun h => heldPage h != pg, cur := some pg }) s0
    snapPage s = runHeldAll (sn.waiting.filter fun h => heldPage h == pg)
      (snapPut sn (sn.dest + 64 + 16 * i) (snManifestEntry pg (((sn.pages.find? fun p => p.1 == pg).map (·.2)).getD 0) (snContent s0 sn pg).1 (snContent s0 sn pg).2) []
        (snapPut sn at_ (snBytes pg (snContent s0 sn pg).1 []) (toVaWords (pg * pageSize) at_ (snContent s0 sn pg).2) s1)) := by
  intro i at_ s0 s1
  unfold snapPage
  simp only [hsn, hnext]
  exact if_neg (by simp only [hwriting, hbytes, hentry, Bool.or_self, Bool.false_eq_true, not_false_iff])

theorem snapLast_headed (hsn : s.rel.snap = some sn) (hleft : sn.left = []) (hwriting : snapWriting s = false) (hheader : sn.header = true) :
    snapLast s = snapEnd sn.status s := by
  unfold snapLast
  simp [hsn, hleft, hwriting, hheader]

theorem snapLast_header (hsn : s.rel.snap = some sn) (hleft : sn.left = []) (hwriting : snapWriting s = false) (hheader : sn.header = false)
    (hheld : snapHeld s sn sn.dest 64 = false) :
    let s1 := snapPut sn sn.dest (snHeader s sn) [] (snapMod (fun x => { x with header := true }) s)
    snapLast s = if snapWriting s1 = true then s1 else snapEnd ((s1.rel.snap.map (·.status)).getD .ok) s1 := by
  intro s1
  unfold snapLast
  simp only [hsn, hleft, hwriting, hheader, hheld, List.isEmpty_nil, Bool.not_true, Bool.not_false, Bool.or_self, Bool.and_false, Bool.false_eq_true, if_false]
  rfl

end Stream

/-- Settles O24, with one lemma for each outcome of SNAPSHOT, of STEPMARK and of the stream's two acts. -/
theorem snapshotOperations : Obligations.SnapshotOperations := by
  unfold Obligations.SnapshotOperations
  refine ⟨?running, ?captures, ?captured, ?notDue, ?due, ?page, ?last⟩
  case running => exact fun s q seq d hr hrun => exec_opRunTo hr (snapGo_running hr.desc hrun)
  case captures =>
    exact fun s s1 q seq d d1 hr hidle hread hbytes hstat hgood hlist hown hlen =>
      exec_opRunTo hr (snapGo_captures hr.desc hidle hread hbytes hstat hgood hlist hown hlen)
  case captured => exact fun s q d ps => ⟨_, rfl, rfl, rfl, rfl, rfl, rfl, fun pg hpg => snCapture_clean q d s hpg⟩
  case notDue =>
    intro s q seq d hr h
    have hd := (descOf_congr (congrArg Engines.queues (stepNoted_eng d s)) q.toNat seq.toNat).trans hr.desc
    have hrun := stepRun_notDue h q.toNat seq.toNat s
    obtain ⟨hstore, hregs, -⟩ := opEnd_frame q.toNat seq.toNat 0 (stepNoted d s)
    exact ⟨_, exec_opRunTo hr hrun, ended_opEnd hd 0, (opEnd_rel ..).trans (stepNoted_rel d s), hstore.trans (stepNoted_store d s), hregs.trans (stepNoted_regs d s)⟩
  case due => exact fun s s1 q seq d d1 hr h2 h3 hdue hread => exec_opRunTo hr (stepRun_due h2 h3 hdue hread)
  case page => exact fun s sn pg hal hsn hnext hw hb he => exec_actTo hal (snapPage_taken hsn hnext hw hb he)
  case last =>
    exact fun s sn hal hsn hleft hw => ⟨fun hh => exec_actTo hal (snapLast_headed hsn hleft hw hh),
      fun hh hheld => exec_actTo hal (snapLast_header hsn hleft hw hh hheld)⟩

end Sys2Proof.Machine
end

section
/-! Register writes (R446 to R468): an access of any size, LOCKKEY, the write-1-to-clear registers and the interrupt mask. -/

namespace Sys2Proof.Machine

open Sys2Proof

/-! An access (R446) -/

section Access

variable {path : Path} {off : Nat} {data : List Byte} {s : State}

theorem regWriteAny_word (hlen : data.length = 4) (hoff : off % 4 = 0) : regWriteAny path off data s = regWriteOne path off (w32 (leNat data)) s :=
  if_pos ⟨hlen, hoff⟩

theorem regWriteAny_pair (hlen : data.length = 8) (hoff : off % 8 = 0) : regWriteAny path off data s =
    regWriteOne path (off + 4) (w32 (leNat (data.drop 4))) (regWriteOne path off (w32 (leNat (data.take 4))) s) := by
  have hword : ¬(data.length = 4 ∧ off % 4 = 0) := by omega
  exact (if_neg hword).trans (if_pos ⟨hlen, hoff⟩)

theorem regWriteAny_bad (hword : ¬(data.length = 4 ∧ off % 4 = 0)) (hpair : ¬(data.length = 8 ∧ off % 8 = 0)) (hfn : regTarget (useUnlock path s) path off ≠ .ur) :
    regWriteAny path off data s = bump Reg.regBadAccess 0 (useUnlock path s) :=
  (if_neg hword).trans ((if_neg hpair).trans (if_neg hfn))

/-- A word that reaches a register has its effect there. -/
theorem regWriteOne_reaches {i : Nat} (h : Reaches s path off i) (v : W32) :
    regWriteOne path off v s = regEffect off v i (unlocked s path) (useUnlock path s) := regWriteVia_reaches h v _

end Access

/-! What a write does by its register's access type (Table 13-5) -/

section Effect

variable {off i : Nat} {v : W32} {row : RegRow} {s : State}

theorem regEffect_guarded (hrow : regRow off = some row) (hacc : row.acc = .rk) : regEffect off v i false s = bump Reg.lockRefused 0 s := by
  unfold regEffect
  simp only [hrow, hacc, if_true, Bool.false_eq_true, if_false]

theorem regEffect_plain (hrow : regRow off = some row) (hacc : row.acc = .rw) (hcmd : commandWrite off v i s = none)
    (hown : (if 0x100000 ≤ off then partSetWrite off v i s else blockWrite off v i s) = none) (was : Bool) : regEffect off v i was s = cfgStore off i v s := by
  unfold regEffect
  simp only [hrow, hacc, hcmd, hown, reduceCtorEq, if_false, if_true]

end Effect

/-! LOCKKEY (R459) -/

theorem mem_lockkeySet (v : W32) (i k : Nat) (s : State) :
    k ∈ (lockkeySet v i s).mgmt.unlocked ↔ (k = i ∧ v = 0xA51F) ∨ (k ≠ i ∧ k ∈ s.mgmt.unlocked) := by
  unfold lockkeySet
  dsimp only
  split_ifs with h
  · simp only [List.mem_cons, List.mem_filter, decide_eq_true_eq, h, true_and, and_comm]
  · simp only [List.mem_filter, decide_eq_true_eq, h, false_and, false_or, and_comm]

theorem mem_useUnlock {path : Path} {s : State} {k : Nat} (hk : k ≠ pathCode path) : k ∈ (useUnlock path s).mgmt.unlocked ↔ k ∈ s.mgmt.unlocked := by
  simp [useUnlock, hk]

/-! PARITY_FAULT (R466) -/

/-- A bit that is not written 1, or is 0, has nothing checked. -/
theorem parityW1c_idle {v : W32} {s : State} (h : ∀ u, u < 15 → bit v u = true → rbit s Reg.parityFault 0 u = false) : parityW1c v s = s := by
  refine List.foldlRecOn (motive := (· = s)) _ _ rfl ?_
  rintro t rfl u hu
  have hskip : (!bit v u || !rbit t Reg.parityFault 0 u) = true := by
    cases hv : bit v u with
    | false => rfl
    | true => rw [h u (List.mem_range.mp hu) hv]; rfl
  exact if_pos hskip

/-! HUB_INT_MASK (R469) -/

theorem getLsbD_w32_fld (v : W32) (lo : Nat) {n b : Nat} (hn : n ≤ 32) (hb : b < n) : (w32 (fld v lo n)).getLsbD b = v.getLsbD (lo + b) := by
  have h32 : b < 32 := by omega
  simp only [w32, fld, BitVec.getLsbD_ofNat, Nat.testBit_mod_two_pow, Nat.testBit_div_two_pow, hb, h32, decide_true, Bool.true_and, BitVec.testBit_toNat, Nat.add_comm]

theorem regRow_hubIntMask : (regRow Reg.hubIntMask).map (·.rw) = some 0x1FF := by decide +kernel

theorem bit_hubInts : ∀ b < 9, bit (0x1FF : W32) b = true := by decide

/-- A mask bit that the upper half names is as written, any other as it was. -/
theorem rbit_hubIntMaskSet (v : W32) (s : State) {b : Nat} (hb : b < 9) :
    rbit (hubIntMaskSet v s) Reg.hubIntMask 0 b = if bit v (16 + b) then bit v b else rbit s Reg.hubIntMask 0 b := by
  have hnamed := getLsbD_w32_fld v 16 (by omega) hb
  have h32 : b < 32 := by omega
  refine (bit_cfgStore regRow_hubIntMask (bit_hubInts b hb) 0 _ s).trans ?_
  unfold bit rbit
  simp only [BitVec.getLsbD_or, BitVec.getLsbD_and, BitVec.getLsbD_not, hnamed, h32, decide_true, Bool.true_and]
  cases v.getLsbD (16 + b) <;> simp

@[simp] theorem hubIntMaskSet_store (v : W32) (s : State) : (hubIntMaskSet v s).store = s.store := cfgStore_store ..

/-! The write-1-to-clear registers -/

theorem secW1c_store (v : W32) (s : State) : (secW1c v s).store = s.store := by
  unfold secW1c
  split_ifs <;> rfl

theorem rget_secW1c (v : W32) (s : State) :
    rget (secW1c v s) Reg.secViolation 0 = if s.boot.secReset then rget s Reg.secViolation 0 &&& ~~~v else rget s Reg.secViolation 0 := by
  unfold secW1c
  split_ifs
  · exact rget_rset_same ..
  · rfl

/-- Settles O47: an access by its size and alignment, each register by the lemma of its own write. -/
theorem registerWriteCommands : Obligations.RegisterWriteCommands := by
  unfold Obligations.RegisterWriteCommands
  refine ⟨?access, ?effect, ?lockkey, ?clear, ?fault, ?inject, ?mask⟩
  case access =>
    intro s path off data o
    exact ⟨fun i hr hlen ho => exec_actTo hr.1 ((regWriteAny_word hlen ho).trans (regWriteOne_reaches hr _)),
      fun hal hlen ho => exec_actTo hal (regWriteAny_pair hlen ho), fun hal hword hpair hfn => exec_actTo hal (regWriteAny_bad hword hpair hfn)⟩
  case effect => exact fun s off i v row hrow => ⟨regEffect_guarded hrow, fun hacc hcmd hown was => regEffect_plain hrow hacc hcmd hown was⟩
  case lockkey =>
    intro s path v i hr
    refine ⟨_, exec_regWrite hr v _, rfl, rfl, ?_, ?_, ?_⟩
    · exact fun hv => (mem_lockkeySet v i i _).mpr (.inl ⟨rfl, hv⟩)
    · exact fun hv hin => ((mem_lockkeySet v i i _).mp hin).elim (fun h => hv h.2) fun h => h.1 rfl
    · exact fun k hi hp => by simp only [mem_lockkeySet, hi, mem_useUnlock hp, false_and, false_or, ne_eq, not_false_iff, true_and]
  case clear =>
    intro s path v i
    exact ⟨fun hr => ⟨_, exec_regWrite hr v _, rfl, rget_rset_same ..⟩, fun hr => ⟨_, exec_regWrite hr v _, secW1c_store .., rget_secW1c ..⟩,
      fun hr => ⟨_, exec_regWrite hr v _, rfl, rget_rset_same ..⟩⟩
  case fault => exact fun s path v i hr => ⟨exec_regWrite hr v _, parityW1c_idle (s := useUnlock path s)⟩
  case inject =>
    intro s path v i hr
    exact ⟨fun hu => exec_regWriteTo hr (if_pos hu), fun hu => exec_regWriteTo hr (if_neg (ne_true_of_eq_false hu))⟩
  case mask => exact fun s path v i hr => ⟨_, exec_regWrite hr v _, hubIntMaskSet_store .., fun b hb => rbit_hubIntMaskSet v _ hb⟩

end Sys2Proof.Machine
end

section
/-! Memory errors, the patrol scrub and read-only dies (R482 to R488, R499). -/

namespace Sys2Proof.Machine

open Sys2Proof

/-! Corrected errors (R499) -/

section CorrectedErrors

variable {s : State} {medium unit : Nat}

theorem ceReached_fires (hth : s.rel.ceThresh ≠ 0) (hn : s.rel.ceThresh ≤ mgetD 0 (medium * 65536 + unit) s.rel.ceTick)
    (hdone : s.rel.ceDone.contains (medium * 65536 + unit) = false) :
    ceReached medium unit s = trigger 1 (w64 (mgetD 0 (medium * 65536 + unit) s.rel.ceTick % 2 ^ 32 + medium * 2 ^ 60)) none unit
      { s with rel := { s.rel with ceDone := (medium * 65536 + unit) :: s.rel.ceDone } } := by
  have hfew : ¬(s.rel.ceThresh = 0 ∨ mgetD 0 (medium * 65536 + unit) s.rel.ceTick < s.rel.ceThresh ∨ s.rel.ceDone.contains (medium * 65536 + unit) = true) := by
    rw [hdone]
    simp [hth, hn]
  exact if_neg hfew

theorem ceReached_still
    (h : s.rel.ceDone.contains (medium * 65536 + unit) = true ∨ s.rel.ceThresh = 0 ∨ mgetD 0 (medium * 65536 + unit) s.rel.ceTick < s.rel.ceThresh) :
    ceReached medium unit s = s := by
  have hany : s.rel.ceThresh = 0 ∨ mgetD 0 (medium * 65536 + unit) s.rel.ceTick < s.rel.ceThresh ∨ s.rel.ceDone.contains (medium * 65536 + unit) = true := by
    rwa [or_comm, or_assoc] at h
  exact if_pos hany

end CorrectedErrors

/-! The scrub (R482) -/

section Scrub

variable {s : State} {off a : Nat}

theorem scrubGo_stored (hstore : addrOf s off 1 = .store a) (hlost : pageLost s off = false) (m : Media) : scrubGo off m s =
    if tierAt s off = 0 then (if rbit s Reg.scrubCfg 0 16 then mediaFound off m s else s)
    else if (tierAt s off = 1 ∨ tierAt s off = 2) ∧ rfld s Reg.scrubCfg 0 0 8 ≠ 0 then mediaFound off m { s with rel := { s.rel with scrubPos := off } }
    else s := if_neg (by simp [hstore, hlost])

theorem scrubGo_memory (hstore : addrOf s off 1 = .store a) (hlost : pageLost s off = false) (ht : tierAt s off = 1 ∨ tierAt s off = 2)
    (hhours : rfld s Reg.scrubCfg 0 0 8 ≠ 0) (m : Media) : scrubGo off m s = mediaFound off m { s with rel := { s.rel with scrubPos := off } } := by
  have hstage : tierAt s off ≠ 0 := by omega
  rw [scrubGo_stored hstore hlost, if_neg hstage, if_pos ⟨ht, hhours⟩]

theorem scrubGo_stage (hstore : addrOf s off 1 = .store a) (hlost : pageLost s off = false) (ht : tierAt s off = 0) (hen : rbit s Reg.scrubCfg 0 16 = true)
    (m : Media) : scrubGo off m s = mediaFound off m s := by
  rw [scrubGo_stored hstore hlost, if_pos ht, if_pos hen]

end Scrub

/-! Flash (R485 to R488) -/

section Flash

variable {s : State} {ch die : Nat} {x : Die}

theorem blockFailed_spare (hx : mget (dieKey ch die) s.rel.dies = some x) (hro : dieRo s ch die = false) (hspare : x.spare ≠ 0) :
    blockFailed ch die s = spareLow ch die (bump Reg.flcRetired ch (dieMod (dieKey ch die) (fun x => { x with spare := x.spare - 1 }) s)) := by
  unfold blockFailed
  simp only [hx, hro, hspare, Bool.false_eq_true, if_false]

/-- The state in which a die that ran out of spares is read-only, and told. -/
def dieWornOut (ch die : Nat) (s : State) : State := flashTrigger ch die 1 (dieMod (dieKey ch die) (fun x => { x with ro := true }) s)

theorem blockFailed_noSpare (hx : mget (dieKey ch die) s.rel.dies = some x) (hro : dieRo s ch die = false) (hspare : x.spare = 0) :
    blockFailed ch die s = leaveRoDies (if channelRo (dieWornOut ch die s) ch then flashTrigger ch die 2 (dieWornOut ch die s) else dieWornOut ch die s) := by
  unfold blockFailed
  simp only [hx, hro, hspare, Bool.false_eq_true, if_false, if_true]
  rfl

end Flash

/-- Settles O49, with one lemma for each outcome of a corrected error, of the scrub and of a block that fails. -/
theorem memoryErrorsAndFlash : Obligations.MemoryErrorsAndFlash := by
  unfold Obligations.MemoryErrorsAndFlash
  refine ⟨?corrected, ?memory, ?stage, ?good, ?block, ?control, ?still⟩
  case corrected =>
    exact fun s medium unit hal => ⟨fun hth hn hdone => exec_actTo hal (ceReached_fires hth hn hdone), fun h => exec_actTo hal (ceReached_still h)⟩
  case memory => exact fun s off m a hal hstore hlost ht hhours => exec_actTo hal (scrubGo_memory hstore hlost ht hhours m)
  case stage => exact fun s off m a hal hstore hlost ht hen => exec_actTo hal (scrubGo_stage hstore hlost ht hen m)
  case good => exact fun s off => rfl
  case block =>
    exact fun s ch die x hal hx hro => ⟨fun hspare => exec_actTo hal (blockFailed_spare hx hro hspare),
      fun hspare => exec_actTo hal (blockFailed_noSpare hx hro hspare)⟩
  case control => exact fun s path v ch hr => exec_regWrite hr v _
  case still =>
    intro s hpages hmoves
    unfold leaveRoDies
    simp only [hmoves, List.filter_nil, List.foldl_nil]
    exact congrArg (List.foldl (fun s p => leaveDie p.1 s) s) hpages

end Sys2Proof.Machine
end

section
/-! The guarded commands of BOOT_CMD (R459, R512 to R523): what unlocked functions have done, and RELOAD step by step. -/

namespace Sys2Proof.Machine

open Sys2Proof

/-! Guarded registers (R459, R460) -/

section Guarded

variable {s : State} {path : Path} {r i : Nat}

theorem exec_guarded_unlocked (h : Reaches s path r i) (hu : unlocked s path = true) (v : W32) {f : State → State} {u : State} (e : f (useUnlock path s) = u) :
    done (act (guarded path r v f) s) = .next (finish u) := exec_regWriteTo h ((if_pos hu).trans e)

theorem exec_guarded_locked (h : Reaches s path r i) (hu : unlocked s path = false) (v : W32) (f : State → State) :
    done (act (guarded path r v f) s) = .next (finish (bump Reg.lockRefused 0 (useUnlock path s))) :=
  exec_regWriteTo h (if_neg (ne_true_of_eq_false hu))

end Guarded

/-! BOOT_CMD (Table 15-16) -/

/-- An operation that BOOT_CMD takes runs where the hub is at its stage, on the state that holds the written value. -/
theorem bootCmdOp_taken {s : State} {op : Nat} {v : W32} (hidle : cmdBusy s Reg.bootCmd 0 = false) (hop : cmdOp v = op) (st : Nat) (f : State → State) :
    bootCmdOp op st v f s = if stage (cfgStore Reg.bootCmd 0 v s) = st then f (cfgStore Reg.bootCmd 0 v s) else cfgStore Reg.bootCmd 0 v s := by
  have htaken : ¬(cmdBusy s Reg.bootCmd 0 || cmdOp v != op) = true := by simp [hidle, hop]
  exact if_neg htaken

theorem bootCmdOp_runs {s : State} {op st : Nat} {v : W32} (hidle : cmdBusy s Reg.bootCmd 0 = false) (hop : cmdOp v = op)
    (hst : stage (cfgStore Reg.bootCmd 0 v s) = st) (f : State → State) : bootCmdOp op st v f s = f (cfgStore Reg.bootCmd 0 v s) :=
  (bootCmdOp_taken hidle hop st f).trans (if_pos hst)

theorem bootCmdOp_otherStage {s : State} {op st : Nat} {v : W32} (hidle : cmdBusy s Reg.bootCmd 0 = false) (hop : cmdOp v = op)
    (hst : stage (cfgStore Reg.bootCmd 0 v s) ≠ st) (f : State → State) : bootCmdOp op st v f s = cfgStore Reg.bootCmd 0 v s :=
  (bootCmdOp_taken hidle hop st f).trans (if_neg hst)

/-! The application of an image (Table 15-8) -/

/-- The registers that the items other than FM_EPS and ROUTES fill. -/
def itemRegs (im : Image) (s : State) : State :=
  let s := rset Reg.fabId 0 (w32 im.endpoint) (rset Reg.partCfg 0 (w32 im.parts) s)
  let s := rset Reg.dirCfg 0 (w32 (im.dirGib + im.dircacheMib * 256)) (rset Reg.ptArea 0 (w32 im.ptMib) s)
  let s := (List.range 2).foldl (fun s p => rset (Reg.hostpBar2 + 256 * p) 0 (w32 (im.pfLog.getD p 0 + im.vfLog.getD p 0 * 256)) s) s
  rsetFld Reg.bootStatus 0 16 1 (b2n im.fromStaged) s

/-- An image becomes the hub's own. -/
def imageOwned (im : Image) (s : State) : State :=
  bootSet (fun b => { b with image := some im, pending := none, imgSvn := if im.bump then max b.imgSvn (min im.svn 63) else b.imgSvn }) s

theorem imageApply_reload (im : Image) (s : State) : imageApply false im s = itemRegs im (imageCaps im (imageOwned im s)) := rfl

@[simp] theorem itemRegs_boot (im : Image) (s : State) : (itemRegs im s).boot = s.boot := by
  unfold itemRegs
  rw [rsetFld_boot]
  refine List.foldlRecOn (motive := fun t : State => t.boot = s.boot) _ _ ?_ fun t ht p _ => (rset_boot ..).trans ht
  simp only [rset_boot]

@[simp] theorem imageCaps_boot (im : Image) (s : State) : (imageCaps im s).boot = s.boot := rfl

theorem imageApply_reload_boot (im : Image) (s : State) : (imageApply false im s).boot = (imageOwned im s).boot := by
  rw [imageApply_reload, itemRegs_boot, imageCaps_boot]

/-! RELOAD (Table 15-10) -/

section Reload

variable {s : State}

/-- The state in which a reload has stopped intake, its drain limit sampled. -/
def reloadBegun (im : Image) (s : State) : State :=
  setStage 8 (setBusy Reg.bootCmd 0 true (bootSet (fun b => { b with
    pending := some im, reloadStep := 2, recovery := decide (rget s Reg.fatalStatus 0 ≠ 0)
    reloadMs := max 1 (rfld s Reg.reloadDrain 0 0 14), reloadFrom := b.tick }) s))

theorem reloadRun_checks (h : secStopped s = false) (v : W32) (spi : List Byte) : reloadRun v spi s = imageTake true v spi reloadBegun s :=
  if_neg (ne_true_of_eq_false h)

theorem reloadExpire_due (hstep : s.boot.reloadStep = 2) (hsec : secStopped s = false) (hstop : reloadMayStop s = true)
    (hlimit : s.boot.reloadMs * 3 ≤ (s.boot.tick - s.boot.reloadFrom) * 2) :
    reloadExpire s = stopChans (fun _ => true) .reset (s.eng.queues.foldl (fun s e => abortQueue e.1 s) s) := by
  refine if_pos ⟨hstep, ?_, hstop, hlimit⟩
  rw [hsec]
  rfl

/-- The hub at step 3: queues off, moves and streams stopped. -/
def reloadStopped (s : State) : State := bootSet (fun b => { b with reloadStep := 3 }) (reloadStop (queuesOff s))

/-- With work ended and no tag outstanding the walk of step 3 starts, but not in a recovery. -/
theorem reloadDrained_drained (hstep : s.boot.reloadStep = 2) (hsec : secStopped s = false) (hstop : reloadMayStop s = true) (hwork : workEnded s = true)
    (htags : (reloadStop (queuesOff s)).fab.reqs = []) :
    reloadDrained s = if (reloadStopped s).boot.recovery then reloadStopped s
      else addWalk { lo := 0, hi := localEnd, slot := none, why := .reload, running := false } (reloadStopped s) := by
  have hdue : s.boot.reloadStep = 2 ∧ (!secStopped s) = true ∧ reloadMayStop s = true ∧ workEnded s = true := ⟨hstep, by rw [hsec]; rfl, hstop, hwork⟩
  have hnone : ¬(!(reloadStop (queuesOff s)).fab.reqs.isEmpty) = true := by rw [htags]; exact Bool.false_ne_true
  exact (if_pos hdue).trans (if_neg hnone)

theorem reloadDrained_idle (h : s.boot.reloadStep ≠ 2) : reloadDrained s = s := if_neg fun hc => h hc.1

/-- The walk answered, the rows are back in their places and the replicas gone. -/
theorem reloadMove_walked (hstep : s.boot.reloadStep = 3) (hsec : secStopped s = false) (hwalk : (s.coh.walks.any fun w => w.why == WalkFor.reload) = false) :
    (reloadMove s).boot.reloadStep = 4 ∧ (reloadMove s).rows.slots = [] ∧ (reloadMove s).rows.replicas = [] := by
  have hdue : s.boot.reloadStep = 3 ∧ (!secStopped s) = true ∧ (!(s.coh.walks.any fun w => w.why == WalkFor.reload)) = true :=
    ⟨hstep, by rw [hsec]; rfl, by rw [hwalk]; rfl⟩
  unfold reloadMove
  rw [if_pos hdue]
  exact ⟨rfl, rfl, rfl⟩

@[simp] theorem recoverState_boot (s : State) : (recoverState s).boot = s.boot := rfl

/-- The items take effect, and every directory entry is I. -/
theorem reloadApply_applied {im r : Image} (hstep : s.boot.reloadStep = 4) (hsec : secStopped s = false) (hpending : s.boot.pending = some im)
    (himage : s.boot.image = some r) : (reloadApply s).boot.reloadStep = 6 ∧ (reloadApply s).coh.dir = [] ∧ (reloadApply s).boot.image = some im ∧
      (reloadApply s).boot.pending = none := by
  have hdue : s.boot.reloadStep = 4 ∧ (!secStopped s) = true := ⟨hstep, by rw [hsec]; rfl⟩
  have happlied (t : State) : (imageApply false im t).boot.image = some im ∧ (imageApply false im t).boot.pending = none := by
    rw [imageApply_reload_boot]
    exact ⟨rfl, rfl⟩
  unfold reloadApply
  simp only [hpending, himage]
  rw [if_pos hdue]
  simp only [bootSet]
  split_ifs
  · simp only [recoverState_boot, true_and]
    exact happlied _
  · simp only [true_and]
    exact happlied _

theorem reloadEnd_joins (hstep : s.boot.reloadStep = 6) (hsec : secStopped s = false) :
    reloadEnd s = bootSet (fun b => { b with reloadStep := 0, recovery := false, recovered := b.recovered || b.recovery })
      (setBusy Reg.bootCmd 0 false (setStage 7 (sendJoin s))) := if_pos ⟨hstep, by rw [hsec]; rfl⟩

theorem reloadEnd_idle (h : s.boot.reloadStep ≠ 6) : reloadEnd s = s := if_neg fun hc => h hc.1

end Reload

/-- Settles O52, with one lemma for each step of the reload. -/
theorem reloadCommands : Obligations.ReloadCommands := by
  unfold Obligations.ReloadCommands
  refine ⟨?take, ?steps, ?idle⟩
  case take =>
    exact fun s path v spi i hr hu hidle hop hst hsec =>
      exec_guarded_unlocked hr hu v ((bootCmdOp_runs (s := useUnlock path s) hidle hop hst _).trans (reloadRun_checks hsec v spi))
  case steps =>
    intro s hal hsec
    refine ⟨?expire, ?drained, ?walked, ?applied, ?joined⟩
    case expire => exact fun hstep hstop hlimit => exec_actTo hal (reloadExpire_due hstep hsec hstop hlimit)
    case drained => exact fun hstep hstop hwork htags => exec_actTo hal (reloadDrained_drained hstep hsec hstop hwork htags)
    case walked => exact fun hstep hwalk => ⟨_, exec_act hal, reloadMove_walked hstep hsec hwalk⟩
    case applied => exact fun im r hstep hpending himage => ⟨_, exec_act hal, reloadApply_applied hstep hsec hpending himage⟩
    case joined => exact fun hstep => exec_actTo hal (reloadEnd_joins hstep hsec)
  case idle =>
    intro s hal h0
    have hstep (n : Nat) (hn : 0 ≠ n) : s.boot.reloadStep ≠ n := h0 ▸ hn
    exact ⟨exec_actTo hal (reloadDrained_idle (hstep 2 (by decide))), exec_actTo hal (reloadEnd_idle (hstep 6 (by decide)))⟩

end Sys2Proof.Machine
end

section
/-! Images at boot (R512 to R516, R520): LOAD, its checks, the application, the links, the joining, and LOAD_FW in RECOVERY. -/

namespace Sys2Proof.Machine

open Sys2Proof

/-! Stages (Table 15-5) -/

theorem rfld_rsetFld (r i lo n x : Nat) (s : State) (h : lo + n ≤ 32) : rfld (rsetFld r i lo n x s) r i lo n = x % 2 ^ n := by
  rw [rfld, rget_rsetFld_same, fld_setFld_same _ _ _ _ h]

theorem stage_setStage (n : Nat) (s : State) : stage (setStage n s) = n % 16 := rfld_rsetFld Reg.bootStatus 0 0 4 n s (by omega)

@[simp] theorem setStage_boot (n : Nat) (s : State) : (setStage n s).boot = s.boot := rsetFld_boot ..

@[simp] theorem setStage_store (n : Nat) (s : State) : (setStage n s).store = s.store := rsetFld_store ..

/-! LOAD (R514, R515) -/

section Load

variable {s : State} {path : Path} {i : Nat} {v : W32}

/-- Of all paths only the boot firmware's own needs no unlock, and that for SPI. -/
theorem exec_imageLoad_unlocked (hr : Reaches s path Reg.bootCmd i) (hu : unlocked s path = true) (hpath : path ≠ .akist ∨ bit v 3 = false)
    {spi : List Byte} {u : State} (e : bootCmdOp 1 4 v (loadRun v spi) (useUnlock path s) = u) : exec (.imageLoad path v spi) s = .next (finish u) := by
  have hguard : ¬(path = .akist ∧ bit v 3 = true) := fun ⟨hp, hb⟩ => hpath.elim (· hp) fun h => Bool.false_ne_true (h.symm.trans hb)
  refine exec_actTo hr.1 ((if_neg hguard).trans ?_)
  exact (regWriteVia_reaches hr v _).trans ((if_pos hu).trans e)

theorem exec_imageLoad_akist (hal : alive s = true) (hb : bit v 3 = true) {spi : List Byte} {u : State} (e : bootCmdOp 1 4 v (loadRun v spi) s = u) :
    exec (.imageLoad .akist v spi) s = .next (finish u) := exec_actTo hal ((if_pos ⟨rfl, hb⟩).trans e)

end Load

/-! The checks of an image (R520, Table 15-9) -/

section Checks

variable {s : State} {v : W32} {spi : List Byte} {re : Bool} {f : Image → State → State}

/-- BOOT_CMD.STATUS and BOOT_STATUS.LOAD take the code of a check. -/
def loadNoted (c : Nat) (s : State) : State := rsetFld Reg.bootCmd 0 8 8 c (rsetFld Reg.bootStatus 0 8 4 c s)

theorem imageTake_badFormat (h : imageParse s (!bit v 3) (imageBytes s v spi) = none) : imageTake re v spi f s = lcFlag 4 (loadNoted 1 s) := by
  unfold imageTake
  simp only [h]
  rfl

theorem imageTake_parsed {im : Image} (h : imageParse s (!bit v 3) (imageBytes s v spi) = some im) : imageTake re v spi f s =
    if imageCode s re (imageBytes s v spi) im ≠ 0 then lcFlag 4 (loadNoted (imageCode s re (imageBytes s v spi) im) s) else f im (loadNoted 0 s) := by
  unfold imageTake
  simp only [h]
  rfl

theorem imageTake_fails {im : Image} (h : imageParse s (!bit v 3) (imageBytes s v spi) = some im) (hc : imageCode s re (imageBytes s v spi) im ≠ 0) :
    imageTake re v spi f s = lcFlag 4 (loadNoted (imageCode s re (imageBytes s v spi) im) s) := (imageTake_parsed h).trans (if_pos hc)

theorem imageTake_passes {im : Image} (h : imageParse s (!bit v 3) (imageBytes s v spi) = some im) (hc : imageCode s re (imageBytes s v spi) im = 0) :
    imageTake re v spi f s = f im (loadNoted 0 s) := (imageTake_parsed h).trans (if_neg (not_not.mpr hc))

end Checks

/-! The application of an image -/

section Apply

variable {s : State} {im : Image}

theorem imageApplyRun_pending (hst : stage s = 5) (hp : s.boot.pending = some im) :
    imageApplyRun s = if im.fromStaged then portReset 0 (setStage 6 (imageApply true im s)) else setStage 6 (imageApply true im s) := by
  unfold imageApplyRun
  simp only [hp]
  exact if_neg (not_not.mpr hst)

/-- Without managers and routes a boot load applies what a reload does. -/
theorem imageApply_unrouted (heps : im.fmEps = []) (hroutes : im.routes = []) : imageApply true im s = imageApply false im s := by
  unfold imageApply
  simp only [heps, hroutes, Bool.not_true, Bool.not_false, Bool.false_eq_true, if_false, if_true, List.zipIdx_nil, List.foldl_nil]

@[simp] theorem itemRegs_store (im : Image) (s : State) : (itemRegs im s).store = s.store := by
  unfold itemRegs
  rw [rsetFld_store, foldl_store fun _ _ => rset_store ..]
  simp only [rset_store]

theorem imageCaps_mem (im : Image) (s : State) : (imageCaps im s).store.mem = s.store.mem := rfl

theorem imageApply_reload_mem (im : Image) (s : State) : (imageApply false im s).store.mem = s.store.mem := by
  rw [imageApply_reload, itemRegs_store, imageCaps_mem, imageOwned, bootSet_store]

/-- The registers that the items fill before the ports' and BOOT_STATUS. -/
theorem rget_itemRegs {r : Nat} (hstatus : r ≠ Reg.bootStatus) (hport : ∀ p < 2, r ≠ Reg.hostpBar2 + 256 * p) (im : Image) (s : State) :
    rget (itemRegs im s) r 0 = rget (rset Reg.dirCfg 0 (w32 (im.dirGib + im.dircacheMib * 256)) (rset Reg.ptArea 0 (w32 im.ptMib)
      (rset Reg.fabId 0 (w32 im.endpoint) (rset Reg.partCfg 0 (w32 im.parts) s)))) r 0 := by
  unfold itemRegs
  rw [rget_rsetFld_ne (rkey_ne_reg (by omega) (by omega) hstatus.symm)]
  refine List.foldlRecOn (motive := fun t : State => rget t r 0 = _) _ _ rfl fun t ht p hp => ?_
  rw [rget_rset_ne (rkey_ne_reg (by omega) (by omega) (hport p (List.mem_range.mp hp)).symm), ht]

theorem rget_itemRegs_fabId (im : Image) (s : State) : rget (itemRegs im s) Reg.fabId 0 = w32 im.endpoint := by
  rw [rget_itemRegs (by decide) (by decide), rget_rset_ne (by decide), rget_rset_ne (by decide), rget_rset_same]

theorem rget_itemRegs_partCfg (im : Image) (s : State) : rget (itemRegs im s) Reg.partCfg 0 = w32 im.parts := by
  rw [rget_itemRegs (by decide) (by decide), rget_rset_ne (by decide), rget_rset_ne (by decide), rget_rset_ne (by decide), rget_rset_same]

theorem rget_itemRegs_ptArea (im : Image) (s : State) : rget (itemRegs im s) Reg.ptArea 0 = w32 im.ptMib := by
  rw [rget_itemRegs (by decide) (by decide), rget_rset_ne (by decide), rget_rset_same]

theorem rget_setStage_ne {r : Nat} (h : r ≠ Reg.bootStatus) (n : Nat) (s : State) : rget (setStage n s) r 0 = rget s r 0 :=
  rget_rsetFld_ne (rkey_ne_reg (by omega) (by omega) h.symm) ..

/-- The hub at stage 6 with an image in force. -/
def imageInForce (im : Image) (s : State) : State := setStage 6 (imageApply true im s)

/-- What an image without managers and routes leaves at stage 6. -/
theorem imageInForce_effect (heps : im.fmEps = []) (hroutes : im.routes = []) (s : State) :
    stage (imageInForce im s) = 6 ∧ (imageInForce im s).boot.image = some im ∧ (imageInForce im s).boot.pending = none ∧
      rget (imageInForce im s) Reg.fabId 0 = w32 im.endpoint ∧ rget (imageInForce im s) Reg.partCfg 0 = w32 im.parts ∧
      rget (imageInForce im s) Reg.ptArea 0 = w32 im.ptMib ∧ (imageInForce im s).store.mem = s.store.mem := by
  unfold imageInForce
  rw [imageApply_unrouted heps hroutes]
  refine ⟨stage_setStage .., ?image, ?pending, ?fabId, ?partCfg, ?ptArea, ?mem⟩
  case image => rw [setStage_boot, imageApply_reload_boot, imageOwned, bootSet]
  case pending => rw [setStage_boot, imageApply_reload_boot, imageOwned, bootSet]
  case mem => rw [setStage_store, imageApply_reload_mem]
  case fabId => rw [rget_setStage_ne (by decide), imageApply_reload, rget_itemRegs_fabId]
  case partCfg => rw [rget_setStage_ne (by decide), imageApply_reload, rget_itemRegs_partCfg]
  case ptArea => rw [rget_setStage_ne (by decide), imageApply_reload, rget_itemRegs_ptArea]

end Apply

/-! Links and joining (R514, R516) -/

section Join

variable {s : State}

theorem linksEnd_trained (h : stage s = 6) (fab : List PortFit) (pcie : List HostFit) : linksEnd fab pcie s =
    bootSet (fun b => { b with linksDone := true }) (pcie.foldl (fun s f => linkUp f s) (fab.foldl (fun s f => portTrained f s) s)) := if_neg (not_not.mpr h)

theorem joinGo_joins (hst : stage s = 6) (hdone : s.boot.linksDone = true) (hroutes : ∀ m ∈ managers s, hasRoute s m.2 = true) :
    joinGo s = setStage 7 (sendJoin s) := if_pos ⟨hst, hdone, List.all_eq_true.mpr hroutes⟩

theorem joinGo_waits (h : ∃ m ∈ managers s, hasRoute s m.2 = false) : joinGo s = s := by
  refine if_neg fun ⟨_, _, hall⟩ => ?_
  obtain ⟨m, hm, hnone⟩ := h
  exact Bool.false_ne_true (hnone.symm.trans (List.all_eq_true.mp hall m hm))

end Join

/-! LOAD_FW (R512) -/

section LoadFw

variable {s : State} {img : FwImage}

theorem loadFwRun_verified (hsig : fwSigned img = true) (hsvn : s.boot.fwSvn ≤ img.svn.toNat) :
    loadFwRun img s = fwRun img (rsetFld Reg.bootCmd 0 8 8 0 s) := by
  unfold loadFwRun
  rw [hsig, Bool.not_true, if_neg Bool.false_ne_true, if_neg (Nat.not_lt.mpr hsvn)]

theorem loadFwRun_unsigned (hsig : fwSigned img = false) : loadFwRun img s = rsetFld Reg.bootCmd 0 8 8 2 s := by
  unfold loadFwRun
  rw [hsig, Bool.not_false, if_pos rfl]

theorem loadFwRun_old (hsig : fwSigned img = true) (hsvn : img.svn.toNat < s.boot.fwSvn) : loadFwRun img s = rsetFld Reg.bootCmd 0 8 8 4 s := by
  unfold loadFwRun
  rw [hsig, Bool.not_true, if_neg Bool.false_ne_true, if_pos hsvn]

end LoadFw

/-- Settles O51, with one lemma for each outcome of LOAD, of its checks, of the application, of the joining and of LOAD_FW. -/
theorem imageCommands : Obligations.ImageCommands := by
  unfold Obligations.ImageCommands
  refine ⟨?load, ?akist, ?checks, ?applied, ?effect, ?links, ?join, ?loadFw⟩
  case load =>
    intro s path v spi i hr hu hidle hop hpath s1
    exact ⟨fun hst => exec_imageLoad_unlocked hr hu hpath (bootCmdOp_runs (s := useUnlock path s) hidle hop hst _),
      fun hst => exec_imageLoad_unlocked hr hu hpath (bootCmdOp_otherStage (s := useUnlock path s) hidle hop hst _)⟩
  case akist => exact fun s v spi hal hidle hop hb => exec_imageLoad_akist hal hb (bootCmdOp_taken hidle hop 4 _)
  case checks => exact fun s v spi re f => ⟨imageTake_badFormat, fun im h hc => imageTake_fails h hc, fun im h hc => imageTake_passes h hc⟩
  case applied => exact fun s im hal hst hp => exec_actTo hal (imageApplyRun_pending hst hp)
  case effect => exact fun s im heps hroutes => imageInForce_effect heps hroutes s
  case links => exact fun s fab pcie hal hst => exec_actTo hal (linksEnd_trained hst fab pcie)
  case join =>
    exact fun s hal hst hdone => ⟨fun hroutes => exec_actTo hal (joinGo_joins hst hdone hroutes), fun hnone => exec_actTo hal (joinGo_waits hnone)⟩
  case loadFw =>
    intro s path v img i hr hu hidle hop s1 hst
    have hrun (u : State) (e : loadFwRun img s1 = u) : exec (.loadFw path v img) s = .next (finish u) :=
      exec_guarded_unlocked hr hu v ((bootCmdOp_runs (s := useUnlock path s) hidle hop hst _).trans e)
    exact ⟨fun hsig hsvn => hrun _ (loadFwRun_verified hsig hsvn), fun hsig => hrun _ (loadFwRun_unsigned hsig), fun hsig hsvn => hrun _ (loadFwRun_old hsig hsvn)⟩

end Sys2Proof.Machine
end

section
/-! Power, resets, the first boot stages and the temperatures (R471, R510 to R513, R550 to R560). -/

namespace Sys2Proof.Machine

open Sys2Proof

/-! Power (R510, R550, R551, R558) -/

theorem told_dead {s : State} (h : alive s = false) : told s = s := if_neg (ne_true_of_eq_false h)

theorem alive_eq_false {s : State} (h : s.boot.pwrok = false ∨ s.boot.railsGood = false ∨ s.boot.tripped = true) : alive s = false := by
  unfold alive
  obtain h | h | h := h <;> simp [h]

section Power

variable {s : State}

theorem exec_pwrokRise_starts (hoff : s.boot.pwrok = false) (hrails : s.boot.railsGood = true) (hcool : s.boot.tripped = false) :
    exec .pwrokRise s = .next (told (bootStart (bootSet (fun b => { b with pwrok := true }) s))) := by
  have hup : pwrokUp s = bootStart (bootSet (fun b => { b with pwrok := true }) s) := by simp [pwrokUp, bootSet, hoff, hrails, hcool]
  rw [← hup]
  rfl

theorem exec_pwrokRise_held (hoff : s.boot.pwrok = false) (h : s.boot.railsGood = false ∨ s.boot.tripped = true) :
    exec .pwrokRise s = .next (bootSet (fun b => { b with pwrok := true }) s) := by
  have hup : pwrokUp s = bootSet (fun b => { b with pwrok := true }) s := by
    unfold pwrokUp bootSet
    obtain h | h := h <;> simp [hoff, h]
  have hdead : alive (bootSet (fun b => { b with pwrok := true }) s) = false := alive_eq_false (.inr h)
  have e : exec .pwrokRise s = .next (told (pwrokUp s)) := rfl
  rw [e, hup, told_dead hdead]

theorem exec_supplyRailsGood_starts (hlate : s.boot.railsGood = false) (hpwrok : s.boot.pwrok = true) (hcool : s.boot.tripped = false) :
    exec .supplyRailsGood s = .next (told (bootStart (bootSet (fun b => { b with railsGood := true }) s))) := by
  have hup : railsUp s = bootStart (bootSet (fun b => { b with railsGood := true }) s) := by simp [railsUp, bootSet, hlate, hpwrok, hcool]
  rw [← hup]
  rfl

theorem exec_supplyRailsGood_held (hlate : s.boot.railsGood = false) (h : s.boot.pwrok = false ∨ s.boot.tripped = true) :
    exec .supplyRailsGood s = .next (bootSet (fun b => { b with railsGood := true }) s) := by
  have hup : railsUp s = bootSet (fun b => { b with railsGood := true }) s := by
    unfold railsUp bootSet
    obtain h | h := h <;> simp [hlate, h]
  have hdead : alive (bootSet (fun b => { b with railsGood := true }) s) = false := alive_eq_false (h.imp_right .inr)
  have e : exec .supplyRailsGood s = .next (told (railsUp s)) := rfl
  rw [e, hup, told_dead hdead]

theorem exec_pwrokFall (s : State) : exec .pwrokFall s = .next (bootSet (fun b => { b with pwrok := false }) (hubReset true (interrupt s))) := by
  have e : exec .pwrokFall s = .next (told (pwrokDown s)) := rfl
  rw [e, pwrokDown, told_dead (alive_eq_false (.inl rfl))]

theorem exec_powerLoss (s : State) :
    exec .powerLoss s = .next (bootSet (fun b => { b with pwrok := false, railsGood := false }) (hubReset false (interrupt s))) := by
  have e : exec .powerLoss s = .next (told (railsLost s)) := rfl
  rw [e, railsLost, told_dead (alive_eq_false (.inl rfl))]

theorem exec_thermalTrip (hrails : s.boot.railsGood = true) : exec .thermalTrip s = .next (bootSet (fun b => { b with tripped := true }) s) := by
  have hup : thermalTrip s = bootSet (fun b => { b with tripped := true }) s := if_pos hrails
  have e : exec .thermalTrip s = .next (told (thermalTrip s)) := rfl
  rw [e, hup, told_dead (alive_eq_false (.inr (.inr rfl)))]

theorem exec_thermalTrip_unpowered (hrails : s.boot.railsGood = false) : exec .thermalTrip s = .next s := by
  have hup : thermalTrip s = s := if_neg (ne_true_of_eq_false hrails)
  have e : exec .thermalTrip s = .next (told (thermalTrip s)) := rfl
  rw [e, hup, told_dead (alive_eq_false (.inr (.inl hrails)))]

/-! The management pins (R471, R558, R560) -/

theorem thermtripN_highZ (h : s.boot.railsGood = false ∨ s.boot.tripped = false) : thermtripN s = .highZ := by
  unfold thermtripN
  obtain h | h := h <;> simp [h]

theorem thermtripN_low (hrails : s.boot.railsGood = true) (htrip : s.boot.tripped = true) : thermtripN s = .low := by
  unfold thermtripN
  rw [hrails, htrip]
  rfl

theorem fatalN_low_iff (s : State) : fatalN s = .low ↔ s.boot.railsGood = true ∧ s.boot.pwrok = true ∧ rget s Reg.fatalStatus 0 ≠ 0 := by
  unfold fatalN
  split_ifs with h
  · simpa [and_assoc] using h
  · simpa [and_assoc] using h

end Power

/-! Resets (R511, R529) -/

theorem interrupt_idle {s : State} (h : s.boot.lcRan = none) : interrupt s = s := by
  unfold interrupt
  simp only [h]

/-- A transition of the running tick was cut short, or had blown its last fuse. -/
theorem interrupt_ran {s : State} {f t : Nat} (h : s.boot.lcRan = some (f, t)) :
    (interrupt s).boot.lcRan = none ∧ (((interrupt s).boot.lcState = f ∧ (interrupt s).boot.fusePending = some t) ∨
      ((interrupt s).boot.lcState = s.boot.lcState ∧ (interrupt s).boot.fusePending = s.boot.fusePending)) := by
  unfold interrupt
  simp only [h]
  split_ifs
  · exact ⟨rfl, .inl ⟨rfl, rfl⟩⟩
  · exact ⟨rfl, .inr ⟨rfl, rfl⟩⟩

theorem exec_resetN {s : State} (h : alive s = true) : exec .resetN s = .next (told (bootStart (hubReset true (interrupt s)))) := by
  have e : exec .resetN s = .next (told (if alive s then warmReset s else s)) := rfl
  rw [e, if_pos h, warmReset]

/-! The first stages (R512, R513) -/

section Stages

variable {s : State}

theorem fwCheck_end (hst : stage s = 0) (hlc : s.boot.lcState = 4) (a b : FwImage) : fwCheck a b s = setStage 1 s :=
  (if_neg (not_not.mpr hst)).trans (if_pos hlc)

theorem fwCheck_copies (hst : stage s = 0) (hlc : s.boot.lcState ≠ 4) (a b : FwImage) :
    fwCheck a b s = if fwGood s a then fwRun a s else if fwGood s b then fwRun b s else bootErr 9 2 s := (if_neg (not_not.mpr hst)).trans (if_neg hlc)

theorem clocksUp_locked (hst : stage s = 2) : clocksUp true s = setStage 3 (rset Reg.clkStatus 0 7 s) := (if_neg (not_not.mpr hst)).trans (if_pos rfl)

theorem clocksUp_unlocked (hst : stage s = 2) : clocksUp false s = bootErr 15 3 s := (if_neg (not_not.mpr hst)).trans (if_neg Bool.false_ne_true)

theorem memoryUp_noHbm (hst : stage s = 3) {hbm : Byte} (h : hbm = 0) (ddrGiB : List Nat) (flashTib : Nat) (dies : List DieFit) :
    memoryUp hbm ddrGiB flashTib dies s = bootErr 15 1 s := (if_neg (not_not.mpr hst)).trans (if_pos h)

@[simp] theorem trainDie_store (d : DieFit) (s : State) : (trainDie d s).store = s.store := by
  unfold trainDie
  dsimp only
  split_ifs <;> rfl

/-- Training leaves the capacities it found, and store memory as it was. -/
theorem memoryUp_trained (hst : stage s = 3) {hbm : Byte} (h : hbm ≠ 0) (ddrGiB : List Nat) (flashTib : Nat) (dies : List DieFit) :
    stage (memoryUp hbm ddrGiB flashTib dies s) = 4 ∧ (memoryUp hbm ddrGiB flashTib dies s).store.caps = trainedCaps hbm (ddrGiB.take 12) flashTib ∧
      (memoryUp hbm ddrGiB flashTib dies s).store.mem = s.store.mem := by
  unfold memoryUp
  rw [if_neg (not_not.mpr hst), if_neg h]
  dsimp only
  rw [setStage_store, foldl_store fun s d => trainDie_store d s]
  exact ⟨stage_setStage .., rfl, rfl⟩

end Stages

/-! Throttling (R556) -/

/-- A bit of a field is that bit of the field's number. -/
theorem bit_eq_testBit_fld {w : Nat} (v : BitVec w) (lo : Nat) {n k : Nat} (h : k < n) : bit v (lo + k) = (fld v lo n).testBit k := by
  unfold bit fld
  rw [Nat.testBit_mod_two_pow, Nat.testBit_div_two_pow, BitVec.testBit_toNat, Nat.add_comm]
  simp [h]

theorem bit_setFld_low (v : W32) (n : Nat) {k : Nat} (h : k < 3) : bit (setFld v 0 3 n) k = (n % 8).testBit k := by
  have hk := bit_eq_testBit_fld (setFld v 0 3 n) 0 h
  rwa [Nat.zero_add, fld_setFld_same v 0 3 n (by omega)] at hk

theorem testBit_causes : ∀ die power hot : Bool, let n := (b2n die + 2 * b2n power + 4 * b2n hot) % 8
    n.testBit 0 = die ∧ n.testBit 1 = power ∧ n.testBit 2 = hot := by decide

theorem rget_throttleOn (die power vrhot : Bool) (s : State) : rget (throttleOn die power vrhot s) Reg.throtStatus 0 =
    setFld (rget s Reg.throtStatus 0) 0 3 (b2n die + 2 * b2n power + 4 * b2n (vrhot && rbit s Reg.pwrCfg 0 16)) := rget_rset_same ..

theorem throttleOn_causes (die power vrhot : Bool) (s : State) :
    rbit (throttleOn die power vrhot s) Reg.throtStatus 0 0 = die ∧ rbit (throttleOn die power vrhot s) Reg.throtStatus 0 1 = power ∧
      rbit (throttleOn die power vrhot s) Reg.throtStatus 0 2 = (vrhot && rbit s Reg.pwrCfg 0 16) := by
  have hbit (k : Nat) (h : k < 3) : rbit (throttleOn die power vrhot s) Reg.throtStatus 0 k = _ :=
    (congrArg (bit · k) (rget_throttleOn die power vrhot s)).trans (bit_setFld_low _ _ h)
  rw [hbit 0 (by omega), hbit 1 (by omega), hbit 2 (by omega)]
  exact testBit_causes ..

theorem throttleOff_causes (s : State) : rfld (throttleOff s) Reg.throtStatus 0 0 3 = 0 := rfld_rsetFld Reg.throtStatus 0 0 3 0 s (by omega)

/-! The HBM stacks (R557) -/

/-- A stack enters a list of stacks where its measure applies. -/
theorem hbmHotter_refresh (k temp : Nat) (s : State) :
    (hbmHotter k temp s).boot.hbmRefresh = if 85 ≤ temp then k :: s.boot.hbmRefresh.filter (· ≠ k) else s.boot.hbmRefresh := by
  by_cases h : 85 ≤ temp <;> simp [hbmHotter, hbmStatus, bootSet, h]

theorem hbmHotter_half (k temp : Nat) (s : State) :
    (hbmHotter k temp s).boot.hbmHalf = if hbmLimit s ≤ temp then k :: s.boot.hbmHalf.filter (· ≠ k) else s.boot.hbmHalf := by
  by_cases h : hbmLimit s ≤ temp <;> simp [hbmHotter, hbmStatus, bootSet, h]

theorem hbmCooler_refresh (k temp : Nat) (s : State) :
    (hbmCooler k temp s).boot.hbmRefresh = if temp < 85 then s.boot.hbmRefresh.filter (· ≠ k) else s.boot.hbmRefresh := by
  by_cases h : temp < 85 <;> simp [hbmCooler, hbmStatus, bootSet, h]

theorem hbmCooler_half (k temp : Nat) (s : State) :
    (hbmCooler k temp s).boot.hbmHalf = if temp ≤ hbmLimit s - thermHyst s then s.boot.hbmHalf.filter (· ≠ k) else s.boot.hbmHalf := by
  by_cases h : temp ≤ hbmLimit s - thermHyst s <;> simp [hbmCooler, hbmStatus, bootSet, h]

theorem notMem_filter_ne (k : Nat) (l : List Nat) : k ∉ l.filter (· ≠ k) := by simp

/-- Settles O50: power by the pins that hold the hub, each reset and stage by its outcomes, heat by what each threshold does. -/
theorem resetsPowerAndHeat : Obligations.ResetsPowerAndHeat := by
  unfold Obligations.ResetsPowerAndHeat
  refine ⟨?pwrok, ?rails, ?fall, ?resetN, ?cut, ?hubReset, ?ended, ?firmware, ?clocks, ?training, ?throttle, ?throttleEnd, ?hot, ?cool, ?trip, ?pins⟩
  case pwrok => exact fun s hoff => ⟨exec_pwrokRise_starts hoff, exec_pwrokRise_held hoff⟩
  case rails => exact fun s hlate => ⟨exec_supplyRailsGood_starts hlate, exec_supplyRailsGood_held hlate⟩
  case fall => exact fun s => ⟨exec_pwrokFall s, exec_powerLoss s⟩
  case resetN => exact fun s hal => exec_resetN hal
  case cut => exact fun s => ⟨interrupt_idle, fun f t h => interrupt_ran h⟩
  case hubReset =>
    exact fun s path v i hr => ⟨fun hu hgo => exec_guarded_unlocked hr hu v (if_pos hgo),
      fun hu hgo => exec_guarded_unlocked hr hu v (if_neg (ne_true_of_eq_false hgo)), fun hu => exec_guarded_locked hr hu v _⟩
  case ended => exact fun s a b hal hst hlc => exec_actTo hal (fwCheck_end hst hlc a b)
  case firmware =>
    intro s a b hal hst hlc
    refine ⟨fun ha => exec_actTo hal ?_, fun ha hb => exec_actTo hal ?_, fun ha hb => exec_actTo hal ?_⟩
    · rw [fwCheck_copies hst hlc, if_pos ha]
    · rw [fwCheck_copies hst hlc, if_neg (ne_true_of_eq_false ha), if_pos hb]
    · rw [fwCheck_copies hst hlc, if_neg (ne_true_of_eq_false ha), if_neg (ne_true_of_eq_false hb)]
  case clocks => exact fun s hal hst => ⟨exec_actTo hal (clocksUp_locked hst), exec_actTo hal (clocksUp_unlocked hst)⟩
  case training =>
    exact fun s hbm ddrGiB flashTib dies hal hst => ⟨fun h => exec_actTo hal (memoryUp_noHbm hst h ..), fun h => ⟨_, exec_act hal, memoryUp_trained hst h ..⟩⟩
  case throttle => exact fun s die power vrhot hal => ⟨_, exec_act hal, rfl, throttleOn_causes ..⟩
  case throttleEnd => exact fun s hal => ⟨_, exec_act hal, rfl, throttleOff_causes s, rfl⟩
  case hot =>
    intro s k temp hal
    refine ⟨_, exec_act hal, rfl, fun h => ?_, fun h => ?_, fun h => ?_, fun h => ?_⟩
    · rw [hbmHotter_refresh, if_pos h]; exact List.mem_cons_self
    · rw [hbmHotter_half, if_pos h]; exact List.mem_cons_self
    · rw [hbmHotter_refresh, if_neg (Nat.not_le.mpr h)]
    · rw [hbmHotter_half, if_neg (Nat.not_le.mpr h)]
  case cool =>
    intro s k temp hal
    refine ⟨_, exec_act hal, rfl, fun h => ?_, fun h => ?_, fun h => ?_, fun h => ?_⟩
    · rw [hbmCooler_refresh, if_pos h]; exact notMem_filter_ne _ _
    · rw [hbmCooler_half, if_pos h]; exact notMem_filter_ne _ _
    · rw [hbmCooler_refresh, if_neg (Nat.not_lt.mpr h)]
    · rw [hbmCooler_half, if_neg (Nat.not_le.mpr h)]
  case trip => exact fun s hrails => ⟨exec_thermalTrip hrails, alive_eq_false (.inr (.inr rfl)), thermtripN_low hrails rfl, rfl, rfl⟩
  case pins =>
    exact fun s => ⟨fun hrails => ⟨exec_thermalTrip_unpowered hrails, thermtripN_highZ (.inl hrails)⟩, thermtripN_highZ (.inr rfl), fatalN_low_iff s⟩

end Sys2Proof.Machine
end

section
/-! The life cycle (R525 to R535): LC_CMD and when it refuses, JTAG, attestation, and the events that violate security (R508, R534). -/

namespace Sys2Proof.Machine

open Sys2Proof

/-! LC_CMD (R530, Table 15-17) -/

theorem lcCmdOp_named {op : Nat} {v : W32} (hop : cmdOp v = op) (f : State → State) (s : State) : lcCmdOp op v f s = f (cfgStore Reg.lcCmd 0 v s) := if_pos hop

theorem exec_lcCmd {s : State} {path : Path} {i op : Nat} {v : W32} (hr : Reaches s path Reg.lcCmd i) (hu : unlocked s path = true) (hop : cmdOp v = op)
    {f : State → State} {u : State} (e : f (cfgStore Reg.lcCmd 0 v (useUnlock path s)) = u) :
    done (act (guarded path Reg.lcCmd v (lcCmdOp op v f)) s) = .next (finish u) := exec_guarded_unlocked hr hu v ((lcCmdOp_named hop f _).trans e)

section Token

variable {s : State} {kind : Nat} {signed : Option Bool}

theorem tokenRun_accepted (hready : lcReady s = true) (hstatus : tokenStatus s kind signed = 0) (f : State → State) :
    tokenRun kind signed f s = newNonce (lcStatusSet 0 (f s)) := by
  unfold tokenRun
  simp only [hready, hstatus, if_true]

theorem tokenRun_refused (hready : lcReady s = true) (hstatus : tokenStatus s kind signed ≠ 0) (f : State → State) :
    tokenRun kind signed f s = newNonce (lcStatusSet (tokenStatus s kind signed) (lcFlag 1 s)) := by
  unfold tokenRun
  simp only [hready, hstatus, if_true, if_false]

theorem tokenRun_busy (hready : lcReady s = false) (kind : Nat) (signed : Option Bool) (f : State → State) :
    tokenRun kind signed f s = newNonce (lcStatusSet 6 (lcFlag 1 s)) := by
  unfold tokenRun
  simp [hready]

/-- BUSY_HUB is no outcome of a token's checks. -/
theorem tokenStatus_lt (s : State) (kind : Nat) (signed : Option Bool) : tokenStatus s kind signed < 6 := by
  unfold tokenStatus
  split_ifs
  · omega
  · omega
  · omega
  · split <;> omega

end Token

theorem newNonceRun_ready {s : State} (h : lcReady s = true) : newNonceRun s = newNonce (lcStatusSet 0 s) := if_pos h

theorem newNonceRun_busy {s : State} (h : lcReady s = false) : newNonceRun s = lcStatusSet 6 s := if_neg (ne_true_of_eq_false h)

/-- A new nonce takes free values and is itself all that is new. -/
theorem newNonce_frame (s : State) : ∃ n v, newNonce s = { s with fresh := n, boot := { s.boot with nonce := v } } := by
  have hdraw : ∃ n, (draw512 s).2 = { s with fresh := n } :=
    List.foldlRecOn (motive := fun a : BitVec 512 × State => ∃ n, a.2 = { s with fresh := n }) _ _ ⟨s.fresh, rfl⟩ fun a ⟨n, ha⟩ i _ => ⟨n + 1, by simp only [draw, ha]⟩
  obtain ⟨n, hn⟩ := hdraw
  refine ⟨n, (draw512 s).1, ?_⟩
  simp only [newNonce, bootSet, hn]

@[simp] theorem lcStatusSet_boot (n : Nat) (s : State) : (lcStatusSet n s).boot = s.boot := rsetFld_boot ..

@[simp] theorem lcStatusSet_store (n : Nat) (s : State) : (lcStatusSet n s).store = s.store := rsetFld_store ..

@[simp] theorem lcFlag_boot (b : Nat) (s : State) : (lcFlag b s).boot = s.boot := rset_boot ..

@[simp] theorem lcFlag_store (b : Nat) (s : State) : (lcFlag b s).store = s.store := rset_store ..

theorem rfld_lcStatusSet (n : Nat) (s : State) : rfld (lcStatusSet n s) Reg.lcCmd 0 8 8 = n % 256 := rfld_rsetFld Reg.lcCmd 0 8 8 n s (by omega)

theorem rfld_newNonce (s : State) (r i lo n : Nat) : rfld (newNonce s) r i lo n = rfld s r i lo n := by
  obtain ⟨m, v, e⟩ := newNonce_frame s
  rw [e]
  rfl

/-- u shows BUSY_HUB and keeps the life-cycle state and store memory of s. -/
structure SaysBusyHub (s u : State) : Prop where
  status : rfld u Reg.lcCmd 0 8 8 = 6
  lcState : u.boot.lcState = s.boot.lcState
  debugOpen : u.boot.debugOpen = s.boot.debugOpen
  store : u.store = s.store

theorem SaysBusyHub.newNonce {s u : State} (h : SaysBusyHub s u) : SaysBusyHub s (newNonce u) := by
  obtain ⟨m, v, e⟩ := newNonce_frame u
  obtain ⟨hstatus, hlc, hdebug, hstore⟩ := h
  exact ⟨(rfld_newNonce ..).trans hstatus, by rw [e, ← hlc], by rw [e, ← hdebug], by rw [e, ← hstore]⟩

/-- A command shows BUSY_HUB exactly where it finds the hub not ready for it (R530). -/
def BusyHubUnready (run : State → State) : Prop :=
  ∀ s, (lcReady s = false → SaysBusyHub s (run s)) ∧ (lcReady s = true → rfld (run s) Reg.lcCmd 0 8 8 ≠ 6)

theorem tokenRun_busyHub (kind : Nat) (signed : Option Bool) (f : State → State) (s : State) :
    (lcReady s = false → SaysBusyHub s (tokenRun kind signed f s)) ∧ (lcReady s = true → rfld (tokenRun kind signed f s) Reg.lcCmd 0 8 8 ≠ 6) := by
  refine ⟨fun h => ?_, fun h => ?_⟩
  · rw [tokenRun_busy h]
    exact SaysBusyHub.newNonce ⟨rfld_lcStatusSet .., by simp, by simp, by simp⟩
  · have hlt := tokenStatus_lt s kind signed
    by_cases hstatus : tokenStatus s kind signed = 0
    · rw [tokenRun_accepted h hstatus, rfld_newNonce, rfld_lcStatusSet]
      omega
    · rw [tokenRun_refused h hstatus, rfld_newNonce, rfld_lcStatusSet]
      omega

theorem transitionRun_busyHub : BusyHubUnready transitionRun := by
  intro s
  unfold transitionRun
  exact tokenRun_busyHub ..

theorem debugOpenRun_busyHub : BusyHubUnready debugOpenRun := by
  intro s
  unfold debugOpenRun
  exact tokenRun_busyHub ..

theorem newNonceRun_busyHub : BusyHubUnready newNonceRun := by
  refine fun s => ⟨fun h => ?_, fun h => ?_⟩
  · rw [newNonceRun_busy h]
    exact ⟨rfld_lcStatusSet .., by simp, by simp, by simp⟩
  · rw [newNonceRun_ready h, rfld_newNonce, rfld_lcStatusSet]
    omega

theorem lcReady_iff (s : State) : lcReady s = true ↔ (stage s = 7 ∨ stage s = 9 ∨ stage s = 4) ∧ rbit s Reg.bootCmd 0 4 = false := by
  unfold lcReady cmdBusy
  simp only [Bool.and_eq_true, List.contains_eq_mem, List.mem_cons, List.not_mem_nil, or_false, decide_eq_true_eq, Bool.not_eq_true']
  tauto

/-- Writing LC_CMD changes neither condition. -/
theorem lcReady_cfgStore (v : W32) (s : State) : lcReady (cfgStore Reg.lcCmd 0 v s) = lcReady s := by
  have hstage : rget (cfgStore Reg.lcCmd 0 v s) Reg.bootStatus 0 = rget s Reg.bootStatus 0 := rget_cfgStore_ne (by decide) (by decide) v s
  have hcmd : rget (cfgStore Reg.lcCmd 0 v s) Reg.bootCmd 0 = rget s Reg.bootCmd 0 := rget_cfgStore_ne (by decide) (by decide) v s
  simp only [lcReady, stage, rfld, cmdBusy, rbit, hstage, hcmd]

/-! JTAG (R525) -/

section Jtag

variable {s : State}

theorem jtagRun_reads (hopen : jtagOpen s = true) {off : BitVec 26} {i : Nat} (h : regTarget s .akist off.toNat = .at i) :
    jtagRun (.regRead off) s = emit (.jtag (some (leBytes 4 (regValue s .akist off.toNat i).toNat))) (readEffect off.toNat i s) := by
  unfold jtagRun
  simp only [hopen, if_true, regReadVia, h, Option.getD_some]

theorem jtagRun_writes (hopen : jtagOpen s = true) (off : BitVec 26) (v : W32) :
    jtagRun (.regWrite off v) s = emit (.jtag (some [])) (regWriteOne .akist off.toNat v s) := if_pos hopen

theorem jtagRun_writeClosed (hclosed : jtagOpen s = false) (off : BitVec 26) (v : W32) : jtagRun (.regWrite off v) s = jtagRefused s :=
  if_neg (ne_true_of_eq_false hclosed)

theorem jtagRun_readClosed (hclosed : jtagOpen s = false) (off : BitVec 26) : jtagRun (.regRead off) s = jtagRefused s :=
  if_neg (ne_true_of_eq_false hclosed)

end Jtag

/-! Attestation (R535) -/

section Attestation

variable {s : State}

/-- The answers of the last second. -/
def recentAnswers (s : State) : List Nat := s.boot.mctp.filter fun t => decide (s.boot.tick < t + 1500)

theorem mctpRun_keyed (h3 : 3 ≤ stage s) (h8 : stage s ≤ 8) (hp : Nat) (f : State → List Byte) : mctpRun hp f s =
    if 20 ≤ (recentAnswers s).length then emit (.mctp hp true []) s
    else emit (.mctp hp false (f s)) (bootSet (fun b => { b with mctp := b.tick :: recentAnswers s }) s) := by
  have hkey : keyReady s = true := by simp [keyReady, h3, h8]
  unfold mctpRun
  rw [hkey, Bool.not_true, if_neg Bool.false_ne_true]
  rfl

theorem mctpRun_answers (h3 : 3 ≤ stage s) (h8 : stage s ≤ 8) (hfew : (recentAnswers s).length < 20) (hp : Nat) (f : State → List Byte) :
    mctpRun hp f s = emit (.mctp hp false (f s)) (bootSet (fun b => { b with mctp := b.tick :: recentAnswers s }) s) :=
  (mctpRun_keyed h3 h8 hp f).trans (if_neg (Nat.not_le.mpr hfew))

theorem mctpRun_busy (h3 : 3 ≤ stage s) (h8 : stage s ≤ 8) (hmany : 20 ≤ (recentAnswers s).length) (hp : Nat) (f : State → List Byte) :
    mctpRun hp f s = emit (.mctp hp true []) s := (mctpRun_keyed h3 h8 hp f).trans (if_pos hmany)

end Attestation

/-! Security violations (R508, R534) -/

/-- Whether the lock was lost is free: ROOT_LOCK then reads 0. -/
theorem clockLost_violates (s : State) : ∃ u, clockLost s = secViolate 1 u ∧ u.store = s.store ∧ u.boot = s.boot ∧ u.rel = s.rel := by
  unfold clockLost drawBit
  dsimp only
  split_ifs
  · exact ⟨_, rfl, rfl, rfl, rfl⟩
  · exact ⟨_, rfl, rfl, rfl, rfl⟩

/-- Settles O53, with one lemma for each outcome of a token command, of JTAG and of an attestation. -/
theorem lifeCycleCommands : Obligations.LifeCycleCommands := by
  unfold Obligations.LifeCycleCommands
  refine ⟨?commands, ?token, ?jtag, ?attestation, ?violations⟩
  case commands =>
    intro s path v i hr hu s1
    exact ⟨fun hop => exec_lcCmd hr hu hop rfl, fun hop => exec_lcCmd hr hu hop rfl, fun hop hready => exec_lcCmd hr hu hop (newNonceRun_ready hready),
      fun hop hready => exec_lcCmd hr hu hop (newNonceRun_busy hready)⟩
  case token =>
    exact fun s kind signed f => ⟨fun hready h => tokenRun_accepted hready h f, fun hready h => tokenRun_refused hready h f,
      fun hready => tokenRun_busy hready kind signed f⟩
  case jtag =>
    exact fun s off v hal => ⟨exec_act hal, exec_act hal, fun hopen i h => exec_actTo hal (jtagRun_reads hopen h),
      fun hopen => exec_actTo hal (jtagRun_writes hopen off v),
      fun hclosed => ⟨exec_actTo hal (jtagRun_writeClosed hclosed off v), exec_actTo hal (jtagRun_readClosed hclosed off)⟩⟩
  case attestation =>
    exact fun s via nonce hal h3 h8 => ⟨fun hfew => ⟨exec_actTo hal (mctpRun_answers h3 h8 hfew ..), exec_actTo hal (mctpRun_answers h3 h8 hfew ..)⟩,
      fun hmany => ⟨exec_actTo hal (mctpRun_busy h3 h8 hmany ..), exec_actTo hal (mctpRun_busy h3 h8 hmany ..)⟩⟩
  case violations =>
    intro s hal
    obtain ⟨u, hu, hframe⟩ := clockLost_violates s
    exact ⟨exec_act hal, exec_act hal, exec_act hal, u, exec_actTo hal hu, hframe⟩

/-- What R530 says of a command in a state: refused with BUSY_HUB where it may not run, and never so where it may. -/
def FollowsR530 (s : State) (c : Instr) : Prop :=
  let may := (stage s = 7 ∨ stage s = 9 ∨ stage s = 4) ∧ rbit s Reg.bootCmd 0 4 = false
  (¬may → ∃ u, exec c s = .next (finish u) ∧ rfld u Reg.lcCmd 0 8 8 = 6 ∧ u.boot.lcState = s.boot.lcState ∧ u.boot.debugOpen = s.boot.debugOpen ∧ u.store = s.store) ∧
    (may → ∃ u, exec c s = .next (finish u) ∧ rfld u Reg.lcCmd 0 8 8 ≠ 6)

theorem followsR530 {s : State} {path : Path} {v : W32} {c : Instr} {run : State → State} (hrun : BusyHubUnready run)
    (hexec : exec c s = .next (finish (run (cfgStore Reg.lcCmd 0 v (useUnlock path s))))) : FollowsR530 s c := by
  unfold FollowsR530
  intro may
  have hready : lcReady (cfgStore Reg.lcCmd 0 v (useUnlock path s)) = true ↔ may := (lcReady_cfgStore v (useUnlock path s)) ▸ lcReady_iff s
  obtain ⟨hbusy, hgo⟩ := hrun (cfgStore Reg.lcCmd 0 v (useUnlock path s))
  refine ⟨fun hnot => ?_, fun hmay => ⟨_, hexec, hgo (hready.mpr hmay)⟩⟩
  obtain ⟨hstatus, hlc, hdebug, hstore⟩ := hbusy (eq_false_of_ne_true fun h => hnot (hready.mp h))
  rw [cfgStore_boot] at hlc hdebug
  rw [cfgStore_store] at hstore
  exact ⟨_, hexec, hstatus, hlc, hdebug, hstore⟩

/-- Settles O55: each of the three commands shows BUSY_HUB exactly where the hub is not ready, and storing LC_CMD changes nothing of that. -/
theorem lifeCycleBusyHub : Obligations.LifeCycleBusyHub := by
  unfold Obligations.LifeCycleBusyHub
  intro s path v i op hr hu hop
  match op with
  | 0 => exact followsR530 transitionRun_busyHub (exec_lcCmd hr hu hop rfl)
  | 1 => exact followsR530 debugOpenRun_busyHub (exec_lcCmd hr hu hop rfl)
  | 2 => exact followsR530 newNonceRun_busyHub (exec_lcCmd hr hu hop rfl)

end Sys2Proof.Machine
end
